-- ==== Sys2Proof/Word.lean ====
section
/-! DEFINITION. The word types of the machine and their plainest arithmetic (spec/00_scope.md R2 to R4). -/

namespace Sys2Proof

/-- A 64-bit scalar register or memory word. -/
abbrev Word := BitVec 64

/-- One byte of memory. -/
abbrev Byte := BitVec 8

/-- One 32-bit instruction word (04_encoding.md R63). -/
abbrev IWord := BitVec 32

/-- The period P of the rotation, in cycles (02_execution_model.md R22). -/
abbrev period : Nat := 16

end Sys2Proof
end

