-- ==== Sys2Proof/Config.lean ====
section
/-! DEFINITION. What an implementation of the module fixes, and the free values: constants without a body, of which nothing can be proved. -/

namespace Sys2Proof.Config

/-- Byte n of the SLH-DSA-SHAKE-256s signature, made with the module's identity key, over the log and the nonce (15 R313). Log 5. -/
opaque slhByte : List (BitVec 8) → Nat → BitVec 8

/-- XFRM's twiddle factor of butterfly k at size 2^m, direction bit, as two F32 patterns (10 R200 states a fixed
order of butterflies and no factors). Log 5. -/
opaque twiddle : Nat → Nat → Bool → BitVec 32 × BitVec 32

/-- XFRM's real forward transform of 2^m points: word k of its output (10 R200 names it and gives no layout). Log 5. -/
opaque realForward : Nat → List (BitVec 8) → Nat → BitVec 64

/-- The last-level TLB entry a fill into a full last-level TLB replaces (11 R233: not specified). Log 5. -/
opaque llVictim : Nat → Nat

/-- Hops and crossings of the detour between two physical tiles, while the edges and routers listed are out of service (14 R403
gives a detour and not its length). Log 5. -/
opaque detour : List Nat → Nat → Nat → Nat × Nat

/-- The bytes of a slab's defect map, of its retired tiles, withdrawn pages and link modules DOWN (24 R394 lists them and gives no layout). Log 5. -/
opaque mapBytes : List Nat → List Nat → List Nat → List (BitVec 8)

/-- A result the manual names and does not state: the k-th free word of a run. Log 5. -/
opaque freeWord : Nat → BitVec 64

end Sys2Proof.Config
end

