-- ==== Sys2Proof/Machine/Bits.lean ====
section
/-! DEFINITION. Bit fields, little-endian byte strings and the sparse maps that hold memories and units. -/

namespace Sys2Proof.Machine

/-- Value at a key of a map, or the value of an unlisted key. -/
def kvGet {α : Type} : List (Nat × α) → Nat → α → α
  | [], _, d => d
  | (k', v) :: r, k, d => if k' = k then v else kvGet r k d

/-- The map with one key set, keys rising. -/
def kvSet {α : Type} : List (Nat × α) → Nat → α → List (Nat × α)
  | [], k, v => [(k, v)]
  | (k', v') :: r, k, v =>
    if k < k' then (k, v) :: (k', v') :: r
    else if k = k' then (k, v) :: r
    else (k', v') :: kvSet r k v

/-- The map without a key. -/
def kvErase {α : Type} (m : List (Nat × α)) (k : Nat) : List (Nat × α) := m.filter fun e => e.1 != k

/-- Keys strictly rising. -/
def kvWf {α : Type} : List (Nat × α) → Bool
  | [] => true
  | [_] => true
  | (a, _) :: (b, v) :: r => decide (a < b) && kvWf ((b, v) :: r)

/-- Canonical memory: addresses strictly rising and no listed zero byte, the value an unlisted address reads as
(15 R311 step 6; log 3). -/
abbrev Memory.wf (m : List Host.Cell) : Prop := kvWf m = true ∧ ∀ c ∈ m, c.2 ≠ 0#8

/-- One byte of memory. -/
def memGet (m : List Host.Cell) (a : Nat) : Byte := kvGet m a 0

/-- Memory with one byte written, in canonical form. -/
def memSet (m : List Host.Cell) (a : Nat) (b : Byte) : List Host.Cell :=
  if b = 0 then kvErase m a else kvSet m a b

/-- `n` bytes from an address up. -/
def memRead (m : List Host.Cell) (a n : Nat) : List Byte := (List.range n).map fun i => memGet m (a + i)

/-- Bytes written from an address up. -/
def memWrite (m : List Host.Cell) (a : Nat) : List Byte → List Host.Cell
  | [] => m
  | b :: bs => memWrite (memSet m a b) (a + 1) bs

/-- Little-endian value of a byte string (00 R3). -/
def leNat : List Byte → Nat
  | [] => 0
  | b :: bs => b.toNat + 256 * leNat bs

/-- The low `n` bytes of a number, little-endian. -/
def leBytes : Nat → Nat → List Byte
  | 0, _ => []
  | n + 1, v => BitVec.ofNat 8 v :: leBytes n (v / 256)

/-- Bits hi down to lo of a number (04 Table 4.10). -/
def bits (v hi lo : Nat) : Nat := v / 2 ^ lo % 2 ^ (hi + 1 - lo)

/-- One bit of a number. -/
def bitOf (v i : Nat) : Bool := v / 2 ^ i % 2 == 1

/-- A word of a natural number. -/
def wd (n : Nat) : Word := BitVec.ofNat 64 n

/-- Bits `n - 1` to 0, sign-extended to 64 (04 Table 4.10). -/
def sextN (v n : Nat) : Word :=
  let x := v % 2 ^ n
  if x < 2 ^ (n - 1) then wd x else wd (2 ^ 64 - 2 ^ n + x)

/-- Bits `n - 1` to 0 (04 Table 4.10). -/
def zextN (v n : Nat) : Word := wd (v % 2 ^ n)

/-- Signed value of the low `w` bits. -/
def sval (v w : Nat) : Int :=
  let x := v % 2 ^ w
  if x < 2 ^ (w - 1) then (x : Int) else (x : Int) - 2 ^ w

/-- An integer modulo 2^w. -/
def wrapN (x : Int) (w : Nat) : Nat := (x % 2 ^ w).toNat

/-- A word with the bits from `lo` of width `n` replaced. -/
def putBits (v : Word) (lo n x : Nat) : Word :=
  wd (v.toNat - bits v.toNat (lo + n - 1) lo * 2 ^ lo + (x % 2 ^ n) * 2 ^ lo)

/-- Number of one bits among the low `n` bits. -/
def popCount : Nat → Nat → Nat
  | 0, _ => 0
  | n + 1, v => v % 2 + popCount n (v / 2)

/-- Leading zeros of the low `n` bits. -/
def leadZeros : Nat → Nat → Nat
  | 0, _ => 0
  | n + 1, v => if v / 2 ^ n % 2 = 1 then 0 else 1 + leadZeros n v

/-- Trailing zeros of the low `n` bits. -/
def trailZeros : Nat → Nat → Nat
  | 0, _ => 0
  | n + 1, v => if v % 2 = 1 then 0 else 1 + trailZeros n (v / 2)

/-- Bits of the low `n` in reverse. -/
def revBits : Nat → Nat → Nat
  | 0, _ => 0
  | n + 1, v => v % 2 * 2 ^ n + revBits n (v / 2)

/-- A list with one place replaced. -/
def listSet {α : Type} : List α → Nat → α → List α
  | [], _, _ => []
  | _ :: r, 0, v => v :: r
  | x :: r, n + 1, v => x :: listSet r n v

/-- A list without one place. -/
def listDrop1 {α : Type} : List α → Nat → List α
  | [], _ => []
  | _ :: r, 0 => r
  | x :: r, n + 1 => x :: listDrop1 r n

/-- The first element with the least key. -/
def listMin {α : Type} (key : α → Nat) : List α → Option α
  | [] => none
  | x :: r =>
    match listMin key r with
    | none => some x
    | some y => if key x ≤ key y then some x else some y

/-- A list cut into pieces of `n`. -/
def chunks {α : Type} (n : Nat) : Nat → List α → List (List α)
  | 0, _ => []
  | k + 1, l => l.take n :: chunks n k (l.drop n)

/-- 64-bit words of a byte string. -/
def leWords (bs : List Byte) : List Word := (chunks 8 (bs.length / 8) bs).map fun c => wd (leNat c)

/-- A vector place by number; out of range reads the default. -/
def vget {α : Type} {n : Nat} (v : Vector α n) (i : Nat) (d : α) : α := v.toList.getD i d

/-- A vector with one place set by number. -/
def vset {α : Type} {n : Nat} (v : Vector α n) (i : Nat) (x : α) : Vector α n :=
  if h : i < n then v.set i x h else v

end Sys2Proof.Machine
end

