-- ==== Sys2Proof/Syntax.lean ====
section
/-! DEFINITION. The instructions of the machine and the steps of its other agents: one constructor per row of the
opcode table, with the types of their arguments. -/

namespace Sys2Proof

/-- A thread slot, by virtual tile `48*y + x` and slot number (02 R21). -/
structure Who where
  tile : Nat
  slot : Nat
  deriving DecidableEq, Repr

/-- A scalar specifier code of Table 3.2 (03 R46). -/
inductive Spec where
  | g (i : BitVec 5)
  | o (i : BitVec 3)
  | l (i : BitVec 2)
  | n (i : BitVec 2)
  | q (i : BitVec 2)
  | f (i : BitVec 2)
  | z
  | tid
  | vt
  deriving DecidableEq, Repr

/-- A guard of the R and V formats: execute when predicate `p` differs from `sense` (04 R64). -/
structure Guard where
  sense : BitVec 1
  p : BitVec 3
  deriving DecidableEq, Repr

/-- Page placement (11 Table 11.3); a POD page names its responding module (15 R303). -/
inductive Placement where
  | home
  | repl
  | mod (d : Nat)
  | pod (module : Nat)
  deriving DecidableEq, Repr

/-- One page mapping of a context (11 R225, R232): virtual base, log2 of its size, physical base, permissions. -/
structure Page where
  ctx : Nat
  va : Nat
  lg : Nat
  pa : Nat
  r : Bool
  w : Bool
  x : Bool
  plc : Placement
  deriving DecidableEq, Repr

/-- A fault of the array's datapath in one row (24 R378, R379): bits inverted in an element as it is written, an error in one band sum of
one column, or bits inverted in a byte of the latched weights. -/
inductive Glitch where
  | elem (col bits : Nat)
  | sum (band col : Nat) (delta : Int)
  | weight (byte bits : Nat)
  deriving DecidableEq, Repr

/-- The words of a host message header (15 Table 15.1). -/
structure HostHdr where
  w0 : Word
  w1 : Word
  w2 : Word
  w3 : Word
  deriving DecidableEq, Repr

/-- Requests of the management plane, whose schema the manual publishes separately (00_scope.md): the effects the
manual names, in a form of the model's own (log 17). -/
inductive MgmtReq where
  | openCtx (ctx : Nat)
  | mapPage (pg : Page)
  | unmapPage (ctx va : Nat)
  | faultRing (ctx base n : Nat)
  | teardownCtx (ctx : Nat)
  | releaseEngine (cl e : Nat)
  | releaseChannel (tile ch : Nat)
  | releaseQueue (ctx : Nat)
  | bucket (cl cap rsv fill : Nat)
  | ring (k : Nat) (words : List Word)
  | key (k : Nat) (key : BitVec 256) (salt : BitVec 32)
  | classify (port : Nat) (vlan : Option Nat) (k : Nat)
  | exportPage (pa : Nat)
  | route (module port : Nat)
  | wakeCluster (cl : Nat)
  | invalidate (ctx va : Nat)
  | shadowPool (pages : Nat)
  | readAgeing (pt : Nat)
  | readLink (link : Nat)
  | readLog (first : Nat)
  | readBucket (cl : Nat)
  | readCaps
  | slices (cls : List Nat)
  deriving DecidableEq, Repr

/-- What a start finds outside the state: signature checks, self-tests (physical tiles that failed, and of those whose router did; margins in mV of those
tested, engines out of service as 16 x cluster + shelf index) and the management configuration
(15 R311, R312; 24 R391, R394; log 12). -/
structure StartIn where
  ctrlOk : Bool
  badImage : List Nat
  badMap : List Nat
  failed : List Nat
  routers : List Nat
  margins : List (Nat × Nat)
  engOut : List Nat
  moduleNo : Nat
  podSize : Nat
  podMode : BitVec 12
  maxRing : Nat
  images : List (List Byte)
  deriving DecidableEq, Repr

/-- What ECC finds as a load reads its words (23 Table 23.2; log 12): nothing, an error corrected (there, or in a slice or its directory), or an
uncorrectable error
in the thread's registers, in a word of the scratchpad, in the tile's matrix state or vector registers, in the image of the tile's sett, in a clean or REPL line of a slice, in a
dirty line or in HBM, or in the directory's entry. -/
inductive Ecc where
  | sound | corrected | lineCorr | regs | word | matrix | sett | clean | line | dir
  deriving DecidableEq, Repr

/-- A Shoheosh request of another module (15 R304): the port it comes by and its number on that link, requester, its context, request
identifier, physical address at this module. -/
structure PodReq where
  port : Nat
  lseq : Nat
  module : Nat
  ctx : Nat
  tile : Nat
  reqId : Nat
  pa : Nat
  deriving DecidableEq, Repr

/-- Every instruction word (04 Tables 4.4 to 4.7) and every step of another agent. -/
inductive Instr where
  -- INTA, R103
  | add (d a b : Spec) (g : Guard)
  | sub (d a b : Spec) (g : Guard)
  | and (d a b : Spec) (g : Guard)
  | or (d a b : Spec) (g : Guard)
  | xor (d a b : Spec) (g : Guard)
  | andn (d a b : Spec) (g : Guard)
  | shl (d a b : Spec) (g : Guard)
  | shr (d a b : Spec) (g : Guard)
  | sar (d a b : Spec) (g : Guard)
  | rol (d a b : Spec) (g : Guard)
  | min (d a b : Spec) (g : Guard)
  | max (d a b : Spec) (g : Guard)
  | minn (d a b : Spec) (g : Guard)
  | maxn (d a b : Spec) (g : Guard)
  | mul (d a b : Spec) (g : Guard)
  | mulh (d a b : Spec) (g : Guard)
  -- INTB, R103 and R104
  | mulhn (d a b : Spec) (g : Guard)
  | clz (d a : Spec) (g : Guard)
  | ctz (d a : Spec) (g : Guard)
  | popc (d a : Spec) (g : Guard)
  | brev (d a : Spec) (g : Guard)
  | bswap (d a : Spec) (g : Guard)
  | sx8 (d a : Spec) (g : Guard)
  | sx16 (d a : Spec) (g : Guard)
  | sx32 (d a : Spec) (g : Guard)
  | zx8 (d a : Spec) (g : Guard)
  | zx16 (d a : Spec) (g : Guard)
  | zx32 (d a : Spec) (g : Guard)
  | sel (d a b : Spec) (p : BitVec 3)
  | abs (d a : Spec) (g : Guard)
  -- DIVQ, R105
  | div (d a b : Spec) (la : BitVec 4) (p : BitVec 3)
  | divn (d a b : Spec) (la : BitVec 4) (p : BitVec 3)
  -- REMQ, R105
  | rem (d a b : Spec) (la : BitVec 4) (p : BitVec 3)
  | remn (d a b : Spec) (la : BitVec 4) (p : BitVec 3)
  -- I format, R106
  | addi (d a : Spec) (imm : BitVec 14)
  | andi (d a : Spec) (imm : BitVec 14)
  | ori (d a : Spec) (imm : BitVec 14)
  | xori (d a : Spec) (imm : BitVec 14)
  | shli (d a : Spec) (cnt : BitVec 6)
  | shri (d a : Spec) (cnt : BitVec 6)
  | sari (d a : Spec) (cnt : BitVec 6)
  | muli (d a : Spec) (imm : BitVec 14)
  -- immediate compares, R108
  | ceqi (pd : BitVec 3) (a : Spec) (imm : BitVec 14)
  | clti (pd : BitVec 3) (a : Spec) (imm : BitVec 14)
  | cltni (pd : BitVec 3) (a : Spec) (imm : BitVec 14)
  -- U format, R107
  | movh (d : Spec) (imm : BitVec 20)
  | lpca (d : Spec) (imm : BitVec 20)
  -- CMP, R108
  | ceq (pd : BitVec 3) (a b : Spec) (g : Guard)
  | cne (pd : BitVec 3) (a b : Spec) (g : Guard)
  | clt (pd : BitVec 3) (a b : Spec) (g : Guard)
  | cle (pd : BitVec 3) (a b : Spec) (g : Guard)
  | cltn (pd : BitVec 3) (a b : Spec) (g : Guard)
  | clen (pd : BitVec 3) (a b : Spec) (g : Guard)
  | ctst (pd : BitVec 3) (a b : Spec) (g : Guard)
  -- PRED, R109
  | pand (pd pa pb : BitVec 3) (g : Guard)
  | por (pd pa pb : BitVec 3) (g : Guard)
  | pxor (pd pa pb : BitVec 3) (g : Guard)
  | pandn (pd pa pb : BitVec 3) (g : Guard)
  | pget (d : Spec) (g : Guard)
  | pput (a : Spec) (g : Guard)
  -- FPS, R110 to R113
  | fadd (d a b : Spec) (g : Guard)
  | fsub (d a b : Spec) (g : Guard)
  | fmul (d a b : Spec) (g : Guard)
  | ffma (d a b : Spec) (g : Guard)
  | fmin (d a b : Spec) (g : Guard)
  | fmax (d a b : Spec) (g : Guard)
  | fcvt (d a : Spec) (ty : BitVec 4) (rm : BitVec 2) (g : Guard)
  | fceq (pd : BitVec 3) (a b : Spec) (g : Guard)
  | fclt (pd : BitVec 3) (a b : Spec) (g : Guard)
  | fcle (pd : BitVec 3) (a b : Spec) (g : Guard)
  | fcls (pd : BitVec 3) (a : Spec) (mask : BitVec 6) (g : Guard)
  -- FPX, R111
  | fdiv (d a b : Spec) (la : BitVec 4) (p : BitVec 3)
  | fsqr (d a : Spec) (la : BitVec 4) (p : BitVec 3)
  -- branches, R114
  | b (p : BitVec 3) (sense : BitVec 1) (off : BitVec 22)
  | bl (p : BitVec 3) (sense : BitVec 1) (off : BitVec 22)
  -- CTRL, R115, R118 to R123
  | jr (a : Spec) (g : Guard)
  | jlr (d a : Spec) (g : Guard)
  | brk (n : BitVec 6) (g : Guard)
  | wjoin (a b : Spec) (g : Guard)
  | wleave (a : Spec) (g : Guard)
  | wwork (g : Guard)
  | wsafe (g : Guard)
  -- hardware loops, R116
  | loop (c : Spec) (eo : BitVec 14)
  | loopi (n : BitVec 12) (eo : BitVec 14)
  -- LD, R129
  | ld8s (t base : Spec) (am rd : BitVec 2) (la : BitVec 4) (p : BitVec 3)
  | ld8z (t base : Spec) (am rd : BitVec 2) (la : BitVec 4) (p : BitVec 3)
  | ld16s (t base : Spec) (am rd : BitVec 2) (la : BitVec 4) (p : BitVec 3)
  | ld16z (t base : Spec) (am rd : BitVec 2) (la : BitVec 4) (p : BitVec 3)
  | ld32s (t base : Spec) (am rd : BitVec 2) (la : BitVec 4) (p : BitVec 3)
  | ld32z (t base : Spec) (am rd : BitVec 2) (la : BitVec 4) (p : BitVec 3)
  | ld64 (t base : Spec) (am rd : BitVec 2) (la : BitVec 4) (p : BitVec 3)
  | ld128 (t base : Spec) (am rd : BitVec 2) (la : BitVec 4) (p : BitVec 3)
  -- LDA, R130
  | lda32 (t base : Spec) (am : BitVec 2) (la : BitVec 4) (p sc : BitVec 3)
  | lda64 (t base : Spec) (am : BitVec 2) (la : BitVec 4) (p sc : BitVec 3)
  -- ST, R129
  | st8 (t base : Spec) (am rd : BitVec 2) (la : BitVec 4) (p : BitVec 3)
  | st16 (t base : Spec) (am rd : BitVec 2) (la : BitVec 4) (p : BitVec 3)
  | st32 (t base : Spec) (am rd : BitVec 2) (la : BitVec 4) (p : BitVec 3)
  | st64 (t base : Spec) (am rd : BitVec 2) (la : BitVec 4) (p : BitVec 3)
  | st128 (t base : Spec) (am rd : BitVec 2) (la : BitVec 4) (p : BitVec 3)
  -- STL, R130
  | stl32 (t base : Spec) (am : BitVec 2) (la : BitVec 4) (p sc : BitVec 3)
  | stl64 (t base : Spec) (am : BitVec 2) (la : BitVec 4) (p sc : BitVec 3)
  -- atomics, R132
  | amoadd (d a b : Spec) (la os : BitVec 4)
  | amoand (d a b : Spec) (la os : BitVec 4)
  | amoor (d a b : Spec) (la os : BitVec 4)
  | amoxor (d a b : Spec) (la os : BitVec 4)
  | amomin (d a b : Spec) (la os : BitVec 4)
  | amomax (d a b : Spec) (la os : BitVec 4)
  | amominn (d a b : Spec) (la os : BitVec 4)
  | amomaxn (d a b : Spec) (la os : BitVec 4)
  | amoswp (d a b : Spec) (la os : BitVec 4)
  | cas (d a b : Spec) (la os : BitVec 4)
  -- ORD, R135 and R136
  | fence (os : BitVec 4) (g : Guard)
  | drain (path : BitVec 3) (g : Guard)
  -- MSG, R137 to R142
  | mroute (d a : Spec) (g : Guard)
  | mprobe (d a : Spec) (g : Guard)
  | migrate (a : Spec) (g : Guard)
  -- XCP, R145
  | xcopy (d a : Spec) (ch : BitVec 2) (la : BitVec 4) (p : BitVec 3)
  | xred (d a : Spec) (ch : BitVec 2) (la : BitVec 4) (p : BitVec 3)
  -- ENGA, R196 and R201
  | lease (f : Spec) (kind : BitVec 3) (prio : BitVec 2) (la : BitVec 4) (p : BitVec 3)
  | erd (d f : Spec) (n : BitVec 6) (la : BitVec 4) (p : BitVec 3)
  -- ENGB, R197 to R204
  | free (f : Spec) (g : Guard)
  | ewr (f a : Spec) (n : BitVec 6) (g : Guard)
  | eguard (f a : Spec) (sl : BitVec 3) (g : Guard)
  | gres (pa sl : BitVec 3) (g : Guard)
  -- MATA, R174 and R181
  | mstep (ovw : BitVec 1) (n : BitVec 4) (a b : Spec) (la : BitVec 4) (p : BitVec 3)
  | mwld (fmt : BitVec 4) (a b : Spec) (la : BitVec 4) (p : BitVec 3)
  -- MATB, R184 and R185
  | mst (rm : BitVec 2) (ty : BitVec 4) (a b : Spec) (la : BitVec 4) (p : BitVec 3)
  | mrd (v : BitVec 4) (b : Spec) (la : BitVec 4) (p : BitVec 3)
  -- MATC, R175 to R187
  | mshape (a : Spec) (g : Guard)
  | mfmt (a : Spec) (g : Guard)
  | mwswp (g : Guard)
  | mring (g : Guard)
  | mclr (a : Spec) (g : Guard)
  | mscl (g : Guard)
  | mbnd (k : BitVec 3) (a : Spec) (g : Guard)
  -- VECA, R155 to R158
  | vadd (vd va vb ty : BitVec 4) (g : Guard)
  | vsub (vd va vb ty : BitVec 4) (g : Guard)
  | vmul (vd va vb ty : BitVec 4) (g : Guard)
  | vfma (vd va vb ty : BitVec 4) (g : Guard)
  | vmin (vd va vb ty : BitVec 4) (g : Guard)
  | vmax (vd va vb ty : BitVec 4) (g : Guard)
  | vsel (vd va vb ty : BitVec 4) (g : Guard)
  | vcmpEq (vd va vb ty : BitVec 4) (g : Guard)
  | vcmpLt (vd va vb ty : BitVec 4) (g : Guard)
  | vcmpLe (vd va vb ty : BitVec 4) (g : Guard)
  | vand (vd va vb ty : BitVec 4) (g : Guard)
  | vor (vd va vb ty : BitVec 4) (g : Guard)
  | vxor (vd va vb ty : BitVec 4) (g : Guard)
  | vshl (vd va vb ty : BitVec 4) (g : Guard)
  | vshr (vd va vb ty : BitVec 4) (g : Guard)
  -- VECB, R156 to R165
  | vabs (vd va ty : BitVec 4) (g : Guard)
  | vneg (vd va ty : BitVec 4) (g : Guard)
  | vmov (vd va ty : BitVec 4) (g : Guard)
  | vcvt (vd va : BitVec 4) (rm : BitVec 2) (ty : BitVec 4) (g : Guard)
  | vrcp (vd va ty : BitVec 4) (g : Guard)
  | vrsq (vd va ty : BitVec 4) (g : Guard)
  | vexp (vd va ty : BitVec 4) (g : Guard)
  | vlog (vd va ty : BitVec 4) (g : Guard)
  | vqnt (vd va vb ty : BitVec 4) (g : Guard)
  | vdq (vd va vb ty : BitVec 4) (g : Guard)
  -- VECC, R161 to R166
  | vshp (o : BitVec 3) (g : Guard)
  | vred (vd va : BitVec 4) (rop : BitVec 2) (dir : BitVec 1) (ty : BitVec 4) (g : Guard)
  | vbc (vd : BitVec 4) (o : BitVec 3) (ty : BitVec 4) (g : Guard)
  | vtr (vd va ty : BitVec 4) (g : Guard)
  | vrot (vd va : BitVec 4) (o : BitVec 3) (ty : BitVec 4) (g : Guard)
  -- VMEM, R167
  | vld (v : BitVec 4) (a : Spec) (rd am : BitVec 2) (la : BitVec 4) (p : BitVec 3)
  | vst (v : BitVec 4) (a : Spec) (rd am : BitVec 2) (la : BitVec 4) (p : BitVec 3)
  -- SYSA, R205 to R215
  | trap (n : BitVec 12) (g : Guard)
  | eret (g : Guard)
  | sysr (d : Spec) (n : BitVec 12) (g : Guard)
  | sysw (nh : BitVec 6) (a : Spec) (nl : BitVec 6) (g : Guard)
  | sysx (d a b : Spec) (g : Guard)
  | tlbi (a : Spec) (kind : BitVec 3) (g : Guard)
  | ckpt (g : Guard)
  | idle (g : Guard)
  | halt (g : Guard)
  -- SYSB, R206 to R208
  | rot (a : Spec) (g : Guard)
  | tins (a : Spec) (g : Guard)
  | trem (a : Spec) (g : Guard)
  | tspn (a b : Spec) (g : Guard)
  -- steps of other agents, without an instruction word: one constructor per row of the table
  | divideComplete (w : Who) (seq : Nat)
  | fdivFsqrComplete (w : Who) (seq : Nat)
  | wjoinCommit (w : Who)
  | loadComplete (w : Who) (seq : Nat) (ecc : Ecc)
  | tlbWalkComplete (slab : Nat) (k : Nat) (poisoned : Option Nat)
  | storeComplete (w : Who) (seq : Nat)
  | migrateArrive (k : Nat)
  | messageDeliver (k : Nat)
  | scaleWordDeliver (k : Nat)
  | heldWordEnter (tile : Nat) (k : Nat)
  | sendAckReceive (k : Nat)
  | copyRecord (tile : Nat) (ch : Nat)
  | martenServe (cl : Nat)
  | engineWakeDone (cl : Nat) (e : Nat) (pass : Bool)
  | sortInsert (cl : Nat) (e : Nat)
  | sortEmit (cl : Nat) (e : Nat)
  | sortClear (cl : Nat) (e : Nat)
  | matchScan (cl : Nat) (e : Nat)
  | matchReset (cl : Nat) (e : Nat)
  | inflDecode (cl : Nat) (e : Nat)
  | xfrmTransform (cl : Nat) (e : Nat)
  | gathToSlot (cl : Nat) (e : Nat)
  | gathFromSlot (cl : Nat) (e : Nat)
  | gathFinish (cl : Nat) (e : Nat)
  | scanPrefix (cl : Nat) (e : Nat)
  | softSoftmax (cl : Nat) (e : Nat)
  | softExponent (cl : Nat) (e : Nat)
  | collCollective (members : List (Nat × Nat))
  | mstepRow (w : Who) (flips : List Glitch)
  | mwldComplete (w : Who) (seq : Nat)
  | mrdComplete (w : Who) (seq : Nat)
  | bandWakeDone (tile : Nat) (band : Nat)
  | handoffStart (tile : Nat)
  | handoffArrive (tile : Nat)
  | vectorComplete (w : Who)
  | owlqSubmit (cl : Nat)
  | owlJobServe (cl : Nat)
  | owlEntrySend (cl : Nat)
  | tlbiComplete (w : Who)
  | ckptComplete (w : Who)
  | rotTakeEffect (tile : Nat)
  | trapEntry (w : Who)
  | timerTrap (w : Who)
  | slotOffer (w : Who)
  | hostLaunch (h : HostHdr) (rec : List Word)
  | hostWrite (h : HostHdr) (data : List Byte)
  | hostRead (h : HostHdr)
  | hostMgmt (h : HostHdr) (named : Bool) (req : MgmtReq)
  | mgmtQuote (h : HostHdr) (named : Bool) (nonce : List Byte)
  | mgmtImageUpdate (h : HostHdr) (named : Bool) (verifies : Bool) (image : List Byte) (inp : StartIn)
  | mgmtEndTask (h : HostHdr) (named : Bool) (w : Who)
  | launchDependenceRead (ctx : Nat) (k : Nat)
  | fanOut
  | hoistPlace (cl : Nat)
  | taskDispatch (w : Who)
  | retirementWordAdd (k : Nat)
  | hoistPreempt (cl : Nat)
  | badgerSpillDone (w : Who)
  | badgerRestoreDone (w : Who)
  | tokenRefill (cl : Nat)
  | inrushGrant (slab : Nat)
  | clusterGate (cl : Nat)
  | gatingSpillDone (cl : Nat)
  | clusterWakeHoldEnd (cl : Nat)
  | clusterRestoreDone (cl : Nat)
  | thermalSample (pt : Nat) (quarters : Nat)
  | restStep (slab : Nat)
  | movePrecopyPassEnd (tile : Nat)
  | moveDrainEnd (tile : Nat)
  | moveCopyEnd (tile : Nat)
  | moveRemapEnd (tile : Nat)
  | moveResume (tile : Nat)
  | stopDrainEnd (tile : Nat)
  | stopCopyEnd (tile : Nat) (poisoned : Bool)
  | stopRemapEnd (tile : Nat)
  | stopReplayEnd (tile : Nat)
  | autoBoundary (tile : Nat)
  | selftestDone (pt : Nat) (pass : Bool) (routerFailed : Bool) (marg : Nat)
  | ageingHourly (pt : Nat) (quarters : Nat)
  | patrolScrub (pa : Nat) (res : Nat)
  | quarantineScrub (k : Nat) (pass : Bool)
  | teardown (ctx : Nat)
  | overflowHandlerRestart (cl : Nat)
  | frameArrive (port : Nat) (vlan : Option Nat) (fcsOk : Bool) (bufFull : Bool) (frame : List Byte)
  | linkFlitReceive (link : Nat) (num : Nat) (bad : Option Nat) (ack : Option Nat)
  | linkNakReceive (link : Nat) (expected : Nat)
  | linkBurstExpire (link : Nat)
  | linkRetrainEnd (link : Nat)
  | podRequestResend (k : Nat)
  | podRequestFreeze (k : Nat)
  | shoheoshRd (r : PodReq) (size : Nat)
  | shoheoshWr (r : PodReq) (data : List Byte)
  | shoheoshAmo (r : PodReq) (op : Nat) (b : Word) (d : Word)
  | shoheoshCmpl (r : PodReq)
  | coldStart (inp : StartIn)
  | warmStart (inp : StartIn)
  | redundantCommit (k : Nat)
  | erdComplete (w : Who) (seq : Nat) (poisoned : Bool)
  deriving DecidableEq, Repr

end Sys2Proof
end

