-- ==== Sys2Proof/Machine/State.lean ====
section
/-! DEFINITION. The state of the module as plain data: threads, tiles, clusters, slabs, memories, the traffic in
flight and the schedule, with the state right after a start (15 R311). INVENTORY.md lists each field with its rule. -/

namespace Sys2Proof.Machine

/-- Slot states of Table 2.2; SPILL is held by `Tile.spilled` (02 R21). -/
inductive SlotSt where
  | idle | run | wait | halt | out | member
  deriving DecidableEq, Repr

/-- What a slot in WAIT waits for (02 Table 2.2). -/
inductive Why where
  | none | receive | pop | push | ack | scoreboard | lookahead | memory | idle | matrix | tokens | band | fifo
  | earlier | copies | claim | lease | rot | ckpt | tlbi | owl | vector | aux | move | trap | fence | drain | fetch
  deriving DecidableEq, Repr

/-- Where a byte lives: a tile's scratchpad, HBM by physical address, another module, a shadow page of a
redundant copy by virtual address, or the capability list (11 R219, R225; 15 R303, R314; 21 R347). -/
inductive Loc where
  | spad (tile off : Nat)
  | hbm (pa : Nat)
  | pod (module pa : Nat)
  | shadow (red copy va : Nat)
  | cap (off : Nat)
  deriving DecidableEq, Repr

/-- A run of bytes of an access at one place, with the placement of the page through which it was translated (11 R234). -/
structure Part where
  loc : Loc
  len : Nat
  plc : Placement
  deriving DecidableEq, Repr

/-- An access: mode, address, length of a row, rows and their distance; of a vector or matrix access the rows of elements a row of it holds,
and 0 of any other (08 R167); its parts once translated, and whether translation has ended (11 R233). -/
structure Acc where
  am : Nat
  addr : Nat
  len : Nat
  rows : Nat
  stride : Nat
  vec : Nat
  parts : List Part
  ready : Bool
  deriving DecidableEq, Repr

/-- One bound register (03 Table 3.9). -/
structure Bnd where
  base : Word
  len : Word
  lim : Word
  ctl : Word
  deriving DecidableEq, Repr

/-- A tile of weights as a latch holds it: format, weight image, scales, witness sums (09 R172, R173, R188). -/
structure Weights where
  fmt : Nat
  w : List Byte
  sc : List (BitVec 16)
  rho : List Int
  mu : List Nat
  nan : List Bool
  deriving DecidableEq, Repr

/-- What a pending long-latency instruction does when it completes (04 Table 4.3). -/
inductive Job where
  | write (d : Spec) (r : Word) (flags : Word)
  | load (d : Spec) (acc : Acc) (signed pair : Bool) (acq : Option Nat) (rd : Nat)
  | amo (d : Spec) (acc : Acc) (op : Nat) (b dv : Word) (os : Nat)
  | vload (v : Nat) (acc : Acc) (rd : Nat)
  | store (acc : Acc) (ty : Nat) (data : List Byte) (bnds : List Bnd) (flags : Word) (rel : Option Nat) (rd : Nat)
  | erd (d : Spec) (f n : Nat)
  | lease (f : Nat)
  | mwld
  | mrd (v : Nat) (data : List Byte)
  | mstep (n done aoff row0 : Nat) (ovw : Bool) (tile : Weights) (afmt be : Nat) (scale : Word)
  | copy (d : Spec) (ch : Nat) (head : Word) (sum : Bool)
  deriving DecidableEq, Repr

/-- A long-latency instruction issued and not complete (04 R66, R67); `re`: one that `eret` executes alone (10 R211). Of a memory
access: `got` the parts read so far, `mids` the cycles from which its parts act at their places, `pt` the physical tile it issued on
(02 R20; 11 R405), `vers` the versions of the bound registers it is checked against (03 R54). -/
structure Pend where
  seq : Nat
  stamp : Nat
  la : Nat
  pc : Word
  word : Word
  job : Job
  due : Nat
  lc0 : Word
  lc1 : Word
  re : Bool
  got : List (Nat × List Byte)
  mids : List Nat
  pt : Nat
  vers : List Nat
  deriving DecidableEq, Repr

/-- A pending vector instruction: the bytes it writes (register, offset, bytes), the registers it reads, the lane
cycles left and the cycle from which they run (08 R152, R153). -/
structure VPend where
  seq : Nat
  writes : List (Nat × Nat × List Byte)
  reads : List Nat
  lanes : Nat
  flags : Nat
  since : Nat
  deriving DecidableEq, Repr

/-- A held last-result shift; `none` until its instruction completes (03 R47). -/
structure LEntry where
  seq : Nat
  vals : Option (List Word)
  deriving DecidableEq, Repr

/-- A trap cause waiting for entry (10 R210, 22 R356); `re`: the instruction is one that `eret` executes alone. -/
structure TrapReq where
  seq : Nat
  pc : Word
  cause : Nat
  ev : Word
  long : Bool
  lc0 : Word
  lc1 : Word
  re : Bool
  deriving DecidableEq, Repr

/-- Binding states of Table 10.2. -/
inductive BindSt where
  | unbound | queued | waking | bound | evicted
  deriving DecidableEq, Repr

/-- One f binding: its `lst` fields, the engine it names, results left behind by an eviction and the token that
every later pop returns (10 R195, R198). -/
structure Binding where
  st : BindSt
  evn : Nat
  kind : Nat
  prio : Nat
  cl : Nat
  eng : Nat
  since : Nat
  left : List Word
  token : Option Word
  deriving DecidableEq, Repr

/-- Acknowledgement status of a send queue (07 Table 7.7). -/
structure QStat where
  ackp : Nat
  last : Nat
  stalec : Nat
  deriving DecidableEq, Repr

/-- Membership of a wave: its number, member index k, row j, next instruction index, `wleave` index (02 R28 to R35). -/
structure WaveRef where
  id : Nat
  k : Nat
  j : Nat
  idx : Nat
  leaveAt : Option Nat
  deriving DecidableEq, Repr

/-- One thread slot and the thread in it (03 Table 3.1). `thr` numbers the thread for as long as it lives; `fences` are its release
fences, as instruction and scope (07 R135); an instruction word captured before cycle `fetchAt` is stale for it (12 R253). An IDLE slot is offered from
cycle `freeFrom` on (02 R38); `preempted`: put OUT by the Hoist (13 R271). `op` is a `tlbi`, `ckpt` or `rot` under way: its kind, the value
of A and its sources, obtained as it completes (10 R206, R214, R215). -/
structure Slot where
  st : SlotSt
  frozen : Bool
  halted : Bool
  outReq : Bool
  why : Why
  g : Vector Word 32
  o : Vector Word 8
  l : Vector Word 4
  lq : List LEntry
  l0Prev : Word
  l0At : Nat
  p : BitVec 8
  pc : Word
  gen : BitVec 8
  lc0 : Word
  ls0 : Word
  le0 : Word
  lc1 : Word
  ls1 : Word
  le1 : Word
  v : List Host.Cell
  vdirty : BitVec 16
  vshp : Word
  routes : Vector (Option Word) 4
  qstat : Vector QStat 4
  rbuf : Vector (List Word) 4
  f : Vector Binding 4
  guards : Vector (Option Nat) 8
  fstat : Word
  tvec : Word
  epc : Word
  enext : Word
  ecause : Word
  eval : Word
  estat : Word
  tmr : Word
  tctl : Word
  notice : Bool
  pers : Bool
  ckst : Word
  ctx : Option Nat
  lastCtx : Option Nat
  task : Option Nat
  aux : Bool
  red : Option (Nat × Nat)
  iseq : Nat
  pend : List Pend
  vpend : List VPend
  scoreboard : List Spec
  trapq : List TrapReq
  solo : Bool
  fences : List (Nat × Nat)
  thr : Nat
  fetchAt : Nat
  wave : Option WaveRef
  claimed : Option Who
  join : Option (Nat × Nat × List Spec)
  waitUntil : Option Nat
  op : Option (Nat × Word × List Spec)
  lastIssue : Nat
  drainSet : List Nat
  freeFrom : Nat
  preempted : Bool
  deriving DecidableEq, Repr

/-- A reservation table entry (11 R221). -/
structure Resv where
  off : Nat
  len : Nat
  ctx : Nat
  task : Nat
  deriving DecidableEq, Repr

/-- A burst of a record: its offset and length in the source, its places (of the source, then of the destination once its write has
started), the parts of them read, or written, so far, its bytes once all are read, its place in the tile's order of issue, the cycles in which it takes them at their place and has
them, and the cycle in which its write is performed (07 R146; 11 R405). -/
structure Burst where
  off : Nat
  len : Nat
  parts : List Part
  got : List (Nat × List Byte)
  data : Option (List Byte)
  stamp : Nat
  mid : Nat
  due : Nat
  write : Option Nat
  deriving DecidableEq, Repr

/-- A record a channel has read: its address and words, the source bytes of the bursts started, the bursts in flight, and, its bytes
moved, the cycle of its OWN write-back or (true) of its increment, with its place in the tile's order of issue (07 R146). -/
structure Rec where
  addr : Word
  words : List Word
  next : Nat
  flight : List Burst
  step : Option (Bool × Nat × Nat)
  deriving DecidableEq, Repr

/-- A chain accepted by a copy channel (07 R145, R146): the address of the next record, the records completed, the flags, the physical
tile that accepted it, the cycle after its last burst started, the read of a record under way, the records read and not complete, and
how it ends once those are. -/
structure Chain where
  id : Nat
  d : Spec
  who : Who
  gen : BitVec 8
  ctx : Nat
  task : Option Nat
  sum : Bool
  red : Option (Nat × Nat)
  cur : Word
  n : Nat
  flags : Nat
  pt : Nat
  last : Nat
  reading : Option Burst
  recs : List Rec
  ending : Option (Nat × Word)
  deriving DecidableEq, Repr

/-- One copy channel; `frozen`: the context whose fault froze it (07 Copies; 21 Table 21.4). -/
structure Channel where
  chains : List Chain
  frozen : Option Nat
  deriving DecidableEq, Repr

/-- A word in the network: a thread word or a scale word, with the branch it is on and the physical tile whose network interface sends it
(07 R137, R138; 24 R392). -/
structure Msg where
  id : Nat
  src : Option Who
  srcGen : BitVec 8
  q : Nat
  tile : Nat
  scale : Bool
  slot : Nat
  gen : BitVec 8
  anyGen : Bool
  dq : Nat
  ctx : Nat
  data : Word
  ack : Bool
  due : Nat
  thr : Nat
  seq : Nat
  pt : Nat
  deriving DecidableEq, Repr

/-- An acknowledgement on its way back (07 R139). -/
structure Ack where
  who : Who
  gen : BitVec 8
  q : Nat
  delivered : Bool
  due : Nat
  deriving DecidableEq, Repr

/-- A migrating context (02 R41). -/
structure Migrant where
  ctx : Nat
  task : Option Nat
  g : List Word
  p : BitVec 8
  fstat : Word
  pc : Word
  gen : BitVec 8
  aux : Bool
  tile : Nat
  due : Nat
  thr : Nat
  iseq : Nat
  fences : List (Nat × Nat)
  fetchAt : Nat
  deriving DecidableEq, Repr

/-- An entry of a TLB (11 R232). -/
abbrev TlbEntry := Page

/-- A replay log entry (24 Table 24.2). -/
structure LogEnt where
  val : Word
  offs : Nat
  off : Nat
  slot : Nat
  kind : Nat
  deriving DecidableEq, Repr

/-- Checkpoint image of a tile in its eastern neighbour's sett (14 R290 to R292): the bytes it takes in all, and those charged to a context
for what is no line. -/
structure Image where
  lines : List (Nat × List Byte)
  threads : List (Nat × Slot)
  extra : List (Nat × Nat)
  used : Nat
  at_ : Nat
  valid : Bool
  deriving DecidableEq, Repr

/-- Phases of a move of the Bear or of a stop sequence (14 Table 14.2, 24 Table 24.3). -/
inductive Phase where
  | precopy | drain | copy | remap | resume | waiting | run
  deriving DecidableEq, Repr

/-- Why a virtual tile moves (14 Table 14.1). -/
inductive MoveWhy where
  | rest | ret | thermal | retire | mismatch | trip
  deriving DecidableEq, Repr

/-- A move or stop sequence in progress on a virtual tile; `todo` are the lines of the pre-copy pass, in the order in which it copies them,
`marked` those written after their copy, `sett` the bytes of the sett that the passes have copied. -/
structure Move where
  why : MoveWhy
  src : Nat
  dst : Nat
  phase : Phase
  pass : Nat
  todo : List Nat
  marked : List Nat
  sett : Nat
  started : Nat
  live : Bool
  due : Nat
  deriving DecidableEq, Repr

/-- A `mwld` under way: format, images, the bytes transferred so far and the last cycle in which the read path was taken from it, plus
one (09 R174). -/
structure Loading where
  fmt : Nat
  src : Nat
  scl : Nat
  got : List Byte
  taken : Nat
  deriving DecidableEq, Repr

/-- A hand-off on its way: the target, the cycle from which its shadow is FULL, the sender's context and the tile of weights
(09 R176). -/
structure Handoff where
  tile : Nat
  due : Nat
  ctx : Nat
  data : Weights
  deriving DecidableEq, Repr

/-- The matrix state of a tile (03 Table 3.1, R54, R55; 09 R173, R190). `flight`: the cycle in which the output buffer is free again, once
its hand-off has started; `slips`: accumulator elements that undetected faults have left wrong since the latest boundary, as row, column and
the right value (24 R379, R383). -/
structure Matrix where
  active : Option Weights
  shadow : Option Weights
  filling : Bool
  load : Option Loading
  out : Option Weights
  outTail : Option Nat
  outCtx : Nat
  flight : Option Nat
  mshp : Word
  afmt : Word
  mstat : Word
  acc : List Host.Cell
  aw : List (Nat × Int)
  mw : List (Nat × Nat)
  kr : List (Nat × Nat)
  scrOff : List Nat
  fifo : List Word
  bnd : Vector Bnd 8
  bndVer : Vector Nat 8
  owner : Option Nat
  rails : BitVec 4
  wakes : BitVec 4
  rowsW : List Nat
  latchDirty : Bool
  slips : List (Nat × Nat × Nat)
  deriving DecidableEq, Repr

/-- One virtual tile. `rotNext`: an accepted table and the cycle from which it stands (02 R23). `handoffs`: those it has started; `ringH`: those its spill ring holds (13 R274); `poison`: 8-byte words of the
scratchpad that hold an uncorrectable error (23 R363); `dedup`: the deduplication table of the scratchpad (23 R375); `before`: the scratchpad bytes that
writes of a cycle replaced, with that cycle plus one (09 R182). `roomAt`: for a receive buffer or the scale FIFO (64), the cycle from which a held word may enter it (07 R138);
`portAt`: the bytes its router port has carried for copies, counted from cycle 0 at 64 a cycle (07 R146); `fwd`: the last cycle in which
what came for it reached the tile it has moved away from (14 R286); `resumed`: the cycle in which it has
resumed after a move or a stop, plus one (14 Table 14.4). -/
structure Tile where
  slots : List (Nat × Slot)
  rtab : Vector (BitVec 32) 16
  rotNext : Option (Nat × Vector (BitVec 32) 16)
  cycBase : Nat
  spad : List Host.Cell
  poison : List Nat
  dedup : List (Nat × Nat × Nat × Word)
  stamp : Nat
  resv : List Resv
  lastResv : List (Nat × Nat × Nat)
  mx : Matrix
  spoilq : List Msg
  spoilc : Nat
  held : List Msg
  roomAt : List (Nat × Nat)
  runq : List Migrant
  chan : Vector Channel 4
  portAt : Nat
  tlb : List TlbEntry
  istore : List (Nat × IWord × Nat)
  ring : List Msg
  spilled : List (Nat × Slot)
  savedMx : List Matrix
  handoffs : List Handoff
  ringH : List Handoff
  before : Nat × List Host.Cell
  image : Image
  dirty : List Nat
  log : List LogEnt
  boundary : Nat
  covered : Bool
  move : Option Move
  fwd : Nat
  resumed : Nat
  stopped : Bool
  vacant : Bool
  lastRow : Nat
  deriving DecidableEq, Repr

/-- Roles of a physical tile (14 R279). -/
inductive Role where
  | serving | resting | spare | retired | offline
  deriving DecidableEq, Repr

/-- The ageing record (15 Table 15.11, 24 R388, R389), with the times of mismatches, the present and the
previous test. -/
structure Ageing where
  strh : Nat
  frac : Nat
  corr : Nat
  smis : List Nat
  smtot : Nat
  marg : Nat
  flag : Bool
  ret : Bool
  eol : Nat
  prevMarg : Nat
  prevStrh : Nat
  testStrh : Nat
  lastW : Nat
  corrAt : List Nat
  deriving DecidableEq, Repr

/-- One physical tile: role, direction of walk, sensor and band, power-gated after a trip, ageing record (14 R279, R284;
15 R315, R316; 24 R393). -/
structure PTile where
  role : Role
  north : Bool
  since : Nat
  testing : Bool
  reading : Nat
  band : Nat
  bandAt : Option Nat
  sampledAt : Option Nat
  gated : Bool
  routerDown : Bool
  age : Ageing
  deriving DecidableEq, Repr

/-- Power of an engine (13 R267; 10 R196). -/
inductive EngPow where
  | off | waiting | waking | on
  deriving DecidableEq, Repr

/-- A command of an engine: its word, the guard slot it waits for, and the thread and instruction that pushed it (10 R199, R202,
R203). -/
structure Command where
  word : Word
  guard : Option Nat
  thr : Nat
  seq : Nat
  deriving DecidableEq, Repr

/-- How an engine freezes once the results of its command are enqueued: code of its token, cause of its record, address
(23 R369; 21 Table 21.4). -/
structure EngStop where
  code : Nat
  cause : Nat
  addr : Word
  deriving DecidableEq, Repr

/-- One engine of a shelf (10 R199 to R201). `opc`: that of the command being executed; `outs` its results not yet enqueued; `stop` how
it ends in a freeze; `thr` numbers the engine as a party of memory while it is bound (10 R202); `frozen` the context whose fault froze
it; `caught` parts of its sources read ahead of its command, each in an event of its own (12 R237). -/
structure Engine where
  pow : EngPow
  inService : Bool
  frozen : Option Nat
  holder : Option (Who × Nat)
  freedAt : Nat
  cmds : List Command
  opc : Option Nat
  results : List Word
  outs : List Word
  stop : Option EngStop
  thr : Nat
  active : Vector Word 16
  shadow : Vector Word 16
  done : Nat
  caught : List (Part × List Byte)
  keys : List (Nat × Nat)
  mstate : Nat
  moved : Nat
  deriving DecidableEq, Repr

/-- A lease request at the Marten (13 R269). -/
structure LReq where
  who : Who
  f : Nat
  kind : Nat
  prio : Nat
  at_ : Nat
  deriving DecidableEq, Repr

/-- A wake request of a slab: what is woken, base priority, cycle of request (13 R267). -/
inductive WakeOf where
  | cluster (cl : Nat)
  | band (tile b : Nat)
  | engine (cl e : Nat)
  deriving DecidableEq, Repr

structure WakeReq where
  what : WakeOf
  base : Nat
  at_ : Nat
  granted : Option Nat
  deriving DecidableEq, Repr

/-- An Owl job: submitter and the instruction that submitted it, record address, the cycle in which what is being read arrives, and that
in which its read started, and once the record is read: next entry, route, entries left (09 R180; 11 R217). -/
structure OwlJob where
  who : Who
  thr : Nat
  seq : Nat
  ctx : Nat
  addr : Word
  accepted : Bool
  due : Option Nat
  started : Nat
  cur : Option (Word × Word × Nat)
  deriving DecidableEq, Repr

/-- A line of a cache slice (11 R226 to R230). -/
structure Line where
  ln : Nat
  way : Nat
  ivl : Nat
  dirty : Bool
  copyOf : Option Nat
  deriving DecidableEq, Repr

/-- A directory entry (11 R230, R231; 23 R366). -/
structure DirEnt where
  ln : Nat
  sharers : List Nat
  more : List Nat
  overflow : Bool
  broadcast : Bool
  deriving DecidableEq, Repr

/-- A task record (13 R259). -/
structure TaskRec where
  ctx : Nat
  prio : Nat
  tcl : Nat
  pers : Bool
  wave : Bool
  entry : Word
  args : List Word
  ranges : List (Nat × Nat × Nat)
  retw : Word
  index : Nat
  target : Option Nat
  arrived : Nat
  kdesc : Word
  red : Option (Nat × Nat)
  deriving DecidableEq, Repr

/-- A party of an order: its thread (0 for another agent), its virtual tile, the physical tile its event is issued on
(12 R238). -/
structure Party where
  thr : Nat
  tile : Option Nat
  pt : Nat
  deriving DecidableEq, Repr

/-- A part of a completed store that is not yet performed: only its own thread reads it (11 R405; 12 R240). `after`: what it follows,
as instruction and scope. -/
structure Stored where
  id : Nat
  party : Party
  seq : Nat
  stamp : Nat
  part : Part
  data : List Byte
  rd : Nat
  ctx : Nat
  task : Option Nat
  after : List (Nat × Nat)
  due : Nat
  deriving DecidableEq, Repr

/-- A place that the parties of a scope read only once what it follows at that scope is performed: stores by number, loads and atomics by
thread and instruction (12 R238, R244, R245). -/
structure Early where
  party : Party
  scope : Nat
  part : Part
  waits : List Nat
  loads : List (Nat × Nat)
  deriving DecidableEq, Repr

/-- An entry of the combine buffer of a switch of a cluster's omega network: its stage and number, the thread and instruction of the
requests on input 0 and input 1, what that on input 1 follows and its party (12 R247), and the operand of input 0 (07 R134). -/
structure Comb where
  stage : Nat
  switch : Nat
  first : Nat × Nat
  second : Nat × Nat
  after : List (Nat × Nat)
  party : Party
  b0 : Word
  deriving DecidableEq, Repr

/-- Power states of a cluster (13 Table 13.5). -/
inductive ClPow where
  | on | gating | gated | waking | restoring
  deriving DecidableEq, Repr

/-- One cluster. `filled`: the cycles for which its bucket has received FILL; `idleAt`: since when it has been seen idle,
or the cycle from which its restore counts (13 R264, R265, R275); `wbs`: dirty lines evicted, with the cycle in which their write to HBM is
performed (11 R226). -/
structure Cluster where
  cap : Nat
  rsv : Nat
  bal : Nat
  fill : Nat
  filled : Nat
  queue : List Who
  pow : ClPow
  idleAt : Option Nat
  wakeWanted : Bool
  engines : Vector Engine 16
  lreq : List LReq
  owl : List OwlJob
  owlSkip : Nat
  owlAt : Nat
  lines : List Line
  wbs : List (Nat × Nat)
  dir : List DirEnt
  ovq : List (Nat × Nat)
  ovUsed : Nat
  handlerDown : Bool
  hoist : List TaskRec
  placedAt : Nat
  dedup : List (Nat × Nat × Nat × Word)
  comb : List Comb
  deriving DecidableEq, Repr

/-- A walk in flight (11 R233): the tiles whose accesses joined it, and whether a unit's access did. -/
structure Walk where
  ctx : Nat
  va : Nat
  tiles : List Nat
  unit : Bool
  due : Nat
  deriving DecidableEq, Repr

/-- A slab's defect map as a start finds it: retired tiles, withdrawn HBM pages of its stack, link modules DOWN, and the SHAKE256 digest
that its signature is over (24 R394). -/
structure DefectMap where
  tiles : List Nat
  pages : List Nat
  links : List Nat
  digest : BitVec 512
  deriving DecidableEq, Repr

/-- One slab. `walkFails`: the pages, with their contexts, for which a walk of a unit found no entry (11 R233). -/
structure Slab where
  booted : Bool
  tokens : Nat
  wakes : List WakeReq
  lltlb : List TlbEntry
  walks : List Walk
  waitWalks : List Walk
  walkFails : List (Nat × Nat)
  nextRest : Nat
  defects : DefectMap
  deriving DecidableEq, Repr

/-- A launch in a queue: its record words and when its dependences were last read (13 R256, R258). -/
structure Launch where
  words : List Word
  met : List Bool
  readAt : Nat
  deriving DecidableEq, Repr

/-- A launch being fanned out: record, descriptor words, next task index (13 R259). -/
structure Fan where
  words : List Word
  desc : List Word
  next : Nat
  red : Option Nat
  deriving DecidableEq, Repr

/-- Fault ring of a context (21 R341). -/
structure FaultRing where
  base : Nat
  n : Nat
  enabled : Bool
  deriving DecidableEq, Repr

/-- One address-space context (11 R232; 13 R258; 21 R342); `dying` from step 1 of its teardown on, which began in cycle `since` (21 R343). -/
structure Ctx where
  isOpen : Bool
  queue : List Launch
  queueFrozen : Bool
  ring : Option FaultRing
  dying : Bool
  since : Nat
  deriving DecidableEq, Repr

/-- A piece of a footprint on its way: its offset in the scratchpad, its place, the cycle from which it may be read there, and its bytes once
read (11 R222, R223; 12 R237). -/
structure Foot where
  off : Nat
  part : Part
  mid : Nat
  data : Option (List Byte)
  deriving DecidableEq, Repr

/-- A placed task (02 R37, R39): `due` while its footprint is on the way, `foot` the pieces of it
that are not yet written, once their places are known, `removed` the Hoist that pre-empted it (13 R271), `ended` once its own
thread or wave has ended and auxiliaries have not (10 R208), `thrs` the threads it has had (13 R260), `gen` the tag of its first (21 R347). -/
structure Task where
  r : TaskRec
  tile : Nat
  slot : Nat
  at_ : Nat
  auxes : Nat
  removed : Option Nat
  thrs : List Nat
  gen : BitVec 8
  retired : Bool
  ended : Bool
  due : Option Nat
  foot : Option (List Foot)
  deriving DecidableEq, Repr

/-- An instruction of a wave's stream: address, word, and whether the head's guard held (02 R31, 06 R122). -/
structure WEntry where
  pc : Word
  word : Word
  taken : Bool
  deriving DecidableEq, Repr

/-- A wave or sheet (02 R28 to R36). `haltAt`: how many wavefronts it completes before it stops, fixed in cycle `cutAt`. -/
structure Wave where
  slot : Nat
  task : Option Nat
  ctx : Nat
  x0 : Nat
  y0 : Nat
  len : Nat
  rows : Nat
  t0 : Nat
  stream : List (List WEntry)
  haltAt : Option Nat
  cutAt : Nat
  byFault : Bool
  faults : List (Nat × Nat × Nat)
  gone : List (Nat × Nat)
  deriving DecidableEq, Repr

/-- A fault record (21 Table 21.3); `dump`: what the module log keeps beside it of an engine that a fault froze (Table 21.4). -/
structure FaultRec where
  cls : Nat
  outcome : Nat
  mkind : Nat
  ctx : Nat
  seq : Nat
  cyc : Nat
  slab : Nat
  ptile : Nat
  unit : Nat
  y : Nat
  x : Nat
  gen : Nat
  cause : Nat
  addr : Word
  aux : Word
  pc : Word
  dump : List Word
  deriving DecidableEq, Repr

/-- One end of a link module (23 R373, Table 23.4; 26 R400): of the flits it sends, the next number, those unacknowledged, the resends; of
those it receives, the CRC failures, the number expected, whether it has sent a NAK, and the cycles in which it accepted those it has not
acknowledged. -/
structure LinkEnd where
  txseq : Nat
  held : List Nat
  replays : Nat
  crcerr : Nat
  expect : Nat
  nakSent : Bool
  owed : List Nat
  deriving DecidableEq, Repr

/-- A link module: its two ends, the burst start cycles, its state, the cycle in which it last began to retrain, the retry burst under way that
makes it fall back, as the end that receives it and its last flit, and the lane of the flit that failed last (23 R373, R374). -/
structure Link where
  ends : Vector LinkEnd 2
  bursts : List Nat
  state : Nat
  since : Nat
  falls : Option (Nat × Nat)
  lane : Nat
  deriving DecidableEq, Repr

/-- Who makes a request to another module: a thread, a copy channel, an engine, the Hoist for a task, or another unit of the module. -/
inductive Master where
  | thread (w : Who)
  | chan (tile ch : Nat)
  | eng (cl e : Nat)
  | task (k : Nat)
  | module
  deriving DecidableEq, Repr

/-- A pod request in flight: its master, the thread (0 of a unit) and instruction with its address, its transaction, size and number on its
link (15 R304, R305; 23 R375, R376). -/
structure PodFlight where
  by_ : Master
  thr : Nat
  pc : Word
  ev : Word
  gen : BitVec 8
  seq : Nat
  module : Nat
  pa : Nat
  ctx : Nat
  reqId : Nat
  sentAt : Nat
  firstAt : Nat
  port : Nat
  code : Nat
  size : Nat
  lseq : Nat
  deriving DecidableEq, Repr

/-- A stream ring: its descriptor words and the lengths of the frames in its slots (15 R307, R309). -/
structure Ring where
  base : Word
  cfg : Word
  lens : List (Nat × Nat)
  deriving DecidableEq, Repr

/-- A reply the module sends: to the host, its header and payload (15 R299), or to another module through a port, with the numbers and the
code of the request, 0 done or 1 refused, and data (15 R304; 23 R375). -/
inductive Reply where
  | host (hdr : HostHdr) (data : List Byte)
  | pod (port module lseq reqId ctx code status : Nat) (data : List Byte)
  deriving DecidableEq, Repr

/-- A request of another module that waits: a WR or AMO for room in the deduplication table or for its line, a CMPL for those before it
(15 R304; 23 R375). -/
inductive PodOp where
  | wr (data : List Byte)
  | amo (op : Nat) (b d : Word)
  | cmpl
  deriving DecidableEq, Repr

/-- A redundant launch: record, tasks left of each copy, shadow pages of each copy by virtual page (21 R346 to R348). -/
structure Red where
  ctx : Nat
  retw : Word
  area : Nat
  count : Nat
  left : List Nat
  pages : List (Nat × Nat)
  dead : Bool
  deriving DecidableEq, Repr

/-- A task retired and whose RETW is still to be increased (13 R260). -/
structure RetAdd where
  ctx : Nat
  retw : Word
  task : Nat
  amount : Nat
  deriving DecidableEq, Repr

/-- A turn of the schedule (log 1): an issue, a step of another agent, cycles, and what the memories do between the issue of an
access and its completion, or after it: an access read at its place, a part of a store performed, a chain accepted, a burst of a copy, or a part of one, two
requests combined, a store accepted ahead of the port, a part of an engine's source read, a piece of a footprint read or written, an instruction word captured or dropped, a result of an engine enqueued; errors found together in a tile's registers,
scratchpad or matrix state by whatever reads them, in a part of a burst, in an engine's state by its command, or in a line of HBM, a slice or
its directory (23 R363, R364, R369, R371); a mismatch of a destination that replays (24 R387); and what
another module of the pod does: bytes of its own memory written, a request refused; and a request of another module that waited, taken
again (15 R303, R304; 23 R376). -/
inductive Turn where
  | issue (w : Who)
  | event (i : Instr)
  | tick (n : Nat)
  | serve (w : Who) (seq : Nat) (part : Option Nat) (ecc : Ecc)
  | perform (id : Nat)
  | accept (w : Who) (seq : Nat)
  | burst (tile ch k : Nat)
  | combine (w : Who) (seq : Nat) (w' : Who) (seq' : Nat)
  | capture (tile pa : Nat)
  | drop (tile k : Nat)
  | result (cl e : Nat)
  | found (tile : Nat) (bad : List (Nat × Nat × Ecc))
  | burstError (tile ch k part : Nat) (ecc : Ecc)
  | store (w : Who) (seq : Nat)
  | part (tile ch k j : Nat)
  | engRead (cl e : Nat) (p : Part)
  | engError (cl e : Nat)
  | stored (pa : Nat) (ecc : Ecc)
  | foot (task k : Nat)
  | rehit (w : Who) (flips : List Glitch)
  | remote (module pa : Nat) (data : List Byte)
  | refuse (k : Nat)
  | podWait (k : Nat)
  deriving DecidableEq, Repr

/-- Advertised dimensions and the other capability figures (15 R314; log 7). -/
structure Caps where
  hs : List Nat
  maxRing : Nat
  moduleNo : Nat
  podSize : Nat
  podMode : BitVec 12
  engOut : List Nat
  deriving DecidableEq, Repr

/-- The state of the module. `stepAt`: the cycle after the last step of another agent; the slots of a cycle issue before
such a step, so a thread goes on in the cycle after its event (02 R21; log 1). `oldRepl`: REPL mappings changed and not yet covered by
a `tlbi` (11 R228). -/
structure State where
  now : Nat
  stepAt : Nat
  focus : Who
  agenda : List Turn
  fresh : Nat
  ready : Bool
  recovery : Bool
  tiles : List (Nat × Tile)
  ptiles : List (Nat × PTile)
  clusters : List (Nat × Cluster)
  slabs : List (Nat × Slab)
  vmap : List (Nat × Nat)
  vmap0 : List (Nat × Nat)
  caps : Caps
  hbm : List Host.Cell
  poison : List Nat
  podMem : List (Nat × List Host.Cell)
  shadow : List (Nat × List Host.Cell)
  ctxs : List (Nat × Ctx)
  pages : List Page
  quarantine : List Nat
  withdrawn : List Nat
  fan : Option Fan
  rrCtx : List (Nat × Nat)
  tasks : List (Nat × Task)
  nextTask : Nat
  retAdds : List RetAdd
  msgs : List Msg
  nextMsg : Nat
  acks : List Ack
  migs : List Migrant
  waves : List (Nat × Wave)
  nextWave : Nat
  flog : List FaultRec
  fseq : Nat
  flost : Nat
  links : List (Nat × Link)
  exports : List Nat
  routes : List (Nat × Nat)
  pods : List PodFlight
  nextReq : Nat
  rings : List (Nat × Ring)
  classes : List (Nat × Nat)
  keys : List (Nat × BitVec 256 × BitVec 32)
  portBad : List (Nat × Nat)
  portNoMatch : List (Nat × Nat)
  replies : List Reply
  alog : List (BitVec 512)
  image : List Byte
  bootRec : Option FaultRec
  reds : List (Nat × Red)
  nextRed : Nat
  shadowPool : Nat
  hbmCorr : List (Nat × Nat)
  stretch : Nat
  stores : List Stored
  nextStore : Nat
  early : List Early
  nextThr : Nat
  slices : List Nat
  lseqs : List (Nat × Nat)
  podIn : List (PodReq × PodOp)
  oldRepl : List Page
  deriving DecidableEq, Repr

/-- Faults of the model: the machine stops. -/
inductive Fault where
  /-- Raised by an access whose physical address names HBM stack 24 to 63, which the module does not have
  (11 R225). Safe: no effect is given to such an access. -/
  | absentStack
  deriving DecidableEq, Repr

/-- Refusals of the model. -/
inductive Refusal where
  /-- Raised by an arm of `exec` whose instruction has no meaning yet. Safe: the machine goes no further. -/
  | notModelled (mnemonic : String)
  deriving DecidableEq, Repr

/-- An UNBOUND binding (10 R195). -/
def Binding.cold : Binding :=
  { st := .unbound, evn := 0, kind := 0, prio := 0, cl := 0, eng := 0, since := 0, left := [], token := none }

/-- A slot after a start: IDLE, with the registers a log entry names zero (log 6), p0 reading 1 (03 R50). -/
def Slot.cold : Slot :=
  { st := .idle, frozen := false, halted := false, outReq := false, why := .none
    g := Vector.replicate 32 0, o := Vector.replicate 8 0, l := Vector.replicate 4 0
    lq := [], l0Prev := 0, l0At := 0, p := 1, pc := 0, gen := 0
    lc0 := 0, ls0 := 0, le0 := 0, lc1 := 0, ls1 := 0, le1 := 0
    v := [], vdirty := 0, vshp := 0
    routes := Vector.replicate 4 none, qstat := Vector.replicate 4 ⟨0, 0, 0⟩, rbuf := Vector.replicate 4 []
    f := Vector.replicate 4 Binding.cold, guards := Vector.replicate 8 none
    fstat := 0, tvec := 0, epc := 0, enext := 0, ecause := 0, eval := 0, estat := 0, tmr := 0, tctl := 0
    notice := false, pers := false, ckst := 0
    ctx := none, lastCtx := none, task := none, aux := false, red := none
    iseq := 0, pend := [], vpend := [], scoreboard := [], trapq := [], solo := false, fences := [], thr := 0, fetchAt := 0
    wave := none, claimed := none, join := none, waitUntil := none, op := none, lastIssue := 0, drainSet := [], freeFrom := 0, preempted := false }

/-- Matrix state at cold start (03 Tables 3.7 to 3.9; 09 R173, R190). -/
def Matrix.cold : Matrix :=
  { active := none, shadow := none, filling := false, load := none, out := none, outTail := none, outCtx := 0, flight := none
    mshp := 0xF, afmt := 5, mstat := 0, acc := [], aw := [], mw := [], kr := [], scrOff := [], fifo := []
    bnd := Vector.replicate 8 ⟨0, 0, 0, 0⟩, bndVer := Vector.replicate 8 0, owner := none, rails := 0xF, wakes := 0, rowsW := [], latchDirty := false, slips := [] }

/-- Rotation table entry p at cold start: every column valid and naming slot p (02 Table 2.3). -/
def rtabCold (p : Nat) : BitVec 32 := BitVec.ofNat 32 (p + 16 + p * 32 + 512 + p * 1024 + 16384)

/-- A virtual tile after a start. -/
def Tile.cold : Tile :=
  { slots := [], rtab := Vector.ofFn fun p => rtabCold p.val, rotNext := none, cycBase := 0
    spad := [], poison := [], dedup := [], stamp := 0, resv := [], lastResv := [], mx := Matrix.cold, spoilq := [], spoilc := 0, held := [], roomAt := [], runq := []
    chan := Vector.replicate 4 ⟨[], none⟩, portAt := 0, tlb := [], istore := [], ring := [], spilled := [], savedMx := [], handoffs := [], ringH := [], before := (0, [])
    image := ⟨[], [], [], 0, 0, true⟩, dirty := [], log := [], boundary := 0, covered := false
    move := none, fwd := 0, resumed := 0, stopped := false, vacant := false, lastRow := 0 }

/-- An ageing record before any event (log 6). -/
def Ageing.cold : Ageing :=
  { strh := 0, frac := 0, corr := 0, smis := [], smtot := 0, marg := 0, flag := false, ret := false, eol := 0
    prevMarg := 0, prevStrh := 0, testStrh := 0, lastW := 0, corrAt := [] }

/-- Default gap row of a physical column (14 R407 step 1). -/
def gapRow (c : Nat) : Nat := 2 + c % 4

/-- A physical tile after a start without retirements: the default-row tiles of even columns rest, those of odd
columns are spare, the others serve (14 R407). -/
def PTile.cold (pt : Nat) : PTile :=
  let n := pt % 64
  { role := if n / 8 = gapRow (n % 8) then (if n % 2 = 0 then .resting else .spare) else .serving
    north := true, since := 0, testing := decide (n / 8 = gapRow (n % 8) ∧ n % 2 = 0)
    reading := 0, band := 0, bandAt := none, sampledAt := none, gated := false, routerDown := false, age := Ageing.cold }

/-- A sleeping engine. -/
def Engine.cold : Engine :=
  { pow := .off, inService := true, frozen := none, holder := none, freedAt := 0, cmds := [], opc := none, results := [], outs := [], stop := none, thr := 0, caught := []
    active := Vector.replicate 16 0, shadow := Vector.replicate 16 0, done := 0, keys := [], mstate := 0, moved := 0 }

/-- A cluster after a start (13 Table 13.3). -/
def Cluster.cold : Cluster :=
  { cap := 2048, rsv := 256, bal := 2048, fill := 72, filled := 0, queue := [], pow := .on, idleAt := none, wakeWanted := false
    engines := Vector.replicate 16 Engine.cold, lreq := [], owl := [], owlSkip := 0, owlAt := 0, lines := [], wbs := [], dir := [], ovq := []
    ovUsed := 0, handlerDown := false, hoist := [], placedAt := 0, dedup := [], comb := [] }

/-- A slab after a start (13 R267). -/
def Slab.cold : Slab :=
  { booted := true, tokens := 8, wakes := [], lltlb := [], walks := [], waitWalks := [], walkFails := [], nextRest := 0, defects := ⟨[], [], [], 0⟩ }

/-- A context that is not open. -/
def Ctx.cold : Ctx := { isOpen := false, queue := [], queueFrozen := false, ring := none, dying := false, since := 0 }

/-- A link module at 64 lanes with nothing sent (23 Table 23.4). -/
def Link.cold : Link :=
  { ends := Vector.replicate 2 ⟨0, [], 0, 0, 0, false, []⟩, bursts := [], state := 0, since := 0, falls := none, lane := 0 }

/-- The module right after a start that found every unit fit (15 R311; 14 R296, R407): memory cleared, no context
open, every slot IDLE, clusters on, no engine powered. Maps list only what differs from the cold values above. Its capability figures, the
longest `mring` ring of 48 among them, are the model's choice (log 7). -/
def State.reset : State :=
  { now := 0, stepAt := 0, focus := ⟨0, 0⟩, agenda := [], fresh := 0, ready := true, recovery := false
    tiles := [], ptiles := [], clusters := [], slabs := [], vmap := [], vmap0 := []
    caps := { hs := [7, 7, 7, 7, 7, 7, 7, 7], maxRing := 48, moduleNo := 0, podSize := 1, podMode := 0, engOut := [] }
    hbm := [], poison := [], podMem := [], shadow := [], ctxs := [], pages := [], quarantine := [], withdrawn := []
    fan := none, rrCtx := [], tasks := [], nextTask := 1, retAdds := [], msgs := [], nextMsg := 0, acks := [], migs := []
    waves := [], nextWave := 0, flog := [], fseq := 0, flost := 0, links := [], exports := [], routes := [], pods := []
    nextReq := 0, rings := [], classes := [], keys := [], portBad := [], portNoMatch := [], replies := [], alog := []
    image := [], bootRec := none, reds := [], nextRed := 0, shadowPool := 0, hbmCorr := [], stretch := 2
    stores := [], nextStore := 0, early := [], nextThr := 1, slices := [], lseqs := [], podIn := [], oldRepl := [] }

end Sys2Proof.Machine
end

