-- ==== Sys2Proof/Machine/Geometry.lean ====
section
/-! DEFINITION. The panel: numbering of units, the embedding of virtual tiles, groups, paths and their latencies
(01 R9, R10; 11 R217, R218; 14 R278 to R283, R403, R407). -/

namespace Sys2Proof.Machine

/-- Virtual column and row of a tile number. -/
def tx (t : Nat) : Nat := t % 48
def ty (t : Nat) : Nat := t / 48
/-- Tile number of a column and row. -/
def tileAt (x y : Nat) : Nat := 48 * y + x

/-- Advertised height H (14 R296). -/
def Caps.height (c : Caps) : Nat := c.hs.foldl (· + ·) 0

/-- Slab row and row within it of a virtual row, from the advertised rows (14 R296). -/
def slabRow : List Nat → Nat → Nat → Option (Nat × Nat)
  | [], _, _ => none
  | h :: r, sy, y => if y < h then some (sy, y) else slabRow r (sy + 1) (y - h)

/-- A virtual tile the module advertises. -/
def State.advertised (s : State) (t : Nat) : Bool := decide (ty t < s.caps.height)

/-- Physical tile, 64 x slab + number, of a virtual tile under the default embedding at 7 rows (14 R279, R407). -/
def homePhys (hs : List Nat) (t : Nat) : Nat :=
  match slabRow hs 0 (ty t) with
  | none => 0
  | some (sy, r) =>
    let col := tx t % 8
    let row := if r < gapRow col then r else r + 1
    64 * (6 * sy + tx t / 8) + 8 * row + col

/-- The physical tile serving a virtual tile (14 R282). -/
def State.phys (s : State) (t : Nat) : Nat := kvGet s.vmap t (homePhys s.caps.hs t)

/-- The physical tile that served a virtual tile when the start completed (11 R218). -/
def State.phys0 (s : State) (t : Nat) : Nat := kvGet s.vmap0 t (homePhys s.caps.hs t)

/-- Module-wide cluster of a physical tile (01 R9). -/
def clusterOf (pt : Nat) : Nat :=
  let n := pt % 64
  4 * (pt / 64) + 2 * (n / 32) + (n % 8) / 4

/-- Index of a physical tile within its cluster (01 R9). -/
def idxInCluster (pt : Nat) : Nat := 4 * (pt % 64 / 8 % 4) + pt % 4

/-- The physical tile of index b of a cluster (01 R9; 11 R217). -/
def physOfBank (cl b : Nat) : Nat :=
  let q := cl % 4
  64 * (cl / 4) + 8 * (4 * (q / 2) + b / 4) + 4 * (q % 2) + b % 4

/-- Stack domain of a slab (01 R10). -/
def stackOf (slab : Nat) : Nat := 4 * (slab % 6) + slab / 6 / 2

/-- Panel coordinates of a physical tile (14 R278). -/
def panelX (pt : Nat) : Nat := 8 * (pt / 64 % 6) + pt % 8
def panelY (pt : Nat) : Nat := 8 * (pt / 64 / 6) + pt % 64 / 8

/-- The physical tile of panel coordinates. -/
def physAt (px py : Nat) : Nat := 64 * (6 * (py / 8) + px / 8) + 8 * (py % 8) + px % 8

/-- Cluster whose physical tile serves a virtual tile now (02 R20). -/
def State.cluster (s : State) (t : Nat) : Nat := clusterOf (s.phys t)

/-- Slab serving a virtual tile now. -/
def State.slabOf (s : State) (t : Nat) : Nat := s.phys t / 64

/-- Hops and crossings of one leg of a path along a ring of `n` routers: direct, or by the wrap link, which counts 4
hops and 2 crossings; fewer hops win and a tie takes the rising direction (14 R403, Table 14.6). -/
def leg (n p q : Nat) : Nat × Nat :=
  let slabs := n / 8
  let up := if p ≤ q then (q - p, q / 8 - p / 8) else (n - 1 - p + 4 + q, slabs - 1 - p / 8 + 2 + q / 8)
  let dn := if q ≤ p then (p - q, p / 8 - q / 8) else (p + 4 + (n - 1 - q), p / 8 + 2 + (slabs - 1 - q / 8))
  if up.1 ≤ dn.1 then up else dn

/-- Hops and crossings of the path between two physical tiles (14 R403). -/
def path (a b : Nat) : Nat × Nat :=
  let h := leg 48 (panelX a) (panelX b)
  let v := leg 64 (panelY a) (panelY b)
  (h.1 + v.1, h.2 + v.2)

/-- Whether a leg takes the rising direction: east or south (14 R403). -/
def legRises (n p q : Nat) : Bool :=
  let up := if p ≤ q then q - p else n - 1 - p + 4 + q
  let dn := if q ≤ p then p - q else p + 4 + (n - 1 - q)
  decide (up ≤ dn)

/-- Routers of a leg, both ends among them, in the order they are passed. -/
def legStops (n p q : Nat) : List Nat :=
  if legRises n p q then (List.range ((q + n - p) % n + 1)).map fun i => (p + i) % n
  else (List.range ((p + n - q) % n + 1)).map fun i => (p + n - i) % n

/-- Slab edges of a leg: k is the edge between places k and k + 1 of the ring of slabs. -/
def legEdges (n p q : Nat) : List Nat :=
  let l := legStops n p q
  (l.zip (l.drop 1)).filterMap fun e =>
    if e.1 / 8 = e.2 / 8 then none else if legRises n p q then some (e.1 / 8) else some (e.2 / 8)

/-- The slab across an edge: east or south, round the panel. -/
def acrossEdge (slab dir : Nat) : Nat :=
  if dir = 0 then 6 * (slab / 6) + (slab % 6 + 1) % 6 else 6 * ((slab / 6 + 1) % 8) + slab % 6

/-- An edge of the panel's rim, joined by wrap links (14 R295). -/
def isWrap (slab dir : Nat) : Bool := if dir = 0 then slab % 6 == 5 else slab / 6 == 7

/-- Status of a link module: 0 UP64, 1 UP32, 2 RETRAIN, 3 DOWN (23 Table 23.4). -/
def State.linkState (s : State) (k : Nat) : Nat := (kvGet s.links k Link.cold).state

/-- An edge is down when both its modules are, or one of its wrap links (23 R374). -/
def State.edgeDown (s : State) (slab dir : Nat) : Bool :=
  let a := s.linkState (4 * slab + 2 * dir) == 3
  let b := s.linkState (4 * slab + 2 * dir + 1) == 3
  if isWrap slab dir then a || b else a && b

/-- The module that carries a mesh link of a row or column of this parity over an edge: module 0 the even, module 1 the odd
ones, and the other when that one is DOWN (14 R294, R403; 23 R374). -/
def State.seamOf (s : State) (slab dir parity : Nat) : Nat :=
  let k := 4 * slab + 2 * dir + parity % 2
  if s.linkState k = 3 then 4 * slab + 2 * dir + (parity + 1) % 2 else k

/-- Edges of the path between two physical tiles, with the row or column whose parity picks the module (14 R403). -/
def pathEdges (a b : Nat) : List (Nat × Nat × Nat) :=
  ((legEdges 48 (panelX a) (panelX b)).map fun k => (6 * (panelY a / 8) + k, 0, panelY a)) ++
    (legEdges 64 (panelY a) (panelY b)).map fun k => (6 * k + panelX b / 8, 1, panelX b)

/-- Routers of the path between two physical tiles: its row, then its column (14 R403). -/
def pathStops (a b : Nat) : List Nat :=
  ((legStops 48 (panelX a) (panelX b)).map fun x => physAt x (panelY a)) ++
    (legStops 64 (panelY a) (panelY b)).map fun y => physAt (panelX b) y

/-- Edges that are down and routers switched off: a detour stands until these change (14 R403). -/
def State.outages (s : State) : List Nat :=
  ((List.range 96).filter fun k => s.edgeDown (k / 2) (k % 2)) ++
    (s.ptiles.filter fun e => e.2.routerDown).map fun e => 96 + e.1

/-- Hops and crossings of the path taken between two physical tiles: that of R403, or, where a link of it is down or a router on
it has failed, the region controller's detour, of which the manual gives no length (14 R403; log 5). -/
def State.pathTaken (s : State) (a b : Nat) : Nat × Nat :=
  if (pathEdges a b).any (fun e => s.edgeDown e.1 e.2.1) || (pathStops a b).any fun p => (kvGet s.ptiles p (PTile.cold p)).routerDown then
    Config.detour s.outages a b
  else path a b

/-- Cycles for which a module of the path still retrains, and holds what it carries (23 R374). -/
def State.pathHold (s : State) (a b : Nat) : Nat :=
  (pathEdges a b).foldl (fun m e =>
    let k := s.seamOf e.1 e.2.1 e.2.2
    if s.linkState k = 2 then max m ((kvGet s.links k Link.cold).since + 4500 - s.now) else m) 0

/-- 3 cycles per hop and 2 per crossing of a path (11 Table 11.1), and the hold of a module that retrains. -/
def State.pathDelay (s : State) (a b : Nat) : Nat := 3 * (s.pathTaken a b).1 + 2 * (s.pathTaken a b).2 + s.pathHold a b

/-- Signed shorter difference on a ring of `n` (14 R283). -/
def ringDiff (n a b : Nat) : Int :=
  let d := (b + n - a) % n
  if 2 * d ≤ n then (d : Int) else (d : Int) - n

/-- The logical neighbour of a tile: 0 east, 1 south, 2 west, 3 north (03 R57). -/
def State.neighbour (s : State) (t dir : Nat) : Nat :=
  let h := s.caps.height
  match dir with
  | 0 => tileAt ((tx t + 1) % 48) (ty t)
  | 1 => tileAt (tx t) ((ty t + 1) % h)
  | 2 => tileAt ((tx t + 47) % 48) (ty t)
  | _ => tileAt (tx t) ((ty t + h - 1) % h)

/-- Virtual tiles of a slab in ascending (y, x). -/
def State.slabTiles (s : State) (slab : Nat) : List Nat :=
  let sy := slab / 6
  let y0 := (s.caps.hs.take sy).foldl (· + ·) 0
  let h := s.caps.hs.getD sy 0
  (List.range h).flatMap fun r => (List.range 8).map fun c => tileAt (8 * (slab % 6) + c) (y0 + r)

/-- Members of a cluster's group in rank order: the virtual tiles its physical tiles served when the start completed
(11 R218). -/
def State.group (s : State) (cl : Nat) : List Nat :=
  (s.slabTiles (cl / 4)).filter fun t => clusterOf (s.phys0 t) == cl

/-- The cluster of a tile's group. -/
def State.groupOf (s : State) (t : Nat) : Nat := clusterOf (s.phys0 t)

/-- Rank of a tile in its group. -/
def State.rank (s : State) (t : Nat) : Nat := (s.group (s.groupOf t)).idxOf t

/-- Virtual tiles a cluster's physical tiles serve now, in rank-like order. -/
def State.served (s : State) (cl : Nat) : List Nat :=
  (s.slabTiles (cl / 4)).filter fun t => s.cluster t == cl

/-- Router translation read backwards: the virtual tile a physical tile serves. -/
def State.virtOf (s : State) (pt : Nat) : Option Nat :=
  (s.slabTiles (pt / 64)).find? fun t => s.phys t == pt

/-- Home slice of a line of a HOME page (11 R227). -/
def State.homeSlice (s : State) (pa : Nat) : Nat :=
  let n := pa / 64
  let h := bits (n ^^^ (n / 2 ^ 12) ^^^ (n / 2 ^ 24)) 11 0
  let live := (List.range 192).filter fun c => (kvGet s.slabs (c / 4) Slab.cold).booted
  live.getD (h % live.length) 0

end Sys2Proof.Machine
end

