-- ==== Sys2Proof/Machine/Units.lean ====
section
/-! DEFINITION. Reading and replacing one unit of the state: tiles, slots, clusters, slabs, contexts and the rest. -/

namespace Sys2Proof.Machine

/-- A virtual tile. -/
def State.tile (s : State) (t : Nat) : Tile := kvGet s.tiles t Tile.cold
def State.setTile (s : State) (t : Nat) (x : Tile) : State := { s with tiles := kvSet s.tiles t x }
def State.modTile (s : State) (t : Nat) (f : Tile → Tile) : State := s.setTile t (f (s.tile t))

/-- A slot of a tile. -/
def Tile.slot (t : Tile) (k : Nat) : Slot := kvGet t.slots k Slot.cold
def Tile.setSlot (t : Tile) (k : Nat) (x : Slot) : Tile := { t with slots := kvSet t.slots k x }

/-- A thread slot of the module. -/
def State.slot (s : State) (w : Who) : Slot := (s.tile w.tile).slot w.slot
def State.setSlot (s : State) (w : Who) (x : Slot) : State := s.setTile w.tile ((s.tile w.tile).setSlot w.slot x)
def State.modSlot (s : State) (w : Who) (f : Slot → Slot) : State := s.setSlot w (f (s.slot w))

/-- The thread whose turn it is. -/
def State.cur (s : State) : Slot := s.slot s.focus
def State.setCur (s : State) (x : Slot) : State := s.setSlot s.focus x
def State.modCur (s : State) (f : Slot → Slot) : State := s.modSlot s.focus f

/-- The matrix state of a tile. -/
def State.modMx (s : State) (t : Nat) (f : Matrix → Matrix) : State :=
  s.modTile t fun x => { x with mx := f x.mx }

def State.ptile (s : State) (p : Nat) : PTile := kvGet s.ptiles p (PTile.cold p)
def State.setPtile (s : State) (p : Nat) (x : PTile) : State := { s with ptiles := kvSet s.ptiles p x }
def State.modPtile (s : State) (p : Nat) (f : PTile → PTile) : State := s.setPtile p (f (s.ptile p))

def State.clu (s : State) (c : Nat) : Cluster := kvGet s.clusters c Cluster.cold
def State.setClu (s : State) (c : Nat) (x : Cluster) : State := { s with clusters := kvSet s.clusters c x }
def State.modClu (s : State) (c : Nat) (f : Cluster → Cluster) : State := s.setClu c (f (s.clu c))

def Cluster.eng (c : Cluster) (e : Nat) : Engine := vget c.engines e Engine.cold
def State.eng (s : State) (c e : Nat) : Engine := (s.clu c).eng e
def State.modEng (s : State) (c e : Nat) (f : Engine → Engine) : State :=
  s.modClu c fun x => { x with engines := vset x.engines e (f (x.eng e)) }

def State.slab (s : State) (k : Nat) : Slab := kvGet s.slabs k Slab.cold
def State.modSlab (s : State) (k : Nat) (f : Slab → Slab) : State :=
  { s with slabs := kvSet s.slabs k (f (s.slab k)) }

def State.ctxOf (s : State) (c : Nat) : Ctx := kvGet s.ctxs c Ctx.cold
def State.modCtx (s : State) (c : Nat) (f : Ctx → Ctx) : State := { s with ctxs := kvSet s.ctxs c (f (s.ctxOf c)) }

def State.task? (s : State) (k : Nat) : Option Task := kvGet (s.tasks.map fun e => (e.1, some e.2)) k none
def State.modTask (s : State) (k : Nat) (f : Task → Task) : State :=
  match s.task? k with
  | some x => { s with tasks := kvSet s.tasks k (f x) }
  | none => s

def State.red? (s : State) (k : Nat) : Option Red := kvGet (s.reds.map fun e => (e.1, some e.2)) k none

def State.wave? (s : State) (k : Nat) : Option Wave := kvGet (s.waves.map fun e => (e.1, some e.2)) k none
def State.setWave (s : State) (k : Nat) (x : Wave) : State := { s with waves := kvSet s.waves k x }

def State.link (s : State) (k : Nat) : Link := kvGet s.links k Link.cold
def State.setLink (s : State) (k : Nat) (x : Link) : State := { s with links := kvSet s.links k x }

/-- The channel of a tile. -/
def Tile.channel (t : Tile) (c : Nat) : Channel := vget t.chan c ⟨[], none⟩
def State.modChan (s : State) (t c : Nat) (f : Channel → Channel) : State :=
  s.modTile t fun x => { x with chan := vset x.chan c (f (x.channel c)) }

/-- A binding of a thread. -/
def Slot.bind (x : Slot) (k : Nat) : Binding := vget x.f k Binding.cold
def Slot.setBind (x : Slot) (k : Nat) (b : Binding) : Slot := { x with f := vset x.f k b }

/-- `cyc` of a tile: its local cycle counter (13 R277; 14 R285). -/
def State.cyc (s : State) (t : Nat) : Word := wd (s.now + (s.tile t).cycBase)

/-- The slots of a tile, in order. -/
def slotNums : List Nat := List.range 16

/-- The thread of a tile that is in a wave, head or member (02 R28). -/
def Slot.inWave (x : Slot) : Bool := x.wave.isSome

/-- A wave member other than a row head (02 Table 2.2). -/
def Slot.isMember (x : Slot) : Bool :=
  match x.wave with
  | some w => decide (w.k ≠ 0)
  | none => false

/-- Whether the column at bit 0, 5 or 10 of a table's entries names a slot at a position (02 Table 2.3). -/
def columnNames (tab : Vector (BitVec 32) 16) (at_ pos slot : Nat) : Bool :=
  let e := (vget tab pos 0).toNat
  bitOf e (at_ + 4) && bits e (at_ + 3) at_ == slot

/-- Issue positions a table gives a slot, ascending (02 R23, R24). -/
def positionsIn (tab : Vector (BitVec 32) 16) (slot : Nat) : List Nat := (List.range 16).filter fun p => columnNames tab 0 p slot

/-- Issue positions a slot holds. -/
def Tile.positions (t : Tile) (slot : Nat) : List Nat := positionsIn t.rtab slot

/-- Whether the matrix column of a position names a slot (02 R26). -/
def Tile.matrixAt (t : Tile) (pos slot : Nat) : Bool := columnNames t.rtab 5 pos slot

/-- Whether the vector column of a position names a slot (02 R26). -/
def Tile.vectorAt (t : Tile) (pos slot : Nat) : Bool := columnNames t.rtab 10 pos slot

/-- The position of the rotation at the present cycle of a tile (02 R22). -/
def State.posOf (s : State) (t : Nat) : Nat := (s.now + (s.tile t).cycBase) % 16

/-- A free value of the manual, with the counter advanced (log 5). -/
def State.freeVal (s : State) : Word × State := (Config.freeWord s.fresh, { s with fresh := s.fresh + 1 })

end Sys2Proof.Machine
end

