-- ==== Sys2Proof/Machine/Flags.lean ====
section
/-! DEFINITION. The flags of `fstat` (05 Table 5.7) and of the copy status, and the loop-end decision (06 R117). -/

namespace Sys2Proof.Machine

abbrev fNX : Nat := 1
abbrev fUF : Nat := 2
abbrev fOF : Nat := 4
abbrev fNV : Nat := 8
abbrev fSAT : Nat := 16
abbrev fQA : Nat := 32
abbrev fTA : Nat := 64
abbrev fFZ : Nat := 128

/-- Flags are sticky: an instruction sets and never clears them (05 R91). -/
def Slot.raiseFlags (x : Slot) (fl : Nat) : Slot := { x with fstat := x.fstat ||| wd fl }

/-- The predicate word as an instruction sees it: p0 reads 1 (03 R50). -/
def Slot.preds (x : Slot) : BitVec 8 := x.p ||| 1

/-- One predicate. -/
def Slot.pred (x : Slot) (i : BitVec 3) : Bool := x.preds.getLsbD i.toNat

/-- A predicate written; a write to p0 is discarded (03 R50). -/
def Slot.setPred (x : Slot) (i : BitVec 3) (v : Bool) : Slot :=
  if i = 0 then x
  else
    let m : BitVec 8 := 1 <<< i.toNat
    { x with p := if v then x.p ||| m else x.p &&& ~~~m }

/-- Whether a guard lets an instruction execute (04 R64). -/
def Slot.guardHolds (x : Slot) (g : Guard) : Bool := x.pred g.p != (g.sense == 1)

/-- The loop-end decision of R117 at the address of an instruction that took no transfer: the counts after it and the
next address. -/
def Slot.loopEnd (x : Slot) (pc : Word) : Slot × Word :=
  if x.lc1 ≠ 0 ∧ pc = x.le1 then
    let c := x.lc1 - 1
    if c ≠ 0 then ({ x with lc1 := c }, x.ls1)
    else if x.lc0 ≠ 0 ∧ pc = x.le0 then
      let c0 := x.lc0 - 1
      ({ x with lc1 := 0, lc0 := c0 }, if c0 ≠ 0 then x.ls0 else pc + 4)
    else ({ x with lc1 := 0 }, pc + 4)
  else if x.lc0 ≠ 0 ∧ pc = x.le0 then
    let c0 := x.lc0 - 1
    ({ x with lc0 := c0 }, if c0 ≠ 0 then x.ls0 else pc + 4)
  else (x, pc + 4)

end Sys2Proof.Machine
end

