-- ==== Sys2Proof/Machine/Float.lean ====
section
/-! DEFINITION. Element formats, rounding, conversion and exact arithmetic (05 R77 to R89, R98, R99; 08 R160). -/

namespace Sys2Proof.Machine

/-- An exact value: NaN, an infinity, or (-1)^neg * m * 2^e (05 R78). -/
inductive Num where
  | nan
  | inf (neg : Bool)
  | fin (neg : Bool) (m : Nat) (e : Int)
  deriving DecidableEq, Repr

/-- A floating format: exponent bits, fraction bits, bias, whether it has infinities (05 Table 5.1). -/
structure Fmt where
  eb : Nat
  mb : Nat
  bias : Nat
  hasInf : Bool
  deriving DecidableEq, Repr

/-- The floating format of a type code (03 Table 3.6). -/
def fmtOf : Nat → Option Fmt
  | 0 => some ⟨8, 23, 127, true⟩
  | 1 => some ⟨8, 7, 127, true⟩
  | 2 => some ⟨4, 3, 7, false⟩
  | 3 => some ⟨5, 2, 15, true⟩
  | _ => none

/-- Width in bits of an element type (05 Table 5.1). -/
def tyBits : Nat → Nat
  | 0 => 32
  | 1 => 16
  | 2 => 8
  | 3 => 8
  | 4 => 4
  | 5 => 8
  | 6 => 16
  | 7 => 32
  | 8 => 8
  | 9 => 16
  | 10 => 32
  | _ => 0

/-- Whether a type code is I8, I16 or I32. -/
def tySigned (ty : Nat) : Bool := decide (5 ≤ ty ∧ ty ≤ 7)

/-- Canonical NaN, positive (05 R79, Table 5.2). -/
def cNaN : Nat → Nat
  | 0 => 0x7FC00000
  | 1 => 0x7FC0
  | 2 => 0x7F
  | 3 => 0x7E
  | _ => 0

/-- Pattern of the largest finite magnitude (05 Table 5.2). -/
def maxFin (f : Fmt) : Nat := if f.hasInf then (2 ^ f.eb - 1) * 2 ^ f.mb - 1 else 2 ^ (f.eb + f.mb) - 2

/-- Value of a floating pattern (05 R78). -/
def flDecode (f : Fmt) (b : Nat) : Num :=
  let neg := bitOf b (f.eb + f.mb)
  let e := b / 2 ^ f.mb % 2 ^ f.eb
  let m := b % 2 ^ f.mb
  if f.hasInf = false ∧ e = 2 ^ f.eb - 1 ∧ m = 2 ^ f.mb - 1 then .nan
  else if f.hasInf = true ∧ e = 2 ^ f.eb - 1 then (if m = 0 then .inf neg else .nan)
  else if e = 0 then .fin neg m (1 - (f.bias : Int) - f.mb)
  else .fin neg (2 ^ f.mb + m) ((e : Int) - f.bias - f.mb)

/-- An integer as an exact value. -/
def numOfInt (x : Int) (e : Int) : Num := .fin (decide (x < 0)) x.natAbs e

/-- Value of an element of any type but Q4X (05 R77, R80). -/
def tyDecode (ty b : Nat) : Num :=
  match fmtOf ty with
  | some f => flDecode f b
  | none => if tySigned ty then numOfInt (sval b (tyBits ty)) 0 else .fin false (b % 2 ^ tyBits ty) 0

/-- A floating pattern that is a subnormal (05 R78). -/
def isSubnormal (ty b : Nat) : Bool :=
  match fmtOf ty with
  | some f => b / 2 ^ f.mb % 2 ^ f.eb == 0 && b % 2 ^ f.mb != 0
  | none => false

/-- Whether a magnitude `n + r / 2^k` (with more below when `sticky`) is rounded up to `n + 1` (05 Table 5.5). -/
def roundsUp (rm : Nat) (neg : Bool) (n r k : Nat) (sticky : Bool) : Bool :=
  let exact := r == 0 && !sticky
  if exact then false
  else
    match rm with
    | 0 => decide (2 ^ k < 2 * r) || (2 ^ k == 2 * r && (sticky || n % 2 == 1))
    | 1 => false
    | 2 => !neg
    | _ => neg

/-- A magnitude m * 2^e rounded to a multiple of 2^q: quotient and whether it was inexact. -/
def roundAt (rm : Nat) (neg : Bool) (m : Nat) (e q : Int) (sticky : Bool) : Nat × Bool :=
  if q ≤ e then (m * 2 ^ (e - q).toNat, sticky)
  else
    let k := (q - e).toNat
    let n := m / 2 ^ k
    let r := m % 2 ^ k
    (if roundsUp rm neg n r k sticky then n + 1 else n, r != 0 || sticky)

/-- A finite nonzero magnitude rounded into a floating format with the flags of Table 5.6; `sticky` says that the
magnitude lies strictly between m and m + 1. What lies beyond the largest finite value is judged after rounding (log 25). -/
def roundFl (f : Fmt) (rm : Nat) (neg : Bool) (m : Nat) (e : Int) (sticky : Bool) : Nat × Nat :=
  let sign := if neg then 2 ^ (f.eb + f.mb) else 0
  let emin : Int := 1 - f.bias
  let top : Int := (Nat.log2 m : Int) + e
  let q := max top emin - f.mb
  let r := roundAt rm neg m e q sticky
  let b := (q - (emin - f.mb)).toNat * 2 ^ f.mb + r.1
  let nx := if r.2 then fNX else 0
  if maxFin f < b then
    if f.hasInf then
      let toInf := rm == 0 || (rm == 2 && !neg) || (rm == 3 && neg)
      (sign + (if toInf then maxFin f + 1 else maxFin f), fOF ||| fNX)
    else (sign + maxFin f, nx ||| fSAT)
  else
    (sign + b, if f.hasInf && decide (b < 2 ^ f.mb) && r.2 then nx ||| fUF else nx)

/-- An exact value converted into a floating format (05 Table 5.6). -/
def flEncode (ty : Nat) (f : Fmt) (rm : Nat) : Num → Nat × Nat
  | .nan => (cNaN ty, 0)
  | .inf neg =>
    let sign := if neg then 2 ^ (f.eb + f.mb) else 0
    if f.hasInf then (sign + maxFin f + 1, 0) else (sign + maxFin f, fSAT)
  | .fin neg m e =>
    if m = 0 then (if neg then 2 ^ (f.eb + f.mb) else 0, 0) else roundFl f rm neg m e false

/-- An exact value converted to an integer range (05 Table 5.6): value and flags. -/
def intEncode (lo hi : Int) (rm : Nat) : Num → Int × Nat
  | .nan => (0, fNV)
  | .inf neg => (if neg then lo else hi, fNV)
  | .fin neg m e =>
    let r := roundAt rm neg m e 0 false
    let v : Int := if neg then -(r.1 : Int) else r.1
    let nx := if r.2 then fNX else 0
    if v < lo then (lo, nx ||| fSAT) else if hi < v then (hi, nx ||| fSAT) else (v, nx)

/-- An exact value converted to an element type but Q4X: pattern and flags (05 Table 5.6). -/
def tyEncode (ty rm : Nat) (x : Num) : Nat × Nat :=
  match fmtOf ty with
  | some f => flEncode ty f rm x
  | none =>
    let w := tyBits ty
    let r := if tySigned ty then intEncode (-(2 ^ (w - 1))) (2 ^ (w - 1) - 1) rm x else intEncode 0 (2 ^ w - 1) rm x
    (wrapN r.1 w, r.2)

/-- W96 of an exact value: N with the flags of Table 5.6 (05 R83). -/
def w96Encode : Num → Int × Nat
  | .nan => (0, fNV)
  | .inf neg => (if neg then -(2 ^ 95) else 2 ^ 95 - 1, fNV)
  | .fin neg m e => intEncode (-(2 ^ 95)) (2 ^ 95 - 1) 0 (.fin neg m (e + 48))

/-- Signed mantissa at an exponent not above the value's own. -/
def numAt (neg : Bool) (m : Nat) (e e0 : Int) : Int :=
  let x : Int := m * 2 ^ (e - e0).toNat
  if neg then -x else x

/-- Exact sum with the zero signs of R84 and NV of R86. -/
def numAdd (rm : Nat) : Num → Num → Num × Nat
  | .nan, _ => (.nan, 0)
  | _, .nan => (.nan, 0)
  | .inf a, .inf b => if a = b then (.inf a, 0) else (.nan, fNV)
  | .inf a, _ => (.inf a, 0)
  | _, .inf b => (.inf b, 0)
  | .fin s1 m1 e1, .fin s2 m2 e2 =>
    if m1 = 0 ∧ m2 = 0 then (.fin (if s1 = s2 then s1 else rm == 3) 0 0, 0)
    else
      let e := min e1 e2
      let x := numAt s1 m1 e1 e + numAt s2 m2 e2 e
      if x = 0 then (.fin (rm == 3) 0 0, 0) else (numOfInt x e, 0)

/-- Negation. -/
def numNeg : Num → Num
  | .nan => .nan
  | .inf a => .inf (!a)
  | .fin s m e => .fin (!s) m e

/-- Exact product with NV of R86. -/
def numMul : Num → Num → Num × Nat
  | .nan, _ => (.nan, 0)
  | _, .nan => (.nan, 0)
  | .inf a, .inf b => (.inf (a != b), 0)
  | .inf a, .fin s m _ => if m = 0 then (.nan, fNV) else (.inf (a != s), 0)
  | .fin s m _, .inf b => if m = 0 then (.nan, fNV) else (.inf (s != b), 0)
  | .fin s1 m1 e1, .fin s2 m2 e2 => (.fin (s1 != s2) (m1 * m2) (e1 + e2), 0)

/-- Exact A x B + D; a NaN operand raises nothing (05 R86). -/
def numFma (a b d : Num) : Num × Nat :=
  if a = .nan ∨ b = .nan ∨ d = .nan then (.nan, 0)
  else
    let p := numMul a b
    let r := numAdd 0 p.1 d
    if p.1 = .nan then p else r

/-- Order of two values; none when a NaN takes part (05 R86). +0 and -0 are equal. -/
def numCmp : Num → Num → Option Int
  | .nan, _ => none
  | _, .nan => none
  | .inf a, .inf b => some (if a = b then 0 else if a then -1 else 1)
  | .inf a, _ => some (if a then -1 else 1)
  | _, .inf b => some (if b then 1 else -1)
  | .fin s1 m1 e1, .fin s2 m2 e2 =>
    let e := min e1 e2
    let x := numAt s1 m1 e1 e - numAt s2 m2 e2 e
    some (if x < 0 then -1 else if x = 0 then 0 else 1)

/-- Sign of a value; a NaN's is positive. -/
def numNegative : Num → Bool
  | .nan => false
  | .inf a => a
  | .fin s _ _ => s

/-- Minimum or maximum under R86: one NaN gives the other operand, -0 orders below +0. -/
def numPick (wantMax : Bool) (a b : Num) : Num :=
  match numCmp a b with
  | none => if a = .nan then b else a
  | some c =>
    if c = 0 then (if numNegative a = wantMax then b else a)
    else if (decide (0 < c)) = wantMax then a else b

/-- The largest r with r * r <= n among numbers of k bits. -/
def isqrt : Nat → Nat → Nat → Nat
  | 0, r, _ => r
  | k + 1, r, n => if (r + 2 ^ k) * (r + 2 ^ k) ≤ n then isqrt k (r + 2 ^ k) n else isqrt k r n

/-- Quotient rounded once into F32 or another format (06 R111). -/
def numDiv (ty : Nat) (f : Fmt) (rm : Nat) (a b : Num) : Nat × Nat :=
  match a, b with
  | .nan, _ => (cNaN ty, 0)
  | _, .nan => (cNaN ty, 0)
  | .inf _, .inf _ => (cNaN ty, fNV)
  | .inf s, .fin t _ _ => flEncode ty f rm (.inf (s != t))
  | .fin s _ _, .inf t => flEncode ty f rm (.fin (s != t) 0 0)
  | .fin s m1 e1, .fin t m2 e2 =>
    if m2 = 0 then (if m1 = 0 then (cNaN ty, fNV) else flEncode ty f rm (.inf (s != t)))
    else if m1 = 0 then flEncode ty f rm (.fin (s != t) 0 0)
    else
      let k := Nat.log2 m2 + 64
      let n := m1 * 2 ^ k
      roundFl f rm (s != t) (n / m2) (e1 - e2 - k) (n % m2 != 0)

/-- Square root rounded once (06 R111). -/
def numSqrt (ty : Nat) (f : Fmt) (rm : Nat) : Num → Nat × Nat
  | .nan => (cNaN ty, 0)
  | .inf s => if s then (cNaN ty, fNV) else flEncode ty f rm (.inf false)
  | .fin s m e =>
    if m = 0 then flEncode ty f rm (.fin s 0 0)
    else if s then (cNaN ty, fNV)
    else
      let odd := (e % 2).toNat
      let n := m * 2 ^ (odd + 128)
      let r := isqrt ((Nat.log2 n) / 2 + 1) 0 n
      roundFl f rm false r ((e - odd - 128) / 2) (r * r != n)

/-- 1/sqrt(x) of a positive value, rounded to F32 (08 R160). -/
def rsqrtF32 (f : Fmt) (m : Nat) (e : Int) : Nat × Nat :=
  let odd := (e % 2).toNat
  let d := m * 2 ^ odd
  let k := 2 * (Nat.log2 d + 64)
  let n := 2 ^ (2 * k) / d
  let r := isqrt (k + 1) 0 n
  roundFl f 0 false r (-(k : Int) - (e - odd) / 2) (r * r * d != 2 ^ (2 * k))

/-- Fraction bits of the fixed-point evaluation of e^x and ln x; every operand of R160 is decided far above it. -/
abbrev fixP : Nat := 400

/-- e^y in fixed point for 0 <= y < 1/256: the sum of the first 48 terms. -/
def expSmall (y : Nat) : Nat :=
  ((List.range 48).foldl (fun a k => (a.1 + a.2, a.2 * y / 2 ^ fixP / (k + 1))) (0, 2 ^ fixP)).1

/-- e^|x| in fixed point, by 16 squarings. -/
def expFix (m : Nat) (e : Int) : Nat :=
  let x := m * 2 ^ (e + fixP).toNat
  (List.range 16).foldl (fun a _ => a * a / 2 ^ fixP) (expSmall (x / 2 ^ 16))

/-- atanh(a / b) in fixed point, 140 terms. -/
def atanhFix (a b : Nat) : Nat :=
  let t := a * 2 ^ fixP / b
  let t2 := t * t / 2 ^ fixP
  ((List.range 140).foldl (fun x k => (x.1 + x.2 / (2 * k + 1), x.2 * t2 / 2 ^ fixP)) (0, t)).1

/-- ln(m * 2^e) in fixed point. -/
def lnFix (m : Nat) (e : Int) : Int :=
  let l := Nat.log2 m
  let z := 2 * atanhFix (m - 2 ^ l) (m + 2 ^ l)
  (z : Int) + (e + l) * (2 * atanhFix 1 3 : Nat)

/-- The four functions of R160: 0 reciprocal, 1 reciprocal root, 2 exponent, 3 logarithm, correctly rounded to F32. -/
def approxF32 (fn : Nat) (x : Num) : Nat × Nat :=
  let f : Fmt := ⟨8, 23, 127, true⟩
  match fn, x with
  | _, .nan => (cNaN 0, 0)
  | 0, x => numDiv 0 f 0 (.fin false 1 0) x
  | 1, .inf s => if s then (cNaN 0, fNV) else (0, 0)
  | 1, .fin s m e =>
    if m = 0 then flEncode 0 f 0 (.inf s) else if s then (cNaN 0, fNV) else rsqrtF32 f m e
  | 2, .inf s => if s then (0, 0) else flEncode 0 f 0 (.inf false)
  | 2, .fin s m e =>
    if m = 0 then (0x3F800000, 0)
    else if numCmp (.fin false m e) (.fin false 110 0) = some 1 then
      (if s then roundFl f 0 false 1 (-200) true else roundFl f 0 false 1 200 true)
    else
      let a := expFix m e
      if s then roundFl f 0 false (2 ^ (2 * fixP) / a) (-fixP) true else roundFl f 0 false a (-fixP) true
  | _, .inf s => if s then (cNaN 0, fNV) else flEncode 0 f 0 (.inf false)
  | _, .fin s m e =>
    if m = 0 then flEncode 0 f 0 (.inf true)
    else if s then (cNaN 0, fNV)
    else if numCmp (.fin false m e) (.fin false 1 0) = some 0 then (0, 0)
    else
      let v := lnFix m e
      roundFl f 0 (decide (v < 0)) v.natAbs (-fixP) true

/-- R160 in F32 or BF16: a BF16 operand is computed as F32 and rounded to BF16. -/
def approx (fn ty : Nat) (x : Num) : Nat × Nat :=
  let r := approxF32 fn x
  if ty = 0 then r
  else
    let q := tyEncode 1 0 (tyDecode 0 r.1)
    (q.1, r.2 ||| q.2)

/-- A Q4X nibble other than the marker (05 Table 5.3). -/
def nibble (n : Nat) : Int := if n < 8 then n else (n : Int) - 16

/-- Decoding of one Q4X operand row (05 R82): the elements and whether an anomaly was met. -/
def q4Row : List Byte → List Num × Bool
  | [] => ([], false)
  | b :: rest =>
    let lo := b.toNat % 16
    let hi := b.toNat / 16
    let pl (n : Nat) : Num := numOfInt (nibble n) 0
    if lo = 8 ∧ hi = 8 then
      let r := q4Row rest
      (.fin false 0 0 :: .fin false 0 0 :: r.1, true)
    else if lo = 8 ∨ hi = 8 then
      match rest with
      | [] => (if lo = 8 then [.fin false 0 0, pl hi] else [pl lo, .fin false 0 0], true)
      | v :: rest' =>
        let o := tyDecode 2 v.toNat
        let r := q4Row rest'
        ((if lo = 8 then [o, pl hi] else [pl lo, o]) ++ (.fin false 0 0 :: .fin false 0 0 :: r.1), r.2)
    else
      let r := q4Row rest
      (pl lo :: pl hi :: r.1, r.2)

/-- Quantising one block (05 Table 5.10): the BF16 scale, the element codes and the flags. -/
def quantBlock (xs : List Num) : Nat × List Nat × Nat :=
  let isNan := xs.any fun x => x == .nan
  let isInf := xs.any fun x => match x with | .inf _ => true | _ => false
  if isNan then (0x7FC0, xs.map fun _ => 0, fTA)
  else if isInf then
    (0x7F80, xs.map fun x => match x with | .inf s => if s then 9 else 7 | _ => 0, fTA)
  else
    let mag := xs.foldl (fun a x => numPick true a (match x with | .fin _ m e => .fin false m e | y => y)) (.fin false 0 0)
    match mag with
    | .fin _ 0 _ => (0, xs.map fun _ => 0, 0)
    | _ =>
      let f : Fmt := ⟨8, 7, 127, true⟩
      let sc := numDiv 1 f 0 mag (.fin false 7 0)
      let s := tyDecode 1 sc.1
      let els := xs.map fun x =>
        match x, s with
        | .fin neg m e, .fin _ ms es =>
          if ms = 0 then
            -- the scale rounded to zero: the quotient is unbounded and clamps
            if m = 0 then ((0 : Int), 0) else ((if neg then -7 else 7), fSAT)
          else
            let k := Nat.log2 ms + 64
            let num := m * 2 ^ k
            let ee := e - es - k
            let r := roundAt 0 neg (num / ms) ee 0 (num % ms != 0)
            let v : Int := if neg then -(r.1 : Int) else r.1
            let nx := if r.2 then fNX else 0
            if v < -7 then (-7, nx ||| fSAT) else if 7 < v then (7, nx ||| fSAT) else (v, nx)
        | _, _ => ((0 : Int), 0)
      let fl := els.foldl (fun a e => a ||| e.2) sc.2
      (sc.1, els.map fun e => wrapN e.1 4, fl &&& (fSAT ||| fNX ||| fUF))

/-- Dequantising one element (05 R99). -/
def dequant (ty : Nat) (q s : Num) : Nat × Nat :=
  if s = .nan then (cNaN ty, 0)
  else
    match q with
    | .fin _ 0 _ => (0, 0)
    | _ =>
      let r := numMul q s
      let e := tyEncode ty 0 r.1
      (e.1, r.2 ||| e.2)

end Sys2Proof.Machine
end

