-- ==== Sys2Proof/Decode.lean ====
section
/-! DEFINITION. The decoder of instruction words, the admission checks of R350, and the encoder, written from the
encoding tables (04 Tables 4.2 to 4.9, 06 Table 6.1, 07 Table 7.1, 08 Table 8.1, 09 Table 9.1, 10 Table 10.1). -/

namespace Sys2Proof

/-- Why a word is not an instruction (22 R350). -/
inductive Reject where
  | opcode
  | function
  | specifier
  | zeroField
  | admission
  deriving DecidableEq, Repr

/-- `n` bits of a word from bit `lo` up. -/
def fld (w : IWord) (lo n : Nat) : BitVec n := w.extractLsb' lo n

/-- Table 3.2: the code of a specifier. -/
def Spec.code : Spec → BitVec 6
  | .g i => 0#1 ++ i
  | .o i => 0b100#3 ++ i
  | .l i => 0b1010#4 ++ i
  | .n i => 0b1011#4 ++ i
  | .q i => 0b1100#4 ++ i
  | .f i => 0b1101#4 ++ i
  | .z => 56
  | .tid => 57
  | .vt => 58

/-- Table 3.2: the specifier of a code; 59 to 63 are reserved. -/
def Spec.ofCode (c : BitVec 6) : Option Spec :=
  if c.toNat < 32 then some (.g (c.extractLsb' 0 5))
  else if c.toNat < 40 then some (.o (c.extractLsb' 0 3))
  else if c.toNat < 44 then some (.l (c.extractLsb' 0 2))
  else if c.toNat < 48 then some (.n (c.extractLsb' 0 2))
  else if c.toNat < 52 then some (.q (c.extractLsb' 0 2))
  else if c.toNat < 56 then some (.f (c.extractLsb' 0 2))
  else if c.toNat = 56 then some .z
  else if c.toNat = 57 then some .tid
  else if c.toNat = 58 then some .vt
  else none

/-- The 4-bit guard field, sense above the predicate index (04 R64). -/
def Guard.code (g : Guard) : BitVec 4 := g.sense ++ g.p

/-- The specifier in the six bits from `lo` up. -/
def specAt (w : IWord) (lo : Nat) : Option Spec := Spec.ofCode (fld w lo 6)

/-- The guard in the four bits from `lo` up. -/
def guardAt (w : IWord) (lo : Nat) : Guard := ⟨fld w (lo + 3) 1, fld w lo 3⟩

/-- g, o, q, f or z: a destination of a data field (03 Table 3.2). -/
def Spec.isDst : Spec → Bool
  | .g _ | .o _ | .q _ | .f _ | .z => true
  | _ => false

/-- A g or o register. -/
def Spec.isReg : Spec → Bool
  | .g _ | .o _ => true
  | _ => false

/-- g, o or z: the destinations of loads, U format, copies (R129, R145). -/
def Spec.isPlainDst : Spec → Bool
  | .g _ | .o _ | .z => true
  | _ => false

/-- Every source but q and f codes: the count of `loop`, store data (03 Table 3.2, R129). -/
def Spec.isPlainSrc : Spec → Bool
  | .q _ | .f _ => false
  | _ => true

/-- What M `base` admits: `tid` and `vt` stand in source fields only (03 Table 3.2). -/
def Spec.isBase : Spec → Bool
  | .q _ | .f _ | .tid | .vt => false
  | _ => true

/-- g, o, l or z: the address of an atomic and the chain head of a copy (R132, R145). -/
def Spec.isAddr : Spec → Bool
  | .g _ | .o _ | .l _ | .z => true
  | _ => false

/-- The operand of an atomic (R132). -/
def Spec.isAmoOp : Spec → Bool
  | .n _ | .f _ => false
  | _ => true

/-- The destination of an atomic other than `cas` (R132). -/
def Spec.isAmoDst : Spec → Bool
  | .g _ | .o _ | .z | .q _ => true
  | _ => false

/-- An even register of a pair (R73). -/
def Spec.isPair : Spec → Bool
  | .g i => i.getLsbD 0 == false
  | .o i => i.getLsbD 0 == false
  | _ => false

/-- The register after an even one, as `ld128` and `st128` pair them (04 R73). -/
def Spec.succ : Spec → Spec
  | .g i => .g (i + 1)
  | .o i => .o (i + 1)
  | d => d

/-- A q code that names a queue (07 Table 7.1). -/
def Spec.isQ : Spec → Bool
  | .q _ => true
  | _ => false

/-- An f code that names a binding (10 R194). -/
def Spec.isF : Spec → Bool
  | .f _ => true
  | _ => false

/-- o or z: the scalar operands of vector and matrix instructions (R46). -/
def Spec.isOZ : Spec → Bool
  | .o _ | .z => true
  | _ => false

/-- `ty` codes of Table 8.2: every code but Q4X. -/
def tyNotQ (t : BitVec 4) : Bool := decide (t.toNat ≤ 10) && t != 4
/-- Every code of Table 3.6. -/
def tyAny (t : BitVec 4) : Bool := decide (t.toNat ≤ 10)
/-- The integer codes. -/
def tyInt (t : BitVec 4) : Bool := decide (5 ≤ t.toNat ∧ t.toNat ≤ 10)
/-- F32 and BF16. -/
def tyFloat (t : BitVec 4) : Bool := decide (t.toNat ≤ 1)
/-- F32, BF16 and the integer codes. -/
def tyArith (t : BitVec 4) : Bool := tyFloat t || tyInt t

/-- Engine registers `erd` may name (10 R201). -/
def erdListed (n : Nat) : Bool := decide (n ≤ 15 ∨ n = 48 ∨ n = 49 ∨ n = 63)

/-- Numbers of Table 10.6. -/
def sysListed (n : Nat) : Bool :=
  decide (n ≤ 0x13 ∨ (0x20 ≤ n ∧ n ≤ 0x25) ∨ (0x30 ≤ n ∧ n ≤ 0x35) ∨ (0x40 ≤ n ∧ n ≤ 0x5F) ∨
    (0x60 ≤ n ∧ n ≤ 0x63) ∨ n = 0x70 ∨ (0x100 ≤ n ∧ n ≤ 0x102) ∨ (0x104 ≤ n ∧ n ≤ 0x109) ∨
    (0x110 ≤ n ∧ n ≤ 0x112))

/-- Numbers of Table 10.6 whose Access is RW. -/
def sysWritable (n : Nat) : Bool :=
  decide ((0x20 ≤ n ∧ n ≤ 0x24) ∨ (0x30 ≤ n ∧ n ≤ 0x35) ∨ (0x40 ≤ n ∧ n ≤ 0x5F) ∨ n = 0x70 ∨
    n = 0x101 ∨ n = 0x102 ∨ (0x104 ≤ n ∧ n ≤ 0x109))

/-- Fields of the R3 shape, high to low: d[25:20], a[19:14], b[13:8], g[7:4]. -/
def formR3 (k : Spec → Spec → Spec → Guard → Instr) (w : IWord) : Except Reject Instr :=
  match specAt w 20, specAt w 14, specAt w 8 with
  | some d, some a, some b => .ok (k d a b (guardAt w 4))
  | _, _, _ => .error .specifier

/-- Fields of the R2 shape, high to low: d[25:20], a[19:14], g[7:4]. -/
def formR2 (k : Spec → Spec → Guard → Instr) (w : IWord) : Except Reject Instr :=
  if fld w 8 6 != 0 then .error .zeroField else
  match specAt w 20, specAt w 14 with
  | some d, some a => .ok (k d a (guardAt w 4))
  | _, _ => .error .specifier

/-- Fields of the SEL shape, high to low: d[25:20], a[19:14], b[13:8], p[6:4]. -/
def formSEL (k : Spec → Spec → Spec → BitVec 3 → Instr) (w : IWord) : Except Reject Instr :=
  if fld w 7 1 != 0 then .error .zeroField else
  match specAt w 20, specAt w 14, specAt w 8 with
  | some d, some a, some b => .ok (k d a b (fld w 4 3))
  | _, _, _ => .error .specifier

/-- Fields of the X3 shape, high to low: d[25:20], a[19:14], b[13:8], la[7:4], p[2:0]. -/
def formX3 (k : Spec → Spec → Spec → BitVec 4 → BitVec 3 → Instr) (w : IWord) : Except Reject Instr :=
  match specAt w 20, specAt w 14, specAt w 8 with
  | some d, some a, some b => .ok (k d a b (fld w 4 4) (fld w 0 3))
  | _, _, _ => .error .specifier

/-- Fields of the I shape, high to low: d[25:20], a[19:14], imm[13:0]. -/
def formI (k : Spec → Spec → BitVec 14 → Instr) (w : IWord) : Except Reject Instr :=
  match specAt w 20, specAt w 14 with
  | some d, some a => .ok (k d a (fld w 0 14))
  | _, _ => .error .specifier

/-- Fields of the IS shape, high to low: d[25:20], a[19:14], cnt[5:0]. -/
def formIS (k : Spec → Spec → BitVec 6 → Instr) (w : IWord) : Except Reject Instr :=
  if fld w 6 8 != 0 then .error .zeroField else
  match specAt w 20, specAt w 14 with
  | some d, some a => .ok (k d a (fld w 0 6))
  | _, _ => .error .specifier

/-- Fields of the IC shape, high to low: pd[22:20], a[19:14], imm[13:0]. -/
def formIC (k : BitVec 3 → Spec → BitVec 14 → Instr) (w : IWord) : Except Reject Instr :=
  if fld w 23 3 != 0 then .error .zeroField else
  match specAt w 14 with
  | some a => .ok (k (fld w 20 3) a (fld w 0 14))
  | _ => .error .specifier

/-- Fields of the U shape, high to low: d[25:20], imm[19:0]. -/
def formU (k : Spec → BitVec 20 → Instr) (w : IWord) : Except Reject Instr :=
  match specAt w 20 with
  | some d => .ok (k d (fld w 0 20))
  | _ => .error .specifier

/-- Fields of the CMP shape, high to low: pd[22:20], a[19:14], b[13:8], g[7:4]. -/
def formCMP (k : BitVec 3 → Spec → Spec → Guard → Instr) (w : IWord) : Except Reject Instr :=
  if fld w 23 3 != 0 then .error .zeroField else
  match specAt w 14, specAt w 8 with
  | some a, some b => .ok (k (fld w 20 3) a b (guardAt w 4))
  | _, _ => .error .specifier

/-- Fields of the PRED shape, high to low: pd[22:20], pa[16:14], pb[10:8], g[7:4]. -/
def formPRED (k : BitVec 3 → BitVec 3 → BitVec 3 → Guard → Instr) (w : IWord) : Except Reject Instr :=
  if fld w 23 3 != 0 || fld w 17 3 != 0 || fld w 11 3 != 0 then .error .zeroField else
  .ok (k (fld w 20 3) (fld w 14 3) (fld w 8 3) (guardAt w 4))

/-- Fields of the PGET shape, high to low: d[25:20], g[7:4]. -/
def formPGET (k : Spec → Guard → Instr) (w : IWord) : Except Reject Instr :=
  if fld w 8 12 != 0 then .error .zeroField else
  match specAt w 20 with
  | some d => .ok (k d (guardAt w 4))
  | _ => .error .specifier

/-- Fields of the PPUT shape, high to low: a[19:14], g[7:4]. -/
def formPPUT (k : Spec → Guard → Instr) (w : IWord) : Except Reject Instr :=
  if fld w 20 6 != 0 || fld w 8 6 != 0 then .error .zeroField else
  match specAt w 14 with
  | some a => .ok (k a (guardAt w 4))
  | _ => .error .specifier

/-- Fields of the FCVT shape, high to low: d[25:20], a[19:14], ty[13:10], rm[9:8], g[7:4]. -/
def formFCVT (k : Spec → Spec → BitVec 4 → BitVec 2 → Guard → Instr) (w : IWord) : Except Reject Instr :=
  match specAt w 20, specAt w 14 with
  | some d, some a => .ok (k d a (fld w 10 4) (fld w 8 2) (guardAt w 4))
  | _, _ => .error .specifier

/-- Fields of the FCLS shape, high to low: pd[22:20], a[19:14], mask[13:8], g[7:4]. -/
def formFCLS (k : BitVec 3 → Spec → BitVec 6 → Guard → Instr) (w : IWord) : Except Reject Instr :=
  if fld w 23 3 != 0 then .error .zeroField else
  match specAt w 14 with
  | some a => .ok (k (fld w 20 3) a (fld w 8 6) (guardAt w 4))
  | _ => .error .specifier

/-- Fields of the X2 shape, high to low: d[25:20], a[19:14], la[7:4], p[2:0]. -/
def formX2 (k : Spec → Spec → BitVec 4 → BitVec 3 → Instr) (w : IWord) : Except Reject Instr :=
  if fld w 8 6 != 0 then .error .zeroField else
  match specAt w 20, specAt w 14 with
  | some d, some a => .ok (k d a (fld w 4 4) (fld w 0 3))
  | _, _ => .error .specifier

/-- Fields of the B shape, high to low: p[25:23], sense[22:22], off[21:0]. -/
def formB (k : BitVec 3 → BitVec 1 → BitVec 22 → Instr) (w : IWord) : Except Reject Instr :=
  .ok (k (fld w 23 3) (fld w 22 1) (fld w 0 22))

/-- Fields of the RA shape, high to low: a[19:14], g[7:4]. -/
def formRA (k : Spec → Guard → Instr) (w : IWord) : Except Reject Instr :=
  if fld w 20 6 != 0 || fld w 8 6 != 0 then .error .zeroField else
  match specAt w 14 with
  | some a => .ok (k a (guardAt w 4))
  | _ => .error .specifier

/-- Fields of the BRK shape, high to low: n[13:8], g[7:4]. -/
def formBRK (k : BitVec 6 → Guard → Instr) (w : IWord) : Except Reject Instr :=
  if fld w 14 12 != 0 then .error .zeroField else
  .ok (k (fld w 8 6) (guardAt w 4))

/-- Fields of the RAB shape, high to low: a[19:14], b[13:8], g[7:4]. -/
def formRAB (k : Spec → Spec → Guard → Instr) (w : IWord) : Except Reject Instr :=
  if fld w 20 6 != 0 then .error .zeroField else
  match specAt w 14, specAt w 8 with
  | some a, some b => .ok (k a b (guardAt w 4))
  | _, _ => .error .specifier

/-- Fields of the R0 shape, high to low: g[7:4]. -/
def formR0 (k : Guard → Instr) (w : IWord) : Except Reject Instr :=
  if fld w 8 18 != 0 then .error .zeroField else
  .ok (k (guardAt w 4))

/-- Fields of the LOOP shape, high to low: c[19:14], eo[13:0]. -/
def formLOOP (k : Spec → BitVec 14 → Instr) (w : IWord) : Except Reject Instr :=
  if fld w 20 6 != 0 then .error .zeroField else
  match specAt w 14 with
  | some c => .ok (k c (fld w 0 14))
  | _ => .error .specifier

/-- Fields of the LOOPI shape, high to low: n[25:14], eo[13:0]. -/
def formLOOPI (k : BitVec 12 → BitVec 14 → Instr) (w : IWord) : Except Reject Instr :=
  .ok (k (fld w 14 12) (fld w 0 14))

/-- Fields of the M shape, high to low: t[25:20], base[19:14], am[13:12], rd[11:10], la[9:6], p[5:3]. -/
def formM (k : Spec → Spec → BitVec 2 → BitVec 2 → BitVec 4 → BitVec 3 → Instr) (w : IWord) : Except Reject Instr :=
  match specAt w 20, specAt w 14 with
  | some t, some base => .ok (k t base (fld w 12 2) (fld w 10 2) (fld w 6 4) (fld w 3 3))
  | _, _ => .error .specifier

/-- Fields of the MA shape, high to low: t[25:20], base[19:14], am[13:12], la[9:6], p[5:3], sc[2:0]. -/
def formMA (k : Spec → Spec → BitVec 2 → BitVec 4 → BitVec 3 → BitVec 3 → Instr) (w : IWord) : Except Reject Instr :=
  match specAt w 20, specAt w 14 with
  | some t, some base => .ok (k t base (fld w 12 2) (fld w 6 4) (fld w 3 3) (fld w 0 3))
  | _, _ => .error .specifier

/-- Fields of the A shape, high to low: d[25:20], a[19:14], b[13:8], la[7:4], os[3:0]. -/
def formA (k : Spec → Spec → Spec → BitVec 4 → BitVec 4 → Instr) (w : IWord) : Except Reject Instr :=
  match specAt w 20, specAt w 14, specAt w 8 with
  | some d, some a, some b => .ok (k d a b (fld w 4 4) (fld w 0 4))
  | _, _, _ => .error .specifier

/-- Fields of the FENCE shape, high to low: os[11:8], g[7:4]. -/
def formFENCE (k : BitVec 4 → Guard → Instr) (w : IWord) : Except Reject Instr :=
  if fld w 12 14 != 0 then .error .zeroField else
  .ok (k (fld w 8 4) (guardAt w 4))

/-- Fields of the DRAIN shape, high to low: path[10:8], g[7:4]. -/
def formDRAIN (k : BitVec 3 → Guard → Instr) (w : IWord) : Except Reject Instr :=
  if fld w 11 15 != 0 then .error .zeroField else
  .ok (k (fld w 8 3) (guardAt w 4))

/-- Fields of the MROUTE shape, high to low: d[25:20], a[19:14], g[7:4]. -/
def formMROUTE (k : Spec → Spec → Guard → Instr) (w : IWord) : Except Reject Instr :=
  if fld w 8 6 != 0 then .error .zeroField else
  match specAt w 20, specAt w 14 with
  | some d, some a => .ok (k d a (guardAt w 4))
  | _, _ => .error .specifier

/-- Fields of the MPROBE shape, high to low: d[25:20], a[19:14], g[7:4]. -/
def formMPROBE (k : Spec → Spec → Guard → Instr) (w : IWord) : Except Reject Instr :=
  if fld w 8 6 != 0 then .error .zeroField else
  match specAt w 20, specAt w 14 with
  | some d, some a => .ok (k d a (guardAt w 4))
  | _, _ => .error .specifier

/-- Fields of the XCP shape, high to low: d[25:20], a[19:14], ch[9:8], la[7:4], p[2:0]. -/
def formXCP (k : Spec → Spec → BitVec 2 → BitVec 4 → BitVec 3 → Instr) (w : IWord) : Except Reject Instr :=
  if fld w 10 4 != 0 then .error .zeroField else
  match specAt w 20, specAt w 14 with
  | some d, some a => .ok (k d a (fld w 8 2) (fld w 4 4) (fld w 0 3))
  | _, _ => .error .specifier

/-- Fields of the LEASE shape, high to low: f[25:20], kind[12:10], prio[9:8], la[7:4], p[2:0]. -/
def formLEASE (k : Spec → BitVec 3 → BitVec 2 → BitVec 4 → BitVec 3 → Instr) (w : IWord) : Except Reject Instr :=
  if fld w 13 7 != 0 then .error .zeroField else
  match specAt w 20 with
  | some f => .ok (k f (fld w 10 3) (fld w 8 2) (fld w 4 4) (fld w 0 3))
  | _ => .error .specifier

/-- Fields of the ERD shape, high to low: d[25:20], f[19:14], n[13:8], la[7:4], p[2:0]. -/
def formERD (k : Spec → Spec → BitVec 6 → BitVec 4 → BitVec 3 → Instr) (w : IWord) : Except Reject Instr :=
  match specAt w 20, specAt w 14 with
  | some d, some f => .ok (k d f (fld w 8 6) (fld w 4 4) (fld w 0 3))
  | _, _ => .error .specifier

/-- Fields of the FREE shape, high to low: f[25:20], g[7:4]. -/
def formFREE (k : Spec → Guard → Instr) (w : IWord) : Except Reject Instr :=
  if fld w 8 12 != 0 then .error .zeroField else
  match specAt w 20 with
  | some f => .ok (k f (guardAt w 4))
  | _ => .error .specifier

/-- Fields of the EWR shape, high to low: f[25:20], a[19:14], n[13:8], g[7:4]. -/
def formEWR (k : Spec → Spec → BitVec 6 → Guard → Instr) (w : IWord) : Except Reject Instr :=
  match specAt w 20, specAt w 14 with
  | some f, some a => .ok (k f a (fld w 8 6) (guardAt w 4))
  | _, _ => .error .specifier

/-- Fields of the EGUARD shape, high to low: f[25:20], a[19:14], sl[10:8], g[7:4]. -/
def formEGUARD (k : Spec → Spec → BitVec 3 → Guard → Instr) (w : IWord) : Except Reject Instr :=
  if fld w 11 3 != 0 then .error .zeroField else
  match specAt w 20, specAt w 14 with
  | some f, some a => .ok (k f a (fld w 8 3) (guardAt w 4))
  | _, _ => .error .specifier

/-- Fields of the GRES shape, high to low: pa[16:14], sl[10:8], g[7:4]. -/
def formGRES (k : BitVec 3 → BitVec 3 → Guard → Instr) (w : IWord) : Except Reject Instr :=
  if fld w 17 9 != 0 || fld w 11 3 != 0 then .error .zeroField else
  .ok (k (fld w 14 3) (fld w 8 3) (guardAt w 4))

/-- Fields of the MSTEP shape, high to low: ovw[24:24], n[23:20], a[19:14], b[13:8], la[7:4], p[2:0]. -/
def formMSTEP (k : BitVec 1 → BitVec 4 → Spec → Spec → BitVec 4 → BitVec 3 → Instr) (w : IWord) : Except Reject Instr :=
  if fld w 25 1 != 0 then .error .zeroField else
  match specAt w 14, specAt w 8 with
  | some a, some b => .ok (k (fld w 24 1) (fld w 20 4) a b (fld w 4 4) (fld w 0 3))
  | _, _ => .error .specifier

/-- Fields of the MWLD shape, high to low: fmt[23:20], a[19:14], b[13:8], la[7:4], p[2:0]. -/
def formMWLD (k : BitVec 4 → Spec → Spec → BitVec 4 → BitVec 3 → Instr) (w : IWord) : Except Reject Instr :=
  if fld w 24 2 != 0 then .error .zeroField else
  match specAt w 14, specAt w 8 with
  | some a, some b => .ok (k (fld w 20 4) a b (fld w 4 4) (fld w 0 3))
  | _, _ => .error .specifier

/-- Fields of the MST shape, high to low: rm[25:24], ty[23:20], a[19:14], b[13:8], la[7:4], p[2:0]. -/
def formMST (k : BitVec 2 → BitVec 4 → Spec → Spec → BitVec 4 → BitVec 3 → Instr) (w : IWord) : Except Reject Instr :=
  match specAt w 14, specAt w 8 with
  | some a, some b => .ok (k (fld w 24 2) (fld w 20 4) a b (fld w 4 4) (fld w 0 3))
  | _, _ => .error .specifier

/-- Fields of the MRD shape, high to low: v[23:20], b[13:8], la[7:4], p[2:0]. -/
def formMRD (k : BitVec 4 → Spec → BitVec 4 → BitVec 3 → Instr) (w : IWord) : Except Reject Instr :=
  if fld w 24 2 != 0 || fld w 14 6 != 0 then .error .zeroField else
  match specAt w 8 with
  | some b => .ok (k (fld w 20 4) b (fld w 4 4) (fld w 0 3))
  | _ => .error .specifier

/-- Fields of the MBND shape, high to low: k[22:20], a[19:14], g[7:4]. -/
def formMBND (k : BitVec 3 → Spec → Guard → Instr) (w : IWord) : Except Reject Instr :=
  if fld w 23 3 != 0 || fld w 8 6 != 0 then .error .zeroField else
  match specAt w 14 with
  | some a => .ok (k (fld w 20 3) a (guardAt w 4))
  | _ => .error .specifier

/-- Fields of the V3 shape, high to low: vd[25:22], va[21:18], vb[17:14], ty[13:10], g[9:6]. -/
def formV3 (k : BitVec 4 → BitVec 4 → BitVec 4 → BitVec 4 → Guard → Instr) (w : IWord) : Except Reject Instr :=
  .ok (k (fld w 22 4) (fld w 18 4) (fld w 14 4) (fld w 10 4) (guardAt w 6))

/-- Fields of the V2 shape, high to low: vd[25:22], va[21:18], ty[13:10], g[9:6]. -/
def formV2 (k : BitVec 4 → BitVec 4 → BitVec 4 → Guard → Instr) (w : IWord) : Except Reject Instr :=
  if fld w 14 4 != 0 then .error .zeroField else
  .ok (k (fld w 22 4) (fld w 18 4) (fld w 10 4) (guardAt w 6))

/-- Fields of the VCVT shape, high to low: vd[25:22], va[21:18], rm[15:14], ty[13:10], g[9:6]. -/
def formVCVT (k : BitVec 4 → BitVec 4 → BitVec 2 → BitVec 4 → Guard → Instr) (w : IWord) : Except Reject Instr :=
  if fld w 16 2 != 0 then .error .zeroField else
  .ok (k (fld w 22 4) (fld w 18 4) (fld w 14 2) (fld w 10 4) (guardAt w 6))

/-- Fields of the VSHP shape, high to low: o[20:18], g[9:6]. -/
def formVSHP (k : BitVec 3 → Guard → Instr) (w : IWord) : Except Reject Instr :=
  if fld w 21 5 != 0 || fld w 10 8 != 0 then .error .zeroField else
  .ok (k (fld w 18 3) (guardAt w 6))

/-- Fields of the VRED shape, high to low: vd[25:22], va[21:18], rop[17:16], dir[14:14], ty[13:10], g[9:6]. -/
def formVRED (k : BitVec 4 → BitVec 4 → BitVec 2 → BitVec 1 → BitVec 4 → Guard → Instr) (w : IWord) : Except Reject Instr :=
  if fld w 15 1 != 0 then .error .zeroField else
  .ok (k (fld w 22 4) (fld w 18 4) (fld w 16 2) (fld w 14 1) (fld w 10 4) (guardAt w 6))

/-- Fields of the VBC shape, high to low: vd[25:22], o[20:18], ty[13:10], g[9:6]. -/
def formVBC (k : BitVec 4 → BitVec 3 → BitVec 4 → Guard → Instr) (w : IWord) : Except Reject Instr :=
  if fld w 21 1 != 0 || fld w 14 4 != 0 then .error .zeroField else
  .ok (k (fld w 22 4) (fld w 18 3) (fld w 10 4) (guardAt w 6))

/-- Fields of the VROT shape, high to low: vd[25:22], va[21:18], o[16:14], ty[13:10], g[9:6]. -/
def formVROT (k : BitVec 4 → BitVec 4 → BitVec 3 → BitVec 4 → Guard → Instr) (w : IWord) : Except Reject Instr :=
  if fld w 17 1 != 0 then .error .zeroField else
  .ok (k (fld w 22 4) (fld w 18 4) (fld w 14 3) (fld w 10 4) (guardAt w 6))

/-- Fields of the VM shape, high to low: v[23:20], a[19:14], rd[11:10], am[9:8], la[7:4], p[2:0]. -/
def formVM (k : BitVec 4 → Spec → BitVec 2 → BitVec 2 → BitVec 4 → BitVec 3 → Instr) (w : IWord) : Except Reject Instr :=
  if fld w 24 2 != 0 || fld w 12 2 != 0 then .error .zeroField else
  match specAt w 14 with
  | some a => .ok (k (fld w 20 4) a (fld w 10 2) (fld w 8 2) (fld w 4 4) (fld w 0 3))
  | _ => .error .specifier

/-- Fields of the TRAP shape, high to low: n[19:8], g[7:4]. -/
def formTRAP (k : BitVec 12 → Guard → Instr) (w : IWord) : Except Reject Instr :=
  if fld w 20 6 != 0 then .error .zeroField else
  .ok (k (fld w 8 12) (guardAt w 4))

/-- Fields of the SYSR shape, high to low: d[25:20], n[19:8], g[7:4]. -/
def formSYSR (k : Spec → BitVec 12 → Guard → Instr) (w : IWord) : Except Reject Instr :=
  match specAt w 20 with
  | some d => .ok (k d (fld w 8 12) (guardAt w 4))
  | _ => .error .specifier

/-- Fields of the SYSW shape, high to low: nh[25:20], a[19:14], nl[13:8], g[7:4]. -/
def formSYSW (k : BitVec 6 → Spec → BitVec 6 → Guard → Instr) (w : IWord) : Except Reject Instr :=
  match specAt w 14 with
  | some a => .ok (k (fld w 20 6) a (fld w 8 6) (guardAt w 4))
  | _ => .error .specifier

/-- Fields of the TLBI shape, high to low: a[19:14], kind[10:8], g[7:4]. -/
def formTLBI (k : Spec → BitVec 3 → Guard → Instr) (w : IWord) : Except Reject Instr :=
  if fld w 20 6 != 0 || fld w 11 3 != 0 then .error .zeroField else
  match specAt w 14 with
  | some a => .ok (k a (fld w 8 3) (guardAt w 4))
  | _ => .error .specifier

/-- The instruction a word encodes, before the admission checks (04 Tables 4.4 to 4.7). -/
def decodeFields (w : IWord) : Except Reject Instr :=
  match (fld w 26 6).toNat with
  | 0x01 =>
    match (fld w 0 4).toNat with
    | 0 => formR3 .add w
    | 1 => formR3 .sub w
    | 2 => formR3 .and w
    | 3 => formR3 .or w
    | 4 => formR3 .xor w
    | 5 => formR3 .andn w
    | 6 => formR3 .shl w
    | 7 => formR3 .shr w
    | 8 => formR3 .sar w
    | 9 => formR3 .rol w
    | 10 => formR3 .min w
    | 11 => formR3 .max w
    | 12 => formR3 .minn w
    | 13 => formR3 .maxn w
    | 14 => formR3 .mul w
    | _ => formR3 .mulh w
  | 0x02 =>
    match (fld w 0 4).toNat with
    | 0 => formR3 .mulhn w
    | 1 => formR2 .clz w
    | 2 => formR2 .ctz w
    | 3 => formR2 .popc w
    | 4 => formR2 .brev w
    | 5 => formR2 .bswap w
    | 6 => formR2 .sx8 w
    | 7 => formR2 .sx16 w
    | 8 => formR2 .sx32 w
    | 9 => formR2 .zx8 w
    | 10 => formR2 .zx16 w
    | 11 => formR2 .zx32 w
    | 12 => formSEL .sel w
    | 13 => formR2 .abs w
    | _ => .error .function
  | 0x03 =>
    match (fld w 0 4).toNat with
    | 0 => formCMP .ceq w
    | 1 => formCMP .cne w
    | 2 => formCMP .clt w
    | 3 => formCMP .cle w
    | 4 => formCMP .cltn w
    | 5 => formCMP .clen w
    | 6 => formCMP .ctst w
    | _ => .error .function
  | 0x04 =>
    match (fld w 0 4).toNat with
    | 0 => formPRED .pand w
    | 1 => formPRED .por w
    | 2 => formPRED .pxor w
    | 3 => formPRED .pandn w
    | 4 => formPGET .pget w
    | 5 => formPPUT .pput w
    | _ => .error .function
  | 0x05 =>
    match (fld w 0 4).toNat with
    | 0 => formR3 .fadd w
    | 1 => formR3 .fsub w
    | 2 => formR3 .fmul w
    | 3 => formR3 .ffma w
    | 4 => formR3 .fmin w
    | 5 => formR3 .fmax w
    | 6 => formFCVT .fcvt w
    | 7 => formCMP .fceq w
    | 8 => formCMP .fclt w
    | 9 => formCMP .fcle w
    | 10 => formFCLS .fcls w
    | _ => .error .function
  | 0x06 =>
    match (fld w 0 4).toNat with
    | 0 => formRA .jr w
    | 1 => formR2 .jlr w
    | 2 => formBRK .brk w
    | 3 => formRAB .wjoin w
    | 4 => formRA .wleave w
    | 5 => formR0 .wwork w
    | 6 => formR0 .wsafe w
    | _ => .error .function
  | 0x07 =>
    match (fld w 3 1).toNat with
    | 0 => formX3 .fdiv w
    | _ => formX2 .fsqr w
  | 0x08 =>
    match (fld w 3 1).toNat with
    | 0 => formX3 .div w
    | _ => formX3 .divn w
  | 0x09 =>
    match (fld w 3 1).toNat with
    | 0 => formX3 .rem w
    | _ => formX3 .remn w
  | 0x0A => formI .addi w
  | 0x0B => formI .andi w
  | 0x0C => formI .ori w
  | 0x0D => formI .xori w
  | 0x0E => formIS .shli w
  | 0x0F => formIS .shri w
  | 0x10 => formIS .sari w
  | 0x11 => formI .muli w
  | 0x12 => formIC .ceqi w
  | 0x13 => formIC .clti w
  | 0x14 => formIC .cltni w
  | 0x15 => formU .movh w
  | 0x16 => formU .lpca w
  | 0x17 => formB .b w
  | 0x18 => formB .bl w
  | 0x19 => formLOOP .loop w
  | 0x1A => formLOOPI .loopi w
  | 0x1B =>
    match (fld w 0 3).toNat with
    | 0 => formM .ld8s w
    | 1 => formM .ld8z w
    | 2 => formM .ld16s w
    | 3 => formM .ld16z w
    | 4 => formM .ld32s w
    | 5 => formM .ld32z w
    | 6 => formM .ld64 w
    | _ => formM .ld128 w
  | 0x1C =>
    match (fld w 10 2).toNat with
    | 0 => formMA .lda32 w
    | 1 => formMA .lda64 w
    | _ => .error .function
  | 0x1D =>
    match (fld w 0 3).toNat with
    | 0 => formM .st8 w
    | 1 => formM .st16 w
    | 2 => formM .st32 w
    | 3 => formM .st64 w
    | 4 => formM .st128 w
    | _ => .error .function
  | 0x1E =>
    match (fld w 10 2).toNat with
    | 0 => formMA .stl32 w
    | 1 => formMA .stl64 w
    | _ => .error .function
  | 0x1F => formA .amoadd w
  | 0x20 => formA .amoand w
  | 0x21 => formA .amoor w
  | 0x22 => formA .amoxor w
  | 0x23 => formA .amomin w
  | 0x24 => formA .amomax w
  | 0x25 => formA .amominn w
  | 0x26 => formA .amomaxn w
  | 0x27 => formA .amoswp w
  | 0x28 => formA .cas w
  | 0x29 =>
    match (fld w 0 4).toNat with
    | 0 => formFENCE .fence w
    | 1 => formDRAIN .drain w
    | _ => .error .function
  | 0x2A =>
    match (fld w 0 4).toNat with
    | 0 => formMROUTE .mroute w
    | 1 => formMPROBE .mprobe w
    | 2 => formRA .migrate w
    | _ => .error .function
  | 0x2B =>
    match (fld w 3 1).toNat with
    | 0 => formXCP .xcopy w
    | _ => formXCP .xred w
  | 0x2C =>
    match (fld w 3 1).toNat with
    | 0 => formLEASE .lease w
    | _ => formERD .erd w
  | 0x2D =>
    match (fld w 0 4).toNat with
    | 0 => formFREE .free w
    | 1 => formEWR .ewr w
    | 2 => formEGUARD .eguard w
    | 3 => formGRES .gres w
    | _ => .error .function
  | 0x2E =>
    match (fld w 3 1).toNat with
    | 0 => formMSTEP .mstep w
    | _ => formMWLD .mwld w
  | 0x2F =>
    match (fld w 3 1).toNat with
    | 0 => formMST .mst w
    | _ => formMRD .mrd w
  | 0x30 =>
    match (fld w 0 4).toNat with
    | 0 => formRA .mshape w
    | 1 => formRA .mfmt w
    | 2 => formR0 .mwswp w
    | 3 => formR0 .mring w
    | 4 => formRA .mclr w
    | 5 => formR0 .mscl w
    | 6 => formMBND .mbnd w
    | _ => .error .function
  | 0x31 =>
    match (fld w 0 6).toNat with
    | 0 => formV3 .vadd w
    | 1 => formV3 .vsub w
    | 2 => formV3 .vmul w
    | 3 => formV3 .vfma w
    | 4 => formV3 .vmin w
    | 5 => formV3 .vmax w
    | 6 => formV3 .vsel w
    | 7 => formV3 .vcmpEq w
    | 8 => formV3 .vcmpLt w
    | 9 => formV3 .vcmpLe w
    | 10 => formV3 .vand w
    | 11 => formV3 .vor w
    | 12 => formV3 .vxor w
    | 13 => formV3 .vshl w
    | 14 => formV3 .vshr w
    | _ => .error .function
  | 0x32 =>
    match (fld w 0 6).toNat with
    | 0 => formV2 .vabs w
    | 1 => formV2 .vneg w
    | 2 => formV2 .vmov w
    | 3 => formVCVT .vcvt w
    | 4 => formV2 .vrcp w
    | 5 => formV2 .vrsq w
    | 6 => formV2 .vexp w
    | 7 => formV2 .vlog w
    | 8 => formV3 .vqnt w
    | 9 => formV3 .vdq w
    | _ => .error .function
  | 0x33 =>
    match (fld w 0 6).toNat with
    | 0 => formVSHP .vshp w
    | 1 => formVRED .vred w
    | 2 => formVBC .vbc w
    | 3 => formV2 .vtr w
    | 4 => formVROT .vrot w
    | _ => .error .function
  | 0x34 =>
    match (fld w 3 1).toNat with
    | 0 => formVM .vld w
    | _ => formVM .vst w
  | 0x35 =>
    match (fld w 0 4).toNat with
    | 0 => formTRAP .trap w
    | 1 => formR0 .eret w
    | 2 => formSYSR .sysr w
    | 3 => formSYSW .sysw w
    | 4 => formR3 .sysx w
    | 5 => formTLBI .tlbi w
    | 6 => formR0 .ckpt w
    | 7 => formR0 .idle w
    | 8 => formR0 .halt w
    | _ => .error .function
  | 0x36 =>
    match (fld w 0 4).toNat with
    | 0 => formRA .rot w
    | 1 => formRA .tins w
    | 2 => formRA .trem w
    | 3 => formRAB .tspn w
    | _ => .error .function
  | _ => .error .opcode

/-- The conditions a word must meet beyond its fixed fields: the specifiers each field admits (03 R46, R129, R132,
R145, R170), reserved codes and the encoding conditions stated under instructions (22 R350). -/
def admits : Instr → Bool
  | .add d _ _ _ => d.isDst
  | .sub d _ _ _ => d.isDst
  | .and d _ _ _ => d.isDst
  | .or d _ _ _ => d.isDst
  | .xor d _ _ _ => d.isDst
  | .andn d _ _ _ => d.isDst
  | .shl d _ _ _ => d.isDst
  | .shr d _ _ _ => d.isDst
  | .sar d _ _ _ => d.isDst
  | .rol d _ _ _ => d.isDst
  | .min d _ _ _ => d.isDst
  | .max d _ _ _ => d.isDst
  | .minn d _ _ _ => d.isDst
  | .maxn d _ _ _ => d.isDst
  | .mul d _ _ _ => d.isDst
  | .mulh d _ _ _ => d.isDst
  | .mulhn d _ _ _ => d.isDst
  | .clz d _ _ => d.isDst
  | .ctz d _ _ => d.isDst
  | .popc d _ _ => d.isDst
  | .brev d _ _ => d.isDst
  | .bswap d _ _ => d.isDst
  | .sx8 d _ _ => d.isDst
  | .sx16 d _ _ => d.isDst
  | .sx32 d _ _ => d.isDst
  | .zx8 d _ _ => d.isDst
  | .zx16 d _ _ => d.isDst
  | .zx32 d _ _ => d.isDst
  | .sel d _ _ _ => d.isDst
  | .abs d _ _ => d.isDst
  | .div d _ _ _ _ => d.isDst
  | .divn d _ _ _ _ => d.isDst
  | .rem d _ _ _ _ => d.isDst
  | .remn d _ _ _ _ => d.isDst
  | .addi d _ _ => d.isDst
  | .andi d _ _ => d.isDst
  | .ori d _ _ => d.isDst
  | .xori d _ _ => d.isDst
  | .shli d _ _ => d.isDst
  | .shri d _ _ => d.isDst
  | .sari d _ _ => d.isDst
  | .muli d _ _ => d.isDst
  | .ceqi _ _ _ => true
  | .clti _ _ _ => true
  | .cltni _ _ _ => true
  | .movh d _ => d.isPlainDst
  | .lpca d _ => d.isPlainDst
  | .ceq _ _ _ _ => true
  | .cne _ _ _ _ => true
  | .clt _ _ _ _ => true
  | .cle _ _ _ _ => true
  | .cltn _ _ _ _ => true
  | .clen _ _ _ _ => true
  | .ctst _ _ _ _ => true
  | .pand _ _ _ _ => true
  | .por _ _ _ _ => true
  | .pxor _ _ _ _ => true
  | .pandn _ _ _ _ => true
  | .pget d _ => d.isDst
  | .pput _ _ => true
  | .fadd d _ _ _ => d.isDst
  | .fsub d _ _ _ => d.isDst
  | .fmul d _ _ _ => d.isDst
  | .ffma d _ _ _ => d.isReg
  | .fmin d _ _ _ => d.isDst
  | .fmax d _ _ _ => d.isDst
  | .fcvt d _ ty _ _ => d.isDst && decide (ty.toNat ≤ 10) && ty != 4
  | .fceq _ _ _ _ => true
  | .fclt _ _ _ _ => true
  | .fcle _ _ _ _ => true
  | .fcls _ _ _ _ => true
  | .fdiv d _ _ _ _ => d.isDst
  | .fsqr d _ _ _ => d.isDst
  | .b _ _ _ => true
  | .bl _ _ _ => true
  | .jr _ _ => true
  | .jlr d _ _ => d.isDst
  | .brk _ _ => true
  | .wjoin _ _ _ => true
  | .wleave _ _ => true
  | .wwork _ => true
  | .wsafe _ => true
  | .loop c eo => c.isPlainSrc && eo != 0
  | .loopi _ eo => eo != 0
  | .ld8s t base am _ _ _ => t.isPlainDst && base.isBase && am != 3
  | .ld8z t base am _ _ _ => t.isPlainDst && base.isBase && am != 3
  | .ld16s t base am _ _ _ => t.isPlainDst && base.isBase && am != 3
  | .ld16z t base am _ _ _ => t.isPlainDst && base.isBase && am != 3
  | .ld32s t base am _ _ _ => t.isPlainDst && base.isBase && am != 3
  | .ld32z t base am _ _ _ => t.isPlainDst && base.isBase && am != 3
  | .ld64 t base am _ _ _ => t.isPlainDst && base.isBase && am != 3
  | .ld128 t base am _ _ _ => t.isPair && base.isBase && am != 3
  | .lda32 t base am _ _ sc => t.isPlainDst && base.isBase && am != 3 && decide (sc.toNat ≤ 4)
  | .lda64 t base am _ _ sc => t.isPlainDst && base.isBase && am != 3 && decide (sc.toNat ≤ 4)
  | .st8 t base am _ _ _ => t.isPlainSrc && base.isBase && am != 3
  | .st16 t base am _ _ _ => t.isPlainSrc && base.isBase && am != 3
  | .st32 t base am _ _ _ => t.isPlainSrc && base.isBase && am != 3
  | .st64 t base am _ _ _ => t.isPlainSrc && base.isBase && am != 3
  | .st128 t base am _ _ _ => t.isPair && base.isBase && am != 3
  | .stl32 t base am _ _ sc => t.isPlainSrc && base.isBase && am != 3 && decide (sc.toNat ≤ 4)
  | .stl64 t base am _ _ sc => t.isPlainSrc && base.isBase && am != 3 && decide (sc.toNat ≤ 4)
  | .amoadd d a b _ _ => d.isAmoDst && a.isAddr && b.isAmoOp
  | .amoand d a b _ _ => d.isAmoDst && a.isAddr && b.isAmoOp
  | .amoor d a b _ _ => d.isAmoDst && a.isAddr && b.isAmoOp
  | .amoxor d a b _ _ => d.isAmoDst && a.isAddr && b.isAmoOp
  | .amomin d a b _ _ => d.isAmoDst && a.isAddr && b.isAmoOp
  | .amomax d a b _ _ => d.isAmoDst && a.isAddr && b.isAmoOp
  | .amominn d a b _ _ => d.isAmoDst && a.isAddr && b.isAmoOp
  | .amomaxn d a b _ _ => d.isAmoDst && a.isAddr && b.isAmoOp
  | .amoswp d a b _ _ => d.isAmoDst && a.isAddr && b.isAmoOp
  | .cas d a b _ _ => d.isReg && a.isAddr && b.isAmoOp
  | .fence os _ => os != 0
  | .drain path _ => decide (path.toNat ≤ 4)
  | .mroute d _ _ => d.isQ
  | .mprobe d a _ => d.isDst && a.isQ
  | .migrate _ _ => true
  | .xcopy d a _ _ _ => d.isPlainDst && a.isAddr
  | .xred d a _ _ _ => d.isPlainDst && a.isAddr
  | .lease f _ _ _ _ => f.isF
  | .erd d f n _ _ => d.isDst && f.isF && erdListed n.toNat
  | .free f _ => f.isF
  | .ewr f _ n _ => f.isF && decide (n.toNat ≤ 15)
  | .eguard f _ _ _ => f.isF
  | .gres _ _ _ => true
  | .mstep _ _ a b _ _ => a.isOZ && b.isOZ
  | .mwld fmt a b _ _ => a.isOZ && b.isOZ && decide (fmt.toNat ≤ 10) && (fmt != 1 || b == .z)
  | .mst _ ty a b _ _ => a.isOZ && b.isOZ && decide (ty.toNat ≤ 10)
  | .mrd _ b _ _ => b.isOZ
  | .mshape a _ => a.isOZ
  | .mfmt a _ => a.isOZ
  | .mwswp _ => true
  | .mring _ => true
  | .mclr a _ => a.isOZ
  | .mscl _ => true
  | .mbnd _ a _ => a.isOZ
  | .vadd _ _ _ ty _ => tyArith ty
  | .vsub _ _ _ ty _ => tyArith ty
  | .vmul _ _ _ ty _ => tyArith ty
  | .vfma _ _ _ ty _ => tyArith ty
  | .vmin _ _ _ ty _ => tyArith ty
  | .vmax _ _ _ ty _ => tyArith ty
  | .vsel _ _ _ ty _ => tyNotQ ty
  | .vcmpEq _ _ _ ty _ => tyNotQ ty
  | .vcmpLt _ _ _ ty _ => tyNotQ ty
  | .vcmpLe _ _ _ ty _ => tyNotQ ty
  | .vand _ _ _ ty _ => tyNotQ ty
  | .vor _ _ _ ty _ => tyNotQ ty
  | .vxor _ _ _ ty _ => tyNotQ ty
  | .vshl _ _ _ ty _ => tyInt ty
  | .vshr _ _ _ ty _ => tyInt ty
  | .vabs _ _ ty _ => tyNotQ ty
  | .vneg _ _ ty _ => tyNotQ ty
  | .vmov _ _ ty _ => tyAny ty
  | .vcvt _ _ _ ty _ => tyNotQ ty
  | .vrcp _ _ ty _ => tyFloat ty
  | .vrsq _ _ ty _ => tyFloat ty
  | .vexp _ _ ty _ => tyFloat ty
  | .vlog _ _ ty _ => tyFloat ty
  | .vqnt vd _ vb ty _ => ty == 4 && vb != vd
  | .vdq _ _ _ ty _ => tyFloat ty
  | .vshp _ _ => true
  | .vred _ _ rop _ ty _ => tyArith ty && rop != 3
  | .vbc _ _ ty _ => tyNotQ ty
  | .vtr _ _ ty _ => tyNotQ ty
  | .vrot _ _ _ ty _ => tyNotQ ty
  | .vld _ a _ am _ _ => a.isOZ && am != 3
  | .vst _ a _ am _ _ => a.isOZ && am != 3
  | .trap _ _ => true
  | .eret _ => true
  | .sysr d n _ => d.isDst && sysListed n.toNat
  | .sysw nh _ nl _ => sysWritable (nh ++ nl).toNat
  | .sysx d _ _ _ => d.isDst
  | .tlbi _ kind _ => decide (kind.toNat ≤ 3)
  | .ckpt _ => true
  | .idle _ => true
  | .halt _ => true
  | .rot _ _ => true
  | .tins _ _ => true
  | .trem _ _ => true
  | .tspn _ _ _ => true
  | .divideComplete _ _ => true
  | .fdivFsqrComplete _ _ => true
  | .wjoinCommit _ => true
  | .loadComplete _ _ _ => true
  | .tlbWalkComplete _ _ _ => true
  | .storeComplete _ _ => true
  | .migrateArrive _ => true
  | .messageDeliver _ => true
  | .scaleWordDeliver _ => true
  | .heldWordEnter _ _ => true
  | .sendAckReceive _ => true
  | .copyRecord _ _ => true
  | .martenServe _ => true
  | .engineWakeDone _ _ _ => true
  | .sortInsert _ _ => true
  | .sortEmit _ _ => true
  | .sortClear _ _ => true
  | .matchScan _ _ => true
  | .matchReset _ _ => true
  | .inflDecode _ _ => true
  | .xfrmTransform _ _ => true
  | .gathToSlot _ _ => true
  | .gathFromSlot _ _ => true
  | .gathFinish _ _ => true
  | .scanPrefix _ _ => true
  | .softSoftmax _ _ => true
  | .softExponent _ _ => true
  | .collCollective _ => true
  | .mstepRow _ _ => true
  | .mwldComplete _ _ => true
  | .mrdComplete _ _ => true
  | .bandWakeDone _ _ => true
  | .handoffStart _ => true
  | .handoffArrive _ => true
  | .vectorComplete _ => true
  | .owlqSubmit _ => true
  | .owlJobServe _ => true
  | .owlEntrySend _ => true
  | .tlbiComplete _ => true
  | .ckptComplete _ => true
  | .rotTakeEffect _ => true
  | .trapEntry _ => true
  | .timerTrap _ => true
  | .slotOffer _ => true
  | .hostLaunch _ _ => true
  | .hostWrite _ _ => true
  | .hostRead _ => true
  | .hostMgmt _ _ _ => true
  | .mgmtQuote _ _ _ => true
  | .mgmtImageUpdate _ _ _ _ _ => true
  | .mgmtEndTask _ _ _ => true
  | .launchDependenceRead _ _ => true
  | .fanOut => true
  | .hoistPlace _ => true
  | .taskDispatch _ => true
  | .retirementWordAdd _ => true
  | .hoistPreempt _ => true
  | .badgerSpillDone _ => true
  | .badgerRestoreDone _ => true
  | .tokenRefill _ => true
  | .inrushGrant _ => true
  | .clusterGate _ => true
  | .gatingSpillDone _ => true
  | .clusterWakeHoldEnd _ => true
  | .clusterRestoreDone _ => true
  | .thermalSample _ _ => true
  | .restStep _ => true
  | .movePrecopyPassEnd _ => true
  | .moveDrainEnd _ => true
  | .moveCopyEnd _ => true
  | .moveRemapEnd _ => true
  | .moveResume _ => true
  | .stopDrainEnd _ => true
  | .stopCopyEnd _ _ => true
  | .stopRemapEnd _ => true
  | .stopReplayEnd _ => true
  | .autoBoundary _ => true
  | .selftestDone _ _ _ _ => true
  | .ageingHourly _ _ => true
  | .patrolScrub _ _ => true
  | .quarantineScrub _ _ => true
  | .teardown _ => true
  | .overflowHandlerRestart _ => true
  | .frameArrive _ _ _ _ _ => true
  | .linkFlitReceive _ _ _ _ => true
  | .linkNakReceive _ _ => true
  | .linkBurstExpire _ => true
  | .linkRetrainEnd _ => true
  | .podRequestResend _ => true
  | .podRequestFreeze _ => true
  | .shoheoshRd _ _ => true
  | .shoheoshWr _ _ => true
  | .shoheoshAmo _ _ _ _ => true
  | .shoheoshCmpl _ => true
  | .coldStart _ => true
  | .warmStart _ => true
  | .redundantCommit _ => true
  | .erdComplete _ _ _ => true

/-- The instruction of a word, or the name of the check that refuses it (22 R350). -/
def decode (w : IWord) : Except Reject Instr :=
  match decodeFields w with
  | .ok i => if admits i then .ok i else .error .admission
  | .error e => .error e

/-- The word of an instruction, fields high to low (04 Table 4.2); a step of another agent has none. -/
def encode : Instr → Option IWord
  | .add d a b g => some (0x01#6 ++ d.code ++ a.code ++ b.code ++ g.code ++ 0#4)
  | .sub d a b g => some (0x01#6 ++ d.code ++ a.code ++ b.code ++ g.code ++ 1#4)
  | .and d a b g => some (0x01#6 ++ d.code ++ a.code ++ b.code ++ g.code ++ 2#4)
  | .or d a b g => some (0x01#6 ++ d.code ++ a.code ++ b.code ++ g.code ++ 3#4)
  | .xor d a b g => some (0x01#6 ++ d.code ++ a.code ++ b.code ++ g.code ++ 4#4)
  | .andn d a b g => some (0x01#6 ++ d.code ++ a.code ++ b.code ++ g.code ++ 5#4)
  | .shl d a b g => some (0x01#6 ++ d.code ++ a.code ++ b.code ++ g.code ++ 6#4)
  | .shr d a b g => some (0x01#6 ++ d.code ++ a.code ++ b.code ++ g.code ++ 7#4)
  | .sar d a b g => some (0x01#6 ++ d.code ++ a.code ++ b.code ++ g.code ++ 8#4)
  | .rol d a b g => some (0x01#6 ++ d.code ++ a.code ++ b.code ++ g.code ++ 9#4)
  | .min d a b g => some (0x01#6 ++ d.code ++ a.code ++ b.code ++ g.code ++ 10#4)
  | .max d a b g => some (0x01#6 ++ d.code ++ a.code ++ b.code ++ g.code ++ 11#4)
  | .minn d a b g => some (0x01#6 ++ d.code ++ a.code ++ b.code ++ g.code ++ 12#4)
  | .maxn d a b g => some (0x01#6 ++ d.code ++ a.code ++ b.code ++ g.code ++ 13#4)
  | .mul d a b g => some (0x01#6 ++ d.code ++ a.code ++ b.code ++ g.code ++ 14#4)
  | .mulh d a b g => some (0x01#6 ++ d.code ++ a.code ++ b.code ++ g.code ++ 15#4)
  | .mulhn d a b g => some (0x02#6 ++ d.code ++ a.code ++ b.code ++ g.code ++ 0#4)
  | .clz d a g => some (0x02#6 ++ d.code ++ a.code ++ 0#6 ++ g.code ++ 1#4)
  | .ctz d a g => some (0x02#6 ++ d.code ++ a.code ++ 0#6 ++ g.code ++ 2#4)
  | .popc d a g => some (0x02#6 ++ d.code ++ a.code ++ 0#6 ++ g.code ++ 3#4)
  | .brev d a g => some (0x02#6 ++ d.code ++ a.code ++ 0#6 ++ g.code ++ 4#4)
  | .bswap d a g => some (0x02#6 ++ d.code ++ a.code ++ 0#6 ++ g.code ++ 5#4)
  | .sx8 d a g => some (0x02#6 ++ d.code ++ a.code ++ 0#6 ++ g.code ++ 6#4)
  | .sx16 d a g => some (0x02#6 ++ d.code ++ a.code ++ 0#6 ++ g.code ++ 7#4)
  | .sx32 d a g => some (0x02#6 ++ d.code ++ a.code ++ 0#6 ++ g.code ++ 8#4)
  | .zx8 d a g => some (0x02#6 ++ d.code ++ a.code ++ 0#6 ++ g.code ++ 9#4)
  | .zx16 d a g => some (0x02#6 ++ d.code ++ a.code ++ 0#6 ++ g.code ++ 10#4)
  | .zx32 d a g => some (0x02#6 ++ d.code ++ a.code ++ 0#6 ++ g.code ++ 11#4)
  | .sel d a b p => some (0x02#6 ++ d.code ++ a.code ++ b.code ++ 0#1 ++ p ++ 12#4)
  | .abs d a g => some (0x02#6 ++ d.code ++ a.code ++ 0#6 ++ g.code ++ 13#4)
  | .div d a b la p => some (0x08#6 ++ d.code ++ a.code ++ b.code ++ la ++ 0#1 ++ p)
  | .divn d a b la p => some (0x08#6 ++ d.code ++ a.code ++ b.code ++ la ++ 1#1 ++ p)
  | .rem d a b la p => some (0x09#6 ++ d.code ++ a.code ++ b.code ++ la ++ 0#1 ++ p)
  | .remn d a b la p => some (0x09#6 ++ d.code ++ a.code ++ b.code ++ la ++ 1#1 ++ p)
  | .addi d a imm => some (0x0A#6 ++ d.code ++ a.code ++ imm)
  | .andi d a imm => some (0x0B#6 ++ d.code ++ a.code ++ imm)
  | .ori d a imm => some (0x0C#6 ++ d.code ++ a.code ++ imm)
  | .xori d a imm => some (0x0D#6 ++ d.code ++ a.code ++ imm)
  | .shli d a cnt => some (0x0E#6 ++ d.code ++ a.code ++ 0#8 ++ cnt)
  | .shri d a cnt => some (0x0F#6 ++ d.code ++ a.code ++ 0#8 ++ cnt)
  | .sari d a cnt => some (0x10#6 ++ d.code ++ a.code ++ 0#8 ++ cnt)
  | .muli d a imm => some (0x11#6 ++ d.code ++ a.code ++ imm)
  | .ceqi pd a imm => some (0x12#6 ++ 0#3 ++ pd ++ a.code ++ imm)
  | .clti pd a imm => some (0x13#6 ++ 0#3 ++ pd ++ a.code ++ imm)
  | .cltni pd a imm => some (0x14#6 ++ 0#3 ++ pd ++ a.code ++ imm)
  | .movh d imm => some (0x15#6 ++ d.code ++ imm)
  | .lpca d imm => some (0x16#6 ++ d.code ++ imm)
  | .ceq pd a b g => some (0x03#6 ++ 0#3 ++ pd ++ a.code ++ b.code ++ g.code ++ 0#4)
  | .cne pd a b g => some (0x03#6 ++ 0#3 ++ pd ++ a.code ++ b.code ++ g.code ++ 1#4)
  | .clt pd a b g => some (0x03#6 ++ 0#3 ++ pd ++ a.code ++ b.code ++ g.code ++ 2#4)
  | .cle pd a b g => some (0x03#6 ++ 0#3 ++ pd ++ a.code ++ b.code ++ g.code ++ 3#4)
  | .cltn pd a b g => some (0x03#6 ++ 0#3 ++ pd ++ a.code ++ b.code ++ g.code ++ 4#4)
  | .clen pd a b g => some (0x03#6 ++ 0#3 ++ pd ++ a.code ++ b.code ++ g.code ++ 5#4)
  | .ctst pd a b g => some (0x03#6 ++ 0#3 ++ pd ++ a.code ++ b.code ++ g.code ++ 6#4)
  | .pand pd pa pb g => some (0x04#6 ++ 0#3 ++ pd ++ 0#3 ++ pa ++ 0#3 ++ pb ++ g.code ++ 0#4)
  | .por pd pa pb g => some (0x04#6 ++ 0#3 ++ pd ++ 0#3 ++ pa ++ 0#3 ++ pb ++ g.code ++ 1#4)
  | .pxor pd pa pb g => some (0x04#6 ++ 0#3 ++ pd ++ 0#3 ++ pa ++ 0#3 ++ pb ++ g.code ++ 2#4)
  | .pandn pd pa pb g => some (0x04#6 ++ 0#3 ++ pd ++ 0#3 ++ pa ++ 0#3 ++ pb ++ g.code ++ 3#4)
  | .pget d g => some (0x04#6 ++ d.code ++ 0#12 ++ g.code ++ 4#4)
  | .pput a g => some (0x04#6 ++ 0#6 ++ a.code ++ 0#6 ++ g.code ++ 5#4)
  | .fadd d a b g => some (0x05#6 ++ d.code ++ a.code ++ b.code ++ g.code ++ 0#4)
  | .fsub d a b g => some (0x05#6 ++ d.code ++ a.code ++ b.code ++ g.code ++ 1#4)
  | .fmul d a b g => some (0x05#6 ++ d.code ++ a.code ++ b.code ++ g.code ++ 2#4)
  | .ffma d a b g => some (0x05#6 ++ d.code ++ a.code ++ b.code ++ g.code ++ 3#4)
  | .fmin d a b g => some (0x05#6 ++ d.code ++ a.code ++ b.code ++ g.code ++ 4#4)
  | .fmax d a b g => some (0x05#6 ++ d.code ++ a.code ++ b.code ++ g.code ++ 5#4)
  | .fcvt d a ty rm g => some (0x05#6 ++ d.code ++ a.code ++ ty ++ rm ++ g.code ++ 6#4)
  | .fceq pd a b g => some (0x05#6 ++ 0#3 ++ pd ++ a.code ++ b.code ++ g.code ++ 7#4)
  | .fclt pd a b g => some (0x05#6 ++ 0#3 ++ pd ++ a.code ++ b.code ++ g.code ++ 8#4)
  | .fcle pd a b g => some (0x05#6 ++ 0#3 ++ pd ++ a.code ++ b.code ++ g.code ++ 9#4)
  | .fcls pd a mask g => some (0x05#6 ++ 0#3 ++ pd ++ a.code ++ mask ++ g.code ++ 10#4)
  | .fdiv d a b la p => some (0x07#6 ++ d.code ++ a.code ++ b.code ++ la ++ 0#1 ++ p)
  | .fsqr d a la p => some (0x07#6 ++ d.code ++ a.code ++ 0#6 ++ la ++ 1#1 ++ p)
  | .b p sense off => some (0x17#6 ++ p ++ sense ++ off)
  | .bl p sense off => some (0x18#6 ++ p ++ sense ++ off)
  | .jr a g => some (0x06#6 ++ 0#6 ++ a.code ++ 0#6 ++ g.code ++ 0#4)
  | .jlr d a g => some (0x06#6 ++ d.code ++ a.code ++ 0#6 ++ g.code ++ 1#4)
  | .brk n g => some (0x06#6 ++ 0#12 ++ n ++ g.code ++ 2#4)
  | .wjoin a b g => some (0x06#6 ++ 0#6 ++ a.code ++ b.code ++ g.code ++ 3#4)
  | .wleave a g => some (0x06#6 ++ 0#6 ++ a.code ++ 0#6 ++ g.code ++ 4#4)
  | .wwork g => some (0x06#6 ++ 0#18 ++ g.code ++ 5#4)
  | .wsafe g => some (0x06#6 ++ 0#18 ++ g.code ++ 6#4)
  | .loop c eo => some (0x19#6 ++ 0#6 ++ c.code ++ eo)
  | .loopi n eo => some (0x1A#6 ++ n ++ eo)
  | .ld8s t base am rd la p => some (0x1B#6 ++ t.code ++ base.code ++ am ++ rd ++ la ++ p ++ 0#3)
  | .ld8z t base am rd la p => some (0x1B#6 ++ t.code ++ base.code ++ am ++ rd ++ la ++ p ++ 1#3)
  | .ld16s t base am rd la p => some (0x1B#6 ++ t.code ++ base.code ++ am ++ rd ++ la ++ p ++ 2#3)
  | .ld16z t base am rd la p => some (0x1B#6 ++ t.code ++ base.code ++ am ++ rd ++ la ++ p ++ 3#3)
  | .ld32s t base am rd la p => some (0x1B#6 ++ t.code ++ base.code ++ am ++ rd ++ la ++ p ++ 4#3)
  | .ld32z t base am rd la p => some (0x1B#6 ++ t.code ++ base.code ++ am ++ rd ++ la ++ p ++ 5#3)
  | .ld64 t base am rd la p => some (0x1B#6 ++ t.code ++ base.code ++ am ++ rd ++ la ++ p ++ 6#3)
  | .ld128 t base am rd la p => some (0x1B#6 ++ t.code ++ base.code ++ am ++ rd ++ la ++ p ++ 7#3)
  | .lda32 t base am la p sc => some (0x1C#6 ++ t.code ++ base.code ++ am ++ 0#2 ++ la ++ p ++ sc)
  | .lda64 t base am la p sc => some (0x1C#6 ++ t.code ++ base.code ++ am ++ 1#2 ++ la ++ p ++ sc)
  | .st8 t base am rd la p => some (0x1D#6 ++ t.code ++ base.code ++ am ++ rd ++ la ++ p ++ 0#3)
  | .st16 t base am rd la p => some (0x1D#6 ++ t.code ++ base.code ++ am ++ rd ++ la ++ p ++ 1#3)
  | .st32 t base am rd la p => some (0x1D#6 ++ t.code ++ base.code ++ am ++ rd ++ la ++ p ++ 2#3)
  | .st64 t base am rd la p => some (0x1D#6 ++ t.code ++ base.code ++ am ++ rd ++ la ++ p ++ 3#3)
  | .st128 t base am rd la p => some (0x1D#6 ++ t.code ++ base.code ++ am ++ rd ++ la ++ p ++ 4#3)
  | .stl32 t base am la p sc => some (0x1E#6 ++ t.code ++ base.code ++ am ++ 0#2 ++ la ++ p ++ sc)
  | .stl64 t base am la p sc => some (0x1E#6 ++ t.code ++ base.code ++ am ++ 1#2 ++ la ++ p ++ sc)
  | .amoadd d a b la os => some (0x1F#6 ++ d.code ++ a.code ++ b.code ++ la ++ os)
  | .amoand d a b la os => some (0x20#6 ++ d.code ++ a.code ++ b.code ++ la ++ os)
  | .amoor d a b la os => some (0x21#6 ++ d.code ++ a.code ++ b.code ++ la ++ os)
  | .amoxor d a b la os => some (0x22#6 ++ d.code ++ a.code ++ b.code ++ la ++ os)
  | .amomin d a b la os => some (0x23#6 ++ d.code ++ a.code ++ b.code ++ la ++ os)
  | .amomax d a b la os => some (0x24#6 ++ d.code ++ a.code ++ b.code ++ la ++ os)
  | .amominn d a b la os => some (0x25#6 ++ d.code ++ a.code ++ b.code ++ la ++ os)
  | .amomaxn d a b la os => some (0x26#6 ++ d.code ++ a.code ++ b.code ++ la ++ os)
  | .amoswp d a b la os => some (0x27#6 ++ d.code ++ a.code ++ b.code ++ la ++ os)
  | .cas d a b la os => some (0x28#6 ++ d.code ++ a.code ++ b.code ++ la ++ os)
  | .fence os g => some (0x29#6 ++ 0#14 ++ os ++ g.code ++ 0#4)
  | .drain path g => some (0x29#6 ++ 0#15 ++ path ++ g.code ++ 1#4)
  | .mroute d a g => some (0x2A#6 ++ d.code ++ a.code ++ 0#6 ++ g.code ++ 0#4)
  | .mprobe d a g => some (0x2A#6 ++ d.code ++ a.code ++ 0#6 ++ g.code ++ 1#4)
  | .migrate a g => some (0x2A#6 ++ 0#6 ++ a.code ++ 0#6 ++ g.code ++ 2#4)
  | .xcopy d a ch la p => some (0x2B#6 ++ d.code ++ a.code ++ 0#4 ++ ch ++ la ++ 0#1 ++ p)
  | .xred d a ch la p => some (0x2B#6 ++ d.code ++ a.code ++ 0#4 ++ ch ++ la ++ 1#1 ++ p)
  | .lease f kind prio la p => some (0x2C#6 ++ f.code ++ 0#7 ++ kind ++ prio ++ la ++ 0#1 ++ p)
  | .erd d f n la p => some (0x2C#6 ++ d.code ++ f.code ++ n ++ la ++ 1#1 ++ p)
  | .free f g => some (0x2D#6 ++ f.code ++ 0#12 ++ g.code ++ 0#4)
  | .ewr f a n g => some (0x2D#6 ++ f.code ++ a.code ++ n ++ g.code ++ 1#4)
  | .eguard f a sl g => some (0x2D#6 ++ f.code ++ a.code ++ 0#3 ++ sl ++ g.code ++ 2#4)
  | .gres pa sl g => some (0x2D#6 ++ 0#9 ++ pa ++ 0#3 ++ sl ++ g.code ++ 3#4)
  | .mstep ovw n a b la p => some (0x2E#6 ++ 0#1 ++ ovw ++ n ++ a.code ++ b.code ++ la ++ 0#1 ++ p)
  | .mwld fmt a b la p => some (0x2E#6 ++ 0#2 ++ fmt ++ a.code ++ b.code ++ la ++ 1#1 ++ p)
  | .mst rm ty a b la p => some (0x2F#6 ++ rm ++ ty ++ a.code ++ b.code ++ la ++ 0#1 ++ p)
  | .mrd v b la p => some (0x2F#6 ++ 0#2 ++ v ++ 0#6 ++ b.code ++ la ++ 1#1 ++ p)
  | .mshape a g => some (0x30#6 ++ 0#6 ++ a.code ++ 0#6 ++ g.code ++ 0#4)
  | .mfmt a g => some (0x30#6 ++ 0#6 ++ a.code ++ 0#6 ++ g.code ++ 1#4)
  | .mwswp g => some (0x30#6 ++ 0#18 ++ g.code ++ 2#4)
  | .mring g => some (0x30#6 ++ 0#18 ++ g.code ++ 3#4)
  | .mclr a g => some (0x30#6 ++ 0#6 ++ a.code ++ 0#6 ++ g.code ++ 4#4)
  | .mscl g => some (0x30#6 ++ 0#18 ++ g.code ++ 5#4)
  | .mbnd k a g => some (0x30#6 ++ 0#3 ++ k ++ a.code ++ 0#6 ++ g.code ++ 6#4)
  | .vadd vd va vb ty g => some (0x31#6 ++ vd ++ va ++ vb ++ ty ++ g.code ++ 0#6)
  | .vsub vd va vb ty g => some (0x31#6 ++ vd ++ va ++ vb ++ ty ++ g.code ++ 1#6)
  | .vmul vd va vb ty g => some (0x31#6 ++ vd ++ va ++ vb ++ ty ++ g.code ++ 2#6)
  | .vfma vd va vb ty g => some (0x31#6 ++ vd ++ va ++ vb ++ ty ++ g.code ++ 3#6)
  | .vmin vd va vb ty g => some (0x31#6 ++ vd ++ va ++ vb ++ ty ++ g.code ++ 4#6)
  | .vmax vd va vb ty g => some (0x31#6 ++ vd ++ va ++ vb ++ ty ++ g.code ++ 5#6)
  | .vsel vd va vb ty g => some (0x31#6 ++ vd ++ va ++ vb ++ ty ++ g.code ++ 6#6)
  | .vcmpEq vd va vb ty g => some (0x31#6 ++ vd ++ va ++ vb ++ ty ++ g.code ++ 7#6)
  | .vcmpLt vd va vb ty g => some (0x31#6 ++ vd ++ va ++ vb ++ ty ++ g.code ++ 8#6)
  | .vcmpLe vd va vb ty g => some (0x31#6 ++ vd ++ va ++ vb ++ ty ++ g.code ++ 9#6)
  | .vand vd va vb ty g => some (0x31#6 ++ vd ++ va ++ vb ++ ty ++ g.code ++ 10#6)
  | .vor vd va vb ty g => some (0x31#6 ++ vd ++ va ++ vb ++ ty ++ g.code ++ 11#6)
  | .vxor vd va vb ty g => some (0x31#6 ++ vd ++ va ++ vb ++ ty ++ g.code ++ 12#6)
  | .vshl vd va vb ty g => some (0x31#6 ++ vd ++ va ++ vb ++ ty ++ g.code ++ 13#6)
  | .vshr vd va vb ty g => some (0x31#6 ++ vd ++ va ++ vb ++ ty ++ g.code ++ 14#6)
  | .vabs vd va ty g => some (0x32#6 ++ vd ++ va ++ 0#4 ++ ty ++ g.code ++ 0#6)
  | .vneg vd va ty g => some (0x32#6 ++ vd ++ va ++ 0#4 ++ ty ++ g.code ++ 1#6)
  | .vmov vd va ty g => some (0x32#6 ++ vd ++ va ++ 0#4 ++ ty ++ g.code ++ 2#6)
  | .vcvt vd va rm ty g => some (0x32#6 ++ vd ++ va ++ 0#2 ++ rm ++ ty ++ g.code ++ 3#6)
  | .vrcp vd va ty g => some (0x32#6 ++ vd ++ va ++ 0#4 ++ ty ++ g.code ++ 4#6)
  | .vrsq vd va ty g => some (0x32#6 ++ vd ++ va ++ 0#4 ++ ty ++ g.code ++ 5#6)
  | .vexp vd va ty g => some (0x32#6 ++ vd ++ va ++ 0#4 ++ ty ++ g.code ++ 6#6)
  | .vlog vd va ty g => some (0x32#6 ++ vd ++ va ++ 0#4 ++ ty ++ g.code ++ 7#6)
  | .vqnt vd va vb ty g => some (0x32#6 ++ vd ++ va ++ vb ++ ty ++ g.code ++ 8#6)
  | .vdq vd va vb ty g => some (0x32#6 ++ vd ++ va ++ vb ++ ty ++ g.code ++ 9#6)
  | .vshp o g => some (0x33#6 ++ 0#5 ++ o ++ 0#8 ++ g.code ++ 0#6)
  | .vred vd va rop dir ty g => some (0x33#6 ++ vd ++ va ++ rop ++ 0#1 ++ dir ++ ty ++ g.code ++ 1#6)
  | .vbc vd o ty g => some (0x33#6 ++ vd ++ 0#1 ++ o ++ 0#4 ++ ty ++ g.code ++ 2#6)
  | .vtr vd va ty g => some (0x33#6 ++ vd ++ va ++ 0#4 ++ ty ++ g.code ++ 3#6)
  | .vrot vd va o ty g => some (0x33#6 ++ vd ++ va ++ 0#1 ++ o ++ ty ++ g.code ++ 4#6)
  | .vld v a rd am la p => some (0x34#6 ++ 0#2 ++ v ++ a.code ++ 0#2 ++ rd ++ am ++ la ++ 0#1 ++ p)
  | .vst v a rd am la p => some (0x34#6 ++ 0#2 ++ v ++ a.code ++ 0#2 ++ rd ++ am ++ la ++ 1#1 ++ p)
  | .trap n g => some (0x35#6 ++ 0#6 ++ n ++ g.code ++ 0#4)
  | .eret g => some (0x35#6 ++ 0#18 ++ g.code ++ 1#4)
  | .sysr d n g => some (0x35#6 ++ d.code ++ n ++ g.code ++ 2#4)
  | .sysw nh a nl g => some (0x35#6 ++ nh ++ a.code ++ nl ++ g.code ++ 3#4)
  | .sysx d a b g => some (0x35#6 ++ d.code ++ a.code ++ b.code ++ g.code ++ 4#4)
  | .tlbi a kind g => some (0x35#6 ++ 0#6 ++ a.code ++ 0#3 ++ kind ++ g.code ++ 5#4)
  | .ckpt g => some (0x35#6 ++ 0#18 ++ g.code ++ 6#4)
  | .idle g => some (0x35#6 ++ 0#18 ++ g.code ++ 7#4)
  | .halt g => some (0x35#6 ++ 0#18 ++ g.code ++ 8#4)
  | .rot a g => some (0x36#6 ++ 0#6 ++ a.code ++ 0#6 ++ g.code ++ 0#4)
  | .tins a g => some (0x36#6 ++ 0#6 ++ a.code ++ 0#6 ++ g.code ++ 1#4)
  | .trem a g => some (0x36#6 ++ 0#6 ++ a.code ++ 0#6 ++ g.code ++ 2#4)
  | .tspn a b g => some (0x36#6 ++ 0#6 ++ a.code ++ b.code ++ g.code ++ 3#4)
  | .divideComplete _ _ => none
  | .fdivFsqrComplete _ _ => none
  | .wjoinCommit _ => none
  | .loadComplete _ _ _ => none
  | .tlbWalkComplete _ _ _ => none
  | .storeComplete _ _ => none
  | .migrateArrive _ => none
  | .messageDeliver _ => none
  | .scaleWordDeliver _ => none
  | .heldWordEnter _ _ => none
  | .sendAckReceive _ => none
  | .copyRecord _ _ => none
  | .martenServe _ => none
  | .engineWakeDone _ _ _ => none
  | .sortInsert _ _ => none
  | .sortEmit _ _ => none
  | .sortClear _ _ => none
  | .matchScan _ _ => none
  | .matchReset _ _ => none
  | .inflDecode _ _ => none
  | .xfrmTransform _ _ => none
  | .gathToSlot _ _ => none
  | .gathFromSlot _ _ => none
  | .gathFinish _ _ => none
  | .scanPrefix _ _ => none
  | .softSoftmax _ _ => none
  | .softExponent _ _ => none
  | .collCollective _ => none
  | .mstepRow _ _ => none
  | .mwldComplete _ _ => none
  | .mrdComplete _ _ => none
  | .bandWakeDone _ _ => none
  | .handoffStart _ => none
  | .handoffArrive _ => none
  | .vectorComplete _ => none
  | .owlqSubmit _ => none
  | .owlJobServe _ => none
  | .owlEntrySend _ => none
  | .tlbiComplete _ => none
  | .ckptComplete _ => none
  | .rotTakeEffect _ => none
  | .trapEntry _ => none
  | .timerTrap _ => none
  | .slotOffer _ => none
  | .hostLaunch _ _ => none
  | .hostWrite _ _ => none
  | .hostRead _ => none
  | .hostMgmt _ _ _ => none
  | .mgmtQuote _ _ _ => none
  | .mgmtImageUpdate _ _ _ _ _ => none
  | .mgmtEndTask _ _ _ => none
  | .launchDependenceRead _ _ => none
  | .fanOut => none
  | .hoistPlace _ => none
  | .taskDispatch _ => none
  | .retirementWordAdd _ => none
  | .hoistPreempt _ => none
  | .badgerSpillDone _ => none
  | .badgerRestoreDone _ => none
  | .tokenRefill _ => none
  | .inrushGrant _ => none
  | .clusterGate _ => none
  | .gatingSpillDone _ => none
  | .clusterWakeHoldEnd _ => none
  | .clusterRestoreDone _ => none
  | .thermalSample _ _ => none
  | .restStep _ => none
  | .movePrecopyPassEnd _ => none
  | .moveDrainEnd _ => none
  | .moveCopyEnd _ => none
  | .moveRemapEnd _ => none
  | .moveResume _ => none
  | .stopDrainEnd _ => none
  | .stopCopyEnd _ _ => none
  | .stopRemapEnd _ => none
  | .stopReplayEnd _ => none
  | .autoBoundary _ => none
  | .selftestDone _ _ _ _ => none
  | .ageingHourly _ _ => none
  | .patrolScrub _ _ => none
  | .quarantineScrub _ _ => none
  | .teardown _ => none
  | .overflowHandlerRestart _ => none
  | .frameArrive _ _ _ _ _ => none
  | .linkFlitReceive _ _ _ _ => none
  | .linkNakReceive _ _ => none
  | .linkBurstExpire _ => none
  | .linkRetrainEnd _ => none
  | .podRequestResend _ => none
  | .podRequestFreeze _ => none
  | .shoheoshRd _ _ => none
  | .shoheoshWr _ _ => none
  | .shoheoshAmo _ _ _ _ => none
  | .shoheoshCmpl _ => none
  | .coldStart _ => none
  | .warmStart _ => none
  | .redundantCommit _ => none
  | .erdComplete _ _ _ => none

/-- The instruction decoded from `nbits` bits `w` of the opcode table's numbering: the word's four bytes are laid out
little-endian as memory holds them and read back by the decoder. -/
def decodeTableWord (nbits w : Nat) : Option Instr :=
  let v : IWord := BitVec.ofNat 32 (w % 2 ^ nbits)
  let bytes : List Byte := [v.extractLsb' 0 8, v.extractLsb' 8 8, v.extractLsb' 16 8, v.extractLsb' 24 8]
  match bytes with
  | [b0, b1, b2, b3] =>
    match decode (b3 ++ b2 ++ b1 ++ b0) with
    | .ok i => some i
    | .error _ => none
  | _ => none

end Sys2Proof
end

