-- ==== Sys2Proof/Machine/Access.lean ====
section
/-! DEFINITION. Addresses, translation and the bytes of every tier (07 R126; 11 R217 to R236; 15 R303, R314). -/

namespace Sys2Proof.Machine

/-- Offset of the sett in a tile's scratchpad (14 R290). -/
abbrev settOff : Nat := 0x1C0000

/-- The virtual address of the capability list's page (15 R314). -/
abbrev capVa : Nat := 0x1FFFFFFFFFF0000

/-- Word n, counted from 0, of the capability list (15 Table 15.8): six entries, each behind its header.
The engine kinds of a slab that has not booted are reported as 0 (log 7). -/
def State.capWord (s : State) (n : Nat) : Nat :=
  let hdr (id len next : Nat) : Nat := id * 2 ^ 48 + 2 ^ 40 + len * 2 ^ 24 + next
  if n = 0 then hdr 1 2 24
  else if n = 1 then 48 + s.caps.height * 256 + s.stretch * 65536
  else if n = 2 then leNat ((List.range 8).map fun k => BitVec.ofNat 8 (s.caps.hs.getD k 0))
  else if n = 3 then hdr 2 1 40
  else if n = 4 then s.caps.maxRing
  else if n = 5 then hdr 3 48 432
  else if n < 54 then
    if (s.slab (n - 6)).booted then
      leNat ((List.range 8).map fun b => BitVec.ofNat 8 ((List.range 4).foldl (fun v k =>
        let e := 64 * (n - 6) + 8 * b + 2 * k
        v + 4 ^ k * ([e, e + 1].filter fun x => !s.caps.engOut.contains x).length) 0))
    else 0
  else if n = 54 then hdr 4 1 448
  else if n = 55 then s.caps.podMode.toNat
  else if n = 56 then hdr 5 960 8136
  else if n < 1017 then
    let g := s.group ((n - 57) / 5)
    match (n - 57) % 5 with
    | 0 => g.length
    | w + 1 => leNat ((List.range 4).flatMap fun k =>
        match g[4 * w + k]? with
        | some t => leBytes 2 (tx t + 256 * ty t)
        | none => leBytes 2 0)
  else if n = 1017 then hdr 6 1 0
  else if n = 1018 then s.caps.moduleNo + s.caps.podSize * 65536
  else 0

/-- The place so many bytes further. -/
def Loc.plus (l : Loc) (i : Nat) : Loc :=
  match l with
  | .spad t o => .spad t (o + i)
  | .hbm a => .hbm (a + i)
  | .pod m a => .pod m (a + i)
  | .shadow r c a => .shadow r c (a + i)
  | .cap o => .cap (o + i)

/-- One byte at a place. -/
def State.getByte (s : State) : Loc → Nat → Byte
  | .spad t off, i => memGet (s.tile t).spad (off + i)
  | .hbm pa, i => memGet s.hbm (pa + i)
  | .pod m pa, i => memGet (kvGet s.podMem m []) (pa + i)
  | .shadow r c va, i => memGet (kvGet s.shadow (2 * r + c) []) (va + i)
  | .cap off, i => BitVec.ofNat 8 (s.capWord ((off + i) / 8) / 2 ^ (8 * ((off + i) % 8)))

/-- The read path of a tile's array taken in a cycle: the transfers of a `mwld` not yet made are one cycle later (09 R174). -/
def Tile.takePath (t : Tile) (now : Nat) : Tile :=
  { t with mx := { t.mx with load := t.mx.load.map fun l => { l with taken := now + 1 } } }

/-- The bytes of a run of the scratchpad that have not been replaced in a cycle yet, with those a write replaces, as they stood before
the cycle (09 R174, R182). -/
def Tile.keepBefore (t : Tile) (now off n : Nat) : Nat × List Host.Cell :=
  let old := if t.before.1 = now + 1 then t.before.2 else []
  (now + 1, old ++ ((List.range n).filter fun i => !(old.any fun (c : Host.Cell) => c.1 == off + i)).map fun i =>
    (off + i, memGet t.spad (off + i)))

/-- A byte of the scratchpad as it stood before the present cycle. -/
def Tile.byteBefore (t : Tile) (now a : Nat) : Byte :=
  match if t.before.1 = now + 1 then t.before.2.find? fun (c : Host.Cell) => c.1 == a else none with
  | some c => c.2
  | none => memGet t.spad a

/-- The end of a cycle for a `mwld`: its next 128 bytes have moved, the weight image first, unless the read path was taken; they are as
they stood before the cycle (09 R174). -/
def Tile.moveLoad (t : Tile) (now : Nat) : Tile :=
  match t.mx.load with
  | none => t
  | some l =>
    if l.taken = now + 1 ∨ 6656 ≤ l.got.length then t
    else
      let more := (List.range 128).map fun i =>
        let k := l.got.length + i
        if k < 6144 then t.byteBefore now (l.src + k) else if l.fmt = 1 then 0 else t.byteBefore now (l.scl + (k - 6144))
      { t with mx := { t.mx with load := some { l with got := l.got ++ more } } }

/-- Whether a move has copied a line in the pass under way, two cycles a line; after the last pass it has copied every one (14 R285). -/
def Move.copied (m : Move) (now n : Nat) : Bool :=
  match m.phase, m.todo.findIdx? fun k => k == n with
  | .precopy, some i => decide (m.due ≤ now + 2 * (m.todo.length - 1 - i))
  | _, _ => true

/-- Bytes written at a place. A scratchpad line written is marked for the next checkpoint and, while a move of the tile copies
it, for the lines that follow (14 R285, R291). -/
def State.putBytes (s : State) (l : Loc) (bs : List Byte) : State :=
  match l with
  | .spad t off =>
    s.modTile t fun x =>
      let lines := (List.range ((off + bs.length + 63) / 64 - off / 64)).map fun k => off / 64 + k
      let mark (ls d : List Nat) : List Nat := ls.foldl (fun d n => if d.contains n then d else n :: d) d
      { x with
        before := x.keepBefore s.now off bs.length
        spad := memWrite x.spad off bs
        dirty := mark lines x.dirty
        move := x.move.map fun m => if m.phase = .precopy ∨ m.phase = .drain then
            { m with marked := mark (lines.filter fun n => m.copied s.now n) m.marked } else m }
  | .hbm pa => { s with hbm := memWrite s.hbm pa bs }
  | .pod m pa => { s with podMem := kvSet s.podMem m (memWrite (kvGet s.podMem m []) pa bs) }
  | .shadow r c va => { s with shadow := kvSet s.shadow (2 * r + c) (memWrite (kvGet s.shadow (2 * r + c) []) va bs) }
  | .cap _ => s

/-- The bytes of one part. -/
def State.getPart (s : State) (p : Part) : List Byte := (List.range p.len).map fun i => s.getByte p.loc i

/-- The bytes of an access, in address order. -/
def State.getParts (s : State) (ps : List Part) : List Byte := ps.flatMap fun p => s.getPart p

/-- Bytes written over the parts of an access, in address order. -/
def State.putParts (s : State) : List Part → List Byte → State
  | [], _ => s
  | p :: ps, bs => (s.putBytes p.loc (bs.take p.len)).putParts ps (bs.drop p.len)

/-- A byte range cut at 8-byte boundaries, the parts of single-copy atomicity (07 R127, 08 R167). -/
def pieces : Nat → Nat → Nat → List (Nat × Nat)
  | 0, _, _ => []
  | fuel + 1, a, n =>
    if n = 0 then []
    else
      let k := min n (8 - a % 8)
      (a, k) :: pieces fuel (a + k) (n - k)

/-- The same of a vector or matrix access: each aligned 8-byte part that lies in the range, and other bytes by themselves (08 R167; 09
R185). -/
def vecPieces : Nat → Nat → Nat → List (Nat × Nat)
  | 0, _, _ => []
  | fuel + 1, a, n =>
    if n = 0 then []
    else
      let k := if a % 8 = 0 ∧ 8 ≤ n then 8 else 1
      (a, k) :: vecPieces fuel (a + k) (n - k)

/-- Trap causes of Table 22.2. -/
abbrev cIllegal : Nat := 0x01
abbrev cFetchAlign : Nat := 0x02
abbrev cLookahead : Nat := 0x03
abbrev cWaveOnly : Nat := 0x04
abbrev cWaveIllegal : Nat := 0x05
abbrev cOverrun : Nat := 0x06
abbrev cWaveJoin : Nat := 0x07
abbrev cLoopNest : Nat := 0x08
abbrev cBreak : Nat := 0x09
abbrev cSoftware : Nat := 0x0A
abbrev cTimer : Nat := 0x0B
abbrev cAssist : Nat := 0x0C
abbrev cVShape : Nat := 0x0D
abbrev cVType : Nat := 0x0E
abbrev cAlign : Nat := 0x10
abbrev cRange : Nat := 0x11
abbrev cMode : Nat := 0x12
abbrev cTranslation : Nat := 0x13
abbrev cProtection : Nat := 0x14
abbrev cFetchTrans : Nat := 0x15
abbrev cFetchProt : Nat := 0x16
abbrev cMigRange : Nat := 0x17
abbrev cBound : Nat := 0x18
abbrev cMFormat : Nat := 0x20
abbrev cMShape : Nat := 0x21
abbrev cMOwner : Nat := 0x22
abbrev cMLatch : Nat := 0x23
abbrev cMRing : Nat := 0x24
abbrev cUnrouted : Nat := 0x28
abbrev cUnbound : Nat := 0x29
abbrev cBadRoute : Nat := 0x2A
abbrev cEngState : Nat := 0x2B
abbrev cEngAbsent : Nat := 0x2C
abbrev cMigLease : Nat := 0x2D
abbrev cThread : Nat := 0x30
abbrev cRotTable : Nat := 0x31
abbrev cRedundancy : Nat := 0x38
abbrev cDouble : Nat := 0x3F

/-- Kinds of access a page may permit (11 Table 11.3). -/
inductive Need where
  | read | write | exec
  deriving DecidableEq, Repr

/-- Where a `loc` address points from a tile, or nothing where it names no location (11 R219; 24 R392). -/
def State.locOf (s : State) (t a : Nat) : Option (Nat × Nat) :=
  let off := bits a 20 0
  let far := bitOf a 34
  let x := bits a 27 22
  let y := bits a 33 28
  if bits a 61 35 ≠ 0 ∨ bitOf a 21 = true ∨ settOff ≤ off then none
  else if far = false then (if x = 0 ∧ y = 0 then some (t, off) else none)
  else
    let u := tileAt x y
    if x < 48 && (s.group (s.groupOf t)).contains u && !(s.tile u).vacant then some (u, off) else none

/-- Where an `ilv` address points from a tile (11 R220). -/
def State.ilvOf (s : State) (t a : Nat) : Option (Nat × Nat) :=
  let g := s.group (s.groupOf t)
  let m := g.length
  if m = 0 ∨ m * settOff ≤ a then none
  else
    let w := a / 8
    let u := g.getD (w % m) 0
    if (s.tile u).vacant then none else some (u, w / m * 8 + a % 8)

/-- Whether a task of the context has reserved every byte of a range on a tile (11 R221). -/
def State.reserved (s : State) (t ctx off n : Nat) : Bool :=
  (List.range n).all fun i =>
    (s.tile t).resv.any fun r => r.ctx == ctx && decide (r.off ≤ off + i) && decide (off + i < r.off + r.len)

/-- Whether a page maps an address of a context. -/
def pageMaps (p : Page) (ctx va : Nat) : Bool :=
  p.ctx == ctx && decide (p.va ≤ va) && decide (va < p.va + 2 ^ p.lg)

/-- What the page tables hold for an address (11 R225); the capability list is mapped in every context. -/
def State.pageOf (s : State) (ctx va : Nat) : Option Page := s.pages.find? fun p => pageMaps p ctx va

/-- The tile TLB with an entry made most recent; the least recent of 64 leaves (11 R233). -/
def tlbFill (l : List Page) (p : Page) : List Page := (p :: l.filter fun q => q != p).take 64

/-- The last-level TLB with an entry added; the manual does not say which entry leaves a full one (11 R233). -/
def llFill (l : List Page) (p : Page) : List Page :=
  if l.contains p then l
  else if l.length < 4096 then l ++ [p]
  else listSet l (Config.llVictim l.length % 4096) p

/-- Translation of one address: the entry with the added delay, `none` where a walk is needed. -/
def State.lookup (s : State) (t ctx va : Nat) : Option (Page × Nat) × State :=
  match (s.tile t).tlb.find? fun p => pageMaps p ctx va with
  | some p => (some (p, 0), s.modTile t fun x => { x with tlb := tlbFill x.tlb p })
  | none =>
    match (s.slab (s.slabOf t)).lltlb.find? fun p => pageMaps p ctx va with
    | some p => (some (p, 30), s.modTile t fun x => { x with tlb := tlbFill x.tlb p })
    | none => (none, s)

/-- A walk's result: fills the last-level TLB and a tile's TLB (11 R233). -/
def State.fillTlbs (s : State) (t : Option Nat) (slab : Nat) (p : Page) : State :=
  let s := s.modSlab slab fun b => { b with lltlb := llFill b.lltlb p }
  match t with
  | some t => s.modTile t fun x => { x with tlb := tlbFill x.tlb p }
  | none => s

/-- What a translation that finds no entry in a TLB comes to (11 R233): a thread's access waits on a walk; so does a unit's, and it comes
again; the fetch of a wave's head, which never waits, reads the tables at once (02 R34; log 79). -/
inductive Misses where
  | thread | unit | now
  deriving DecidableEq, Repr

/-- The page a walk for an address is made for: the one the tables hold, or the smallest (11 R232, R233). -/
def State.walkPage (s : State) (ctx va : Nat) : Nat :=
  match s.pageOf ctx va with
  | some p => p.va
  | none => va / 65536 * 65536

/-- A page walk of a slab's walker for an address, for a tile or for a unit without one: joined when one of the page is in flight, queued
when the walker is full (11 R233). -/
def State.walkFrom (s : State) (slab : Nat) (ts : List Nat) (unit : Bool) (ctx va : Nat) : State :=
  let pg := s.walkPage ctx va
  let join (l : List Walk) : List Walk := l.map fun k =>
    if k.ctx = ctx ∧ k.va = pg then { k with tiles := k.tiles ++ ts.filter fun t => !k.tiles.contains t
                                             unit := k.unit || unit } else k
  let mine (l : List Walk) : Bool := l.any fun k => k.ctx == ctx && k.va == pg
  s.modSlab slab fun b =>
    if mine b.walks then { b with walks := join b.walks }
    else if mine b.waitWalks then { b with waitWalks := join b.waitWalks }
    else if b.walks.length < 1024 then { b with walks := b.walks ++ [⟨ctx, pg, ts, unit, s.now + 240⟩] }
    else { b with waitWalks := b.waitWalks ++ [⟨ctx, pg, ts, unit, 0⟩] }

/-- The same for an access of a tile. -/
def State.startWalk (s : State) (t ctx va : Nat) : State := s.walkFrom (s.slabOf t) [t] false ctx va

/-- A unit's access that finds no entry: it waits on a walk of the slab, unless one has ended that found none either
(11 R233; 23 R362). The answer is whether it faults. -/
def State.unitWalk (s : State) (slab : Nat) (ts : List Nat) (ctx va : Nat) : Bool × State :=
  let k := (ctx, s.walkPage ctx va)
  let s' := s.modSlab slab fun b => { b with walkFails := b.walkFails.filter fun q => q != k }
  if (s.slab slab).walkFails.contains k && (s.pageOf ctx va).isNone then (true, s') else (false, s'.walkFrom slab ts true ctx va)

/-- Place of a byte of a page. -/
def pageLoc (p : Page) (va : Nat) : Loc :=
  match p.plc with
  | .pod m => .pod m (p.pa + (va - p.va))
  | _ => .hbm (p.pa + (va - p.va))

/-- Whether a page permits an access. -/
def pagePermits (p : Page) : Need → Bool
  | .read => p.r
  | .write => p.w && p.plc != .repl
  | .exec => p.x

/-- The same of one address: a line that some context maps in a REPL page is written in none (11 R228). -/
def State.permits (s : State) (p : Page) (va : Nat) (need : Need) : Bool :=
  pagePermits p need && !(decide (need = .write) && (match p.plc with
    | .pod _ => false
    | _ => s.pages.any fun q => q.plc == .repl && decide (q.pa ≤ p.pa + (va - p.va) ∧ p.pa + (va - p.va) < q.pa + 2 ^ q.lg)))

/-- Outcome of resolving an access. -/
inductive Resolved where
  | ok (parts : List Part) (delay : Nat)
  | miss (va : Nat)
  | bad (cause : Nat)
  deriving DecidableEq, Repr

/-- Place of one `glob` piece through the TLBs, with the placement of its page and the cycles its translation adds. -/
def State.globPiece (s : State) (t ctx va : Nat) (need : Need) (m : Misses) : Except Resolved (Loc × Placement × Nat) × State :=
  if capVa ≤ va ∧ va < capVa + 65536 then
    match need with
    | .read => (.ok (.cap (va - capVa), .home, 0), s)
    | _ => (.error (.bad cProtection), s)
  else
    let r := s.lookup t ctx va
    match r.1 with
    | some (p, d) =>
      if s.permits p va need then (.ok (pageLoc p va, p.plc, d), r.2) else (.error (.bad cProtection), r.2)
    | none =>
      match m with
      | .thread => (.error (.miss va), r.2)
      | .unit =>
        let q := r.2.unitWalk (r.2.slabOf t) [t] ctx va
        (.error (if q.1 then .bad cTranslation else .miss va), q.2)
      | .now =>
        match r.2.pageOf ctx va with
        | none => (.error (.bad cTranslation), r.2)
        | some p =>
          let s' := r.2.fillTlbs (some t) (r.2.slabOf t) p
          if s.permits p va need then (.ok (pageLoc p va, p.plc, 240), s') else (.error (.bad cProtection), s')

/-- Pieces of a range read or written by a unit of a slab for a context, through the slab's last-level TLB (11 R233): a launch's
descriptor, its dependence words and the footprints of its tasks fill no tile's TLB. -/
def State.slabParts (s : State) (slab ctx : Nat) (need : Need) : List (Nat × Nat) → Resolved × State
  | [] => (.ok [] 0, s)
  | (a, k) :: rest =>
    let one : Except Resolved (Part × Nat) × State :=
      if capVa ≤ a ∧ a < capVa + 65536 then
        match need with
        | .read => (.ok (⟨.cap (a - capVa), k, .home⟩, 0), s)
        | _ => (.error (.bad cProtection), s)
      else
        match (s.slab slab).lltlb.find? fun p => pageMaps p ctx a with
        | some p => (if s.permits p a need then .ok (⟨pageLoc p a, k, p.plc⟩, 30) else .error (.bad cProtection), s)
        | none =>
          let q := s.unitWalk slab [] ctx a
          (.error (if q.1 then .bad cTranslation else .miss a), q.2)
    match one with
    | (.error e, s') => (e, s')
    | (.ok (p, d), s') =>
      match s'.slabParts slab ctx need rest with
      | (.ok ps d', s'') => (.ok (p :: ps) (max d d'), s'')
      | r => r

/-- The shadow place of a redundant copy's `glob` byte (21 R347): its own shadow page when one exists or is being
written, the original otherwise. -/
def State.shadowLoc (s : State) (red : Option (Nat × Nat)) (va : Nat) (need : Need) (l : Loc) : Loc :=
  match red, l with
  | some (r, c), .hbm _ =>
    let has := (kvGet (s.reds.map fun e => (e.1, e.2.pages)) r []).contains (c, va / 65536)
    if need = .write ∨ has = true then .shadow r c va else l
  | _, l => l

/-- Resolving the pieces of an access in one mode (11 R219, R220, R225, R221). -/
def State.resolvePieces (s : State) (t ctx : Nat) (red : Option (Nat × Nat)) (am : Nat) (need : Need) (m : Misses) :
    List (Nat × Nat) → Resolved × State
  | [] => (.ok [] 0, s)
  | (a, k) :: rest =>
    let one : Except Resolved (Loc × Placement × Nat) × State :=
      match am with
      | 1 =>
        match s.locOf t a with
        | some (u, off) => if s.reserved u ctx off k then (.ok (.spad u off, .home, 0), s) else (.error (.bad cProtection), s)
        | none => (.error (.bad cRange), s)
      | 2 =>
        match s.ilvOf t a with
        | some (u, off) => if s.reserved u ctx off k then (.ok (.spad u off, .home, 0), s) else (.error (.bad cProtection), s)
        | none => (.error (.bad cRange), s)
      | _ =>
        match s.globPiece t ctx a need m with
        | (.ok (l, plc, d), s') => (.ok (s'.shadowLoc red a need l, plc, d), s')
        | (.error e, s') => (.error e, s')
    match one with
    | (.error e, s') => (e, s')
    | (.ok (l, plc, d), s') =>
      match s'.resolvePieces t ctx red am need m rest with
      | (.ok ps d', s'') => (.ok (⟨l, k, plc⟩ :: ps) (max d d'), s'')
      | r => r

/-- Bytes a range of an address mode names at all: the address-range check of every byte (07 R126). -/
def State.inRange (s : State) (t am : Nat) : List (Nat × Nat) → Bool
  | [] => true
  | (a, k) :: rest =>
    (match am with
      | 1 => match s.locOf t a with
        | some (_, off) => decide (off + k ≤ settOff)
        | none => false
      | 2 => (s.ilvOf t a).isSome
      | _ => decide (a < 2 ^ 57)) && s.inRange t am rest

/-- An access's pieces, row by row. -/
def Acc.pieces (a : Acc) : List (Nat × Nat) :=
  (List.range a.rows).flatMap fun i =>
    if a.vec = 0 then Machine.pieces a.len (a.addr + i * a.stride) a.len else vecPieces a.len (a.addr + i * a.stride) a.len

/-- Columns of a run of Q4X rows, two elements a byte (05 R82). -/
def Acc.cols (a : Acc) : Nat := 2 * a.len / a.vec

/-- Resolving an access: the order of R353 step 6 (mode, range, alignment), then translation and protection (step 7)
(07 R126). -/
def State.resolveAcc (s : State) (t ctx : Nat) (red : Option (Nat × Nat)) (a : Acc) (align : Nat) (need : Need)
    (m : Misses) : Resolved × State :=
  if a.am = 3 then (.bad cMode, s)
  else if s.inRange t a.am a.pieces = false then (.bad cRange, s)
  else if a.addr % align ≠ 0 ∨ a.stride % align ≠ 0 then (.bad cAlign, s)
  else s.resolvePieces t ctx red a.am need m a.pieces

/-- Bits [61:0] of an address (04 R74). -/
def addrOf (w : Word) : Nat := w.toNat % 2 ^ 62

/-- The mode bits [63:62] of an address (04 R74). -/
def modeOf (w : Word) : Nat := w.toNat / 2 ^ 62

/-- An address with a mode in bits [63:62], as `eval` keeps it (22 R351). -/
def evalAddr (am addr : Nat) : Word := wd (am * 2 ^ 62 + addr)

/-- The privileged slice list of MOD pages; none written, the live slices in order (11 R229; log 68). -/
def State.sliceList (s : State) : List Nat :=
  if s.slices.isEmpty then (List.range 192).filter fun c => (kvGet s.slabs (c / 4) Slab.cold).booted else s.slices

/-- The slice at which a line has its home: of a MOD page, entry n mod D of the slice list; of any other, by the home table
(11 R227, R229). -/
def State.homeOf (s : State) (plc : Placement) (pa : Nat) : Nat :=
  match plc with
  | .mod d => s.sliceList.getD (pa / 64 % d) 0
  | _ => s.homeSlice pa

/-- Whether a slice serves a line: it holds it, or is still writing it back (11 R226). -/
def Cluster.holds (c : Cluster) (now pa : Nat) : Bool :=
  (c.lines.any fun l => l.ln == pa / 64) || c.wbs.any fun e => e.1 == pa / 64 && decide (now < e.2)

/-- The slice that serves an access: the requester's own for a REPL page, or for a load of a line it holds a near copy of; else
the line's home (11 R227 to R230). -/
def State.serving (s : State) (mine pa : Nat) (plc : Placement) (write : Bool) : Nat :=
  if plc = .repl ∨ (write = false ∧ ((s.clu mine).lines.any fun l => l.ln == pa / 64) = true) then mine else s.homeOf plc pa

/-- Cycles from a slice's bank to a stack, beyond the 280: to the nearest router of a slab of the stack's domain
(11 R217). -/
def State.stackDelay (s : State) (cl bank st : Nat) : Nat :=
  if st = stackOf (cl / 4) then 0
  else
    let tiles := ((List.range 48).filter fun b => stackOf b == st).flatMap fun b => (List.range 64).map fun n => 64 * b + n
    match listMin (fun p => (s.pathTaken bank p).1 * 4096 + p) tiles with
    | some p => s.pathDelay bank p
    | none => 0

/-- Latency of a part from a physical tile on an unloaded module, without translation; `t` is the virtual tile whose own scratchpad
needs no router (11 Table 11.1, R217). -/
def State.latencyFrom (s : State) (me : Nat) (t : Option Nat) (write : Bool) (p : Part) : Nat :=
  match p.loc with
  | .spad u _ =>
    if some u = t then 8
    else
      let pt := s.phys u
      if clusterOf pt = clusterOf me then 28 else 40 + s.pathDelay me pt
  | .hbm pa =>
    let cl := s.serving (clusterOf me) pa p.plc write
    let bank := physOfBank cl (bits pa 9 6)
    let slice := if cl = clusterOf me then 36 else 44 + s.pathDelay me bank
    if (s.clu cl).holds s.now pa then slice else slice + 280 + s.stackDelay cl bank (pa / 2 ^ 36)
  | .pod _ _ => 2250
  | .shadow _ _ _ => 36
  | .cap _ => 36

/-- The same for an access of a virtual tile. -/
def State.latency (s : State) (t : Nat) (write : Bool) (p : Part) : Nat := s.latencyFrom (s.phys t) (some t) write p

/-- Latency of an access: the largest of its parts. -/
def State.latenciesFrom (s : State) (me : Nat) (t : Option Nat) (ps : List Part) (write : Bool) : Nat :=
  ps.foldl (fun m p => max m (s.latencyFrom me t write p)) 0

/-- The same for an access of a virtual tile. -/
def State.latencies (s : State) (t : Nat) (a : Acc) (write : Bool) : Nat := s.latenciesFrom (s.phys t) (some t) a.parts write

/-- The cycles from which the parts of an access of a virtual tile act at their places, half way (11 R405). -/
def State.midsOf (s : State) (t from_ : Nat) (a : Acc) (write : Bool) : List Nat :=
  a.parts.map fun p => from_ + s.latency t write p / 2

/-- The first write of a redundant copy to a page makes its shadow page from the original; a launch that finds the shadow
pool exhausted dies (21 R347, R349). -/
def State.openShadow (s : State) (ps : List Part) : State :=
  ps.foldl (fun s p =>
    match p.loc with
    | .shadow r c va =>
      match kvGet (s.reds.map fun e => (e.1, some e.2)) r none with
      | none => s
      | some d =>
        if d.pages.contains (c, va / 65536) then s
        else if s.shadowPool ≤ s.reds.foldl (fun n e => n + e.2.pages.length) 0 then
          { s with reds := kvSet s.reds r { d with dead := true } }
        else
          let base := va / 65536 * 65536
          let orig : List Host.Cell := match s.pageOf d.ctx va with
            | some p =>
              let pa := p.pa + (base - p.va)
              (s.hbm.filter fun (x : Host.Cell) => decide (pa ≤ x.1) && decide (x.1 < pa + 65536)).map
                fun (x : Host.Cell) => (x.1 - pa + base, x.2)
            | none => []
          let old := kvGet s.shadow (2 * r + c) []
          { s with
            reds := kvSet s.reds r { d with pages := d.pages ++ [(c, va / 65536)] }
            shadow := kvSet s.shadow (2 * r + c) (orig.foldl (fun m (x : Host.Cell) => memSet m x.1 x.2) old) }
    | _ => s) s

/-- Whether an access touches a granule that holds an uncorrectable error (23 R363). -/
def State.poisoned (s : State) (ps : List Part) : Bool :=
  ps.any fun p => match p.loc with
    | .hbm pa => s.poison.any fun g => decide (g * 32 < pa + p.len) && decide (pa < g * 32 + 32)
    | .spad t off => (s.tile t).poison.any fun g => decide (g * 8 < off + p.len) && decide (off < g * 8 + 8)
    | _ => false

/-- Whether an access names an HBM stack the module does not have (11 R225). -/
def absent (ps : List Part) : Bool :=
  ps.any fun p => match p.loc with
    | .hbm pa => decide (24 * 2 ^ 36 < pa + p.len)
    | _ => false

end Sys2Proof.Machine
end

