-- ==== Sys2Proof/Machine/Records.lean ====
section
/-! DEFINITION. Fault records, the module log and the fault rings (21 R340, R341), and accesses made through the page
tables alone, without a tile's TLB. -/

namespace Sys2Proof.Machine

/-- Place of one byte of a context by its page tables, with the placement of its page (11 R225). -/
def State.tableLoc (s : State) (ctx va : Nat) (need : Need) : Except Nat (Loc × Placement) :=
  if capVa ≤ va ∧ va < capVa + 65536 then
    match need with
    | .read => .ok (.cap (va - capVa), .home)
    | _ => .error cProtection
  else
    match s.pageOf ctx va with
    | none => .error cTranslation
    | some p => if s.permits p va need then .ok (pageLoc p va, p.plc) else .error cProtection

/-- Parts of a byte range of a context by its page tables. -/
def State.tableParts (s : State) (ctx : Nat) (need : Need) : List (Nat × Nat) → Except Nat (List Part)
  | [] => .ok []
  | (a, k) :: rest =>
    match s.tableLoc ctx a need with
    | .error c => .error c
    | .ok (l, plc) =>
      match s.tableParts ctx need rest with
      | .error c => .error c
      | .ok ps => .ok (⟨l, k, plc⟩ :: ps)

/-- Bytes of a `glob` range read for a context. -/
def State.tableRead (s : State) (ctx va n : Nat) : Except Nat (List Byte) :=
  match s.tableParts ctx .read (pieces n va n) with
  | .ok ps => .ok (s.getParts ps)
  | .error c => .error c

/-- Whether some places hold a byte of a line of HBM. -/
def onLine (ps : List Part) (ln : Nat) : Bool :=
  ps.any fun p => match p.loc with
    | .hbm pa => decide (64 * ln < pa + p.len ∧ pa < 64 * ln + 64)
    | _ => false

/-- The near copies of the lines of some places, and of their homes' records the sharers, gone (11 R230). -/
def Cluster.dropNear (c : Cluster) (cl : Nat) (ps : List Part) : Cluster :=
  let hit := c.dir.filter fun e => onLine ps e.ln
  { c with
    lines := c.lines.filter fun l => !(l.copyOf.isSome && l.copyOf != some cl && onLine ps l.ln)
    ovq := c.ovq.filter fun r => !onLine ps r.1
    ovUsed := c.ovUsed - 16 * (hit.map fun e => e.more.length).sum
    dir := (c.dir.map fun e => if onLine ps e.ln then { e with sharers := [], more := [], overflow := false } else e).filter
      fun e => e.broadcast || !onLine ps e.ln }

/-- Bytes of a `glob` range written for a context, at the homes of their lines. -/
def State.tableWrite (s : State) (ctx va : Nat) (bs : List Byte) : Except Nat State :=
  match s.tableParts ctx .write (pieces bs.length va bs.length) with
  | .ok ps => .ok { s.putParts ps bs with clusters := s.clusters.map fun e => (e.1, e.2.dropNear e.1 ps) }
  | .error c => .error c

/-- A 64-bit word of a context. -/
def State.tableWord (s : State) (ctx va : Nat) : Except Nat Nat :=
  match s.tableRead ctx va 8 with
  | .ok bs => .ok (leNat bs)
  | .error c => .error c

/-- The context of a record that is charged to none, which its bytes give as 0 (21 Table 21.3). -/
abbrev noCtx : Nat := 4096

/-- The 64 bytes of a record (21 Table 21.3). -/
def FaultRec.toBytes (r : FaultRec) : List Byte :=
  leBytes 8 (r.cls * 2 ^ 56 + r.outcome * 2 ^ 52 + r.mkind * 2 ^ 48 + r.ctx % 4096 * 2 ^ 36 + r.seq % 2 ^ 32) ++
  leBytes 8 r.cyc ++
  leBytes 8 (r.slab * 2 ^ 50 + r.ptile * 2 ^ 44 + r.unit * 2 ^ 40 + r.y * 2 ^ 16 + r.x) ++
  leBytes 8 (r.gen * 2 ^ 24 + r.cause) ++
  leBytes 8 r.addr.toNat ++ leBytes 8 r.aux.toNat ++ leBytes 8 r.pc.toNat ++ leBytes 8 0

/-- A record about a virtual tile, not yet numbered. -/
def State.mkRec (s : State) (cls outcome mkind ctx tile unit cause : Nat) (addr aux pc : Word) : FaultRec :=
  { cls := cls, outcome := outcome, mkind := mkind, ctx := ctx, seq := 0, cyc := (s.cyc tile).toNat
    slab := s.slabOf tile, ptile := s.phys tile % 64, unit := unit, y := ty tile, x := tx tile, gen := 0
    cause := cause, addr := addr, aux := aux, pc := pc, dump := [] }

/-- A record of the region controllers about no tile. -/
def State.unitRec (s : State) (cls outcome mkind ctx : Nat) (addr : Word) : FaultRec :=
  { s.mkRec cls outcome mkind ctx 0 0 0 addr 0 0 with slab := 0, ptile := 0, cyc := s.now }

/-- The same of a fault ring, which writes nothing over a word with an uncorrectable error (23 R363). -/
def State.ringBytes (s : State) (ctx va : Nat) (bs : List Byte) : Except Nat State :=
  match s.tableParts ctx .write (pieces bs.length va bs.length) with
  | .ok ps => if s.poisoned ps then .error 0 else s.tableWrite ctx va bs
  | .error c => .error c

/-- The record written into its context's fault ring (21 R341): bytes before TAIL; LOST when the ring is full; a
faulting write disables the ring, and nothing is written over a poisoned word (23 R363). The ring of a context that dies takes none
(21 R344). -/
def State.ringRecord (s : State) (r : FaultRec) : State :=
  match (s.ctxOf r.ctx).ring with
  | none => s
  | some fr =>
    if fr.enabled = false ∨ (s.ctxOf r.ctx).isOpen = false ∨ (s.ctxOf r.ctx).dying = true then s
    else
      let off := s.modCtx r.ctx fun c => { c with ring := some { fr with enabled := false } }
      match s.tableWord r.ctx fr.base, s.tableWord r.ctx (fr.base + 8) with
      | .ok tail, .ok head =>
        if fr.n ≤ (tail + 2 ^ 64 - head) % 2 ^ 64 then
          match s.tableWord r.ctx (fr.base + 16) with
          | .ok lost =>
            match s.ringBytes r.ctx (fr.base + 16) (leBytes 8 (lost + 1)) with
            | .ok s' => s'
            | .error _ => off
          | .error _ => off
        else
          match s.ringBytes r.ctx (fr.base + 24 + 64 * (tail % fr.n)) r.toBytes with
          | .ok s' =>
            match s'.ringBytes r.ctx fr.base (leBytes 8 (tail + 1)) with
            | .ok s'' => s''
            | .error _ => off
          | .error _ => off
      | _, _ => off

/-- A record written to the module log, and to the fault ring when its outcome is REPLAYED, FROZEN, NOCOMMIT or
FAILED (21 R341). -/
def State.record (s : State) (r : FaultRec) : State :=
  let r := { r with seq := s.fseq % 2 ^ 32 }
  let full := decide (4096 ≤ s.flog.length)
  let s := { s with
    fseq := s.fseq + 1
    flog := (if full then s.flog.drop 1 else s.flog) ++ [r]
    flost := if full then (s.flost + 1) % 2 ^ 64 else s.flost }
  if r.outcome = 1 ∨ r.outcome = 2 ∨ r.outcome = 4 ∨ r.outcome = 6 then s.ringRecord r else s

/-- Class of a trap cause (22 Table 22.2). -/
def causeClass (c : Nat) : Nat := if 0x10 ≤ c ∧ c ≤ 0x17 then 2 else if c = cBound then 10 else 1

/-- Causes that always freeze their master (22 Table 22.2). -/
def causeFreezes (c : Nat) : Bool :=
  c == cOverrun || c == cTranslation || c == cProtection || c == cFetchTrans || c == cFetchProt || c == cDouble

/-- An entry of the replay log of a tile (24 R381): 16 bytes of the sett each; a log that does not fit leaves the tile
uncovered until its next boundary. -/
def State.logArrival (s : State) (t : Nat) (kind slot off : Nat) (v : Word) : State :=
  s.modTile t fun x =>
    if x.image.used + 16 * (x.log.length + 1) ≤ 262144 then
      { x with log := x.log ++ [⟨v, s.now - x.boundary, off, slot, kind⟩] }
    else { x with covered := false }

end Sys2Proof.Machine
end

