-- ==== Sys2Proof/Machine/Operands.lean ====
section
/-! DEFINITION. Operand forms: every specifier as a source and as a destination (03 R46 to R50), sends and pushes
(07 R137 to R139; 10 R199), the last-result file, and vector operands (03 R52). -/

namespace Sys2Proof.Machine

/-- A vector register's byte and its bytes (03 R52). -/
def Slot.vbyte (x : Slot) (v off : Nat) : Byte := memGet x.v (2048 * v + off)
def Slot.vbytes (x : Slot) (v off n : Nat) : List Byte := memRead x.v (2048 * v + off) n
def Slot.vwrite (x : Slot) (v off : Nat) (bs : List Byte) : Slot :=
  { x with v := memWrite x.v (2048 * v + off) bs, vdirty := x.vdirty ||| (1 <<< v) }

/-- One word shifted into the last-result file (03 R47); `l0Prev` keeps l0 as it stood at the start of the cycle
(02 R33). A neighbour reads it from the cycle after this one on (log 83). -/
def Slot.shiftL (x : Slot) (now : Nat) (v : Word) : Slot :=
  { x with
    l := ((x.l.set 3 x.l[2]).set 2 x.l[1]).set 1 x.l[0] |>.set 0 v
    l0Prev := if x.l0At = now then x.l0Prev else x.l[0]
    l0At := now }

/-- Shifts made while the oldest held entry is known. -/
def drainL (now : Nat) : List LEntry → Slot → Slot × List LEntry
  | [], x => (x, [])
  | e :: r, x =>
    match e.vals with
    | none => (x, e :: r)
    | some vs => drainL now r (vs.foldl (fun x v => x.shiftL now v) x)

/-- A result shifted in program order: held behind a pending instruction's shift (03 R47). -/
def Slot.result (x : Slot) (now : Nat) (v : Word) : Slot :=
  match x.lq with
  | [] => x.shiftL now v
  | q => { x with lq := q ++ [⟨x.iseq + 1, some [v]⟩] }

/-- The shifts of a pending instruction that completes, and those held behind it. -/
def Slot.settleL (x : Slot) (now seq : Nat) (vs : List Word) : Slot :=
  let q := x.lq.map fun e => if e.seq = seq ∧ e.vals = none then { e with vals := some vs } else e
  let r := drainL now q x
  { r.1 with lq := r.2 }

/-- A g or o register. -/
def Slot.reg (x : Slot) : Spec → Word
  | .g i => vget x.g i.toNat 0
  | .o i => vget x.o i.toNat 0
  | _ => 0

/-- A g or o register written; z and every other code discard (03 Table 3.2). -/
def Slot.setReg (x : Slot) (d : Spec) (v : Word) : Slot :=
  match d with
  | .g i => { x with g := vset x.g i.toNat v }
  | .o i => { x with o := vset x.o i.toNat v }
  | _ => x

/-- The task of a redundant launch that is the primary of a secondary copy: that of the same index (21 R347). -/
def State.primary (s : State) (red : Option (Nat × Nat)) (index : Nat) : Option Task :=
  match red with
  | some (r, 1) => (s.tasks.find? fun e => e.2.r.red == some (r, 0) && e.2.r.index == index).map fun e => e.2
  | _ => none

/-- The task whose `tid` and `vt` a secondary's thread reads (21 R347). -/
def State.seenAs (s : State) (w : Who) : Option Task :=
  s.primary (s.slot w).red (kvGet (s.tasks.map fun e => (e.1, e.2.r.index)) ((s.slot w).task.getD 0) 0)

/-- `tid` (03 Table 3.3). -/
def State.tidOf (s : State) (w : Who) : Word :=
  let x := s.slot w
  match s.seenAs w, x.wave with
  | some q, _ => wd (q.gen.toNat * 16 + q.slot)
  | none, none => wd (x.gen.toNat * 16 + w.slot)
  | none, some v => wd (v.j * 2 ^ 20 + v.k * 2 ^ 14 + (if v.k = 0 then 1 else 2) * 2 ^ 12 + x.gen.toNat * 16 + w.slot)

/-- `vt` (03 Table 3.4). -/
def State.vtOf (s : State) (w : Who) : Word :=
  let t := ((s.seenAs w).map fun q => q.tile).getD w.tile
  wd ((s.slot w).ctx.getD 0 * 2 ^ 32 + ty t * 2 ^ 16 + tx t)

/-- A neighbour read: l0 of the same slot as it stood at the start of the cycle; zero through a pointer whose V is 0
(02 R33). -/
def State.neighbourRead (s : State) (w : Who) (dir : Nat) : Word :=
  let t := s.neighbour w.tile dir
  if (s.tile t).vacant || (s.tile w.tile).vacant then 0
  else
    let x := s.slot ⟨t, w.slot⟩
    if x.l0At = s.now then x.l0Prev else x.l[0]

/-- What obtaining an operand comes to. -/
inductive Got (α : Type) where
  | ok (a : α)
  | wait (why : Why)
  | trap (cause : Nat) (ev : Word)
  deriving Repr

/-- Fields of a route word (07 Table 7.6). -/
structure Route where
  kind : Nat
  ack : Bool
  any : Bool
  dq : Nat
  gen : Nat
  slot : Nat
  mask : Nat
  y : Nat
  x : Nat
  deriving DecidableEq, Repr

def routeOf (w : Word) : Route :=
  let v := w.toNat
  { kind := bits v 63 62, ack := bitOf v 61, any := bitOf v 60, dq := bits v 59 58, gen := bits v 55 48
    slot := bits v 47 44, mask := bits v 43 28, y := bits v 21 16, x := bits v 5 0 }

/-- A route word no send may use (07 R137). -/
def badRoute (height : Nat) (w : Word) : Bool :=
  let v := w.toNat
  let r := routeOf w
  let multi := r.kind % 2 == 1
  bits v 57 56 != 0 || bits v 27 22 != 0 || bits v 15 6 != 0 || decide (48 ≤ r.x) || decide (height ≤ r.y) ||
    (multi && r.mask == 0) || (multi && r.ack) || (r.kind == 1 && !r.any) ||
    (decide (2 ≤ r.kind) && (r.slot != 0 || r.gen != 0 || r.dq != 0 || r.any))

/-- Tiles of a route: one, or those of the multicast window (07 Table 7.6). -/
def Route.tiles (r : Route) (height : Nat) : List Nat :=
  if r.kind % 2 = 0 then [tileAt r.x r.y]
  else ((List.range 16).filter fun b => bitOf r.mask b).map fun b => tileAt ((r.x + b % 4) % 48) ((r.y + b / 4) % height)

/-- One word put into the network along a route, a copy for each branch (07 R138; 11 R404); `n` is the instruction that sends it. -/
def State.emit (s : State) (src : Option Who) (n q : Nat) (ctx : Nat) (route data : Word) (fromPhys : Nat) : State :=
  let r := routeOf route
  let thr := match src with
    | some w => (s.slot w).thr
    | none => 0
  let gen := match src with
    | some w => (s.slot w).gen
    | none => 0
  r.tiles s.caps.height |>.foldl (fun s t =>
    let same := match src with
      | some w => w.tile == t
      | none => false
    let due := s.now + (if same then 12 else 20 + s.pathDelay fromPhys (s.phys t))
    { s with
      nextMsg := s.nextMsg + 1
      msgs := s.msgs ++ [{ id := s.nextMsg, src := src, srcGen := gen, q := q, tile := t, scale := decide (2 ≤ r.kind)
                           slot := r.slot, gen := BitVec.ofNat 8 r.gen, anyGen := r.any, dq := r.dq, ctx := ctx
                           data := data, ack := r.ack, due := due, thr := thr, seq := n, pt := fromPhys }] }) s

/-- A memory access (12 R237). -/
def Job.isMem : Job → Bool
  | .load _ _ _ _ _ _ => true
  | .amo _ _ _ _ _ _ => true
  | .vload _ _ _ => true
  | .store _ _ _ _ _ _ _ => true
  | _ => false

/-- The access of a pending memory instruction. -/
def Job.acc? : Job → Option Acc
  | .load _ a _ _ _ _ => some a
  | .amo _ a _ _ _ _ => some a
  | .vload _ a _ => some a
  | .store a _ _ _ _ _ _ => some a
  | _ => none

/-- Order-and-scope codes (04 Table 4.8), and the scope of one: 0 tile, 1 cl, 2 stk, 3 mod, 4 pod. -/
def osAcq (os : Nat) : Bool := decide (1 ≤ os ∧ os ≤ 5) || decide (11 ≤ os)
def osRel (os : Nat) : Bool := decide (6 ≤ os)
def osScope (os : Nat) : Nat := (os + 4) % 5

/-- The scope of an acquire (07 R130, R132; 12 R238). -/
def Job.acqScope : Job → Option Nat
  | .load _ _ _ _ q _ => q
  | .amo _ _ _ _ _ os => if osAcq os then some (osScope os) else none
  | _ => none

/-- Acquires (07 R130, R132). -/
def Job.acquires (j : Job) : Bool := j.acqScope.isSome

/-- An access whose loads are performed: every part of it has been read at its place (11 R405; 12 R237). A store leaves the list
as it completes. -/
def Pend.performed (p : Pend) : Bool :=
  match p.job with
  | .load _ a _ _ _ _ => a.ready && (List.range a.parts.length).all fun i => p.got.any fun e => e.1 == i
  | .vload _ a _ => a.ready && (List.range a.parts.length).all fun i => p.got.any fun e => e.1 == i
  | .amo _ _ _ _ _ _ => !p.got.isEmpty
  | j => !j.isMem

/-- Whether an acquire before instruction n of a slot's thread is not performed. -/
def Slot.acqBefore (x : Slot) (n : Nat) : Bool := x.pend.any fun q => decide (q.seq < n) && q.job.acquires && !q.performed

/-- An access performed for good: one read ahead of a narrow acquire may be read again until that is performed (`State.squash`). -/
def Slot.forGood (x : Slot) (q : Pend) : Bool := q.performed && !x.acqBefore q.seq

/-- The slot that holds a thread, in its place or spilled; one that has ended has nothing pending. -/
def State.threadOf (s : State) (thr : Nat) : Slot :=
  (s.tiles.findSome? fun e => ((e.2.slots ++ e.2.spilled).find? fun x => x.2.thr == thr).map fun x => x.2).getD Slot.cold

/-- Whether a word a thread sent before its instruction n has not reached its buffer (12 R248). -/
def State.sendsBefore (s : State) (thr n : Nat) : Bool :=
  let mine (m : Msg) : Bool := m.src.isSome && m.thr == thr && decide (m.seq < n)
  s.msgs.any mine || s.tiles.any fun e => e.2.held.any mine || e.2.ring.any mine

/-- Whether an event of a thread before its instruction n is not performed (12 R237, R244). -/
def State.owesAt (s : State) (x : Slot) (n : Nat) : Bool :=
  (x.pend.any fun p => decide (p.seq < n) && !x.forGood p) ||
    (s.stores.any fun e => e.party.thr == x.thr && decide (e.seq < n)) || s.sendsBefore x.thr n

/-- The same of a thread by number. -/
def State.owes (s : State) (thr n : Nat) : Bool := s.owesAt { s.threadOf thr with thr := thr } n

/-- Whether a send of instruction n would come before an acquire, or before what an earlier release fence names
(12 Table 12.2, R245). -/
def State.sendHeld (s : State) (x : Slot) (n : Nat) : Bool :=
  x.acqBefore n || x.fences.any fun f => decide (f.1 < n) && s.owesAt x f.1

/-- Whether a receive or a pop would come before an acquire (07 R130; 12 Table 12.2). -/
def Slot.takeHeld (x : Slot) : Bool := x.acqBefore (x.iseq + 1)

/-- Whether a destination can take a result now: queue and engine checks of R48, R137, R139, R199. `lim` bounds the
instructions of the thread that come before this one. -/
def State.dstReadyAt (s : State) (w : Who) (lim : Nat) (d : Spec) : Got Unit :=
  let x := s.slot w
  match d with
  | .q i =>
    match vget x.routes i.toNat none with
    | none => .trap cUnrouted (wd i.toNat)
    | some r =>
      if badRoute s.caps.height r then .trap cBadRoute r
      else if (routeOf r).ack && decide (8 ≤ (vget x.qstat i.toNat ⟨0, 0, 0⟩).ackp) then .wait .ack
      else if s.sendHeld x lim then .wait .fence
      else .ok ()
  | .f i =>
    let b := x.bind i.toNat
    match b.st with
    | .unbound => .trap cUnbound (wd i.toNat)
    | .evicted => .ok ()
    | .bound =>
      let e := s.eng b.cl b.eng
      if e.frozen.isSome then .ok ()
      else if 8 ≤ e.cmds.length then .wait .push
      else .ok ()
    | _ => .wait .push
  | _ => .ok ()

/-- The same as an instruction issues. -/
def State.dstReady (s : State) (w : Who) (d : Spec) : Got Unit := s.dstReadyAt w ((s.slot w).iseq + 1) d

/-- A value that instruction n writes to a destination whose checks have passed (03 R46 to R48). -/
def State.writeSpecAt (s : State) (w : Who) (n : Nat) (d : Spec) (v : Word) : State :=
  match d with
  | .q i =>
    let x := s.slot w
    match vget x.routes i.toNat none with
    | none => s
    | some r =>
      let s := s.emit (some w) n i.toNat (x.ctx.getD 0) r v (s.phys w.tile)
      if (routeOf r).ack then
        s.modSlot w fun x =>
          let q := vget x.qstat i.toNat ⟨0, 0, 0⟩
          { x with qstat := vset x.qstat i.toNat { q with ackp := q.ackp + 1 } }
      else s
  | .f i =>
    let b := (s.slot w).bind i.toNat
    match b.st with
    | .bound =>
      if (s.eng b.cl b.eng).frozen.isSome then s
      else s.modEng b.cl b.eng fun e => { e with cmds := e.cmds ++ [⟨v, none, (s.slot w).thr, n⟩] }
    | _ => s
  | d => s.modSlot w fun x => (x.setReg d v).result s.now v

/-- The same for the instruction that issues. -/
def State.writeSpec (s : State) (w : Who) (d : Spec) (v : Word) : State := s.writeSpecAt w ((s.slot w).iseq + 1) d v

/-- A pop from a binding (10 R198, R199; 23 R369, R370; 21 Table 21.4). -/
def State.pop (s : State) (w : Who) (k : Nat) : Got (Word × State) :=
  let b := (s.slot w).bind k
  let kept (s : State) : Got (Word × State) :=
    match b.left, b.token with
    | v :: r, _ => .ok (v, (s.modSlot w fun x => x.setBind k { b with left := r }).logArrival w.tile 2 w.slot 0 v)
    | [], some v => .ok (v, s.logArrival w.tile 2 w.slot 0 v)
    | [], none => .wait .pop
  match b.st with
  | .unbound => .trap cUnbound (wd k)
  | .evicted => kept s
  | .bound =>
    if b.left.isEmpty && b.token.isNone then
      match (s.eng b.cl b.eng).results with
      | v :: r => .ok (v, (s.modEng b.cl b.eng fun e => { e with results := r }).logArrival w.tile 2 w.slot 0 v)
      | [] => .wait .pop
    else kept s
  | _ => .wait .pop

/-- Room in a full buffer of a tile: the oldest word held for it enters from the next cycle on (07 R138). -/
def State.room (s : State) (t key : Nat) : State := s.modTile t fun x => { x with roomAt := kvSet x.roomAt key (s.now + 1) }

/-- The value of one source (03 R46, R48, R49); a receive or a pop waits for earlier acquires. -/
def State.readSpec (s : State) (w : Who) (c : Spec) : Got (Word × State) :=
  let x := s.slot w
  match c with
  | .g i => .ok (vget x.g i.toNat 0, s)
  | .o i => .ok (vget x.o i.toNat 0, s)
  | .l i => .ok (vget x.l i.toNat 0, s)
  | .n i => .ok (s.neighbourRead w i.toNat, s)
  | .q i =>
    match if x.takeHeld then [] else vget x.rbuf i.toNat [] with
    | v :: r =>
      let s := if r.length = 7 then s.room w.tile (4 * w.slot + i.toNat) else s
      .ok (v, s.modSlot w fun x => { x with rbuf := vset x.rbuf i.toNat r })
    | [] => .wait (if x.takeHeld then .fence else .receive)
  | .f i => if x.takeHeld && (x.bind i.toNat).st != .unbound then .wait .fence else s.pop w i.toNat
  | .z => .ok (0, s)
  | .tid => .ok (s.tidOf w, s)
  | .vt => .ok (s.vtOf w, s)

/-- The sources of an instruction, each q or f code obtained once, in field order (03 R48). -/
def State.readSpecs (s : State) (w : Who) : List Spec → List (Spec × Word) → Got (List Word × State)
  | [], _ => .ok ([], s)
  | c :: cs, seen =>
    let known := match c with
      | .q _ | .f _ => (seen.find? fun e => e.1 == c).map fun e => e.2
      | _ => none
    match known with
    | some v =>
      match s.readSpecs w cs seen with
      | .ok (vs, s') => .ok (v :: vs, s')
      | .wait y => .wait y
      | .trap a b => .trap a b
    | none =>
      match s.readSpec w c with
      | .ok (v, s1) =>
        match s1.readSpecs w cs ((c, v) :: seen) with
        | .ok (vs, s') => .ok (v :: vs, s')
        | .wait y => .wait y
        | .trap a b => .trap a b
      | .wait y => .wait y
      | .trap a b => .trap a b

/-- Sources read once every destination can take its result; nothing is received, popped or sent where one operand
traps or must wait (03 R48; log 9). -/
def State.operands (s : State) (w : Who) (src dst : List Spec) : Got (List Word × State) :=
  let unb := src.findSome? fun c => match c with
    | .f i => if ((s.slot w).bind i.toNat).st = .unbound then some i.toNat else none
    | _ => none
  match unb with
  | some k => .trap cUnbound (wd k)
  | none =>
    let bad := dst.findSome? fun d => match s.dstReady w d with
      | .trap c e => some (Got.trap (α := Unit) c e)
      | _ => none
    match bad with
    | some (.trap c e) => .trap c e
    | _ =>
      let late := dst.findSome? fun d => match s.dstReady w d with
        | .wait y => some y
        | _ => none
      match s.readSpecs w src [] with
      | .ok r =>
        match late with
        | some y => .wait y
        | none => .ok r
      | .wait y => .wait y
      | .trap c e => .trap c e

/-- Size in bits of a tile's row of elements and the bytes a shape covers (03 R52, Table 3.5, Table 3.6). -/
def vRows (v : Word) : Nat := bits v.toNat 5 0 + 1
def vCols (v : Word) : Nat := bits v.toNat 15 8 + 1
def vTy (v : Word) : Nat := bits v.toNat 19 16

/-- Bytes of `n` elements of a type. -/
def tyBytes (ty n : Nat) : Nat :=
  match ty with
  | 0 => 4 * n
  | 1 => 2 * n
  | 2 => n
  | 3 => n
  | 4 => n / 2
  | 5 => n
  | 6 => 2 * n
  | 7 => 4 * n
  | 8 => n
  | 9 => 2 * n
  | 10 => 4 * n
  | _ => 0

/-- A value `vshp` may hold (03 R53). -/
def vshpOk (v : Word) : Bool :=
  decide (vTy v ≤ 10) && decide (tyBytes (vTy v) (vRows v * vCols v) ≤ 2048) &&
    (vTy v != 4 || vCols v % 2 == 0)

/-- `vshp` as the register holds a written value, reserved bits reading 0 (03 Table 3.5; 00 R7). -/
def vshpMask (v : Word) : Word := v &&& 0xFFF3F

/-- Unsigned element patterns of a register, `n` elements of a type from byte 0. -/
def Slot.velems (x : Slot) (v ty n : Nat) : List Nat :=
  (List.range n).map fun i => leNat (x.vbytes v (tyBytes ty i) (tyBytes ty 1))

/-- Bytes of element patterns. -/
def packElems (ty : Nat) (es : List Nat) : List Byte := es.flatMap fun e => leBytes (tyBytes ty 1) e

end Sys2Proof.Machine
end

