-- ==== Sys2Proof/Machine/Tasks.lean ====
section
/-! DEFINITION. The life of a thread and of a task in a slot: the registers at dispatch (02 R37), leases given back
(10 R197), boundaries written into a sett (10 R215; 14 R290 to R292), retirement (02 R39), and the end of a thread
(06 R122). -/

namespace Sys2Proof.Machine

/-- Slot 15 of a directory tile, the member of rank 0 of its group: the overflow handler runs there, so no party takes it (11 R231). -/
def State.isHandler (s : State) (w : Who) : Bool := w.slot == 15 && s.rank w.tile == 0

/-- A slot that a party may take: IDLE since an earlier cycle, holding an issue position, not claimed, on a tile that runs (02 R38; 06 R120;
log 91). -/
def State.openSlot (s : State) (w : Who) : Bool :=
  let x := s.slot w
  let t := s.tile w.tile
  x.st == .idle && x.claimed.isNone && decide (x.freeFrom ≤ s.now) && !s.isHandler w && !(t.positions w.slot).isEmpty && !t.stopped && !t.vacant &&
    (t.move.map fun m => m.phase == .precopy).getD true

/-- The zeroed registers of step 4 of R37: everything but the generation tag; the vector registers and `vshp` are kept
within one context. A neighbour still reads l0 as it stood at the start of the cycle (02 R33). -/
def Slot.fresh (x : Slot) (ctx now : Nat) : Slot :=
  let y := { Slot.cold with
    gen := x.gen, ctx := some ctx, lastCtx := some ctx, lastIssue := x.lastIssue, iseq := x.iseq
    l0Prev := if x.l0At = now then x.l0Prev else x.l[0], l0At := now }
  if x.lastCtx = some ctx then { y with v := x.v, vshp := x.vshp, vdirty := x.vdirty } else y

/-- The first eight arguments into g1 to g8 (02 R37 step 3). -/
def Slot.setArgs (x : Slot) (args : List Word) : Slot :=
  (List.range 8).foldl (fun x i => { x with g := vset x.g (i + 1) (args.getD i 0) }) x

/-- The engine as it stands unbound, powered down, its service state kept (10 R197; 21 Table 21.4). -/
def Engine.down (e : Engine) (now : Nat) : Engine :=
  { Engine.cold with inService := e.inService, frozen := e.frozen, freedAt := now }

/-- An engine unbound and powered down; what its command has written and not yet performed stays unwritten, and its requests to other
modules are forgotten (10 R197, R198). -/
def State.downEngine (s : State) (cl e : Nat) : State :=
  let g := s.eng cl e
  ({ s with
    stores := s.stores.filter fun q => q.party.tile.isSome || q.party.thr != g.thr
    pods := s.pods.filter fun q => q.by_ != Master.eng cl e }).modEng cl e fun g => g.down s.now

/-- Freeing a binding (10 R195, R197): commands, results and internal state go, the guard slots that refer to it become EMPTY, the
engine powers down; a request still QUEUED is withdrawn, and a wake already begun ends with nobody bound. KIND, PRIO and EVN stay. -/
def State.freeBinding (s : State) (w : Who) (k : Nat) : State :=
  let b := (s.slot w).bind k
  let s := match b.st with
    | .bound => s.downEngine b.cl b.eng
    | .queued =>
      let s := s.modClu b.cl fun c => { c with lreq := c.lreq.filter fun r => !(r.who == w && r.f == k) }
      let e := s.eng b.cl b.eng
      if e.holder = some (w, k) ∧ e.pow = EngPow.waiting then
        (s.modEng b.cl b.eng fun e => e.down s.now).modSlab (b.cl / 4) fun l =>
          { l with wakes := l.wakes.filter fun r => !(r.what == WakeOf.engine b.cl b.eng && r.granted.isNone) }
      else s
    | .waking => s.modEng b.cl b.eng fun e => { e with holder := none }
    | _ => s
  s.modSlot w fun x =>
    { x.setBind k { b with st := .unbound, left := [], token := none } with
      guards := if b.st = .bound then x.guards.map fun g => if g = some k then none else g else x.guards }

/-- Every lease of a thread freed (06 R122 step 2). -/
def State.freeAll (s : State) (w : Who) : State :=
  (List.range 4).foldl (fun s k => s.freeBinding w k) s

/-- Contexts with a thread or a reservation on a tile. -/
def Tile.contexts (t : Tile) : List Nat :=
  (t.slots.filterMap fun e => e.2.ctx) ++ t.resv.map fun r => r.ctx

/-- A context comes to a tile: where nothing of it stood there, the latest boundary has no state of it, and the tile is uncovered until
its next one (24 R381). -/
def State.uncover (s : State) (t ctx : Nat) : State :=
  s.modTile t fun x => if x.contexts.contains ctx then x else { x with covered := false }

/-- Lines of a tile's scratchpad that a checkpoint carries: those written since the last boundary (10 R215). -/
def Tile.dirtyLines (t : Tile) : List Nat := t.dirty.filter fun n => decide (n < settOff / 64)

/-- Bytes a checkpoint of some contexts charges to each for what is no line: a record for each thread with its vector registers, and
what the matrix state of its owner has changed (14 Table 14.5). -/
def Tile.ckptExtra (t : Tile) (sel : Nat → Bool) : List (Nat × Nat) :=
  (t.slots.filterMap fun e => (e.2.ctx.filter sel).map fun c => (c, 1024 + 2048 * popCount 16 e.2.vdirty.toNat)) ++
    ((t.mx.owner.filter sel).map fun c => (c, 256 * t.mx.rowsW.length + (if t.mx.latchDirty then 13312 else 0))).toList

/-- Bytes a checkpoint needs for the threads of some contexts (14 Table 14.5). -/
def Tile.ckptBytes (t : Tile) (sel : Nat → Bool) : Nat :=
  let lines := (t.dirtyLines.filter fun n => !(t.image.lines.any fun e => e.1 == n)).length
  72 * lines + (t.ckptExtra sel).foldl (fun n e => n + e.2) 0

/-- A boundary written whole or not at all (14 R291, R292): the image takes the lines and threads, and the replay log
restarts (10 R215). The answer says whether it fitted. -/
def State.boundary (s : State) (t : Nat) (sel : Nat → Bool) : State × Nat × Bool :=
  let x := s.tile t
  let n := x.ckptBytes sel
  if 262144 < x.image.used + n then (s, n, false)
  else
    let lines := x.dirtyLines.foldl (fun l k => kvSet l k (memRead x.spad (64 * k) 64)) x.image.lines
    let ths := (x.slots.filter fun e => (e.2.ctx.map sel).getD false).foldl (fun l e => kvSet l e.1 e.2) x.image.threads
    let own := (x.mx.owner.map sel).getD false
    let x := { x with
      image := { lines := lines, threads := ths, extra := x.image.extra ++ x.ckptExtra sel, used := x.image.used + n, at_ := s.now, valid := true }
      dirty := []
      log := []
      boundary := s.now
      covered := x.contexts.all sel
      slots := x.slots.map fun (e : Nat × Slot) => if (e.2.ctx.map sel).getD false then (e.1, { e.2 with vdirty := 0 }) else e
      mx := { if own then { x.mx with rowsW := [], latchDirty := false } else x.mx with slips := [] } }
    (s.setTile t x, n, true)

/-- The sett image of a tile lost to an error: the tile is uncovered until its next boundary, which is charged as if the image were
empty: every line it held, the vector registers of every thread whose record it held, and the matrix state (23 R365; 24 R382). -/
def State.loseImage (s : State) (t : Nat) : State :=
  s.modTile t fun x =>
    { x with
      covered := false, dirty := (x.dirty ++ x.image.lines.map fun e => e.1).eraseDups
      slots := x.slots.map fun (e : Nat × Slot) =>
        if x.image.threads.any fun q => q.1 == e.1 then
          (e.1, { e.2 with vdirty := (List.range 16).foldl (fun d v =>
            if e.2.v.any fun (c : Host.Cell) => c.1 / 2048 == v then d ||| (1 <<< v) else d) e.2.vdirty })
        else e
      mx := if x.mx.owner.isSome then
          { x.mx with
            rowsW := (x.mx.rowsW ++ (x.mx.aw.map fun e => e.1) ++ x.mx.acc.map fun (c : Host.Cell) => c.1 / 256).eraseDups
            latchDirty := x.mx.latchDirty || x.mx.active.isSome || x.mx.shadow.isSome }
        else x.mx
      image := ⟨[], [], [], 0, x.image.at_, false⟩ }

/-- The image without a context that holds nothing on the tile any more: its threads' records, the lines nobody reserves, and what
both were charged (14 R291). -/
def Tile.withoutImage (x : Tile) (ctx : Nat) : Tile :=
  let ths := x.image.threads.filter fun e => e.2.ctx != some ctx
  let keep := x.image.lines.filter fun l => x.resv.any fun r => decide (r.off ≤ 64 * l.1 ∧ 64 * l.1 < r.off + r.len)
  let freed := 72 * (x.image.lines.length - keep.length) + (x.image.extra.filter fun e => e.1 == ctx).foldl (fun n e => n + e.2) 0
  { x with image := { x.image with
    threads := ths, lines := keep, extra := x.image.extra.filter fun e => e.1 != ctx, used := x.image.used - freed } }

/-- When a tile's last task of a context retires the image's entries for that context go (14 R291). -/
def State.dropImage (s : State) (t ctx : Nat) : State :=
  s.modTile t fun x => if x.contexts.contains ctx then x else x.withoutImage ctx

/-- Tiles where a task has reserved: one, wherever its thread has gone since (02 R42). -/
def State.resvTiles (s : State) (task : Nat) : List Nat :=
  (s.tiles.filter fun e => e.2.resv.any fun r => r.task == task).map fun e => e.1

/-- Reservations of a task released; the ranges stay remembered for the zero-fill rule of 11 R222. -/
def State.releaseResv (s : State) (task : Nat) : State :=
  (s.resvTiles task).foldl (fun s t => s.modTile t fun x =>
    let gone := x.resv.filter fun r => r.task == task
    { x with
      resv := x.resv.filter fun r => r.task != task
      lastResv := (gone.map fun r => (r.ctx, r.off, r.len)) ++ x.lastResv }) s

/-- Retirement of a task at a tile (02 R39; 13 R260): the reservations end, the retirement word is due an increment
unless the launch is redundant (21 R348), and a boundary is recorded. -/
def State.retireTask (s : State) (k t : Nat) : State :=
  match s.task? k with
  | none => s
  | some q =>
    let s := s.modTask k fun q => { q with retired := true }
    let home := s.resvTiles k
    let s := s.releaseResv k
    let s : State := match q.r.red with
      | some (r, c) =>
        match s.red? r with
        | some d => { s with reds := kvSet s.reds r { d with left := listSet d.left c (d.left.getD c 0 - 1) } }
        | none => s
      | none => if q.r.retw = 0 then s else { s with retAdds := s.retAdds ++ [⟨q.r.ctx, q.r.retw, k, 1⟩] }
    let s := (s.boundary t fun c => c == q.r.ctx).1
    (t :: home).eraseDups.foldl (fun s t => s.dropImage t q.r.ctx) s

/-- A word spoiled at a tile: counted, the 32 most recent kept (07 R138; 23 R367). -/
def State.spoil (s : State) (t : Nat) (m : Msg) : State :=
  s.modTile t fun x =>
    let q := x.spoilq ++ [m]
    { x with spoilq := q.drop (q.length - 32), spoilc := (x.spoilc + 1) % 2 ^ 64 }

/-- The words in the receive buffers of a thread of a slot spoiled at its tile (07 R140; 23 R367). -/
def State.spoilWords (s : State) (w : Who) (x : Slot) : State :=
  let ws := (List.range 4).flatMap fun k => (vget x.rbuf k []).map fun v => (k, v)
  ws.foldl (fun s e => s.spoil w.tile
    { id := 0, src := none, srcGen := 0, q := 0, tile := w.tile, scale := false, slot := w.slot, gen := x.gen
      anyGen := false, dq := e.1, ctx := x.ctx.getD 0, data := e.2, ack := false, due := s.now, thr := 0, seq := 0, pt := s.phys w.tile }) s

/-- The words left in a thread's receive buffers go to the spoil queue of its tile (07 R140). -/
def State.spoilBuffers (s : State) (w : Who) : State :=
  (s.spoilWords w (s.slot w)).modSlot w fun x => { x with rbuf := Vector.replicate 4 [] }

/-- Spilled threads of a tile discarded: their words and those that the spill ring holds for them are spoiled; a slot that stands free,
or is held for the restore of one, has its tag one higher (13 R274; 21 Table 21.5 step 2; 23 R367). -/
def State.dropSpilled (s : State) (t : Nat) (sel : Slot → Bool) : State :=
  let gone := (s.tile t).spilled.filter fun e => sel e.2
  let kept := (s.tile t).spilled.filter fun e => !sel e.2
  gone.foldl (fun s e =>
    let mine (m : Msg) : Bool := m.slot == e.1 && !m.scale && (m.anyGen || m.gen == e.2.gen) && e.2.ctx == some m.ctx
    let s := s.spoilWords ⟨t, e.1⟩ e.2
    let s := ((s.tile t).ring.filter mine).foldl (fun s m => s.spoil t m) s
    (s.modTile t fun x => { x with ring := x.ring.filter fun m => !mine m }).modSlot ⟨t, e.1⟩ fun x =>
      if x.st = .idle ∧ x.ctx = none then
        if x.waitUntil.isSome && !(kept.any fun q => q.1 == e.1) then { x with gen := x.gen + 1, claimed := none, waitUntil := none }
        else { x with gen := x.gen + 1 }
      else x) (s.modTile t fun x => { x with spilled := kept })

/-- A slot left by its thread: IDLE, registers kept, or held for the spilled thread it goes to, also where the thread leaves it by
`migrate` or dies (02 R39; 13 R272; log 92). -/
def State.vacate (s : State) (w : Who) : State :=
  let back := (s.tile w.tile).spilled.any fun e => e.1 == w.slot
  (s.spoilBuffers w).modSlot w fun x =>
    { x with st := .idle, frozen := false, halted := false, why := .none
             routes := Vector.replicate 4 none, f := Vector.replicate 4 Binding.cold
             guards := Vector.replicate 8 none, trapq := [], pend := [], vpend := [], lq := [], scoreboard := []
             ctx := none, task := none, aux := false, red := none, wave := none, solo := false, fences := [], thr := 0
             notice := false, pers := false, waitUntil := if back then some (s.now + 160) else none, op := none
             freeFrom := s.now + 1, preempted := false
             claimed := if back then some w else none }

/-- The task's own thread or wave has ended: the task retires, once every auxiliary has (02 R39; 10 R208). -/
def State.overTask (s : State) (k t : Nat) : State :=
  if ((s.task? k).map fun q => q.auxes).getD 0 = 0 then s.retireTask k t else s.modTask k fun q => { q with ended := true }

/-- A thread executes `wwork` outside a wave, its waits over (06 R122): leases freed, routes and bindings cleared, the
slot IDLE; the task retires unless the thread is an auxiliary (10 R208). -/
def State.endThread (s : State) (w : Who) : State :=
  let x := s.slot w
  let s := (s.freeAll w).vacate w
  match x.task with
  | none => s
  | some k =>
    if x.aux then
      let s := s.modTask k fun q => { q with auxes := q.auxes - 1 }
      match s.task? k with
      | some q => if q.ended && q.auxes == 0 then s.retireTask k q.tile else s
      | none => s
    else s.retireTask k w.tile

/-- A member leaves its wave: IDLE, registers kept; the wave's task is over with the last of them (02 R35, R39). -/
def State.memberGone (s : State) (w : Who) : State :=
  match (s.slot w).wave with
  | none => s
  | some r =>
    let s := (s.freeAll w).vacate w
    match s.wave? r.id with
    | none => s
    | some v =>
      let v := { v with gone := v.gone ++ [(r.j, r.k)] }
      if v.gone.length < v.len * v.rows then s.setWave r.id v
      else
        let s : State := { s with waves := kvErase s.waves r.id }
        match v.task with
        | some k => s.overTask k (((s.task? k).map fun q => q.tile).getD w.tile)
        | none => s

/-- Provisional claims of a `wjoin` released (06 R120). -/
def State.dropClaims (s : State) (w : Who) : State :=
  s.tiles.foldl (fun (s : State) (e : Nat × Tile) =>
    s.modTile e.1 fun t =>
      { t with slots := t.slots.map fun p =>
          if p.2.claimed = some w ∧ (⟨e.1, p.1⟩ : Who) ≠ w then (p.1, { p.2 with claimed := none }) else p }) s

/-- A slot taken out of the rotation: an abandoned wait is executed again when it returns (10 R207); a thread that
waits to enter a trap leaves once it has entered (22 R355). -/
def State.takeOut (s : State) (w : Who) : State :=
  (s.dropClaims w).modSlot w fun x =>
    if x.trapq.isEmpty then { x with st := .out, why := .none, waitUntil := none, op := none, join := none } else { x with outReq := true }

/-- A thread begins in a slot: it is numbered, one of its task's (13 R260). -/
def State.beginThread (s : State) (w : Who) : State :=
  let s : State := { s.modSlot w fun x => { x with thr := s.nextThr } with nextThr := s.nextThr + 1 }
  match (s.slot w).task with
  | some k => s.modTask k fun q => { q with thrs := q.thrs ++ [(s.slot w).thr] }
  | none => s

/-- A task placed in a slot: steps 2 to 6 of R37. Words captured before its dispatch are stale for it (12 R251, R253). -/
def State.placeTask (s : State) (w : Who) (k : Nat) (r : TaskRec) : State :=
  (s.modSlot w fun x =>
    let y := { x with gen := x.gen + 1 }.fresh r.ctx s.now
    { y.setArgs r.args with pc := r.entry, st := .run, task := some k, pers := r.pers, red := r.red, fetchAt := s.now + 1 }).beginThread w

end Sys2Proof.Machine
end

