-- ==== Sys2Proof/Machine/Place.lean ====
section
/-! DEFINITION. The choice of a tile and a slot for a record of the Hoist (13 R261, R262; 11 R222), and who else may take a slot
(02 R38; 06 R120; 10 R208). -/

namespace Sys2Proof.Machine

/-- A cluster is throttled while one of its tiles stands in THROTTLE or TRIP (15 R315). -/
def State.throttled (s : State) (cl : Nat) : Bool :=
  (List.range 16).any fun b => decide (2 ≤ (s.ptile (physOfBank cl b)).band)

/-- Records withheld from a tile (13 R262; 24 R392). -/
def State.withheld (s : State) (t tcl : Nat) : Bool :=
  let p := s.ptile (s.phys t)
  decide (1 ≤ p.band) || decide (380 ≤ p.reading + 20 * tcl) || s.throttled (s.cluster t) || p.role != .serving ||
    (s.tile t).vacant || (s.tile t).stopped

/-- A footprint that a tile can reserve (11 R222 step 1). -/
def Tile.fits (t : Tile) (r : TaskRec) : Bool :=
  decide (t.resv.length + r.ranges.length ≤ 32) &&
    r.ranges.all fun g => t.resv.all fun v => v.ctx == r.ctx || decide (g.2.2 + g.2.1 ≤ v.off ∨ v.off + v.len ≤ g.2.2)

/-- A secondary copy, whose threads read the primary's `vt` and `tid`, follows the dispatch of its primary (21 R347). -/
def State.followsPrimary (s : State) (r : TaskRec) : Bool :=
  match r.red with
  | some (_, 1) => ((s.primary r.red r.index).map fun q => q.due.isNone).getD false
  | _ => true

/-- Tiles a record may go to: its target, or those the cluster serves. -/
def State.tilesFor (s : State) (cl : Nat) (r : TaskRec) : List Nat :=
  let ts := match r.target with
    | some t => [t]
    | none => s.served cl
  (if s.followsPrimary r then ts else []).filter fun t => !s.withheld t r.tcl && (s.tile t).fits r && s.cluster t == cl

/-- Slots of a tile that are IDLE, not taken by a record already placed and not the overflow handler's (11 R231; 13 R261). -/
def State.idleSlots (s : State) (t : Nat) : Nat :=
  (slotNums.filter fun k => ((s.tile t).slot k).st == .idle && ((s.tile t).slot k).claimed != some ⟨t, k⟩ && !s.isHandler ⟨t, k⟩).length

/-- Whether the contexts that wait in a tile's run queue leave a slot: they take the open slots of lower number (02 R38; 06 R120; log 94). -/
def State.pastRunq (s : State) (w : Who) : Bool :=
  decide ((s.tile w.tile).runq.length ≤ ((List.range w.slot).filter fun k => s.openSlot ⟨w.tile, k⟩).length)

/-- Whether a slot suits a record (13 R261). -/
def State.suits (s : State) (r : TaskRec) (w : Who) : Bool :=
  s.openSlot w && s.pastRunq w && (!r.wave || ((s.tile w.tile).positions w.slot).length == 1)

/-- The tile and slot the Hoist takes for a record (13 R261). -/
def State.choose (s : State) (cl : Nat) (r : TaskRec) : Option Who :=
  let ts := (s.tilesFor cl r).filter fun t => slotNums.any fun k => s.suits r ⟨t, k⟩
  (listMin (fun t => ((16 - s.idleSlots t) * 64 + s.rank t) * 4096 + t) ts).bind fun t =>
    ((slotNums.filter fun k => s.suits r ⟨t, k⟩).head?).map fun k => ⟨t, k⟩

/-- Records of a Hoist in the order it examines them: priority, then arrival (13 R261). -/
def hoistOrder (rs : List TaskRec) : List (Nat × TaskRec) :=
  let all := (List.range rs.length).filterMap fun i => (rs[i]?).map fun r => (i, r)
  [3, 2, 1, 0].flatMap fun p => all.filter fun e => e.2.prio == p

/-- A matrix step of a tile still has rows to process (09 R171). -/
def Tile.stepPending (t : Tile) : Bool :=
  t.slots.any fun e => e.2.pend.any fun p => match p.job with
    | .mstep .. => true
    | _ => false

/-- Nothing is moving between the array and the tile's memory. -/
def Tile.arrayQuiet (t : Tile) : Bool := !t.stepPending && t.mx.load.isNone

/-- Whether a removed task of a context has a thread on a tile (13 R271, R273). -/
def State.removedOn (s : State) (t ctx : Nat) : Bool :=
  ((s.tile t).slots ++ (s.tile t).spilled).any fun e => e.2.ctx == some ctx &&
    ((e.2.task.bind s.task?).map fun q => q.removed.isSome).getD false

/-- Whether a record of another context finds a tile's matrix state to be that of a removed task's context (13 R273). -/
def State.mxOfRemoved (s : State) (t ctx : Nat) : Bool :=
  match (s.tile t).mx.owner with
  | none => false
  | some c => c != ctx && s.removedOn t c

/-- The record a Hoist places next, by its place in the queue, with its slot: the first for which one exists (13 R261). One whose tile's
matrix state is to be saved waits while the array works (13 R273). -/
def State.hoistPick (s : State) (cl : Nat) : Option (Nat × TaskRec × Who) :=
  (hoistOrder (s.clu cl).hoist).findSome? fun e => (s.choose cl e.2).bind fun w =>
    if s.mxOfRemoved w.tile e.2.ctx && !(s.tile w.tile).arrayQuiet then none else some (e.1, e.2, w)

/-- Whether the Hoist takes a slot in this cycle: then neither a wave claim nor `tspn` does (02 R38; 06 R120; 10 R208). -/
def State.hoistTakes (s : State) (w : Who) : Bool :=
  let c := s.clu (s.cluster w.tile)
  !c.hoist.isEmpty && c.placedAt != s.now + 1 && c.pow == .on && ((s.hoistPick (s.cluster w.tile)).map fun p => p.2.2) == some w

/-- A slot that a wave claim or `tspn` may take: offered, and wanted by no migrating context and not by the Hoist (02 R38). -/
def State.spareSlot (s : State) (w : Who) : Bool := s.openSlot w && s.pastRunq w && !s.hoistTakes w

end Sys2Proof.Machine
end

