-- ==== Sys2Proof/Machine/Ops.lean ====
section
/-! DEFINITION. The shared operations of an instruction: taking a trap and returning from one (10 R210, R211), freezing
(21 R342), halting a wave (02 R36), the lookahead window (04 R67), and issue with its checks (22 R353). -/

namespace Sys2Proof.Machine

/-- What the body of an instruction comes to. -/
inductive Res where
  | ok (s : State)
  | jump (s : State) (target : Word)
  | stop (s : State)
  | wait (s : State) (why : Why)
  | trap (cause : Nat) (ev : Word)

/-- `ecause` of a cause with RE (10 Table 10.7). -/
def causeWord (cause : Nat) (re : Bool) : Word := wd (cause + if re then 2 ^ 31 else 0)

/-- TM of `estat`. -/
def Slot.tm (x : Slot) : Bool := x.estat.getLsbD 0

/-- Freezing a thread (21 R342, 22 R352): HALT, the registers of the trap, one record; TM stays. A thread of a context that dies is only
taken out of the rotation, as the teardown does, and the record written (21 R344). -/
def State.freeze (s : State) (w : Who) (cause : Nat) (ev pc : Word) (re : Bool) (enext : Word) : State :=
  let x := s.slot w
  let dying := (s.ctxOf (x.ctx.getD 0)).dying
  let s := s.modSlot w fun x =>
    if dying then { x with st := .out, outReq := false, why := .none, trapq := [], solo := false }
    else
      { x with st := .halt, frozen := true, outReq := false, why := .none, trapq := [], solo := false
               epc := pc, eval := ev, ecause := causeWord cause re, enext := enext }
  let addr := if causeClass cause = 1 then 0 else ev
  s.record { s.mkRec (causeClass cause) 2 1 (x.ctx.getD 0) w.tile w.slot cause addr ev pc with gen := x.gen.toNat }

/-- Taking a trap (10 R210): frozen when the cause freezes, `tvec` is 0 or TM is 1; otherwise the handler is entered.
`pc` is what `epc` receives; the value of a timer trap is `cyc` at entry (22 Table 22.2). -/
def State.enterTrap (s : State) (w : Who) (cause : Nat) (ev pc : Word) (re : Bool) (enext : Word) : State :=
  let x := s.slot w
  let ev := if cause = cTimer then s.cyc w.tile else ev
  if causeFreezes cause || x.tvec == 0 || x.tm then s.freeze w cause ev pc re enext
  else
    s.modSlot w fun x =>
      { x with st := if x.outReq then .out else .run, outReq := false, why := .none, trapq := [], solo := false
               epc := pc, enext := if re then enext else pc, ecause := causeWord cause re, eval := ev
               estat := x.estat ||| 1, pc := x.tvec
               tctl := if cause = cTimer then (x.tctl &&& ~~~1) ||| 2 else x.tctl }

/-- The members of a wave that have not left it, as (row, index). -/
def Wave.live (v : Wave) : List (Nat × Nat) :=
  ((List.range v.rows).flatMap fun j => (List.range v.len).map fun k => (j, k)).filter fun m => !v.gone.contains m

/-- The thread of a wave member (02 R28, R32; 06 R119). -/
def State.memberWho (s : State) (v : Wave) (m : Nat × Nat) : Who :=
  ⟨tileAt ((v.x0 + m.2) % 48) ((v.y0 + m.1) % s.caps.height), v.slot⟩

/-- A cut wave stops once every member has executed its index of the wavefront (02 R36): frozen with one record naming
the lowest (j, k) of a fault (22 R360), or OUT for a pre-emption. -/
def State.settleWave (s : State) (id : Nat) : State :=
  match s.wave? id with
  | none => s
  | some v =>
    match v.haltAt with
    | none => s
    | some front =>
      let done := v.live.all fun m =>
        match (s.slot (s.memberWho v m)).wave with
        | some r => decide (front ≤ r.idx + m.1 + m.2)
        | none => true
      if done = false then s
      else
        let s := v.live.foldl (fun s m => s.modSlot (s.memberWho v m) fun x =>
          if v.byFault then { x with st := .halt, frozen := true, why := .none } else { x with st := .out, why := .none }) s
        if v.byFault = false then s
        else
          match listMin (fun f => f.1 * 64 + f.2.1) v.faults with
          | none => s
          | some (j, k, cause) =>
            let w := s.memberWho v (j, k)
            let x := s.slot w
            let n := front - 1 - j - k
            let aux := wd (n * 2 ^ 32 + j * 2 ^ 20 + k * 2 ^ 14)
            let addr := if causeClass cause = 1 then 0 else x.eval
            s.record { s.mkRec (causeClass cause) 2 2 v.ctx w.tile w.slot cause addr aux x.epc with gen := x.gen.toNat }

/-- A fault of a wave member fixes the wavefront (02 R36, 22 R359): the member records its cause and executes no more. -/
def State.waveFault (s : State) (w : Who) (r : WaveRef) (cause : Nat) (ev pc : Word) : State :=
  match s.wave? r.id with
  | none => s
  | some v =>
    let front := r.idx + r.k + r.j
    let v := { v with
      haltAt := some (match v.haltAt with | some f => min f (front + 1) | none => front + 1)
      cutAt := s.now
      byFault := true
      faults := v.faults ++ [(r.j, r.k, cause)]
      stream := if r.k = 0 then listSet v.stream r.j (v.stream.getD r.j [] ++ [⟨pc, 0, false⟩]) else v.stream }
    let s := (s.setWave r.id v).modSlot w fun x =>
      { x with epc := pc, eval := ev, ecause := causeWord cause false, wave := some { r with idx := r.idx + 1 } }
    s.settleWave r.id

/-- A cause found as an instruction issues: entered at once when nothing earlier is pending, otherwise kept until the
earlier instructions settle (10 R210, 22 R356). -/
def State.raise (s : State) (w : Who) (cause : Nat) (ev pc : Word) : State :=
  let x := s.slot w
  match x.wave with
  | some r => s.waveFault w r cause ev pc
  | none =>
    if x.pend.isEmpty && x.vpend.isEmpty && x.trapq.isEmpty then
      (s.modSlot w fun x => { x with iseq := x.iseq + 1 }).enterTrap w cause ev pc x.solo (if x.solo then x.enext else pc)
    else
      s.modSlot w fun x =>
        { x with st := .wait, why := .trap, iseq := x.iseq + 1
                 trapq := x.trapq ++ [⟨x.iseq + 1, pc, cause, ev, false, x.lc0, x.lc1, x.solo⟩] }

/-- The trap taken once every earlier instruction has settled (22 R356, R357): the earliest fault F; RE when a later
instruction has taken effect; window-double when a later fault K was followed by an effect. A later fault is discarded: `eret` comes to
its instruction, whose loop-end decision is made again then (06 R117). -/
def State.settleTrap (s : State) (w : Who) : State :=
  let x := s.slot w
  match listMin (fun r => r.seq) x.trapq with
  | none => s
  | some f =>
    if x.pend.isEmpty = false ∨ x.vpend.isEmpty = false then s
    else
      let faulted := x.trapq.map fun r => r.seq
      let after (n : Nat) : List Nat := ((List.range (x.iseq + 1)).filter fun k => decide (n < k)) |>.filter fun k =>
        !faulted.contains k
      let later := listMin (fun r => r.seq) (x.trapq.filter fun r => decide (f.seq < r.seq))
      let re := f.re || !(after f.seq).isEmpty
      let counts (s : State) (r : TrapReq) : State := s.modSlot w fun x => { x with lc0 := r.lc0, lc1 := r.lc1 }
      let s := if re then later.elim s fun k => if (after k.seq).isEmpty then counts s k else s
        else if f.long then counts s f else s
      let enx := match later with
        | some k => if k.cause = cBreak ∨ k.cause = cSoftware then k.pc - 4 else k.pc
        | none => if x.solo then x.enext else x.pc
      match later with
      | some k =>
        if (after k.seq).isEmpty then s.enterTrap w f.cause f.ev f.pc re enx
        else s.enterTrap w cDouble k.pc f.pc re enx
      | none => s.enterTrap w f.cause f.ev f.pc re enx

/-- The registers a pending instruction writes (04 R67). -/
def Job.dests : Job → List Spec
  | .write d _ _ => if d.isPlainDst then [d] else []
  | .load d _ _ pair _ _ => if pair then [d, d.succ] else [d]
  | .amo d _ _ _ _ _ => if d.isPlainDst then [d] else []
  | .erd d _ _ => if d.isPlainDst then [d] else []
  | .lease f => [.f (BitVec.ofNat 2 f)]
  | .copy d _ _ _ => if d.isPlainDst then [d] else []
  | _ => []

/-- The vector register a pending instruction writes. -/
def Job.vdest : Job → Option Nat
  | .vload v _ _ => some v
  | .mrd v _ => some v
  | _ => none

/-- Whether a pending instruction still has a result to shift (03 R47). -/
def Job.shifts : Job → Bool
  | .write d _ _ => d.isPlainDst
  | .load _ _ _ _ _ _ => true
  | .erd d _ _ => d.isPlainDst
  | .amo d _ _ _ _ _ => d.isPlainDst
  | _ => false

/-- What an instruction names, and the classes its checks need. -/
structure Meta where
  g : Guard
  src : List Spec
  dst : List Spec
  vr : List Nat
  vw : List Nat
  waveOk : Bool
  deriving DecidableEq, Repr

/-- A guard that always holds. -/
def always : Guard := ⟨0, 0⟩

/-- A positive guard of the M and X formats (04 R64). -/
def onP (p : BitVec 3) : Guard := ⟨0, p⟩

/-- Scalar instruction metadata. -/
def Meta.of (g : Guard) (src dst : List Spec) : Meta := ⟨g, src, dst, [], [], true⟩

/-- The same for an instruction the wave classes exclude (02 Table 2.5). -/
def Meta.solo (g : Guard) (src dst : List Spec) : Meta := ⟨g, src, dst, [], [], false⟩

def isQF : Spec → Bool
  | .q _ | .f _ => true
  | _ => false

def isQ : Spec → Bool
  | .q _ => true
  | _ => false

def isN : Spec → Bool
  | .n _ => true
  | _ => false

def isL : Spec → Bool
  | .l _ => true
  | _ => false

/-- What the lookahead windows of the thread say of an instruction (04 R67); in a wave `la` is ignored (02 R34). Of several pending
instructions whose windows it violates, `eval` names the first in program order: DESIGN CHOICE, the manual names one only (log 95). -/
inductive Window where
  | free
  | wait
  | bad (pc : Word)
  deriving DecidableEq, Repr

def Slot.window (x : Slot) (m : Meta) : Window :=
  let n := x.iseq + 1
  if x.inWave then .free
  else if x.pend.any fun p => decide (p.seq + p.la < n) then .wait
  else
    match x.pend.find? fun p =>
      (p.job.dests.any fun d => d != .z && (m.src.contains d || m.dst.contains d)) ||
      (match p.job.vdest with
        | some v => m.vr.contains v || m.vw.contains v
        | none => false) ||
      (p.job.shifts && m.src.any isL) with
    | some p => .bad p.pc
    | none => .free

/-- The instruction word of an instruction, for `eval`. -/
def wordOf (i : Instr) : Word :=
  match encode i with
  | some v => v.setWidth 64
  | none => 0

/-- `wleave`, which only a wave may issue (06 R121). -/
def isWleave : Instr → Bool
  | .wleave _ _ => true
  | _ => false

/-- The words and cause of R353 step 4, checked whatever the guard holds (22 R354). -/
def State.staticCheck (s : State) (w : Who) (i : Instr) (m : Meta) : Option (Nat × Word) :=
  let x := s.slot w
  if x.inWave = false && m.src.any isN then some (cWaveOnly, wordOf i)
  else if x.inWave = false && isWleave i then some (cWaveIllegal, wordOf i)
  else if x.inWave && (!m.waveOk || m.src.any isQF || m.dst.any isQF) then some (cWaveIllegal, wordOf i)
  else
    match x.window m with
    | .bad pc => some (cLookahead, pc)
    | _ => none

/-- Whether a member of a wave has executed its last index (02 R35; 06 R121, R122). -/
def WaveRef.left (r : WaveRef) : Bool := match r.leaveAt with
  | some m => decide (m < r.idx)
  | none => false

/-- A member that has executed its last index leaves its wave once what it has issued is complete (02 R35; 06 R121, R122). -/
def State.leaveDone (s : State) (w : Who) : State :=
  match (s.slot w).wave with
  | some r => if r.left && (s.slot w).pend.isEmpty && (s.slot w).vpend.isEmpty then (s.memberGone w).settleWave r.id else s
  | none => s

/-- A thread's instruction has taken its place: counted, and in a wave passed on to the row (02 R30, R31). A member
whose `wleave` index is past leaves (02 R35). -/
def State.passIndex (s : State) (w : Who) (i : Instr) (taken : Bool) (pc : Word) : State :=
  match (s.slot w).wave with
  | none => s
  | some r =>
    match s.wave? r.id with
    | none => s
    | some v =>
      let v := if r.k = 0 then
          { v with stream := listSet v.stream r.j (v.stream.getD r.j [] ++ [⟨pc, wordOf i, taken⟩]) }
        else v
      let s := ((s.setWave r.id v).modSlot w fun x => { x with wave := some { r with idx := r.idx + 1 } }).leaveDone w
      s.settleWave r.id

/-- The thread goes on after an instruction: at a target, at the continuation of `eret`, or where the loop-end decision
leads (06 R117, 10 R211). -/
def State.advance (s : State) (w : Who) (i : Instr) (taken : Bool) (target : Option Word) (pc0 : Word) : State :=
  let x := s.slot w
  if x.isMember then (s.modSlot w fun x => { x with iseq := x.iseq + 1 }).passIndex w i taken pc0
  else
    let s := s.modSlot w fun x =>
      let x := { x with iseq := x.iseq + 1, st := .run, why := .none }
      if x.solo then { x with solo := false, pc := x.enext }
      else
        match target with
        | some t => { x with pc := t }
        | none =>
          let r := x.loopEnd pc0
          { r.1 with pc := r.2 }
    s.passIndex w i taken pc0

/-- A wave member issues its next index in the one cycle that is its own, when the row holds that index, and not past the
wavefronts that the wave completes nor past its own last index (02 R31, R32, R35, R36, R43; log 13). -/
def State.waveDue (s : State) (x : Slot) : Bool :=
  match x.wave with
  | none => true
  | some r =>
    match s.wave? r.id with
    | none => true
    | some v =>
      let front := r.idx + r.k + r.j
      !r.left && decide (v.t0 + 16 * front = s.now) && decide (r.k = 0 ∨ r.idx < (v.stream.getD r.j []).length) &&
        (match v.haltAt with
          | some f => decide (front < f)
          | none => true)

/-- Whether a `ckpt` of a thread's context is being written on its tile: then no other thread of the context issues
there (10 R215). -/
def Tile.ckptHolds (t : Tile) (k : Nat) : Bool :=
  t.slots.any fun e => e.1 != k && e.2.st == .wait && e.2.why == .ckpt && e.2.op.isSome && e.2.ctx == (t.slot k).ctx

/-- A slot that may issue: RUN or a member, on a tile that runs (02 R21). -/
def State.canIssue (s : State) (w : Who) : Bool :=
  let x := s.slot w
  let t := s.tile w.tile
  (x.st == .run || x.st == .member) && x.trapq.isEmpty && !t.stopped && !t.vacant && x.claimed.isNone &&
    s.waveDue x && !t.ckptHolds w.slot &&
    (match t.move with
      | some m => m.phase == .precopy
      | none => true)

/-- Waits a thread makes before an instruction whose guard holds: status destinations of copies and vector registers
of pending vector instructions (07 R145, 08 R153). -/
def Slot.hazard (x : Slot) (m : Meta) : Option Why :=
  if x.scoreboard.any fun d => m.src.contains d || m.dst.contains d then some .scoreboard
  else if x.vpend.any fun p =>
      (p.writes.any fun q => m.vr.contains q.1 || m.vw.contains q.1) || (p.reads.any fun r => m.vw.contains r) then
    some .vector
  else none

/-- Issue of one instruction of the thread whose turn it is (22 R353, R354): the checks on the word, the windows, the
guard, then the body. A wait in wave mode is an overrun (02 R34, 09 R192). -/
def State.issue (s : State) (i : Instr) (m : Meta) (body : State → Who → Res) : State :=
  let w := s.focus
  let x := s.slot w
  let pc0 := x.pc
  if s.canIssue w = false then s
  else
    match s.staticCheck w i m with
    | some (c, ev) => if x.window m = .wait then s.modSlot w fun x => { x with st := .wait, why := .lookahead } else s.raise w c ev pc0
    | none =>
      if x.window m = .wait then s.modSlot w fun x => { x with st := .wait, why := .lookahead }
      else if x.guardHolds m.g = false then s.advance w i false none pc0
      else
        if x.red.isSome && (m.src.any isQ || m.dst.any isQ) then s.raise w cRedundancy (wordOf i) pc0
        else match x.hazard m with
        | some y =>
          if x.inWave then s.raise w cOverrun (wordOf i) pc0 else s.modSlot w fun x => { x with st := .wait, why := y }
        | none =>
          match body s w with
          | .ok s' => s'.advance w i true none pc0
          | .jump s' t => s'.advance w i true (some t) pc0
          | .stop s' => s'
          | .wait s' y =>
            if x.inWave then s.raise w cOverrun (wordOf i) pc0
            else s'.modSlot w fun x => { x with st := .wait, why := y }
          | .trap c ev => s.raise w c ev (if c = cBreak ∨ c = cSoftware then pc0 + 4 else pc0)

/-- A long-latency instruction joins the pending ones of its thread (04 R66), holding its last-result shift in program
order (03 R47); `mids` are the cycles from which the parts of an access act at their places. -/
def State.addPendAt (s : State) (w : Who) (i : Instr) (la : BitVec 4) (job : Job) (due : Nat) (mids : List Nat) : State :=
  let k := (s.tile w.tile).stamp
  let pt := s.phys w.tile
  let vers := (s.tile w.tile).mx.bndVer.toList
  (s.modTile w.tile fun t => { t with stamp := k + 1 }).modSlot w fun x =>
    { x with
      pend := x.pend ++ [⟨x.iseq + 1, k, la.toNat, x.pc, wordOf i, job, due, x.lc0, x.lc1, x.solo, [], mids, pt, vers⟩]
      lq := if job.shifts then x.lq ++ [⟨x.iseq + 1, none⟩] else x.lq }

/-- The same for an instruction that is no memory access. -/
def State.addPend (s : State) (w : Who) (i : Instr) (la : BitVec 4) (job : Job) (due : Nat) : State :=
  s.addPendAt w i la job due []

/-- A pending instruction of a thread. -/
def Slot.pend? (x : Slot) (seq : Nat) : Option Pend := x.pend.find? fun p => p.seq == seq

/-- A pending instruction whose cycle has come: no completion is sooner than the unloaded figure (11 R217). -/
def Slot.ripe (x : Slot) (now seq : Nat) : Option Pend := (x.pend? seq).filter fun p => decide (p.due ≤ now)

/-- The pending instruction is complete: it leaves the list (04 Table 4.3). -/
def Slot.dropPend (x : Slot) (seq : Nat) : Slot := { x with pend := x.pend.filter fun p => p.seq != seq }

/-- Results of a pending instruction reach their destinations; those of g, o and z are shifted in program order
(03 R46, R47). -/
def State.landResult (s : State) (w : Who) (seq : Nat) (ds : List (Spec × Word)) : State :=
  let plain := ds.filter fun d => d.1.isPlainDst
  let s := (ds.filter fun d => !d.1.isPlainDst).foldl (fun s d => s.writeSpecAt w seq d.1 d.2) s
  s.modSlot w fun x =>
    let x := plain.foldl (fun x d => x.setReg d.1 d.2) x
    if plain.isEmpty then x else x.settleL s.now seq (plain.map fun d => d.2)

/-- Whether the queues and engines a pending instruction writes can take its results (03 R46). -/
def State.landReady (s : State) (w : Who) (seq : Nat) (ds : List Spec) : Bool :=
  ds.all fun d => match s.dstReadyAt w seq d with
    | .ok _ => true
    | _ => false

/-- A pending instruction faults (04 R68): it leaves the list, its shift is dropped, and its cause waits for entry. -/
def State.lateFault (s : State) (w : Who) (p : Pend) (cause : Nat) (ev : Word) : State :=
  s.modSlot w fun x =>
    let x := (x.dropPend p.seq)
    let r := drainL s.now (x.lq.filter fun e => e.seq != p.seq) x
    { r.1 with lq := r.2, st := .wait, why := .trap, outReq := r.1.outReq || r.1.st == .out
               trapq := x.trapq ++ [⟨p.seq, p.pc, cause, ev, true, p.lc0, p.lc1, p.re⟩] }

/-- The trap a send of a late result takes, as on a route changed in the window of its instruction (07 R137). -/
def State.landTrap (s : State) (w : Who) (seq : Nat) (ds : List Spec) : Option (Nat × Word) :=
  ds.findSome? fun d => match s.dstReadyAt w seq d with
    | .trap c e => some (c, e)
    | _ => none

/-- Results of a pending instruction that completes: they reach their destinations, wait for them, or take their trap. -/
def State.land (s : State) (w : Who) (p : Pend) (rs : List (Spec × Word)) (f : Slot → Slot) : State :=
  if s.landReady w p.seq (rs.map fun r => r.1) then (s.landResult w p.seq rs).modSlot w fun x => f (x.dropPend p.seq)
  else match s.landTrap w p.seq (rs.map fun r => r.1) with
    | some (c, e) => s.lateFault w p c e
    | none => s

/-- Waiting until every earlier instruction of the thread has completed (10 R213). -/
def Slot.settled (x : Slot) : Bool := x.pend.isEmpty && x.vpend.isEmpty

/-- The same with the status destinations of copies (02 R41; 06 R119, R122, R123). -/
def Slot.settledCopies (x : Slot) : Bool := x.settled && x.scoreboard.isEmpty

/-- Returning from a trap (10 R211). -/
def State.returnTrap (s : State) (w : Who) : State :=
  s.modSlot w fun x =>
    let re := x.ecause.getLsbD 31
    { x with estat := x.estat &&& ~~~1, st := .run, why := .none, iseq := x.iseq + 1
             solo := re, pc := x.epc }

/-- An instruction with scalar sources and one destination: operands once, one result (04 Table 4.10). -/
def State.scalarOp (s : State) (w : Who) (src : List Spec) (d : Spec) (f : List Word → Word) : Res :=
  match s.operands w src [d] with
  | .ok (vs, s') => .ok (s'.writeSpec w d (f vs))
  | .wait y => .wait s y
  | .trap c e => .trap c e

/-- Operands of an instruction that writes no scalar. -/
def State.withSrc (s : State) (w : Who) (src : List Spec) (f : List Word → State → Res) : Res :=
  match s.operands w src [] with
  | .ok (vs, s') => f vs s'
  | .wait y => .wait s y
  | .trap c e => .trap c e

/-- The n-th operand value. -/
def argN (vs : List Word) (n : Nat) : Word := vs.getD n 0

end Sys2Proof.Machine
end

