-- ==== Sys2Proof/Machine/Control.lean ====
section
/-! DEFINITION. Branches, jumps, hardware loops, `brk`, and the wave and task instructions (06 R114 to R122, R124). -/

namespace Sys2Proof.Machine

/-- Branch target: address + 4 x sext(off22) (04 R65). -/
def branchTarget (pc : Word) (off : BitVec 22) : Word := pc + (off.signExtend 64 <<< 2)

/-- `b` (06 R114); at a wave member it only occupies the index (06 Table 6.8). -/
def execB (p : BitVec 3) (sense : BitVec 1) (off : BitVec 22) (s : State) : Host.Outcome State Fault Refusal :=
  .next (s.issue (.b p sense off) (Meta.of ⟨sense, p⟩ [] []) fun s w =>
    let x := s.slot w
    if x.isMember then .ok s else .jump s (branchTarget x.pc off))

/-- `bl`: also g15 := the branch address + 4, shifted into l0 (06 R114). -/
def execBl (p : BitVec 3) (sense : BitVec 1) (off : BitVec 22) (s : State) : Host.Outcome State Fault Refusal :=
  .next (s.issue (.bl p sense off) (Meta.of ⟨sense, p⟩ [] [.g 15]) fun s w =>
    let x := s.slot w
    if x.isMember then .ok s else .jump (s.writeSpec w (.g 15) (x.pc + 4)) (branchTarget x.pc off))

/-- `jr` (06 R115): a misaligned target takes the fetch-alignment trap. -/
def execJr (a : Spec) (g : Guard) (s : State) : Host.Outcome State Fault Refusal :=
  .next (s.issue (.jr a g) (Meta.of g [a] []) fun s w =>
    if (s.slot w).isMember then .ok s
    else s.withSrc w [a] fun vs s' =>
      let t := argN vs 0
      if t.toNat % 4 ≠ 0 then .trap cFetchAlign t else .jump s' t)

/-- `jlr`: d := its own address + 4 after A is read (06 R115). -/
def execJlr (d a : Spec) (g : Guard) (s : State) : Host.Outcome State Fault Refusal :=
  .next (s.issue (.jlr d a g) (Meta.of g [a] [d]) fun s w =>
    let x := s.slot w
    if x.isMember then .ok s
    else
      match s.operands w [a] [d] with
      | .ok (vs, s') =>
        let t := argN vs 0
        if t.toNat % 4 ≠ 0 then .trap cFetchAlign t else .jump (s'.writeSpec w d (x.pc + 4)) t
      | .wait y => .wait s y
      | .trap c e => .trap c e)

/-- `brk n`: the breakpoint trap (06 R118). -/
def execBrk (n : BitVec 6) (g : Guard) (s : State) : Host.Outcome State Fault Refusal :=
  .next (s.issue (.brk n g) (Meta.solo g [] []) fun _ _ => .trap cBreak (n.setWidth 64))

/-- Opening a loop level (06 R116). -/
def openLoop (s : State) (w : Who) (count : Word) (eo : BitVec 14) : Res :=
  let x := s.slot w
  let e := x.pc + 4 * eo.setWidth 64
  if x.isMember then .ok s
  else if count = 0 then .jump s (e + 4)   -- a transfer: no loop-end decision is made, even at an active level's end (log 74)
  else if x.lc0 = 0 then .ok (s.modSlot w fun x => { x with ls0 := x.pc + 4, le0 := e, lc0 := count })
  else if x.lc1 = 0 ∧ e ≤ x.le0 then .ok (s.modSlot w fun x => { x with ls1 := x.pc + 4, le1 := e, lc1 := count })
  else .trap cLoopNest e

/-- `loop a` (06 R116). -/
def execLoop (c : Spec) (eo : BitVec 14) (s : State) : Host.Outcome State Fault Refusal :=
  .next (s.issue (.loop c eo) (Meta.of always [c] []) fun s w =>
    if (s.slot w).isMember then .ok s else s.withSrc w [c] fun vs s => openLoop s w (argN vs 0) eo)

/-- `loopi n` (06 R116). -/
def execLoopi (n : BitVec 12) (eo : BitVec 14) (s : State) : Host.Outcome State Fault Refusal :=
  .next (s.issue (.loopi n eo) (Meta.of always [] []) fun s w => openLoop s w (n.setWidth 64) eo)

/-- The tile number of a wave-join trap's value: Y in [21:16], X in [5:0] (22 Table 22.2). -/
def tileWord (t : Nat) : Word := wd (ty t * 2 ^ 16 + tx t)

/-- Members of a sheet at a tile: (j, k), tile (06 R119). -/
def State.runOf (s : State) (t l rows : Nat) : List (Nat × Nat × Nat) :=
  (List.range rows).flatMap fun j => (List.range l).map fun k =>
    (j, k, tileAt ((tx t + k) % 48) ((ty t + j) % s.caps.height))

/-- Whether a slot holds the phase h and nothing else, also under a table its tile has accepted (02 R29; log 73). -/
def Tile.holdsPhase (t : Tile) (slot h : Nat) : Bool :=
  t.positions slot == [h] && (match t.rotNext with
    | some (_, new) => positionsIn new slot == [h]
    | none => true)

/-- A tile whose threads may run. -/
def Tile.running (t : Tile) : Bool := !t.stopped && !t.vacant && (match t.move with
  | some m => m.phase == .precopy
  | none => true)

/-- Whether a slot may be claimed by a join of phase h (06 R119, R120), or, once claimed, bound by it: on a tile that runs (log 91). -/
def State.claimable (s : State) (u : Who) (h : Nat) (by_ : Option Who) : Bool :=
  let x := s.slot u
  x.st == .idle && x.claimed == by_ && (by_.isSome || s.spareSlot u) && (s.tile u.tile).holdsPhase u.slot h && (s.tile u.tile).running

/-- The first tile a join is refused for, or the issuer's own where L, the rows or the issuer's positions are wrong
(06 R119; log 18). -/
def State.joinRefusal (s : State) (w : Who) (l rows : Nat) (by_ : Option Who) : Option Nat :=
  match (s.tile w.tile).positions w.slot with
  | [h] =>
    if l = 0 ∨ 48 < l ∨ rows = 0 ∨ s.caps.height < rows ∨ (s.tile w.tile).holdsPhase w.slot h = false then some w.tile
    else (s.runOf w.tile l rows).findSome? fun m =>
      if m.2.2 = w.tile then none else if s.claimable ⟨m.2.2, w.slot⟩ h by_ then none else some m.2.2
  | _ => some w.tile

/-- `wjoin` (06 R119): waits for the earlier instructions, checks, claims, and waits in WAIT for the commit. -/
def execWjoin (a b : Spec) (g : Guard) (s : State) : Host.Outcome State Fault Refusal :=
  .next (s.issue (.wjoin a b g) (Meta.solo g [a, b] []) fun s w =>
    let x := s.slot w
    if x.red.isSome then .trap cRedundancy (wordOf (.wjoin a b g))
    else if x.join.isSome then .wait s .claim
    else if x.settledCopies = false then .wait s .earlier
    else s.withSrc w [a, b] fun vs _ =>
      let l := (argN vs 0).toNat
      let rows := if b = .z ∨ argN vs 1 = 0 then 1 else (argN vs 1).toNat
      match s.joinRefusal w l rows none with
      | some t => .trap cWaveJoin (tileWord t)
      | none =>
        let s := (s.runOf w.tile l rows).foldl (fun s m =>
          if m.2.2 = w.tile then s else s.modSlot ⟨m.2.2, w.slot⟩ fun y => { y with claimed := some w }) s
        .wait (s.modSlot w fun x =>
          { x with join := some (l, rows, [a, b]), waitUntil := some (s.now + 40 + 4 * (l + rows)) }) .claim)

/-- A claimed slot bound to the wave: tag, g0 to g15 and predicates of the issuer, the rest zeroed (06 R119). -/
def Slot.joined (y x : Slot) (r : WaveRef) (now : Nat) : Slot :=
  let z := { y with gen := y.gen + 1 }.fresh (x.ctx.getD 0) now
  { z with
    g := Vector.ofFn fun i => if i.val < 16 then vget x.g i.val 0 else 0
    p := x.p, pc := x.pc + 4, ctx := x.ctx, task := x.task, wave := some r
    st := if r.k = 0 then .run else .member }

/-- Cycles to the next occurrence of a position on a tile, at least 1 (02 R22). -/
def State.untilPos (s : State) (t h : Nat) : Nat :=
  let d := (h + 16 - s.posOf t) % 16
  if d = 0 then 16 else d

/-- Whether a `ckpt` of the context holds a slot of the run: then the wave is formed after it (10 R215). -/
def State.joinHeld (s : State) (w : Who) (l rows : Nat) : Bool :=
  (s.runOf w.tile l rows).any fun m => (s.tile m.2.2).slots.any fun e =>
    e.2.st == .wait && e.2.why == .ckpt && e.2.op.isSome && e.2.ctx == (s.slot w).ctx

/-- WJOIN_COMMIT (06 R119, R120): every claim acknowledged, the wave is formed; a claim that no longer holds releases
all and traps. -/
def execWjoinCommit (w : Who) (s : State) : Host.Outcome State Fault Refusal :=
  .next <|
    let x := s.slot w
    match x.join with
    | none => s
    | some (l, rows, src) =>
      if x.st ≠ .wait ∨ x.why ≠ .claim ∨ s.joinHeld w l rows = true then s
      else
        match s.joinRefusal w l rows (some w) with
        | some t =>
          let s := (s.dropClaims w).modSlot w fun x => { x with join := none, waitUntil := none }
          s.raise w cWaveJoin (tileWord t) x.pc
        | none =>
          match s.readSpecs w src [] with
          | .ok (_, s) =>
            let id := s.nextWave
            let h := ((s.tile w.tile).positions w.slot).headD 0
            let v : Wave :=
              { slot := w.slot, task := x.task, ctx := x.ctx.getD 0, x0 := tx w.tile, y0 := ty w.tile, len := l
                rows := rows, t0 := s.now + s.untilPos w.tile h, stream := List.replicate rows []
                haltAt := none, cutAt := 0, byFault := false, faults := [], gone := [] }
            let s := (s.runOf w.tile l rows).foldl (fun s m =>
              if m.2.2 = w.tile then s
              else (s.modSlot ⟨m.2.2, w.slot⟩ fun y => y.joined x ⟨id, m.2.1, m.1, 0, none⟩ s.now).beginThread ⟨m.2.2, w.slot⟩) s
            let s := (s.setWave id v).modSlot w fun x => { x with join := none, waitUntil := none }
            let s := s.advance w (.wsafe always) true none x.pc
            { s.modSlot w fun x => { x with wave := some ⟨id, 0, 0, 0, none⟩ } with nextWave := id + 1 }
          | _ => s

/-- `wleave a` (06 R121): outside a wave the wave-illegal trap; a row head ignores it; a member leaves after index
max(m, n). -/
def execWleave (a : Spec) (g : Guard) (s : State) : Host.Outcome State Fault Refusal :=
  .next (s.issue (.wleave a g) (Meta.of g [a] []) fun s w =>
    match (s.slot w).wave with
    | none => .trap cWaveIllegal (wordOf (.wleave a g))
    | some r => s.withSrc w [a] fun vs s =>
        if r.k = 0 then .ok s
        else .ok (s.modSlot w fun x => { x with wave := some { r with leaveAt := some (max (argN vs 0).toNat r.idx) } }))

/-- Whether the head's guard held at the index a member is at (06 R122). -/
def State.headTook (s : State) (r : WaveRef) : Bool :=
  match s.wave? r.id with
  | some v => (((v.stream.getD r.j [])[r.idx]?).map fun e => e.taken).getD false
  | none => false

/-- `wwork` in a wave: passed down the row; the member that executes it enters IDLE, once what it has issued is complete
(06 R122; 02 R34). -/
def State.waveWork (s : State) (w : Who) (r : WaveRef) (g : Guard) : State :=
  let pc := (s.slot w).pc
  match s.wave? r.id with
  | none => s
  | some v =>
    let v := if r.k = 0 then
        { v with stream := listSet v.stream r.j (v.stream.getD r.j [] ++ [⟨pc, wordOf (.wwork g), true⟩]) }
      else v
    (((s.setWave r.id v).modSlot w fun x => { x with wave := some { r with idx := r.idx + 1, leaveAt := some r.idx } }).leaveDone w).settleWave
      r.id

/-- `wwork` (06 R122): outside a wave it waits for the earlier instructions and, in the task's own thread, for every
auxiliary (10 R208), then ends the thread; in a wave the head's guard decides. -/
def execWwork (g : Guard) (s : State) : Host.Outcome State Fault Refusal :=
  let g' := if s.cur.isMember then always else g
  .next (s.issue (.wwork g) (Meta.of g' [] []) fun s w =>
    let x := s.slot w
    match x.wave with
    | some r => if r.k ≠ 0 ∧ s.headTook r = false then .ok s else .stop (s.waveWork w r g)
    | none =>
      if x.settledCopies = false then .wait s .earlier
      else
        let aux := ((x.task.bind s.task?).map fun q => q.auxes).getD 0
        if x.aux = false ∧ aux ≠ 0 then .wait s .earlier else .stop (s.endThread w))

end Sys2Proof.Machine
end

