-- ==== Sys2Proof/Machine/Teardown.lean ====
section
/-! DEFINITION. Teardown of a context and quarantine of pages (21 R343 to R345), and uncorrectable errors that are not
pinned (21 R339; 23 R362, R363). -/

namespace Sys2Proof.Machine

/-- Step 1 of Table 21.5, at detection: the launch queue is emptied, and one record with OUTCOME TORNDOWN is written
for a fault. A context already dying only gains the record (21 R344). -/
def State.startTeardown (s : State) (ctx : Nat) (r : Option FaultRec) : State :=
  let s := match r with
    | some r => s.record { r with ctx := ctx, outcome := 3 }
    | none => s
  if (s.ctxOf ctx).isOpen then
    s.modCtx ctx fun c => { c with queue := [], dying := true, since := if c.dying then c.since else s.now }
  else s

/-- Contexts charged with an error at a physical address: the page's owner, or every context that maps it where a REPL
or MOD page does (21 R339; 23 R363). -/
def State.chargedAt (s : State) (pa : Nat) : List Nat :=
  let ps := s.pages.filter fun p => decide (p.pa ≤ pa ∧ pa < p.pa + 2 ^ p.lg) &&
    (match p.plc with
      | .pod _ => false
      | _ => true)
  if ps.any (fun p => p.plc != .home) then (ps.map fun p => p.ctx).eraseDups else (ps.map fun p => p.ctx).take 1

/-- The home slice of a line, by the placement of the page that holds it (11 R227, R229). -/
def State.sliceOf (s : State) (pa : Nat) : Nat :=
  match s.pages.find? fun p => decide (p.pa ≤ pa ∧ pa < p.pa + 2 ^ p.lg) && (match p.plc with
    | .pod _ => false
    | _ => true) with
  | some p => s.homeOf p.plc pa
  | none => s.homeSlice pa

/-- A page taken from every context and every export table, in units of 64 KiB (21 R345). -/
def State.quarantinePage (s : State) (pa : Nat) : State :=
  let hit (p : Page) : Bool := decide (p.pa ≤ pa ∧ pa < p.pa + 2 ^ p.lg) &&
    (match p.plc with
      | .pod _ => false
      | _ => true)
  let all := match listMin (fun p => 64 - p.lg) (s.pages.filter hit) with
    | some p => (List.range (2 ^ (p.lg - 16))).map fun k => p.pa / 65536 + k
    | none => []
  let all := (all.filter fun n => n != pa / 65536) ++ [pa / 65536]
  { s with
    pages := s.pages.filter fun p => !hit p
    exports := s.exports.filter fun n => !all.contains n
    quarantine := s.quarantine ++ all.filter fun n => !s.quarantine.contains n
    tiles := s.tiles.map fun e => (e.1, { e.2 with tlb := e.2.tlb.filter fun p => !hit p })
    slabs := s.slabs.map fun e => (e.1, { e.2 with lltlb := e.2.lltlb.filter fun p => !hit p }) }

/-- An uncorrectable error that is not pinned, at a physical address: teardown of every context charged, each with a record,
and quarantine of the page (23 R363). -/
def State.lineError (s : State) (cls cause pa : Nat) : State :=
  let s := (s.chargedAt pa).foldl (fun s c =>
    s.startTeardown c (some { s.mkRec cls 3 0 c 0 0 cause (wd pa) 0 0 with slab := s.sliceOf pa / 4, ptile := 0, cyc := s.now })) s
  s.quarantinePage pa

/-- An error in HBM or a dirty line, MEMDATA 0x0005 (23 R363). -/
def State.memoryError (s : State) (pa : Nat) : State := s.lineError 3 5 pa

/-- The granule at a physical address poisoned, and the error that comes with it (23 R363, Table 23.2). -/
def State.poisonGranule (s : State) (pa : Nat) : State :=
  ({ s with poison := if s.poison.contains (pa / 32) then s.poison else s.poison ++ [pa / 32] } : State).memoryError pa

/-- A correctable error of HBM counted, with its record (23 R363). -/
def State.correctHbm (s : State) (pa : Nat) : State :=
  let stack := pa / 2 ^ 36
  let s : State := { s with hbmCorr := kvSet s.hbmCorr stack (kvGet s.hbmCorr stack 0 + 1) }
  s.record { s.mkRec 3 0 0 0 0 0 1 (wd pa) 0 0 with slab := s.sliceOf pa / 4, ptile := 0, cyc := s.now }

/-- An access that meets a poisoned word returns and writes nothing; the error takes its course (23 R363). -/
def State.poisonHit (s : State) (ps : List Part) : State :=
  ps.foldl (fun s p => match p.loc with
    | .hbm pa => if s.poison.any fun g => decide (g * 32 < pa + p.len) && decide (pa < g * 32 + 32) then s.memoryError pa
        else s
    | _ => s) s

/-- A thread of a torn-down context discarded: tag up by one, IDLE, bindings freed (21 Table 21.5 steps 2 and 4). -/
def State.discardThread (s : State) (w : Who) : State :=
  (((s.dropClaims w).freeAll w).vacate w).modSlot w fun x => { x with gen := x.gen + 1, pend := [], vpend := [], scoreboard := [], join := none }

/-- Wakes asked for the enabled bands whose rails are down (09 R177). -/
def State.wakeBands (s : State) (t : Nat) : State :=
  let m := (s.tile t).mx
  let slab := s.slabOf t
  let want := (List.range 4).filter fun b =>
    bitOf m.mshp.toNat b && !m.rails.getLsbD b && !m.wakes.getLsbD b
  want.foldl (fun s b =>
    (s.modMx t fun m => { m with wakes := m.wakes ||| (1 <<< b) }).modSlab slab fun l =>
      { l with wakes := l.wakes ++ [⟨.band t b, 2, s.now, none⟩] }) s

/-- A tile after a teardown: copies, reservations, matrix state and sett entries of the context gone (21 Table 21.5 steps 3 and 5), and with
the last of its contexts the words it held with an error; the power of the bands is no matrix state of a context. -/
def Tile.withoutCtx (t : Tile) (ctx : Nat) : Tile :=
  Tile.withoutImage { t with
    poison := if t.contexts.all fun c => c == ctx then [] else t.poison
    runq := t.runq.filter fun m => m.ctx != ctx
    chan := t.chan.map fun c =>
      { chains := c.chains.filter fun h => h.ctx != ctx, frozen := c.frozen.filter fun k => k != ctx }
    resv := t.resv.filter fun r => r.ctx != ctx
    lastResv := ((t.resv.filter fun r => r.ctx == ctx).map fun r => (r.ctx, r.off, r.len)) ++ t.lastResv
    mx := if t.mx.owner = some ctx then { Matrix.cold with rails := t.mx.rails, wakes := t.mx.wakes, bndVer := t.mx.bndVer } else t.mx
    savedMx := t.savedMx.filter fun m => m.owner != some ctx
    ring := t.ring.filter fun m => m.ctx != ctx
    ringH := t.ringH.filter fun h => h.ctx != ctx } ctx

/-- Threads of a context in their slots. -/
def State.ctxThreads (s : State) (ctx : Nat) : List Who :=
  s.tiles.flatMap fun e => (e.2.slots.filter fun x => x.2.ctx == some ctx).map fun x => ⟨e.1, x.1⟩

/-- Steps 2 to 8 of Table 21.5. -/
def State.teardown (s : State) (ctx : Nat) : State :=
  let s := (s.tiles.map fun e => e.1).foldl (fun s t => s.dropSpilled t fun x => x.ctx == some ctx) s
  let s := (s.ctxThreads ctx).foldl (fun s w => s.discardThread w) s
  let s := (s.tasks.filter fun e => e.2.r.ctx == ctx && e.2.due.isSome).foldl (fun s e =>
    s.modSlot ⟨e.2.tile, e.2.slot⟩ fun x => { x with claimed := none }) s
  let s := s.tiles.foldl (fun s e => (e.2.ring.filter fun m => m.ctx == ctx).foldl (fun s m => s.spoil e.1 m) s) s
  let woken := (s.tiles.filter fun e => e.2.mx.owner == some ctx).map fun e => e.1
  let zero := (s.pages.filter fun p => p.ctx == ctx &&
    (match p.plc with
      | .pod _ => false
      | _ => true) &&
    !(s.pages.any fun q => q.ctx != ctx && (s.ctxOf q.ctx).isOpen &&
        decide (q.pa < p.pa + 2 ^ p.lg ∧ p.pa < q.pa + 2 ^ q.lg)))
  let kept := s.hbm.filter fun (c : Host.Cell) => !(zero.any fun p => decide (p.pa ≤ c.1 ∧ c.1 < p.pa + 2 ^ p.lg))
  let s : State := { s with
    tiles := s.tiles.map fun e => (e.1, e.2.withoutCtx ctx)
    waves := s.waves.filter fun e => e.2.ctx != ctx
    tasks := s.tasks.filter fun e => e.2.r.ctx != ctx
    retAdds := s.retAdds.filter fun r => r.ctx != ctx
    reds := s.reds.filter fun e => e.2.ctx != ctx
    fan := match s.fan with
      | some f => if bits (f.words.getD 0 0).toNat 63 52 = ctx then none else some f
      | none => none
    clusters := s.clusters.map fun e => (e.1, { e.2 with
      engines := e.2.engines.map fun g => { g with frozen := g.frozen.filter fun k => k != ctx }
      owl := e.2.owl.filter fun j => j.ctx != ctx
      hoist := e.2.hoist.filter fun r => r.ctx != ctx })
    pods := s.pods.filter fun f => f.ctx != ctx
    stores := s.stores.filter fun e => e.ctx != ctx
    rings := s.rings.map fun e =>
      if bits e.2.cfg.toNat 63 52 = ctx then (e.1, { e.2 with cfg := e.2.cfg &&& ~~~(0x100000000 : Word) }) else e
    pages := s.pages.filter fun p => p.ctx != ctx
    hbm := kept }
  let s : State := { s with
    tiles := s.tiles.map fun e => (e.1, { e.2 with tlb := e.2.tlb.filter fun p => p.ctx != ctx })
    slabs := s.slabs.map fun e => (e.1, { e.2 with
      lltlb := e.2.lltlb.filter fun p => p.ctx != ctx
      walks := e.2.walks.filter fun k => k.ctx != ctx
      waitWalks := e.2.waitWalks.filter fun k => k.ctx != ctx }) }
  (woken.foldl (fun s t => s.wakeBands t) s).modCtx ctx fun _ => Ctx.cold

/-- Whether a move past the start of its drain holds back step 2 on a tile of the context; a stop sequence does not (21 R344; 24
Table 24.4). -/
def State.teardownHeld (s : State) (ctx : Nat) : Bool :=
  s.tiles.any fun e => e.2.contexts.contains ctx &&
    (match e.2.move with
      | some m => m.phase != .precopy && (m.why == .rest || m.why == .ret || m.why == .thermal)
      | none => false)

end Sys2Proof.Machine
end

