-- ==== Sys2Proof/Machine/Cache.lean ====
section
/-! DEFINITION. Cache slices, near copies and the directory (07 R128; 11 R226 to R231; 23 R366). They decide latency and
sharers; the bytes themselves are the module's, one value for each location (12 R240). -/

namespace Sys2Proof.Machine

/-- Interval of a line after a hit (07 Table 7.2). -/
def hitInterval (rd old : Nat) : Nat :=
  match rd with
  | 0 => 0
  | 1 => if 1 < old then 1 else old
  | 2 => old
  | _ => 3

/-- Bank and set of a line (11 R226). -/
def lineSet (ln : Nat) : Nat := ln % 16 * 512 + ln / 16 % 512

/-- The lowest-numbered way of a set whose interval is 3, a way that holds no line among them; none found, every interval below 3 is
raised by 1 and the search repeated (11 R226; log 69). -/
def victim : Nat → List Line → Option (Nat × List Line)
  | 0, _ => none
  | n + 1, ls =>
    match (List.range 16).find? fun w => ls.all fun l => l.way != w || l.ivl == 3 with
    | some w => some (w, ls)
    | none => victim n (ls.map fun l => { l with ivl := if l.ivl < 3 then l.ivl + 1 else 3 })

/-- A directory entry of a home. -/
def Cluster.dirOf (c : Cluster) (ln : Nat) : DirEnt :=
  (c.dir.find? fun e => e.ln == ln).getD ⟨ln, [], [], false, false⟩

def Cluster.setDir (c : Cluster) (e : DirEnt) : Cluster :=
  let rest := c.dir.filter fun d => d.ln != e.ln
  { c with dir := if e.sharers.isEmpty && e.more.isEmpty && !e.broadcast then rest else e :: rest }

/-- A line that leaves a slice: a near copy frees its pointer at the home; a home line ends its broadcast state, and is written back where
it is dirty, half the 280 cycles of an HBM access long (11 R226, R230; 23 R366; log 69). -/
def State.evictLine (s : State) (cl : Nat) (l : Line) : State :=
  match l.copyOf with
  | some home =>
    if home = cl then s
    else s.modClu home fun c =>
      let e := c.dirOf l.ln
      c.setDir { e with sharers := e.sharers.filter fun k => k != cl, more := e.more.filter fun k => k != cl }
  | none => s.modClu cl fun c =>
    let e := c.dirOf l.ln
    let c := if l.dirty then { c with wbs := (c.wbs.filter fun e => decide (s.now < e.2)) ++ [(l.ln, s.now + 140)] } else c
    if e.broadcast then c.setDir { e with broadcast := false } else c

/-- A line looked up in a slice and inserted on a miss (07 Table 7.2; 11 R226). -/
def State.touchLine (s : State) (cl ln rd : Nat) (dirty : Bool) (copyOf : Option Nat) : State :=
  let c := s.clu cl
  let same := fun l : Line => lineSet l.ln == lineSet ln
  match c.lines.find? fun l => l.ln == ln with
  | some _ =>
    s.modClu cl fun c => { c with lines := c.lines.map fun l =>
      if l.ln = ln then { l with ivl := hitInterval rd l.ivl, dirty := l.dirty || dirty } else l }
  | none =>
    if rd = 3 then s
    else
      let mine := c.lines.filter same
      match victim 4 mine with
      | none => s
      | some (w, aged) =>
        let s := s.modClu cl fun c =>
          { c with lines := ⟨ln, w, rd, dirty, copyOf⟩ :: (aged.filter fun l => l.way != w) ++ c.lines.filter fun l => !same l }
        match aged.find? fun l => l.way == w with
        | some v => s.evictLine cl v
        | none => s

/-- Records a cluster's overflow handler takes from its queue: further sharers move into its memory, 16 bytes a record
(log 19); a line that needs more than the 1 MiB is set to broadcast, with a record (11 R231; 23 R366). -/
def State.handleOverflow (s : State) (cl : Nat) : State :=
  let c := s.clu cl
  if c.handlerDown then s
  else
    let s := s.modClu cl fun c => { c with ovq := [] }
    c.ovq.foldl (fun s r =>
      let c := s.clu cl
      let e := c.dirOf r.1
      if e.broadcast then s
      else if c.ovUsed + 16 ≤ 1048576 then
        s.modClu cl fun c => { c.setDir { e with more := e.more ++ [r.2], overflow := true } with ovUsed := c.ovUsed + 16 }
      else
        let s := s.record { s.mkRec 4 0 0 0 0 0 3 (wd (64 * r.1)) 0 0 with slab := cl / 4, ptile := 0, cyc := s.now }
        s.modClu cl fun c => c.setDir { e with broadcast := true }) s

/-- Whether a load that would become a fifth sharer must wait for room in the overflow queue (11 R231). -/
def State.sharerHeld (s : State) (t : Nat) (plc : Placement) (pa rd : Nat) : Bool :=
  let home := s.homeOf plc pa
  let mine := s.cluster t
  let c := s.clu home
  rd == 0 && plc != .repl && home != mine && c.handlerDown && decide (64 ≤ c.ovq.length) &&
    decide (4 ≤ (c.dirOf (pa / 64)).sharers.length) && !(c.dirOf (pa / 64)).sharers.contains mine

/-- A near copy left in the requester's slice, and its sharer recorded (11 R230, R231). -/
def State.nearCopy (s : State) (home mine ln : Nat) : State :=
  let s := s.touchLine mine ln 0 false (some home)
  let e := (s.clu home).dirOf ln
  if e.sharers.contains mine || e.more.contains mine || e.broadcast then s
  else if e.sharers.length < 4 then s.modClu home fun c => c.setDir { e with sharers := e.sharers ++ [mine] }
  else
    let s := if 64 ≤ (s.clu home).ovq.length then s.handleOverflow home else s
    s.modClu home fun c => { c with ovq := c.ovq ++ [(ln, mine)] }

/-- A load's effect on the slices: a near copy that serves it takes the hit, else the home, which with rd = 0 leaves one (07 Table 7.2; 11
R226 to R230). -/
def State.touchLoad (s : State) (t : Nat) (plc : Placement) (pa rd : Nat) : State :=
  let mine := s.cluster t
  match plc with
  | .repl => s.touchLine mine (pa / 64) rd false (some mine)
  | _ =>
    let home := s.homeOf plc pa
    if home = mine then s.touchLine home (pa / 64) rd false none
    else if (s.clu mine).lines.any fun l => l.ln == pa / 64 then s.touchLine mine (pa / 64) rd false (some home)
    else
      let s := s.touchLine home (pa / 64) rd false none
      if rd = 0 then s.nearCopy home mine (pa / 64) else s

/-- Every near copy of a line invalidated, those of the handler's memory and of a broadcast among them
(11 R230, R231; 23 R366). -/
def State.invalidateNear (s : State) (home ln : Nat) : State :=
  let e := (s.clu home).dirOf ln
  let s : State := { s with clusters := s.clusters.map fun c =>
    if c.1 = home then c
    else (c.1, { c.2 with lines := c.2.lines.filter fun l => !(l.ln == ln && l.copyOf == some home) }) }
  s.modClu home fun c =>
    { c.setDir { e with sharers := [], more := [], overflow := false } with ovUsed := c.ovUsed - 16 * e.more.length }

/-- HBM lines of an access's parts, each with the placement of its page. -/
def hbmLines (ps : List Part) : List (Placement × Nat) :=
  (ps.flatMap fun p => match p.loc with
    | .hbm pa => (List.range ((pa + p.len + 63) / 64 - pa / 64)).map fun k => (p.plc, pa / 64 + k)
    | _ => []).eraseDups

/-- Entries of a deduplication table younger than 2,250,000 cycles (23 R375). -/
def youngReqs (now : Nat) (l : List (Nat × Nat × Nat × Word)) : List (Nat × Nat × Nat × Word) :=
  l.filter fun e => decide (now < e.2.2.1 + 2250000)

/-- A request performed, in a deduplication table: its identifier, who made it, the cycle and the old value; one of 4,096 entries loses
those that are old (23 R375). -/
def notedReq (now id who : Nat) (old : Word) (l : List (Nat × Nat × Nat × Word)) : List (Nat × Nat × Nat × Word) :=
  (if l.length < 4096 then l else youngReqs now l) ++ [(id % 2 ^ 24, who, now, old)]

/-- A write of a tile performed at home slices or in other tiles' scratchpads: their tables hold its request (23 R375; log 84). -/
def State.noteReq (s : State) (t id : Nat) (old : Word) (ps : List Part) : State :=
  let who := s.caps.moduleNo * 4096 + t
  ps.foldl (fun s p => match p.loc with
    | .hbm pa => s.modClu (s.homeOf p.plc pa) fun c => { c with dedup := notedReq s.now id who old c.dedup }
    | .spad u _ => if u = t then s else s.modTile u fun x => { x with dedup := notedReq s.now id who old x.dedup }
    | _ => s) s

/-- Whether a write to some places waits for overflow records not yet handled, or for room in a deduplication table (11 R231; 23 R375). -/
def State.writeHeld (s : State) (ps : List Part) : Bool :=
  ((hbmLines ps).any fun q =>
    let c := s.clu (s.homeOf q.1 (64 * q.2))
    (c.handlerDown && c.ovq.any fun r => r.1 == q.2) || decide (4096 ≤ (youngReqs s.now c.dedup).length)) ||
  ps.any fun p => match p.loc with
    | .spad u _ => decide (4096 ≤ (youngReqs s.now (s.tile u).dedup).length)
    | _ => false

/-- A line's overflow records handled and its near copies invalidated: what a store or an atomic needs first (11 R230, R231). -/
def State.invalidateAll (s : State) (home ln : Nat) : State :=
  let s := if (s.clu home).ovq.any fun r => r.1 == ln then s.handleOverflow home else s
  s.invalidateNear home ln

/-- An access to lines at their homes, which leaves no near copy: a write, or with `dirty` false an atomic that writes nothing (11 R230;
07 R133). -/
def State.touchHomes (s : State) (ps : List Part) (rd : Nat) (dirty : Bool) : State :=
  (hbmLines ps).foldl (fun s q =>
    let home := s.homeOf q.1 (64 * q.2)
    (s.invalidateAll home q.2).touchLine home q.2 rd dirty none) s

/-- Writes of whole accesses. -/
def State.touchWrites (s : State) (ps : List Part) (rd : Nat) : State := s.touchHomes ps rd true

/-- Loads of whole accesses. -/
def State.touchLoads (s : State) (t : Nat) (ps : List Part) (rd : Nat) : State :=
  (hbmLines ps).foldl (fun s q => s.touchLoad t q.1 (64 * q.2) rd) s

/-- The copies of a REPL page's lines dropped from every slice (11 R228). -/
def State.dropCopies (s : State) (pg : Page) : State :=
  { s with clusters := s.clusters.map fun c => (c.1, { c.2 with lines := c.2.lines.filter fun l =>
      !(l.copyOf == some c.1 && decide (pg.pa ≤ 64 * l.ln ∧ 64 * l.ln < pg.pa + 2 ^ pg.lg)) }) }

end Sys2Proof.Machine
end

