-- ==== Sys2Proof/Machine/Bounds.lean ====
section
/-! DEFINITION. Bound registers and the check of every store against them (03 R56, Table 3.9). -/

namespace Sys2Proof.Machine

/-- Fields of a bound register. -/
def Bnd.act (b : Bnd) : Nat := bits b.ctl.toNat 1 0
def Bnd.dom (b : Bnd) : Bool := bitOf b.ctl.toNat 2
def Bnd.am (b : Bnd) : Nat := bits b.ctl.toNat 5 4
def Bnd.lo (b : Bnd) : Nat := bits b.lim.toNat 31 0
def Bnd.hi (b : Bnd) : Nat := bits b.lim.toNat 63 32

/-- Enabled: LEN and ACT nonzero (03 R56). -/
def Bnd.on (b : Bnd) : Bool := b.len != 0 && b.act != 0

/-- The control word as it is held: reserved bits read 0 (00 R7). -/
def ctlMask (v : Word) : Word := v &&& 0xFFFFFFFF00000037

/-- A limit as an exact value in the register's domain. -/
def Bnd.limit (b : Bnd) (v : Nat) : Num := if b.dom then numOfInt (sval v 32) 0 else tyDecode 0 v

/-- HITS raised, saturating. -/
def Bnd.hit (b : Bnd) (n : Nat) : Bnd :=
  let h := min (bits b.ctl.toNat 63 32 + n) 0xFFFFFFFF
  { b with ctl := wd (h * 2 ^ 32 + b.ctl.toNat % 2 ^ 32) }

/-- Whether the byte at an address, at its place, is one of those that a range names from a tile (03 R56; 11 R219, R220): bytes are compared,
not address bits. -/
def State.rangeHolds (s : State) (t mode base len am va : Nat) (l : Loc) : Bool :=
  match mode, l with
  | 0, _ => am == 0 && decide (base ≤ va ∧ va < base + len)
  | 1, .spad u off =>
    match s.locOf t base with
    | some (v, bo) => v == u && decide (bo ≤ off ∧ off < bo + len)
    | none => false
  | 2, .spad u off =>
    let g := s.group (s.groupOf t)
    let a := 8 * (off / 8 * g.length + g.idxOf u) + off % 8
    g.contains u && decide (base ≤ a ∧ a < base + len)
  | _, _ => false

/-- Whether the byte at an address of an access, at its place, lies in a register's range (03 R56; log 86). -/
def State.bndHolds (s : State) (t : Nat) (b : Bnd) (am va : Nat) (l : Loc) : Bool :=
  s.rangeHolds t b.am (addrOf b.base) b.len.toNat am va l

/-- Place of the byte at offset `i` of an access. -/
def partAt : List Part → Nat → Option Loc
  | [], _ => none
  | p :: ps, i =>
    if i < p.len then some (p.loc.plus i)
    else partAt ps (i - p.len)

/-- Address of the byte at offset `i` of an access. -/
def Acc.addrAt (a : Acc) (i : Nat) : Nat := a.addr + i / a.len * a.stride + i % a.len

/-- An element of a store: its offset and width in the data, its type (16 for a signed integer of its width), its
value. -/
structure Elem where
  off : Nat
  width : Nat
  ty : Nat
  val : Num
  deriving DecidableEq, Repr

/-- Value of a Q4X row's elements (05 R82). -/
def q4Elems (cols : Nat) (data : List Byte) : List Elem :=
  let rows := chunks (cols / 2) (data.length / (cols / 2)) data
  (List.range rows.length).flatMap fun r =>
    let vs := (q4Row (rows.getD r [])).1
    (List.range vs.length).map fun e => ⟨r * (cols / 2) + e / 2, 0, 4, vs.getD e .nan⟩

/-- Elements of a typed store (08 R167; 09 R185). -/
def typedElems (ty cols : Nat) (data : List Byte) : List Elem :=
  if ty = 4 then q4Elems cols data
  else
    let z := tyBytes ty 1
    (List.range (data.length / z)).map fun i =>
      ⟨i * z, z, ty, tyDecode ty (leNat ((data.drop (i * z)).take z))⟩

/-- Type and width of the elements of a scalar store of n bytes in a domain (03 R56). -/
def scalarElem (n : Nat) (dom : Bool) : Nat × Nat :=
  if dom then (16, min n 8) else if n = 1 then (2, 1) else if n = 2 then (1, 2) else (0, 4)

/-- Value of bytes as an element of a type; 16 is a signed integer of the bytes' width. -/
def elemVal (ty : Nat) (bs : List Byte) : Num :=
  if ty = 16 then numOfInt (sval (leNat bs) (8 * bs.length)) 0 else tyDecode ty (leNat bs)

/-- The register that decides an element of a typed store: the lowest enabled one whose range holds its first byte. -/
def State.decider (s : State) (t : Nat) (bnds : List Bnd) (a : Acc) (off : Nat) : Option Nat :=
  match partAt a.parts off with
  | none => none
  | some l => (List.range 8).find? fun k =>
      match bnds[k]? with
      | some b => b.on && s.bndHolds t b a.am (a.addrAt off) l
      | none => false

/-- Elements of a scalar store with the register that decides each: from ascending offsets, the lowest enabled register
whose own cut has an element there (03 R56). -/
def State.scalarElems (s : State) (t : Nat) (bnds : List Bnd) (a : Acc) (data : List Byte) : Nat → Nat → List (Elem × Nat)
  | 0, _ => []
  | fuel + 1, off =>
    if data.length ≤ off then []
    else
      let n := data.length
      let cut (k : Nat) : Nat × Nat := scalarElem n ((bnds[k]?).map Bnd.dom |>.getD false)
      let l := (partAt a.parts off).getD (.cap 0)
      let who := (List.range 8).find? fun k =>
        match bnds[k]? with
        | some b => b.on && off % (cut k).2 == 0 && s.bndHolds t b a.am (a.addrAt off) l
        | none => false
      match who with
      | some k =>
        let c := cut k
        (⟨off, c.2, c.1, elemVal c.1 ((data.drop off).take c.2)⟩, k) :: s.scalarElems t bnds a data fuel (off + c.2)
      | none => s.scalarElems t bnds a data fuel (off + (scalarElem n false).2)

/-- Every element of a store that a register decides. -/
def State.checkedElems (s : State) (t : Nat) (bnds : List Bnd) (a : Acc) (ty cols : Nat) (data : List Byte) :
    List (Elem × Nat) :=
  if bnds.all fun b => !b.on then []
  else if ty = 16 then s.scalarElems t bnds a data 17 0
  else (typedElems ty cols data).filterMap fun e => (s.decider t bnds a e.off).map fun k => (e, k)

/-- The format-anomaly flag of the decoding that the check of a Q4X store makes, of each row with an element it decides (05 R82, R92;
08 R167). -/
def State.checkFlags (s : State) (t : Nat) (bnds : List Bnd) (a : Acc) (ty cols : Nat) (data : List Byte) : Nat :=
  if ty = 4 ∧ ((s.checkedElems t bnds a ty cols data).any fun e =>
      (q4Row ((data.drop (e.1.off / (cols / 2) * (cols / 2))).take (cols / 2))).2) = true then fQA
  else 0

/-- Below LO, above HI or a NaN (03 R56). Where the element is not of the kind of the register's domain, as in `vst` or `mst` of
floating elements against integer limits, the exact values are compared (log 71). -/
def Bnd.outside (b : Bnd) (v : Num) : Bool :=
  match v with
  | .nan => true
  | _ => numCmp v (b.limit b.lo) == some (-1) || numCmp v (b.limit b.hi) == some 1

/-- The exact difference of two values. -/
def numSub (a b : Num) : Num :=
  match a, b with
  | .fin s m e, .fin t n d => numOfInt (numAt s m e (min e d) - numAt t n d (min e d)) (min e d)
  | a, b => (numAdd 0 a (numNeg b)).1

/-- Whether HI is nearer than LO to a value, LO at equal distance (03 R56; log 72). -/
def Bnd.nearHi (b : Bnd) (v : Num) : Bool :=
  let far (l : Num) : Num := match numSub v l with
    | .fin _ m e => .fin false m e
    | .inf _ => .inf false
    | .nan => .nan
  match v with
  | .inf _ => numCmp v (b.limit b.hi) == some 1
  | _ => numCmp (far (b.limit b.hi)) (far (b.limit b.lo)) == some (-1)

/-- The nearer limit in the element's own format, a NaN giving LO (03 R56); a limit the format does not hold saturates,
and one between two values of the format rounds to nearest even (logs 20, 72). -/
def Bnd.clampTo (b : Bnd) (e : Elem) : List Byte :=
  let v := if e.val ≠ .nan ∧ b.nearHi e.val = true then b.limit b.hi else b.limit b.lo
  if e.ty = 16 then
    let w := 8 * e.width
    leBytes e.width (wrapN (intEncode (-(2 ^ (w - 1))) (2 ^ (w - 1) - 1) 0 v).1 w)
  else
    match fmtOf e.ty, tyEncode e.ty 0 v with
    | some f, (p, fl) =>
      let sat := if fl &&& fOF ≠ 0 then (if numNegative v then 2 ^ (f.eb + f.mb) else 0) + maxFin f else p
      leBytes e.width sat
    | none, (p, _) => leBytes e.width p

/-- Bytes with a run replaced. -/
def putAt (bs : List Byte) (off : Nat) (v : List Byte) : List Byte := bs.take off ++ v ++ bs.drop (off + v.length)

/-- Outcome of the check: the data to store, the offset of the first element that traps, the hits of each register. -/
structure Checked where
  data : List Byte
  trapAt : Option Nat
  hits : List Nat
  deriving DecidableEq, Repr

/-- The check of every element (03 R56): flag stores unchanged, clamp replaces, trap stops the store; a Q4X element under
clamp traps (08 R167). -/
def checkElems (bnds : List Bnd) (data : List Byte) (es : List (Elem × Nat)) : Checked :=
  es.foldl (fun c e =>
    match bnds[e.2]? with
    | none => c
    | some b =>
      if b.outside e.1.val = false then c
      else
        let c := { c with hits := c.hits ++ [e.2] }
        if b.act = 3 ∨ (b.act = 2 ∧ e.1.ty = 4) then { c with trapAt := some (c.trapAt.getD e.1.off) }
        else if b.act = 2 then { c with data := putAt c.data e.1.off (b.clampTo e.1) }
        else c) ⟨data, none, []⟩

/-- The hits of a check counted, each in a register that has not been written since the store issued (03 R54). -/
def State.countHits (s : State) (t : Nat) (vers hits : List Nat) : State :=
  s.modMx t fun m => { m with bnd := hits.foldl (fun v k =>
    if vget m.bndVer k 0 = vers.getD k 0 then vset v k ((vget v k ⟨0, 0, 0, 0⟩).hit 1) else v) m.bnd }

/-- A bound register written: hits of stores issued before are no longer its own (03 R54). -/
def Matrix.setBnd (m : Matrix) (k : Nat) (b : Bnd) : Matrix :=
  { m with bnd := vset m.bnd k b, bndVer := vset m.bndVer k (vget m.bndVer k 0 + 1) }

end Sys2Proof.Machine
end

