-- ==== Sys2Proof/Machine/Memory.lean ====
section
/-! DEFINITION. Loads, stores and atomics (07 R126 to R134; 11 R233, R405) and the order in which they are performed (12 R237 to
R252). A load or atomic acts at its place before it completes, a store to another tier after it completes; what is completed and not
performed stands in `stores`, which its own thread alone reads. -/

namespace Sys2Proof.Machine

/-- The release part of an order-and-scope code, and the scope of a release (07 R130, R132). -/
def Job.releases : Job → Option Nat
  | .store _ _ _ _ _ r _ => r
  | .amo _ _ _ _ _ os => if osRel os then some (osScope os) else none
  | _ => none

/-- An access that writes. -/
def Job.writes : Job → Bool
  | .store _ _ _ _ _ _ _ => true
  | .amo _ _ _ _ _ _ => true
  | _ => false

/-- A store. -/
def Job.isStore : Job → Bool
  | .store _ _ _ _ _ _ _ => true
  | _ => false

/-- A pending access moved to its parts. -/
def Job.withAcc (j : Job) (a : Acc) : Job :=
  match j with
  | .load d _ b c e f => .load d a b c e f
  | .amo d _ b c e f => .amo d a b c e f
  | .vload v _ r => .vload v a r
  | .store _ b c d e f g => .store a b c d e f g
  | j => j

/-- Whether two parts share a byte. -/
def partsMeet (p q : Part) : Bool :=
  match p.loc, q.loc with
  | .spad t a, .spad u b => t == u && decide (a < b + q.len ∧ b < a + p.len)
  | .hbm a, .hbm b => decide (a < b + q.len ∧ b < a + p.len)
  | .pod m a, .pod n b => m == n && decide (a < b + q.len ∧ b < a + p.len)
  | .shadow r c a, .shadow r' c' b => r == r' && c == c' && decide (a < b + q.len ∧ b < a + p.len)
  | .shadow _ _ _, .hbm _ => true
  | .hbm _, .shadow _ _ _ => true
  | _, _ => false

/-- Whether two accesses may share a location; one not yet translated may share any `glob` location. -/
def Acc.meets (a b : Acc) : Bool :=
  if a.ready && b.ready then a.parts.any fun p => b.parts.any fun q => partsMeet p q
  else a.am == 0 && b.am == 0

/-- Whether an access names bytes of a tile's own scratchpad. -/
def Acc.onPort (a : Acc) (t : Nat) : Bool :=
  a.parts.any fun p => match p.loc with
    | .spad u _ => u == t
    | _ => false

/-- Table 12.1: whether two parties share a scope, each scope including the narrower ones (12 R238). -/
def Party.shares (a b : Party) (scope : Nat) : Bool :=
  (a.thr != 0 && a.thr == b.thr) || (a.tile.isSome && a.tile == b.tile) ||
    (decide (1 ≤ scope) && clusterOf a.pt == clusterOf b.pt) ||
    (decide (2 ≤ scope) && stackOf (a.pt / 64) == stackOf (b.pt / 64)) || decide (3 ≤ scope)

/-- The party of a pending access: the scopes of an access are those of the physical tile it issued on (02 R20; 12 R254). -/
def Pend.party (p : Pend) (x : Slot) (w : Who) : Party := ⟨x.thr, some w.tile, p.pt⟩

/-- The instructions of its thread, with the scopes, that an event of instruction n follows: everything before n at the scope of a
release, everything before each earlier release fence (12 R244, R245). -/
def Slot.follows (x : Slot) (n : Nat) (rel : Option Nat) : List (Nat × Nat) :=
  (match rel with
    | some c => [(n, c)]
    | none => []) ++ x.fences.filter fun f => decide (f.1 < n)

/-- Scopes at which an event of instruction m comes first. -/
def scopesOf (after : List (Nat × Nat)) (m : Nat) : List Nat := (after.filter fun f => decide (m < f.1)).map fun f => f.2

/-- Whether an order of a scope must hold for every party: one that is narrower than the module need not where it `may` be passed, as it
binds only the parties that share its scope (12 R238). -/
def wide (may : Bool) (scope : Nat) : Bool := !may || decide (3 ≤ scope)

/-- Whether an earlier access of the thread that is still pending holds back one of instruction n at some places
(12 Table 12.2): an acquire, one of the same place, or one that a release or a fence orders first. `acq`: whether a narrow acquire may be
passed; `rel`: which accesses may be passed in spite of a narrow release or fence (log 93). -/
def Slot.pendHolds (x : Slot) (n : Nat) (after : List (Nat × Nat)) (ps : List Part) (acq : Bool) (rel : Job → Bool) : Bool :=
  x.pend.any fun q => decide (q.seq < n) && !x.forGood q &&
    ((!q.performed && q.job.acqScope.toList.any (wide acq)) || (scopesOf after q.seq).any (wide (rel q.job)) ||
      (match q.job.acc? with
        | some b =>
          if b.ready then (List.range b.parts.length).any fun i =>
            !(q.got.any fun e => e.1 == i) && (match b.parts[i]? with
              | some y => ps.any fun z => partsMeet z y
              | none => false)
          else b.am == 0 && ps.any fun z => match z.loc with
            | .spad _ _ => false
            | _ => true
        | none => false))

/-- Whether a part lies in a pod window. -/
def hasPod (ps : List Part) : Bool :=
  ps.any fun p => match p.loc with
    | .pod _ _ => true
    | _ => false

/-- A load, which a write may pass where their order has a narrow scope. -/
def Job.isLoad : Job → Bool
  | .load _ _ _ _ _ _ => true
  | .vload _ _ _ => true
  | _ => false

/-- Whether a load of a thread is still to be performed. -/
def State.loadOpen (s : State) (l : Nat × Nat) : Bool :=
  let x := s.threadOf l.1
  x.pend.any fun q => q.seq == l.2 && !x.forGood q

/-- Whether a mark still keeps its place from a scope. -/
def State.marks (s : State) (h : Early) : Bool := (h.waits.any fun i => s.stores.any fun e => e.id == i) || h.loads.any s.loadOpen

/-- Whether a party must wait before it reads or writes some places (12 R244). -/
def State.hidden (s : State) (who : Party) (ps : List Part) : Bool :=
  s.early.any fun h => h.party.shares who h.scope && !(h.party.thr == who.thr) && s.marks h && ps.any fun p => partsMeet p h.part

/-- Whether a write of instruction n may pass loads and stores of its thread that come first at a narrow scope: none of those itself waits
behind a mark, so that no two threads wait for each other. -/
def State.mayPass (s : State) (who : Party) (n : Nat) : Bool :=
  ((s.threadOf who.thr).pend.all fun q => !(decide (q.seq < n) && q.job.isLoad) || (match q.job.acc? with
    | some a => a.ready && !s.hidden { who with pt := q.pt } a.parts
    | none => true)) &&
    s.stores.all fun e => !(e.party.thr == who.thr && decide (e.seq < n)) || !s.hidden e.party [e.part]

/-- Whether a store or release of instruction n of a party may be performed at some places (12 Table 12.2, R244, R245): its
thread's earlier events, where they must come first, are performed. Stores and loads that must come first at a scope narrower than the
module alone do not hold it back: the place is kept from the parties of that scope (`markEarly`). -/
def State.writeReady (s : State) (who : Party) (n : Nat) (after : List (Nat × Nat)) (ps : List Part) : Bool :=
  let thr := who.thr
  let pass := s.mayPass who n
  !(s.threadOf thr).pendHolds n after ps false (fun j => j.isLoad && pass) && !s.hidden who ps &&
    (s.stores.all fun e => !(e.party.thr == thr && decide (e.seq < n)) ||
      (!(ps.any fun p => partsMeet p e.part) && !((scopesOf after e.seq).any (wide pass)))) &&
    !(after.any fun f => s.sendsBefore thr f.1)

/-- The places of a write performed ahead of earlier stores and loads that it follows at a narrow scope: the parties that share the
scope wait for those (12 R238, R244). -/
def State.markEarly (s : State) (who : Party) (after : List (Nat × Nat)) (ps : List Part) : State :=
  let x := s.threadOf who.thr
  let stores (m : Nat) : List Nat := (s.stores.filter fun e => e.party.thr == who.thr && decide (e.seq < m)).map fun e => e.id
  let loads (m : Nat) : List (Nat × Nat) := (x.pend.filter fun q => decide (q.seq < m) && !x.forGood q).map fun q => (who.thr, q.seq)
  { s with early := s.early ++ (after.filter fun f => !((stores f.1).isEmpty && (loads f.1).isEmpty)).flatMap fun f =>
      ps.map fun p => ⟨who, f.2, p, stores f.1, loads f.1⟩ }

/-- Loads of a slot read ahead of an acquire whose scope its thread shares with a party that performs a write (with none: of any scope):
they are read again (12 R244). -/
def Slot.squash (x : Slot) (t : Nat) (who : Option Party) : Slot :=
  { x with pend := x.pend.map fun q =>
      if q.job.isLoad && (who.all fun p => !(x.thr == p.thr)) && (x.pend.any fun a => decide (a.seq < q.seq) && !a.performed &&
          a.job.acqScope.toList.any fun c => who.all fun p => p.shares ⟨x.thr, some t, a.pt⟩ c) then { q with got := [] } else q }

/-- The same on every tile. -/
def State.squash (s : State) (who : Option Party) : State :=
  if s.tiles.any fun e => e.2.slots.any fun y => y.2.acqBefore (y.2.iseq + 1) then
    { s with tiles := s.tiles.map fun e => (e.1, { e.2 with slots := e.2.slots.map fun y => (y.1, y.2.squash e.1 who) }) }
  else s

/-- Bytes at a place as instruction n of a thread reads them: the thread's own earlier stores not yet performed over those of the
memory (12 R240). -/
def State.readOwn (s : State) (thr n : Nat) (p : Part) : List Byte :=
  (List.range p.len).map fun i =>
    (s.stores.filter fun e => e.party.thr == thr && decide (e.seq < n)).foldl (fun v e =>
      ((List.range e.data.length).findSome? fun j =>
        if e.part.loc.plus j = p.loc.plus i then e.data[j]? else none).getD v) (s.getByte p.loc i)

/-- The bytes at some places as the present instruction of a thread reads them (12 R239, R240). -/
def State.ownBytes (s : State) (w : Who) (ps : List Part) : List Byte :=
  ps.flatMap fun p => s.readOwn (s.slot w).thr ((s.slot w).iseq + 1) p

/-- A part on the issuing tile's own scratchpad, which its port serves (12 R252). -/
def ownPart (t : Nat) (p : Part) : Bool :=
  match p.loc with
  | .spad u _ => u == t
  | _ => false

/-- Own-tile accesses of a tile's threads are served in issue order (12 R252; 11 R405): whether one waits for an earlier one, a completed
store that the port has not served among them. -/
def State.portHolds (s : State) (t stamp : Nat) : Bool :=
  ((s.tile t).slots.any fun e => e.2.pend.any fun q =>
    q.job.isMem && decide (q.stamp < stamp) && !q.performed && ((q.job.acc?).map fun b => b.onPort t).getD false) ||
    s.stores.any fun e => e.party.tile == some t && decide (e.stamp < stamp) && ownPart t e.part

/-- A cluster asked to wake by an arrival (13 R276). -/
def State.wantWake (s : State) (cl : Nat) : State :=
  match (s.clu cl).pow with
  | .gated =>
    if (s.slab (cl / 4)).wakes.any fun r => r.what == WakeOf.cluster cl then s
    else s.modSlab (cl / 4) fun b => { b with wakes := b.wakes ++ [⟨.cluster cl, 3, s.now, none⟩] }
  | .gating => s.modClu cl fun c => { c with wakeWanted := true }
  | _ => s

/-- Whether arrivals for a tile wait: its cluster is not ON, or a move or stop holds its traffic (13 R276; 14 R286;
24 Table 24.3). -/
def State.tileHeld (s : State) (t : Nat) : Bool :=
  let x := s.tile t
  (s.clu (s.cluster t)).pow != .on || x.stopped ||
    (match x.move with
      | some m => m.phase != .precopy
      | none => false)

/-- The scratchpads of other tiles an access reaches. -/
def farTiles (t : Nat) (ps : List Part) : List Nat :=
  ps.filterMap fun p => match p.loc with
    | .spad u _ => if u = t then none else some u
    | _ => none

/-- Words that go to one buffer of one thread, or to one scale FIFO. -/
def sameBuffer (a b : Msg) : Bool :=
  a.tile == b.tile && a.scale == b.scale && (a.scale || (a.slot == b.slot && a.dq == b.dq))

/-- Words of one send queue that must keep their order (07 R138). -/
def sameStream (a b : Msg) : Bool := sameBuffer a b && a.src == b.src && a.srcGen == b.srcGen && a.q == b.q

/-- Whether a part is at a tile's scratchpad and was sent from another tile. -/
def Part.comesTo (p : Part) (t from_ : Nat) : Bool :=
  match p.loc with
  | .spad u _ => u == t && from_ != t
  | _ => false

/-- Whether what has come for a moved tile by the new translation waits for something forwarded from the tile it left: a word, a hand-off,
a store, a load, an atomic or a burst of a copy that nothing else holds (14 R286). -/
def State.afterForwarded (s : State) (t due : Nat) : Bool :=
  let f := (s.tile t).fwd
  decide (f < due) &&
    (((List.range s.msgs.length).any fun i => match s.msgs[i]? with
      | some e => e.tile == t && decide (e.due ≤ f) && !((s.msgs.take i).any fun q => sameStream q e)
      | none => false) ||
    (s.tiles.any fun e => e.2.handoffs.any fun h => h.tile == t && decide (h.due ≤ f)) ||
    (s.stores.any fun e => decide (e.due ≤ f) && s.writeReady e.party e.seq e.after [e.part] && e.part.comesTo t (e.party.tile.getD 65536)) ||
    s.tiles.any fun e =>
      (e.2.slots.any fun y => y.2.pend.any fun q => !q.job.isStore && (match q.job.acc? with
        | some a => (List.range a.parts.length).any fun i => match a.parts[i]? with
          | some p => p.comesTo t e.1 && decide (q.mids.getD i 0 ≤ f) && !(q.got.any fun g => g.1 == i) && !y.2.pendHolds q.seq [] [p] false fun _ => false
          | none => false
        | none => false)) ||
      e.2.chan.toList.any fun c => (c.chains.take 1).any fun h => h.recs.any fun r => r.flight.any fun b =>
        b.parts.any (fun p => p.comesTo t e.1) && (match b.data, b.write with
          | none, _ => decide (b.mid ≤ f)
          | some _, some d => decide (d ≤ f)
          | _, _ => false))

/-- Whether an access leaves its own tile: the tile a `loc` address names, whether or not it has a place there (07 Table 7.11; 21
R347). -/
def State.leavesTile (s : State) (t : Nat) (a : Acc) : Bool :=
  match a.am with
  | 1 => bitOf a.addr 34 && !(bits a.addr 27 22 == tx t && bits a.addr 33 28 == ty t)
  | 2 => a.pieces.any fun p => match s.ilvOf t p.1 with
    | some (u, _) => u != t
    | none => false
  | _ => false

/-- Whether a `glob` access names a byte of a pod window (21 R347). -/
def State.podPages (s : State) (ctx : Nat) (a : Acc) : Bool :=
  a.pieces.any fun p => match (s.pageOf ctx p.1).map fun (q : Page) => q.plc with
    | some (Placement.pod _) => true
    | _ => false

/-- What an access comes to as it issues. -/
inductive Opened where
  | go (a : Acc) (delay : Nat) (s : State)
  | trap (cause : Nat) (ev : Word)

/-- Checks of an access at issue (22 R353 steps 5 to 7): in a wave only the own tile's scratchpad by `loc`
(07 R149), in a redundant copy only the own tile and the module (21 R347). -/
def State.openAcc (s : State) (w : Who) (word : Word) (a : Acc) (align : Nat) (need : Need) : Opened :=
  let x := s.slot w
  let ctx := x.ctx.getD 0
  if x.inWave && (a.am != 1 || s.leavesTile w.tile a) then .trap cWaveIllegal word
  else if x.red.isSome && (s.leavesTile w.tile a || (a.am == 0 && s.podPages ctx a)) then .trap cRedundancy word
  else
    match s.resolveAcc w.tile ctx x.red a align need .thread with
    | (.bad c, _) => .trap c (evalAddr a.am a.addr)
    | (.ok ps d, s') =>
      if x.red.isSome && hasPod ps then .trap cRedundancy word
      else .go { a with parts := ps, ready := true } d s'
    | (.miss va, s') => .go { a with ready := false } 240 (s'.startWalk w.tile ctx va)

/-- The transaction of a pending access (15 Table 15.4). -/
def Job.podCode : Job → Nat
  | .store _ _ _ _ _ _ _ => 2
  | .amo _ _ _ _ _ _ => 3
  | _ => 1

/-- Requests of a master to other modules, one for each part in a pod window, kept until their replies: for the 8-byte word that holds it,
through the port of the module's route, with the next number of that link (15 R303, R304; 23 R376). -/
def State.addPodBy (s : State) (by_ : Master) (thr seq ctx : Nat) (gen : BitVec 8) (code : Nat) (pc ev : Word) (ps : List Part) : State :=
  ps.foldl (fun s p => match p.loc with
    | .pod m pa =>
      let port := kvGet s.routes m 0
      let n := kvGet s.lseqs port 0
      { s with
        pods := s.pods ++ [{ by_ := by_, thr := thr, pc := pc, ev := ev, gen := gen, seq := seq, module := m, pa := pa
                             ctx := ctx, reqId := s.nextReq % 2 ^ 24, sentAt := s.now, firstAt := s.now, port := port
                             code := code, size := 8, lseq := n }]
        nextReq := s.nextReq + 1
        lseqs := kvSet s.lseqs port ((n + 1) % 65536) }
    | _ => s) s

/-- The same of a thread. -/
def State.addPod (s : State) (w : Who) (seq code : Nat) (pc ev : Word) (ps : List Part) : State :=
  let x := s.slot w
  s.addPodBy (.thread w) x.thr seq (x.ctx.getD 0) x.gen code pc ev ps

/-- The reply to a unit's request for a part (15 R304). -/
def State.dropPodBy (s : State) (by_ : Master) (seq : Nat) (l : Loc) : State :=
  { s with pods := s.pods.filter fun f => !(f.by_ == by_ && f.seq == seq && l == Loc.pod f.module f.pa) }

/-- The reply to a thread's request, or an engine's (15 R304). -/
def State.dropPod (s : State) (thr seq : Nat) (l : Loc) : State :=
  { s with pods := s.pods.filter fun f => !(f.thr == thr && thr != 0 && f.seq == seq && l == Loc.pod f.module f.pa) }

/-- Whether requests to another module get no further: no route, a port in ETH mode, or its link retrains or is down (15 R302, R303;
23 R374). -/
def State.podClosed (s : State) (p : Part) : Bool :=
  match p.loc with
  | .pod m _ =>
    let port := kvGet s.routes m 0
    port == 0 || decide (12 < port) || !s.caps.podMode.getLsbD (port - 1) || decide (2 ≤ (s.link (192 + port)).state)
  | _ => false

/-- An access joins the pending ones of its thread, with the delay of its translation and its latency: each part acts at its place half
way (11 R405). -/
def State.openPend (s : State) (w : Who) (i : Instr) (la : BitVec 4) (job : Job) (d l : Nat) : State :=
  let mids := ((job.acc?).map fun a => s.midsOf w.tile (s.now + d) a (job.podCode != 1)).getD []
  let s := match job.acc? with
    | some a => if job.podCode = 2 then s
      else s.addPod w ((s.slot w).iseq + 1) job.podCode (s.slot w).pc (evalAddr a.am a.addr) a.parts
    | none => s
  s.addPendAt w i la job (s.now + d + l) mids

/-- Value of a load's bytes (07 R129). -/
def loadWord (n : Nat) (signed : Bool) (bs : List Byte) : Word :=
  if signed then sextN (leNat bs) (8 * n) else wd (leNat bs)

/-- Result of a load: one register, or the pair with the lower address first (07 R129). -/
def loadResults (d : Spec) (n : Nat) (signed pair : Bool) (bs : List Byte) : List (Spec × Word) :=
  if pair then [(d, wd (leNat (bs.take 8))), (d.succ, wd (leNat (bs.drop 8)))] else [(d, loadWord n signed bs)]

/-- A load (07 R129, R130). In a wave it is served in its issue cycle (11 R405). -/
def State.loadOp (s : State) (i : Instr) (t base : Spec) (am : BitVec 2) (la : BitVec 4) (p : BitVec 3) (n : Nat)
    (signed pair : Bool) (acq : Option Nat) (rd : Nat) : Host.Outcome State Fault Refusal :=
  let dst := if pair then [t, t.succ] else [t]
  .next (s.issue i { Meta.of (onP p) [base] dst with waveOk := acq.isNone && am == 1 } fun s w =>
    s.withSrc w [base] fun vs s =>
      let a : Acc := ⟨am.toNat, addrOf (argN vs 0), n, 1, 0, 0, [], false⟩
      match s.openAcc w (wordOf i) a n .read with
      | .trap c e => .trap c e
      | .go a d s =>
        if (s.slot w).inWave then
          let rs := loadResults t n signed pair (s.ownBytes w a.parts)
          let s := s.modTile w.tile fun x => x.takePath s.now
          .ok (rs.foldl (fun s r => s.writeSpec w r.1 r.2) s)
        else
          .ok (s.openPend w i la (.load t a signed pair acq rd) d (s.latencies w.tile a false)))

/-- Parts of an access as it reaches its place: those found at issue, or those of a translation that has since ended, which moves
its cycles by the latency of its path (11 R217, R233). -/
def State.accNow (s : State) (w : Who) (p : Pend) (a : Acc) (need : Need) : Resolved × State :=
  if a.ready then (.ok a.parts 0, s)
  else
    let x := s.slot w
    match s.resolvePieces w.tile (x.ctx.getD 0) x.red a.am need .thread a.pieces with
    | (.ok ps d, s') =>
      let a := { a with parts := ps, ready := true }
      let late := match p.job with
        | .store _ ty data bnds _ _ _ => if (s'.checkedElems w.tile bnds a ty a.cols data).isEmpty then 0 else 16
        | _ => s'.latencies w.tile a (need == .write)
      let s' := if need = .write ∧ p.job.podCode = 2 then s' else s'.addPod w p.seq p.job.podCode p.pc (evalAddr a.am a.addr) ps
      (.ok ps d, s'.modSlot w fun x => { x with pend := x.pend.map fun q =>
        if q.seq = p.seq then { q with job := q.job.withAcc a, due := q.due + late, mids := s'.midsOf w.tile q.due a (need == .write) } else q })
    | (.miss va, s') => (.miss va, s'.startWalk w.tile (x.ctx.getD 0) va)
    | r => r

/-- What comes of an access as it reaches its place. -/
inductive Arrived where
  | stay (s : State)
  | absent
  | perform (p : Pend) (a : Acc) (s : State)

/-- Translation, the absent stack, and errors of the words an access names (11 R225; 23 R363). -/
def State.arrive (s : State) (w : Who) (p : Pend) (a : Acc) (need : Need) : Arrived :=
  match s.accNow w p a need with
  | (.bad c, s') => .stay (s'.lateFault w p c (evalAddr a.am a.addr))
  | (.miss _, s') => .stay s'
  | (.ok ps _, s') =>
    let a := { a with parts := ps, ready := true }
    if absent ps then .absent
    else if (s'.slot w).red.isSome && hasPod ps then .stay (s'.lateFault w p cRedundancy p.word)
    else if s'.poisoned ps then .stay (s'.poisonHit ps)
    else
      match (s'.slot w).pend? p.seq with
      | some p => .perform p a s'
      | none => .stay s'

/-- Whether a link module on the way from a tile to a place retrains, and holds what crosses it (23 R374). -/
def State.seamHeld (s : State) (t : Nat) (p : Part) : Bool :=
  decide (t < 3072) && (match p.loc with
    | .spad u _ => decide (0 < s.pathHold (s.phys t) (s.phys u))
    | .hbm pa => decide (0 < s.pathHold (s.phys t) (physOfBank (s.homeOf p.plc pa) (bits pa 9 6)))
    | _ => false)

/-- Other tiles that hold an access up, whose clusters are asked to wake, or a way to them or to another module that is closed (13 R276; 14
R286; 23 R374). -/
def State.farHeld (s : State) (t : Nat) (ps : List Part) : Bool × State :=
  let far := farTiles t ps
  if ps.any s.podClosed || ps.any (s.seamHeld t) then (true, s)
  else if far.any s.tileHeld then (true, far.foldl (fun s u => s.wantWake (s.cluster u)) s) else (false, s)

/-- Requests of one tile to one 64-byte line of another module reach it in issue order (15 R305): whether an earlier one is out. -/
def State.podHolds (s : State) (t stamp : Nat) (p : Part) : Bool :=
  match p.loc with
  | .pod m pa =>
    let same (q : Part) : Bool := match q.loc with
      | .pod m' pa' => m' == m && pa' / 64 == pa / 64
      | _ => false
    ((s.tile t).slots.any fun e => e.2.pend.any fun q => decide (q.stamp < stamp) && !q.performed &&
      ((q.job.acc?).map fun b => if b.ready then b.parts.any same else b.am == 0).getD false) ||
      (s.stores.any fun e => e.party.tile == some t && decide (e.stamp < stamp) && same e.part) ||
      (s.tile t).chan.toList.any fun c => c.chains.any fun h => h.recs.any fun r => r.flight.any fun b =>
        decide (b.stamp < stamp) && b.parts.any same
  | _ => false

/-- An access of the own scratchpad that ends past its cycle has waited for the port: the end of that wait enters the replay log (24 Table
24.2, KIND 7). -/
def State.logPort (s : State) (w : Who) (p : Pend) (ps : List Part) : State :=
  if p.due < s.now ∧ ps ≠ [] ∧ ps.all (ownPart w.tile) = true then s.logArrival w.tile 7 w.slot 0 0 else s

/-- Arrivals written into the replay log of the tile for values from outside its scratchpad (24 R381). -/
def State.logLoads (s : State) (w : Who) (p : Pend) (a : Acc) (rs : List (Spec × Word)) : State :=
  if a.parts.all (ownPart w.tile) then s.logPort w p a.parts
  else rs.foldl (fun s r => s.logArrival w.tile 0 w.slot 0 r.2) s

/-- Bytes another tile's scratchpad receives, in 8-byte parts (24 Table 24.2). -/
def State.logStores (s : State) (t : Option Nat) : List Part → List Byte → State
  | [], _ => s
  | p :: ps, bs =>
    let s := match p.loc with
      | .spad u off => if t = some u then s else s.logArrival u 4 0 off (wd (leNat (bs.take p.len)))
      | _ => s
    s.logStores t ps (bs.drop p.len)

/-- New value of an atomic, or none where it writes nothing (07 Table 7.3). -/
def amoNew (op : Nat) (old b d : Word) : Option Word :=
  match op with
  | 0x1F => some (old + b)
  | 0x20 => some (old &&& b)
  | 0x21 => some (old ||| b)
  | 0x22 => some (old ^^^ b)
  | 0x23 => some (if b.slt old then b else old)
  | 0x24 => some (if old.slt b then b else old)
  | 0x25 => some (if b.ult old then b else old)
  | 0x26 => some (if old.ult b then b else old)
  | 0x27 => some b
  | _ => if old = d then some b else none

/-- The 64-bit word at the place of an atomic: of a page a redundant copy has not written, the original (21 R347). -/
def State.wordAt (s : State) (ps : List Part) : Word :=
  match ps with
  | [⟨.shadow r c va, n, _⟩] =>
    match s.red? r with
    | some d =>
      if d.pages.contains (c, va / 65536) then wd (leNat (s.getParts ps))
      else match s.pageOf d.ctx va with
        | some p => wd (leNat (s.getPart ⟨pageLoc p va, n, p.plc⟩))
        | none => 0
    | none => 0
  | _ => wd (leNat (s.getParts ps))

/-- An atomic performed at its place: old value and state (07 R132). A `cas` that fails writes nothing. -/
def State.atomic (s : State) (ps : List Part) (op : Nat) (b d : Word) : Word × State :=
  let old := s.wordAt ps
  match amoNew op old b d with
  | some v => (old, (s.openShadow ps).putParts ps (leBytes 8 v.toNat))
  | none => (old, s)

/-- Bytes of a store written, with what that does to the slices and to the replay logs of other tiles. -/
def State.landStore (s : State) (t : Option Nat) (ps : List Part) (data : List Byte) (rd : Nat) : State :=
  ((s.putParts ps data).touchWrites ps rd).logStores t ps data

/-- The bound check of a store, its hits counted (03 R56): the data to store with the flags of its decoding, or the address of the first
element that traps. -/
def State.checkStore (s : State) (t : Nat) (a : Acc) (ty : Nat) (data : List Byte) (bnds : List Bnd) (vers : List Nat) :
    State × Except Nat (List Byte × Nat) :=
  let c := checkElems bnds data (s.checkedElems t bnds a ty a.cols data)
  match c.trapAt with
  | some off => (s.countHits t vers c.hits, .error (a.addrAt off))
  | none => (s.countHits t vers c.hits, .ok (c.data, s.checkFlags t bnds a ty a.cols data))

/-- The parts of an access with their bytes. -/
def cutData : List Part → List Byte → List (Part × List Byte)
  | [], _ => []
  | p :: ps, bs => (p, bs.take p.len) :: cutData ps (bs.drop p.len)

/-- A store accepted by the memory pipeline (04 Table 4.3; 11 R405): the parts on the own tile are performed, unless its port is still to
serve them; the others are performed half a round trip later, each for itself (07 R127). -/
def State.acceptStore (s : State) (w : Who) (p : Pend) (ps : List Part) (data : List Byte) (rd : Nat) (port : Bool) : State :=
  let x := s.slot w
  let after := x.follows p.seq p.job.releases
  let who := p.party x w
  let ctx := x.ctx.getD 0
  let cut := cutData ps data
  let own := cut.filter fun e => port && ownPart w.tile e.1
  let far := cut.filter fun e => !(port && ownPart w.tile e.1)
  let s := s.openShadow ps
  let s := if own.isEmpty then s else ((own.foldl (fun s e => s.landStore (some w.tile) [e.1] e.2 rd) s).markEarly who after
    (own.map fun e => e.1)).squash (some who)
  let ev := ((p.job.acc?).map fun a => evalAddr a.am a.addr).getD 0
  let s := s.addPod w p.seq 2 p.pc ev (far.map fun e => e.1)
  far.foldl (fun (s : State) e =>
    { s with
      nextStore := s.nextStore + 1
      stores := s.stores ++ [{ id := s.nextStore, party := who, seq := p.seq, stamp := p.stamp, part := e.1, data := e.2, rd := rd
                               ctx := ctx, task := x.task, after := after
                               due := s.now + if ownPart w.tile e.1 then 0 else s.latency w.tile true e.1 / 2 }] }) s

/-- A store translated, checked, and accepted; with `port` once the port serves the parts on the own tile, otherwise ahead of it, as under
contention (03 R56; 11 R405). -/
def State.endStore (s : State) (w : Who) (seq : Nat) (port : Bool) : Host.Outcome State Fault Refusal :=
  match (s.slot w).ripe s.now seq with
  | none => .next s
  | some p =>
    match p.job with
    | .store a _ _ _ _ _ _ =>
      match s.arrive w p a .write with
      | .stay s => .next s
      | .absent => .fault .absentStack
      | .perform p a s =>
        match p.job with
        | .store _ ty data bnds flags rel rd =>
          let x := s.slot w
          let own := a.parts.filter (ownPart w.tile)
          let early := x.pend.any fun q => decide (q.seq < seq) && (match q.job with
            | .store b _ _ _ _ _ _ => a.meets b
            | _ => false)
          if s.now < p.due ∨ early = true ∨ (port = true ∧ own ≠ [] ∧ (s.portHolds w.tile p.stamp = true ∨
              s.writeReady (p.party x w) seq (x.follows seq rel) own = false)) then .next s
          else
            match s.checkStore w.tile a ty data bnds p.vers with
            | (s, .error va) => .next (s.lateFault w p cBound (evalAddr a.am va))
            | (s, .ok (data, fl)) =>
              .next (((s.logPort w p own).acceptStore w p a.parts data rd port).modSlot w fun x => (x.dropPend seq).raiseFlags (flags.toNat ||| fl))
        | _ => .next s
    | _ => .next s

/-- STORE_COMPLETE (11 R405). -/
def execStoreComplete (w : Who) (seq : Nat) (s : State) : Host.Outcome State Fault Refusal := s.endStore w seq true

/-- A part of a completed store performed: from then on every party reads it (11 R230, R405; 12 R240, R241); over a poisoned word it
writes nothing (23 R363). -/
def State.performStored (s : State) (id : Nat) : State :=
  match s.stores.find? fun e => e.id == id with
  | none => s
  | some e =>
    let t := e.party.tile.getD 65536
    match s.farHeld t [e.part] with
    | (true, s) => s
    | (false, s) =>
      if s.now < e.due || !s.writeReady e.party e.seq e.after [e.part] || s.podHolds t e.stamp e.part ||
          (ownPart t e.part && s.portHolds t e.stamp) || ((farTiles t [e.part]).any fun u => s.afterForwarded u e.due) ||
          s.writeHeld [e.part] then s
      else
        let s : State := { s with stores := s.stores.filter fun q => q.id != id }
        let s := s.dropPod e.party.thr e.seq e.part.loc
        let s := if s.poisoned [e.part] then s.poisonHit [e.part]
          else (match e.party.tile with
            | some t => s.noteReq t e.stamp 0 [e.part]
            | none => s).landStore e.party.tile [e.part] e.data e.rd
        let s := (s.markEarly e.party e.after [e.part]).squash (some e.party)
        { s with early := s.early.filter s.marks }

/-- A store of data already read: in a wave served at once, otherwise pending (07 R129, R130; 11 R405). -/
def State.storeData (s : State) (w : Who) (i : Instr) (la : BitVec 4) (a : Acc) (align ty : Nat) (data : List Byte)
    (flags : Nat) (rel : Option Nat) (rd : Nat) : Res :=
  match s.openAcc w (wordOf i) a align .write with
  | .trap c e => .trap c e
  | .go a d s =>
    let mx := (s.tile w.tile).mx
    let bnds := mx.bnd.toList
    if (s.slot w).inWave then
      let s := s.modTile w.tile fun x => x.takePath s.now
      match s.checkStore w.tile a ty data bnds mx.bndVer.toList with
      | (s, .error va) => .stop (s.raise w cBound (evalAddr a.am va) (s.slot w).pc)
      | (s, .ok (data, fl)) => .ok ((s.landStore (some w.tile) a.parts data rd).modSlot w fun x => x.raiseFlags (flags ||| fl))
    else
      let chk := !(s.checkedElems w.tile bnds a ty a.cols data).isEmpty
      let late := (if chk then 22 else 6) + (data.length + 127) / 128 - 1
      .ok (s.openPend w i la (.store a ty data bnds (wd flags) rel rd) (d + late) 0)

/-- A scalar store (07 R129, R130). -/
def State.storeOp (s : State) (i : Instr) (t base : Spec) (am : BitVec 2) (la : BitVec 4) (p : BitVec 3) (n : Nat)
    (rel : Option Nat) (rd : Nat) : Host.Outcome State Fault Refusal :=
  let src := if n = 16 then [t, t.succ, base] else [t, base]
  .next (s.issue i { Meta.of (onP p) src [] with waveOk := rel.isNone && am == 1 } fun s w =>
    s.withSrc w src fun vs s =>
      let data := if n = 16 then leBytes 8 (argN vs 0).toNat ++ leBytes 8 (argN vs 1).toNat else leBytes n (argN vs 0).toNat
      let a : Acc := ⟨am.toNat, addrOf (argN vs (if n = 16 then 2 else 1)), n, 1, 0, 0, [], false⟩
      s.storeData w i la a n 16 data 0 rel rd)

/-- An atomic (07 R132): address, operand, and for `cas` the expected value. -/
def State.amoOp (s : State) (i : Instr) (d a b : Spec) (la os : BitVec 4) (op : Nat) : Host.Outcome State Fault Refusal :=
  let src := if op = 0x28 then [a, b, d] else [a, b]
  .next (s.issue i (Meta.solo always src [d]) fun s w =>
    match s.operands w src [d] with
    | .wait y => .wait s y
    | .trap c e => .trap c e
    | .ok (vs, s') =>
      let v := argN vs 0
      let acc : Acc := ⟨modeOf v, addrOf v, 8, 1, 0, 0, [], false⟩
      match s'.openAcc w (wordOf i) acc 8 .write with
      | .trap c e => .trap c e
      | .go acc dl s' =>
        .ok (s'.openPend w i la (.amo d acc op (argN vs 1) (argN vs 2) os.toNat) dl
          (s'.latencies w.tile acc true)))

/-- A walk that ends for one tile: the accesses that waited on it fault with the translation trap where the tables hold
no entry (23 R362). -/
def State.walkFault (s : State) (t ctx va : Nat) : State :=
  (s.tile t).slots.foldl (fun (s : State) (e : Nat × Slot) =>
    let w : Who := ⟨t, e.1⟩
    let x := s.slot w
    if x.ctx ≠ some ctx then s
    else x.pend.foldl (fun (s : State) (p : Pend) =>
      match p.job.acc? with
      | some a =>
        if !a.ready && a.am == 0 && a.pieces.any (fun q => q.1 / 65536 * 65536 == va) then
          s.lateFault w p cTranslation (evalAddr 0 a.addr)
        else s
      | none => s) s) s

/-- TLB_WALK_COMPLETE (11 R233; 23 R362): fills the TLBs of every access that joined, or ends them with a fault, or with a
teardown, and the quarantine of the page that holds the entry, where a table read met an uncorrectable error. A walk that waited for room starts. -/
def execTlbWalkComplete (slab k : Nat) (poisoned : Option Nat) (s : State) : Host.Outcome State Fault Refusal :=
  .next <|
    match (s.slab slab).walks[k]? with
    | none => s
    | some q =>
      if s.now < q.due then s
      else
      let s := s.modSlab slab fun b =>
        let rest := listDrop1 b.walks k
        match b.waitWalks with
        | [] => { b with walks := rest }
        | n :: r => { b with walks := rest ++ [{ n with due := s.now + 240 }], waitWalks := r }
      match poisoned with
      | some pa =>
        (s.startTeardown q.ctx (some { s.mkRec 3 3 0 q.ctx 0 0 6 (wd q.va) 0 0 with slab := slab, ptile := 0, cyc := s.now })).quarantinePage pa
      | none =>
        match s.pageOf q.ctx q.va with
        | none =>
          let s := if q.unit then s.modSlab slab fun b => { b with walkFails := b.walkFails ++ [(q.ctx, q.va)] } else s
          q.tiles.foldl (fun s t => s.walkFault t q.ctx q.va) s
        | some p => q.tiles.foldl (fun s t => s.fillTlbs (some t) slab p) (s.fillTlbs none slab p)

/-- `ld8s` (07 R129). -/
def execLd8s (t base : Spec) (am rd : BitVec 2) (la : BitVec 4) (p : BitVec 3) (s : State) :
    Host.Outcome State Fault Refusal := s.loadOp (.ld8s t base am rd la p) t base am la p 1 true false none rd.toNat

/-- `ld8z` (07 R129). -/
def execLd8z (t base : Spec) (am rd : BitVec 2) (la : BitVec 4) (p : BitVec 3) (s : State) :
    Host.Outcome State Fault Refusal := s.loadOp (.ld8z t base am rd la p) t base am la p 1 false false none rd.toNat

/-- `ld16s` (07 R129). -/
def execLd16s (t base : Spec) (am rd : BitVec 2) (la : BitVec 4) (p : BitVec 3) (s : State) :
    Host.Outcome State Fault Refusal := s.loadOp (.ld16s t base am rd la p) t base am la p 2 true false none rd.toNat

/-- `ld16z` (07 R129). -/
def execLd16z (t base : Spec) (am rd : BitVec 2) (la : BitVec 4) (p : BitVec 3) (s : State) :
    Host.Outcome State Fault Refusal := s.loadOp (.ld16z t base am rd la p) t base am la p 2 false false none rd.toNat

/-- `ld32s` (07 R129). -/
def execLd32s (t base : Spec) (am rd : BitVec 2) (la : BitVec 4) (p : BitVec 3) (s : State) :
    Host.Outcome State Fault Refusal := s.loadOp (.ld32s t base am rd la p) t base am la p 4 true false none rd.toNat

/-- `ld32z` (07 R129). -/
def execLd32z (t base : Spec) (am rd : BitVec 2) (la : BitVec 4) (p : BitVec 3) (s : State) :
    Host.Outcome State Fault Refusal := s.loadOp (.ld32z t base am rd la p) t base am la p 4 false false none rd.toNat

/-- `ld64` (07 R129). -/
def execLd64 (t base : Spec) (am rd : BitVec 2) (la : BitVec 4) (p : BitVec 3) (s : State) :
    Host.Outcome State Fault Refusal := s.loadOp (.ld64 t base am rd la p) t base am la p 8 false false none rd.toNat

/-- `ld128` (07 R129). -/
def execLd128 (t base : Spec) (am rd : BitVec 2) (la : BitVec 4) (p : BitVec 3) (s : State) :
    Host.Outcome State Fault Refusal := s.loadOp (.ld128 t base am rd la p) t base am la p 16 false true none rd.toNat

/-- `lda32`: an acquire load (07 R130). -/
def execLda32 (t base : Spec) (am : BitVec 2) (la : BitVec 4) (p sc : BitVec 3) (s : State) :
    Host.Outcome State Fault Refusal := s.loadOp (.lda32 t base am la p sc) t base am la p 4 false false (some sc.toNat) 0

/-- `lda64`: an acquire load (07 R130). -/
def execLda64 (t base : Spec) (am : BitVec 2) (la : BitVec 4) (p sc : BitVec 3) (s : State) :
    Host.Outcome State Fault Refusal := s.loadOp (.lda64 t base am la p sc) t base am la p 8 false false (some sc.toNat) 0

/-- `st8` (07 R129). -/
def execSt8 (t base : Spec) (am rd : BitVec 2) (la : BitVec 4) (p : BitVec 3) (s : State) :
    Host.Outcome State Fault Refusal := s.storeOp (.st8 t base am rd la p) t base am la p 1 none rd.toNat

/-- `st16` (07 R129). -/
def execSt16 (t base : Spec) (am rd : BitVec 2) (la : BitVec 4) (p : BitVec 3) (s : State) :
    Host.Outcome State Fault Refusal := s.storeOp (.st16 t base am rd la p) t base am la p 2 none rd.toNat

/-- `st32` (07 R129). -/
def execSt32 (t base : Spec) (am rd : BitVec 2) (la : BitVec 4) (p : BitVec 3) (s : State) :
    Host.Outcome State Fault Refusal := s.storeOp (.st32 t base am rd la p) t base am la p 4 none rd.toNat

/-- `st64` (07 R129). -/
def execSt64 (t base : Spec) (am rd : BitVec 2) (la : BitVec 4) (p : BitVec 3) (s : State) :
    Host.Outcome State Fault Refusal := s.storeOp (.st64 t base am rd la p) t base am la p 8 none rd.toNat

/-- `st128` (07 R129). -/
def execSt128 (t base : Spec) (am rd : BitVec 2) (la : BitVec 4) (p : BitVec 3) (s : State) :
    Host.Outcome State Fault Refusal := s.storeOp (.st128 t base am rd la p) t base am la p 16 none rd.toNat

/-- `stl32`: a release store (07 R130). -/
def execStl32 (t base : Spec) (am : BitVec 2) (la : BitVec 4) (p sc : BitVec 3) (s : State) :
    Host.Outcome State Fault Refusal := s.storeOp (.stl32 t base am la p sc) t base am la p 4 (some sc.toNat) 0

/-- `stl64`: a release store (07 R130). -/
def execStl64 (t base : Spec) (am : BitVec 2) (la : BitVec 4) (p sc : BitVec 3) (s : State) :
    Host.Outcome State Fault Refusal := s.storeOp (.stl64 t base am la p sc) t base am la p 8 (some sc.toNat) 0

/-- `amoadd` (07 Table 7.3). -/
def execAmoadd (d a b : Spec) (la os : BitVec 4) (s : State) : Host.Outcome State Fault Refusal :=
  s.amoOp (.amoadd d a b la os) d a b la os 0x1f

/-- `amoand` (07 Table 7.3). -/
def execAmoand (d a b : Spec) (la os : BitVec 4) (s : State) : Host.Outcome State Fault Refusal :=
  s.amoOp (.amoand d a b la os) d a b la os 0x20

/-- `amoor` (07 Table 7.3). -/
def execAmoor (d a b : Spec) (la os : BitVec 4) (s : State) : Host.Outcome State Fault Refusal :=
  s.amoOp (.amoor d a b la os) d a b la os 0x21

/-- `amoxor` (07 Table 7.3). -/
def execAmoxor (d a b : Spec) (la os : BitVec 4) (s : State) : Host.Outcome State Fault Refusal :=
  s.amoOp (.amoxor d a b la os) d a b la os 0x22

/-- `amomin` (07 Table 7.3). -/
def execAmomin (d a b : Spec) (la os : BitVec 4) (s : State) : Host.Outcome State Fault Refusal :=
  s.amoOp (.amomin d a b la os) d a b la os 0x23

/-- `amomax` (07 Table 7.3). -/
def execAmomax (d a b : Spec) (la os : BitVec 4) (s : State) : Host.Outcome State Fault Refusal :=
  s.amoOp (.amomax d a b la os) d a b la os 0x24

/-- `amominn` (07 Table 7.3). -/
def execAmominn (d a b : Spec) (la os : BitVec 4) (s : State) : Host.Outcome State Fault Refusal :=
  s.amoOp (.amominn d a b la os) d a b la os 0x25

/-- `amomaxn` (07 Table 7.3). -/
def execAmomaxn (d a b : Spec) (la os : BitVec 4) (s : State) : Host.Outcome State Fault Refusal :=
  s.amoOp (.amomaxn d a b la os) d a b la os 0x26

/-- `amoswp` (07 Table 7.3). -/
def execAmoswp (d a b : Spec) (la os : BitVec 4) (s : State) : Host.Outcome State Fault Refusal :=
  s.amoOp (.amoswp d a b la os) d a b la os 0x27

/-- `cas` (07 Table 7.3). -/
def execCas (d a b : Spec) (la os : BitVec 4) (s : State) : Host.Outcome State Fault Refusal :=
  s.amoOp (.cas d a b la os) d a b la os 0x28

end Sys2Proof.Machine
end

