-- ==== Sys2Proof/Machine/Health.lean ====
section
/-! DEFINITION. Ageing records, the choice of a destination, the start of a stop sequence and vacant tiles
(24 R384 to R393). -/

namespace Sys2Proof.Machine

/-- 86,400 s of the 2.25 GHz cycle (24 Table 24.5). -/
abbrev dayCycles : Nat := 86400 * 2250000000

/-- The largest number of so many bits whose 40th power is at most m. -/
def root40 (m : Nat) : Nat → Nat
  | 0 => 0
  | n + 1 =>
    let r := 2 * root40 (m / 2 ^ 40) n
    if (r + 1) ^ 40 ≤ m then r + 1 else r

/-- The stress weight w = 2^((T - 85) / 10) of an hour at mean reading `q` quarter degrees, in whole 2^-32 stress-hours, rounded down
(24 R388; log 90). -/
def stressWeight (q : Nat) : Nat := root40 (2 ^ (940 + q)) (25 + q / 40)

/-- SMIS: the mismatches of the last 86,400 s (24 Table 24.5). -/
def Ageing.recent (a : Ageing) (now : Nat) : List Nat := a.smis.filter fun t => decide (now < t + dayCycles)

/-- EOL (24 R389). -/
def Ageing.eolNow (a : Ageing) : Nat :=
  if a.ret || decide (a.marg ≤ 20) then 0
  else if a.prevMarg ≤ a.marg ∨ a.lastW = 0 then 0xFFFFFFFF
  else
    let n := (a.marg - 20) * (a.strh - a.prevStrh) * 2 ^ 32 / ((a.prevMarg - a.marg) * a.lastW)
    min (n / 2 ^ a.smis.length) 0xFFFFFFFF

def Ageing.withEol (a : Ageing) : Ageing := { a with eol := a.eolNow }

/-- A mismatch counted (24 Table 24.5). -/
def Ageing.mismatch (a : Ageing) (now : Nat) : Ageing :=
  { a with smis := a.recent now ++ [now], smtot := min (a.smtot + 1) 0xFFFF, flag := true }.withEol

/-- A correctable event of the tile's storage (24 Table 24.5). -/
def Ageing.correctable (a : Ageing) (now : Nat) : Ageing :=
  let at_ := (a.corrAt.filter fun t => decide (now < t + dayCycles)) ++ [now]
  { a with corr := min (a.corr + 1) 0xFFFFFFFF, corrAt := at_, flag := a.flag || decide (100 ≤ at_.length) }

/-- A physical tile taken out of service for good (24 R390). -/
def PTile.retire (p : PTile) : PTile :=
  { p with role := .retired, testing := false, age := { p.age with ret := true }.withEol }

/-- The end of a full self-test with its margin: MARG, the figures EOL needs, FLAG and EOL (24 Table 24.5, R389, R391). -/
def Ageing.tested (a : Ageing) (pass : Bool) (marg : Nat) : Ageing :=
  { a with
    prevMarg := a.marg, prevStrh := a.testStrh, marg := marg % 65536, testStrh := a.strh
    flag := if pass then decide (marg % 65536 < 40) else a.flag || decide (marg % 65536 < 40) }.withEol

/-- Physical tiles of a slab, in order. -/
def slabPhys (slab : Nat) : List Nat := (List.range 64).map fun n => 64 * slab + n

/-- Physical tiles that a move or a stop sequence has taken as its destination. -/
def State.claimedDst (s : State) (pt : Nat) : Bool :=
  s.tiles.any fun e => match e.2.move with
    | some m => m.dst == pt && m.dst != m.src
    | none => false

/-- SPARE gaps of a slab that a move may take. -/
def State.spares (s : State) (slab : Nat) : List Nat :=
  (slabPhys slab).filter fun p => (s.ptile p).role == .spare && !(s.ptile p).gated && !s.claimedDst p

/-- The SPARE gap with the lowest reading below 80 degrees, the lowest number on a tie (14 Table 14.1; 24 R385). -/
def State.coolSpare (s : State) (slab : Nat) : Option Nat :=
  listMin (fun p => (s.ptile p).reading * 4096 + p) ((s.spares slab).filter fun p => decide ((s.ptile p).reading < 320))

/-- The destination of a stop sequence (24 R385): a SPARE gap, else the RESTING gap longest at rest, else the source for
a mismatch that does not retire it. -/
def State.stopDest (s : State) (src : Nat) (why : MoveWhy) : Option Nat :=
  let slab := src / 64
  match s.coolSpare slab with
  | some p => some p
  | none =>
    match listMin (fun p => (s.ptile p).reading * 4096 + p) (s.spares slab) with
    | some p => some p
    | none =>
      match listMin (fun p => (s.ptile p).since * 4096 + p) ((slabPhys slab).filter fun p =>
          (s.ptile p).role == .resting && !(s.ptile p).gated && !s.claimedDst p) with
      | some p => some p
      | none => if why = .mismatch then some src else none

/-- The waves with a head or member on a tile. -/
def Tile.waveIds (t : Tile) : List Nat := (t.slots.filterMap fun e => e.2.wave.map fun r => r.id).eraseDups

/-- A wave cut along the wavefront its members have reached, without a fault (02 R36): no index of a later wavefront
executes. Where several wavefronts would do, it is the last that any member has executed (log 76). -/
def State.cutWave (s : State) (id : Nat) : State :=
  match s.wave? id with
  | none => s
  | some v =>
    if v.haltAt.isSome then s
    else
      let done := v.live.foldl (fun f m =>
        match (s.slot (s.memberWho v m)).wave with
        | some r => if r.idx = 0 then f else max f (r.idx + m.1 + m.2)
        | none => f) 0
      (s.setWave id { v with haltAt := some done, cutAt := s.now }).settleWave id

/-- A cut wave resumed as a whole (14 R288): its cycles move by a multiple of the period no shorter than the pause. -/
def State.resumeWave (s : State) (id : Nat) : State :=
  match s.wave? id with
  | none => s
  | some v =>
    match v.haltAt with
    | none => s
    | some f =>
      if v.byFault then s
      else
        let late := max (s.now + 1 - (v.t0 + 16 * f)) (s.now + 1 - v.cutAt)
        let v := { v with haltAt := none, t0 := v.t0 + (late + 15) / 16 * 16 }
        v.live.foldl (fun s m => s.modSlot (s.memberWho v m) fun x =>
          if x.st = .out then { x with st := if m.2 = 0 then .run else .member, preempted := false } else x) (s.setWave id v)

/-- Whether something keeps a cut wave stopped: a fault, the teardown of its context, a pre-emption, a tile that does not run, or a `ckpt`
of its context (02 R36; 10 R215; 13 R271; 14 R288; 21 R343). -/
def State.waveHeld (s : State) (v : Wave) : Bool :=
  v.byFault || (s.ctxOf v.ctx).dying || ((v.task.bind s.task?).map fun q => q.removed.isSome).getD false ||
    v.live.any fun m =>
      let t := s.tile (s.memberWho v m).tile
      (s.slot (s.memberWho v m)).st != .out || t.stopped || t.vacant ||
        (t.move.map fun m => m.phase != .precopy).getD false ||
        t.slots.any fun e => e.2.st == .wait && e.2.why == .ckpt && e.2.ctx == some v.ctx

/-- Cut waves that nothing keeps stopped any more go on. -/
def State.freeWaves (s : State) : State :=
  s.waves.foldl (fun s e => match s.wave? e.1 with
    | some v => if v.haltAt.isSome && !s.waveHeld v then s.resumeWave e.1 else s
    | none => s) s

/-- Start of the stop sequence of a tile (24 R384): no slot of the tile issues any more; a wave on it is cut. Already
stopped, or past the drain of a move, the tile stays as it is. -/
def State.startStop (s : State) (t : Nat) (why : MoveWhy) : State :=
  let x := s.tile t
  let early := match x.move with
    | some m => m.phase == .precopy || m.phase == .drain
    | none => true
  if x.stopped || !early then s
  else
    let live := why == .trip || !x.covered || !x.waveIds.isEmpty
    let src := s.phys t
    let s := s.modTile t fun x =>
      { x with
        stopped := true
        move := some { why := why, src := src, dst := src, phase := .drain, pass := 0, todo := [], marked := [], sett := 0, started := s.now
                       live := live, due := s.now } }
    x.waveIds.foldl (fun s id => s.cutWave id) s

/-- A screening mismatch on a tile (24 R377, R384, R388, R390): the record, the ageing record, and the stop sequence; the
third within 24 hours retires the tile. One of a context that dies starts no stop sequence but that of a retirement (21 R344). -/
def State.mismatch (s : State) (t ctx cause : Nat) (pc addr aux : Word) : State :=
  let src := s.phys t
  let s := s.modPtile src fun p => { p with age := p.age.mismatch s.now }
  let third := decide (3 ≤ (s.ptile src).age.smis.length)
  let live := !(s.tile t).covered || !(s.tile t).waveIds.isEmpty
  let s := s.record (s.mkRec 10 1 6 ctx t 0 cause addr (aux ||| (if live then 1 else 0)) pc)
  if third then
    let s := s.record (s.mkRec 10 0 6 0 t 0 4 0 0 0)
    (s.modPtile src fun p => { p with age := { p.age with ret := true }.withEol }).startStop t .retire
  else if (s.ctxOf ctx).dying then s else s.startStop t .mismatch

/-- The contexts with a task on a virtual tile, spilled, waiting or placed, a reservation or a binding (23 R374; 24 R392). -/
def State.ctxsAt (s : State) (t : Nat) : List Nat :=
  let x := s.tile t
  (x.contexts ++ (x.slots.flatMap fun e => (List.range 4).filterMap fun k => if (e.2.bind k).st = .unbound then none else e.2.ctx) ++
    (x.spilled.filterMap fun e => e.2.ctx) ++ (x.runq.map fun m => m.ctx) ++
    (s.tasks.filter fun e => e.2.tile == t && !e.2.retired).map fun e => e.2.r.ctx).eraseDups

/-- A virtual tile that no physical tile serves (24 R392): the contexts there are torn down with CAUSE 0x00FF. -/
def State.makeVacant (s : State) (t cls : Nat) : State :=
  let cs := s.ctxsAt t
  let s := s.modTile t fun x => { x with vacant := true, stopped := false, move := none }
  cs.foldl (fun s c => s.startTeardown c (some (s.mkRec cls 3 6 c t 0 0xFF 0 0 0))) s

end Sys2Proof.Machine
end

