-- ==== Sys2Proof/Machine/Ecc.lean ====
section
/-! DEFINITION. Errors of stored data that a load meets (23 R363 to R366), and the completion of loads and atomics (11 R405). -/

namespace Sys2Proof.Machine

/-- An uncorrectable error pinned to a tile (23 R364): a covered one is replayed as a mismatch is (24 R384), unless its context dies
(21 R344); any other tears down every context on the tile, with one record each. -/
def State.tileError (s : State) (t ctx : Nat) (covered : Bool) (addr pc : Word) : State :=
  if covered then
    let s := s.record (s.mkRec 3 1 6 ctx t 0 3 addr 0 pc)
    if (s.ctxOf ctx).dying then s else s.startStop t .mismatch
  else (s.tile t).contexts.eraseDups.foldl (fun s c => s.startTeardown c (some (s.mkRec 3 3 6 c t 0 4 addr 0 0))) s

/-- A line of the scratchpad that the sett can give back: held there at the latest boundary, or not written since (23 R364). -/
def Tile.lineCovered (t : Tile) (off : Nat) : Bool :=
  t.covered && t.image.valid && (t.image.lines.any (fun e => e.1 == off / 64) || !t.dirty.contains (off / 64))

/-- Registers of a thread whose record the sett holds (23 R364). -/
def Tile.threadCovered (t : Tile) (slot : Nat) : Bool :=
  t.covered && t.image.valid && t.image.threads.any fun e => e.1 == slot

/-- Matrix state, or vector registers, of a context whose thread records the sett holds (23 R364). -/
def Tile.matrixCovered (t : Tile) (ctx : Nat) : Bool :=
  t.covered && t.image.valid && t.image.threads.any fun e => e.2.ctx == some ctx

/-- A word of the scratchpad marked as holding an uncorrectable error (23 R363). -/
def State.poisonWord (s : State) (t off : Nat) : State :=
  s.modTile t fun x => { x with poison := if x.poison.contains (off / 8) then x.poison else x.poison ++ [off / 8] }

/-- A correctable error of a physical tile's storage: its CORR rises, with a record in the module log (23 R363; 21 R338). -/
def State.correctTile (s : State) (pt : Nat) (r : FaultRec) : State :=
  (s.modPtile pt fun q => { q with age := q.age.correctable s.now }).record r

/-- A finding in a tile's storage: a slot, an offset in the scratchpad, and what is found there. -/
abbrev Finding := Nat × Nat × Ecc

/-- A finding that is uncorrectable and pinned to the tile (23 Table 23.2). -/
def Finding.pinned (f : Finding) : Bool := f.2.2 == .regs || f.2.2 == .word || f.2.2 == .matrix

/-- The context such a finding is charged to: that of the slot's thread, the owner of the matrix state, or whoever reserved the word. -/
def Tile.findingCtx (x : Tile) (f : Finding) : Nat :=
  (match f.2.2 with
  | .regs => (x.slot f.1).ctx
  | .matrix => x.mx.owner.or (x.slot f.1).ctx
  | _ => (x.resv.find? fun (r : Resv) => decide (r.off ≤ f.2.1 ∧ f.2.1 < r.off + r.len)).map fun (r : Resv) => r.ctx).getD 0

/-- Whether the checkpoint covers such a finding (23 R364). -/
def Tile.covers (x : Tile) (f : Finding) : Bool :=
  match f.2.2 with
  | .regs => x.threadCovered f.1
  | .matrix => x.matrixCovered (x.findingCtx f)
  | _ => x.lineCovered f.2.1

/-- The address a record of a finding gives. -/
def Finding.addr (f : Finding) : Word := if f.2.2 = .word then wd (2 ^ 62 + f.2.1) else 0

/-- Errors found together in a tile's registers, scratchpad, matrix state or sett, by an access, a move, a spill or the tile's own units:
the masked ones each by itself; the others are covered only where every one of them is (23 R363 to R365; log 61). -/
def State.foundErrors (s : State) (t : Nat) (pc : Word) (fs : List Finding) : State :=
  let s := fs.foldl (fun s f => match f.2.2 with
    | .corrected => s.correctTile (s.phys t) (s.mkRec 3 0 6 0 t 0 1 (wd (2 ^ 62 + f.2.1)) 0 0)
    | .sett =>
      let v := s.neighbour t 2
      (s.loseImage v).record (s.mkRec 3 0 6 0 v 0 7 0 0 0)
    | .word => s.poisonWord t f.2.1
    | _ => s) s
  match fs.filter Finding.pinned with
  | [] => s
  | f :: rest => s.tileError t ((s.tile t).findingCtx f) ((f :: rest).all (s.tile t).covers) f.addr pc

/-- One such error. -/
def State.foundError (s : State) (t slot off : Nat) (ecc : Ecc) : State := s.foundErrors t 0 [(slot, off, ecc)]

/-- What is found in a line of HBM, in a slice's copy of it, or in its directory entry, by whatever reads it (23 Table 23.2, R366): an error
corrected, a clean line dropped and fetched again, or one that is not pinned. -/
def State.storedError (s : State) (pa : Nat) : Ecc → State
  | .corrected => s.correctHbm pa
  | .lineCorr =>
    let bank := physOfBank (s.sliceOf pa) (bits pa 9 6)
    s.correctTile bank { s.mkRec 3 0 6 0 0 0 1 (wd pa) 0 0 with slab := bank / 64, ptile := bank % 64, y := 0, x := 0, cyc := s.now }
  | .clean =>
    let cl := ((s.clusters.find? fun e => e.2.lines.any fun l => l.ln == pa / 64 && !l.dirty).map fun e => e.1).getD (s.sliceOf pa)
    (s.modClu cl fun c => { c with lines := c.lines.filter fun l => l.ln != pa / 64 || l.dirty }).record
      { s.unitRec 3 0 0 0 (wd pa) with slab := cl / 4, cause := 2 }
  | .line => s.poisonGranule pa
  | .dir => s.lineError 4 1 pa
  | _ => s

/-- Whether an access that meets a finding in a line goes on. -/
def eccLets : Ecc → Bool
  | .line | .dir | .regs | .word | .matrix => false
  | _ => true

/-- What reading a part of an access finds, and whether the access goes on (23 R363, Table 23.2; R364 to R366). An
error in storage that the access does not read is none. -/
def State.readError (s : State) (w : Who) (p : Pend) (e : Ecc) (here : Option Part) : State × Bool :=
  let loc : Option Loc := here.map fun q => q.loc
  match e, loc with
  | .regs, _ => (s.foundErrors w.tile p.pc [(w.slot, 0, .regs)], false)
  | .matrix, _ => (s.foundErrors w.tile p.pc [(w.slot, 0, .matrix)], false)
  | .sett, some (.spad u off) => (s.foundErrors u p.pc [(0, off, .sett)], true)
  | .word, some (.spad u off) => (s.foundErrors u p.pc [(0, off, .word)], false)
  | .corrected, some (.spad u off) => (s.foundErrors u p.pc [(0, off, .corrected)], true)
  | e, some (.hbm pa) => if e = .word ∨ e = .sett then (s, true) else (s.storedError pa e, eccLets e)
  | _, _ => (s, true)

/-- A part of a pending access read: its bytes kept until the result is written (11 R405). -/
def Slot.keepPart (x : Slot) (seq i : Nat) (bs : List Byte) : Slot :=
  { x with pend := x.pend.map fun q => if q.seq = seq then { q with got := q.got ++ [(i, bs)] } else q }

/-- One part of a load read at its place, from its cycle on, unless the order of events has another first (12 Table 12.2, R244, R252). -/
def State.servePart (s : State) (w : Who) (p : Pend) (a : Acc) (rd i : Nat) : State :=
  match a.parts[i]?, a.pieces[i]? with
  | some q, some (va, _) =>
    let x := s.slot w
    let q : Part := { q with loc := s.shadowLoc x.red va .read q.loc }
    match s.farHeld w.tile [q] with
    | (true, s) => s
    | (false, s) =>
      if (p.got.any fun e => e.1 == i) || decide (s.now < p.mids.getD i 0) || x.pendHolds p.seq [] [q] (!hasPod [q]) (fun _ => false) || s.hidden (p.party x w) [q] ||
          (ownPart w.tile q && s.portHolds w.tile p.stamp) || s.podHolds w.tile p.stamp q ||
          ((farTiles w.tile [q]).any fun u => s.afterForwarded u (p.mids.getD i 0)) ||
          (hbmLines [q]).any fun l => s.sharerHeld w.tile l.1 (64 * l.2) rd then s
      else
        let bs := s.readOwn x.thr p.seq q
        let s := s.touchLoads w.tile [q] rd
        let s := (s.dropPod x.thr p.seq q.loc).modSlot w fun x => x.keepPart p.seq i bs
        if s.early.any fun h => h.loads.contains (x.thr, p.seq) then s.squash (some (p.party x w)) else s
  | _, _ => s

/-- A slot of a thread by number, in its place or spilled. -/
def State.modThr (s : State) (thr : Nat) (f : Slot → Slot) : State :=
  let one (e : Nat × Slot) : Nat × Slot := if e.2.thr = thr then (e.1, f e.2) else e
  { s with tiles := s.tiles.map fun e => (e.1, { e.2 with slots := e.2.slots.map one, spilled := e.2.spilled.map one }) }

/-- Whether a request has been combined into another, which carries it (07 R134). -/
def State.absorbed (s : State) (thr seq : Nat) : Bool := s.clusters.any fun c => c.2.comb.any fun e => e.second == (thr, seq)

/-- The reply to a request, split at every switch that combined it: input 0 gets the old value, input 1 the old value plus the operand
kept (07 R134). -/
def State.splitReply (s : State) (cl : Nat) (req : Nat × Nat) (old : Word) : State :=
  let r := (s.clu cl).comb.reverse.foldl (fun (m : List ((Nat × Nat) × Word)) e =>
    match m.find? fun v => v.1 == e.first with
    | some v => m ++ [(e.second, v.2 + e.b0)]
    | none => m) [(req, old)]
  let s := s.modClu cl fun c => { c with comb := c.comb.filter fun e => !(r.any fun v => v.1 == e.first) }
  r.foldl (fun s v => s.modThr v.1.1 fun x => x.keepPart v.1.2 0 (leBytes 8 v.2.toNat)) s

/-- What the requests combined into a request follow, each with its own order code and scope, input 0 first (12 R247). -/
def State.combined (s : State) (cl : Nat) (req : Nat × Nat) : List (Party × List (Nat × Nat)) :=
  ((s.clu cl).comb.reverse.foldl (fun (m : List (Nat × Nat) × List (Party × List (Nat × Nat))) e =>
    if m.1.contains e.first then (m.1 ++ [e.second], m.2 ++ [(e.party, e.after)]) else m) ([req], [])).2

/-- What orders an atomic: a `cas` that fails is a load alone (07 R132; 12 R247). -/
def State.amoAfter (s : State) (x : Slot) (p : Pend) (ps : List Part) (op : Nat) (b d : Word) : List (Nat × Nat) :=
  if (amoNew op (s.wordAt ps) b d).isSome then x.follows p.seq p.job.releases else []

/-- Whether an atomic may be performed now (12 Table 12.2, R244, R247). -/
def State.amoReady (s : State) (w : Who) (p : Pend) (ps : List Part) (after : List (Nat × Nat)) : Bool :=
  let x := s.slot w
  p.got.isEmpty && !s.absorbed x.thr p.seq && s.writeReady (p.party x w) p.seq after ps &&
    !(ps.any (ownPart w.tile) && s.portHolds w.tile p.stamp) && !(ps.any fun q => s.podHolds w.tile p.stamp q) &&
    !((farTiles w.tile ps).any fun u => s.afterForwarded u (p.mids.getD 0 0)) && !s.writeHeld ps

/-- An atomic performed at its place (07 R132 to R134; 12 R247). -/
def State.serveAmo (s : State) (w : Who) (p : Pend) (a : Acc) (op : Nat) (b d : Word) : State :=
  let x := s.slot w
  let after := s.amoAfter x p a.parts op b d
  let cl := match a.parts with
    | [⟨.hbm pa, _, plc⟩] => s.homeOf plc pa
    | _ => 0
  let others := s.combined cl (x.thr, p.seq)
  let own := (p.party x w, after)
  if s.now < p.mids.getD 0 0 ∨ s.amoReady w p a.parts after = false then s
  else
    let writes := (amoNew op (s.wordAt a.parts) b d).isSome
    let r := s.atomic a.parts op b d
    let s := if writes then
        (own :: others).foldl (fun s o => (s.markEarly o.1 o.2 a.parts).squash (some o.1))
          ((r.2.touchWrites a.parts 0).logStores (some w.tile) a.parts (r.2.getParts a.parts))
      else r.2.touchHomes a.parts 0 false
    let s := a.parts.foldl (fun s q => s.dropPod x.thr p.seq q.loc) (s.noteReq w.tile p.stamp r.1 a.parts)
    if others.isEmpty then s.modSlot w fun x => x.keepPart p.seq 0 (leBytes 8 r.1.toNat)
    else s.splitReply cl (x.thr, p.seq) r.1

/-- A load or atomic at its place: the parts asked for, or all that are left, with the errors of the words it reads (11 R405; 23
R363). -/
def State.serveAcc (s : State) (w : Who) (p : Pend) (a : Acc) (need : Need) (which : Option Nat) (ecc : Ecc) : Arrived :=
  match s.arrive w p a need with
  | .perform p a s =>
    match if need == .write then s.farHeld w.tile a.parts else (false, s) with
      | (true, s) => .stay s
      | (false, s) =>
        match if p.performed then (s, true) else s.readError w p ecc a.parts[which.getD 0]? with
        | (s, false) => .stay s
        | (s, true) =>
          let idx := match which with
            | some i => [i]
            | none => List.range a.parts.length
          let s := match p.job with
            | .load _ _ _ _ _ rd => idx.foldl (fun s i => s.servePart w p a rd i) s
            | .vload _ _ rd => idx.foldl (fun s i => s.servePart w p a rd i) s
            | .amo _ _ op b d _ => s.serveAmo w p a op b d
            | _ => s
          match (s.slot w).pend? p.seq with
          | some p => .perform p a s
          | none => .stay s
  | r => r

/-- The access a pending load or atomic makes, and what it needs. -/
def Job.reads : Job → Option (Acc × Need)
  | .load _ a _ _ _ _ => some (a, .read)
  | .vload _ a _ => some (a, .read)
  | .amo _ a _ _ _ _ => some (a, .write)
  | _ => none

/-- The same as a turn of the memories, before the access completes. -/
def State.serveTurn (s : State) (w : Who) (seq : Nat) (which : Option Nat) (ecc : Ecc) : State :=
  match (s.slot w).pend? seq with
  | none => s
  | some p =>
    match p.job.reads with
    | none => s
    | some (a, need) =>
      match s.serveAcc w p a need which ecc with
      | .stay s => s
      | .absent => s
      | .perform _ _ s => s

/-- The bytes a pending access has read, in address order. -/
def Pend.bytes (p : Pend) (n : Nat) : List Byte :=
  (List.range n).flatMap fun i => ((p.got.find? fun e => e.1 == i).map fun e => e.2).getD []

/-- LOAD_COMPLETE (11 R405; 23 R363): what is left of a load, an atomic or a vector load is read at its place, and its result written; or
an uncorrectable error takes its course. -/
def execLoadComplete (w : Who) (seq : Nat) (ecc : Ecc) (s : State) : Host.Outcome State Fault Refusal :=
  match (s.slot w).ripe s.now seq with
  | none => .next s
  | some p =>
    match p.job.reads with
    | none => .next s
    | some (a, need) =>
      match s.serveAcc w p a need none ecc with
      | .stay s => .next s
      | .absent => .fault .absentStack
      | .perform p a s =>
        let bs := p.bytes a.parts.length
        if s.now < p.due ∨ (s.slot w).forGood p = false then .next s
        else
          match p.job with
          | .load d _ signed pair _ _ =>
            let rs := loadResults d a.len signed pair bs
            .next ((s.logLoads w p a rs).land w p rs id)
          | .amo d _ _ _ _ _ =>
            let rs := [(d, wd (leNat bs))]
            .next (if s.landReady w seq [d] then (s.logLoads w p a rs).land w p rs id else s.land w p rs id)
          | .vload v _ _ =>
            let s := s.logLoads w p a ((leWords (bs ++ List.replicate 7 0)).map fun v => (Spec.z, v))
            .next (s.modSlot w fun x => (x.vwrite v 0 bs).dropPend seq)
          | _ => .next s

/-- Two requests of one stage meet: the number of low bits in which two inputs agree gives the stage (07 R134). -/
def meetBit (i j : Nat) : Option Nat := (List.range 4).find? fun k => bitOf i k != bitOf j k

/-- Two fetch-and-adds combined at a switch of the omega network of the line's home cluster: same word, context and code, from two
tiles of the cluster that meet at a switch, the first on its input 0; the buffer holds 8 (07 R134; log 70). -/
def State.combine (s : State) (w : Who) (seq : Nat) (w' : Who) (seq' : Nat) : State :=
  let x := s.slot w
  let y := s.slot w'
  match x.pend? seq, y.pend? seq' with
  | some p, some q =>
    match p.job, q.job with
    | .amo d a 0x1F b dv os, .amo _ a' 0x1F b' _ os' =>
      match a.parts with
      | [⟨.hbm pa, 8, plc⟩] =>
        let cl := s.homeOf plc pa
        let i := idxInCluster (s.phys w.tile)
        let j := idxInCluster (s.phys w'.tile)
        match meetBit i j with
        | none => s
        | some k =>
          let stage := 3 - k
          let sw := (i * 2 ^ (stage + 1) + bits pa 9 6 / 2 ^ (3 - stage)) % 16 / 2
          let old := (s.clu cl).comb
          if !(a.ready && a'.ready && decide (a'.parts = a.parts) && x.ctx == y.ctx && os == os' && !bitOf i k &&
              s.cluster w.tile == cl && s.cluster w'.tile == cl &&
              s.amoReady w p a.parts (x.follows seq p.job.releases) && s.amoReady w' q a.parts (y.follows seq' q.job.releases) &&
              (old.all fun e => !(e.first == (x.thr, seq) || e.first == (y.thr, seq')) || decide (e.stage < stage)) &&
              decide ((old.filter fun e => e.stage == stage && e.switch == sw).length < 8)) then s
          else
            (s.modClu cl fun c => { c with comb := c.comb ++ [⟨stage, sw, (x.thr, seq), (y.thr, seq'), y.follows seq' q.job.releases, q.party y w', b⟩] }).modSlot w fun x =>
              { x with pend := x.pend.map fun r => if r.seq = seq then { r with job := .amo d a 0x1F (b + b') dv os } else r }
      | _ => s
    | _, _ => s
  | _, _ => s

end Sys2Proof.Machine
end

