-- ==== Sys2Proof/Machine/Integer.lean ====
section
/-! DEFINITION. Integer instructions and predicate instructions (06 R103, R104, R106 to R109). -/

namespace Sys2Proof.Machine

/-- A binary integer instruction (06 R103). -/
def State.intOp (s : State) (i : Instr) (d a b : Spec) (g : Guard) (f : Word → Word → Word) : Host.Outcome State Fault Refusal :=
  .next (s.issue i (Meta.of g [a, b] [d]) fun s w => s.scalarOp w [a, b] d fun vs => f (argN vs 0) (argN vs 1))

/-- A unary integer instruction (06 R104). -/
def State.unOp (s : State) (i : Instr) (d a : Spec) (g : Guard) (f : Word → Word) : Host.Outcome State Fault Refusal :=
  .next (s.issue i (Meta.of g [a] [d]) fun s w => s.scalarOp w [a] d fun vs => f (argN vs 0))

/-- An immediate instruction (06 R106). -/
def State.immOp (s : State) (i : Instr) (d a : Spec) (f : Word → Word) : Host.Outcome State Fault Refusal :=
  .next (s.issue i (Meta.of always [a] [d]) fun s w => s.scalarOp w [a] d fun vs => f (argN vs 0))

/-- A compare: one predicate, nothing shifted (06 R108). -/
def State.cmpOp (s : State) (i : Instr) (pd : BitVec 3) (a b : Spec) (g : Guard) (f : Word → Word → Bool) :
    Host.Outcome State Fault Refusal :=
  .next (s.issue i (Meta.of g [a, b] []) fun s w =>
    s.withSrc w [a, b] fun vs s => .ok (s.modSlot w fun x => x.setPred pd (f (argN vs 0) (argN vs 1))))

/-- An immediate compare (06 R108). -/
def State.cmpImm (s : State) (i : Instr) (pd : BitVec 3) (a : Spec) (f : Word → Bool) : Host.Outcome State Fault Refusal :=
  .next (s.issue i (Meta.of always [a] []) fun s w =>
    s.withSrc w [a] fun vs s => .ok (s.modSlot w fun x => x.setPred pd (f (argN vs 0))))

/-- A combination of two predicates (06 R109). -/
def State.predOp (s : State) (i : Instr) (pd pa pb : BitVec 3) (g : Guard) (f : Bool → Bool → Bool) :
    Host.Outcome State Fault Refusal :=
  .next (s.issue i (Meta.of g [] []) fun s w =>
    .ok (s.modSlot w fun x => x.setPred pd (f (x.pred pa) (x.pred pb))))

/-- Shift count of a register shift: bits [5:0] (06 R103). -/
def shAmt (b : Word) : Nat := b.toNat % 64

/-- Table 6.2: rotate left. -/
def rolWord (a b : Word) : Word := a.rotateLeft (shAmt b)

/-- Table 6.2: smaller and larger of two words, signed or natural. -/
def pickS (big : Bool) (a b : Word) : Word := if a.slt b = big then b else a
def pickN (big : Bool) (a b : Word) : Word := if a.ult b = big then b else a

/-- Table 6.2: bits 127 to 64 of a product. -/
def mulHigh (a b : Word) : Word := BitVec.ofInt 64 (a.toInt * b.toInt / 2 ^ 64)
def mulHighN (a b : Word) : Word := BitVec.ofNat 64 (a.toNat * b.toNat / 2 ^ 64)

/-- Immediates: sign-extended, zero-extended (04 R65). -/
def immS (v : BitVec 14) : Word := v.signExtend 64
def immZ (v : BitVec 14) : Word := v.setWidth 64

/-- `add`: A + B (06 Table 6.2). -/
def execAdd (d a b : Spec) (g : Guard) (s : State) : Host.Outcome State Fault Refusal :=
  s.intOp (.add d a b g) d a b g fun a b => a + b

/-- `sub`: A - B (06 Table 6.2). -/
def execSub (d a b : Spec) (g : Guard) (s : State) : Host.Outcome State Fault Refusal :=
  s.intOp (.sub d a b g) d a b g fun a b => a - b

/-- `and`: A and B (06 Table 6.2). -/
def execAnd (d a b : Spec) (g : Guard) (s : State) : Host.Outcome State Fault Refusal :=
  s.intOp (.and d a b g) d a b g fun a b => a &&& b

/-- `or`: A or B (06 Table 6.2). -/
def execOr (d a b : Spec) (g : Guard) (s : State) : Host.Outcome State Fault Refusal :=
  s.intOp (.or d a b g) d a b g fun a b => a ||| b

/-- `xor`: A xor B (06 Table 6.2). -/
def execXor (d a b : Spec) (g : Guard) (s : State) : Host.Outcome State Fault Refusal :=
  s.intOp (.xor d a b g) d a b g fun a b => a ^^^ b

/-- `andn`: A and not B (06 Table 6.2). -/
def execAndn (d a b : Spec) (g : Guard) (s : State) : Host.Outcome State Fault Refusal :=
  s.intOp (.andn d a b g) d a b g fun a b => a &&& ~~~b

/-- `shl`: A << s (06 Table 6.2). -/
def execShl (d a b : Spec) (g : Guard) (s : State) : Host.Outcome State Fault Refusal :=
  s.intOp (.shl d a b g) d a b g fun a b => a <<< shAmt b

/-- `shr`: A >> s, zeros shifted in (06 Table 6.2). -/
def execShr (d a b : Spec) (g : Guard) (s : State) : Host.Outcome State Fault Refusal :=
  s.intOp (.shr d a b g) d a b g fun a b => a >>> shAmt b

/-- `sar`: A >> s, sign shifted in (06 Table 6.2). -/
def execSar (d a b : Spec) (g : Guard) (s : State) : Host.Outcome State Fault Refusal :=
  s.intOp (.sar d a b g) d a b g fun a b => a.sshiftRight (shAmt b)

/-- `rol`: rotate left (06 Table 6.2). -/
def execRol (d a b : Spec) (g : Guard) (s : State) : Host.Outcome State Fault Refusal :=
  s.intOp (.rol d a b g) d a b g rolWord

/-- `min`: smaller, signed (06 Table 6.2). -/
def execMin (d a b : Spec) (g : Guard) (s : State) : Host.Outcome State Fault Refusal :=
  s.intOp (.min d a b g) d a b g (pickS false)

/-- `max`: larger, signed (06 Table 6.2). -/
def execMax (d a b : Spec) (g : Guard) (s : State) : Host.Outcome State Fault Refusal :=
  s.intOp (.max d a b g) d a b g (pickS true)

/-- `minn`: smaller, natural (06 Table 6.2). -/
def execMinn (d a b : Spec) (g : Guard) (s : State) : Host.Outcome State Fault Refusal :=
  s.intOp (.minn d a b g) d a b g (pickN false)

/-- `maxn`: larger, natural (06 Table 6.2). -/
def execMaxn (d a b : Spec) (g : Guard) (s : State) : Host.Outcome State Fault Refusal :=
  s.intOp (.maxn d a b g) d a b g (pickN true)

/-- `mul`: A x B (06 Table 6.2). -/
def execMul (d a b : Spec) (g : Guard) (s : State) : Host.Outcome State Fault Refusal :=
  s.intOp (.mul d a b g) d a b g (fun a b => a * b)

/-- `mulh`: high half of the signed product (06 Table 6.2). -/
def execMulh (d a b : Spec) (g : Guard) (s : State) : Host.Outcome State Fault Refusal :=
  s.intOp (.mulh d a b g) d a b g mulHigh

/-- `mulhn`: high half of the natural product (06 Table 6.2). -/
def execMulhn (d a b : Spec) (g : Guard) (s : State) : Host.Outcome State Fault Refusal :=
  s.intOp (.mulhn d a b g) d a b g mulHighN

/-- `clz`: leading zeros (06 Table 6.3). -/
def execClz (d a : Spec) (g : Guard) (s : State) : Host.Outcome State Fault Refusal :=
  s.unOp (.clz d a g) d a g fun a => wd (leadZeros 64 a.toNat)

/-- `ctz`: trailing zeros (06 Table 6.3). -/
def execCtz (d a : Spec) (g : Guard) (s : State) : Host.Outcome State Fault Refusal :=
  s.unOp (.ctz d a g) d a g fun a => wd (trailZeros 64 a.toNat)

/-- `popc`: one bits (06 Table 6.3). -/
def execPopc (d a : Spec) (g : Guard) (s : State) : Host.Outcome State Fault Refusal :=
  s.unOp (.popc d a g) d a g fun a => wd (popCount 64 a.toNat)

/-- `brev`: bits reversed (06 Table 6.3). -/
def execBrev (d a : Spec) (g : Guard) (s : State) : Host.Outcome State Fault Refusal :=
  s.unOp (.brev d a g) d a g fun a => wd (revBits 64 a.toNat)

/-- `bswap`: bytes reversed (06 Table 6.3). -/
def execBswap (d a : Spec) (g : Guard) (s : State) : Host.Outcome State Fault Refusal :=
  s.unOp (.bswap d a g) d a g fun a => wd (leNat (leBytes 8 a.toNat).reverse)

/-- `sx8`: sign-extend 8 (06 Table 6.3). -/
def execSx8 (d a : Spec) (g : Guard) (s : State) : Host.Outcome State Fault Refusal :=
  s.unOp (.sx8 d a g) d a g fun a => sextN a.toNat 8

/-- `sx16`: sign-extend 16 (06 Table 6.3). -/
def execSx16 (d a : Spec) (g : Guard) (s : State) : Host.Outcome State Fault Refusal :=
  s.unOp (.sx16 d a g) d a g fun a => sextN a.toNat 16

/-- `sx32`: sign-extend 32 (06 Table 6.3). -/
def execSx32 (d a : Spec) (g : Guard) (s : State) : Host.Outcome State Fault Refusal :=
  s.unOp (.sx32 d a g) d a g fun a => sextN a.toNat 32

/-- `zx8`: zero-extend 8 (06 Table 6.3). -/
def execZx8 (d a : Spec) (g : Guard) (s : State) : Host.Outcome State Fault Refusal :=
  s.unOp (.zx8 d a g) d a g fun a => zextN a.toNat 8

/-- `zx16`: zero-extend 16 (06 Table 6.3). -/
def execZx16 (d a : Spec) (g : Guard) (s : State) : Host.Outcome State Fault Refusal :=
  s.unOp (.zx16 d a g) d a g fun a => zextN a.toNat 16

/-- `zx32`: zero-extend 32 (06 Table 6.3). -/
def execZx32 (d a : Spec) (g : Guard) (s : State) : Host.Outcome State Fault Refusal :=
  s.unOp (.zx32 d a g) d a g fun a => zextN a.toNat 32

/-- `abs`: magnitude, the least value to itself (06 Table 6.3). -/
def execAbs (d a : Spec) (g : Guard) (s : State) : Host.Outcome State Fault Refusal :=
  s.unOp (.abs d a g) d a g fun a => if a.msb then -a else a

/-- `sel`: A when pK is 1, else B; both are read (06 R104). -/
def execSel (d a b : Spec) (p : BitVec 3) (s : State) : Host.Outcome State Fault Refusal :=
  .next (s.issue (.sel d a b p) (Meta.of always [a, b] [d]) fun s w =>
    s.scalarOp w [a, b] d fun vs => if (s.slot w).pred p then argN vs 0 else argN vs 1)

/-- `addi` (06 Table 6.4). -/
def execAddi (d a : Spec) (imm : BitVec 14) (s : State) : Host.Outcome State Fault Refusal :=
  s.immOp (.addi d a imm) d a fun a => a + immS imm

/-- `andi` (06 Table 6.4). -/
def execAndi (d a : Spec) (imm : BitVec 14) (s : State) : Host.Outcome State Fault Refusal :=
  s.immOp (.andi d a imm) d a fun a => a &&& immZ imm

/-- `ori` (06 Table 6.4). -/
def execOri (d a : Spec) (imm : BitVec 14) (s : State) : Host.Outcome State Fault Refusal :=
  s.immOp (.ori d a imm) d a fun a => a ||| immZ imm

/-- `xori` (06 Table 6.4). -/
def execXori (d a : Spec) (imm : BitVec 14) (s : State) : Host.Outcome State Fault Refusal :=
  s.immOp (.xori d a imm) d a fun a => a ^^^ immZ imm

/-- `muli` (06 Table 6.4). -/
def execMuli (d a : Spec) (imm : BitVec 14) (s : State) : Host.Outcome State Fault Refusal :=
  s.immOp (.muli d a imm) d a fun a => a * immS imm

/-- `shli` (06 Table 6.4). -/
def execShli (d a : Spec) (cnt : BitVec 6) (s : State) : Host.Outcome State Fault Refusal :=
  s.immOp (.shli d a cnt) d a fun a => a <<< cnt.toNat

/-- `shri` (06 Table 6.4). -/
def execShri (d a : Spec) (cnt : BitVec 6) (s : State) : Host.Outcome State Fault Refusal :=
  s.immOp (.shri d a cnt) d a fun a => a >>> cnt.toNat

/-- `sari` (06 Table 6.4). -/
def execSari (d a : Spec) (cnt : BitVec 6) (s : State) : Host.Outcome State Fault Refusal :=
  s.immOp (.sari d a cnt) d a fun a => a.sshiftRight cnt.toNat

/-- `ceqi` (06 Table 6.5). -/
def execCeqi (pd : BitVec 3) (a : Spec) (imm : BitVec 14) (s : State) : Host.Outcome State Fault Refusal :=
  s.cmpImm (.ceqi pd a imm) pd a fun a => a == immS imm

/-- `clti` (06 Table 6.5). -/
def execClti (pd : BitVec 3) (a : Spec) (imm : BitVec 14) (s : State) : Host.Outcome State Fault Refusal :=
  s.cmpImm (.clti pd a imm) pd a fun a => a.slt (immS imm)

/-- `cltni` (06 Table 6.5). -/
def execCltni (pd : BitVec 3) (a : Spec) (imm : BitVec 14) (s : State) : Host.Outcome State Fault Refusal :=
  s.cmpImm (.cltni pd a imm) pd a fun a => a.ult (immZ imm)

/-- `movh`: the 20-bit immediate, sign-extended, shifted left by 14 (06 R107). -/
def execMovh (d : Spec) (imm : BitVec 20) (s : State) : Host.Outcome State Fault Refusal :=
  .next (s.issue (.movh d imm) (Meta.of always [] [d]) fun s w => s.scalarOp w [] d fun _ => imm.signExtend 64 <<< 14)

/-- `lpca`: its own address plus four times the immediate (06 R107). -/
def execLpca (d : Spec) (imm : BitVec 20) (s : State) : Host.Outcome State Fault Refusal :=
  .next (s.issue (.lpca d imm) (Meta.of always [] [d]) fun s w =>
    s.scalarOp w [] d fun _ => (s.slot w).pc + imm.signExtend 64 * 4)

/-- `ceq` (06 Table 6.5). -/
def execCeq (pd : BitVec 3) (a b : Spec) (g : Guard) (s : State) : Host.Outcome State Fault Refusal :=
  s.cmpOp (.ceq pd a b g) pd a b g fun a b => a == b

/-- `cne` (06 Table 6.5). -/
def execCne (pd : BitVec 3) (a b : Spec) (g : Guard) (s : State) : Host.Outcome State Fault Refusal :=
  s.cmpOp (.cne pd a b g) pd a b g fun a b => a != b

/-- `clt` (06 Table 6.5). -/
def execClt (pd : BitVec 3) (a b : Spec) (g : Guard) (s : State) : Host.Outcome State Fault Refusal :=
  s.cmpOp (.clt pd a b g) pd a b g fun a b => a.slt b

/-- `cle` (06 Table 6.5). -/
def execCle (pd : BitVec 3) (a b : Spec) (g : Guard) (s : State) : Host.Outcome State Fault Refusal :=
  s.cmpOp (.cle pd a b g) pd a b g fun a b => a.sle b

/-- `cltn` (06 Table 6.5). -/
def execCltn (pd : BitVec 3) (a b : Spec) (g : Guard) (s : State) : Host.Outcome State Fault Refusal :=
  s.cmpOp (.cltn pd a b g) pd a b g fun a b => a.ult b

/-- `clen` (06 Table 6.5). -/
def execClen (pd : BitVec 3) (a b : Spec) (g : Guard) (s : State) : Host.Outcome State Fault Refusal :=
  s.cmpOp (.clen pd a b g) pd a b g fun a b => a.ule b

/-- `ctst` (06 Table 6.5). -/
def execCtst (pd : BitVec 3) (a b : Spec) (g : Guard) (s : State) : Host.Outcome State Fault Refusal :=
  s.cmpOp (.ctst pd a b g) pd a b g fun a b => (a &&& b) != 0

/-- `pand` (06 Table 6.6). -/
def execPand (pd pa pb : BitVec 3) (g : Guard) (s : State) : Host.Outcome State Fault Refusal :=
  s.predOp (.pand pd pa pb g) pd pa pb g fun a b => a && b

/-- `por` (06 Table 6.6). -/
def execPor (pd pa pb : BitVec 3) (g : Guard) (s : State) : Host.Outcome State Fault Refusal :=
  s.predOp (.por pd pa pb g) pd pa pb g fun a b => a || b

/-- `pxor` (06 Table 6.6). -/
def execPxor (pd pa pb : BitVec 3) (g : Guard) (s : State) : Host.Outcome State Fault Refusal :=
  s.predOp (.pxor pd pa pb g) pd pa pb g fun a b => a != b

/-- `pandn` (06 Table 6.6). -/
def execPandn (pd pa pb : BitVec 3) (g : Guard) (s : State) : Host.Outcome State Fault Refusal :=
  s.predOp (.pandn pd pa pb g) pd pa pb g fun a b => a && !b

/-- `pget`: the predicate word, bit 0 reading 1 (06 Table 6.6). -/
def execPget (d : Spec) (g : Guard) (s : State) : Host.Outcome State Fault Refusal :=
  .next (s.issue (.pget d g) (Meta.of g [] [d]) fun s w =>
    s.scalarOp w [] d fun _ => (s.slot w).preds.setWidth 64)

/-- `pput`: p1 to p7 from bits [7:1] (06 Table 6.6). -/
def execPput (a : Spec) (g : Guard) (s : State) : Host.Outcome State Fault Refusal :=
  .next (s.issue (.pput a g) (Meta.of g [a] []) fun s w =>
    s.withSrc w [a] fun vs s => .ok (s.modSlot w fun x => { x with p := (argN vs 0).setWidth 8 ||| 1 }))

end Sys2Proof.Machine
end

