-- ==== Sys2Proof/Machine/Aes.lean ====
section
/-! DEFINITION. AES-256-GCM with a 128-bit tag, which 15 R310 names: the published standards FIPS 197 and SP 800-38D (log 80). -/

namespace Sys2Proof.Machine

/-- Product of two bytes in the field of AES. -/
def aesMul (a b : Byte) : Byte :=
  ((List.range 8).foldl (fun (r : Byte × Byte) i =>
    (if b.getLsbD i then r.1 ^^^ r.2 else r.1, (r.2 <<< 1) ^^^ (if r.2.getLsbD 7 then 0x1B else 0))) (0, a)).1

/-- The substitution box: the inverse in the field, then the affine map. -/
def aesSub (a : Byte) : Byte :=
  let i := (List.range 253).foldl (fun v _ => aesMul v a) a
  i ^^^ i.rotateLeft 1 ^^^ i.rotateLeft 2 ^^^ i.rotateLeft 3 ^^^ i.rotateLeft 4 ^^^ 0x63

/-- The substitution box as a table. -/
def aesBox : List Byte := (List.range 256).map fun i => aesSub (BitVec.ofNat 8 i)

def aesS (a : Byte) : Byte := aesBox.getD a.toNat 0

/-- The words of the key schedule of a 256-bit key: those before the last eight, newest first. -/
def aesExpand : Nat → List (List Byte) → List (List Byte)
  | 0, ws => ws
  | n + 1, ws =>
    let i := ws.length
    let t := ws.headD []
    let t := if i % 8 = 0 then
        match (t.drop 1 ++ t.take 1).map aesS with
        | b :: r => (b ^^^ (1 <<< (i / 8 - 1))) :: r
        | [] => []
      else if i % 8 = 4 then t.map aesS else t
    aesExpand n (((t.zip (ws.getD 7 [])).map fun p => p.1 ^^^ p.2) :: ws)

/-- Bytes of a number, the most significant first. -/
def beBytes (n v : Nat) : List Byte := (leBytes n v).reverse

/-- Value of bytes, the most significant first. -/
def beNat (bs : List Byte) : Nat := leNat bs.reverse

/-- The 15 round keys of 16 bytes. -/
def aesKeys (key : BitVec 256) : List (List Byte) :=
  let k := beBytes 32 key.toNat
  let ws := (aesExpand 52 ((List.range 8).map fun i => (k.drop (4 * i)).take 4).reverse).reverse
  (List.range 15).map fun r => ((ws.drop (4 * r)).take 4).flatten

/-- One block enciphered. -/
def aesBlock (keys : List (List Byte)) (b : List Byte) : List Byte :=
  let xor (x y : List Byte) : List Byte := (x.zip y).map fun p => p.1 ^^^ p.2
  let mix (s : List Byte) : List Byte := (List.range 16).map fun i =>
    let c := i / 4 * 4
    let g (k : Nat) : Byte := s.getD (c + (i + k) % 4) 0
    aesMul (g 0) 2 ^^^ aesMul (g 1) 3 ^^^ g 2 ^^^ g 3
  (List.range 14).foldl (fun s r =>
    let t := s.map aesS
    let t := (List.range 16).map fun i => t.getD ((i + 4 * (i % 4)) % 16) 0
    xor (if r = 13 then t else mix t) (keys.getD (r + 1) [])) (xor b (keys.getD 0 []))

/-- Product in the field of GHASH, bit 0 of the standard the most significant. -/
def ghashMul (x y : Nat) : Nat :=
  ((List.range 128).foldl (fun (r : Nat × Nat) i =>
    (if bitOf x (127 - i) then r.1 ^^^ r.2 else r.1, if bitOf r.2 0 then r.2 / 2 ^^^ 0xE1 * 2 ^ 120 else r.2 / 2)) (0, y)).1

/-- Bytes cut into blocks of 16, the last filled with zeros. -/
def blocks16 (bs : List Byte) : List (List Byte) :=
  (List.range ((bs.length + 15) / 16)).map fun i => let b := (bs.drop (16 * i)).take 16; b ++ List.replicate (16 - b.length) 0

/-- AES-256-GCM decryption: the plaintext, where the tag, the last 16 bytes, holds. -/
def aesGcm (key : BitVec 256) (iv : BitVec 96) (aad data : List Byte) : Option (List Byte) :=
  if data.length < 16 then none
  else
    let ks := aesKeys key
    let h := beNat (aesBlock ks (List.replicate 16 0))
    let ct := data.take (data.length - 16)
    let ctr (n : Nat) : List Byte := aesBlock ks (beBytes 12 iv.toNat ++ beBytes 4 n)
    let tail := beBytes 8 (8 * aad.length) ++ beBytes 8 (8 * ct.length)
    let g := (blocks16 aad ++ blocks16 ct ++ [tail]).foldl (fun v b => ghashMul (v ^^^ beNat b) h) 0
    if beBytes 16 (g ^^^ beNat (ctr 1)) = data.drop (data.length - 16) then
      some (((ct.zip ((List.range (blocks16 ct).length).flatMap fun i => ctr (i + 2))).map fun p => p.1 ^^^ p.2))
    else none

end Sys2Proof.Machine
end

