-- ==== Sys2Proof/Machine/Fp.lean ====
section
/-! DEFINITION. Scalar floating point (06 R110 to R113), with the subnormal rules of 05 R87 and R88, and the divides
(06 R105), which share the completion of R405. -/

namespace Sys2Proof.Machine

/-- An F32 or BF16 pattern read as zero with its sign kept when it is subnormal (05 R88). -/
def flushTy (ty b : Nat) : Nat := if isSubnormal ty b then b / 2 ^ (tyBits ty - 1) * 2 ^ (tyBits ty - 1) else b

/-- The binary32 format. -/
abbrev f32 : Fmt := ⟨8, 23, 127, true⟩

/-- Source patterns of a floating-point instruction: subnormals trap outside waves and are flushed in them, with FZ
(05 R87, R88). -/
def fpSources (inWave : Bool) (ty : Nat) (vs : List Word) : Option (List Nat × Nat) :=
  let ps := vs.map fun v => v.toNat % 2 ^ tyBits ty
  let sub := ps.any (isSubnormal ty)
  if sub && !inWave then none else some (ps.map (flushTy ty), if sub then fFZ else 0)

/-- A floating-point instruction with one scalar result (06 R110): operands once, the result and its flags. -/
def State.fpBody (s : State) (w : Who) (i : Instr) (ty : Nat) (src : List Spec) (d : Spec)
    (f : List Nat → Word × Nat) : Res :=
  match s.operands w src [d] with
  | .ok (vs, s') =>
    match fpSources (s.slot w).inWave ty vs with
    | none => .trap cAssist (wordOf i)
    | some (ps, fz) =>
      let r := f ps
      .ok ((s'.writeSpec w d r.1).modSlot w fun x => x.raiseFlags (r.2 ||| fz))
  | .wait y => .wait s y
  | .trap c e => .trap c e

/-- A two-operand F32 instruction. -/
def State.fpOp (s : State) (i : Instr) (d a b : Spec) (g : Guard) (f : Num → Num → Nat × Nat) :
    Host.Outcome State Fault Refusal :=
  .next (s.issue i (Meta.of g [a, b] [d]) fun s w => s.fpBody w i 0 [a, b] d fun ps =>
    let r := f (tyDecode 0 (ps.getD 0 0)) (tyDecode 0 (ps.getD 1 0))
    (wd r.1, r.2))

/-- Rounding of an exact F32 result with the flags that led to it. -/
def f32Of (r : Num × Nat) : Nat × Nat :=
  let q := tyEncode 0 0 r.1
  (q.1, q.2 ||| r.2)

/-- `fadd`: rne(A + B) (06 Table 6.7). -/
def execFadd (d a b : Spec) (g : Guard) (s : State) : Host.Outcome State Fault Refusal :=
  s.fpOp (.fadd d a b g) d a b g fun x y => f32Of (numAdd 0 x y)

/-- `fsub`: rne(A - B) (06 Table 6.7). -/
def execFsub (d a b : Spec) (g : Guard) (s : State) : Host.Outcome State Fault Refusal :=
  s.fpOp (.fsub d a b g) d a b g fun x y => f32Of (numAdd 0 x (numNeg y))

/-- `fmul`: rne(A x B) (06 Table 6.7). -/
def execFmul (d a b : Spec) (g : Guard) (s : State) : Host.Outcome State Fault Refusal :=
  s.fpOp (.fmul d a b g) d a b g fun x y => f32Of (numMul x y)

/-- `fmin`, `fmax`: smaller or larger under R86 (06 Table 6.7). -/
def execFmin (d a b : Spec) (g : Guard) (s : State) : Host.Outcome State Fault Refusal :=
  s.fpOp (.fmin d a b g) d a b g fun x y => f32Of (numPick false x y, 0)
def execFmax (d a b : Spec) (g : Guard) (s : State) : Host.Outcome State Fault Refusal :=
  s.fpOp (.fmax d a b g) d a b g fun x y => f32Of (numPick true x y, 0)

/-- `ffma`: rne(A x B + D), D read as a register before it is written (06 R111). -/
def execFfma (d a b : Spec) (g : Guard) (s : State) : Host.Outcome State Fault Refusal :=
  .next (s.issue (.ffma d a b g) (Meta.of g [a, b, d] [d]) fun s w =>
    s.fpBody w (.ffma d a b g) 0 [a, b, d] d fun ps =>
      let r := f32Of (numFma (tyDecode 0 (ps.getD 0 0)) (tyDecode 0 (ps.getD 1 0)) (tyDecode 0 (ps.getD 2 0)))
      (wd r.1, r.2))

/-- Result word of a conversion: a floating pattern or natural zero-extended, an integer sign-extended (06 R112). -/
def cvtWord (ty pat : Nat) : Word := if tySigned ty then sextN pat (tyBits ty) else wd pat

/-- `fcvt` (06 R112): from F32, or from BF16 when the destination is F32. -/
def execFcvt (d a : Spec) (ty : BitVec 4) (rm : BitVec 2) (g : Guard) (s : State) : Host.Outcome State Fault Refusal :=
  let st := if ty = 0 then 1 else 0
  .next (s.issue (.fcvt d a ty rm g) (Meta.of g [a] [d]) fun s w =>
    s.fpBody w (.fcvt d a ty rm g) st [a] d fun ps =>
      let r := tyEncode ty.toNat rm.toNat (tyDecode st (ps.getD 0 0))
      (cvtWord ty.toNat r.1, r.2))

/-- An F32 compare into a predicate (06 R113). -/
def State.fpCmp (s : State) (i : Instr) (pd : BitVec 3) (a b : Spec) (g : Guard) (f : Int → Bool) :
    Host.Outcome State Fault Refusal :=
  .next (s.issue i (Meta.of g [a, b] []) fun s w =>
    s.withSrc w [a, b] fun vs s' =>
      match fpSources (s.slot w).inWave 0 vs with
      | none => .trap cAssist (wordOf i)
      | some (ps, fz) =>
        let v := match numCmp (tyDecode 0 (ps.getD 0 0)) (tyDecode 0 (ps.getD 1 0)) with
          | some c => f c
          | none => false
        .ok (s'.modSlot w fun x => (x.setPred pd v).raiseFlags fz))

/-- `fceq` (06 R113). -/
def execFceq (pd : BitVec 3) (a b : Spec) (g : Guard) (s : State) : Host.Outcome State Fault Refusal :=
  s.fpCmp (.fceq pd a b g) pd a b g fun c => c == 0

/-- `fclt` (06 R113). -/
def execFclt (pd : BitVec 3) (a b : Spec) (g : Guard) (s : State) : Host.Outcome State Fault Refusal :=
  s.fpCmp (.fclt pd a b g) pd a b g fun c => decide (c < 0)

/-- `fcle` (06 R113). -/
def execFcle (pd : BitVec 3) (a b : Spec) (g : Guard) (s : State) : Host.Outcome State Fault Refusal :=
  s.fpCmp (.fcle pd a b g) pd a b g fun c => decide (c ≤ 0)

/-- Class of an F32 pattern: 0 zero, 1 subnormal, 2 normal, 3 infinity, 4 NaN (06 R113). -/
def f32Class (v : Nat) : Nat :=
  if isSubnormal 0 v then 1
  else
    match tyDecode 0 v with
    | .nan => 4
    | .inf _ => 3
    | .fin _ m _ => if m = 0 then 0 else 2

/-- `fcls`: the class of A is selected by the mask (06 R113). No subnormal assist (05 R87), and no flush in wave mode (log 98). -/
def execFcls (pd : BitVec 3) (a : Spec) (mask : BitVec 6) (g : Guard) (s : State) : Host.Outcome State Fault Refusal :=
  .next (s.issue (.fcls pd a mask g) (Meta.of g [a] []) fun s w =>
    s.withSrc w [a] fun vs s =>
      let v := (argN vs 0).toNat % 2 ^ 32
      let hit := mask.getLsbD (f32Class v) && (!mask.getLsbD 5 || bitOf v 31)
      .ok (s.modSlot w fun x => x.setPred pd hit))

/-- A long-latency instruction whose result is known at issue (06 R105, R111): it joins the pending ones. -/
def State.longResult (s : State) (w : Who) (i : Instr) (la : BitVec 4) (d : Spec) (cycles : Nat) (r : Word × Nat) :
    State := s.addPend w i la (.write d r.1 (wd r.2)) (s.now + cycles)

/-- An integer divide or remainder (06 R105), complete 36 cycles after issue. -/
def State.divOp (s : State) (i : Instr) (d a b : Spec) (la : BitVec 4) (p : BitVec 3) (f : Word → Word → Word) :
    Host.Outcome State Fault Refusal :=
  .next (s.issue i (Meta.solo (onP p) [a, b] [d]) fun s w =>
    match s.operands w [a, b] [d] with
    | .ok (vs, s') => .ok (s'.longResult w i la d 36 (f (argN vs 0) (argN vs 1), 0))
    | .wait y => .wait s y
    | .trap c e => .trap c e)

/-- The quotient of `div`: toward zero, with the two corners of R105. -/
def divWord (a b : Word) : Word := if b = 0 then -1 else BitVec.ofInt 64 (a.toInt.tdiv b.toInt)
def divnWord (a b : Word) : Word := if b = 0 then -1 else wd (a.toNat / b.toNat)
def remWord (a b : Word) : Word := if b = 0 then a else BitVec.ofInt 64 (a.toInt.tmod b.toInt)
def remnWord (a b : Word) : Word := if b = 0 then a else wd (a.toNat % b.toNat)

/-- `div` (06 R105). -/
def execDiv (d a b : Spec) (la : BitVec 4) (p : BitVec 3) (s : State) : Host.Outcome State Fault Refusal :=
  s.divOp (.div d a b la p) d a b la p divWord

/-- `divn` (06 R105). -/
def execDivn (d a b : Spec) (la : BitVec 4) (p : BitVec 3) (s : State) : Host.Outcome State Fault Refusal :=
  s.divOp (.divn d a b la p) d a b la p divnWord

/-- `rem` (06 R105). -/
def execRem (d a b : Spec) (la : BitVec 4) (p : BitVec 3) (s : State) : Host.Outcome State Fault Refusal :=
  s.divOp (.rem d a b la p) d a b la p remWord

/-- `remn` (06 R105). -/
def execRemn (d a b : Spec) (la : BitVec 4) (p : BitVec 3) (s : State) : Host.Outcome State Fault Refusal :=
  s.divOp (.remn d a b la p) d a b la p remnWord

/-- A floating-point divide or root, complete after `cycles` (06 R111). -/
def State.fpLong (s : State) (i : Instr) (d : Spec) (src : List Spec) (la : BitVec 4) (p : BitVec 3) (cycles : Nat)
    (f : List Nat → Nat × Nat) : Host.Outcome State Fault Refusal :=
  .next (s.issue i (Meta.solo (onP p) src [d]) fun s w =>
    match s.operands w src [d] with
    | .ok (vs, s') =>
      match fpSources false 0 vs with
      | none => .trap cAssist (wordOf i)
      | some (ps, _) =>
        let r := f ps
        .ok (s'.longResult w i la d cycles (wd r.1, r.2))
    | .wait y => .wait s y
    | .trap c e => .trap c e)

/-- `fdiv`: rne(A / B), 20 cycles (06 R111). -/
def execFdiv (d a b : Spec) (la : BitVec 4) (p : BitVec 3) (s : State) : Host.Outcome State Fault Refusal :=
  s.fpLong (.fdiv d a b la p) d [a, b] la p 20 fun ps =>
    numDiv 0 f32 0 (tyDecode 0 (ps.getD 0 0)) (tyDecode 0 (ps.getD 1 0))

/-- `fsqr`: rne(sqrt A), 24 cycles (06 R111). -/
def execFsqr (d a : Spec) (la : BitVec 4) (p : BitVec 3) (s : State) : Host.Outcome State Fault Refusal :=
  s.fpLong (.fsqr d a la p) d [a] la p 24 fun ps => numSqrt 0 f32 0 (tyDecode 0 (ps.getD 0 0))

/-- A divider's result: written and shifted, its flags set, the instruction complete (04 Table 4.3). It waits while a
queue it sends to can take nothing. -/
def State.divideDone (s : State) (w : Who) (seq : Nat) (ops : List Nat) : State :=
  match (s.slot w).ripe s.now seq with
  | none => s
  | some p =>
    match p.job with
    | .write d r fl =>
      if ops.contains (bits p.word.toNat 31 26) then s.land w p [(d, r)] fun x => x.raiseFlags fl.toNat else s
    | _ => s

/-- DIVIDE_COMPLETE (06 R105). -/
def execDivideComplete (w : Who) (seq : Nat) (s : State) : Host.Outcome State Fault Refusal :=
  .next (s.divideDone w seq [8, 9])

/-- FDIV_FSQR_COMPLETE (06 R111). -/
def execFdivFsqrComplete (w : Who) (seq : Nat) (s : State) : Host.Outcome State Fault Refusal :=
  .next (s.divideDone w seq [7])

end Sys2Proof.Machine
end

