-- ==== Sys2Proof/Machine/Tokens.lean ====
section
/-! DEFINITION. Power tokens drawn at issue (13 R264 to R266) and the pacing of the lanes and the array by the rotation
table (02 R22, R26). -/

namespace Sys2Proof.Machine

/-- The waiting operations of a bucket: a thread that neither waits for tokens nor has been woken to try again has left the order
(13 R266). -/
def State.tokenQueue (s : State) (cl : Nat) : List Who :=
  (s.clu cl).queue.filter fun w => ((s.slot w).st == .wait || (s.slot w).st == .run) && (s.slot w).why == .tokens

/-- FILL added for every cycle up to the present one, BAL held at CAP (13 R265). -/
def State.refillTokens (s : State) (cl : Nat) : State :=
  let rate := if s.throttled cl then (s.clu cl).fill / 2 else (s.clu cl).fill
  s.modClu cl fun c => { c with bal := min c.cap (c.bal + rate * (s.now + 1 - c.filled)), filled := max c.filled (s.now + 1) }

/-- Drawing an operation's whole cost at issue (13 R265, R266): a wave operation may draw the balance to zero, an
ordinary one down to the reserve and in its turn. `false` keeps the thread waiting, in the order. -/
def State.draw (s : State) (w : Who) (cost : Nat) : Bool × State :=
  if cost = 0 then (true, s)
  else
    let cl := s.cluster w.tile
    let s := s.refillTokens cl
    let c := s.clu cl
    if (s.slot w).inWave then
      if cost ≤ c.bal then (true, s.modClu cl fun c => { c with bal := c.bal - cost }) else (false, s)
    else
      let q := s.tokenQueue cl
      let first := match q with
        | [] => true
        | h :: _ => h == w
      if first && decide (cost + c.rsv ≤ c.bal) then
        (true, s.modClu cl fun c => { c with bal := c.bal - cost, queue := q.erase w })
      else (false, s.modClu cl fun c => { c with queue := if q.contains w then q else q ++ [w] })

/-- The cycle of the n-th occurrence, from a cycle on, of the positions a predicate accepts; none when it accepts none. -/
def nthCycle (base : Nat) (ok : Nat → Bool) (start n : Nat) : Option Nat :=
  let hits := (List.range 16).filter fun d => ok ((start + d + base) % 16)
  match hits with
  | [] => none
  | _ => some (start + (n - 1) / hits.length * 16 + hits.getD ((n - 1) % hits.length) 0)

/-- How often such positions occur from a cycle on, before another. -/
def countCycles (base : Nat) (ok : Nat → Bool) (start stop : Nat) : Nat :=
  let hits := (List.range 16).filter fun d => ok ((start + d + base) % 16)
  (stop - start) / 16 * hits.length + (hits.filter fun d => decide (d < (stop - start) % 16)).length

/-- End of `n` cycles of a column of the table from a cycle on, an accepted table counting from the cycle in which it takes effect
(02 R23, R26). -/
def Tile.columnEnd (t : Tile) (ok : Vector (BitVec 32) 16 → Nat → Bool) (start n : Nat) : Option Nat :=
  match t.rotNext with
  | none => nthCycle t.cycBase (ok t.rtab) start n
  | some (e, new) =>
    let k := countCycles t.cycBase (ok t.rtab) start e
    if n ≤ k then nthCycle t.cycBase (ok t.rtab) start n else nthCycle t.cycBase (ok new) (max start e) (n - k)

/-- End of `n` lane cycles of a slot from a cycle on (02 R26). -/
def State.laneEnd (s : State) (w : Who) (start n : Nat) : Option Nat :=
  (s.tile w.tile).columnEnd (fun tab p => columnNames tab 10 p w.slot) start n

/-- The same for the array. -/
def State.arrayEnd (s : State) (w : Who) (start n : Nat) : Option Nat :=
  (s.tile w.tile).columnEnd (fun tab p => columnNames tab 5 p w.slot) start n

/-- Whether a wave instruction of `n` lane or array cycles ends within the cycles c to c + 15 (02 R34). -/
def endsInWave (now : Nat) : Option Nat → Bool
  | some e => decide (e ≤ now + 15)
  | none => false

end Sys2Proof.Machine
end

