-- ==== Sys2Proof/Machine/Vector.lean ====
section
/-! DEFINITION. Vector instructions (08 R151 to R169). -/

namespace Sys2Proof.Machine

/-- The shape in force: rows, columns, source type (03 Table 3.5). -/
structure Shape where
  r : Nat
  c : Nat
  ty : Nat
  deriving DecidableEq, Repr

def Slot.shape (x : Slot) : Shape := ⟨vRows x.vshp, vCols x.vshp, vTy x.vshp⟩
def Shape.n (h : Shape) : Nat := h.r * h.c

/-- Lane cycles of B bytes (08 R152). -/
def lanesOf (b : Nat) : Nat := max 1 ((b + 127) / 128)

/-- What a vector instruction would do: its cause, or the bytes written, its lane cycles and flags. -/
inductive VPlan where
  | bad (cause : Nat)
  | run (writes : List (Nat × Nat × List Byte)) (lanes flags : Nat)

/-- Issue of a vector instruction (08 R151 to R154): checks, tokens, and pending behind at most one other; in a wave it
ends within its rotation and its result stands at once. -/
def State.vecOp (s : State) (i : Instr) (g : Guard) (os : List Spec) (vr vw : List Nat)
    (plan : Slot → List Word → VPlan) : Host.Outcome State Fault Refusal :=
  .next (s.issue i ⟨g, os, [], vr, vw, true⟩ fun s w =>
    s.withSrc w os fun vs s =>
      let x := s.slot w
      match plan x vs with
      | .bad c => .trap c (wordOf i)
      | .run ws n fl =>
        if x.inWave then
          if endsInWave s.now (s.laneEnd w s.now n) then
            match s.draw w n with
            | (true, s) => .ok (s.modSlot w fun x =>
                (ws.foldl (fun x q => x.vwrite q.1 q.2.1 q.2.2) x).raiseFlags fl)
            | (false, s) => .wait s .tokens
          else .wait s .vector
        else if 2 ≤ x.vpend.length then .wait s .vector
        else
          match s.draw w n with
          | (false, s) => .wait s .tokens
          | (true, s) => .ok (s.modSlot w fun x =>
              { x with vpend := x.vpend ++ [⟨x.iseq + 1, ws, vr, n, fl, s.now⟩] }))

/-- Cycle in which the oldest pending vector instruction of a thread ends (08 R152, R153). -/
def State.vectorEnd (s : State) (w : Who) : Option Nat :=
  match (s.slot w).vpend with
  | [] => none
  | p :: _ => s.laneEnd w p.since p.lanes

/-- VECTOR_COMPLETE (08 R152 to R154): the oldest pending instruction writes its result and flags; the lane cycles of the
next begin after its last one. -/
def execVectorComplete (w : Who) (s : State) : Host.Outcome State Fault Refusal :=
  .next <|
    match (s.slot w).vpend, s.vectorEnd w with
    | p :: rest, some e =>
      if s.now < e then s
      else s.modSlot w fun x =>
        let x := (p.writes.foldl (fun x q => x.vwrite q.1 q.2.1 q.2.2) x).raiseFlags p.flags
        { x with vpend := rest.map fun q => { q with since := max q.since (e + 1) } }
    | _, _ => s

/-- Source elements under R87 and R88: none when a subnormal traps, else the patterns with FZ. -/
def vecSources (x : Slot) (assist : Bool) (ty n : Nat) (v : Nat) : Option (List Nat × Nat) :=
  let es := x.velems v ty n
  if assist && decide (ty ≤ 1) && es.any (isSubnormal ty) then
    if x.inWave then some (es.map (flushTy ty), fFZ) else none
  else some (es, 0)

/-- An elementwise instruction of one, two or three vector sources, all of the shape's type (08 R155 to R158). -/
def elementwise (x : Slot) (ty vd : Nat) (srcs : List Nat) (assist : Bool) (f : List Nat → Nat × Nat) : VPlan :=
  let h := x.shape
  if h.ty ≠ ty then .bad cVType
  else
    let got := srcs.map (vecSources x assist ty h.n)
    if got.any fun q => q.isNone then .bad cAssist
    else
      let cols := got.map fun q => (q.getD ([], 0)).1
      let fz := got.foldl (fun a q => a ||| (q.getD ([], 0)).2) 0
      let rs := (List.range h.n).map fun k => f (cols.map fun c => c.getD k 0)
      .run [(vd, 0, packElems ty (rs.map fun r => r.1))] (lanesOf (tyBytes ty h.n)) (rs.foldl (fun a r => a ||| r.2) fz)

/-- A rounded floating result of a type. -/
def flOf (ty : Nat) (r : Num × Nat) : Nat × Nat :=
  let q := tyEncode ty 0 r.1
  (q.1, q.2 ||| r.2)

/-- Integer elements as integers, signed or natural by the type. -/
def tyInt (ty b : Nat) : Int := if tySigned ty then sval b (tyBits ty) else (b % 2 ^ tyBits ty : Nat)

/-- An arithmetic element operation: floating by `ff`, integer by `fi` modulo 2^w (08 R155). -/
def arith (ty : Nat) (ff : List Num → Num × Nat) (fi : List Int → Int) (ps : List Nat) : Nat × Nat :=
  if ty ≤ 3 then flOf ty (ff (ps.map (tyDecode ty))) else (wrapN (fi (ps.map (tyInt ty))) (tyBits ty), 0)

def n0 (l : List Num) : Num := l.getD 0 .nan
def n1 (l : List Num) : Num := l.getD 1 .nan
def n2 (l : List Num) : Num := l.getD 2 .nan
def i0 (l : List Int) : Int := l.getD 0 0
def i1 (l : List Int) : Int := l.getD 1 0
def i2 (l : List Int) : Int := l.getD 2 0

/-- A two-source arithmetic instruction. -/
def State.vecArith (s : State) (i : Instr) (vd va vb ty : BitVec 4) (g : Guard) (ff : List Num → Num × Nat)
    (fi : List Int → Int) : Host.Outcome State Fault Refusal :=
  s.vecOp i g [] [va.toNat, vb.toNat] [vd.toNat] fun x _ =>
    elementwise x ty.toNat vd.toNat [va.toNat, vb.toNat] true (arith ty.toNat ff fi)

/-- `vadd` (08 R155). -/
def execVadd (vd va vb ty : BitVec 4) (g : Guard) (s : State) : Host.Outcome State Fault Refusal :=
  s.vecArith (.vadd vd va vb ty g) vd va vb ty g (fun l => numAdd 0 (n0 l) (n1 l)) fun l => i0 l + i1 l

/-- `vsub` (08 R155). -/
def execVsub (vd va vb ty : BitVec 4) (g : Guard) (s : State) : Host.Outcome State Fault Refusal :=
  s.vecArith (.vsub vd va vb ty g) vd va vb ty g (fun l => numAdd 0 (n0 l) (numNeg (n1 l))) fun l => i0 l - i1 l

/-- `vmul` (08 R155). -/
def execVmul (vd va vb ty : BitVec 4) (g : Guard) (s : State) : Host.Outcome State Fault Refusal :=
  s.vecArith (.vmul vd va vb ty g) vd va vb ty g (fun l => numMul (n0 l) (n1 l)) fun l => i0 l * i1 l

/-- `vfma`: one rounding, vd read as the addend (08 R155). -/
def execVfma (vd va vb ty : BitVec 4) (g : Guard) (s : State) : Host.Outcome State Fault Refusal :=
  s.vecOp (.vfma vd va vb ty g) g [] [va.toNat, vb.toNat, vd.toNat] [vd.toNat] fun x _ =>
    elementwise x ty.toNat vd.toNat [va.toNat, vb.toNat, vd.toNat] true
      (arith ty.toNat (fun l => numFma (n0 l) (n1 l) (n2 l)) fun l => i0 l * i1 l + i2 l)

/-- `vmin` (08 R155). -/
def execVmin (vd va vb ty : BitVec 4) (g : Guard) (s : State) : Host.Outcome State Fault Refusal :=
  s.vecArith (.vmin vd va vb ty g) vd va vb ty g (fun l => (numPick false (n0 l) (n1 l), 0)) fun l => min (i0 l) (i1 l)

/-- `vmax` (08 R155). -/
def execVmax (vd va vb ty : BitVec 4) (g : Guard) (s : State) : Host.Outcome State Fault Refusal :=
  s.vecArith (.vmax vd va vb ty g) vd va vb ty g (fun l => (numPick true (n0 l) (n1 l), 0)) fun l => max (i0 l) (i1 l)

/-- `vsel`: vd is the mask (08 R158). -/
def execVsel (vd va vb ty : BitVec 4) (g : Guard) (s : State) : Host.Outcome State Fault Refusal :=
  s.vecOp (.vsel vd va vb ty g) g [] [va.toNat, vb.toNat, vd.toNat] [vd.toNat] fun x _ =>
    elementwise x ty.toNat vd.toNat [va.toNat, vb.toNat, vd.toNat] false fun ps =>
      (if ps.getD 2 0 ≠ 0 then ps.getD 0 0 else ps.getD 1 0, 0)

/-- Order of two elements of a type; none with a NaN (08 R158). -/
def elemCmp (ty a b : Nat) : Option Int := numCmp (tyDecode ty a) (tyDecode ty b)

/-- A compare: all ones or all zeros (08 R158). -/
def State.vecCmp (s : State) (i : Instr) (vd va vb ty : BitVec 4) (g : Guard) (f : Int → Bool) :
    Host.Outcome State Fault Refusal :=
  s.vecOp i g [] [va.toNat, vb.toNat] [vd.toNat] fun x _ =>
    elementwise x ty.toNat vd.toNat [va.toNat, vb.toNat] true fun ps =>
      (match elemCmp ty.toNat (ps.getD 0 0) (ps.getD 1 0) with
        | some c => if f c then 2 ^ tyBits ty.toNat - 1 else 0
        | none => 0, 0)

/-- `vcmp.eq` (08 R158). -/
def execVcmpEq (vd va vb ty : BitVec 4) (g : Guard) (s : State) : Host.Outcome State Fault Refusal :=
  s.vecCmp (.vcmpEq vd va vb ty g) vd va vb ty g fun c => c == 0

/-- `vcmp.lt` (08 R158). -/
def execVcmpLt (vd va vb ty : BitVec 4) (g : Guard) (s : State) : Host.Outcome State Fault Refusal :=
  s.vecCmp (.vcmpLt vd va vb ty g) vd va vb ty g fun c => decide (c < 0)

/-- `vcmp.le` (08 R158). -/
def execVcmpLe (vd va vb ty : BitVec 4) (g : Guard) (s : State) : Host.Outcome State Fault Refusal :=
  s.vecCmp (.vcmpLe vd va vb ty g) vd va vb ty g fun c => decide (c ≤ 0)

/-- An instruction on bit patterns (08 R157). -/
def State.vecBits (s : State) (i : Instr) (vd va vb ty : BitVec 4) (g : Guard) (f : Nat → Nat → Nat) :
    Host.Outcome State Fault Refusal :=
  s.vecOp i g [] [va.toNat, vb.toNat] [vd.toNat] fun x _ =>
    elementwise x ty.toNat vd.toNat [va.toNat, vb.toNat] false fun ps => (f (ps.getD 0 0) (ps.getD 1 0), 0)

/-- `vand` (08 R157). -/
def execVand (vd va vb ty : BitVec 4) (g : Guard) (s : State) : Host.Outcome State Fault Refusal :=
  s.vecBits (.vand vd va vb ty g) vd va vb ty g fun a b => a &&& b

/-- `vor` (08 R157). -/
def execVor (vd va vb ty : BitVec 4) (g : Guard) (s : State) : Host.Outcome State Fault Refusal :=
  s.vecBits (.vor vd va vb ty g) vd va vb ty g fun a b => a ||| b

/-- `vxor` (08 R157). -/
def execVxor (vd va vb ty : BitVec 4) (g : Guard) (s : State) : Host.Outcome State Fault Refusal :=
  s.vecBits (.vxor vd va vb ty g) vd va vb ty g fun a b => a ^^^ b

/-- `vshl`: shift by vb modulo w (08 R157). -/
def execVshl (vd va vb ty : BitVec 4) (g : Guard) (s : State) : Host.Outcome State Fault Refusal :=
  s.vecBits (.vshl vd va vb ty g) vd va vb ty g fun a b =>
    let w := tyBits ty.toNat
    a * 2 ^ (b % w) % 2 ^ w

/-- `vshr`: arithmetic on I types, logical on N types (08 R157). -/
def execVshr (vd va vb ty : BitVec 4) (g : Guard) (s : State) : Host.Outcome State Fault Refusal :=
  s.vecBits (.vshr vd va vb ty g) vd va vb ty g fun a b =>
    let w := tyBits ty.toNat
    wrapN (tyInt ty.toNat a / 2 ^ (b % w)) w

/-- A one-source instruction on bit patterns. -/
def State.vecUn (s : State) (i : Instr) (vd va ty : BitVec 4) (g : Guard) (f : Nat → Nat) :
    Host.Outcome State Fault Refusal :=
  s.vecOp i g [] [va.toNat] [vd.toNat] fun x _ =>
    elementwise x ty.toNat vd.toNat [va.toNat] false fun ps => (f (ps.getD 0 0), 0)

/-- `vabs` (08 R156). -/
def execVabs (vd va ty : BitVec 4) (g : Guard) (s : State) : Host.Outcome State Fault Refusal :=
  s.vecUn (.vabs vd va ty g) vd va ty g fun a =>
    let w := tyBits ty.toNat
    if ty.toNat ≤ 3 then a % 2 ^ (w - 1) else wrapN (tyInt ty.toNat a).natAbs w

/-- `vneg` (08 R156). -/
def execVneg (vd va ty : BitVec 4) (g : Guard) (s : State) : Host.Outcome State Fault Refusal :=
  s.vecUn (.vneg vd va ty g) vd va ty g fun a =>
    let w := tyBits ty.toNat
    if ty.toNat ≤ 3 then a ^^^ 2 ^ (w - 1) else wrapN (-(tyInt ty.toNat a)) w

/-- `vmov`: the covered bytes, Q4X included (08 R156). -/
def execVmov (vd va ty : BitVec 4) (g : Guard) (s : State) : Host.Outcome State Fault Refusal :=
  s.vecOp (.vmov vd va ty g) g [] [va.toNat] [vd.toNat] fun x _ =>
    let h := x.shape
    let n := tyBytes h.ty h.n
    if h.ty ≠ ty.toNat then .bad cVType else .run [(vd.toNat, 0, x.vbytes va.toNat 0 n)] (lanesOf n) 0

/-- Elements computed from a source of another type (08 R151: the destination must fit 2,048 bytes). -/
def convertPlan (x : Slot) (td vd va : Nat) (f : Nat → Nat × Nat) : VPlan :=
  let h := x.shape
  if 2048 < tyBytes td h.n then .bad cVShape
  else
    match vecSources x true h.ty h.n va with
    | none => .bad cAssist
    | some (es, fz) =>
      let rs := es.map f
      .run [(vd, 0, packElems td (rs.map fun r => r.1))] (lanesOf (max (tyBytes td h.n) (tyBytes h.ty h.n)))
        (rs.foldl (fun a r => a ||| r.2) fz)

/-- `vcvt` (08 R159). -/
def execVcvt (vd va : BitVec 4) (rm : BitVec 2) (ty : BitVec 4) (g : Guard) (s : State) :
    Host.Outcome State Fault Refusal :=
  s.vecOp (.vcvt vd va rm ty g) g [] [va.toNat] [vd.toNat] fun x _ =>
    let h := x.shape
    if h.ty = 4 then .bad cVType
    else convertPlan x ty.toNat vd.toNat va.toNat fun a => tyEncode ty.toNat rm.toNat (tyDecode h.ty a)

/-- One of the functions of Table 8.3 per element (08 R160). -/
def State.vecApprox (s : State) (i : Instr) (fn : Nat) (vd va ty : BitVec 4) (g : Guard) :
    Host.Outcome State Fault Refusal :=
  s.vecOp i g [] [va.toNat] [vd.toNat] fun x _ =>
    elementwise x ty.toNat vd.toNat [va.toNat] true fun ps => approx fn ty.toNat (tyDecode ty.toNat (ps.getD 0 0))

/-- `vrcp` (08 R160). -/
def execVrcp (vd va ty : BitVec 4) (g : Guard) (s : State) : Host.Outcome State Fault Refusal :=
  s.vecApprox (.vrcp vd va ty g) 0 vd va ty g

/-- `vrsq` (08 R160). -/
def execVrsq (vd va ty : BitVec 4) (g : Guard) (s : State) : Host.Outcome State Fault Refusal :=
  s.vecApprox (.vrsq vd va ty g) 1 vd va ty g

/-- `vexp` (08 R160). -/
def execVexp (vd va ty : BitVec 4) (g : Guard) (s : State) : Host.Outcome State Fault Refusal :=
  s.vecApprox (.vexp vd va ty g) 2 vd va ty g

/-- `vlog` (08 R160). -/
def execVlog (vd va ty : BitVec 4) (g : Guard) (s : State) : Host.Outcome State Fault Refusal :=
  s.vecApprox (.vlog vd va ty g) 3 vd va ty g

/-- Scale slot of a block (08 R165). -/
def scaleOff (row blk : Nat) : Nat := 2 * (8 * row + blk)

/-- `vqnt` (08 R165; 05 R98): each row in blocks of 32 columns, elements to vd, scales to vb. -/
def execVqnt (vd va vb ty : BitVec 4) (g : Guard) (s : State) : Host.Outcome State Fault Refusal :=
  s.vecOp (.vqnt vd va vb ty g) g [] [va.toNat] [vd.toNat, vb.toNat] fun x _ =>
    let h := x.shape
    if 1 < h.ty then .bad cVType
    else if h.c % 2 ≠ 0 then .bad cVShape
    else
      match vecSources x true h.ty h.n va.toNat with
      | none => .bad cAssist
      | some (es, fz) =>
        let nb := (h.c + 31) / 32
        let qs := (List.range h.r).flatMap fun i => (List.range nb).map fun k =>
          let blk := ((es.drop (i * h.c + 32 * k)).take (min 32 (h.c - 32 * k))).map (tyDecode h.ty)
          (i, k, quantBlock blk)
        let codes := qs.flatMap fun q => q.2.2.2.1
        let bytes := (chunks 2 (codes.length / 2) codes).map fun p => BitVec.ofNat 8 (p.getD 0 0 + 16 * p.getD 1 0)
        let scales := qs.map fun q => (vb.toNat, scaleOff q.1 q.2.1, leBytes 2 q.2.2.1)
        .run ((vd.toNat, 0, bytes) :: scales) (lanesOf (tyBytes h.ty h.n)) (qs.foldl (fun a q => a ||| q.2.2.2.2) fz)

/-- `vdq` (08 R165; 05 R99): a decoding anomaly sets QA. -/
def execVdq (vd va vb ty : BitVec 4) (g : Guard) (s : State) : Host.Outcome State Fault Refusal :=
  s.vecOp (.vdq vd va vb ty g) g [] [va.toNat, vb.toNat] [vd.toNat] fun x _ =>
    let h := x.shape
    let td := ty.toNat
    if h.ty ≠ 4 then .bad cVType
    else if 2048 < tyBytes td h.n then .bad cVShape
    else
      let rows := (List.range h.r).map fun i => (i, q4Row (x.vbytes va.toNat (i * (h.c / 2)) (h.c / 2)))
      let rs := rows.flatMap fun q => (List.range h.c).map fun j =>
        dequant td (q.2.1.getD j .nan) (tyDecode 1 (leNat (x.vbytes vb.toNat (scaleOff q.1 (j / 32)) 2)))
      let qa := if rows.any fun q => q.2.2 then fQA else 0
      .run [(vd.toNat, 0, packElems td (rs.map fun r => r.1))] (lanesOf (max (tyBytes td h.n) (tyBytes 4 h.n)))
        (rs.foldl (fun a r => a ||| r.2) qa)

/-- `vshp` written, by the instruction or by `sysw` (03 R53; 08 R166). -/
def Slot.setShape (x : Slot) (v : Word) : Option Slot :=
  if vshpOk v then some { x with vshp := vshpMask v } else none

/-- `vshp oN` (08 R166). -/
def execVshp (o : BitVec 3) (g : Guard) (s : State) : Host.Outcome State Fault Refusal :=
  .next (s.issue (.vshp o g) (Meta.of g [.o o] []) fun s w =>
    s.withSrc w [.o o] fun vs s =>
      match (s.slot w).setShape (argN vs 0) with
      | some x => .ok (s.setSlot w x)
      | none => .trap cVShape (wordOf (.vshp o g)))

/-- A reduction step: rounded in F32 for floats, modulo 2^w for integers (08 R161). -/
def redStep (ty op : Nat) (acc : Nat × Nat) (e : Nat) : Nat × Nat :=
  if ty ≤ 1 then
    let a := tyDecode 0 acc.1
    let b := tyDecode ty e
    match op with
    | 0 =>
      let r := flOf 0 (numAdd 0 a b)
      (r.1, r.2 ||| acc.2)
    | 1 => ((tyEncode 0 0 (numPick true a b)).1, acc.2)
    | _ => ((tyEncode 0 0 (numPick false a b)).1, acc.2)
  else
    let a := tyInt ty acc.1
    let b := tyInt ty e
    (wrapN (match op with
      | 0 => a + b
      | 1 => max a b
      | _ => min a b) (tyBits ty), acc.2)

/-- One line reduced in ascending order; a line of one element stays as it is (08 R161). -/
def redLine (ty op : Nat) : List Nat → Nat × Nat
  | [] => (0, 0)
  | [e] => (e, 0)
  | e :: rest =>
    if ty = 1 then
      let r := rest.foldl (redStep 1 op) ((tyEncode 0 0 (tyDecode 1 e)).1, 0)
      let q := tyEncode 1 0 (tyDecode 0 r.1)
      (q.1, r.2 ||| q.2)
    else rest.foldl (redStep ty op) (e, 0)

/-- `vred` (08 R161). -/
def execVred (vd va : BitVec 4) (rop : BitVec 2) (dir : BitVec 1) (ty : BitVec 4) (g : Guard) (s : State) :
    Host.Outcome State Fault Refusal :=
  s.vecOp (.vred vd va rop dir ty g) g [] [va.toNat] [vd.toNat] fun x _ =>
    let h := x.shape
    if h.ty ≠ ty.toNat then .bad cVType
    else
      match vecSources x true h.ty h.n va.toNat with
      | none => .bad cAssist
      | some (es, fz) =>
        let lines := if dir = 0 then (List.range h.r).map fun i => (List.range h.c).map fun j => es.getD (i * h.c + j) 0
          else (List.range h.c).map fun j => (List.range h.r).map fun i => es.getD (i * h.c + j) 0
        let rs := lines.map (redLine h.ty rop.toNat)
        .run [(vd.toNat, 0, packElems h.ty (rs.map fun r => r.1))] (lanesOf (tyBytes h.ty h.n))
          (rs.foldl (fun a r => a ||| r.2) fz)

/-- `vbc` (08 R162). -/
def execVbc (vd : BitVec 4) (o : BitVec 3) (ty : BitVec 4) (g : Guard) (s : State) : Host.Outcome State Fault Refusal :=
  s.vecOp (.vbc vd o ty g) g [.o o] [] [vd.toNat] fun x vs =>
    let h := x.shape
    if h.ty ≠ ty.toNat then .bad cVType
    else
      let e := (argN vs 0).toNat % 2 ^ tyBits h.ty
      .run [(vd.toNat, 0, packElems h.ty (List.replicate h.n e))] (lanesOf (tyBytes h.ty h.n)) 0

/-- `vtr`: the transpose, C rows x R columns (08 R163). -/
def execVtr (vd va ty : BitVec 4) (g : Guard) (s : State) : Host.Outcome State Fault Refusal :=
  s.vecOp (.vtr vd va ty g) g [] [va.toNat] [vd.toNat] fun x _ =>
    let h := x.shape
    if h.ty ≠ ty.toNat then .bad cVType
    else if 64 < h.c then .bad cVShape
    else
      let es := x.velems va.toNat h.ty h.n
      let rs := (List.range h.c).flatMap fun j => (List.range h.r).map fun i => es.getD (i * h.c + j) 0
      .run [(vd.toNat, 0, packElems h.ty rs)] (lanesOf (tyBytes h.ty h.n)) 0

/-- `vrot` (08 R164). -/
def execVrot (vd va : BitVec 4) (o : BitVec 3) (ty : BitVec 4) (g : Guard) (s : State) :
    Host.Outcome State Fault Refusal :=
  s.vecOp (.vrot vd va o ty g) g [.o o] [va.toNat] [vd.toNat] fun x vs =>
    let h := x.shape
    if h.ty ≠ ty.toNat then .bad cVType
    else
      let v := (argN vs 0).toNat
      let kc := bits v 7 0 % h.c
      let kr := bits v 13 8 % h.r
      let es := x.velems va.toNat h.ty h.n
      let rs := (List.range h.r).flatMap fun i => (List.range h.c).map fun j =>
        es.getD ((i + h.r - kr) % h.r * h.c + (j + h.c - kc) % h.c) 0
      .run [(vd.toNat, 0, packElems h.ty rs)] (lanesOf (tyBytes h.ty h.n)) 0

/-- The access of a vector load or store: the bytes the shape covers; of Q4X two elements a byte (08 R167). -/
def vecAcc (am : BitVec 2) (v : Word) (h : Shape) : Acc :=
  ⟨am.toNat, addrOf v, if h.ty = 4 then h.r * (h.c / 2) else tyBytes h.ty h.n, 1, 0, h.r, [], false⟩

/-- Alignment of 16 for the address alone (08 R167). -/
def misaligned16 (v : Word) : Bool := addrOf v % 16 != 0

/-- Checks of a vector access in the order mode, range, alignment, then translation (22 R353). -/
def State.openVec (s : State) (w : Who) (word : Word) (a : Acc) (v : Word) (need : Need) : Opened :=
  if misaligned16 v && s.inRange w.tile a.am a.pieces && !((s.slot w).inWave && (a.am != 1 || s.leavesTile w.tile a)) &&
      !((s.slot w).red.isSome && s.leavesTile w.tile a) then
    .trap cAlign (evalAddr a.am a.addr)
  else s.openAcc w word a 1 need

/-- `vld` (08 R167). -/
def execVld (v : BitVec 4) (a : Spec) (rd am : BitVec 2) (la : BitVec 4) (p : BitVec 3) (s : State) :
    Host.Outcome State Fault Refusal :=
  .next (s.issue (.vld v a rd am la p) ⟨onP p, [a], [], [], [v.toNat], am == 1⟩ fun s w =>
    s.withSrc w [a] fun vs s =>
      let acc := vecAcc am (argN vs 0) (s.slot w).shape
      match s.openVec w (wordOf (.vld v a rd am la p)) acc (argN vs 0) .read with
      | .trap c e => .trap c e
      | .go acc d s =>
        if (s.slot w).inWave then
          .ok ((s.modTile w.tile fun x => x.takePath s.now).modSlot w fun x => x.vwrite v.toNat 0 (s.ownBytes w acc.parts))
        else
          .ok (s.openPend w (.vld v a rd am la p) la (.vload v.toNat acc rd.toNat) d
            (s.latencies w.tile acc false)))

/-- `vst` (08 R167): vK is read at issue. -/
def execVst (v : BitVec 4) (a : Spec) (rd am : BitVec 2) (la : BitVec 4) (p : BitVec 3) (s : State) :
    Host.Outcome State Fault Refusal :=
  .next (s.issue (.vst v a rd am la p) ⟨onP p, [a], [], [v.toNat], [], am == 1⟩ fun s w =>
    s.withSrc w [a] fun vs s =>
      let x := s.slot w
      let acc := vecAcc am (argN vs 0) x.shape
      match s.openVec w (wordOf (.vst v a rd am la p)) acc (argN vs 0) .write with
      | .trap c e => .trap c e
      | .go _ _ _ =>
        let data := x.vbytes v.toNat 0 acc.len
        s.storeData w (.vst v a rd am la p) la acc 1 x.shape.ty data 0 none rd.toNat)

end Sys2Proof.Machine
end

