-- ==== Sys2Proof/Machine/Matrix.lean ====
section
/-! DEFINITION. Matrix instructions, their rows, hand-offs and bands (09 R170 to R193; 05 R82, R89, R93 to R97). -/

namespace Sys2Proof.Machine

/-- A task of a context still bound on a tile (03 R55). -/
def Tile.bound (t : Tile) (ctx : Nat) : Bool := t.slots.any fun e => e.2.ctx == some ctx && e.2.task.isSome

/-- BE written: a band disabled is gated at once, a band enabled is woken with a token of its own, even while the token of an earlier wake
is still held (09 R177). -/
def State.setBands (s : State) (t be : Nat) : State :=
  let keep : BitVec 4 := BitVec.ofNat 4 be
  let s := (s.modMx t fun m => { m with mshp := wd (be % 16), rails := m.rails &&& keep, wakes := m.wakes &&& keep }).modSlab
    (s.slabOf t) fun l => { l with wakes := l.wakes.filter fun r =>
      match r.what with
      | .band u b => !(u == t && !bitOf be b && r.granted.isNone)
      | _ => true }
  s.wakeBands t

/-- Matrix and bound state set to its cold-start values for a new owner; band power stays as it is, a hand-off on its way goes on
(03 R55; 09 R173, R176, R177). -/
def State.resetMx (s : State) (t : Nat) : State :=
  (s.modMx t fun m =>
    { Matrix.cold with
      rails := m.rails, wakes := m.wakes, bndVer := m.bndVer.map (· + 1), rowsW := List.range 256, latchDirty := true }).wakeBands t

/-- Ownership of a tile's matrix and bound state (03 R55): the trap while a task of the owning context is bound there,
otherwise the state passes. `writes` says that the instruction writes it. -/
def State.ownMx (s : State) (w : Who) (writes : Bool) : Option State :=
  let ctx := (s.slot w).ctx.getD 0
  let own := fun (s : State) => if writes then s.modMx w.tile fun m => { m with owner := some ctx } else s
  match (s.tile w.tile).mx.owner with
  | none => some (own s)
  | some c =>
    if c = ctx then some s
    else if (s.tile w.tile).bound c then none
    else some ((s.resetMx w.tile).modMx w.tile fun m => { m with owner := some ctx })

/-- A matrix instruction that issues under R171 and R55. -/
def State.matOp (s : State) (i : Instr) (g : Guard) (os : List Spec) (vr vw : List Nat) (ordered writes : Bool)
    (body : State → Who → List Word → Res) : Host.Outcome State Fault Refusal :=
  .next (s.issue i ⟨g, os, [], vr, vw, true⟩ fun s w =>
    if ordered && (s.tile w.tile).stepPending then .wait s .matrix
    else s.withSrc w os fun vs s =>
      match s.ownMx w writes with
      | none => .trap cMOwner (wd ((s.tile w.tile).mx.owner.getD 0))
      | some s => body s w vs)

/-- The checks of an operand of the own tile's scratchpad in their order (09 R174; 11 R221): the number of the first that fails, with its
cause. -/
def State.padCheck (s : State) (w : Who) (v : Word) (n align : Nat) : Option (Nat × Nat) :=
  if modeOf v = 3 then some (3, cMode)
  else
    let off := match if modeOf v = 1 then s.locOf w.tile (addrOf v) else none with
      | some (u, off) => if u ≠ w.tile ∨ settOff < off + n then none else some off
      | none => none
    match off with
    | none => some (4, cRange)
    | some off =>
      if off % align ≠ 0 then some (5, cAlign)
      else if s.reserved w.tile ((s.slot w).ctx.getD 0) off n then none
      else some (6, cProtection)

/-- The operand that fails the first check, with its cause: each check is made of both operands before the next (09 R174). -/
def firstPad (ps : List (Option (Nat × Nat))) : Option (Nat × Nat) :=
  (listMin (fun e => e.1 * 2 + e.2.1) ((List.range ps.length).filterMap fun k =>
    match ps.getD k none with
    | some (n, c) => some (n, k, c)
    | none => none)).map fun e => e.2

/-- Offset of an operand that has passed its checks. -/
def padOff (v : Word) : Nat := bits (addrOf v) 20 0

/-- An operand of the own tile's scratchpad (09 R174 checks 3 to 5, R187; 11 R221): its offset, or the cause. -/
def State.ownPad (s : State) (w : Who) (v : Word) (n align : Nat) : Except Nat Nat :=
  if modeOf v = 3 then .error cMode
  else if modeOf v ≠ 1 then .error cRange
  else
    match s.locOf w.tile (addrOf v) with
    | none => .error cRange
    | some (u, off) =>
      if u ≠ w.tile ∨ settOff < off + n then .error cRange
      else if off % align ≠ 0 then .error cAlign
      else if s.reserved u ((s.slot w).ctx.getD 0) off n then .ok off
      else .error cProtection

/-- Weight and activation formats the array takes (09 R174; 05 Table 5.9). -/
def matFmt (f : Nat) : Bool := f == 1 || f == 2 || f == 4 || f == 5

/-- Pairings of Table 5.9. -/
def paired (wf af : Nat) : Bool :=
  if wf = 1 ∨ af = 1 then wf == af else if wf = 4 ∨ af = 4 then wf == af else true

/-- Elements of one band of an operand row (05 Table 5.9). -/
def bandLen (f : Nat) : Nat := if f = 4 then 48 else if f = 1 then 12 else 24

/-- Elements of an operand row of 96 bytes and whether an anomaly was met (05 R82). -/
def rowElems (f : Nat) (bs : List Byte) : List Num × Bool :=
  if f = 4 then q4Row bs
  else if f = 1 then ((chunks 2 48 bs).map fun c => tyDecode 1 (leNat c), false)
  else (bs.map fun b => tyDecode f b.toNat, false)

/-- A subnormal BF16 or F8A input reads as zero with its sign (05 R89). -/
def flushIn (f : Nat) (x : Num) : Num × Bool :=
  match x with
  | .fin sg m e =>
    if f ≠ 5 ∧ m ≠ 0 ∧ (Nat.log2 m : Int) + e < (if f = 1 then -126 else -6) then (.fin sg 0 0, true) else (x, false)
  | _ => (x, false)

/-- An operand row decoded and flushed: elements, flushed places, anomaly. -/
def inputRow (f : Nat) (bs : List Byte) : List Num × List Bool × Bool :=
  let r := rowElems f bs
  let fl := r.1.map (flushIn f)
  (fl.map fun q => q.1, fl.map fun q => q.2, r.2)

/-- Fixed-point places of exact sums: 2^-9 for a narrow element, 2^-133 for BF16. -/
def places (f : Nat) : Int := if f = 1 then 133 else 9

def isFin : Num → Bool
  | .fin _ _ _ => true
  | _ => false

/-- A finite value in units of 2^-places; others count as zero. -/
def fixed (f : Nat) : Num → Int
  | .fin sg m e => numAt sg m e (-(places f))
  | _ => 0

/-- The tile a weight image and a scale image hold (09 R172, R174, R188): latched tile, flushed elements, anomaly. -/
def makeWeights (f : Nat) (img : List Byte) : Weights × Nat × Bool :=
  let rows := (chunks 96 64 img).map (inputRow f)
  let n := 4 * bandLen f
  let cols := fun (k : Nat) => rows.map fun r => r.1.getD k .nan
  let ks := List.range n
  ({ fmt := f, w := img.take 6144
     sc := if f = 1 then List.replicate 256 0x3F80 else (chunks 2 256 (img.drop 6144)).map fun c => BitVec.ofNat 16 (leNat c)
     rho := ks.map fun k => (cols k).foldl (fun a x => a + fixed f x) 0
     mu := ks.map fun k => (cols k).foldl (fun a x => a + (fixed f x).natAbs) 0
     nan := ks.map fun k => (cols k).any fun x => !isFin x },
   rows.foldl (fun a r => a + (r.2.1.filter fun b => b).length) 0, rows.any fun r => r.2.2)

/-- `mstat` with bits set and FLUSH raised (05 R93, Table 5.8). -/
def Matrix.note (m : Matrix) (fl n : Nat) : Matrix :=
  let v := m.mstat.toNat
  { m with mstat := wd (min (v / 2 ^ 32 + n) 0xFFFFFFFF * 2 ^ 32 + (v % 2 ^ 32 ||| fl)) }

/-- QA, QW, NAN, INF of `mstat`. -/
abbrev mQA : Nat := 1
abbrev mQW : Nat := 2
abbrev mNaN : Nat := 4
abbrev mInf : Nat := 8

def kindOf : Num → Nat
  | .nan => mNaN
  | .inf _ => mInf
  | _ => 0

/-- Rounded to F32 (05 R95). -/
def rneF32 (x : Num) : Num := tyDecode 0 (tyEncode 0 0 x).1

/-- The product of both scales and a band sum, rounded once (05 R95, R97); of a sum of 0 the sign is
that of the product (log 82). -/
def scaled (as ws : Num) (sum : Option Int) : Num :=
  match sum with
  | none => .nan
  | some v =>
    if as = .nan ∨ ws = .nan then .nan
    else if isFin as = false ∨ isFin ws = false then
      if v = 0 then .nan else .inf ((numNegative as != numNegative ws) != decide (v < 0))
    else rneF32 (numMul (numMul as ws).1 (numOfInt v (-18))).1

/-- An accumulator word. -/
def Matrix.accAt (m : Matrix) (row c : Nat) : Nat := leNat (memRead m.acc (256 * row + 4 * c) 4)

/-- The enabled bands of a mask. -/
def bandsOf (be : Nat) : List Nat := (List.range 4).filter fun b => bitOf be b

/-- What a row comes to: its 64 elements, `mstat` bits, flushed inputs, witness state (aw, mw, kr, SCR), bands that
mismatch. -/
structure RowOut where
  elems : List Nat
  bits : Nat
  flushed : Nat
  aw : Int
  mw : Nat
  kr : Nat
  scr : Bool
  bad : Nat

/-- An element as faults of the datapath write it (log 12). -/
def flipElem (fl : List Glitch) (c v : Nat) : Nat :=
  fl.foldl (fun v g => match g with
    | .elem k b => if k = c then v ^^^ b % 2 ^ 32 else v
    | _ => v) v

/-- A band sum with the errors made in it. -/
def flipSum (fl : List Glitch) (b c : Nat) (v : Int) : Int :=
  fl.foldl (fun v g => match g with
    | .sum n k d => if n = b ∧ k = c then v + d else v
    | _ => v) v

/-- The latched weights with the bytes that faults have changed (24 R378). -/
def flipWeights (fl : List Glitch) (w : List Byte) : List Byte :=
  fl.foldl (fun w g => match g with
    | .weight i b => w.modify i fun v => v ^^^ BitVec.ofNat 8 b
    | _ => w) w

/-- Bands added in ascending order to an accumulator element, `ts` their results (05 R95): element, and `mstat` bits of every band result
and of the accumulator after each band (05 R97, Table 5.8). -/
def addBands (acc0 : Num) (ts : List Num) : Num × Nat :=
  ts.foldl (fun a t =>
    let v := rneF32 (numAdd 0 a.1 t).1
    (v, a.2 ||| kindOf t ||| kindOf v)) (acc0, 0)

/-- `mstat` bits of elements as faults have written them (24 R379). -/
def flippedKinds (fl : List Glitch) (out : List Nat) : Nat :=
  if fl.isEmpty then 0 else out.foldl (fun f v => f ||| kindOf (tyDecode 0 v)) 0

/-- Start of an accumulator element: -0 on overwrite (05 R95). -/
def startAcc (m : Matrix) (ovw : Bool) (row c : Nat) : Num := if ovw then .fin true 0 0 else tyDecode 0 (m.accAt row c)

/-- Bits of an element after a rounded sum; an element no band touches keeps its own. -/
def elemOut (x : Num) : Nat := (tyEncode 0 0 x).1

/-- A row of a narrow step (05 R95, R97; 09 R189, R190). FLUSH counts the flushed inputs of the enabled bands (05 R89; log 89). -/
def narrowRow (m : Matrix) (t : Weights) (afmt be row : Nat) (ovw : Bool) (scale : Word) (data : List Byte) (fl : List Glitch) :
    RowOut :=
  let a := inputRow afmt data
  let n := bandLen t.fmt
  let bs := bandsOf be
  let ws := (chunks 96 64 (flipWeights fl t.w)).map fun r => (inputRow t.fmt r).1
  let seg := fun (l : List Num) (b : Nat) => (l.drop (n * b)).take n
  let dot := fun (x y : List Num) => (x.zip y).foldl (fun s q => s + fixed 2 q.1 * fixed 2 q.2) (0 : Int)
  let sum := fun (b c : Nat) =>
    let x := seg a.1 b
    let y := seg (ws.getD c []) b
    if (x.all isFin && y.all isFin) = false then none else some (flipSum fl b c (dot x y))
  let sums := bs.map fun b => (b, (List.range 64).map (sum b))
  let es := (List.range 64).map fun c =>
    addBands (startAcc m ovw row c) (sums.map fun q =>
      scaled (tyDecode 1 (bits scale.toNat (16 * q.1 + 15) (16 * q.1)))
        (tyDecode 1 (t.sc.getD (64 * q.1 + c) 0).toNat) (q.2.getD c none))
  let bad := sums.filter fun q =>
    q.2.all (fun v => v.isSome) &&
      ((seg a.1 q.1).zip ((t.rho.drop (n * q.1)).take n)).foldl (fun s p => s + fixed 2 p.1 * p.2) (0 : Int) !=
        q.2.foldl (fun s v => s + v.getD 0) 0
  let out := (List.range 64).map fun c => flipElem fl c (elemOut (es.getD c (.nan, 0)).1)
  { elems := out
    bits := es.foldl (fun f e => f ||| e.2) (if a.2.2 then mQA else 0) ||| flippedKinds fl out
    flushed := (bs.map fun b => (((a.2.1.drop (n * b)).take n).filter fun x => x).length).foldl (· + ·) 0
    aw := kvGet m.aw row 0, mw := kvGet m.mw row 0, kr := kvGet m.kr row 0, scr := false
    bad := bad.foldl (fun f q => f + 2 ^ q.1) 0 }

/-- A BF16 product: zero with its sign below 2^-126, and whether it was flushed (05 R89). -/
def bfProduct (a b : Num) : Num × Bool :=
  match (numMul a b).1 with
  | .fin sg p e => if p ≠ 0 ∧ (Nat.log2 p : Int) + e < -126 then (.fin sg 0 0, true) else (rneF32 (.fin sg p e), false)
  | x => (x, false)

/-- A row of a BF16 step (05 R96, R97; 09 R190). -/
def bf16Row (m : Matrix) (t : Weights) (be row : Nat) (ovw : Bool) (data : List Byte) (fl : List Glitch) : RowOut :=
  let a := inputRow 1 data
  let bs := bandsOf be
  let ks := bs.flatMap fun b => (List.range 12).map fun k => 12 * b + k
  let ws := (chunks 96 64 (flipWeights fl t.w)).map fun r => (inputRow 1 r).1
  let prods := fun (c b : Nat) => (List.range 12).map fun k =>
    bfProduct (a.1.getD (12 * b + k) .nan) ((ws.getD c []).getD (12 * b + k) .nan)
  let es := (List.range 64).map fun c =>
    let ps := bs.map (prods c)
    let ts := ps.map fun p => match p with
      | [] => Num.nan
      | p0 :: rest => rest.foldl (fun s q => rneF32 (numAdd 0 s q.1).1) p0.1
    (addBands (startAcc m ovw row c) ts, (ps.map fun p => (p.filter fun q => q.2).length).foldl (· + ·) 0)
  let out := (List.range 64).map fun c => flipElem fl c (elemOut (es.getD c ((.nan, 0), 0)).1.1)
  let aw0 : Int := if ovw then 0 else kvGet m.aw row 0
  let mw0 : Nat := if ovw then 0 else kvGet m.mw row 0
  let kr : Nat := (if ovw then 0 else kvGet m.kr row 0) + ks.length
  let scr0 := ovw || !m.scrOff.contains row
  let aw : Int := ks.foldl (fun s k => s + fixed 1 (a.1.getD k .nan) * t.rho.getD k 0) aw0
  let mw : Nat := ks.foldl (fun s k => s + (fixed 1 (a.1.getD k .nan)).natAbs * t.mu.getD k 0) mw0
  let vals := out.map (tyDecode 0)
  let scr := scr0 && (ks.all fun k => isFin (a.1.getD k .nan) && !t.nan.getD k true) && vals.all isFin &&
    decide (kr < 2 ^ 24)
  let total : Int := vals.foldl (fun s v => match v with
    | .fin sg p e => s + numAt sg p e (-266)
    | _ => s) (0 : Int)
  let bad : Bool := scr && Nat.blt (kr * mw + kr * 2 ^ 170) ((total - aw).natAbs * 2 ^ 24)
  { elems := out
    bits := es.foldl (fun f e => f ||| e.1.2) 0 ||| flippedKinds fl out
    flushed := (ks.filter fun k => a.2.1.getD k false).length + es.foldl (fun n e => n + e.2) 0
    aw := aw, mw := mw, kr := kr, scr := scr, bad := if bad then 15 else 0 }

/-- A processed row written, with its witness state (09 R190; 05 R93). -/
def Matrix.putRow (m : Matrix) (row : Nat) (r : RowOut) : Matrix :=
  let off := m.scrOff.filter fun k => k != row
  { m.note r.bits r.flushed with
    acc := memWrite m.acc (256 * row) (r.elems.flatMap fun e => leBytes 4 e)
    aw := kvSet m.aw row r.aw, mw := kvSet m.mw row r.mw, kr := kvSet m.kr row r.kr
    scrOff := if r.scr then off else row :: off
    rowsW := if m.rowsW.contains row then m.rowsW else row :: m.rowsW }

/-- The accumulators with the elements put right that undetected faults have left wrong (24 R383; log 36). -/
def Matrix.righted (m : Matrix) : Matrix :=
  m.slips.foldl (fun m e => { m with acc := memWrite m.acc (256 * e.1 + 4 * e.2.1) (leBytes 4 e.2.2) }) m

/-- A row's elements noted where they differ from those a sound array gives. -/
def Matrix.noteSlips (m : Matrix) (row : Nat) (got right : List Nat) : Matrix :=
  { m with slips := (m.slips.filter fun e => e.1 != row) ++ ((List.range 64).filter fun c => got.getD c 0 != right.getD c 0).map fun c =>
      (row, c, right.getD c 0) }

/-- The row a pending step would process next, its bytes as they stood before the cycle (09 R182), on accumulators as they are, or put
right. -/
def State.rowOf (s : State) (t : Nat) (p : Pend) (fl : List Glitch) (right : Bool) : Option (Nat × Nat × RowOut) :=
  match p.job with
  | .mstep _ done aoff row0 ovw tile afmt be scale =>
    let a := aoff + 96 * done
    let data := (List.range 96).map fun i => (s.tile t).byteBefore s.now (a + i)
    let m := if right then (s.tile t).mx.righted else (s.tile t).mx
    some (a, row0 + done,
      if tile.fmt = 1 then bf16Row m tile be (row0 + done) ovw data fl
      else narrowRow m tile afmt be (row0 + done) ovw scale data fl)
  | _ => none

/-- The oldest pending step of a slot (02 R26). -/
def Slot.step? (x : Slot) : Option Pend :=
  x.pend.find? fun p => match p.job with
    | .mstep .. => true
    | _ => false

/-- Whether the array serves a slot now: the tile runs, the matrix column names the slot, and this cycle's row has not
been processed (02 R26). -/
def State.arrayFree (s : State) (w : Who) : Bool :=
  let t := s.tile w.tile
  !t.stopped && !t.vacant && t.lastRow != s.now + 1 && t.matrixAt (s.posOf w.tile) w.slot &&
    (match t.move with
      | some m => m.phase == .precopy || m.phase == .drain
      | none => true)

/-- The step has one row fewer to process; with the last it is complete (09 R181). -/
def Slot.rowDone (x : Slot) (p : Pend) : Slot :=
  match p.job with
  | .mstep n done a r0 o tl af be sc =>
    if n ≤ done + 1 then x.dropPend p.seq
    else { x with pend := x.pend.map fun q =>
      if q.seq = p.seq then { q with job := .mstep n (done + 1) a r0 o tl af be sc } else q }
  | _ => x

/-- The mismatch that a row of a pending step comes to: its record names the row's address, the row and the bands (24 R377). -/
def State.rowMismatch (s : State) (w : Who) (p : Pend) (a row bad : Nat) : State :=
  let f := match p.job with
    | .mstep _ _ _ _ _ tl _ _ _ => tl.fmt
    | _ => 0
  s.mismatch w.tile ((s.slot w).ctx.getD 0) (if f = 1 then 2 else 1) p.pc (evalAddr 1 a) (wd (row * 2 ^ 40 + bad * 2 ^ 32))

/-- MSTEP_ROW (09 R181, R182, R189 to R191; 05 R93, R95 to R97): one A row in an array cycle of the slot; a mismatch
writes nothing and stops the tile. -/
def execMstepRow (w : Who) (flips : List Glitch) (s : State) : Host.Outcome State Fault Refusal :=
  .next <|
    match (s.slot w).step? with
    | none => s
    | some p =>
      if s.arrayFree w = false then s
      else
        match s.rowOf w.tile p flips false with
        | none => s
        | some (a, row, r) =>
          let s := s.modTile w.tile fun t => { t.takePath s.now with lastRow := s.now + 1 }
          if r.bad ≠ 0 then s.rowMismatch w p a row r.bad
          else
            let right := ((s.rowOf w.tile p [] true).map fun q => q.2.2.elems).getD r.elems
            (s.modMx w.tile fun m => (m.putRow row r).noteSlips row r.elems right).modSlot w fun x => x.rowDone p

/-- `mstep` (09 R179, R181): the checks, then the waits for a FIFO entry, bands and tokens; it captures what it uses. -/
def execMstep (ovw : BitVec 1) (n : BitVec 4) (a b : Spec) (la : BitVec 4) (p : BitVec 3) (s : State) :
    Host.Outcome State Fault Refusal :=
  .next (s.issue (.mstep ovw n a b la p) ⟨onP p, [a, b], [], [], [], true⟩ fun s w =>
    let x := s.slot w
    let steps := x.pend.filter fun q => match q.job with
      | .mstep .. => true
      | _ => false
    if 2 ≤ steps.length then .wait s .matrix
    else s.withSrc w [a, b] fun vs s =>
      match s.ownMx w true with
      | none => .trap cMOwner (wd ((s.tile w.tile).mx.owner.getD 0))
      | some s =>
        let m := (s.tile w.tile).mx
        let rows := n.toNat + 1
        let row0 := (argN vs 1).toNat % 256
        let be := m.mshp.toNat % 16
        match m.active with
        | none => .trap cMLatch (wordOf (.mstep ovw n a b la p))
        | some tl =>
          if be = 0 ∨ 256 < row0 + rows then .trap cMShape (wordOf (.mstep ovw n a b la p))
          else if paired tl.fmt m.afmt.toNat = false then .trap cMFormat (wordOf (.mstep ovw n a b la p))
          else
            match s.ownPad w (argN vs 0) (96 * rows) 32 with
            | .error c => .trap c (argN vs 0)
            | .ok off =>
              if tl.fmt ≠ 1 ∧ m.fifo.isEmpty then .wait s .fifo
              else if (bandsOf be).any fun k => !m.rails.getLsbD k then .wait s .band
              else if x.inWave && !endsInWave s.now (s.arrayEnd w s.now rows) then .wait s .matrix
              else
                match s.draw w (rows * (bandsOf be).length) with
                | (false, s) => .wait s .tokens
                | (true, s) =>
                  .ok (s.addPend w (.mstep ovw n a b la p) la
                    (.mstep rows 0 off row0 (ovw == 1) tl m.afmt.toNat be (m.fifo.headD 0)) s.now))

/-- `mwld` (09 R174): 52 transfers; in a wave always an overrun. -/
def execMwld (fmt : BitVec 4) (a b : Spec) (la : BitVec 4) (p : BitVec 3) (s : State) :
    Host.Outcome State Fault Refusal :=
  let i := Instr.mwld fmt a b la p
  .next (s.issue i ⟨onP p, [a, b], [], [], [], true⟩ fun s w =>
    if (s.slot w).inWave || (s.tile w.tile).stepPending || (s.tile w.tile).mx.filling then .wait s .matrix
    else s.withSrc w [a, b] fun vs s =>
      match s.ownMx w true with
      | none => .trap cMOwner (wd ((s.tile w.tile).mx.owner.getD 0))
      | some s =>
        if matFmt fmt.toNat = false then .trap cMFormat (wordOf i)
        else
          let pads := (s.padCheck w (argN vs 0) 6144 64) :: if fmt = 1 then [] else [s.padCheck w (argN vs 1) 512 64]
          match firstPad pads with
          | some (k, c) => .trap c (argN vs k)
          | none =>
            match s.draw w 4 with
            | (false, s) => .wait s .tokens
            | (true, s) =>
              .ok ((s.modMx w.tile fun m =>
                { m with shadow := none, filling := true
                         load := some ⟨fmt.toNat, padOff (argN vs 0), padOff (argN vs 1), [], 0⟩ }).addPend
                  w i la .mwld s.now))

/-- MWLD_COMPLETE (09 R172 to R174, R188; 05 R82, R89): the shadow is FULL. -/
def execMwldComplete (w : Who) (seq : Nat) (s : State) : Host.Outcome State Fault Refusal :=
  .next <|
    match (s.slot w).pend? seq with
    | some p =>
      match p.job, (s.tile w.tile).mx.load with
      | .mwld, some l =>
        if l.got.length < 6656 then s
        else
          let r := makeWeights l.fmt l.got
          (s.modMx w.tile fun m =>
            { m.note (if r.2.2 then mQW else 0) r.2.1 with
              shadow := some r.1, filling := false, load := none, latchDirty := true }).modSlot w fun x => x.dropPend seq
      | .mwld, none => s.modSlot w fun x => x.dropPend seq
      | _, _ => s
    | _ => s

/-- `mwswp` (09 R175). -/
def execMwswp (g : Guard) (s : State) : Host.Outcome State Fault Refusal :=
  s.matOp (.mwswp g) g [] [] [] true true fun s w _ =>
    match (s.tile w.tile).mx.shadow with
    | some t =>
      if (s.tile w.tile).mx.filling then .wait s .matrix
      else .ok (s.modMx w.tile fun m => { m with active := some t, shadow := none, latchDirty := true })
    | none => .wait s .matrix

/-- The target of a hand-off with its L: the head of the tail's own row, or the tile of `nptr0` (09 R176). -/
def State.ringTarget (s : State) (t : Nat) : Option Nat → Nat
  | some l => tileAt ((tx t + 48 - (l - 1)) % 48) (ty t)
  | none => s.neighbour t 0

/-- Length of the row when a thread is the tail of its wave (09 R176). -/
def State.tailLen (s : State) (w : Who) : Option Nat :=
  match (s.slot w).wave with
  | none => none
  | some r => match s.wave? r.id with
    | some v => if r.k + 1 = v.len then some v.len else none
    | none => none

/-- `mring` (09 R176): the active tile copied into the output buffer. -/
def execMring (g : Guard) (s : State) : Host.Outcome State Fault Refusal :=
  s.matOp (.mring g) g [] [] [] false true fun s w _ =>
    let m := (s.tile w.tile).mx
    let tail := s.tailLen w
    if m.out.isSome then .wait s .matrix
    else
      match m.active with
      | none => .trap cMLatch (wordOf (.mring g))
      | some t =>
        if (tail.isNone && ((s.tile (s.neighbour w.tile 0)).vacant || (s.tile w.tile).vacant)) ||
            decide (s.caps.maxRing < tail.getD 0) then .trap cMRing (wordOf (.mring g))
        else .ok (s.modMx w.tile fun m =>
          { m with out := some t, outTail := tail, outCtx := (s.slot w).ctx.getD 0 })

/-- The matrix state saved on a tile, where a hand-off of a context belongs to it (13 R273, R274). -/
def Tile.savedFor (t : Tile) (ctx : Nat) : Option Matrix := t.savedMx.find? fun m => m.owner == some ctx

/-- The saved matrix state of a context changed. -/
def Tile.modSaved (t : Tile) (ctx : Nat) (f : Matrix → Matrix) : Tile :=
  { t with savedMx := t.savedMx.map fun m => if m.owner = some ctx then f m else m }

/-- HANDOFF_START (09 R176 steps 3 and 4): the buffer holds the tile and the target's shadow, or the one saved for its
context, is EMPTY. A cluster that is gated is asked to wake (13 R276). -/
def execHandoffStart (tile : Nat) (s : State) : Host.Outcome State Fault Refusal :=
  .next <|
    let m := (s.tile tile).mx
    let u := s.ringTarget tile m.outTail
    let v := ((s.tile u).savedFor m.outCtx).getD (s.tile u).mx
    match m.out, m.flight with
    | some x, none =>
      if s.tileHeld u then s.wantWake (s.cluster u)
      else if v.shadow.isSome || v.filling then s
      else
        let due := s.now + 60 + 2 * ((m.outTail.getD 1) - 1)
        let s := s.modTile tile fun t =>
          { t with mx := { t.mx with flight := some due }, handoffs := t.handoffs ++ [⟨u, due, m.outCtx, x⟩] }
        if ((s.tile u).savedFor m.outCtx).isSome then s.modTile u fun t => t.modSaved m.outCtx fun v => { v with filling := true }
        else s.modMx u fun v => { v with filling := true }
    | _, _ => s

/-- A hand-off of a tile written into the replay log of its target, in 8-byte parts (24 Table 24.2). -/
def State.logHandoff (s : State) (t : Nat) (x : Weights) : State :=
  let ws := leWords (x.w ++ x.sc.flatMap fun v => leBytes 2 v.toNat)
  (List.range ws.length).foldl (fun s i => s.logArrival t 6 0 (8 * i) (ws.getD i 0)) s

/-- The output buffer of a hand-off free again, where it still holds it (09 R176). -/
def Matrix.freeOut (m : Matrix) (h : Handoff) : Matrix :=
  if m.flight = some h.due ∧ m.outCtx = h.ctx then { m with out := none, outTail := none, flight := none } else m

/-- A hand-off reaches its target's matrix state (09 R176 step 5; 03 R55): taken, or dropped and counted. -/
def State.takeHandoff (s : State) (h : Handoff) : State :=
  let u := h.tile
  let own := (s.tile u).mx.owner
  let other := own.isSome && own != some h.ctx
  if other && (s.tile u).bound (own.getD 0) then
    (s.modMx u fun v => { v with filling := false }).modTile u fun t => { t with spoilc := (t.spoilc + 1) % 2 ^ 64 }
  else
    let s := if other then s.resetMx u else s
    (s.logHandoff u h.data).modMx u fun v =>
      { v with shadow := some h.data, filling := false, owner := some h.ctx, latchDirty := true }

/-- HANDOFF_ARRIVE (09 R176 step 5; 13 R274): the oldest hand-off a tile has started whose cycle has come reaches its target, or the spill
ring of 256 where the target's matrix state is saved. -/
def execHandoffArrive (tile : Nat) (s : State) : Host.Outcome State Fault Refusal :=
  .next <|
    match (s.tile tile).handoffs.find? fun h => decide (h.due ≤ s.now) && !s.afterForwarded h.tile h.due with
    | none => s
    | some h =>
      let u := h.tile
      let saved := ((s.tile u).savedFor h.ctx).isSome
      if s.tileHeld u then s.wantWake (s.cluster u)
      else if saved && decide (256 ≤ (s.tile u).ring.length + (s.tile u).ringH.length) then s
      else
        let s := s.modTile tile fun t =>
          { t with handoffs := t.handoffs.erase h, mx := t.mx.freeOut h, savedMx := t.savedMx.map fun m => m.freeOut h }
        if saved then s.modTile u fun t => { t with ringH := t.ringH ++ [h] } else s.takeHandoff h

/-- `mshape` (09 R177); in a wave enabling a gated band is an overrun. -/
def execMshape (a : Spec) (g : Guard) (s : State) : Host.Outcome State Fault Refusal :=
  s.matOp (.mshape a g) g [a] [] [] true true fun s w vs =>
    let be := (argN vs 0).toNat % 16
    let m := (s.tile w.tile).mx
    if (s.slot w).inWave && ((bandsOf be).any fun b => !m.rails.getLsbD b && !bitOf m.mshp.toNat b) then .wait s .band
    else .ok (s.setBands w.tile be)

/-- BAND_WAKE_DONE (09 R177; 13 R267): the token of the oldest wake returns, and the rail is ready where that wake was the latest asked
for. -/
def execBandWakeDone (tile band : Nat) (s : State) : Host.Outcome State Fault Refusal :=
  .next <|
    let slab := s.slabOf tile
    match (s.slab slab).wakes.find? fun r => r.what == WakeOf.band tile band && r.granted.isSome with
    | some r =>
      if s.now < r.granted.getD 0 + 450 then s
      else
        let rest := (s.slab slab).wakes.erase r
        let up := (s.tile tile).mx.wakes.getLsbD band && !(rest.any fun q => q.what == WakeOf.band tile band)
        (s.modSlab slab fun l => { l with tokens := l.tokens + 1, wakes := rest }).modMx tile fun m =>
          if up then { m with rails := m.rails ||| (1 <<< band), wakes := m.wakes &&& ~~~((1 : BitVec 4) <<< band) } else m
    | none => s

/-- `mfmt` (09 R178). -/
def execMfmt (a : Spec) (g : Guard) (s : State) : Host.Outcome State Fault Refusal :=
  s.matOp (.mfmt a g) g [a] [] [] true true fun s w vs =>
    let f := (argN vs 0).toNat % 16
    if matFmt f then .ok (s.modMx w.tile fun m => { m with afmt := wd f, latchDirty := true })
    else .trap cMFormat (wordOf (.mfmt a g))

/-- `mscl` (09 R179): the head entry goes; it waits while the FIFO is empty. -/
def execMscl (g : Guard) (s : State) : Host.Outcome State Fault Refusal :=
  s.matOp (.mscl g) g [] [] [] false true fun s w _ =>
    if (s.tile w.tile).mx.fifo.isEmpty then .wait s .fifo
    else .ok ((s.modMx w.tile fun m => { m with fifo := m.fifo.drop 1, latchDirty := true }).room w.tile 64)

/-- Row descriptor (09 Table 9.5). -/
structure RowDesc where
  row0 : Nat
  nr : Nat
  c0 : Nat
  nc : Nat
  stride : Nat
  deriving DecidableEq, Repr

def rowDesc (v : Word) : RowDesc :=
  let n := v.toNat
  ⟨bits n 7 0, bits n 15 8 + 1, bits n 21 16, bits n 29 24 + 1, bits n 63 32⟩

/-- Rows and columns that exist (09 R183). -/
def RowDesc.fits (d : RowDesc) : Bool := decide (d.row0 + d.nr ≤ 256 ∧ d.c0 + d.nc ≤ 64)

/-- Rows cleared with their witness state (09 R186, R190). -/
def Matrix.clear (m : Matrix) (d : RowDesc) : Matrix :=
  let rows := (List.range d.nr).map fun i => d.row0 + i
  { m with
    acc := m.acc.filter fun (c : Host.Cell) => !rows.contains (c.1 / 256)
    aw := m.aw.filter fun e => !rows.contains e.1, mw := m.mw.filter fun e => !rows.contains e.1
    kr := m.kr.filter fun e => !rows.contains e.1, scrOff := m.scrOff.filter fun r => !rows.contains r
    rowsW := m.rowsW ++ rows.filter fun r => !m.rowsW.contains r
    slips := m.slips.filter fun e => !rows.contains e.1 }

/-- `mclr` (09 R186). -/
def execMclr (a : Spec) (g : Guard) (s : State) : Host.Outcome State Fault Refusal :=
  s.matOp (.mclr a g) g [a] [] [] true true fun s w vs =>
    let d := rowDesc (argN vs 0)
    if d.fits = false ∨ d.c0 ≠ 0 ∨ d.nc ≠ 64 ∨ d.stride ≠ 0 then .trap cMShape (wordOf (.mclr a g))
    else .ok (s.modMx w.tile fun m => m.clear d)

/-- Elements a descriptor names, row by row. -/
def Matrix.elems (m : Matrix) (d : RowDesc) : List Nat :=
  (List.range d.nr).flatMap fun i => (List.range d.nc).map fun j => m.accAt (d.row0 + i) (d.c0 + j)

/-- `mrd` (09 R184): the elements are read at issue, 128 bytes a cycle into vK. -/
def execMrd (v : BitVec 4) (b : Spec) (la : BitVec 4) (p : BitVec 3) (s : State) : Host.Outcome State Fault Refusal :=
  s.matOp (.mrd v b la p) (onP p) [b] [] [v.toNat] true false fun s w vs =>
    let d := rowDesc (argN vs 0)
    if d.fits = false ∨ d.stride ≠ 0 ∨ 2048 < d.nr * d.nc * 4 then .trap cMShape (wordOf (.mrd v b la p))
    else
      let bs := ((s.tile w.tile).mx.elems d).flatMap fun e => leBytes 4 e
      if (s.slot w).inWave then .ok (s.modSlot w fun x => x.vwrite v.toNat 0 bs)
      else .ok (s.addPend w (.mrd v b la p) la (.mrd v.toNat bs) (s.now + (bs.length + 127) / 128))

/-- MRD_COMPLETE (09 R184). -/
def execMrdComplete (w : Who) (seq : Nat) (s : State) : Host.Outcome State Fault Refusal :=
  .next <|
    match (s.slot w).ripe s.now seq with
    | some p =>
      match p.job with
      | .mrd v bs => s.modSlot w fun x => (x.vwrite v 0 bs).dropPend seq
      | _ => s
    | none => s

/-- `mst` (09 R185, R192): the elements are read and converted at issue and stored row by row; in a wave more than 16 cycles of them are an
overrun. -/
def execMst (rm : BitVec 2) (ty : BitVec 4) (a b : Spec) (la : BitVec 4) (p : BitVec 3) (s : State) :
    Host.Outcome State Fault Refusal :=
  let i := Instr.mst rm ty a b la p
  .next (s.issue i ⟨onP p, [a, b], [], [], [], true⟩ fun s w =>
    if (s.tile w.tile).stepPending then .wait s .matrix
    else s.withSrc w [a, b] fun vs s =>
      let v := argN vs 0
      let d := rowDesc (argN vs 1)
      let z := tyBytes ty.toNat 1
      let acc : Acc := ⟨modeOf v, addrOf v, d.nc * z, d.nr, d.stride, 1, [], false⟩
      if (s.slot w).inWave && (acc.am != 1 || s.leavesTile w.tile acc) then .trap cWaveIllegal (wordOf i)
      else
        match s.ownMx w false with
        | none => .trap cMOwner (wd ((s.tile w.tile).mx.owner.getD 0))
        | some s =>
          if ty = 4 then .trap cMFormat (wordOf i)
          else if d.fits = false ∨ (1 < d.nr ∧ d.stride < d.nc * z) then .trap cMShape (wordOf i)
          else if (s.slot w).inWave && decide (2048 < d.nr * d.nc * z) then .wait s .matrix
          else
            let es := ((s.tile w.tile).mx.elems d).map fun e => tyEncode ty.toNat rm.toNat (tyDecode 0 e)
            s.storeData w i la acc z ty.toNat (es.flatMap fun e => leBytes z e.1) (es.foldl (fun f e => f ||| e.2) 0)
              none 0)

/-- Whether a store of the thread's own scratchpad is still pending before an instruction that reads it at issue (12 R239). -/
def Slot.padStore (x : Slot) (t : Nat) : Bool :=
  x.pend.any fun p => match p.job with
    | .store a _ _ _ _ _ _ => a.onPort t
    | _ => false

/-- `mbnd` (09 R187): the image at A is bound, HITS included; the thread's earlier stores to its own scratchpad come first (12 R239), and
in a wave its read takes the array's path (09 R174). An image with AM = 3 that would be enabled is an illegal instruction before anything
else (22 R353). -/
def execMbnd (k : BitVec 3) (a : Spec) (g : Guard) (s : State) : Host.Outcome State Fault Refusal :=
  let i := Instr.mbnd k a g
  .next (s.issue i ⟨g, [a], [], [], [], true⟩ fun s w =>
    s.withSrc w [a] fun vs s =>
      if (s.slot w).padStore w.tile then .wait s .earlier
      else
        let pad := s.ownPad w (argN vs 0) 32 32
        let b : Bnd := match pad with
          | .ok off =>
            let ws := leWords (s.ownBytes w [⟨.spad w.tile off, 32, .home⟩])
            ⟨ws.getD 0 0, ws.getD 1 0, ws.getD 2 0, ctlMask (ws.getD 3 0)⟩
          | .error _ => ⟨0, 0, 0, 0⟩
        if b.act ≠ 0 ∧ b.am = 3 then .trap cIllegal (wordOf i)
        else
          match s.ownMx w true, pad with
          | none, _ => .trap cMOwner (wd ((s.tile w.tile).mx.owner.getD 0))
          | some _, .error c => .trap c (argN vs 0)
          | some s, .ok _ =>
            let s := if (s.slot w).inWave then s.modTile w.tile fun x => x.takePath s.now else s
            .ok (s.modMx w.tile fun m => { m.setBnd k.toNat b with latchDirty := true }))

end Sys2Proof.Machine
end

