-- ==== Sys2Proof/Machine/Message.lean ====
section
/-! DEFINITION. Fences and drains (07 R135, R136), messages (07 R137 to R141; 11 R404; 23 R367) and migration
(02 R38, R41, R42; 07 R142). -/

namespace Sys2Proof.Machine

def Job.loads : Job → Bool
  | .load _ _ _ _ _ _ => true
  | .amo _ _ _ _ _ _ => true
  | .vload _ _ _ => true
  | _ => false

/-- `fence os` (07 Table 7.4; 12 R245, R253): an acquire waits for the earlier loads, atomics and receives, and words captured before
are stale for the thread; a release orders what came before it ahead of its later stores and sends; both also wait until every earlier
event is performed. A store is performed for every other thread at one point, so for a scope too (12 R240). -/
def execFence (os : BitVec 4) (g : Guard) (s : State) : Host.Outcome State Fault Refusal :=
  .next (s.issue (.fence os g) (Meta.solo g [] []) fun s w =>
    let x := s.slot w
    let n := os.toNat
    let k := x.iseq + 1
    if n ≤ 5 then
      (if x.pend.any fun p => p.job.loads then .wait s .fence else .ok (s.modSlot w fun x => { x with fetchAt := s.now + 1 }))
    else if n ≤ 10 then
      .ok (s.modSlot w fun x => { x with fences := (x.fences.filter fun f => s.owesAt x f.1) ++ [(k, osScope n)] })
    else if (x.pend.any fun p => p.job.isMem) || s.owesAt x k then .wait s .fence
    else .ok (s.modSlot w fun x => { x with fences := [], fetchAt := s.now + 1 }))

/-- Chains accepted on a tile and not ended. -/
def Tile.chainIds (t : Tile) : List Nat := t.chan.toList.flatMap fun c => c.chains.map fun h => h.id

/-- `drain path` (07 R136): waits until every chain accepted on the tile before it issued has ended; a
chain ends once its records are complete, their bytes performed for every party and their increments made, so no record of any path
is waited for beyond that (log 16). -/
def execDrain (path : BitVec 3) (g : Guard) (s : State) : Host.Outcome State Fault Refusal :=
  .next (s.issue (.drain path g) (Meta.solo g [] []) fun s w =>
    let x := s.slot w
    let cur := (s.tile w.tile).chainIds
    let all := if x.why = .drain then x.drainSet else cur
    if (all.filter cur.contains).isEmpty then .ok s else .wait (s.modSlot w fun x => { x with drainSet := all }) .drain)

/-- The queue a q code names. -/
def qNum : Spec → Nat
  | .q i => i.toNat
  | _ => 0

/-- `mroute qN, a` (07 R137): the word is not checked until the first send. -/
def execMroute (d a : Spec) (g : Guard) (s : State) : Host.Outcome State Fault Refusal :=
  .next (s.issue (.mroute d a g) (Meta.solo g [a] []) fun s w =>
    if (s.slot w).red.isSome then .trap cRedundancy (wordOf (.mroute d a g))
    else s.withSrc w [a] fun vs s =>
      .ok (s.modSlot w fun x =>
        let q := vget x.qstat (qNum d) ⟨0, 0, 0⟩
        { x with routes := vset x.routes (qNum d) (some (argN vs 0)), qstat := vset x.qstat (qNum d) { q with stalec := 0 } }))

/-- Status of a queue (07 Table 7.7). -/
def Slot.queueStatus (x : Slot) (n : Nat) : Word :=
  let q := vget x.qstat n ⟨0, 0, 0⟩
  let routed := if (vget x.routes n none).isSome then 1 else 0
  wd (q.stalec * 2 ^ 16 + routed * 2 ^ 10 + q.last * 2 ^ 8 + q.ackp * 2 ^ 4 + (vget x.rbuf n []).length)

/-- `mprobe d, qN` (07 R141). -/
def execMprobe (d a : Spec) (g : Guard) (s : State) : Host.Outcome State Fault Refusal :=
  .next (s.issue (.mprobe d a g) (Meta.solo g [] [d]) fun s w =>
    if (s.slot w).red.isSome then .trap cRedundancy (wordOf (.mprobe d a g))
    else s.scalarOp w [] d fun _ => (s.slot w).queueStatus (qNum a))

/-- Destination tile of a `migrate`, the cause it meets, or none while its address is being translated (07 R142; 22 R353). A REPL page goes
by the home table, and a cluster without a tile in service gives the address-range trap (log 87). -/
def State.migrateTo (s : State) (w : Who) (v : Word) : Except Nat (Option Nat) × State :=
  let a := addrOf v
  let ctx := (s.slot w).ctx.getD 0
  match modeOf v with
  | 0 =>
    if 2 ^ 57 ≤ a then (.error cRange, s)
    else
      match s.globPiece w.tile ctx a .read .unit with
      | (.error (.bad c), s') => (.error (if s.podPages ctx ⟨0, a, 1, 1, 0, 0, [], false⟩ then cMigRange else c), s')
      | (.error _, s') => (.ok none, s')
      | (.ok (.pod _ _, _, _), s') => (.error cMigRange, s')
      | (.ok (l, plc, _), s') =>
        let cl := match l with
          | .hbm pa => s'.homeOf plc pa
          | _ => s'.cluster w.tile
        let ts := (s'.served cl).filter fun t => !(s'.tile t).vacant && !(s'.tile t).stopped
        match listMin (fun t => ((s'.tile t).runq.length * 65536 + t)) ts with
        | some t => (.ok (some t), s')
        | none => (.error cRange, s')
  | 1 => match s.locOf w.tile a with
    | some (u, _) => (.ok (some u), s)
    | none => (.error cRange, s)
  | 2 => match s.ilvOf w.tile a with
    | some (u, _) => (.ok (some u), s)
    | none => (.error cRange, s)
  | _ => (.error cMode, s)

/-- Bindings a migrating thread may not hold (02 R42). -/
def Slot.leases (x : Slot) : Nat :=
  (List.range 4).foldl (fun n k => match (x.bind k).st with
    | .queued | .waking | .bound => n + 2 ^ k
    | _ => n) 0

/-- The thread leaves its slot: the travel set packed, the slot IDLE with its tag up by one, words waiting in the receive
buffers spoiled (02 R41; 07 R140). -/
def State.depart (s : State) (w : Who) (t : Nat) : State :=
  let x := s.slot w
  let due := s.now + (if t = w.tile then 14 else 22 + s.pathDelay (s.phys w.tile) (s.phys t))
  let next := if x.solo then x.enext else (x.loopEnd x.pc).2
  let m : Migrant :=
    { ctx := x.ctx.getD 0, task := x.task, g := (List.range 16).map fun i => vget x.g i 0, p := x.p, fstat := x.fstat
      pc := next, gen := x.gen, aux := x.aux, tile := t, due := due, thr := x.thr, iseq := x.iseq, fences := x.fences
      fetchAt := x.fetchAt }
  let s : State := { s with migs := s.migs ++ [m] }
  (s.vacate w).modSlot w fun x => { x with gen := x.gen + 1 }

/-- `migrate a` (02 R41, R42; 07 R142). -/
def execMigrate (a : Spec) (g : Guard) (s : State) : Host.Outcome State Fault Refusal :=
  .next (s.issue (.migrate a g) (Meta.solo g [a] []) fun s w =>
    let x := s.slot w
    if x.red.isSome then .trap cRedundancy (wordOf (.migrate a g))
    else if x.leases ≠ 0 then .trap cMigLease (wd x.leases)
    else s.withSrc w [a] fun vs s' =>
      match s'.migrateTo w (argN vs 0) with
      | (.error c, _) => .trap c (argN vs 0)
      | (.ok none, s'') => .wait { s with slabs := s''.slabs } .memory
      | (.ok (some t), s'') =>
        if x.settledCopies = false then .wait s .earlier
        else if x.qstat.toList.any fun q => q.ackp != 0 then .wait s .ack
        else .stop (s''.depart w t))

/-- MIGRATE_ARRIVE (02 R41): the context joins the run queue, which holds 8; one of a context that is closed or being torn down is discarded
and counted (21 R344). -/
def execMigrateArrive (k : Nat) (s : State) : Host.Outcome State Fault Refusal :=
  .next <|
    match s.migs[k]? with
    | none => s
    | some m =>
      if s.now < m.due then s
      else if (s.ctxOf m.ctx).isOpen = false ∨ (s.ctxOf m.ctx).dying = true then
        { s.modTile m.tile fun t => { t with spoilc := (t.spoilc + 1) % 2 ^ 64 } with migs := listDrop1 s.migs k }
      else if s.tileHeld m.tile then s.wantWake (s.cluster m.tile)
      else if 8 ≤ (s.tile m.tile).runq.length then s
      else { s.modTile m.tile fun t => { t with runq := t.runq ++ [m] } with migs := listDrop1 s.migs k }

/-- A migrating context put into a slot: its tag plus one, the registers that do not travel zero (02 R41 step 5;
10 R213), the thread the same as before for what it has yet to perform and to fetch (12 R253, R254); the task is found there. A
persistent task's thread gets no notice from here on (log 88). -/
def State.landMigrant (s : State) (w : Who) (m : Migrant) : State :=
  let s := (m.g ++ [m.p.setWidth 64, m.fstat, m.pc]).foldl (fun s v => s.logArrival w.tile 8 w.slot 0 v) (s.uncover w.tile m.ctx)
  let s := match m.task, m.aux with
    | some k, false => s.modTask k fun q => { q with tile := w.tile, slot := w.slot }
    | _, _ => s
  s.modSlot w fun x =>
    { { Slot.cold with gen := m.gen + 1, lastIssue := x.lastIssue, iseq := m.iseq, thr := m.thr, fetchAt := m.fetchAt } with
      g := Vector.ofFn fun i => m.g.getD i.val 0
      p := m.p, fstat := m.fstat, pc := m.pc, ctx := some m.ctx, lastCtx := some m.ctx, task := m.task, aux := m.aux
      fences := m.fences, st := .run }

/-- SLOT_OFFER (02 R38): an available slot goes to the oldest context of the tile's run queue. -/
def execSlotOffer (w : Who) (s : State) : Host.Outcome State Fault Refusal :=
  .next <|
    if s.openSlot w then
      match (s.tile w.tile).runq with
      | [] => s
      | m :: r => (s.modTile w.tile fun t => { t with runq := r }).landMigrant w m
    else s

/-- An acknowledgement on its way back to the sender (07 R139; 11 R404). -/
def State.sendAck (s : State) (m : Msg) (delivered : Bool) : State :=
  match m.ack, m.src with
  | true, some w =>
    let due := s.now + (if w.tile = m.tile then 12 else 20 + s.pathDelay (s.phys m.tile) (s.phys w.tile))
    { s with acks := s.acks ++ [⟨w, m.srcGen, m.q, delivered, due⟩] }
  | _, _ => s

/-- The delivery test of R138. -/
def State.passes (s : State) (m : Msg) : Bool :=
  let x := s.slot ⟨m.tile, m.slot⟩
  x.task.isSome && x.ctx == some m.ctx && (m.anyGen || x.gen == m.gen)

/-- The thread in SPILL a word is addressed to (13 R274). -/
def State.spilledFor (s : State) (m : Msg) : Bool :=
  !s.passes m && (s.tile m.tile).spilled.any fun e =>
    e.1 == m.slot && e.2.ctx == some m.ctx && (m.anyGen || e.2.gen == m.gen)

/-- A word enters its buffer (07 R138, R139). -/
def State.enterWord (s : State) (m : Msg) : State :=
  let w : Who := ⟨m.tile, m.slot⟩
  let s := (s.logArrival m.tile 1 m.slot 0 m.data).modSlot w fun x =>
    { x with rbuf := vset x.rbuf m.dq (vget x.rbuf m.dq [] ++ [m.data]) }
  s.sendAck m true

/-- The tile whose network interface has sent a word: that of its thread, or the one next to the Owl (24 R392). -/
def State.sender (s : State) (m : Msg) : Nat := (m.src.map fun w => w.tile).getD ((s.virtOf m.pt).getD m.tile)

/-- A word that reaches its tile (07 R138; 13 R274; 24 R392): delivered, held for room, taken into the spill ring or
spoiled. `none` keeps it in the network. -/
def State.reach (s : State) (m : Msg) : Option State :=
  if (s.tile m.tile).vacant then
    some ((s.spoil (s.sender m) m).sendAck m false)
  else if s.spilledFor m then
    if (s.tile m.tile).ring.length + (s.tile m.tile).ringH.length < 256 then some (s.modTile m.tile fun t => { t with ring := t.ring ++ [m] }) else none
  else if s.passes m then
    if (vget (s.slot ⟨m.tile, m.slot⟩).rbuf m.dq []).length < 8 && !((s.tile m.tile).held.any fun h => sameBuffer h m) then
      some (s.enterWord m)
    else some (s.modTile m.tile fun t => { t with held := t.held ++ [m] })
  else some ((s.spoil m.tile m).sendAck m false)

/-- Whether a scale word may enter a tile's FIFO (07 R138). -/
def Matrix.takesScale (x : Matrix) (ctx : Nat) : Bool :=
  match x.owner with
  | none => true
  | some c => c == ctx

/-- A scale word that reaches its tile (07 R138). -/
def State.reachScale (s : State) (m : Msg) : State :=
  let t := s.tile m.tile
  if t.vacant then (s.spoil (s.sender m) m).sendAck m false
  else if t.mx.takesScale m.ctx then
    if t.mx.fifo.length < 16 && !(t.held.any fun h => sameBuffer h m) then
      ((s.logArrival m.tile 5 0 0 m.data).modMx m.tile fun x => { x with fifo := x.fifo ++ [m.data] }).sendAck m true
    else s.modTile m.tile fun t => { t with held := t.held ++ [m] }
  else (s.spoil m.tile m).sendAck m false

/-- A word of the network, once its cycle has come and no earlier word of its stream is still on the way. -/
def State.arrived (s : State) (k : Nat) (scale : Bool) : Option Msg :=
  match s.msgs[k]? with
  | some m =>
    if m.scale == scale && decide (m.due ≤ s.now) && !((s.msgs.take k).any fun e => sameStream e m) && !s.afterForwarded m.tile m.due then some m
    else none
  | none => none

/-- MESSAGE_DELIVER (07 R138). -/
def execMessageDeliver (k : Nat) (s : State) : Host.Outcome State Fault Refusal :=
  .next <|
    match s.arrived k false with
    | none => s
    | some m =>
      if s.tileHeld m.tile then s.wantWake (s.cluster m.tile)
      else
        match s.reach m with
        | some s' => { s' with msgs := listDrop1 s'.msgs k }
        | none => s

/-- SCALE_WORD_DELIVER (07 R138). -/
def execScaleWordDeliver (k : Nat) (s : State) : Host.Outcome State Fault Refusal :=
  .next <|
    match s.arrived k true with
    | none => s
    | some m =>
      if s.tileHeld m.tile then s.wantWake (s.cluster m.tile)
      else { s.reachScale m with msgs := listDrop1 s.msgs k }

/-- The buffer of a tile a word goes to: a slot's receive buffer, or the scale FIFO. -/
def Msg.bufKey (m : Msg) : Nat := if m.scale then 64 else 4 * m.slot + m.dq

/-- HELD_WORD_ENTER (07 R138): the oldest word held for a buffer or FIFO enters in the cycle after room has appeared, one a cycle; a word
whose thread has gone is spoiled. -/
def execHeldWordEnter (tile k : Nat) (s : State) : Host.Outcome State Fault Refusal :=
  .next <|
    let t := s.tile tile
    match t.held[k]? with
    | none => s
    | some m =>
      if ((t.held.take k).any fun h => sameBuffer h m) || s.tileHeld tile || decide (s.now < kvGet t.roomAt m.bufKey 0) then s
      else
        let gone := (s.modTile tile fun t => { t with held := listDrop1 t.held k }).room tile m.bufKey
        if m.scale then
          if t.mx.takesScale m.ctx = false then (gone.spoil tile m).sendAck m false
          else if t.mx.fifo.length < 16 then
            ((gone.logArrival tile 5 0 0 m.data).modMx tile fun x => { x with fifo := x.fifo ++ [m.data] }).sendAck m true
          else s
        else if s.passes m = false then (gone.reach m).getD s
        else if (vget (s.slot ⟨tile, m.slot⟩).rbuf m.dq []).length < 8 then gone.enterWord m
        else s

/-- A thread by slot and tag, in its slot or spilled. -/
def State.modThread (s : State) (w : Who) (gen : BitVec 8) (f : Slot → Slot) : State :=
  if (s.slot w).gen = gen then s.modSlot w f
  else s.modTile w.tile fun t =>
    { t with spilled := t.spilled.map fun e => if e.1 = w.slot ∧ e.2.gen = gen then (e.1, f e.2) else e }

/-- SEND_ACK_RECEIVE (07 R139): the queue's status takes the acknowledgement, held like all that comes for a stopped tile (24 R386). -/
def execSendAckReceive (k : Nat) (s : State) : Host.Outcome State Fault Refusal :=
  .next <|
    match s.acks[k]? with
    | none => s
    | some a =>
      if s.now < a.due then s
      else if s.tileHeld a.who.tile then s.wantWake (s.cluster a.who.tile)
      else
        let s : State := { s with acks := listDrop1 s.acks k }
        s.modThread a.who a.gen fun x =>
          let q := vget x.qstat a.q ⟨0, 0, 0⟩
          let n : QStat := ⟨q.ackp - 1, if a.delivered then 1 else 2,
            if a.delivered then q.stalec else min 255 (q.stalec + 1)⟩
          { x with qstat := vset x.qstat a.q n }

end Sys2Proof.Machine
end

