-- ==== Sys2Proof/Machine/Copy.lean ====
section
/-! DEFINITION. Copies: acceptance of a chain and the channel's walk over its records (07 R143 to R148; 21 Table 21.4;
23 R371).
The bytes of a record move in bursts, and bursts of two records may be in flight together (log 16). -/

namespace Sys2Proof.Machine

/-- Status word of a chain (07 Table 7.9). -/
def copyStatus (recs flags code : Nat) : Word := wd (recs * 2 ^ 32 + flags * 2 ^ 8 + code)

/-- The status written into d: no last result (07 R145); a thread that has gone since gets none. -/
def State.writeStatus (s : State) (h : Chain) (v : Word) : State :=
  if h.d = .z then s
  else s.modThread h.who h.gen fun x => { x.setReg h.d v with scoreboard := x.scoreboard.erase h.d }

/-- Chains of a channel and copies on their way to it: at most 4 hold its head entries (07 R145). -/
def Tile.entriesUsed (t : Tile) (ch : Nat) : Nat :=
  (t.channel ch).chains.length + t.slots.foldl (fun n e => n + (e.2.pend.filter fun p => match p.job with
    | .copy _ c _ _ => c == ch
    | _ => false).length) 0

/-- `xcopy` and `xred` (07 R145): once a head entry is free the copy is pending until its chain is accepted. -/
def State.copyOp (s : State) (i : Instr) (d a : Spec) (ch : BitVec 2) (la : BitVec 4) (p : BitVec 3) (sum : Bool) :
    Host.Outcome State Fault Refusal :=
  .next (s.issue i (Meta.solo (onP p) [a] [d]) fun s w =>
    if 4 ≤ (s.tile w.tile).entriesUsed ch.toNat then .wait s .copies
    else s.withSrc w [a] fun vs s => .ok (s.addPend w i la (.copy d ch.toNat (argN vs 0) sum) s.now))

/-- The chain of a pending copy accepted once every earlier event of its thread is performed: a release of scope `mod` (07 R145;
12 R250). A frozen channel ends it at once with ABORTED (21 Table 21.4). -/
def State.acceptChain (s : State) (w : Who) (seq : Nat) : State :=
  let x := s.slot w
  match x.pend? seq with
  | none => s
  | some p =>
    match p.job with
    | .copy d ch head sum =>
      if s.owesAt x seq || s.tileHeld w.tile then s
      else if ((s.tile w.tile).channel ch).frozen.isSome then
        s.modSlot w fun x => (x.dropPend seq).setReg d (copyStatus 0 0 4)
      else
        let id := (s.tile w.tile).stamp
        let h : Chain :=
          { id := id, d := d, who := w, gen := x.gen, ctx := x.ctx.getD 0, task := x.task, sum := sum
            red := x.red, cur := head, n := 0, flags := 0, pt := p.pt, last := 0, reading := none, recs := [], ending := none }
        let s := (s.modTile w.tile fun t => { t with stamp := id + 1 }).modChan w.tile ch fun c =>
          { c with chains := c.chains ++ [h] }
        s.modSlot w fun x =>
          let x := x.dropPend seq
          if d = .z then x else { x with scoreboard := x.scoreboard ++ [d] }
    | _ => s

/-- `xcopy` (07 R145). -/
def execXcopy (d a : Spec) (ch : BitVec 2) (la : BitVec 4) (p : BitVec 3) (s : State) :
    Host.Outcome State Fault Refusal := s.copyOp (.xcopy d a ch la p) d a ch la p false

/-- `xred` (07 R145, R147). -/
def execXred (d a : Spec) (ch : BitVec 2) (la : BitVec 4) (p : BitVec 3) (s : State) :
    Host.Outcome State Fault Refusal := s.copyOp (.xred d a ch la p) d a ch la p true

/-- Fields of word 3 of a record (07 Table 7.8). -/
def recOwn (w : Word) : Bool := bitOf w.toNat 63
def recCwe (w : Word) : Bool := bitOf w.toNat 62
def recCws (w : Word) : Nat := bits w.toNat 61 59
def recXf (w : Word) : Nat := bits w.toNat 58 56
def recLen (w : Word) : Nat := bits w.toNat 31 0

/-- Source element size of an `xred` format (07 R147). -/
def xfSize : Nat → Nat
  | 0 => 4
  | 1 => 2
  | 2 => 4
  | _ => 16

/-- A bad record (07 R143, R147). -/
def badRecord (sum : Bool) (r : List Word) : Bool :=
  let w3 := r.getD 3 0
  let cwa := r.getD 4 0
  modeOf (r.getD 1 0) == 3 || modeOf (r.getD 2 0) == 3 || bits w3.toNat 55 32 != 0 ||
    (recCwe w3 && (decide (5 ≤ recCws w3) || modeOf cwa == 3 || addrOf cwa % 8 != 0)) ||
    (if sum then decide (4 ≤ recXf w3) || recLen w3 % xfSize (recXf w3) != 0 || addrOf (r.getD 2 0) % 16 != 0
     else recXf w3 != 0)

/-- A signed 128-bit value from 16 bytes: the W96 value in bits [95:0] (07 R147). -/
def w96Of (bs : List Byte) : Int := sval (leNat bs) 96

/-- Bytes of a W96 slot: bits [127:96] copy bit 95 (07 R147). -/
def w96Bytes (v : Int) : List Byte := leBytes 16 (wrapN (sval (wrapN v 96) 96) 128)

/-- A source element converted to W96, with the status flags it raises: NX, SAT, NV in bits 1, 2, 3 (05 Table 5.6;
07 Table 7.9). -/
def w96Elem (xf : Nat) (bs : List Byte) : Int × Nat :=
  if xf = 3 then (w96Of bs, 0)
  else
    let ty := if xf = 0 then 0 else if xf = 1 then 1 else 7
    let r := w96Encode (tyDecode ty (leNat bs))
    (r.1, (if r.2 &&& fNX ≠ 0 then 2 else 0) + (if r.2 &&& fSAT ≠ 0 then 4 else 0) + (if r.2 &&& fNV ≠ 0 then 8 else 0))

/-- What a unit's access comes to: its places with the delay of its translation, a fault, or a wait for a walk (11 R233). -/
inductive Reached where
  | at_ (a : Acc) (delay : Nat)
  | bad (cause : Nat)
  | wait

/-- A range of a unit's access; in a redundant copy only the own tile and the module (21 R347). -/
def State.unitAcc (s : State) (t ctx : Nat) (red : Option (Nat × Nat)) (v : Word) (n : Nat) (need : Need) : Reached × State :=
  let a : Acc := ⟨modeOf v, addrOf v, n, 1, 0, 0, [], false⟩
  if red.isSome && (s.leavesTile t a || (a.am == 0 && s.podPages ctx a)) then (.bad cRedundancy, s)
  else
    match s.resolveAcc t ctx red a 1 need .unit with
    | (.ok ps d, s') => (.at_ { a with parts := ps, ready := true } d, s')
    | (.bad c, s') => (.bad c, s')
    | (.miss _, s') => (.wait, s')

/-- Fields of a record that a channel has read. -/
def Rec.src (r : Rec) : Word := r.words.getD 1 0
def Rec.dst (r : Rec) : Word := r.words.getD 2 0
def Rec.w3 (r : Rec) : Word := r.words.getD 3 0
def Rec.len (r : Rec) : Nat := recLen r.w3

/-- Bytes of the destination that go with some bytes of the source: of a sum, a slot for each element (07 R147). -/
def Rec.scale (r : Rec) (sum : Bool) (n : Nat) : Nat := if sum then n / xfSize (recXf r.w3) * 16 else n

/-- Where a tile's address points. -/
def State.placeOf (s : State) (t : Nat) (am a : Nat) : Option Loc :=
  match am with
  | 0 => some (.cap 0)
  | 1 => (s.locOf t a).map fun p => .spad p.1 p.2
  | 2 => (s.ilvOf t a).map fun p => .spad p.1 p.2
  | _ => none

/-- Whether one of n bytes at an address of a tile is a byte of a range of m bytes at another: the bytes they name are compared, in
whichever mode (07 R146). -/
def State.runsMeet (s : State) (t : Nat) (v : Word) (n : Nat) (u : Word) (m : Nat) : Bool :=
  (List.range n).any fun i => match s.placeOf t (modeOf v) (addrOf v + i) with
    | some l => s.rangeHolds t (modeOf u) (addrOf u) m (modeOf v) (addrOf v + i) l
    | none => false

/-- A tile's address as a space and a place in it: a `loc` address by the tile it names, any other by its mode. -/
def State.lineOf (s : State) (t : Nat) (v : Word) : Nat × Nat :=
  if modeOf v = 1 then
    match s.locOf t (addrOf v) with
    | some p => (3 + p.1, p.2)
    | none => (1, addrOf v)
  else (modeOf v, addrOf v)

/-- Whether a record's bursts are taken from the top: its destination overlaps its source from above (07 R146; log 16). -/
def State.recDown (s : State) (t : Nat) (r : Rec) : Bool :=
  let a := s.lineOf t r.src
  let b := s.lineOf t r.dst
  a.1 == b.1 && decide (a.2 < b.2 ∧ b.2 < a.2 + r.len)

/-- The next burst of a record, as its offset and length (07 R146): up to a 64-byte boundary of the source, in whole elements of a sum;
an element that such a boundary cuts goes whole (log 16). -/
def Rec.cut (r : Rec) (sum down : Bool) : Nat × Nat :=
  let z := if sum then xfSize (recXf r.w3) else 1
  let left := r.len - r.next
  if down then
    let n := max z (min left ((addrOf r.src + left - 1) % 64 + 1) / z * z)
    (left - n, n)
  else (r.next, max z (min left (64 - (addrOf r.src + r.next) % 64) / z * z))

/-- Bursts of a chain in flight, oldest first, each with its record. -/
def Chain.bursts (h : Chain) : List (Rec × Burst) := h.recs.flatMap fun r => r.flight.map fun b => (r, b)

/-- Whether some bytes a chain is to read are still to be written by an earlier burst of it. -/
def State.writesTo (s : State) (t : Nat) (h : Chain) (v : Word) (n : Nat) : Bool :=
  h.bursts.any fun e => s.runsMeet t v n (e.1.dst + wd (e.1.scale h.sum e.2.off)) (e.1.scale h.sum e.2.len)

/-- Whether the write of a burst waits until bytes of its record's source that it overlaps have been read: those of a burst in flight, or
of one not started, as offset and length (07 R146). -/
def State.readsFirst (s : State) (t : Nat) (h : Chain) (r : Rec) (b : Burst) (down : Bool) : Bool × Bool :=
  let dst := r.dst + wd (r.scale h.sum b.off)
  let m := r.scale h.sum b.len
  let rest := if down then r.src else r.src + wd r.next
  (r.flight.any (fun e => e.data.isNone && s.runsMeet t dst m (r.src + wd e.off) e.len), s.runsMeet t dst m rest (r.len - r.next))

/-- Whether a tile's router port takes some more bytes of a copy in this cycle: 64 a cycle, for its four channels together (07 R146).
Bytes of the own scratchpad do not pass it. -/
def State.portTakes (s : State) (t : Nat) (ps : List Part) (n : Nat) : Bool :=
  let used := (s.tile t).portAt
  ps.all (ownPart t) || decide (used ≤ 64 * s.now ∨ used + n ≤ 64 * (s.now + 1))

/-- Those bytes counted. -/
def State.takePort (s : State) (t : Nat) (ps : List Part) (n : Nat) : State :=
  if ps.all (ownPart t) then s else s.modTile t fun x => { x with portAt := max x.portAt (64 * s.now) + n }

/-- The chain a channel walks, changed. -/
def State.modHead (s : State) (t ch : Nat) (f : Chain → Chain) : State :=
  s.modChan t ch fun c => { c with chains := match c.chains with
    | h :: r => f h :: r
    | [] => [] }

/-- A record of the chain changed, and those after it dropped where it cannot go on. -/
def Chain.modRec (h : Chain) (i : Nat) (f : Rec → Rec) : Chain :=
  match h.recs[i]? with
  | some r => { h with recs := listSet h.recs i (f r) }
  | none => h

/-- An access fault of the i-th record: it and the later ones end, and the chain ends with the code once the earlier ones are
complete (07 R146). -/
def Chain.stopAt (h : Chain) (i code : Nat) (addr : Word) : Chain :=
  { h with recs := h.recs.take i, reading := none, ending := some (code, addr) }

/-- The code with which a chain keeps that another module has not answered: CODE 2, with a record LINK 0x0004 (23 R376). -/
abbrev noReply : Nat := 18

/-- The end of a chain: its status, and on an access fault the channel frozen, with the chains behind it ended ABORTED
(07 R146; 21 Table 21.4; 23 R376). -/
def State.endChain (s : State) (t ch : Nat) (h : Chain) (code : Nat) (addr : Word) : State :=
  let s := s.writeStatus h (copyStatus h.n h.flags (code % 16))
  let s := s.modChan t ch fun c => { c with chains := c.chains.drop 1 }
  if code % 16 = 2 then
    let behind := ((s.tile t).channel ch).chains
    let s := behind.foldl (fun s b => s.writeStatus b (copyStatus 0 0 4)) s
    let s := s.modChan t ch fun _ => ⟨[], some h.ctx⟩
    s.record (s.mkRec (if code = 2 then 7 else 9) 2 4 h.ctx t ch (if code = 2 then 1 else 4) addr 0 0)
  else s

/-- The bytes of a burst at its destination: moved, or each element added to its slot (07 R147), with the flags raised. -/
def State.burstData (s : State) (sum : Bool) (xf : Nat) (dp : List Part) (bs : List Byte) : List Byte × Nat :=
  let z := xfSize xf
  let es := if sum then (chunks z (bs.length / z) bs).map (w96Elem xf) else []
  let new := if sum then
      let old := (chunks 16 es.length (s.getParts dp)).map w96Of
      (List.range es.length).flatMap fun i => w96Bytes (old.getD i 0 + (es.getD i (0, 0)).1)
    else bs
  (new, es.foldl (fun f e => f ||| e.2) 0)

/-- A run of bytes written by a unit at its place, with what that does to the slices and to the replay logs. -/
def State.unitWrite (s : State) (ps : List Part) (bs : List Byte) : State := (s.openShadow ps).landStore none ps bs 0

/-- Whether an access of a channel at some places must wait: for a tile it reaches, for its order on a pod line, or for what was forwarded
to a moved tile (13 R276; 14 R286; 15 R305). `due`: the cycle from which it acts there. -/
def State.unitHeld (s : State) (t stamp due : Nat) (ps : List Part) : Bool × State :=
  match s.farHeld t ps with
  | (true, s) => (true, s)
  | (false, s) => ((ps.any fun q => s.podHolds t stamp q) || ((farTiles t ps).any fun u => s.afterForwarded u due), s)

/-- The party of a chain's events: the tile that accepted it (12 R238). -/
def Chain.party (h : Chain) (t : Nat) : Party := ⟨0, some t, h.pt⟩

/-- Whether some places lie in a tile's scratchpad, where an error is pinned (21 R339). -/
def inSpad (ps : List Part) : Bool := ps.any fun p => match p.loc with
  | .spad _ _ => true
  | _ => false

/-- One part of a burst, or of a record, read at its place: none where it must wait; a poisoned word takes its course, and one of a
scratchpad ends the record (23 R371). -/
def State.readPart (s : State) (t ch : Nat) (h : Chain) (v : Word) (b : Burst) (j : Nat) (put : State → Burst → State)
    (fail : State → State) : State :=
  match b.parts[j]?, (pieces b.len (addrOf v) b.len)[j]? with
  | some q, some (va, _) =>
    let q : Part := { q with loc := s.shadowLoc h.red va .read q.loc }
    if b.got.any fun e => e.1 == j then s
    else
      match s.unitHeld t b.stamp b.mid [q] with
      | (true, s) => s
      | (false, s) =>
        if s.hidden (h.party t) [q] then s
        else if s.poisoned [q] then (if inSpad [q] then fail s else s.poisonHit [q])
        else
          let got := b.got ++ [(j, s.getPart q)]
          let data := if got.length = b.parts.length then
              some ((List.range got.length).flatMap fun i => ((got.find? fun e => e.1 == i).map fun e => e.2).getD [])
            else none
          put (((s.touchLoads t [q] 0).dropPodBy (.chan t ch) b.stamp q.loc)) { b with got := got, data := data }
  | _, _ => s

/-- One part of a burst written at its place, in any order (07 R146; 12 R250). -/
def State.writePart (s : State) (t ch due : Nat) (b : Burst) (bs : List Byte) (j : Nat) (put : State → Burst → State) : State :=
  match b.parts[j]? with
  | none => s
  | some q =>
    if b.got.any fun e => e.1 == j then s
    else
      match s.unitHeld t b.stamp due [q] with
      | (true, s) => s
      | (false, s) =>
        if s.writeHeld [q] then s
        else if s.poisoned [q] then s.poisonHit [q]
        else
          let at_ := ((b.parts.take j).map fun p => p.len).sum
          put (((s.noteReq t b.stamp 0 [q]).unitWrite [q] ((bs.drop at_).take q.len)).dropPodBy (.chan t ch) b.stamp q.loc)
            { b with got := b.got ++ [(j, [])] }

/-- The next number of a tile's order of issue. -/
def State.nextStamp (s : State) (t : Nat) : Nat × State :=
  ((s.tile t).stamp, s.modTile t fun x => { x with stamp := x.stamp + 1 })

/-- A step of the k-th burst in flight on a channel, for one part of it or for all that are left (07 R146; 11 R405; 12 R250): its bytes are
read, its write starts once its read and those of the bursts whose source it overlaps have ended, and its write is performed. -/
def State.burstStep (s : State) (t ch k : Nat) (which : Option Nat) : State :=
  match ((s.tile t).channel ch).chains with
  | [] => s
  | h :: _ =>
    match h.bursts[k]? with
    | none => s
    | some (r, b) =>
      let i := h.recs.findIdx fun q => q == r
      let here (s : State) : Option Burst := (((s.tile t).channel ch).chains.head?.bind fun h => h.recs[i]?).bind fun r =>
        r.flight.find? fun q => q.off == b.off
      let put (s : State) (b' : Burst) : State := s.modHead t ch fun h => h.modRec i fun r =>
        { r with flight := r.flight.map fun q => if q.off = b.off then b' else q }
      let idx := match which with
        | some j => [j]
        | none => List.range b.parts.length
      let dst := r.dst + wd (r.scale h.sum b.off)
      let m := r.scale h.sum b.len
      match b.data, b.write with
      | none, _ =>
        if s.now < b.mid || (b.got.isEmpty && !s.portTakes t b.parts b.len) then s
        else
          let s := if b.got.isEmpty then s.takePort t b.parts b.len else s
          idx.foldl (fun s j => match here s with
            | some b => s.readPart t ch h (r.src + wd b.off) b j put fun s =>
                s.modHead t ch fun h => h.stopAt i 2 (r.src + wd b.off)
            | none => s) s
      | some _, none =>
        let w := s.readsFirst t h r b (s.recDown t r)
        if s.now < b.due || w.1 || w.2 then s
        else
          match s.unitAcc t h.ctx h.red dst m .write with
          | (.bad _, s) => s.modHead t ch fun h => h.stopAt i 2 dst
          | (.wait, s) => s
          | (.at_ a d, s) =>
            if s.portTakes t a.parts m = false then s
            else
              let q := (s.takePort t a.parts m).nextStamp t
              put (q.2.addPodBy (.chan t ch) 0 q.1 h.ctx 0 2 0 dst a.parts)
                { b with parts := a.parts, got := [], stamp := q.1, write := some (s.now + d + s.latencies t a true / 2) }
      | some bs, some due =>
        let finish (s : State) (fl : Nat) : State := s.modHead t ch fun h => { h.modRec i fun r =>
          { r with flight := r.flight.filter fun q => q.off != b.off } with flags := h.flags ||| fl }
        if s.now < due then s
        else if h.sum then
          match s.unitHeld t b.stamp due b.parts with
          | (true, s) => s
          | (false, s) =>
            if s.writeHeld b.parts then s
            else if s.poisoned b.parts then (if inSpad b.parts then s.modHead t ch fun h => h.stopAt i 2 dst else s.poisonHit b.parts)
            else
              let q := s.burstData true (recXf r.w3) b.parts bs
              let s := (s.noteReq t b.stamp 0 b.parts).unitWrite b.parts q.1
              finish (b.parts.foldl (fun s p => s.dropPodBy (.chan t ch) b.stamp p.loc) s) q.2
        else
          let s := idx.foldl (fun s j => match here s with
            | some b => s.writePart t ch due b bs j put
            | none => s) s
          match here s with
          | some b => if b.got.length = b.parts.length then finish s 0 else s
          | none => s

/-- Bursts of a chain that count against its 16 in flight: not those whose bytes are read and whose write waits for a read not started
(07 R146; log 16). -/
def State.inFlight (s : State) (t : Nat) (h : Chain) : Nat :=
  (h.bursts.filter fun e => !(e.2.data.isSome && e.2.write.isNone && (s.readsFirst t h e.1 e.2 (s.recDown t e.1)).2)).length

/-- A burst of the chain's last record starts its read: one a cycle, at most 16 in flight (07 R146). -/
def State.startBurst (s : State) (t ch : Nat) (h : Chain) (i : Nat) (r : Rec) : State :=
  let c := r.cut h.sum (s.recDown t r)
  let v := r.src + wd c.1
  let before := { h with recs := h.recs.take i }
  if s.now < h.last || decide (16 ≤ s.inFlight t h) || s.writesTo t before v c.2 then s
  else
    match s.unitAcc t h.ctx h.red v c.2 .read with
    | (.bad _, s) => s.modHead t ch fun h => h.stopAt i 2 v
    | (.wait, s) => s
    | (.at_ a d, s) =>
      let l := s.latencies t a false
      let q := s.nextStamp t
      (q.2.addPodBy (.chan t ch) 0 q.1 h.ctx 0 1 0 v a.parts).modHead t ch fun h => { h.modRec i fun r => { r with
        next := r.next + c.2
        flight := r.flight ++ [⟨c.1, c.2, a.parts, [], none, q.1, s.now + d + l / 2, s.now + d + l, none⟩] } with last := s.now + 1 }

/-- The oldest record of a chain, its bytes moved: its OWN write-back, then its increment, each half the latency of its path after it
starts; with those it is complete (07 R146, R148). -/
def State.endRecord (s : State) (t ch : Nat) (h : Chain) (r : Rec) : State :=
  let own := r.addr + 24
  let cwa := r.words.getD 4 0
  let starts (s : State) (v : Word) (inc : Bool) : State :=
    match s.unitAcc t h.ctx h.red v 8 .write with
    | (.bad _, s) => s.modHead t ch fun h => h.stopAt 0 2 v
    | (.wait, s) => s
    | (.at_ a d, s) =>
      let q := s.nextStamp t
      (q.2.addPodBy (.chan t ch) 0 q.1 h.ctx 0 (if inc then 3 else 2) 0 v a.parts).modHead t ch fun h => h.modRec 0 fun r =>
        { r with step := some (inc, s.now + d + s.latencies t a true / 2, q.1) }
  let done (s : State) : State := s.modHead t ch fun h => { h with n := h.n + 1, recs := h.recs.drop 1 }
  match r.step with
  | none => starts s own false
  | some (inc, due, stamp) =>
    let v := if inc then cwa else own
    if s.now < due then s
    else
      match s.unitAcc t h.ctx h.red v 8 .write with
      | (.bad _, s) => s.modHead t ch fun h => h.stopAt 0 2 v
      | (.wait, s) => s
      | (.at_ a _, s) =>
        match s.unitHeld t stamp due a.parts with
        | (true, s) => s
        | (false, s) =>
          if s.writeHeld a.parts then s
          else if s.poisoned a.parts then (if inSpad a.parts then s.modHead t ch fun h => h.stopAt 0 2 v else s.poisonHit a.parts)
          else
            let s := a.parts.foldl (fun s p => s.dropPodBy (.chan t ch) stamp p.loc) (s.noteReq t stamp 0 a.parts)
            if inc then done (((s.atomic a.parts 0x1F (r.words.getD 5 0) 0).2.touchWrites a.parts 0).squash (some (h.party t)))
            else
              let s := s.unitWrite a.parts (leBytes 8 (r.w3 &&& 0x7FFFFFFFFFFFFFFF).toNat)
              if recCwe r.w3 then starts s cwa true else done s

/-- A chain reads its next record (07 R143, R146): once the bursts of the one before have all started and nothing it is to read is
still to be written by the chain itself. Each 8-byte part of it is read by itself (23 R371). -/
def State.readRecord (s : State) (t ch : Nat) (h : Chain) (which : Option Nat) : State :=
  let stop (s : State) (code : Nat) (v : Word) : State := s.modHead t ch fun h => h.stopAt h.recs.length code v
  if h.cur = 0 then stop s 0 0
  else if modeOf h.cur = 3 ∨ addrOf h.cur % 64 ≠ 0 then stop s 3 0
  else if s.writesTo t h h.cur 64 ||
      h.recs.any (fun r => s.runsMeet t h.cur 64 r.addr 64 || (recCwe r.w3 && s.runsMeet t h.cur 64 (r.words.getD 4 0) 8)) then s
  else
    match h.reading with
    | none =>
      match s.unitAcc t h.ctx h.red h.cur 64 .read with
      | (.bad _, s) => stop s 2 h.cur
      | (.wait, s) => s
      | (.at_ a d, s) =>
        let l := s.latencies t a false
        let q := s.nextStamp t
        (q.2.addPodBy (.chan t ch) 0 q.1 h.ctx 0 1 0 h.cur a.parts).modHead t ch fun h =>
          { h with reading := some ⟨0, 64, a.parts, [], none, q.1, s.now + d + l / 2, s.now + d + l, none⟩ }
    | some b =>
      match b.data with
      | none =>
        if s.now < b.mid then s
        else
          let put (s : State) (b' : Burst) : State := s.modHead t ch fun h => { h with reading := some b' }
          let idx := match which with
            | some j => [j]
            | none => List.range b.parts.length
          idx.foldl (fun s j => match ((s.tile t).channel ch).chains.head?.bind fun h => h.reading with
            | some b => s.readPart t ch h h.cur b j put fun s => stop s 2 h.cur
            | none => s) s
      | some bs =>
        let r := leWords bs
        if s.now < b.due then s
        else if recOwn (r.getD 3 0) = false then stop s 1 0
        else if badRecord h.sum r then stop s 3 0
        else s.modHead t ch fun h =>
          { h with recs := h.recs ++ [⟨h.cur, r, 0, [], none⟩], cur := r.getD 0 0, reading := none }

/-- One part of the record a channel is reading, of its k-th burst in flight where there is one. -/
def State.partStep (s : State) (t ch k j : Nat) : State :=
  match ((s.tile t).channel ch).chains with
  | [] => s
  | h :: _ => if h.bursts.length = k ∧ h.reading.isSome then s.readRecord t ch h (some j) else s.burstStep t ch k (some j)

/-- COPY_RECORD (07 R146): what the channel does next for its oldest chain. The chain ends once its records are complete; a record is
given back in chain order; a burst starts, or the next record is read. A channel of a tile that is being moved starts nothing new
(14 R285). -/
def execCopyRecord (tile ch : Nat) (s : State) : Host.Outcome State Fault Refusal :=
  .next <|
    let c := (s.tile tile).channel ch
    match c.chains with
    | [] => s
    | h :: _ =>
      match h.recs with
      | [] =>
        match h.ending with
        | some (code, addr) => s.endChain tile ch h code addr
        | none => if s.tileHeld tile then s else s.readRecord tile ch h none
      | r :: _ =>
        if decide (r.next = r.len) && r.flight.isEmpty && (r.step.isSome || !s.tileHeld tile) &&
            (match r.step with | some e => decide (e.2.1 ≤ s.now) | none => true) then
          s.endRecord tile ch h r
        else if s.tileHeld tile || h.ending.isSome then s
        else
          match h.recs.getLast? with
          | some q => if q.next < q.len then s.startBurst tile ch h (h.recs.length - 1) q else s.readRecord tile ch h none
          | none => s

end Sys2Proof.Machine
end

