-- ==== Sys2Proof/Machine/Deflate.lean ====
section
/-! DEFINITION. Raw DEFLATE streams, which INFL decodes (10 R200): the published standard RFC 1951 (log 80). Decoded bytes are kept newest
first. -/

namespace Sys2Proof.Machine

/-- The bits of a byte string, each byte's least significant bit first. -/
def bitsUp (bs : List Byte) : List Bool := bs.flatMap fun b => (List.range 8).map fun i => b.getLsbD i

/-- The number that n bits make, the least significant first, and the bits after them. -/
def takeUp : Nat → List Bool → Option (Nat × List Bool)
  | 0, l => some (0, l)
  | _ + 1, [] => none
  | n + 1, b :: l => (takeUp n l).map fun r => (2 * r.1 + (if b then 1 else 0), r.2)

/-- A canonical prefix code: how many codes of each length from 1 on, and the symbols in the order of their codes. -/
structure PrefixCode where
  counts : List Nat
  syms : List Nat

/-- The code of given lengths; none where there are more codes of a length than fit. -/
def prefixCode (lens : List Nat) : Option PrefixCode :=
  let ls := (List.range 15).map fun i => i + 1
  let counts := ls.map fun n => (lens.filter fun k => k == n).length
  let left : Int := counts.foldl (fun (l : Int) (c : Nat) => if l < 0 then l else 2 * l - (c : Int)) 1
  if left < 0 then none
  else some ⟨counts, ls.flatMap fun n => (List.range lens.length).filter fun i => lens.getD i 0 == n⟩

/-- A symbol read: `first` and `index` are the first code and symbol of the length reached. -/
def readSym (syms : List Nat) : List Nat → Nat → Nat → Nat → List Bool → Option (Nat × List Bool)
  | c :: cs, code, first, index, b :: l =>
    let code := code + if b then 1 else 0
    if code < first + c then (syms[index + (code - first)]?).map fun s => (s, l)
    else readSym syms cs (2 * code) (2 * (first + c)) (index + c) l
  | _, _, _, _, _ => none

def PrefixCode.read (h : PrefixCode) (l : List Bool) : Option (Nat × List Bool) := readSym h.syms h.counts 0 0 0 l

/-- A copy of n bytes from so far back. -/
def copyBack : Nat → Nat → List Byte → Option (List Byte)
  | 0, _, out => some out
  | n + 1, d, out =>
    if d = 0 then none
    else match out[d - 1]? with
      | some b => copyBack n d (b :: out)
      | none => none

/-- Base of a length or distance code: every `step` codes have one extra bit more. -/
def inflBase (step first i : Nat) : Nat × Nat :=
  if i < 2 * step then (first + i, 0)
  else
    let x := i / step - 1
    (first + 2 ^ x * (step + i % step), x)

/-- Literals and copies of a block up to its end. -/
def inflCodes (lit dist : PrefixCode) : Nat → List Bool → List Byte → Option (List Bool × List Byte)
  | 0, _, _ => none
  | f + 1, l, out =>
    match lit.read l with
    | none => none
    | some (s, l) =>
      if s < 256 then inflCodes lit dist f l (BitVec.ofNat 8 s :: out)
      else if s = 256 then some (l, out)
      else if 285 < s then none
      else
        let lb := if s = 285 then (258, 0) else inflBase 4 3 (s - 257)
        match takeUp lb.2 l with
        | none => none
        | some (le, l) =>
          match dist.read l with
          | none => none
          | some (d, l) =>
            if 29 < d then none
            else
              let db := inflBase 2 1 d
              match takeUp db.2 l with
              | none => none
              | some (de, l) =>
                match copyBack (lb.1 + le) (db.1 + de) out with
                | none => none
                | some out => inflCodes lit dist f l out

/-- The code lengths of a dynamic block: n of them. -/
def inflLens (h : PrefixCode) (n : Nat) : Nat → List Bool → List Nat → Option (List Nat × List Bool)
  | 0, _, _ => none
  | f + 1, l, got =>
    if got.length = n then some (got.reverse, l)
    else if n < got.length then none
    else
      match h.read l with
      | none => none
      | some (s, l) =>
        if s < 16 then inflLens h n f l (s :: got)
        else
          let p := if s = 16 then (3, 2) else if s = 17 then (3, 3) else (11, 7)
          match takeUp p.2 l, (if s = 16 then got.head? else some 0) with
          | some (k, l), some v => inflLens h n f l (List.replicate (p.1 + k) v ++ got)
          | _, _ => none

/-- Both codes of a dynamic block. -/
def inflDynamic (l : List Bool) : Option (PrefixCode × PrefixCode × List Bool) := do
  let (hlit, l) ← takeUp 5 l
  let (hdist, l) ← takeUp 5 l
  let (hclen, l) ← takeUp 4 l
  let n := hclen + 4
  let lens := (List.range n).map fun i => ((takeUp 3 (l.drop (3 * i))).getD (0, [])).1
  let order := [16, 17, 18, 0, 8, 7, 9, 6, 10, 5, 11, 4, 12, 3, 13, 2, 14, 1, 15]
  let cl ← prefixCode ((List.range 19).map fun s => ((order.zip lens).find? fun e => e.1 == s).elim 0 fun e => e.2)
  let total := hlit + 257 + hdist + 1
  let (ls, l) ← inflLens cl total (total + 1) (l.drop (3 * n)) []
  if 286 < hlit + 257 then none
  else
    let lit ← prefixCode (ls.take (hlit + 257))
    let dist ← prefixCode (ls.drop (hlit + 257))
    pure (lit, dist, l)

/-- The fixed codes. -/
def inflFixed : Option (PrefixCode × PrefixCode) := do
  let lit ← prefixCode (List.replicate 144 8 ++ List.replicate 112 9 ++ List.replicate 24 7 ++ List.replicate 8 8)
  let dist ← prefixCode (List.replicate 30 5)
  pure (lit, dist)

/-- A stored block; the bits left are a whole number of bytes from the next byte boundary on. -/
def inflStored (l : List Bool) (out : List Byte) : Option (List Bool × List Byte) := do
  let l := l.drop (l.length % 8)
  let (n, l) ← takeUp 16 l
  let (m, l) ← takeUp 16 l
  if n + m ≠ 65535 ∨ l.length < 8 * n then none
  else pure (l.drop (8 * n), ((List.range n).map fun i => BitVec.ofNat 8 ((takeUp 8 (l.drop (8 * i))).getD (0, [])).1).reverse ++ out)

/-- Blocks up to the final one. -/
def inflBlocks : Nat → List Bool → List Byte → Option (List Byte)
  | 0, _, _ => none
  | f + 1, l, out =>
    match takeUp 1 l with
    | none => none
    | some (fin, l) =>
      let r := match takeUp 2 l with
        | some (0, l) => inflStored l out
        | some (1, l) => inflFixed.bind fun h => inflCodes h.1 h.2 (l.length + 1) l out
        | some (2, l) => (inflDynamic l).bind fun h => inflCodes h.1 h.2.1 (h.2.2.length + 1) h.2.2 out
        | _ => none
      match r with
      | none => none
      | some (l, out) => if fin = 1 then some out else inflBlocks f l out

/-- A raw DEFLATE stream decoded. -/
def deflateDecode (bs : List Byte) : Option (List Byte) := (inflBlocks (8 * bs.length) (bitsUp bs) []).map List.reverse

end Sys2Proof.Machine
end

