-- ==== Sys2Proof/Machine/Zstd.lean ====
section
/-! DEFINITION. Zstandard frames, which INFL decodes (10 R200): single frames without a dictionary, of windows up to 8 MiB, the checksum
checked when present; the published standard RFC 8878 (log 80). Decoded bytes are kept newest first. -/

namespace Sys2Proof.Machine

/-- The bits of a stream that is read from its end: those below the final bit, the highest 1 of the last byte. -/
def bitsDown (bs : List Byte) : Option (List Bool) :=
  match (bitsUp bs).reverse.dropWhile fun b => !b with
  | _ :: l => if (bs.getLast?).any fun b => b != 0 then some l else none
  | [] => none

/-- The number that n bits make, the most significant first, zeros standing for those past the end. -/
def peekDown (n : Nat) (l : List Bool) : Nat :=
  (List.range n).foldl (fun v i => 2 * v + if l.getD i false then 1 else 0) 0

/-- The same bits taken; none past the end. -/
def takeDown (n : Nat) (l : List Bool) : Option (Nat × List Bool) := if l.length < n then none else some (peekDown n l, l.drop n)

/-- Bits of a number from the highest 1 on down to bit 0, less one. -/
abbrev topBit (n : Nat) : Nat := Nat.log2 n

/-- An entry of an FSE decoding table: symbol, bits to read, base of the next state. -/
structure FseEnt where
  sym : Nat
  nb : Nat
  base : Nat

/-- An FSE table: its accuracy and entries. -/
structure Fse where
  al : Nat
  ents : List FseEnt

def Fse.at (t : Fse) (i : Nat) : FseEnt := t.ents.getD i ⟨0, 0, 0⟩

/-- Runs of symbols of probability zero. -/
def fseZeros : Nat → List Bool → List Int → Option (List Int × List Bool)
  | 0, _, _ => none
  | f + 1, l, ps =>
    match takeUp 2 l with
    | none => none
    | some (n, l) =>
      let ps := List.replicate n 0 ++ ps
      if n = 3 then fseZeros f l ps else some (ps, l)

/-- The probabilities of a table, newest first, until none is left over. -/
def fseProbs : Nat → Nat → List Bool → List Int → Option (List Int × List Bool)
  | 0, _, _, _ => none
  | f + 1, left, l, ps =>
    if left = 0 then some (ps, l)
    else
      let n := topBit (left + 1) + 1
      match takeUp (n - 1) l with
      | none => none
      | some (low, l1) =>
        let thr := 2 ^ n - 1 - (left + 1)
        let got := if low < thr then some (low, l1) else
          (takeUp 1 l1).map fun r => (if r.1 = 1 then low + 2 ^ (n - 1) - thr else low, r.2)
        match got with
        | none => none
        | some (v, l) =>
          let p : Int := (v : Int) - 1
          let used := p.natAbs
          if left < used then none
          else if p = 0 then (fseZeros f l (0 :: ps)).bind fun r => fseProbs f left r.2 r.1
          else fseProbs f (left - used) l (p :: ps)

/-- The decoding table of given probabilities: the symbols of -1 at the top, the others spread, each state's bits. -/
def fseTable (al : Nat) (ps : List Int) : Fse :=
  let size := 2 ^ al
  let all := List.range ps.length
  let less := all.filter fun s => ps.getD s 0 == -1
  let high := size - less.length
  let spots := ((List.range size).map fun i => i * (size / 2 + size / 8 + 3) % size).filter fun p => decide (p < high)
  let order := all.flatMap fun s => List.replicate (ps.getD s 0).toNat s
  let cells := kvSetAll ((spots.zip order) ++ (List.range less.length).map fun i => (size - 1 - i, less.getD i 0))
  let syms := (List.range size).map fun i => kvGet cells i 0
  { al := al
    ents := (List.range size).map fun i =>
      let s := syms.getD i 0
      let x := (ps.getD s 0).natAbs + ((syms.take i).filter fun k => k == s).length
      let nb := al - topBit x
      ⟨s, nb, x * 2 ^ nb - size⟩ }
where kvSetAll (es : List (Nat × Nat)) : List (Nat × Nat) := es.foldl (fun m e => kvSet m e.1 e.2) []

/-- The table described at the head of some bytes, and the bytes after it. -/
def fseRead (maxAl maxSym : Nat) (bs : List Byte) : Option (Fse × List Byte) :=
  let l := bitsUp bs
  match takeUp 4 l with
  | none => none
  | some (a, l1) =>
    let al := a + 5
    if maxAl < al then none
    else match fseProbs (8 * bs.length + 1) (2 ^ al) l1 [] with
      | none => none
      | some (ps, rest) =>
        if maxSym + 1 < ps.length then none
        else some (fseTable al ps.reverse, bs.drop ((l.length - rest.length + 7) / 8))

/-- Two interleaved states over one stream, until it is used up (weights of a Huffman table). -/
def fseWeights (t : Fse) : Nat → Nat → Nat → List Bool → List Nat → Option (List Nat)
  | 0, _, _, _, _ => none
  | f + 1, a, b, l, out =>
    let e := t.at a
    let out := e.sym :: out
    match takeDown e.nb l with
    | none => some ((t.at b).sym :: out)
    | some (v, l) => fseWeights t f b (e.base + v) l out

/-- A Huffman table: its longest code and, for each value of so many bits, the symbol and its length. -/
structure Huff where
  bits : Nat
  ents : List (Nat × Nat)

/-- The table of given weights, the last one being what is left over. -/
def huffTable (ws : List Nat) : Option Huff :=
  let sum := ws.foldl (fun n w => n + (if w = 0 then 0 else 2 ^ (w - 1))) 0
  if sum = 0 then none
  else
    let n := topBit sum + 1
    let left := 2 ^ n - sum
    if 11 < n ∨ 2 ^ topBit left ≠ left then none
    else
      let ws := ws ++ [topBit left + 1]
      some ⟨n, (List.range n).flatMap fun i => ((List.range ws.length).filter fun s => ws.getD s 0 == i + 1).flatMap fun s =>
        List.replicate (2 ^ i) (s, n - i)⟩

/-- A Huffman table description, and the bytes after it. -/
def huffRead (bs : List Byte) : Option (Huff × List Byte) :=
  match bs with
  | [] => none
  | h :: r =>
    let n := h.toNat
    if 128 ≤ n then
      let k := n - 127
      if r.length < (k + 1) / 2 then none
      else (huffTable ((List.range k).map fun i =>
        let v := (r.getD (i / 2) 0).toNat
        if i % 2 = 0 then v / 16 else v % 16)).map fun t => (t, r.drop ((k + 1) / 2))
    else if r.length < n then none
    else
      match fseRead 6 15 (r.take n) with
      | none => none
      | some (t, rest) => do
        let l ← bitsDown rest
        let (a, l) ← takeDown t.al l
        let (b, l) ← takeDown t.al l
        let ws ← fseWeights t 256 a b l []
        (huffTable ws.reverse).map fun t => (t, r.drop n)

/-- The symbols of a Huffman stream: as many as stated, using it up. -/
def huffSyms (t : Huff) : Nat → List Bool → List Byte → Option (List Byte)
  | 0, l, out => if l.isEmpty then some out.reverse else none
  | n + 1, l, out =>
    let e := t.ents.getD (peekDown t.bits l) (0, 0)
    if l.length < e.2 then none else huffSyms t n (l.drop e.2) (BitVec.ofNat 8 e.1 :: out)

/-- One stream of literals. -/
def huffStream (t : Huff) (bs : List Byte) (n : Nat) : Option (List Byte) := (bitsDown bs).bind fun l => huffSyms t n l []

/-- What one block leaves to the next: the tables in use and the three recent offsets. -/
structure ZCtx where
  huff : Option Huff
  ll : Option Fse
  off : Option Fse
  ml : Option Fse
  reps : Nat × Nat × Nat

/-- The literals of a compressed block, with the bytes after their section and the table in use. -/
def zLiterals (c : ZCtx) (bs : List Byte) : Option (List Byte × List Byte × ZCtx) :=
  let h := leNat (bs.take 5)
  let fmt := bits h 3 2
  match bits h 1 0 with
  | 0 | 1 =>
    let p := if fmt % 2 = 0 then (1, bits h 7 3) else if fmt = 1 then (2, bits h 15 4) else (3, bits h 23 4)
    let r := bs.drop p.1
    if bs.length < p.1 then none
    else if bits h 1 0 = 0 then (if r.length < p.2 then none else some (r.take p.2, r.drop p.2, c))
    else r.head?.map fun b => (List.replicate p.2 b, r.drop 1, c)
  | k =>
    let w := if fmt < 2 then 10 else if fmt = 2 then 14 else 18
    let hd := if fmt < 2 then 3 else if fmt = 2 then 4 else 5
    let size := bits h (3 + w) 4
    let comp := bits h (3 + 2 * w) (4 + w)
    let r := bs.drop hd
    if r.length < comp then none
    else do
      let (t, body) ← if k = 2 then huffRead (r.take comp) else c.huff.map fun t => (t, r.take comp)
      let lits ← if fmt = 0 then huffStream t body size else
        let s1 := leNat (body.take 2)
        let s2 := leNat ((body.drop 2).take 2)
        let s3 := leNat ((body.drop 4).take 2)
        let q := (size + 3) / 4
        let b := body.drop 6
        if body.length < 6 + s1 + s2 + s3 ∨ size < 3 * q then none
        else do
          let a1 ← huffStream t (b.take s1) q
          let a2 ← huffStream t ((b.drop s1).take s2) q
          let a3 ← huffStream t ((b.drop (s1 + s2)).take s3) q
          let a4 ← huffStream t (b.drop (s1 + s2 + s3)) (size - 3 * q)
          pure (a1 ++ a2 ++ a3 ++ a4)
      pure (lits, r.drop comp, { c with huff := some t })

/-- Base and extra bits of a literal-length code. -/
def zLL (c : Nat) : Nat × Nat :=
  if c < 16 then (c, 0)
  else [(16, 1), (18, 1), (20, 1), (22, 1), (24, 2), (28, 2), (32, 3), (40, 3), (48, 4), (64, 6)].getD (c - 16) (2 ^ (c - 19), c - 19)

/-- Base and extra bits of a match-length code. -/
def zML (c : Nat) : Nat × Nat :=
  if c < 32 then (c + 3, 0)
  else [(35, 1), (37, 1), (39, 1), (41, 1), (43, 2), (47, 2), (51, 3), (59, 3), (67, 4), (83, 4), (99, 5)].getD (c - 32)
    (2 ^ (c - 36) + 3, c - 36)

/-- The predefined tables. -/
def zDefLL : Fse := fseTable 6 ([4, 3, 2, 2, 2, 2, 2, 2, 2, 2, 2, 2, 2, 1, 1, 1, 2, 2] ++
  [2, 2, 2, 2, 2, 2, 2, 3, 2, 1, 1, 1, 1, 1, -1, -1, -1, -1])
def zDefOff : Fse := fseTable 5 ([1, 1, 1, 1, 1, 1, 2, 2, 2] ++ List.replicate 15 1 ++ List.replicate 5 (-1))
def zDefML : Fse := fseTable 6 ([1, 4, 3, 2, 2, 2, 2, 2, 2] ++ List.replicate 37 1 ++ List.replicate 7 (-1))

/-- One of the three tables of the sequences: predefined, of one symbol, described, or the one in use. -/
def zTable (mode maxAl maxSym : Nat) (dflt : Fse) (old : Option Fse) (bs : List Byte) : Option (Fse × List Byte) :=
  match mode with
  | 0 => some (dflt, bs)
  | 1 => match bs with
    | b :: r => if maxSym < b.toNat then none else some (⟨0, [⟨b.toNat, 0, 0⟩]⟩, r)
    | [] => none
  | 2 => fseRead maxAl maxSym bs
  | _ => old.map fun t => (t, bs)

/-- The offset a value names, with the recent offsets after it. -/
def zOffset (v ll : Nat) (r : Nat × Nat × Nat) : Option (Nat × Nat × Nat × Nat) :=
  if 3 < v then some (v - 3, v - 3, r.1, r.2.1)
  else match v - 1 + if ll = 0 then 1 else 0 with
    | 0 => some (r.1, r)
    | 1 => some (r.2.1, r.2.1, r.1, r.2.2)
    | 2 => some (r.2.2, r.2.2, r.1, r.2.1)
    | _ => if r.1 ≤ 1 then none else some (r.1 - 1, r.1 - 1, r.1, r.2.1)

/-- The sequences of a block executed: n of them, from three states, over the literals left. -/
def zSeqs (win : Nat) (tl tof tm : Fse) : Nat → Nat → Nat → Nat → List Bool → List Byte → List Byte → Nat × Nat × Nat →
    Option (List Byte × Nat × Nat × Nat)
  | 0, _, _, _, l, lits, out, reps => if l.isEmpty then some (lits.reverse ++ out, reps) else none
  | n + 1, a, b, c, l, lits, out, reps => do
    let ea := tl.at a
    let eb := tof.at b
    let ec := tm.at c
    let (ov, l) ← takeDown eb.sym l
    let (mx, l) ← takeDown (zML ec.sym).2 l
    let (lx, l) ← takeDown (zLL ea.sym).2 l
    let ll := (zLL ea.sym).1 + lx
    if lits.length < ll then none
    else
      let out := (lits.take ll).reverse ++ out
      let (d, reps) ← zOffset (2 ^ eb.sym + ov) ll reps
      if win < d then none
      else
        let out ← copyBack ((zML ec.sym).1 + mx) d out
        if n = 0 then zSeqs win tl tof tm 0 0 0 0 l (lits.drop ll) out reps
        else
          let (va, l) ← takeDown ea.nb l
          let (vc, l) ← takeDown ec.nb l
          let (vb, l) ← takeDown eb.nb l
          zSeqs win tl tof tm n (ea.base + va) (eb.base + vb) (ec.base + vc) l (lits.drop ll) out reps

/-- A compressed block. -/
def zBlock (win : Nat) (c : ZCtx) (bs out : List Byte) : Option (List Byte × ZCtx) := do
  let (lits, r, c) ← zLiterals c bs
  let b0 := (r.getD 0 0).toNat
  let b1 := (r.getD 1 0).toNat
  let p := if b0 < 128 then (1, b0) else if b0 < 255 then (2, (b0 - 128) * 256 + b1)
    else (3, b1 + (r.getD 2 0).toNat * 256 + 0x7F00)
  if r.length < p.1 then none
  else if p.2 = 0 then (if r.length = 1 then pure (lits.reverse ++ out, c) else none)
  else
    let m := (r.getD p.1 0).toNat
    if r.length < p.1 + 1 ∨ m % 4 ≠ 0 then none
    else
      let (tl, r) ← zTable (bits m 7 6) 9 35 zDefLL c.ll (r.drop (p.1 + 1))
      let (tof, r) ← zTable (bits m 5 4) 8 31 zDefOff c.off r
      let (tm, r) ← zTable (bits m 3 2) 9 52 zDefML c.ml r
      let l ← bitsDown r
      let (a, l) ← takeDown tl.al l
      let (b, l) ← takeDown tof.al l
      let (d, l) ← takeDown tm.al l
      let (out, reps) ← zSeqs win tl tof tm p.2 a b d l lits out c.reps
      pure (out, { c with ll := some tl, off := some tof, ml := some tm, reps := reps })

/-- Blocks up to the last one, with the bytes after it. -/
def zBlocks (win : Nat) : Nat → ZCtx → List Byte → List Byte → Option (List Byte × List Byte)
  | 0, _, _, _ => none
  | f + 1, c, bs, out =>
    let h := leNat (bs.take 3)
    let size := h / 8
    let r := bs.drop 3
    let kind := bits h 2 1
    let cap := min win 131072
    if bs.length < 3 ∨ kind = 3 ∨ cap < size ∨ r.length < (if kind = 1 then 1 else size) then none
    else
      let q := match kind with
        | 0 => some ((r.take size).reverse ++ out, c)
        | 1 => some (List.replicate size (r.headD 0) ++ out, c)
        | _ => zBlock win c (r.take size) out
      match q with
      | none => none
      | some (out', c) =>
        let rest := r.drop (if kind = 1 then 1 else size)
        if out.length + cap < out'.length then none
        else if h % 2 = 1 then some (out', rest) else zBlocks win f c rest out'

/-- XXH64 of a byte string with seed 0. -/
def xxh64 (bs : List Byte) : Word :=
  let p1 : Word := 0x9E3779B185EBCA87
  let p2 : Word := 0xC2B2AE3D27D4EB4F
  let p3 : Word := 0x165667B19E3779F9
  let p4 : Word := 0x85EBCA77C2B2AE63
  let p5 : Word := 0x27D4EB2F165667C5
  let word (n o : Nat) : Word := BitVec.ofNat 64 (leNat ((bs.drop o).take n))
  let round (a v : Word) : Word := (a + v * p2).rotateLeft 31 * p1
  let n := bs.length
  let k := n / 32
  let acc (i : Nat) (a : Word) : Word := (List.range k).foldl (fun a j => round a (word 8 (32 * j + 8 * i))) a
  let h : Word :=
    if k = 0 then p5
    else
      let as : List Word := [acc 0 (p1 + p2), acc 1 p2, acc 2 0, acc 3 (0 - p1)]
      let m : Word := (as.zip [1, 7, 12, 18]).foldl (fun s e => s + e.1.rotateLeft e.2) (0 : Word)
      as.foldl (fun h a => (h ^^^ round 0 a) * p1 + p4) m
  let h := h + BitVec.ofNat 64 n
  let o := 32 * k
  let w := (n - o) / 8
  let h := (List.range w).foldl (fun h j => (h ^^^ round 0 (word 8 (o + 8 * j))).rotateLeft 27 * p1 + p4) h
  let o := o + 8 * w
  let (h, o) := if 4 ≤ n - o then ((h ^^^ (word 4 o * p1)).rotateLeft 23 * p2 + p3, o + 4) else (h, o)
  let h := (List.range (n - o)).foldl (fun h j => (h ^^^ (word 1 (o + j) * p5)).rotateLeft 11 * p1) h
  let h := (h ^^^ (h >>> 33)) * p2
  let h := (h ^^^ (h >>> 29)) * p3
  h ^^^ (h >>> 32)

/-- A Zstandard frame decoded. -/
def zstdDecode (bs : List Byte) : Option (List Byte) :=
  let d := (bs.getD 4 0).toNat
  let single := bitOf d 5
  let w := (bs.getD 5 0).toNat
  let o := if single then 5 else 6
  let ids := [0, 1, 2, 4].getD (d % 4) 0
  let fl := if d / 64 = 0 then (if single then 1 else 0) else 2 ^ (d / 64)
  let size := leNat ((bs.drop (o + ids)).take fl) + if d / 64 = 1 then 256 else 0
  let win := if single then size else 2 ^ (10 + w / 8) + 2 ^ (10 + w / 8) / 8 * (w % 8)
  if leNat (bs.take 4) ≠ 0xFD2FB528 ∨ bitOf d 3 = true ∨ bs.length < o + ids + fl ∨ leNat ((bs.drop o).take ids) ≠ 0 ∨
      2 ^ 23 < win then none
  else
    match zBlocks win bs.length ⟨none, none, none, none, 1, 4, 8⟩ (bs.drop (o + ids + fl)) [] with
    | none => none
    | some (out, rest) =>
      let out := out.reverse
      if fl ≠ 0 ∧ out.length ≠ size then none
      else if bitOf d 2 = true ∧ (rest.length < 4 ∨ leNat (rest.take 4) ≠ (xxh64 out).toNat % 2 ^ 32) then none
      else some out

/-- What INFL decodes: Zstandard (0) or DEFLATE (1); none of a malformed stream. -/
def inflate (fmt : Nat) (bs : List Byte) : Option (List Byte) := if fmt = 0 then zstdDecode bs else deflateDecode bs

end Sys2Proof.Machine
end

