-- ==== Sys2Proof/Machine/Engine.lean ====
section
/-! DEFINITION. Leases, engine registers, guarded commands, the Marten and the engine kinds (10 R195 to R204; 13 R269,
R270; 01 R16, R17; 23 R369, R370). The parts of a command's sources are read
each in an event of its own, at the latest as it computes; its writes are performed and its results enqueued one at a time after that
(log 15). -/

namespace Sys2Proof.Machine

/-- `lstN` (10 Table 10.2). -/
def Binding.status (b : Binding) : Word :=
  let st := match b.st with
    | .unbound => 0
    | .queued => 1
    | .waking => 2
    | .bound => 3
    | .evicted => 4
  let eng := match b.st with
    | .bound | .evicted => b.eng
    | _ => 0
  wd (b.evn * 2 ^ 24 + eng * 2 ^ 16 + b.prio * 2 ^ 8 + b.kind * 2 ^ 4 + st)

/-- An f code's number. -/
def fNum : Spec → Nat
  | .f i => i.toNat
  | _ => 0

/-- Shelf indices of a kind (10 Table 10.2). -/
def shelfOf (kind : Nat) : List Nat := [2 * kind, 2 * kind + 1]

/-- `lease` (10 R196): the request reaches the Marten 4 cycles later. -/
def execLease (f : Spec) (kind : BitVec 3) (prio : BitVec 2) (la : BitVec 4) (p : BitVec 3) (s : State) :
    Host.Outcome State Fault Refusal :=
  let i := Instr.lease f kind prio la p
  .next (s.issue i (Meta.solo (onP p) [] [f]) fun s w =>
    let x := s.slot w
    let b := x.bind (fNum f)
    let cl := s.cluster w.tile
    if x.red.isSome ∧ kind = 7 then .trap cRedundancy (wordOf i)
    else if b.st = .queued ∨ b.st = .waking ∨ b.st = .bound then .trap cEngState b.status
    else if (shelfOf kind.toNat).all fun e => s.caps.engOut.contains (16 * cl + e) then .trap cEngAbsent (kind.setWidth 64)
    else
      let nb : Binding := { Binding.cold with st := .queued, evn := b.evn, kind := kind.toNat, prio := prio.toNat, cl := cl }
      let s := (s.modSlot w fun x => x.setBind (fNum f) nb).modClu cl fun c =>
        { c with lreq := c.lreq ++ [⟨w, fNum f, kind.toNat, prio.toNat, s.now + 4⟩] }
      .ok (s.addPend w i la (.lease (fNum f)) s.now))

/-- A binding's state set. -/
def State.modBind (s : State) (w : Who) (k : Nat) (f : Binding → Binding) : State :=
  s.modSlot w fun x => x.setBind k (f (x.bind k))

/-- The pending `lease` of a binding completes (10 R196). -/
def Slot.leaseDone (x : Slot) (k : Nat) : Slot :=
  { x with pend := x.pend.filter fun p => match p.job with
      | .lease n => n != k
      | _ => true }

/-- A binding BOUND to an engine, both sets of whose registers are zero (10 R196). -/
def State.bindEngine (s : State) (cl e : Nat) (w : Who) (k : Nat) : State :=
  let s : State := { s with nextThr := s.nextThr + 1 }
  let s := (s.modEng cl e fun g =>
    { Engine.cold with pow := .on, inService := g.inService, holder := some (w, k), thr := s.nextThr }).modBind
    w k fun b => { b with st := .bound, eng := e, since := s.now, left := [], token := none }
  (s.logArrival w.tile 2 w.slot 0 (((s.slot w).bind k).status)).modSlot w fun x => x.leaseDone k

/-- Error token (10 R199; 23 Table 23.3). -/
def errToken (code opc detail : Nat) : Word := wd (0xFE * 2 ^ 56 + detail % 2 ^ 40 * 2 ^ 16 + opc * 2 ^ 8 + code)

/-- The eviction token (10 R199). -/
def evictToken : Word := 0xFF00000000000000

/-- Every request for a kind without an engine in service completes with an error token of code 8 (23 R370). -/
def State.failLease (s : State) (r : LReq) : State :=
  (s.modBind r.who r.f fun b => { b with st := .evicted, left := [], token := some (errToken 8 0 0) }).modSlot r.who
    fun x => x.leaseDone r.f

/-- Eviction of the binding of an engine (10 R198). -/
def State.evict (s : State) (cl e : Nat) : State :=
  let g := s.eng cl e
  match g.holder with
  | none => s
  | some (w, k) =>
    let s := s.modBind w k fun b =>
      { b with st := .evicted, evn := min 255 (b.evn + 1), left := b.left ++ g.results, token := some evictToken }
    (s.modSlot w fun x => { x with guards := x.guards.map fun q => if q = some k then none else q }).downEngine cl e

/-- Waking an engine for a request (13 R269 actions 2 and 3; 10 R196). -/
def State.wakeEngine (s : State) (cl e : Nat) (r : LReq) : State :=
  ((s.modEng cl e fun g => { g with pow := .waiting, holder := some (r.who, r.f) }).modBind r.who r.f fun b =>
    { b with eng := e }).modSlab (cl / 4) fun l => { l with wakes := l.wakes ++ [⟨.engine cl e, r.prio, r.at_, none⟩] }

/-- An engine the Marten may offer. -/
def Engine.usable (g : Engine) : Bool := g.inService && g.frozen.isNone

/-- Engines of a cluster that count against its limit of 4 (01 R16). -/
def Cluster.powered (c : Cluster) : Nat := (c.engines.toList.filter fun g => g.pow != .off).length

/-- Candidates of R270 for a request, with the priority and the age of their bindings. -/
def State.candidates (s : State) (cl : Nat) (r : LReq) : List (Nat × Nat × Nat) :=
  let kin := shelfOf r.kind
  let both := kin.all fun e => (s.eng cl e).holder.isSome
  ((List.range 16).filterMap fun e =>
    match (s.eng cl e).pow, (s.eng cl e).frozen, (s.eng cl e).holder with
    | .on, none, some (w, k) =>
      let b := (s.slot w).bind k
      if b.st = .bound ∧ b.prio < r.prio ∧ b.since + 45000 ≤ s.now then some (e, b.prio, b.since) else none
    | _, _, _ => none).filter fun c => !both || kin.contains c.1

/-- One request served by the first possible action of R269, with whether it is served: an eviction that leaves no engine of the kind
to wake serves nobody yet (R270; log 44); `none` keeps its place. -/
def State.serve (s : State) (cl : Nat) (r : LReq) : Option (State × Bool) :=
  let kin := shelfOf r.kind
  let ready := kin.filter fun e => (s.eng cl e).usable && (s.eng cl e).pow == .on && (s.eng cl e).holder.isNone
  let asleep := kin.filter fun e => (s.eng cl e).usable && (s.eng cl e).pow == .off
  let evicting : Option (State × Bool) :=
    match listMin (fun c => (c.2.1 * 2 ^ 64 + c.2.2) * 16 + c.1) (s.candidates cl r), asleep with
    | some c, e :: _ =>
      some (if kin.contains c.1 then (s.evict cl c.1).bindEngine cl c.1 r.who r.f else (s.evict cl c.1).wakeEngine cl e r, true)
    | some c, [] => if kin.contains c.1 then some ((s.evict cl c.1).bindEngine cl c.1 r.who r.f, true) else some (s.evict cl c.1, false)
    | none, _ => none
  if kin.all fun e => !(s.eng cl e).usable then some (s.failLease r, true)
  else
    match ready, asleep with
    | e :: _, _ => some (s.bindEngine cl e r.who r.f, true)
    | [], e :: _ =>
      if (s.clu cl).powered < 4 then some (s.wakeEngine cl e r, true)
      else
        let idle := (List.range 16).filter fun k => (s.eng cl k).pow == .on && (s.eng cl k).holder.isNone
        match listMin (fun k => (s.eng cl k).freedAt * 16 + k) idle with
        | some k => some ((s.modEng cl k fun g => g.down s.now).wakeEngine cl e r, true)
        | none => evicting
    | [], [] => evicting

/-- Order of service: priority, then cycle of request, then tile index, then slot (13 R269). -/
def State.reqKey (s : State) (r : LReq) : Nat :=
  ((3 - r.prio) * 2 ^ 64 + r.at_) * 256 + idxInCluster (s.phys r.who.tile) * 16 + r.who.slot

/-- Insertion by key. -/
def insertBy {α : Type} (key : α → Nat) (x : α) : List α → List α
  | [] => [x]
  | y :: r => if key x < key y then x :: y :: r else y :: insertBy key x r

def sortBy {α : Type} (key : α → Nat) (l : List α) : List α := l.foldl (fun a x => insertBy key x a) []

/-- MARTEN_SERVE (13 R269, R270): the requests that have arrived, each by the first possible action. -/
def execMartenServe (cl : Nat) (s : State) : Host.Outcome State Fault Refusal :=
  .next <|
    if (s.clu cl).pow ≠ .on then s
    else
      let due := sortBy s.reqKey ((s.clu cl).lreq.filter fun r => decide (r.at_ ≤ s.now))
      due.foldl (fun s r =>
        match s.serve cl r with
        | some (s', true) => s'.modClu cl fun c => { c with lreq := c.lreq.filter fun q => q != r }
        | some (s', false) => s'
        | none => s) s

/-- ENGINE_WAKE_DONE (10 R196; 13 R267; 23 R370): 4,500 cycles after the grant; an engine that fails its check leaves
service, and its request keeps its place. -/
def execEngineWakeDone (cl e : Nat) (pass : Bool) (s : State) : Host.Outcome State Fault Refusal :=
  .next <|
    match (s.slab (cl / 4)).wakes.find? fun r => r.what == WakeOf.engine cl e with
    | some ⟨_, _, at_, some t⟩ =>
      if s.now < t + 4500 then s
      else
        let h := (s.eng cl e).holder
        let s := s.modSlab (cl / 4) fun l =>
          { l with tokens := l.tokens + 1, wakes := l.wakes.filter fun r => r.what != WakeOf.engine cl e }
        match pass, h with
        | true, some (w, k) => s.bindEngine cl e w k
        | true, none => s.modEng cl e fun g => g.down s.now
        | false, h =>
          let s := s.modEng cl e fun g => { g.down s.now with inService := false }
          let s := s.record { s.mkRec 6 0 3 0 0 e 3 0 0 0 with slab := cl / 4, ptile := 0, cyc := s.now }
          (match h with
          | some (w, k) =>
            let b := (s.slot w).bind k
            (s.modBind w k fun b => { b with st := .queued, eng := 0 }).modClu cl fun c =>
              { c with lreq := ⟨w, k, b.kind, b.prio, at_⟩ :: c.lreq }
          | none => s)
    | _ => s

/-- `free` (10 R197). -/
def execFree (f : Spec) (g : Guard) (s : State) : Host.Outcome State Fault Refusal :=
  .next (s.issue (.free f g) (Meta.solo g [] [f]) fun s w => .ok (s.freeBinding w (fNum f)))

/-- `ewr` (10 R198, R201). -/
def execEwr (f a : Spec) (n : BitVec 6) (g : Guard) (s : State) : Host.Outcome State Fault Refusal :=
  .next (s.issue (.ewr f a n g) (Meta.solo g [a] [f]) fun s w =>
    let b := (s.slot w).bind (fNum f)
    match b.st with
    | .unbound => .trap cUnbound (wd (fNum f))
    | .evicted => s.withSrc w [a] fun _ s => .ok s
    | .bound =>
      let e := s.eng b.cl b.eng
      if e.frozen.isNone && !e.cmds.isEmpty then .wait s .push
      else s.withSrc w [a] fun vs s =>
        .ok (if e.frozen.isSome then s
          else s.modEng b.cl b.eng fun e => { e with shadow := vset e.shadow n.toNat (argN vs 0) })
    | _ => .wait s .lease)

/-- `erd` (10 R201): 24 cycles on a BOUND binding. -/
def execErd (d f : Spec) (n : BitVec 6) (la : BitVec 4) (p : BitVec 3) (s : State) : Host.Outcome State Fault Refusal :=
  let i := Instr.erd d f n la p
  .next (s.issue i (Meta.solo (onP p) [] [d, f]) fun s w =>
    match ((s.slot w).bind (fNum f)).st with
    | .unbound => .trap cUnbound (wd (fNum f))
    | .queued | .waking => .wait s .lease
    | _ =>
      match s.operands w [] [d] with
      | .ok _ => .ok (s.addPend w i la (.erd d (fNum f) n.toNat) (s.now + 24))
      | .wait y => .wait s y
      | .trap c e => .trap c e)

/-- ESTAT (10 Table 10.4). -/
def Engine.estat (e : Engine) (kind : Nat) : Word :=
  let gh := match e.cmds with
    | c :: _ => if c.guard.isSome then 1 else 0
    | [] => 0
  let busy := if e.opc.isSome then 1 else 0
  wd (kind * 2 ^ 17 + gh * 2 ^ 16 + busy * 2 ^ 15 + e.results.length * 2 ^ 10 + e.cmds.length)

/-- Value an engine register reads (10 R198, R201; 21 Table 21.4). -/
def State.engReg (s : State) (b : Binding) (n : Nat) : Word :=
  let e := s.eng b.cl b.eng
  if b.st ≠ .bound ∨ e.frozen.isSome then 0
  else if n < 16 then vget e.shadow n 0
  else if n = 48 then e.estat b.kind
  else if n = 49 then wd e.done
  else wd (b.cl * 16 + b.eng)

/-- `eguard` (10 R203): a command under a guard slot; on an EVICTED or frozen binding the push is discarded (R198). -/
def execEguard (f a : Spec) (sl : BitVec 3) (g : Guard) (s : State) : Host.Outcome State Fault Refusal :=
  .next (s.issue (.eguard f a sl g) (Meta.solo g [a] [f]) fun s w =>
    let k := fNum f
    let b := (s.slot w).bind k
    if b.st = .unbound then .trap cUnbound (wd k)
    else if (vget (s.slot w).guards sl.toNat none).isSome then .trap cEngState b.status
    else
      match s.dstReady w f with
      | .trap c e => .trap c e
      | .wait y => .wait s y
      | .ok _ => s.withSrc w [a] fun vs s =>
        .ok (if b.st ≠ .bound ∨ (s.eng b.cl b.eng).frozen.isSome then s
          else (s.modEng b.cl b.eng fun e => { e with cmds := e.cmds ++ [⟨argN vs 0, some sl.toNat, (s.slot w).thr, (s.slot w).iseq + 1⟩] }).modSlot w fun x =>
            { x with guards := vset x.guards sl.toNat (some k) }))

/-- `gres` (10 R204): true lets the guarded command run, false discards it; the slot becomes EMPTY. -/
def execGres (pa sl : BitVec 3) (g : Guard) (s : State) : Host.Outcome State Fault Refusal :=
  .next (s.issue (.gres pa sl g) (Meta.solo g [] []) fun s w =>
    let x := s.slot w
    match vget x.guards sl.toNat none with
    | none => .ok s
    | some k =>
      let b := x.bind k
      let hit := fun (c : Command) => c.guard == some sl.toNat
      let s := s.modSlot w fun x => { x with guards := vset x.guards sl.toNat none }
      .ok (if b.st ≠ .bound then s
        else s.modEng b.cl b.eng fun e =>
          { e with cmds := if x.pred pa then e.cmds.map fun c => if hit c then { c with guard := none } else c
                           else e.cmds.filter fun c => !hit c }))

/-- The command an engine would run now: its holder, f index, OPC and ARG (10 R199, R203). -/
structure Cmd where
  who : Who
  f : Nat
  ctx : Nat
  opc : Nat
  arg : Nat

def State.engCmd (s : State) (cl e kind : Nat) : Option Cmd :=
  let g := s.eng cl e
  match g.holder, g.cmds with
  | some (w, k), c :: _ =>
    let b := (s.slot w).bind k
    if g.pow = EngPow.on ∧ g.frozen = none ∧ b.st = .bound ∧ b.cl = cl ∧ b.eng = e ∧ e / 2 = kind ∧ g.opc = none ∧
        g.results.length < 16 ∧ c.guard = none ∧ s.owes c.thr c.seq = false then
      some ⟨w, k, (s.slot w).ctx.getD 0, bits c.word.toNat 63 56, bits c.word.toNat 55 0⟩
    else none
  | _, _ => none

/-- A command starts: it leaves the queue and the whole shadow set becomes active (10 R201). -/
def Engine.start (e : Engine) (opc : Nat) : Engine :=
  { e with cmds := e.cmds.drop 1, active := e.shadow, opc := some opc }

/-- The results of a command, to be enqueued. -/
def Engine.finish (e : Engine) (rs : List Word) : Engine := { e with outs := rs, caught := [] }

/-- A result word (10 R199). -/
def resultWord (tag data : Nat) : Word := wd (tag * 2 ^ 56 + data % 2 ^ 56)

/-- Done, RTAG 2. -/
def doneWord (data : Nat) : Word := resultWord 2 data

/-- How a command ended: with its results, in an error or in an access fault, torn down, or not yet begun, waiting for a walk or for some
places. -/
inductive EngRes where
  | done (s : State) (rs : List Word)
  | err (s : State) (rs : List Word) (code detail : Nat)
  | fault (s : State) (rs : List Word) (addr : Word)
  | torn (s : State)
  | wait (s : State) (ps : List Part)

/-- Parameter Pn of the running command. -/
def State.par (s : State) (cl e n : Nat) : Word := vget (s.eng cl e).active n 0

/-- What an engine holds: both register sets and its internal state (10 R200, R201), as a freeze copies them into the module log
(21 Table 21.4; log 35). -/
def Engine.contents (g : Engine) : List Word :=
  g.active.toList ++ g.shadow.toList ++ (g.keys.flatMap fun k => [wd k.1, wd k.2]) ++ [wd g.mstate, wd g.moved, wd g.done]

/-- The cause of a freeze for want of a reply from another module, whose record is LINK 0x0004 (23 R376). -/
abbrev linkCause : Nat := 0x104

/-- An engine frozen by an access fault or an error in its state, with the code of its token and the cause of its record
(21 Table 21.4; 23 R369, Table 23.1): results enqueued stay before the token. -/
def State.freezeEngine (s : State) (cl e opc : Nat) (q : EngStop) : State :=
  let g := s.eng cl e
  match g.holder with
  | none => s
  | some (w, k) =>
    let ctx := (s.slot w).ctx.getD 0
    let s := s.modBind w k fun b => { b with left := b.left ++ g.results, token := some (errToken q.code opc q.addr.toNat) }
    let s := (s.downEngine cl e).modEng cl e fun d => { d with frozen := some ctx, holder := g.holder }
    s.record { s.mkRec (if q.cause = linkCause then 9 else 6) 2 3 ctx w.tile e (q.cause % 256) q.addr (wd g.mstate) 0 with
      slab := cl / 4, dump := g.contents }

/-- A result of the command being executed enters the queue once every write the command made is performed; after the last the
command is complete, or the engine freezes (10 R199, R202, R406; 23 R369). -/
def State.engResult (s : State) (cl e : Nat) : State :=
  let g := s.eng cl e
  match g.opc with
  | none => s
  | some o =>
    if s.stores.any fun q => q.party.tile.isNone && q.party.thr == g.thr then s
    else
      match g.outs, g.stop with
      | [], some q => s.freezeEngine cl e o q
      | [], none => s.modEng cl e fun g => { g with opc := none, done := g.done + 1 }
      | r :: rs, q =>
        if 16 ≤ g.results.length then s
        else
          let last := rs.isEmpty && q.isNone
          s.modEng cl e fun g => { g with
            results := g.results ++ [r], outs := rs, opc := if last then none else g.opc, done := if last then g.done + 1 else g.done }

/-- ERD_COMPLETE (10 R201): the register's value; an uncorrectable error in the engine's state freezes the engine
(23 R363, Table 23.2). -/
def execErdComplete (w : Who) (seq : Nat) (poisoned : Bool) (s : State) : Host.Outcome State Fault Refusal :=
  .next <|
    match (s.slot w).ripe s.now seq with
    | some p =>
      match p.job with
      | .erd d f n =>
        let b := (s.slot w).bind f
        let g := s.eng b.cl b.eng
        if poisoned && b.st == .bound && g.frozen.isNone then
          let opc := g.opc.getD ((g.cmds.head?.map fun c => bits c.word.toNat 63 56).getD 0)
          s.freezeEngine b.cl b.eng opc ⟨6, 2, 0⟩
        else
          let v := s.engReg ((s.slot w).bind f) n
          (if s.landReady w seq [d] then s.logArrival w.tile 3 w.slot 0 v else s).land w p [(d, v)] id
      | _ => s
    | none => s

/-- An error in an engine's state that its running command meets: no result of it enters the queue any more, and the engine freezes with code 6
(23 R363, Table 23.2, R369). -/
def State.engineError (s : State) (cl e : Nat) : State :=
  if (s.eng cl e).opc.isSome && (s.eng cl e).stop.isNone then s.modEng cl e fun g => { g with outs := [], stop := some ⟨6, 2, 0⟩ } else s

/-- The party of an engine's events (12 R238): it reads and writes through its cluster. -/
def State.engParty (s : State) (cl e : Nat) : Party := ⟨(s.eng cl e).thr, none, physOfBank cl 0⟩

/-- Requests of an engine to other modules for parts it reads, unless they are out or answered (15 R304). -/
def State.engAsk (s : State) (cl e ctx : Nat) (ps : List Part) : State :=
  s.addPodBy (.eng cl e) 0 0 ctx 0 1 0 0 (ps.filter fun p => !((s.eng cl e).caught.any fun q => q.1 == p) &&
    !(s.pods.any fun f => f.by_ == Master.eng cl e && p.loc == Loc.pod f.module f.pa))

/-- Running the command at the head of an engine of a kind; `takes` names the OPCs the event serves. -/
def State.runCmd (s : State) (cl e kind : Nat) (takes : Nat → Bool) (body : State → Cmd → EngRes) :
    Host.Outcome State Fault Refusal :=
  .next <|
    match s.engCmd cl e kind with
    | none => s
    | some c =>
      if takes c.opc = false ∨ s.tileHeld c.who.tile then s
      else
        match body (s.modEng cl e fun g => g.start c.opc) c with
        | .done s rs => s.modEng cl e fun g => g.finish rs
        | .err s rs code d => s.modEng cl e fun g => g.finish (rs ++ [errToken code c.opc d])
        | .fault s rs a => s.modEng cl e fun g => { g.finish rs with stop := some ⟨3, 1, a⟩ }
        | .torn s => s
        | .wait s' ps => ((({ s with slabs := s'.slabs } : State).farHeld c.who.tile ps).2).engAsk cl e c.ctx ps

/-- The address of the first piece of an engine's range that faults. -/
def State.engBad (s : State) (c : Cmd) (v : Word) (n : Nat) (need : Need) : Word :=
  (((pieces n (addrOf v) n).find? fun p =>
    match (s.unitAcc c.who.tile c.ctx (s.slot c.who).red (evalAddr (modeOf v) p.1) p.2 need).1 with
    | .bad _ => true
    | _ => false).map fun p => evalAddr (modeOf v) p.1).getD v

/-- A range an engine reads or writes in its holder's context: its parts, or how the command ends (11 R233; 21 R347). -/
def State.engReach (s : State) (c : Cmd) (v : Word) (n : Nat) (need : Need) : Except EngRes (List Part) × State :=
  match s.unitAcc c.who.tile c.ctx (s.slot c.who).red v n need with
  | (.at_ a _, s') => (.ok a.parts, s')
  | (.bad _, s') => (.error (.fault s' [] (s.engBad c v n need)), s')
  | (.wait, s') => (.error (.wait s' []), s')

/-- A part as an engine reads it: read ahead, or now with its own writes not yet performed over the bytes of the memory (12 R237,
R240). -/
def State.engPart (s : State) (cl e : Nat) (p : Part) : List Byte :=
  (((s.eng cl e).caught.find? fun q => q.1 == p).map fun q => q.2).getD (s.readOwn (s.eng cl e).thr s.nextStore p)

/-- Whether an engine cannot read a part yet (12 R244; 13 R276; 14 R286; 15 R304). -/
def State.engHeld (s : State) (cl e tile : Nat) (p : Part) : Bool :=
  !((s.eng cl e).caught.any fun q => q.1 == p) &&
    ((s.unitHeld tile (s.tile tile).stamp s.now [p]).1 || s.hidden (s.engParty cl e) [p] || hasPod [p])

/-- The bytes an engine reads at some places, with what that does to the slices. -/
def engTake (s : State) (cl e : Nat) (c : Cmd) (ps : List Part) (k : List Byte → State → EngRes) : EngRes :=
  if ps.any (s.engHeld cl e c.who.tile) then .wait s ps
  else if s.poisoned ps then .torn (s.poisonHit ps)
  else k (ps.flatMap (s.engPart cl e)) (s.touchLoads c.who.tile ps 0)

/-- Bytes an engine reads. -/
def engRead (s : State) (cl e : Nat) (c : Cmd) (v : Word) (n : Nat) (k : List Byte → State → EngRes) : EngRes :=
  match s.engReach c v n .read with
  | (.error r, _) => r
  | (.ok ps, s) => engTake s cl e c ps k

/-- A part of a source read ahead of the command at the head of an engine's queue: an event of its own (12 R237); of another module, the
reply to the engine's request (15 R304). -/
def State.engCatch (s : State) (cl e : Nat) (p : Part) : State :=
  match s.engCmd cl e (e / 2) with
  | none => s
  | some c =>
    let out := s.pods.any fun f => f.by_ == Master.eng cl e && p.loc == Loc.pod f.module f.pa
    if ((s.eng cl e).caught.any fun q => q.1 == p) || (hasPod [p] && !out) || s.hidden (s.engParty cl e) [p] || s.poisoned [p] then s
    else
      match s.unitHeld c.who.tile (s.tile c.who.tile).stamp s.now [p] with
      | (true, s) => s
      | (false, s) =>
        (s.modEng cl e fun g => { g with caught := g.caught ++ [(p, s.engPart cl e p)] }).dropPodBy (.eng cl e) 0 p.loc

/-- Bytes an engine writes, each part performed for itself half the latency of its path later (10 R198, R202; 11 R405); to another module
it is a request (15 R304). -/
def State.engStore (s : State) (cl e : Nat) (c : Cmd) (ps : List Part) (bs : List Byte) : State :=
  let me := s.engParty cl e
  (cutData ps bs).foldl (fun (s : State) q =>
    let n := s.nextStore
    let due := s.now + s.latencyFrom (physOfBank cl 0) none true q.1 / 2
    let s := s.addPodBy (.eng cl e) me.thr n c.ctx 0 2 0 0 [q.1]
    { s with
      nextStore := n + 1
      stores := s.stores ++ [{ id := n, party := me, seq := n, stamp := 0, part := q.1, data := q.2, rd := 0
                               ctx := c.ctx, task := (s.slot c.who).task, after := [], due := due }] }) (s.openShadow ps)

/-- The same with its translation. -/
def engWrite (s : State) (cl e : Nat) (c : Cmd) (v : Word) (bs : List Byte) (k : State → EngRes) : EngRes :=
  match s.engReach c v bs.length .write with
  | (.error r, _) => r
  | (.ok ps, s) => if s.poisoned ps then .torn (s.poisonHit ps) else k (s.engStore cl e c ps bs)

/-- An address with bytes added. -/
def addAddr (v : Word) (n : Nat) : Word := v + wd n

/-- An OPC the kind does not define (10 R199). -/
def badOpc (s : State) : EngRes := .err s [] 1 0

/-- A parameter outside Table 10.3. -/
def badPar (s : State) : EngRes := .err s [] 2 0

/-- Rank of a key: none for a NaN, which ranks worst; -0 with +0 (10 Table 10.3). -/
def keyRank (ty key : Nat) : Option Int :=
  match ty with
  | 0 => some key
  | 1 => some (sval key 32)
  | _ =>
    let m : Nat := key % 2 ^ 31
    if 0x7F800000 < m then none else some (if bitOf key 31 then -(m : Int) else m)

/-- Whether a kept key comes before another: better rank, ties by smaller index (10 Table 10.3). -/
def keyBefore (ty order : Nat) (a b : Nat × Nat) : Bool :=
  match keyRank ty a.1, keyRank ty b.1 with
  | some x, some y => if x = y then decide (a.2 ≤ b.2) else if order = 0 then decide (y < x) else decide (x < y)
  | some _, none => true
  | none, some _ => false
  | none, none => decide (a.2 ≤ b.2)

def keyInsert (ty order : Nat) (x : Nat × Nat) : List (Nat × Nat) → List (Nat × Nat)
  | [] => [x]
  | y :: r => if keyBefore ty order x y then x :: y :: r else y :: keyInsert ty order x r

/-- The keys kept, best first under the parameters of the command that takes them (10 R200, R201). -/
def keySort (ty order : Nat) (ks : List (Nat × Nat)) : List (Nat × Nat) := ks.foldr (keyInsert ty order) []

/-- Limits of SORT. -/
def State.sortOk (s : State) (cl e : Nat) : Bool :=
  let k := (s.par cl e 0).toNat
  decide (1 ≤ k ∧ k ≤ 4096) && decide ((s.par cl e 1).toNat ≤ 2) && decide ((s.par cl e 2).toNat ≤ 1)

/-- SORT_INSERT (10 R200 OPC 1). An OPC that SORT does not define ends here with an error token. -/
def execSortInsert (cl e : Nat) (s : State) : Host.Outcome State Fault Refusal :=
  s.runCmd cl e 0 (fun o => o != 2 && o != 3) fun s c =>
    if c.opc ≠ 1 then badOpc s
    else if s.sortOk cl e = false then badPar s
    else
      let x := (bits c.arg 31 0, bits c.arg 55 32)
      let k := (s.par cl e 0).toNat
      .done (s.modEng cl e fun g =>
        { g with keys := (keySort (s.par cl e 1).toNat (s.par cl e 2).toNat (x :: g.keys)).take k }) []

/-- SORT_EMIT (10 R200 OPC 2): one word per kept key, best first under its own parameters, then done. -/
def execSortEmit (cl e : Nat) (s : State) : Host.Outcome State Fault Refusal :=
  s.runCmd cl e 0 (fun o => o == 2) fun s _ =>
    if s.sortOk cl e = false then badPar s
    else
      let ks := keySort (s.par cl e 1).toNat (s.par cl e 2).toNat (s.eng cl e).keys
      .done s ((ks.map fun k => resultWord 1 (k.2 * 2 ^ 32 + k.1)) ++ [doneWord ks.length])

/-- SORT_CLEAR (10 R200 OPC 3). -/
def execSortClear (cl e : Nat) (s : State) : Host.Outcome State Fault Refusal :=
  s.runCmd cl e 0 (fun o => o == 3) fun s _ =>
    if s.sortOk cl e = false then badPar s else .done (s.modEng cl e fun g => { g with keys := [] }) []

/-- The automaton over the source bytes: results in reverse, then how it stopped. -/
def matchLoop (cl e : Nat) (c : Cmd) (p0 : Word) (p1 : Nat) : List Byte → Nat → List Word → State → EngRes
  | [], _, rs, s => .done s (rs.reverse ++ [doneWord (s.eng cl e).mstate])
  | b :: bs, off, rs, s =>
    let st := (s.eng cl e).mstate
    if p1 ≤ st then .err s rs.reverse 4 off
    else
      let keep : EngRes → EngRes
        | .fault s _ a => .fault s rs.reverse a
        | r => r
      match s.engReach c (addAddr p0 (1024 * st + 4 * b.toNat)) 4 .read with
      | (.error r, _) => keep r
      | (.ok ps, s) =>
        if ps.any (s.engHeld cl e c.who.tile) then .wait s ps
        else if s.poisoned ps then .torn (s.poisonHit ps)
        else
          let w := leNat (ps.flatMap (s.engPart cl e))
          let s := (s.touchLoads c.who.tile ps 0).modEng cl e fun g => { g with mstate := bits w 23 0 }
          let rs := if bitOf w 31 then resultWord 1 (bits w 30 24 * 2 ^ 32 + off % 2 ^ 32) :: rs else rs
          matchLoop cl e c p0 p1 bs (off + 1) rs s

/-- MATCH_SCAN (10 R200 OPC 1). -/
def execMatchScan (cl e : Nat) (s : State) : Host.Outcome State Fault Refusal :=
  s.runCmd cl e 1 (fun o => o != 2) fun s c =>
    if c.opc ≠ 1 then badOpc s
    else if 2 ^ 24 < (s.par cl e 1).toNat then badPar s
    else engRead s cl e c (s.par cl e 2) (bits c.arg 31 0) fun bs s =>
      matchLoop cl e c (s.par cl e 0) (s.par cl e 1).toNat bs 0 [] s

/-- MATCH_RESET (10 R200 OPC 2). -/
def execMatchReset (cl e : Nat) (s : State) : Host.Outcome State Fault Refusal :=
  s.runCmd cl e 1 (fun o => o == 2) fun s _ =>
    if 2 ^ 24 < (s.par cl e 1).toNat then badPar s else .done (s.modEng cl e fun g => { g with mstate := 0 }) []

/-- INFL_DECODE (10 R200; log 80): which byte of the source counts as the offset of a fault is free (log 5). A stream longer than the capacity is written up
to it. -/
def execInflDecode (cl e : Nat) (s : State) : Host.Outcome State Fault Refusal :=
  s.runCmd cl e 2 (fun _ => true) fun s c =>
    if c.opc ≠ 1 then badOpc s
    else if 1 < (s.par cl e 3).toNat then badPar s
    else engRead s cl e c (s.par cl e 0) (bits c.arg 31 0) fun bs s =>
      match inflate (s.par cl e 3).toNat bs with
      | none =>
        let v := s.freeVal
        .err v.2 [] 4 (v.1.toNat % max 1 bs.length)
      | some out =>
        let cap := (s.par cl e 2).toNat
        engWrite s cl e c (s.par cl e 1) (out.take cap) fun s =>
          if cap < out.length then .err s [] 5 0 else .done s [doneWord out.length]

/-- A complex F32 value. -/
abbrev Cplx := Num × Num

def cAdd (a b : Cplx) : Cplx := (rndF32 (numAdd 0 a.1 b.1).1, rndF32 (numAdd 0 a.2 b.2).1)
where rndF32 (x : Num) : Num := tyDecode 0 (tyEncode 0 0 x).1

def cSub (a b : Cplx) : Cplx := cAdd a (numNeg b.1, numNeg b.2)

/-- Product by a twiddle factor, each step rounded (10 R200). -/
def cMul (a w : Cplx) : Cplx :=
  let r := fun (x : Num) => tyDecode 0 (tyEncode 0 0 x).1
  let p := fun (x y : Num) => r (numMul x y).1
  (r (numAdd 0 (p a.1 w.1) (numNeg (p a.2 w.2))).1, r (numAdd 0 (p a.1 w.2) (p a.2 w.1)).1)

def evens {α : Type} : List α → List α
  | [] => []
  | [a] => [a]
  | a :: _ :: r => a :: evens r

def odds {α : Type} : List α → List α
  | [] => []
  | [_] => []
  | _ :: b :: r => b :: odds r

/-- Radix-2 decimation in time of 2^m points (10 R200). -/
def fft (inv : Bool) : Nat → List Cplx → List Cplx
  | 0, xs => xs
  | m + 1, xs =>
    let a := fft inv m (evens xs)
    let b := fft inv m (odds xs)
    let ks := List.range (2 ^ m)
    let t := ks.map fun k =>
      let w := Config.twiddle (m + 1) k inv
      cMul (b.getD k (.nan, .nan)) (tyDecode 0 w.1.toNat, tyDecode 0 w.2.toNat)
    (ks.map fun k => cAdd (a.getD k (.nan, .nan)) (t.getD k (.nan, .nan))) ++
      ks.map fun k => cSub (a.getD k (.nan, .nan)) (t.getD k (.nan, .nan))

/-- Pairs of F32 patterns of a byte string. -/
def pairsOf (n : Nat) (bs : List Byte) : List Cplx :=
  (chunks 8 n bs).map fun p => (tyDecode 0 (leNat (p.take 4)), tyDecode 0 (leNat (p.drop 4)))

def pairBytes (x : Cplx) : List Byte := leBytes 4 (tyEncode 0 0 x.1).1 ++ leBytes 4 (tyEncode 0 0 x.2).1

/-- One batch transformed: forward, inverse scaled by 1/N, or real forward, whose layout is free (log 5). -/
def xfrmBatch (m dir : Nat) (bs : List Byte) : List Byte :=
  let n := 2 ^ m
  match dir with
  | 0 => (fft false m (pairsOf n bs)).flatMap pairBytes
  | 1 => ((fft true m (pairsOf n bs)).map fun x =>
      ((numMul x.1 (.fin false 1 (-(m : Int)))).1, (numMul x.2 (.fin false 1 (-(m : Int)))).1)).flatMap pairBytes
  | _ => (List.range n).flatMap fun k => leBytes 8 (Config.realForward m bs k).toNat

def xfrmLoop (cl e : Nat) (c : Cmd) (m dir : Nat) (src dst : Word) : Nat → Nat → State → EngRes
  | 0, _, s => .done s [doneWord 0]
  | n + 1, off, s =>
    engRead s cl e c (addAddr src off) (8 * 2 ^ m) fun bs s =>
      engWrite s cl e c (addAddr dst off) (xfrmBatch m dir bs) fun s => xfrmLoop cl e c m dir src dst n (off + 8 * 2 ^ m) s

/-- XFRM_TRANSFORM (10 R200). -/
def execXfrmTransform (cl e : Nat) (s : State) : Host.Outcome State Fault Refusal :=
  s.runCmd cl e 3 (fun _ => true) fun s c =>
    let m := (s.par cl e 2).toNat
    if c.opc ≠ 1 then badOpc s
    else if m < 4 ∨ 14 < m ∨ 2 < (s.par cl e 3).toNat then badPar s
    else xfrmLoop cl e c m (s.par cl e 3).toNat (s.par cl e 0) (s.par cl e 1) c.arg 0 s

/-- Limits of GATH. -/
def gathOk (rb : Nat) : Bool := decide (8 ≤ rb ∧ rb ≤ 4096) && rb % 8 == 0

/-- GATH_TO_SLOT (10 R200 OPC 1): a table row to slot n; n counts copies since the last OPC 3. -/
def execGathToSlot (cl e : Nat) (s : State) : Host.Outcome State Fault Refusal :=
  s.runCmd cl e 4 (fun o => o != 2 && o != 3) fun s c =>
    let rb := (s.par cl e 1).toNat
    if c.opc ≠ 1 then badOpc s
    else if gathOk rb = false then badPar s
    else engRead s cl e c (addAddr (s.par cl e 0) (bits c.arg 47 0 * rb)) rb fun bs s =>
      engWrite s cl e c (addAddr (s.par cl e 2) ((s.eng cl e).moved * rb)) bs fun s =>
        .done (s.modEng cl e fun g => { g with moved := g.moved + 1 }) []

/-- GATH_FROM_SLOT (10 R200 OPC 2). -/
def execGathFromSlot (cl e : Nat) (s : State) : Host.Outcome State Fault Refusal :=
  s.runCmd cl e 4 (fun o => o == 2) fun s c =>
    let rb := (s.par cl e 1).toNat
    if gathOk rb = false then badPar s
    else engRead s cl e c (addAddr (s.par cl e 2) ((s.eng cl e).moved * rb)) rb fun bs s =>
      engWrite s cl e c (addAddr (s.par cl e 0) (bits c.arg 47 0 * rb)) bs fun s =>
        .done (s.modEng cl e fun g => { g with moved := g.moved + 1 }) []

/-- GATH_FINISH (10 R200 OPC 3). -/
def execGathFinish (cl e : Nat) (s : State) : Host.Outcome State Fault Refusal :=
  s.runCmd cl e 4 (fun o => o == 3) fun s _ =>
    let n := (s.eng cl e).moved
    if gathOk (s.par cl e 1).toNat = false then badPar s
    else .done (s.modEng cl e fun g => { g with moved := 0 }) [doneWord n]

/-- Inclusive segmented prefix sums, ascending (10 R200). -/
def scanList (ty : Nat) : List Nat → List Bool → Nat → Bool → List Nat
  | [], _, _, _ => []
  | x :: xs, starts, acc, first =>
    let v := if first || starts.headD false then x
      else if ty = 0 then (acc + x) % 2 ^ 32
      else (tyEncode 0 0 (numAdd 0 (tyDecode 0 acc) (tyDecode 0 x)).1).1
    v :: scanList ty xs (starts.drop 1) v false

/-- SCAN_PREFIX (10 R200). -/
def execScanPrefix (cl e : Nat) (s : State) : Host.Outcome State Fault Refusal :=
  s.runCmd cl e 5 (fun _ => true) fun s c =>
    let n := (s.par cl e 2).toNat
    if c.opc ≠ 1 then badOpc s
    else if 1 < (s.par cl e 3).toNat then badPar s
    else engRead s cl e c (s.par cl e 4) ((n + 7) / 8) fun bm s =>
      engRead s cl e c (s.par cl e 0) (4 * n) fun bs s =>
        let xs := (chunks 4 n bs).map leNat
        let st := bm.flatMap fun b => (List.range 8).map fun i => bitOf b.toNat i
        let ys := scanList (s.par cl e 3).toNat xs st 0 true
        engWrite s cl e c (s.par cl e 1) (ys.flatMap fun y => leBytes 4 y) fun s => .done s [doneWord 0]

/-- One softmax row: the maximum subtracted, e^x as `vexp`, summed ascending in F32, divided (10 R200). -/
def softRow (ty : Nat) (xs : List Nat) : List Nat :=
  let vs := xs.map (tyDecode ty)
  let top := vs.tail.foldl (numPick true) (vs.headD .nan)
  let es := vs.map fun v => tyDecode 0 (approx 2 0 (tyDecode 0 (tyEncode 0 0 (numAdd 0 v (numNeg top)).1).1)).1
  let sum := es.tail.foldl (fun a x => tyDecode 0 (tyEncode 0 0 (numAdd 0 a x).1).1) (es.headD .nan)
  match fmtOf ty with
  | some f => es.map fun x => (numDiv ty f 0 x sum).1
  | none => xs

def softLoop (cl e : Nat) (c : Cmd) (ty len : Nat) (row : List Nat → List Nat) (src dst : Word) : Nat → Nat → State → EngRes
  | 0, _, s => .done s [doneWord 0]
  | n + 1, off, s =>
    let z := tyBytes ty 1
    engRead s cl e c (addAddr src off) (len * z) fun bs s =>
      let out := (row ((chunks z len bs).map leNat)).flatMap fun y => leBytes z y
      engWrite s cl e c (addAddr dst off) out fun s => softLoop cl e c ty len row src dst n (off + len * z) s

/-- A command of SOFT (10 R200). -/
def State.softCmd (s : State) (cl e : Nat) (c : Cmd) (row : Nat → List Nat → List Nat) : EngRes :=
  let len := (s.par cl e 2).toNat
  let ty := (s.par cl e 3).toNat
  if len = 0 ∨ 4096 < len ∨ 1 < ty then badPar s
  else softLoop cl e c ty len (row ty) (s.par cl e 0) (s.par cl e 1) c.arg 0 s

/-- SOFT_SOFTMAX (10 R200 OPC 1). -/
def execSoftSoftmax (cl e : Nat) (s : State) : Host.Outcome State Fault Refusal :=
  s.runCmd cl e 6 (fun o => o != 2) fun s c => if c.opc ≠ 1 then badOpc s else s.softCmd cl e c softRow

/-- SOFT_EXPONENT (10 R200 OPC 2). -/
def execSoftExponent (cl e : Nat) (s : State) : Host.Outcome State Fault Refusal :=
  s.runCmd cl e 6 (fun o => o == 2) fun s c =>
    s.softCmd cl e c fun ty xs => xs.map fun x => (approx 2 ty (tyDecode ty x)).1

/-- What a member of a collective brings: the bytes of its source, its group record read first; or how that fails. -/
def collSource (s : State) (m : Nat × Nat) (c : Cmd) : Except EngRes (List Byte) × State :=
  match s.engReach c (s.par m.1 m.2 3) 8 .read with
  | (.error r, s) => (.error r, s)
  | (.ok g, s) =>
    match s.engReach c (s.par m.1 m.2 0) (s.par m.1 m.2 2).toNat .read with
    | (.error r, s) => (.error r, s)
    | (.ok ps, s) =>
      if (g ++ ps).any (s.engHeld m.1 m.2 c.who.tile) then (.error (.wait s (g ++ ps)), s)
      else if s.poisoned (g ++ ps) then (.error (.torn (s.poisonHit (g ++ ps))), s)
      else (.ok (ps.flatMap (s.engPart m.1 m.2)), s.touchLoads c.who.tile (g ++ ps) 0)

/-- A member of a collective with its command. -/
abbrev Member := (Nat × Nat) × Cmd

/-- How far a collective has come: what its members brought, whether one has failed, and what one waits for. -/
structure Gathered where
  srcs : List (List Byte)
  broken : Bool
  waits : Option (State × Who × List Part)
  s : State

/-- A member's part that does not succeed: an access fault stops its engine (23 R369). -/
def Gathered.fails (a : Gathered) (q : Member) : EngRes → Gathered
  | .fault s _ v => { a with broken := true, s := s.modEng q.1.1 q.1.2 fun g => { g with stop := some ⟨3, 1, v⟩ } }
  | .wait s ps => { a with waits := some (s, q.2.who, ps) }
  | .torn s => { a with broken := true, s := s }
  | .done s _ => { a with s := s }
  | .err s _ _ _ => { a with s := s }

/-- A collective that ends with a code on every member that no fault has stopped (23 R369, Table 23.3). -/
def State.collFail (s : State) (cs : List Member) (code : Nat) : State :=
  cs.foldl (fun s q =>
    if (s.eng q.1.1 q.1.2).stop.isSome then s
    else s.modEng q.1.1 q.1.2 fun g => g.finish [errToken code q.2.opc 0]) s

/-- W96 sum of F32 elements over the members, back in F32 (10 R200; 05 R83, Table 5.6). -/
def collSum (n : Nat) (srcs : List (List Byte)) : List Byte :=
  (List.range (n / 4)).flatMap fun i =>
    let v := srcs.foldl (fun a bs => a + (w96Encode (tyDecode 0 (leNat ((bs.drop (4 * i)).take 4)))).1) (0 : Int)
    leBytes 4 (tyEncode 0 0 (numOfInt (sval (wrapN v 96) 96) (-48))).1

/-- COLL_COLLECTIVE (10 R200; 23 R369): the members of a group whose commands stand at the head. Each reads its group record; the
record's layout is not given, so the members come with the event (log 15). A broadcast takes the first member's source. An access fault
freezes its engine and ends the collective with code 7 on the others, and so does a member whose context is being torn down (21 Table 21.5
step 4); a command whose OPC is not 1 ends alone. DESIGN CHOICE: members whose P2 or P4 differ, or a sum over bytes that are no whole F32
elements, end with code 2 on every member, since the manual does not say what such an operation does (log 15). -/
def execCollCollective (members : List (Nat × Nat)) (s : State) : Host.Outcome State Fault Refusal :=
  match members with
  | [] => .next s
  | m :: _ => .next <|
    let cs := members.map fun m => (m, s.engCmd m.1 m.2 7)
    let lone := members.length = 1 ∧ ((s.engCmd m.1 m.2 7).map fun c => c.opc != 1) = some true
    if (cs.any fun q => (q.2.map fun c => !s.tileHeld c.who.tile) != some true) ||
        (cs.any fun q => !decide lone && (q.2.map fun c => c.opc) != some 1) || !members.Nodup then s
    else
      let cs := cs.filterMap fun q => q.2.map fun c => (q.1, c)
      let s0 := s
      let s := cs.foldl (fun s q => s.modEng q.1.1 q.1.2 fun g => g.start q.2.opc) s
      let par := fun (s : State) (q : (Nat × Nat) × Cmd) (n : Nat) => s.par q.1.1 q.1.2 n
      let op := ((cs.head?).map fun q => (par s q 4).toNat).getD 0
      let n := ((cs.head?).map fun q => (par s q 2).toNat).getD 0
      if lone then s.collFail cs 1
      else if cs.any fun q => (s.ctxOf q.2.ctx).dying then s.collFail cs 7
      else if (cs.any fun q => (par s q 4).toNat != op || (par s q 2).toNat != n) || decide (1 < op) ||
          (op == 0 && n % 4 != 0) then s.collFail cs 2
      else
        let got := cs.foldl (fun (a : Gathered) q =>
          match collSource a.s q.1 q.2 with
          | (.ok bs, s) => { a with srcs := a.srcs ++ [bs], s := s }
          | (.error r, _) => a.fails q r) ⟨[], false, none, s⟩
        let out := if op = 0 then collSum n got.srcs else got.srcs.headD []
        let end_ := if got.broken then got else cs.foldl (fun (a : Gathered) q =>
          match engWrite a.s q.1.1 q.1.2 q.2 (par a.s q 1) out fun s => .done s [] with
          | .done s _ => { a with s := s }
          | r => a.fails q r) got
        match end_.waits with
        | some (s', u, ps) => (({ s0 with slabs := s'.slabs } : State).farHeld u.tile ps).2
        | none =>
          if end_.broken then end_.s.collFail cs 7
          else cs.foldl (fun s q => s.modEng q.1.1 q.1.2 fun g => g.finish [doneWord 0]) end_.s

end Sys2Proof.Machine
end

