-- ==== Sys2Proof/Machine/Owl.lean ====
section
/-! DEFINITION. The Owl, the cluster's scale server (09 R180). -/

namespace Sys2Proof.Machine

/-- `owlq` as it reads (09 Table 9.4). -/
def Cluster.owlWord (c : Cluster) : Word := wd (min c.owlSkip 0xFFFFFFFF * 2 ^ 32 + c.owl.length)

/-- OWLQ_SUBMIT (09 R180): a job written to `owlq` is accepted, a release of scope `mod`, once every earlier event of its thread is
performed. -/
def execOwlqSubmit (cl : Nat) (s : State) : Host.Outcome State Fault Refusal :=
  .next <|
    match (s.clu cl).owl.findIdx? fun j => !j.accepted && !s.owes j.thr j.seq with
    | none => s
    | some k => s.modClu cl fun c => { c with owl := c.owl.modify k fun j => { j with accepted := true } }

/-- The head job leaves, counted as skipped or not. -/
def State.owlPop (s : State) (cl : Nat) (skip : Bool) : State :=
  s.modClu cl fun c => { c with owl := c.owl.drop 1, owlSkip := if skip then c.owlSkip + 1 else c.owlSkip }

/-- The job in service, changed. -/
def State.modOwl (s : State) (cl : Nat) (f : OwlJob → OwlJob) : State :=
  s.modClu cl fun c => { c with owl := match c.owl with
    | h :: r => f h :: r
    | [] => [] }

/-- A range the Owl reads, from the router of the cluster's tile of index 0, with the cycles it takes (09 R180; 11 R217). -/
def State.owlRead (s : State) (cl : Nat) (j : OwlJob) (v : Word) (n : Nat) : Reached × State :=
  match s.unitAcc j.who.tile j.ctx none v n .read with
  | (.at_ a d, s) => (.at_ a (d + s.latenciesFrom (physOfBank cl 0) none a.parts false), s)
  | r => r

/-- Whether a read of the Owl must wait: for a tile it reaches, or for what it must see (12 R238, R249; 13 R276; 14 R286). -/
def State.owlHeld (s : State) (cl due : Nat) (ps : List Part) : Bool × State :=
  match s.unitHeld 65536 0 due ps with
  | (true, s) => (true, s)
  | (false, s) => (s.hidden ⟨0, none, physOfBank cl 0⟩ ps, s)

/-- OWL_JOB_SERVE (09 R180, Table 9.3): the record is read; a bad one is skipped whole. -/
def execOwlJobServe (cl : Nat) (s : State) : Host.Outcome State Fault Refusal :=
  .next <|
    match (s.clu cl).owl with
    | [] => s
    | j :: _ =>
      if j.accepted = false ∨ j.cur.isSome ∨ (s.clu cl).pow ≠ .on then s
      else
        match s.owlRead cl j j.addr 32 with
        | (.bad _, s) => s.owlPop cl true
        | (.wait, s) => s
        | (.at_ a l, s) =>
          match j.due with
          | none => s.modOwl cl fun j => { j with due := some (s.now + l) }
          | some t =>
            match if s.now < t then (true, s) else s.owlHeld cl t a.parts with
            | (true, s) => s
            | (false, s) =>
            if s.poisoned a.parts then s.poisonHit a.parts
            else
              let ws := leWords (s.getParts a.parts)
              let src := ws.getD 0 0
              let route := ws.getD 1 0
              let n := bits (ws.getD 2 0).toNat 31 0
              if bits (ws.getD 2 0).toNat 63 32 ≠ 0 ∨ n = 0 ∨ (routeOf route).kind < 2 ∨ badRoute s.caps.height route ∨
                  modeOf src = 3 ∨ addrOf src % 8 ≠ 0 then s.owlPop cl true
              else
                match s.owlRead cl j src 8 with
                | (.bad _, s) => s.owlPop cl true
                | (.wait, s) => s
                | (.at_ _ l, s) => s.modOwl cl fun j => { j with cur := some (src, route, n), due := some (s.now + l), started := s.now }

/-- OWL_ENTRY_SEND (09 R180): one entry a cycle leaves from the router of the cluster's tile of index 0, the reads
one behind the other; a read fault ends the job. -/
def execOwlEntrySend (cl : Nat) (s : State) : Host.Outcome State Fault Refusal :=
  .next <|
    match (s.clu cl).owl with
    | [] => s
    | j :: _ =>
      match j.cur with
      | none => s
      | some (src, route, n) =>
        if (s.clu cl).owlAt = s.now + 1 ∨ (s.clu cl).pow ≠ .on ∨ s.now < j.due.getD 0 then s
        else
          match s.unitAcc j.who.tile j.ctx none src 8 .read with
          | (.bad _, s) => s.owlPop cl true
          | (.wait, s) => s
          | (.at_ a _, s) =>
            match s.owlHeld cl s.now a.parts with
            | (true, s) => s
            | (false, s) =>
            if s.poisoned a.parts then s.poisonHit a.parts
            else
              let v := wd (leNat (s.getParts a.parts))
              let s := (s.emit none 0 0 j.ctx route v (physOfBank cl 0)).modClu cl fun c => { c with owlAt := s.now + 1 }
              if n ≤ 1 then s.owlPop cl false
              else
                let l := match (s.owlRead cl j (src + 8) 8).1 with
                  | .at_ _ l => l
                  | _ => 0
                s.modOwl cl fun j =>
                  { j with cur := some (src + 8, route, n - 1), started := j.started + 1, due := some (max (s.now + 1) (j.started + 1 + l)) }

end Sys2Proof.Machine
end

