-- ==== Sys2Proof/Machine/System.lean ====
section
/-! DEFINITION. System and thread instructions (10 R205 to R215), trap entry and the timer trap (10 R210, R212; 22 R355 to
R357), and the rotation table (02 R22 to R29). -/

namespace Sys2Proof.Machine

/-- `trap n`: the software trap (10 R210). -/
def execTrap (n : BitVec 12) (g : Guard) (s : State) : Host.Outcome State Fault Refusal :=
  .next (s.issue (.trap n g) (Meta.solo g [] []) fun _ _ => .trap cSoftware (n.setWidth 64))

/-- `eret` (10 R211). -/
def execEret (g : Guard) (s : State) : Host.Outcome State Fault Refusal :=
  .next (s.issue (.eret g) (Meta.solo g [] []) fun s w =>
    if (s.slot w).tm then .stop (s.returnTrap w) else .trap cIllegal (wordOf (.eret g)))

/-- A neighbour pointer (03 Table 3.10; 14 R283; 24 R392). -/
def State.pointer (s : State) (t dir : Nat) : Word :=
  let u := s.neighbour t dir
  if (s.tile t).vacant || (s.tile u).vacant then 0
  else
    let a := s.phys t
    let b := s.phys u
    wd (2 ^ 16 + wrapN (ringDiff 64 (panelY a) (panelY b)) 8 * 2 ^ 8 + wrapN (ringDiff 48 (panelX a) (panelX b)) 8)

/-- What an access of a system register waits for (10 R213; 05 R93; 09 R171); a bound register, for the stores issued earlier on the tile,
whose hits it holds (03 R54). -/
def State.sysWait (s : State) (w : Who) (n : Nat) : Option Why :=
  let t := s.tile w.tile
  if (s.slot w).settled = false then some .earlier
  else if (n = 0x22 ∨ n = 0x23 ∨ n = 0x24) ∧ t.stepPending then some .matrix
  else if n = 0x24 ∧ t.mx.load.isSome then some .matrix
  else if 0x40 ≤ n ∧ n < 0x60 ∧ (t.slots.any fun e => e.2.pend.any fun p => p.job.writes) = true then some .earlier
  else none

/-- One word of a bound register (03 Table 3.9). -/
def Bnd.word (b : Bnd) : Nat → Word
  | 0 => b.base
  | 1 => b.len
  | 2 => b.lim
  | _ => b.ctl

def Bnd.setWord (b : Bnd) (k : Nat) (v : Word) : Bnd :=
  match k with
  | 0 => { b with base := v }
  | 1 => { b with len := v }
  | 2 => { b with lim := v }
  | _ => { b with ctl := ctlMask v }

/-- `notice` (10 Table 10.7). -/
def Slot.noticeWord (x : Slot) : Word := wd ((if x.pers then 2 else 0) + if x.notice then 1 else 0)

/-- Value of a system register (10 Table 10.6). -/
def State.sysRead (s : State) (w : Who) (n : Nat) : Word :=
  let x := s.slot w
  let t := s.tile w.tile
  if n < 0x10 then wd (vget t.rtab n 0).toNat
  else if n < 0x14 then s.pointer w.tile (n - 0x10)
  else if 0x40 ≤ n ∧ n < 0x60 then (vget t.mx.bnd ((n - 0x40) / 4) ⟨0, 0, 0, 0⟩).word (n % 4)
  else if 0x60 ≤ n ∧ n < 0x64 then (x.bind (n - 0x60)).status
  else
    match n with
    | 0x20 => x.vshp
    | 0x21 => x.fstat
    | 0x22 => t.mx.mshp
    | 0x23 => t.mx.afmt
    | 0x24 => t.mx.mstat
    | 0x25 => wd t.mx.fifo.length
    | 0x30 => x.lc0
    | 0x31 => x.ls0
    | 0x32 => x.le0
    | 0x33 => x.lc1
    | 0x34 => x.ls1
    | 0x35 => x.le1
    | 0x70 => (s.clu (s.cluster w.tile)).owlWord
    | 0x100 => s.cyc w.tile
    | 0x101 => x.tmr
    | 0x102 => x.tctl
    | 0x104 => x.tvec
    | 0x105 => x.epc
    | 0x106 => x.enext
    | 0x107 => x.ecause
    | 0x108 => x.eval
    | 0x109 => x.estat
    | 0x110 => wd t.spoilc
    | 0x111 => x.noticeWord
    | 0x112 => x.ckst
    | _ => 0

/-- A value read that the tile does not hold itself enters the replay log (24 Table 24.2, KIND 3). -/
def State.logSys (s : State) (w : Who) (n : Nat) (v : Word) : State :=
  if (0x60 ≤ n ∧ n < 0x64) ∨ n = 0x70 ∨ n = 0x100 ∨ n = 0x111 then s.logArrival w.tile 3 w.slot 0 v else s

/-- An address without its low two bits. -/
abbrev wordAligned (v : Word) : Word := v &&& 0xFFFFFFFFFFFFFFFC

/-- A thread register written (10 Tables 10.6, 10.7; 03 R51; 05 Table 5.7). -/
def Slot.sysPut (x : Slot) (n : Nat) (v : Word) : Slot :=
  match n with
  | 0x21 => { x with fstat := v &&& 0xFF }
  | 0x30 => { x with lc0 := v }
  | 0x31 => { x with ls0 := wordAligned v }
  | 0x32 => { x with le0 := wordAligned v }
  | 0x33 => { x with lc1 := v }
  | 0x34 => { x with ls1 := wordAligned v }
  | 0x35 => { x with le1 := wordAligned v }
  | 0x101 => { x with tmr := v }
  | 0x102 => { x with tctl := v &&& 3 }
  | 0x104 => { x with tvec := wordAligned v }
  | 0x105 => { x with epc := wordAligned v }
  | 0x106 => { x with enext := wordAligned v }
  | 0x107 => { x with ecause := v &&& 0x8000FFFF }
  | 0x108 => { x with eval := v }
  | 0x109 => { x with estat := v &&& 1 }
  | _ => x

/-- A write of a system register, under the rules of the instructions that own it (10 R213); `word` is the instruction's. -/
def State.sysWrite (s : State) (w : Who) (n : Nat) (v word : Word) : Res :=
  let owned (f : Matrix → Matrix) : Res :=
    match s.ownMx w true with
    | none => .trap cMOwner (wd ((s.tile w.tile).mx.owner.getD 0))
    | some s => .ok (s.modMx w.tile f)
  if 0x40 ≤ n ∧ n < 0x60 then
    let k := (n - 0x40) / 4
    let own := s.ownMx w true
    let b := (vget ((own.getD s).tile w.tile).mx.bnd k ⟨0, 0, 0, 0⟩).setWord (n % 4) v
    if b.act ≠ 0 ∧ b.am = 3 then .trap cIllegal word
    else
      match own with
      | none => .trap cMOwner (wd ((s.tile w.tile).mx.owner.getD 0))
      | some s => .ok (s.modMx w.tile fun m => { m.setBnd k b with latchDirty := true })
  else
    match n with
    | 0x20 =>
      match (s.slot w).setShape v with
      | some x => .ok (s.setSlot w x)
      | none => .trap cVShape word
    | 0x22 =>
      match s.ownMx w true with
      | none => .trap cMOwner (wd ((s.tile w.tile).mx.owner.getD 0))
      | some s => .ok (s.setBands w.tile (v.toNat % 16))
    | 0x23 =>
      match s.ownMx w true with
      | none => .trap cMOwner (wd ((s.tile w.tile).mx.owner.getD 0))
      | some s =>
        if matFmt (v.toNat % 16) then .ok (s.modMx w.tile fun m => { m with afmt := wd (v.toNat % 16), latchDirty := true })
        else .trap cMFormat word
    | 0x24 => owned fun m => { m with mstat := v &&& 0xFFFFFFFF0000000F }
    | 0x70 =>
      let cl := s.cluster w.tile
      if 16 ≤ (s.clu cl).owl.length then .wait s .owl
      else .ok (s.modClu cl fun c => { c with owl := c.owl ++ [⟨w, (s.slot w).thr, (s.slot w).iseq + 1, (s.slot w).ctx.getD 0, v, false, none, 0, none⟩] })
    | _ => .ok (s.modSlot w fun x => x.sysPut n v)

/-- `sysr` (10 R213). -/
def execSysr (d : Spec) (n : BitVec 12) (g : Guard) (s : State) : Host.Outcome State Fault Refusal :=
  .next (s.issue (.sysr d n g) (Meta.solo g [] [d]) fun s w =>
    match s.sysWait w n.toNat with
    | some y => .wait s y
    | none =>
      let v := s.sysRead w n.toNat
      match s.operands w [] [d] with
      | .ok (_, s') => .ok ((s'.logSys w n.toNat v).writeSpec w d v)
      | .wait y => .wait s y
      | .trap c e => .trap c e)

/-- `sysw` (10 R213). -/
def execSysw (nh : BitVec 6) (a : Spec) (nl : BitVec 6) (g : Guard) (s : State) : Host.Outcome State Fault Refusal :=
  .next (s.issue (.sysw nh a nl g) (Meta.solo g [a] []) fun s w =>
    let n := (nh ++ nl).toNat
    match s.sysWait w n with
    | some y => .wait s y
    | none => s.withSrc w [a] fun vs s' =>
      match s'.sysWrite w n (argN vs 0) (wordOf (.sysw nh a nl g)) with
      | .wait _ y => .wait s y
      | r => r)

/-- `sysx` (10 R213): the number from B; the old value into d and A into the register. A number that names no writable register comes
before the other operands (22 R353 step 3). -/
def execSysx (d a b : Spec) (g : Guard) (s : State) : Host.Outcome State Fault Refusal :=
  .next (s.issue (.sysx d a b g) (Meta.solo g [a, b] [d]) fun s w =>
    let illegal := match s.readSpec w b with
      | .ok (n, _) => !sysWritable n.toNat
      | _ => false
    if (s.slot w).settled = false then .wait s .earlier
    else if illegal then .trap cIllegal (wordOf (.sysx d a b g))
    else
      match s.operands w [a, b] [d] with
      | .wait y => .wait s y
      | .trap c e => .trap c e
      | .ok (vs, s') =>
        let n := (argN vs 1).toNat
        match s.sysWait w n with
        | some y => .wait s y
        | none =>
          let old := s'.sysRead w n
          match s'.sysWrite w n (argN vs 0) (wordOf (.sysx d a b g)) with
          | .ok s'' => .ok ((s''.logSys w n old).writeSpec w d old)
          | .wait _ y => .wait s y
          | r => r)

/-- A wait that ends with an event of its own: the state while it lasts (10 R206, R214, R215). -/
def State.beginOp (s : State) (w : Who) (kind : Nat) (v : Word) (src : List Spec) (n : Nat) : State :=
  s.modSlot w fun x => { x with op := some (kind, v, src), waitUntil := some (s.now + n) }

/-- The end of such a wait, once its cycle has come: the sources are obtained and the thread goes on. -/
def State.endOp (s : State) (w : Who) (src : List Spec) : State :=
  let s : State := match s.readSpecs w src [] with
    | .ok (_, s') => s'
    | _ => s
  let pc := (s.slot w).pc
  (s.modSlot w fun x => { x with op := none, waitUntil := none }).advance w (.wsafe always) true none pc

/-- An operation under way whose cycle has come. -/
def Slot.opDue (x : Slot) (why : Why) (now : Nat) : Option (Nat × Word × List Spec) :=
  if x.st = .wait ∧ x.why = why ∧ (x.waitUntil.map fun t => decide (t ≤ now)).getD false = true then x.op else none

/-- `tlbi` (10 R214): waits until the thread's earlier stores are performed, then until the invalidation has its extent. -/
def execTlbi (a : Spec) (kind : BitVec 3) (g : Guard) (s : State) : Host.Outcome State Fault Refusal :=
  .next (s.issue (.tlbi a kind g) (Meta.solo g [a] []) fun s w =>
    let x := s.slot w
    if x.op.isSome then .wait s .tlbi
    else if (x.pend.any fun p => p.job.writes) || s.stores.any fun e => e.party.thr == x.thr then .wait s .earlier
    else s.withSrc w [a] fun vs _ =>
      .wait (s.beginOp w kind.toNat (argN vs 0) [a] (if kind.toNat % 2 = 0 then 40 else 6000)) .tlbi)

/-- Translations invalidated (10 R214, Table 10.8): of one page or of the whole context, in one tile's TLB or in every
TLB; walks in flight for them start again. -/
def State.invalidate (s : State) (t ctx : Nat) (page : Option Nat) (everywhere : Bool) : State :=
  let hit (p : Page) : Bool := p.ctx == ctx && (match page with
    | some va => pageMaps p ctx va
    | none => true)
  let covers (k : Walk) : Bool := k.ctx == ctx && (match page with
    | some va => k.va == va / 65536 * 65536 || (match s.pageOf ctx va with
        | some p => pageMaps p ctx k.va
        | none => false)
    | none => true)
  let again (k : Walk) : Walk := if covers k && (everywhere || k.tiles.contains t) then { k with due := s.now + 240 } else k
  if everywhere then
    { s with
      tiles := s.tiles.map fun (e : Nat × Tile) => (e.1, { e.2 with tlb := e.2.tlb.filter fun p => !hit p })
      slabs := s.slabs.map fun (e : Nat × Slab) =>
        (e.1, { e.2 with lltlb := e.2.lltlb.filter fun p => !hit p, walks := e.2.walks.map again }) }
  else
    (s.modTile t fun x => { x with tlb := x.tlb.filter fun p => !hit p }).modSlab (s.slabOf t) fun b =>
      { b with walks := b.walks.map again }

/-- REPL pages of a context that the tables or a TLB hold, or have held since its latest `tlbi`, one page or all (11 R228). -/
def State.replPages (s : State) (ctx : Nat) (page : Option Nat) : List Page :=
  (s.pages ++ s.oldRepl ++ (s.tiles.flatMap fun e => e.2.tlb) ++ s.slabs.flatMap fun e => e.2.lltlb).eraseDups.filter fun p =>
    p.ctx == ctx && p.plc == .repl && (match page with
      | some va => pageMaps p ctx va
      | none => true)

/-- An invalidation that reaches the whole module: the lines of REPL pages leave the slices too (10 R214; 11 R228). -/
def State.invalidateModule (s : State) (ctx : Nat) (page : Option Nat) : State :=
  let ps := s.replPages ctx page
  let s := ps.foldl (fun s p => s.dropCopies p) s
  ({ s with oldRepl := s.oldRepl.filter fun p => !ps.contains p } : State).invalidate 0 ctx page true

/-- TLBI_COMPLETE (10 R214; 11 R228). -/
def execTlbiComplete (w : Who) (s : State) : Host.Outcome State Fault Refusal :=
  .next <|
    let x := s.slot w
    match x.opDue .tlbi s.now with
    | none => s
    | some (kind, v, src) =>
      let page := if kind < 2 then some (addrOf v) else none
      let ctx := x.ctx.getD 0
      (if kind % 2 = 1 then s.invalidateModule ctx page else s.invalidate w.tile ctx page false).endOp w src

/-- Waves of a context on a tile that have not stopped (10 R215; 02 R36). -/
def Tile.wavesOf (t : Tile) (ctx : Option Nat) : List Nat :=
  (t.slots.filterMap fun e => if e.2.ctx = ctx ∧ e.2.st ≠ .out ∧ e.2.st ≠ .halt then e.2.wave.map fun r => r.id else none).eraseDups

/-- `ckpt` (10 R215): waits for the earlier instructions and the copy statuses, then while the checkpoint is written. A wave of the
context on the tile is cut along a wavefront first, as for a move, for its threads issue nothing meanwhile (02 R36; 14 R288; log 75). -/
def execCkpt (g : Guard) (s : State) : Host.Outcome State Fault Refusal :=
  .next (s.issue (.ckpt g) (Meta.solo g [] []) fun s w =>
    let x := s.slot w
    if x.op.isSome then .wait s .ckpt
    else if x.settledCopies = false then .wait s .earlier
    else if (s.tile w.tile).wavesOf x.ctx ≠ [] then
      .wait (((s.tile w.tile).wavesOf x.ctx).foldl (fun s id => s.cutWave id) s) .ckpt
    else
      let t := s.tile w.tile
      let n := t.ckptBytes fun c => some c == x.ctx
      let k := if t.image.used + n ≤ 262144 then (n + 31) / 32 else 1
      .wait (s.beginOp w 0 0 [] k) .ckpt)

/-- CKPT_COMPLETE (10 R215; 14 R291, R292): the boundary is set, or OVF. -/
def execCkptComplete (w : Who) (s : State) : Host.Outcome State Fault Refusal :=
  .next <|
    let x := s.slot w
    match x.opDue .ckpt s.now with
    | none => s
    | some (_, _, src) =>
      let t := s.tile w.tile
      let sel (c : Nat) : Bool := some c == x.ctx
      let n := t.ckptBytes sel
      let fits := decide (t.image.used + n ≤ 262144)
      let s := (s.modSlot w fun x => { x with ckst := wd (n * 2 ^ 32 + if fits then 0 else 1) }).endOp w src
      (s.boundary w.tile sel).1

/-- R212's condition: EN = 1, TM = 0 and `cyc` at or past `tmr`. -/
def State.timerDue (s : State) (w : Who) : Bool :=
  let x := s.slot w
  x.tctl.getLsbD 0 && !x.tm && decide (x.tmr.toNat ≤ (s.cyc w.tile).toNat)

/-- What ends an `idle` (10 R209). -/
def State.idleEnds (s : State) (w : Who) : Bool :=
  let x := s.slot w
  (x.rbuf.toList.any fun b => !b.isEmpty) || x.notice || s.timerDue w ||
    (List.range 4).any fun k => (x.bind k).st == .bound && (match s.pop w k with
      | .ok _ => true
      | _ => false)

/-- `idle` (10 R209). -/
def execIdle (g : Guard) (s : State) : Host.Outcome State Fault Refusal :=
  .next (s.issue (.idle g) (Meta.solo g [] []) fun s w => if s.idleEnds w then .ok s else .wait s .idle)

/-- `halt` (10 R209). -/
def execHalt (g : Guard) (s : State) : Host.Outcome State Fault Refusal :=
  .next (s.issue (.halt g) (Meta.solo g [] []) fun s w =>
    let x := s.slot w
    if x.settled = false then .wait s .earlier
    else .stop ((s.advance w (.halt g) true none x.pc).modSlot w fun x => { x with st := .halt, halted := true }))

/-- Distance of two positions (02 R24). -/
def posDist (a b : Nat) : Nat := min (max a b - min a b) (16 - (max a b - min a b))

/-- Slots an entry names in a column whose valid bit is 1 (02 Table 2.3). -/
def entrySlots (e : BitVec 32) : List Nat :=
  let v := e.toNat
  (if bitOf v 4 then [bits v 3 0] else []) ++ (if bitOf v 9 then [bits v 8 5] else []) ++
    (if bitOf v 14 then [bits v 13 10] else [])

/-- The slot of an entry's issue column. -/
def entryIssue (e : BitVec 32) : Option Nat := if bitOf e.toNat 4 then some (bits e.toNat 3 0) else none

/-- Threads that hold a slot's positions: the one in it, and those of the slot that stand in SPILL (02 R29, R44). -/
def Tile.holders (t : Tile) (k : Nat) : List Slot := t.slot k :: (t.spilled.filter fun e => e.1 == k).map fun e => e.2

/-- Whether position p of a new table is refused (10 R206; 02 R24, R29). -/
def Tile.refusesAt (t : Tile) (ctx : Option Nat) (new : Vector (BitVec 32) 16) (p : Nat) : Bool :=
  let a := vget t.rtab p 0
  let b := vget new p 0
  let near := (entryIssue b).isSome && (List.range 16).any fun q =>
    q != p && entryIssue (vget new q 0) == entryIssue b && decide (posDist p q < 8)
  let wave (k : Nat) : Bool := ((t.holders k).any fun x => x.inWave) && ((entryIssue a == some k) != (entryIssue b == some k))
  let other (k : Nat) : Bool := (t.holders k).any fun x => x.task.isSome && x.ctx != ctx
  near || (List.range 16).any wave || (a != b && (entrySlots a ++ entrySlots b).any other)

/-- The table an image of 64 bytes describes, reserved bits reading 0 (10 R206; 02 Table 2.3). -/
def tableOf (bs : List Byte) : Vector (BitVec 32) 16 :=
  Vector.ofFn fun p => BitVec.ofNat 32 (leNat ((bs.drop (4 * p.val)).take 4) % 2 ^ 15)

/-- `rot` (10 R206): the image is checked, then the thread waits for the next position 0 after 8 cycles. -/
def execRot (a : Spec) (g : Guard) (s : State) : Host.Outcome State Fault Refusal :=
  .next (s.issue (.rot a g) (Meta.solo g [a] []) fun s w =>
    let x := s.slot w
    let t := s.tile w.tile
    if x.op.isSome then .wait s .rot
    else if t.slots.any fun e => e.2.st == .wait && e.2.why == .rot && e.2.op.isSome then .wait s .rot
    else s.withSrc w [a] fun vs _ =>
      match s.ownPad w (argN vs 0) 64 64 with
      | .error c => .trap c (argN vs 0)
      | .ok off =>
        if x.padStore w.tile then .wait s .earlier
        else
        let new := tableOf (s.ownBytes w [⟨.spad w.tile off, 64, .home⟩])
        match (List.range 16).find? fun p => t.refusesAt x.ctx new p with
        | some p => .trap cRotTable (wd p)
        | none =>
          let from_ := s.now + 8 + (16 - (s.posOf w.tile + 8) % 16) % 16
          .wait ((s.modTile w.tile fun t => { t with rotNext := some (from_, new) }).beginOp w 0 (argN vs 0) [a] (from_ - s.now)) .rot)

/-- Lane cycles left of the oldest pending vector instruction of a slot at a change of table (02 R26). -/
def Tile.lanesLeft (t : Tile) (k now : Nat) (x : Slot) : Slot :=
  match x.vpend with
  | [] => x
  | p :: rest =>
    let n := countCycles t.cycBase (fun q => t.vectorAt q k) p.since now
    if now ≤ p.since ∨ p.lanes ≤ n then x
    else { x with vpend := { p with lanes := p.lanes - n, since := now } :: rest }

/-- A slot that stands IDLE without a position is offered from the cycle after the table that gives it one (02 R38). -/
def offeredBy (old new : Vector (BitVec 32) 16) (k now : Nat) (x : Slot) : Slot :=
  if (positionsIn old k).isEmpty && !(positionsIn new k).isEmpty then { x with freeFrom := now + 1 } else x

/-- ROT_TAKE_EFFECT (02 R23, R26; 10 R206), at the start of a position 0: the new table stands and the thread has left WAIT. A table
whose thread has abandoned its wait does not take effect: the thread executes `rot` again. -/
def execRotTakeEffect (tile : Nat) (s : State) : Host.Outcome State Fault Refusal :=
  .next <|
    let t := s.tile tile
    match t.rotNext with
    | none => s
    | some (from_, new) =>
      if s.now < from_ then s
      else
        match t.slots.find? fun e => (e.2.opDue .rot s.now).isSome with
        | none => s.modTile tile fun t => { t with rotNext := none }
        | some (k, x) =>
          let s := s.modTile tile fun t =>
            { t with rtab := new, rotNext := none
                     slots := slotNums.map fun k => (k, offeredBy t.rtab new k s.now (t.lanesLeft k s.now (t.slot k))) }
          s.endOp ⟨tile, k⟩ ((x.op.map fun o => o.2.2).getD [])

/-- The slot a thread-control instruction names, when it meets both conditions of R205 and is not the overflow handler's (11 R231). -/
def State.ctlSlot (s : State) (w : Who) (v : Word) : Option Who :=
  let u : Who := ⟨w.tile, v.toNat % 16⟩
  let x := s.slot u
  if x.inWave || s.isHandler u then none
  else if x.st = .idle ∨ x.ctx = (s.slot w).ctx then some u
  else none

/-- `trem` (10 R207). -/
def execTrem (a : Spec) (g : Guard) (s : State) : Host.Outcome State Fault Refusal :=
  .next (s.issue (.trem a g) (Meta.solo g [a] []) fun s w =>
    s.withSrc w [a] fun vs s =>
      let k := wd ((argN vs 0).toNat % 16)
      match s.ctlSlot w (argN vs 0) with
      | none => .trap cThread k
      | some u =>
        if u = w then
          .stop ((s.advance w (.trem a g) true none (s.slot w).pc).modSlot w fun x => { x with st := .out })
        else if (s.slot u).st = .run ∨ (s.slot u).st = .wait then .ok (s.takeOut u)
        else .ok s)

/-- `tins` (10 R207). -/
def execTins (a : Spec) (g : Guard) (s : State) : Host.Outcome State Fault Refusal :=
  .next (s.issue (.tins a g) (Meta.solo g [a] []) fun s w =>
    s.withSrc w [a] fun vs s =>
      let k := wd ((argN vs 0).toNat % 16)
      match s.ctlSlot w (argN vs 0) with
      | none => .trap cThread k
      | some u =>
        let x := s.slot u
        if x.frozen then .trap cThread k
        else if x.st = .out ∨ (x.st = .halt ∧ x.halted = true) then
          .ok (s.modSlot u fun x => { x with st := .run, halted := false, why := .none, preempted := false })
        else .ok s)

/-- An auxiliary thread started in a slot (10 R208). -/
def State.spawn (s : State) (w u : Who) (pc : Word) : State :=
  let x := s.slot w
  let args := (List.range 8).map fun i => vget x.g (i + 1) 0
  let s := (args ++ [pc]).foldl (fun s v => s.logArrival u.tile 8 u.slot 0 v) s
  let s := (s.modSlot u fun y =>
    let z := { y with gen := y.gen + 1 }.fresh (x.ctx.getD 0) s.now
    { z.setArgs args with pc := pc, st := .run, task := x.task, aux := true, pers := x.pers }).beginThread u
  match x.task with
  | some k => s.modTask k fun q => { q with auxes := q.auxes + 1 }
  | none => s

/-- `tspn` (10 R208): a slot that is not IDLE, or that another party takes in this cycle, is a thread-control trap. -/
def execTspn (a b : Spec) (g : Guard) (s : State) : Host.Outcome State Fault Refusal :=
  .next (s.issue (.tspn a b g) (Meta.solo g [a, b] []) fun s w =>
    if (s.slot w).red.isSome then .trap cRedundancy (wordOf (.tspn a b g))
    else s.withSrc w [a, b] fun vs s =>
      let k := wd ((argN vs 0).toNat % 16)
      match s.ctlSlot w (argN vs 0) with
      | none => .trap cThread k
      | some u =>
        if s.spareSlot u = false then .trap cThread k
        else if (argN vs 1).toNat % 4 ≠ 0 then .trap cFetchAlign (argN vs 1)
        else .ok (s.spawn w u (argN vs 1)))

/-- Whether a tile's threads are at rest in a copy, a remap or a stop sequence past its drain, or nothing serves it. -/
def Tile.still (t : Tile) : Bool :=
  t.vacant || (match t.move with
    | some m => m.phase != .precopy && m.phase != .drain
    | none => false)

/-- TRAP_ENTRY (10 R210; 22 R355 to R357). -/
def execTrapEntry (w : Who) (s : State) : Host.Outcome State Fault Refusal :=
  .next (if (s.tile w.tile).still then s else s.settleTrap w)

/-- TIMER_TRAP (10 R212): before the thread's next instruction, its wait abandoned; held in wave mode (22 R359) and while
`eret` executes `epc` alone. -/
def execTimerTrap (w : Who) (s : State) : Host.Outcome State Fault Refusal :=
  .next <|
    let x := s.slot w
    if s.canIssue w && s.timerDue w && !x.solo && !x.inWave then
      let s := (s.dropClaims w).modSlot w fun x => { x with join := none, waitUntil := none, op := none }
      s.raise w cTimer 0 x.pc
    else s

end Sys2Proof.Machine
end

