-- ==== Sys2Proof/Machine/Closing.lean ====
section
/-! DEFINITION. The closing of a context that is torn down: its threads out of the rotation, what they have issued completed, its collective
operations ended, then the steps of Table 21.5 (21 R343, R344). -/

namespace Sys2Proof.Machine

/-- The threads of a context leave the rotation as under R207; its waves are cut along a wavefront (21 Table 21.5 step 2; 02 R36). -/
def State.withdrawCtx (s : State) (ctx : Nat) : State :=
  let ids := (s.waves.filter fun e => e.2.ctx == ctx).map fun e => e.1
  let s := ids.foldl (fun s id => s.cutWave id) s
  (s.ctxThreads ctx).foldl (fun s w =>
    let x := s.slot w
    if x.wave.isNone && (x.st == .run || x.st == .wait) then s.takeOut w else s) s

/-- Whether a pending instruction of a thread that is discarded need not complete: it waits on an engine, a channel, another module or a
stopped tile (10 R207; 21 Table 21.5 steps 3, 4 and 6). -/
def State.leftOpen (s : State) (w : Who) (p : Pend) : Bool :=
  match p.job with
  | .lease _ => true
  | .erd _ _ _ => true
  | .copy _ _ _ _ => true
  | .mstep _ _ _ _ _ _ _ _ _ => (s.tile w.tile).stopped
  | j => ((j.acc?).map fun a => hasPod a.parts).getD false

/-- Whether an instruction that a thread of the context has issued, or a store it has made, is still to complete (10 R207). Those to
other modules are not waited for, and none of them once the 450,000 cycles since the detection are over (21 R343; log 97). -/
def State.teardownWaits (s : State) (ctx : Nat) : Bool :=
  decide (s.now < (s.ctxOf ctx).since + 450000) &&
    (((s.ctxThreads ctx).any fun w => !(s.slot w).vpend.isEmpty || ((s.slot w).wave.isSome && (s.slot w).st != .out && (s.slot w).st != .halt) ||
        (s.slot w).pend.any fun p => !s.leftOpen w p) ||
      s.stores.any fun e => e.ctx == ctx && !hasPod [e.part])

/-- The members of collectives at the head of the module's engines (10 R200). -/
def State.collMembers (s : State) : List Member :=
  s.clusters.flatMap fun e => (List.range 16).filterMap fun k => (s.engCmd e.1 k 7).map fun c => ((e.1, k), c)

/-- The place of a member's group record, where the page tables give it one. -/
def State.groupPlace (s : State) (q : Member) : Option Loc :=
  let v := s.par q.1.1 q.1.2 3
  if modeOf v ≠ 0 then none
  else match s.tableLoc q.2.ctx (addrOf v) .read with
    | .ok p => some p.1
    | .error _ => none

/-- Every collective with a member in a context ends on its other members, which share the group record (21 Table 21.5 step 4; 23 Table
23.3; log 15). -/
def State.endCollectives (s : State) (ctx : Nat) : State :=
  let dead := (s.collMembers.filter fun q => q.2.ctx == ctx && q.2.opc == 1).filterMap s.groupPlace
  let mates := s.collMembers.filter fun q => q.2.ctx != ctx && q.2.opc == 1 && ((s.groupPlace q).map fun l => dead.contains l).getD false
  (mates.foldl (fun s q => s.modEng q.1.1 q.1.2 fun g => g.start q.2.opc) s).collFail mates 7

/-- TEARDOWN (21 R343, R344): the steps after the first, once no move holds them back: the threads are taken out, and when what they have
issued is complete the context goes. -/
def execTeardown (ctx : Nat) (s : State) : Host.Outcome State Fault Refusal :=
  .next <|
    if (s.ctxOf ctx).dying = false ∨ s.teardownHeld ctx = true then s
    else
      let s := s.withdrawCtx ctx
      if s.teardownWaits ctx then s else (s.endCollectives ctx).teardown ctx

end Sys2Proof.Machine
end

