-- ==== Sys2Proof/Machine/Panel.lean ====
section
/-! DEFINITION. The Bear: rest steps, returns, thermal moves and stop sequences (14 R279 to R289, R297; 24 R382 to R393),
`wsafe` (06 R123), automatic boundaries, self-tests and ageing. -/

namespace Sys2Proof.Machine

/-- A record about a physical tile that serves nothing (21 Table 21.3). -/
def State.physRec (s : State) (cls outcome cause pt : Nat) : FaultRec :=
  { cls := cls, outcome := outcome, mkind := 6, ctx := noCtx, seq := 0, cyc := s.now, slab := pt / 64, ptile := pt % 64, unit := 0
    y := 0, x := 0, gen := 0, cause := cause, addr := 0, aux := 0, pc := 0, dump := [] }

/-- RESTING and SPARE tiles of a slab that are powered (14 R279). -/
def State.gaps (s : State) (slab : Nat) : List Nat :=
  (slabPhys slab).filter fun p => ((s.ptile p).role == .resting || (s.ptile p).role == .spare) && !(s.ptile p).gated

/-- A slab that has stopped rest steps: its RESTING gaps become SPARE as their self-tests complete (14 R297). -/
def State.refillSpares (s : State) (slab : Nat) : State :=
  if 5 ≤ (s.gaps slab).length then s
  else (s.gaps slab).foldl (fun s p =>
    s.modPtile p fun q => if q.role = .resting ∧ q.testing = false then { q with role := .spare } else q) s

/-- The RESTING gap longest at rest, tested, becomes SPARE (14 R284). -/
def State.freshSpare (s : State) (slab : Nat) : State :=
  match listMin (fun p => (s.ptile p).since * 4096 + p) ((s.gaps slab).filter fun p =>
    (s.ptile p).role == .resting && !(s.ptile p).testing) with
  | some p => s.modPtile p fun q => { q with role := .spare }
  | none => s

/-- Lines reserved on a tile (11 R221). -/
def Tile.reservedLines (t : Tile) : List Nat :=
  (t.resv.flatMap fun r => (List.range ((r.off + r.len + 63) / 64 - r.off / 64)).map fun k => r.off / 64 + k).eraseDups

/-- Bytes of the copy phase of a live tile (14 R285). -/
def Tile.copyBytes (t : Tile) (marked : Nat) : Nat :=
  let vs := t.slots.foldl (fun n e => n + ((List.range 16).filter fun v =>
    e.2.v.any fun (c : Host.Cell) => c.1 / 2048 == v).length) 0
  8192 + 2048 * vs + (if t.mx.owner.isSome then 78848 else 0) + 64 * marked

/-- Bytes a tile's sett holds: the image and the replay log of its western neighbour (14 R290; 24 R381). -/
def State.settBytes (s : State) (t : Nat) : Nat :=
  let v := s.tile (s.neighbour t 2)
  v.image.used + 16 * v.log.length

/-- Bytes of the copy phase of a rollback (24 Table 24.3). -/
def State.rollbackBytes (s : State) (t : Nat) : Nat :=
  let x := s.tile t
  x.image.used + 16 * x.log.length + s.settBytes t +
    64 * (x.reservedLines.filter fun n => !(x.image.lines.any fun e => e.1 == n)).length

/-- Lines of the sett that the passes of a move have not copied as they stand: those by which what it holds has grown or shrunk (14 Table
14.2; log 96). -/
def State.settMarked (s : State) (t : Nat) (m : Move) : Nat := (max (s.settBytes t) m.sett - min (s.settBytes t) m.sett + 63) / 64

/-- A move of the Bear begins with its first pre-copy pass, over the reserved lines and the sett; the destination's cluster is woken (14
Table 14.2; 13 R276). -/
def State.startMove (s : State) (t : Nat) (why : MoveWhy) (dst : Nat) : State :=
  let src := s.phys t
  (s.wantWake (clusterOf dst)).modTile t fun x =>
    { x with move := some { why := why, src := src, dst := dst, phase := .precopy, pass := 1, todo := x.reservedLines, marked := []
                            sett := s.settBytes t, started := s.now, live := true
                            due := s.now + 2 * x.reservedLines.length + (s.settBytes t + 31) / 32 } }

/-- A move or a stop sequence of a virtual tile of the slab is under way. -/
def State.bearBusy (s : State) (slab : Nat) : Bool :=
  (s.slabTiles slab).any fun t => (s.tile t).move.isSome

/-- Physical rows in strictly rising order. -/
def rising : List Nat → Bool
  | a :: b :: r => decide (a < b) && rising (b :: r)
  | _ => true

/-- Physical rows, north to south in virtual order, of the tiles of a virtual column that its own physical column serves,
with one of them placed elsewhere or left out. -/
def State.columnRows (s : State) (slab c v : Nat) (g : Option Nat) : List Nat :=
  ((s.slabTiles slab).filter fun t => tx t % 8 == c).filterMap fun t =>
    let p := if t = v then g else some (s.phys t)
    match p with
    | some p => if p % 8 = c then some (p % 64 / 8) else none
    | none => none

/-- A virtual tile served outside the default embedding (14 R279). -/
def State.displaced (s : State) (v : Nat) : Bool :=
  let p := s.phys v
  let c := tx v % 8
  !(s.tile v).vacant && (p % 8 != c ||
    (!rising (s.columnRows (p / 64) c v (some p)) && rising (s.columnRows (p / 64) c v none)))

/-- The SPARE gap a Return would take (14 Table 14.1). -/
def State.returnGap (s : State) (v : Nat) : Option Nat :=
  let slab := s.phys v / 64
  let c := tx v % 8
  if s.displaced v then
    ((s.spares slab).filter fun g => g % 8 == c).find? fun g => rising (s.columnRows slab c v (some g))
  else none

/-- The first Return possible among some virtual tiles. -/
def State.findReturn (s : State) (ts : List Nat) : Option (Nat × Nat) :=
  ts.findSome? fun v => (s.returnGap v).map fun g => (v, g)

/-- A gap stands, or a move under way leaves one, at the row of the adjacent slab that faces a slab's north or south row (14 R281). -/
def State.facing (s : State) (pt : Nat) (north : Bool) : Bool :=
  let px := panelX pt
  let p := physAt px ((pt / 64 / 6 * 8 + (if north then 63 else 8)) % 64)
  let q := s.ptile p
  q.role == .resting || q.role == .spare || (s.tiles.any fun e => match e.2.move with
    | some m => m.src == p && m.dst != p && m.why != .retire
    | none => false)

/-- Direction in which a gap walks, reversed at the slab's north and south rows or one row short of them
(14 R281, R284). -/
def State.walksNorth (s : State) (g : Nat) : Bool :=
  let row := g % 64 / 8
  if (s.ptile g).north then !(row == 0 || (row == 1 && s.facing g true))
  else row == 7 || (row == 6 && s.facing g false)

/-- The serving tile a rest step would move into a gap, with the gap's direction (14 Table 14.1). -/
def State.restSource (s : State) (g : Nat) : Option (Nat × Bool) :=
  let row := g % 64 / 8
  let north := s.walksNorth g
  let blocked := if north then row == 0 || (row == 1 && s.facing g true) else row == 7 || (row == 6 && s.facing g false)
  if blocked then none
  else
    let p := if north then g - 8 else g + 8
    if (s.ptile p).role = .serving then (s.virtOf p).map fun t => (t, north) else none

/-- Rest steps possible, by the cluster of their source within the slab: virtual tile, gap, direction. -/
def State.restsOf (s : State) (slab q : Nat) : List (Nat × Nat × Bool) :=
  (s.spares slab).filterMap fun g =>
    match s.restSource g with
    | some (t, n) => if s.cluster t % 4 = q && !(s.tile t).vacant then some (t, g, n) else none
    | none => none

/-- REST_STEP (14 R284, R281, R297): the slab's clusters take their turns; a Return possible in the column of the step goes
first. No step while the slab has fewer than five gaps or a move in progress. -/
def execRestStep (slab : Nat) (s : State) : Host.Outcome State Fault Refusal :=
  .next <|
    if (s.slab slab).booted = false ∨ s.bearBusy slab = true ∨ (s.gaps slab).length < 5 then s
    else
      let turns := (List.range 4).map fun k => ((s.slab slab).nextRest + k) % 4
      match turns.findSome? fun q => ((s.restsOf slab q).head?).map fun r => (q, r) with
      | some (q, t, g, north) =>
        match s.findReturn ((s.slabTiles slab).filter fun v => tx v % 8 == g % 8) with
        | some (v, h) => s.startMove v .ret h
        | none =>
          ((s.modSlab slab fun b => { b with nextRest := (q + 1) % 4 }).modPtile g fun p => { p with north := north }).startMove
            t .rest g
      | none => s

/-- Waits of a tile abandoned as its slots leave the rotation (14 Table 14.2; 10 R207). -/
def State.abandonWaits (s : State) (t : Nat) : State :=
  (s.tile t).slots.foldl (fun s e =>
    if e.2.st = .wait ∧ e.2.why ≠ .trap ∧ e.2.why ≠ .move then
      (s.dropClaims ⟨t, e.1⟩).modSlot ⟨t, e.1⟩ fun x => { x with join := none, op := none, waitUntil := none }
    else s) s

/-- MOVE_PRECOPY_PASS_END (14 Table 14.2): another pass over the marked lines, or the drain, which starts at a
position 0. -/
def execMovePrecopyPassEnd (tile : Nat) (s : State) : Host.Outcome State Fault Refusal :=
  .next <|
    match (s.tile tile).move with
    | none => s
    | some m =>
      let n := m.marked.length + s.settMarked tile m
      if m.phase ≠ .precopy ∨ s.now < m.due then s
      else if m.pass < 4 ∧ 4096 ≤ n then
        s.modTile tile fun x =>
          { x with move := some { m with pass := m.pass + 1, todo := m.marked, marked := [], sett := s.settBytes tile, due := s.now + 2 * n } }
      else if s.posOf tile ≠ 0 then s
      else
        let s := (s.abandonWaits tile).modTile tile fun x => { x with move := some { m with phase := .drain } }
        (s.tile tile).waveIds.foldl (fun s id => s.cutWave id) s

/-- Every wave on a tile has stopped at its wavefront. -/
def State.wavesStopped (s : State) (t : Nat) : Bool :=
  (s.tile t).slots.all fun e => e.2.wave.isNone || e.2.st == .out || e.2.st == .halt

/-- Whether an access that a tile has issued, or a burst of its copies, is not performed (02 R20; 14 Table 14.2). -/
def State.accessesOut (s : State) (t : Nat) : Bool :=
  (s.stores.any fun e => e.party.tile == some t) ||
    (s.tile t).chan.toList.any fun c => c.chains.any fun h => h.recs.any fun r => !r.flight.isEmpty || r.step.isSome

/-- MOVE_DRAIN_END (14 Table 14.2; 22 R355). -/
def execMoveDrainEnd (tile : Nat) (s : State) : Host.Outcome State Fault Refusal :=
  .next <|
    let x := s.tile tile
    match x.move with
    | none => s
    | some m =>
      if m.phase ≠ .drain ∨ x.stopped = true then s
      else if (x.slots.any fun e => !e.2.settled || !e.2.trapq.isEmpty) || !s.wavesStopped tile || s.accessesOut tile then s
      else
        s.modTile tile fun x =>
          { x with move := some { m with phase := .copy, due := s.now + (x.copyBytes (m.marked.length + s.settMarked tile m) + 63) / 64 } }

/-- MOVE_COPY_END (14 Table 14.2). -/
def execMoveCopyEnd (tile : Nat) (s : State) : Host.Outcome State Fault Refusal :=
  .next <|
    let x := s.tile tile
    match x.move with
    | none => s
    | some m =>
      if m.phase ≠ .copy ∨ x.stopped = true ∨ s.now < m.due then s
      else s.modTile tile fun x => { x with move := some { m with phase := .remap, due := s.now + 1800 } }

/-- The remap: every router table, and the pointers of the tile and its neighbours, change between two cycles
(14 Table 14.2, R282). -/
def State.remap (s : State) (t : Nat) (m : Move) : State :=
  let s : State := { s with vmap := kvSet s.vmap t m.dst }.modTile t fun x => { x with fwd := s.now }
  s.modPtile m.dst fun p => { p with role := .serving, testing := false }

/-- MOVE_REMAP_END (14 Table 14.2). -/
def execMoveRemapEnd (tile : Nat) (s : State) : Host.Outcome State Fault Refusal :=
  .next <|
    let x := s.tile tile
    match x.move with
    | none => s
    | some m =>
      if m.phase ≠ .remap ∨ x.stopped = true ∨ s.now < m.due then s
      else (s.remap tile m).modTile tile fun x => { x with move := some { m with phase := .resume } }

/-- What becomes of the source (14 Table 14.1; 24 R385, R390, R393). -/
def State.leaveSource (s : State) (m : Move) : State :=
  if m.src = m.dst then s
  else
    let slab := m.src / 64
    let s := match m.why with
      | .rest =>
        (s.modPtile m.src fun p => { p with role := .resting, testing := true, since := s.now, north := (s.ptile m.dst).north }).freshSpare
          slab
      | .ret | .thermal => s.modPtile m.src fun p => { p with role := .spare }
      | .retire => s.modPtile m.src fun p => p.retire
      | .mismatch => s.modPtile m.src fun p => { p with role := .resting, testing := true, since := s.now }
      | .trip => s.modPtile m.src fun p => { p with role := .resting, testing := !p.gated, since := s.now }
    s.refillSpares slab

/-- Waves of a tile resumed, once every tile they run on does (14 R288). -/
def State.resumeWaves (s : State) (t : Nat) : State :=
  (s.tile t).waveIds.foldl (fun s id =>
    match s.wave? id with
    | some v => if v.live.all fun m => (s.tile (s.memberWho v m).tile).running then s.resumeWave id else s
    | none => s) s

/-- MOVE_RESUME (14 Tables 14.2, 14.4; 24 Table 24.3): the destination takes the rotation at a position 0, and issues from that cycle on; a thread that waits at
`wsafe` for a thermal move goes on after it, and the tile's notices are over (02 R40). -/
def execMoveResume (tile : Nat) (s : State) : Host.Outcome State Fault Refusal :=
  .next <|
    let x := s.tile tile
    match x.move with
    | none => s
    | some m =>
      if m.phase ≠ .resume ∨ s.posOf tile ≠ 0 then s
      else if (s.clu (clusterOf m.dst)).pow ≠ .on then s.wantWake (clusterOf m.dst)
      else
        let s := (s.leaveSource m).modTile tile fun x => { x with move := none, stopped := false, resumed := s.now + 1 }
        let s := if m.why = .thermal then
            x.slots.foldl (fun s e =>
              let w : Who := ⟨tile, e.1⟩
              let s := s.modSlot w fun y => { y with notice := false }
              if e.2.st = .wait ∧ e.2.why = .move ∧ e.2.op.isSome then s.endOp w [] else s) s
          else s
        s.resumeWaves tile

/-- `wsafe` (06 R123; 02 R40): with a notice pending it waits for the earlier instructions, then through the thermal move;
without a destination it completes. -/
def execWsafe (g : Guard) (s : State) : Host.Outcome State Fault Refusal :=
  .next (s.issue (.wsafe g) (Meta.solo g [] []) fun s w =>
    let x := s.slot w
    let t := s.tile w.tile
    if x.notice = false ∨ x.pers = false then .ok s
    else if x.settledCopies = false then .wait s .earlier
    else
      match t.move with
      | some m =>
        if m.why = .thermal then .wait (s.modSlot w fun x => { x with op := some (0, 0, []) }) .move
        else .wait s .move
      | none =>
        match s.coolSpare (s.phys w.tile / 64) with
        | none => .ok (s.modSlot w fun x => { x with op := none })
        | some dst => .wait ((s.startMove w.tile .thermal dst).modSlot w fun x => { x with op := some (0, 0, []) }) .move)

/-- Stop sequences that come before a tile's: of its slab, in order of their stop cycles; and that of the western neighbour,
whose image stands in its sett, until it has been read (24 Table 24.4). -/
def State.stopBlocked (s : State) (t : Nat) (m : Move) : Bool :=
  let before (u : Nat) : Bool :=
    match (s.tile u).move with
    | some k => (s.tile u).stopped && u != t && (decide (k.started < m.started) || (k.started == m.started && decide (u < t)))
    | none => false
  let slab := (s.slabTiles (m.src / 64)).any fun u => before u && (match (s.tile u).move with
    | some k => k.phase != .waiting
    | none => false)
  let west := s.neighbour t 2
  slab || (before west && (match (s.tile west).move with
    | some k => !k.live && (k.phase == .drain || k.phase == .copy)
    | none => false))

/-- Only matrix steps, which stopped with the tile, are still pending on it (24 Table 24.3). -/
def Tile.onlySteps (t : Tile) : Bool :=
  t.slots.all fun e => e.2.vpend.isEmpty && e.2.pend.all fun p => match p.job with
    | .mstep .. => true
    | _ => false

/-- The destination a stop sequence takes: one that has found none waits until a gap next becomes SPARE (24 R385, R393). -/
def State.stopGap (s : State) (m : Move) : Option Nat :=
  if m.phase = .waiting then (s.coolSpare (m.src / 64)).or (listMin (fun p => (s.ptile p).reading * 4096 + p) (s.spares (m.src / 64)))
  else s.stopDest m.src m.why

/-- STOP_DRAIN_END (24 Table 24.3, R385, R392, R393): the issued instructions are complete and a destination is chosen. -/
def execStopDrainEnd (tile : Nat) (s : State) : Host.Outcome State Fault Refusal :=
  .next <|
    let x := s.tile tile
    match x.move with
    | none => s
    | some m =>
      if x.stopped = false ∨ (m.phase ≠ .drain ∧ m.phase ≠ .waiting) ∨ x.onlySteps = false ∨ s.wavesStopped tile = false ∨
          s.stopBlocked tile m = true then s
      else
        match s.stopGap m with
        | none =>
          if m.why = .retire then
            (s.modPtile m.src fun p => p.retire).makeVacant tile 10
          else s.modTile tile fun x => { x with move := some { m with phase := .waiting } }
        | some dst =>
          let bytes := if m.live then x.copyBytes x.reservedLines.length else s.rollbackBytes tile
          let s := if dst = m.src then s else (s.modPtile dst fun p => { p with testing := false }).wantWake (clusterOf dst)
          s.modTile tile fun x => { x with move := some { m with dst := dst, phase := .copy, due := s.now + 1 + (bytes + 63) / 64 } }

/-- The newest screening record of a physical tile, in the module log, names the live path: the rollback it named has failed (24 R377,
Table 24.4). -/
def State.recordLive (s : State) (pt : Nat) : State :=
  let mine (r : FaultRec) : Bool := r.cls == 10 && (r.cause == 1 || r.cause == 2) && r.slab == pt / 64 && r.ptile == pt % 64
  match s.flog.reverse.findIdx? mine with
  | some i =>
    let k := s.flog.length - 1 - i
    { s with flog := s.flog.mapIdx fun j r => if j = k then { r with aux := r.aux ||| 1 } else r }
  | none => s

/-- STOP_COPY_END (24 Tables 24.3, 24.4): an error in the image turns a rollback into the live path. -/
def execStopCopyEnd (tile : Nat) (poisoned : Bool) (s : State) : Host.Outcome State Fault Refusal :=
  .next <|
    let x := s.tile tile
    match x.move with
    | none => s
    | some m =>
      if x.stopped = false ∨ m.phase ≠ .copy ∨ s.now < m.due then s
      else if poisoned && !m.live then
        ((s.recordLive m.src).loseImage tile).modTile tile fun x =>
          { x with move := some { m with live := true, due := s.now + (x.copyBytes x.reservedLines.length + 63) / 64 } }
      else s.modTile tile fun x => { x with move := some { m with phase := .remap, due := s.now + 1800 } }

/-- STOP_REMAP_END (24 Table 24.3): on the rollback path the run from the boundary to the stop's offset follows. -/
def execStopRemapEnd (tile : Nat) (s : State) : Host.Outcome State Fault Refusal :=
  .next <|
    let x := s.tile tile
    match x.move with
    | none => s
    | some m =>
      if x.stopped = false ∨ m.phase ≠ .remap ∨ s.now < m.due then s
      else
        let m' := if m.live then { m with phase := .resume }
          else { m with phase := .run, due := s.now + (m.started - x.boundary) }
        (s.remap tile m).modTile tile fun x => { x with move := some m' }

/-- STOP_REPLAY_END (24 R383, R386): at the stop's offset the destination stands in the state that the boundary and the log fix: that in
which the source stopped, without what undetected faults and errors of its storage had left in it, and runs live from there (09 R191;
log 36). -/
def execStopReplayEnd (tile : Nat) (s : State) : Host.Outcome State Fault Refusal :=
  .next <|
    let x := s.tile tile
    match x.move with
    | none => s
    | some m =>
      if x.stopped = false ∨ m.phase ≠ .run ∨ s.now < m.due then s
      else s.modTile tile fun x =>
        { x with move := some { m with phase := .resume }, mx := { x.mx.righted with slips := [] }, poison := [] }

/-- A trip of the destination during the run phase: the sequence starts again on a new one (24 Table 24.4). -/
def State.stopAgain (s : State) (t : Nat) (why : MoveWhy) : State :=
  match (s.tile t).move with
  | some m =>
    if (s.tile t).stopped = true ∧ m.phase = .run then
      (s.leaveSource m).modTile t fun x => { x with move := some { m with why := why, src := m.dst, phase := .drain } }
    else s.startStop t why
  | none => s.startStop t why

/-- An automatic boundary is called for (24 R382). -/
def Tile.wantsBoundary (t : Tile) (now : Nat) : Bool :=
  decide (t.boundary + 1125000 ≤ now) || decide (262144 < t.image.used + 16 * (t.log.length + 1))

/-- AUTO_BOUNDARY (24 R382): every context captured at one position 0; one that does not fit leaves the tile uncovered. -/
def execAutoBoundary (tile : Nat) (s : State) : Host.Outcome State Fault Refusal :=
  .next <|
    let x := s.tile tile
    if x.running = false ∨ x.wantsBoundary s.now = false ∨ s.posOf tile ≠ 0 then s
    else
      match s.boundary tile fun _ => true with
      | (s', _, true) => s'
      | (s', _, false) => s'.modTile tile fun x => { x with covered := false }

/-- SELFTEST_DONE (24 R388, R389, R391; 14 R284): a failed router fails the test, too. The margin, FLAG, EOL and role of a RESTING tile. A pass makes it SPARE at
once where four others rest or no gap is SPARE; otherwise at the slab's next rest step. -/
def execSelftestDone (pt : Nat) (pass routerFailed : Bool) (marg : Nat) (s : State) : Host.Outcome State Fault Refusal :=
  .next <|
    let p := s.ptile pt
    if p.role ≠ .resting ∨ p.testing = false ∨ p.gated = true then s
    else
      let pass := pass && !routerFailed
      let age := p.age.tested pass marg
      let p := { p with testing := false, age := age, routerDown := p.routerDown || routerFailed }
      if pass then
        let resting := ((s.gaps (pt / 64)).filter fun q => (s.ptile q).role == .resting).length
        let s := s.setPtile pt (if 4 < resting then { p with role := .spare } else p)
        let s := if marg % 65536 < 40 then s.record (s.physRec 11 0 2 pt) else s
        s.refillSpares (pt / 64)
      else ((s.setPtile pt p.retire).record (s.physRec 11 0 1 pt)).refillSpares (pt / 64)

/-- AGEING_HOURLY (24 R388, R389): the hour's weight; STRH of a tile that serves grows by it; SMIS keeps the last 24 hours. -/
def execAgeingHourly (pt quarters : Nat) (s : State) : Host.Outcome State Fault Refusal :=
  .next <| s.modPtile pt fun p =>
    let w := stressWeight quarters
    let a := { p.age with smis := p.age.recent s.now, lastW := w }
    if p.role = .serving then
      let n := a.frac + w
      { p with age := { a with strh := min (a.strh + n / 2 ^ 32) 0xFFFFFFFF, frac := n % 2 ^ 32 } }
    else { p with age := a }

end Sys2Proof.Machine
end

