-- ==== Sys2Proof/Machine/Power.lean ====
section
/-! DEFINITION. Token refill and inrush tokens (13 R264, R267), cluster gating (13 R275, R276) and thermal bands
(15 R315; 24 R393). -/

namespace Sys2Proof.Machine

/-- TOKEN_REFILL (13 R264, R265). -/
def execTokenRefill (cl : Nat) (s : State) : Host.Outcome State Fault Refusal := .next (s.refillTokens cl)

/-- Order of inrush requests (13 R267): effective priority, cycle of request, cluster, kind, tile or shelf index. -/
def State.wakeKey (s : State) (r : WakeReq) : Nat :=
  let eff := min 3 (r.base + (s.now - r.at_) / 112500)
  let k := match r.what with
    | .cluster cl => cl * 1024
    | .band t b => (s.cluster t * 4 + 1) * 256 + idxInCluster (s.phys t) * 4 + b
    | .engine cl e => (cl * 4 + 2) * 256 + e
  ((3 - eff) * 2 ^ 64 + r.at_) * 2 ^ 20 + k

/-- The wake begins in the cycle of its grant (13 R267, R275; 10 R196). -/
def State.beginWake (s : State) (what : WakeOf) : State :=
  match what with
  | .cluster cl => s.modClu cl fun c => { c with pow := .waking }
  | .band _ _ => s
  | .engine cl e =>
    let h := (s.eng cl e).holder
    let s := s.modEng cl e fun g => { g with pow := .waking }
    match h with
    | some (w, k) => s.modBind w k fun b => { b with st := .waking, eng := e }
    | none => s

/-- INRUSH_GRANT (13 R267): a free token goes to the first request in order. -/
def execInrushGrant (slab : Nat) (s : State) : Host.Outcome State Fault Refusal :=
  .next <|
    let b := s.slab slab
    if b.tokens = 0 then s
    else
      match listMin s.wakeKey (b.wakes.filter fun r => r.granted.isNone) with
      | none => s
      | some r =>
        (s.modSlab slab fun b =>
          { b with tokens := b.tokens - 1
                   wakes := b.wakes.map fun q => if q = r then { q with granted := some s.now } else q }).beginWake r.what

/-- The idle condition of a cluster (13 Table 13.5). -/
def State.clusterIdle (s : State) (cl : Nat) : Bool :=
  let c := s.clu cl
  c.hoist.isEmpty && c.owl.isEmpty && (c.engines.toList.all fun e => e.pow == .off) &&
    (s.served cl).all fun t =>
      (s.tile t).chainIds.isEmpty && (s.tile t).runq.isEmpty && (s.tile t).slots.all fun e =>
        (e.2.st == .idle && e.2.claimed.isNone) || e.2.st == .out || e.2.st == .halt

/-- CLUSTER_GATE (13 R275): the condition is seen to hold, and 225,000 cycles later, with nothing issued since, the
registers begin to be spilled. -/
def execClusterGate (cl : Nat) (s : State) : Host.Outcome State Fault Refusal :=
  .next <|
    let c := s.clu cl
    if c.pow ≠ .on then s
    else if s.clusterIdle cl = false then s.modClu cl fun c => { c with idleAt := none }
    else
      match c.idleAt with
      | none => s.modClu cl fun c => { c with idleAt := some s.now }
      | some t =>
        if (s.served cl).any fun u => (s.tile u).slots.any fun e => decide (t < e.2.lastIssue) then
          s.modClu cl fun c => { c with idleAt := some s.now }
        else if s.now < t + 225000 then s
        else s.modClu cl fun c => { c with pow := .gating, idleAt := none, wakeWanted := false }

/-- GATING_SPILL_DONE (13 R275, R276): GATED, the bucket full; a wake event in the meantime asks for its wake now. -/
def execGatingSpillDone (cl : Nat) (s : State) : Host.Outcome State Fault Refusal :=
  .next <|
    let c := s.clu cl
    if c.pow ≠ .gating then s
    else
      let s := s.modClu cl fun c => { c with pow := .gated, bal := c.cap, filled := s.now + 1, wakeWanted := false }
      if c.wakeWanted then s.wantWake cl else s

/-- CLUSTER_WAKE_HOLD_END (13 R267, R275): after 2,250 cycles the token returns and the restore begins. -/
def execClusterWakeHoldEnd (cl : Nat) (s : State) : Host.Outcome State Fault Refusal :=
  .next <|
    match (s.slab (cl / 4)).wakes.find? fun r => r.what == WakeOf.cluster cl with
    | some ⟨_, _, _, some g⟩ =>
      if s.now < g + 2250 then s
      else
        (s.modSlab (cl / 4) fun b =>
          { b with tokens := b.tokens + 1, wakes := b.wakes.filter fun r => r.what != WakeOf.cluster cl }).modClu cl fun c =>
            { c with pow := .restoring, idleAt := some s.now }
    | _ => s

/-- CLUSTER_RESTORE_DONE (13 R275): 600 cycles later the cluster is ON. -/
def execClusterRestoreDone (cl : Nat) (s : State) : Host.Outcome State Fault Refusal :=
  .next <|
    let c := s.clu cl
    match c.pow, c.idleAt with
    | .restoring, some t => if s.now < t + 600 then s else s.modClu cl fun c => { c with pow := .on, idleAt := none }
    | _, _ => s

/-- Threshold of a band, in quarter degrees (15 Table 15.9). -/
def bandAbove : Nat → Nat
  | 1 => 380
  | 2 => 420
  | 3 => 460
  | _ => 0

/-- The band a reading calls for. -/
def bandFor (q : Nat) : Nat := if 460 ≤ q then 3 else if 420 ≤ q then 2 else if 380 ≤ q then 1 else 0

/-- The band after a sample (15 R315). -/
def PTile.nextBand (p : PTile) (now q : Nat) : Nat :=
  let want := bandFor q
  match p.bandAt with
  | none => want
  | some t =>
    let b := if p.band < want then want else if want < p.band ∧ q + 12 ≤ bandAbove p.band then want else p.band
    if b = p.band then b else if b = 3 ∨ t + 225000 ≤ now then b else p.band

/-- Migration notices to the persistent tasks of a tile (15 Table 15.9). -/
def State.giveNotice (s : State) (t : Nat) : State :=
  s.modTile t fun x =>
    { x with slots := x.slots.map fun (e : Nat × Slot) => if e.2.pers then (e.1, { e.2 with notice := true }) else e }

/-- Entry to TRIP (24 R393, R388): the record, the ageing record, the power gate and the stop. -/
def State.trip (s : State) (pt : Nat) : State :=
  let s := s.modPtile pt fun p =>
    { p with gated := true, age := { p.age with strh := min (p.age.strh + 100) 0xFFFFFFFF, flag := true } }
  let v := if (s.ptile pt).role = .serving then s.virtOf pt else none
  match v with
  | some t => (s.record (s.mkRec 12 1 6 noCtx t 0 1 0 0 0)).stopAgain t .trip
  | none => s.record (s.physRec 12 1 1 pt)

/-- A tile cooled to 80 degrees after a trip is RESTING and tested in full (24 R393). -/
def State.coolDown (s : State) (pt q : Nat) : State :=
  s.modPtile pt fun p =>
    if p.gated = false ∨ 320 < q then p
    else if p.role = .serving ∨ p.role = .retired ∨ p.role = .offline then { p with gated := false }
    else { p with gated := false, role := .resting, testing := true, since := s.now }

/-- THERMAL_SAMPLE (15 R315; 14 Table 14.1, Return; 24 R393): at most one in 2,250 cycles. -/
def execThermalSample (pt quarters : Nat) (s : State) : Host.Outcome State Fault Refusal :=
  .next <|
    let p := s.ptile pt
    if ((p.sampledAt.map fun t => decide (s.now < t + 2250)).getD false) then s
    else
    let b := p.nextBand s.now quarters
    let changed := b != p.band || p.bandAt.isNone
    let s := s.refillTokens (clusterOf pt)
    let s := (s.modPtile pt fun p =>
      { p with reading := quarters, sampledAt := some s.now, band := b, bandAt := if changed then some s.now else p.bandAt }).coolDown pt quarters
    if changed = false then s
    else
      let s := match s.virtOf pt with
        | some t => if 1 ≤ b ∧ (s.ptile pt).role = .serving then s.giveNotice t else s
        | none => s
      if b = 3 then s.trip pt
      else if b = 0 ∧ p.band ≠ 0 ∧ (s.ptile pt).role = .spare ∧ s.bearBusy (pt / 64) = false then
        match s.findReturn ((s.slabTiles (pt / 64)).filter fun v => tx v % 8 == pt % 8) with
        | some (v, g) => s.startMove v .ret g
        | none => s
      else s

end Sys2Proof.Machine
end

