-- ==== Sys2Proof/Machine/HostPort.lean ====
section
/-! DEFINITION. The host port (15 R298 to R301, R313), launch records as it checks them (13 R256) and the management plane
(log 17; 21 Table 21.4). -/

namespace Sys2Proof.Machine

/-- Fields of a host message header (15 Table 15.1). -/
def hdrType (h : HostHdr) : Nat := bits h.w0.toNat 63 56
def hdrCtx (h : HostHdr) : Nat := bits h.w0.toNat 47 36
def hdrTag (h : HostHdr) : Nat := bits h.w0.toNat 31 0
def hdrLen (h : HostHdr) : Nat := bits h.w2.toNat 16 0

/-- Reply statuses (15 Table 15.3). -/
abbrev rOK : Nat := 0
abbrev rBADREC : Nat := 1
abbrev rNOCTX : Nat := 2
abbrev rQFULL : Nat := 3
abbrev rFAULT : Nat := 4
abbrev rREFUSED : Nat := 5
abbrev rBADREQ : Nat := 6

/-- The header of a reply: TYPE + 0x80, the status, CTX and TAG of the request; of a WRITE or READ its ADDR; LEN that of the payload
(15 Table 15.1; log 81). -/
def replyHdr (h : HostHdr) (status len : Nat) : HostHdr :=
  { w0 := wd ((hdrType h + 0x80) % 256 * 2 ^ 56 + status * 2 ^ 48 + hdrCtx h * 2 ^ 36 + hdrTag h)
    w1 := if hdrType h = 2 ∨ hdrType h = 3 then h.w1 else 0
    w2 := wd len, w3 := 0 }

/-- A reply to a request (15 R299). -/
def State.reply (s : State) (h : HostHdr) (status : Nat) (data : List Byte) : State :=
  { s with replies := s.replies ++ [.host (replyHdr h status data.length) data] }

/-- A header with reserved bits set, another TYPE or a length out of range (15 Table 15.3). -/
def hdrBad (h : HostHdr) (type : Nat) : Bool :=
  hdrType h != type || bits h.w0.toNat 55 48 != 0 || bits h.w0.toNat 35 32 != 0 || bits h.w2.toNat 63 17 != 0 || h.w3 != 0 ||
    hdrLen h == 0 || decide (65536 < hdrLen h)

/-- A context that host requests may name (15 Table 15.3; 21 Table 21.5 step 1). -/
def State.ctxLive (s : State) (c : Nat) : Bool := (s.ctxOf c).isOpen && !(s.ctxOf c).dying

/-- Fields of a launch record (13 Table 13.1). -/
def lCtx (r : List Word) : Nat := bits (r.getD 0 0).toNat 63 52
def lPrio (r : List Word) : Nat := bits (r.getD 0 0).toNat 51 50
def lPlc (r : List Word) : Nat := bits (r.getD 0 0).toNat 49 48
def lTcl (r : List Word) : Nat := bits (r.getD 0 0).toNat 47 46
def lPers (r : List Word) : Bool := bitOf (r.getD 0 0).toNat 45
def lIdx (r : List Word) : Bool := bitOf (r.getD 0 0).toNat 44
def lNdep (r : List Word) : Nat := bits (r.getD 0 0).toNat 34 32
def lCount (r : List Word) : Nat := bits (r.getD 0 0).toNat 19 0
def lKdesc (r : List Word) : Word := r.getD 1 0
def lRetw (r : List Word) : Word := r.getD 3 0

/-- A slab that serves virtual rows (14 R296). -/
def State.advertises (s : State) (slab : Nat) : Bool := (s.slab slab).booted && decide (0 < s.caps.hs.getD (slab / 6) 0)

/-- The target of a record within the advertised module (13 Table 13.1). -/
def State.targetOk (s : State) (r : List Word) : Bool :=
  let v := (r.getD 2 0).toNat
  match lPlc r with
  | 0 => decide (bits v 5 0 < 48) && decide (bits v 21 16 < s.caps.height)
  | 1 => decide (bits v 7 0 < 192) && s.advertises (bits v 7 0 / 4)
  | 2 => decide (bits v 4 0 < 24) && (List.range 48).any fun k => stackOf k == bits v 4 0 && s.advertises k
  | _ => true

/-- A record that breaks a condition of Table 13.1 (13 R256). -/
def State.badLaunch (s : State) (ctx : Nat) (r : List Word) : Bool :=
  let w0 := (r.getD 0 0).toNat
  lCtx r != ctx || bits w0 43 35 != 0 || decide (5 ≤ lNdep r) || bits w0 31 20 != 0 || lCount r == 0 ||
    modeOf (lKdesc r) != 0 || (lKdesc r).toNat % 64 != 0 || (lRetw r).toNat % 8 != 0 || !s.targetOk r

/-- HOST_LAUNCH (13 R256; 15 R300): the first status that applies, or the record at the end of its context's queue. -/
def execHostLaunch (h : HostHdr) (rec : List Word) (s : State) : Host.Outcome State Fault Refusal :=
  .next <|
    let c := hdrCtx h
    if s.ready = false then s
    else if s.recovery then s.reply h rREFUSED []
    else if hdrBad h 1 ∨ h.w1 ≠ 0 ∨ hdrLen h ≠ 192 ∨ rec.length ≠ 24 then s.reply h rBADREQ []
    else if s.ctxLive c = false then s.reply h rNOCTX []
    else if (s.ctxOf c).queueFrozen then s.reply h rREFUSED []
    else if s.badLaunch c rec then s.reply h rBADREC []
    else if 256 ≤ (s.ctxOf c).queue.length then s.reply h rQFULL []
    else
      (s.modCtx c fun x => { x with queue := x.queue ++ [⟨rec, List.replicate (lNdep rec) false, 0⟩] }).reply h rOK []

/-- The host queue of a context frozen, with its record, and the request answered FAULT (21 Table 21.4). -/
def State.freezeQueueWith (s : State) (h : HostHdr) (r : FaultRec) : State :=
  ((s.modCtx (hdrCtx h) fun x => { x with queueFrozen := true }).record r).reply h rFAULT []

/-- A host access that meets a translation or permission fault (21 Table 21.4). -/
def State.freezeQueue (s : State) (h : HostHdr) (cause : Nat) : State :=
  s.freezeQueueWith h { s.unitRec 2 2 5 (hdrCtx h) h.w1 with cause := cause, aux := h.w1 }

/-- What is kept of a request of the host port to another module that has failed, in place of its transaction code: refused, or not answered
within 10 ms (23 R376). -/
abbrev podRefused : Nat := 0
abbrev podSilent : Nat := 255

/-- The checks a WRITE and a READ share: a status, or the parts of the range (15 R300). -/
def State.hostRange (s : State) (h : HostHdr) (type : Nat) (need : Need) : Except Nat (Except Nat (List Part)) :=
  let c := hdrCtx h
  if s.recovery then .error rREFUSED
  else if hdrBad h type ∨ hdrLen h % 8 ≠ 0 ∨ h.w1.toNat % 8 ≠ 0 then .error rBADREQ
  else if s.ctxLive c = false then .error rNOCTX
  else if (s.ctxOf c).queueFrozen then .error rREFUSED
  else .ok (s.tableParts c need (pieces (hdrLen h) h.w1.toNat (hdrLen h)))

/-- The requests of the module's own units to other modules that are out, by the number of what asks for them (15 R303, R304). -/
def State.askedPods (s : State) (n ctx : Nat) : List PodFlight := s.pods.filter fun f => f.by_ == .module && f.seq == n && f.ctx == ctx

/-- Those of a host message, by its type and tag. -/
def State.hostPods (s : State) (h : HostHdr) : List PodFlight := s.askedPods (hdrType h * 2 ^ 32 + hdrTag h) (hdrCtx h)

/-- What a host access does at its places. A message that has to wait, for an overflow record, room in a deduplication table, a port or
the replies of another module, stays at the host port and is taken again (11 R231; 15 R303; 23 R374, R375); one that a module refuses
freezes the queue (21 Table 21.4; 23 R376). -/
def State.hostAccess (s : State) (h : HostHdr) (need : Need) (ps : List Part) (done : State → State) : State :=
  let mine := s.hostPods h
  let gone : State := { s with pods := s.pods.filter fun f => !mine.contains f }
  if s.poisoned ps then (gone.poisonHit ps).reply h rFAULT []
  else if mine.any fun f => f.code == podRefused then gone.freezeQueue h cProtection
  else if mine.any fun f => f.code == podSilent then
    gone.freezeQueueWith h { s.unitRec 9 2 5 (hdrCtx h) (wd ((mine.head?.map fun f => f.pa).getD 0)) with cause := 4, aux := h.w1 }
  else if ps.any s.podClosed || (need == .write && s.writeHeld ps) then s
  else if hasPod ps && mine.isEmpty then
    s.addPodBy .module 0 (hdrType h * 2 ^ 32 + hdrTag h) (hdrCtx h) 0 (if need = .write then 2 else 1) 0 h.w1 ps
  else if mine.any fun f => decide (s.now < f.firstAt + 1125) then s
  else done gone

/-- HOST_WRITE (15 R300, R301): every part is performed before the reply; nothing is written over a poisoned word (23 R363). -/
def execHostWrite (h : HostHdr) (data : List Byte) (s : State) : Host.Outcome State Fault Refusal :=
  .next <|
    if s.ready = false then s
    else if s.recovery = false ∧ data.length ≠ hdrLen h then s.reply h rBADREQ []
    else
      match s.hostRange h 2 .write with
      | .error st => s.reply h st []
      | .ok (.error cause) => s.freezeQueue h cause
      | .ok (.ok ps) => s.hostAccess h .write ps fun s => ((s.putParts ps data).touchWrites ps 0).reply h rOK []

/-- HOST_READ (15 R300, R301). -/
def execHostRead (h : HostHdr) (s : State) : Host.Outcome State Fault Refusal :=
  .next <|
    if s.ready = false then s
    else
      match s.hostRange h 3 .read with
      | .error st => s.reply h st []
      | .ok (.error cause) => s.freezeQueue h cause
      | .ok (.ok ps) => s.hostAccess h .read ps fun s => s.reply h rOK (s.getParts ps)

/-- Reply of the management plane, with the boot ROM's record where one is kept (24 R394). -/
def State.mgmtReply (s : State) (h : HostHdr) (status : Nat) (data : List Byte) : State :=
  match s.bootRec with
  | some r => ({ s with bootRec := none } : State).reply h status (r.toBytes ++ data)
  | none => s.reply h status data

/-- Every request in recovery mode is refused; the job the configuration names gets the boot ROM's record with it (15 R312; 24 R394). -/
def State.refuseMgmt (s : State) (h : HostHdr) (named : Bool) : State :=
  if named then s.mgmtReply h rREFUSED [] else s.reply h rREFUSED []

/-- Whether some mapping of a frame of HBM shares a line with a page. -/
def sharesFrame (p q : Page) : Bool :=
  (match q.plc with
    | .pod _ => false
    | _ => true) && decide (q.pa < p.pa + 2 ^ p.lg ∧ p.pa < q.pa + 2 ^ q.lg)

/-- A mapping the page tables may take (11 R225, R228, R229, R232; 15 R303, R314; 21 R345; log 17): a REPL page is writable in no
context, and of a MOD page the slice list has the D entries. -/
def State.mappable (s : State) (p : Page) : Bool :=
  let n := 2 ^ p.lg
  (p.lg == 16 || p.lg == 21 || p.lg == 30) && p.va % n == 0 && p.pa % n == 0 && decide (p.va + n ≤ capVa) &&
    decide (p.pa + n ≤ 24 * 2 ^ 36) && s.ctxLive p.ctx &&
    !(s.pages.any fun q => q.ctx == p.ctx && decide (q.va < p.va + n ∧ p.va < q.va + 2 ^ q.lg)) &&
    (match p.plc with
      | .pod m => decide (m < 9216) && m != s.caps.moduleNo
      | plc => !((s.quarantine ++ s.withdrawn).any fun k => decide (p.pa ≤ k * 65536 ∧ k * 65536 < p.pa + n)) &&
          (match plc with
            | .repl => !p.w && !(s.pages.any fun q => q.w && sharesFrame p q)
            | .mod d => decide (1 ≤ d ∧ d ≤ s.sliceList.length) && !(p.w && s.pages.any fun q => q.plc == .repl && sharesFrame p q)
            | _ => !(p.w && s.pages.any fun q => q.plc == .repl && sharesFrame p q)))

/-- The ageing record as MGMT reads it (15 Table 15.11). -/
def Ageing.toBytes (a : Ageing) (now : Nat) : List Byte :=
  leBytes 8 (a.strh * 2 ^ 32 + a.corr) ++
  leBytes 8 (min (a.recent now).length 0xFFFF * 2 ^ 48 + a.smtot * 2 ^ 32 + a.marg * 2 ^ 16 + (if a.flag then 2 else 0) +
    if a.ret then 1 else 0) ++
  leBytes 8 (a.eol * 2 ^ 32) ++ leBytes 8 0

/-- Retry bursts that count: those that began in the last 2,250,000 cycles, and while the module falls back or retrains the three that did
when it began to (23 R374). -/
def Link.window (l : Link) (now : Nat) : List Nat :=
  if l.falls.isSome ∨ l.state = 2 then l.bursts else l.bursts.filter fun t => decide (now < t + 2250000)

/-- `lnkst` of an end of a link module (23 Table 23.4). -/
def Link.status (l : Link) (now e : Nat) : Word :=
  let q := vget l.ends e ⟨0, [], 0, 0, 0, false, []⟩
  wd (q.txseq % 65536 * 2 ^ 48 + q.held.headD q.txseq % 65536 * 2 ^ 32 + min q.replays 65535 * 2 ^ 16 + min q.crcerr 255 * 2 ^ 8 +
    min (l.window now).length 3 * 2 ^ 4 + l.state)

/-- The fault records of a reply from the n-th of the log on: as many as fit with what stands before them in the 65,536 bytes of a reply,
each with what is kept beside it (15 Table 15.1; log 17). -/
def logReply : Nat → List FaultRec → List Byte
  | _, [] => []
  | room, r :: rs =>
    let bs := r.toBytes ++ r.dump.flatMap fun v => leBytes 8 v.toNat
    if bs.length ≤ room then bs ++ logReply (room - bs.length) rs else []

/-- A REPL mapping changed: the copies that slices hold of it stay until a `tlbi` reaches it (11 R228). -/
def State.leaveRepl (s : State) (ps : List Page) : State := { s with oldRepl := s.oldRepl ++ ps.filter fun p => p.plc == .repl }

/-- Key of a stream class: port and VLAN (15 R306). -/
def classKey (port : Nat) (vlan : Option Nat) : Nat := port * 4097 + (match vlan with
  | some v => v % 4096 + 1
  | none => 0)

/-- `pbkt` as the management plane reads it (13 Table 13.3). -/
def Cluster.bucketWord (c : Cluster) : Word := wd (c.cap * 2 ^ 48 + c.rsv * 2 ^ 32 + c.bal * 2 ^ 16 + c.fill)

/-- A frozen engine put back into service (21 Table 21.4): a binding that still names it is EVICTED from then on, and pops go on
giving its token (log 35). -/
def State.releaseEngine (s : State) (cl e : Nat) : State :=
  match (s.eng cl e).frozen, (s.eng cl e).holder with
  | none, _ => s
  | some _, none => s.modEng cl e fun g => { g with frozen := none }
  | some _, some (w, k) =>
    (s.modBind w k fun b => { b with st := .evicted }).modEng cl e fun g => { g with frozen := none, holder := none }

/-- What a management request does, with its status and reply bytes (log 17). -/
def State.manage (s : State) : MgmtReq → State × Nat × List Byte
  | .openCtx c =>
    if 4096 ≤ c ∨ (s.ctxOf c).isOpen then (s, rBADREQ, []) else (s.modCtx c fun _ => { Ctx.cold with isOpen := true }, rOK, [])
  | .mapPage p => if s.mappable p then ({ s with pages := s.pages ++ [p] }, rOK, []) else (s, rBADREQ, [])
  | .unmapPage c va =>
    ({ s.leaveRepl (s.pages.filter fun p => pageMaps p c va) with pages := s.pages.filter fun p => !pageMaps p c va }, rOK, [])
  | .faultRing c base n =>
    if n = 0 then (s, rBADREQ, [])
    else if s.ctxLive c then (s.modCtx c fun x => { x with ring := some ⟨base, n, true⟩ }, rOK, []) else (s, rNOCTX, [])
  | .teardownCtx c =>
    if s.ctxLive c then (s.startTeardown c (some (s.unitRec 0 3 0 c 0)), rOK, []) else (s, rNOCTX, [])
  | .releaseEngine cl e => (s.releaseEngine cl e, rOK, [])
  | .releaseChannel t ch => (s.modChan t ch fun c => { c with frozen := none }, rOK, [])
  | .releaseQueue c => (s.modCtx c fun x => { x with queueFrozen := false }, rOK, [])
  | .bucket cl cap rsv fill =>
    let cap := max 64 (cap % 65536)
    ((s.refillTokens cl).modClu cl fun c =>
      { c with cap := cap, rsv := min cap (rsv % 65536), fill := fill % 256, bal := min cap c.bal }, rOK, [])
  | .ring k ws =>
    let cfg := ws.getD 1 0 &&& 0xFFFFFF03FF00001F
    ({ s with rings := kvSet s.rings (k % 1024) ⟨ws.getD 0 0, cfg, (kvGet s.rings (k % 1024) ⟨0, 0, []⟩).lens⟩ }, rOK, [])
  | .key k key salt => ({ s with keys := kvSet s.keys (k % 4096) (key, salt) }, rOK, [])
  | .classify port vlan k =>
    let cs := kvSet s.classes (classKey port vlan) (k % 1024)
    if 12 < port ∨ 1024 < cs.length then (s, rBADREQ, []) else ({ s with classes := cs }, rOK, [])
  | .exportPage pa =>
    if (s.quarantine ++ s.withdrawn).contains (pa / 65536) then (s, rBADREQ, [])
    else ({ s with exports := if s.exports.contains (pa / 65536) then s.exports else s.exports ++ [pa / 65536] }, rOK, [])
  | .route m port =>
    if 9216 ≤ m ∨ port = 0 ∨ 12 < port then (s, rBADREQ, []) else ({ s with routes := kvSet s.routes m port }, rOK, [])
  | .wakeCluster cl => (s.wantWake cl, rOK, [])
  | .invalidate c va => (s.invalidateModule c (some va), rOK, [])
  | .shadowPool n => ({ s with shadowPool := n }, rOK, [])
  | .readAgeing pt => (s, rOK, (s.ptile pt).age.toBytes s.now)
  | .readLink k => (s, rOK, leBytes 8 ((s.link (k / 2)).status s.now (k % 2)).toNat)
  | .readLog n => (s, rOK, leBytes 8 s.flost ++ logReply (65536 - 8 - 64) (s.flog.drop n))
  | .readBucket cl =>
    let s := s.refillTokens cl
    (s, rOK, leBytes 8 (s.clu cl).bucketWord.toNat)
  | .readCaps => (s, rOK, (List.range 1019).flatMap fun n => leBytes 8 (s.capWord n))
  | .slices cls =>
    let fits : Bool := s.pages.all fun p => match p.plc with
      | .mod d => decide (d ≤ cls.length)
      | _ => true
    if 1 ≤ cls.length ∧ cls.length ≤ 192 ∧ cls.all (fun c => decide (c < 192)) = true ∧ fits = true then ({ s with slices := cls }, rOK, []) else (s, rBADREQ, [])

/-- HOST_MGMT (15 R300, R312; log 17). -/
def execHostMgmt (h : HostHdr) (named : Bool) (req : MgmtReq) (s : State) : Host.Outcome State Fault Refusal :=
  .next <|
    if s.ready = false then s
    else if s.recovery then s.refuseMgmt h named
    else if hdrBad h 4 then s.reply h rBADREQ []
    else if named = false then s.reply h rREFUSED []
    else
      let r := s.manage req
      r.1.mgmtReply h r.2.1 r.2.2

/-- The signature of the log and the nonce: 29,792 bytes (15 R313). -/
def slhSign (m : List Byte) : List Byte := (List.range 29792).map (Config.slhByte m)

/-- MGMT_QUOTE (15 R313): the attestation log and its signature with the nonce. -/
def execMgmtQuote (h : HostHdr) (named : Bool) (nonce : List Byte) (s : State) : Host.Outcome State Fault Refusal :=
  .next <|
    if s.ready = false then s
    else if s.recovery then s.refuseMgmt h named
    else if hdrBad h 4 ∨ nonce.length ≠ 32 then s.reply h rBADREQ []
    else if named = false then s.reply h rREFUSED []
    else
      let log := s.alog.flatMap fun d => leBytes 64 d.toNat
      s.mgmtReply h rOK (log ++ slhSign (log ++ nonce))

/-- A frozen thread or wave ended as `wwork` ends it (21 Table 21.4; 06 R122). -/
def State.endFrozen (s : State) (w : Who) : State :=
  match (s.slot w).wave with
  | none => s.endThread w
  | some r =>
    match s.wave? r.id with
    | none => s.endThread w
    | some v => v.live.foldl (fun s m => s.memberGone (s.memberWho v m)) s

/-- MGMT_END_TASK (21 R342, Table 21.4). -/
def execMgmtEndTask (h : HostHdr) (named : Bool) (w : Who) (s : State) : Host.Outcome State Fault Refusal :=
  .next <|
    if s.ready = false then s
    else if s.recovery then s.refuseMgmt h named
    else if hdrBad h 4 then s.reply h rBADREQ []
    else if named = false then s.reply h rREFUSED []
    else if (s.slot w).frozen then (s.endFrozen w).mgmtReply h rOK []
    else s.mgmtReply h rBADREQ []

end Sys2Proof.Machine
end

