-- ==== Sys2Proof/Machine/Keccak.lean ====
section
/-! DEFINITION. SHAKE256 with 64 bytes of output, which 15 R313 and 21 R348 name: the published standard FIPS 202 (log 80). -/

namespace Sys2Proof.Machine

/-- Round constants of the permutation. -/
def keccakRc : List Word :=
  [0x1, 0x8082, 0x800000000000808A, 0x8000000080008000, 0x808B, 0x80000001, 0x8000000080008081, 0x8000000000008009,
   0x8A, 0x88, 0x80008009, 0x8000000A] ++
  [0x8000808B, 0x800000000000008B, 0x8000000000008089, 0x8000000000008003, 0x8000000000008002, 0x8000000000000080,
   0x800A, 0x800000008000000A, 0x8000000080008081, 0x8000000000008080, 0x80000001, 0x8000000080008008]

/-- Rotation of lane (x, y), at place x + 5 y. -/
def keccakRot : List Nat :=
  [0, 1, 62, 28, 27, 36, 44, 6, 55, 20, 3, 10, 43, 25, 39, 41, 45, 15, 21, 8, 18, 2, 61, 56, 14]

/-- One round, lanes at place x + 5 y. -/
def keccakRound (a : List Word) (rc : Word) : List Word :=
  let at_ (l : List Word) (i : Nat) : Word := l.getD i 0
  let c := (List.range 5).map fun x => (List.range 5).foldl (fun v y => v ^^^ at_ a (x + 5 * y)) 0
  let d := (List.range 5).map fun x => at_ c ((x + 4) % 5) ^^^ (at_ c ((x + 1) % 5)).rotateLeft 1
  let b := (List.range 25).map fun i =>   -- lane (x, y) of pi comes from (x + 3 y, x)
    let x := i % 5
    let k := (x + 3 * (i / 5)) % 5 + 5 * x
    (at_ a k ^^^ at_ d (k % 5)).rotateLeft (keccakRot.getD k 0)
  (List.range 25).map fun i =>
    let y := i / 5 * 5
    let v := at_ b i ^^^ (~~~(at_ b ((i + 1) % 5 + y)) &&& at_ b ((i + 2) % 5 + y))
    if i = 0 then v ^^^ rc else v

/-- Keccak-f[1600]. -/
def keccakF (a : List Word) : List Word := keccakRc.foldl keccakRound a

/-- Blocks of 136 bytes absorbed; the last is padded. -/
def shakeAbsorb : Nat → List Word → List Byte → List Word
  | 0, a, _ => a
  | n + 1, a, m =>
    let last := decide (m.length < 136)
    let blk := if last then
        let p := m ++ [(0x1F : Byte)] ++ List.replicate (135 - m.length) 0
        p.take 135 ++ [p.getD 135 0 ||| 0x80]
      else m.take 136
    let a := keccakF ((List.range 25).map fun i => a.getD i 0 ^^^ BitVec.ofNat 64 (leNat ((blk.drop (8 * i)).take 8)))
    if last then a else shakeAbsorb n a (m.drop 136)

/-- The 64 bytes, the first the lowest. -/
def shake256 (m : List Byte) : BitVec 512 :=
  BitVec.ofNat 512 (leNat (((shakeAbsorb (m.length / 136 + 1) (List.replicate 25 0) m).take 8).flatMap fun v => leBytes 8 v.toNat))

end Sys2Proof.Machine
end

