-- ==== Sys2Proof/Machine/Launch.lean ====
section
/-! DEFINITION. From a launch queue to a slot: dependences, fan-out, placement, dispatch, retirement words, pre-emption and
spill (02 R37; 11 R221 to R223; 13 R257 to R262, R271 to R274; 21 R346 to R349; 23 R368). -/

namespace Sys2Proof.Machine

/-- A DISPATCH failure (23 R368). -/
def State.dispatchFail (s : State) (ctx cause : Nat) (addr aux : Word) : State :=
  s.record { s.mkRec 5 6 0 ctx 0 0 cause addr aux 0 with slab := 0, ptile := 0, cyc := s.now }

/-- Every dependence of a launch has been met (13 R258). -/
def Launch.eligible (l : Launch) : Bool := l.met.all fun b => b

/-- What reading a launch's dependence words comes to: whether each is met, the address of one that cannot be read, the places of one with
an uncorrectable error, or a wait for a walk or a port. -/
inductive Deps where
  | met (ms : List Bool)
  | fail (a : Word)
  | error (ps : List Part)
  | wait

/-- The dependence words of a launch, read by the module controller in slab 0 (13 R258; 11 R233). -/
def State.readDeps (s : State) (ctx : Nat) (l : Launch) : List Nat → Deps × State
  | [] => (.met [], s)
  | i :: rest =>
    let a := l.words.getD (14 + 2 * i) 0
    match s.slabParts 0 ctx .read (pieces 8 a.toNat 8) with
    | (.bad _, s) => (.fail a, s)
    | (.miss _, s) => (.wait, s)
    | (.ok ps _, s) =>
      if ps.any s.podClosed then (.wait, s)
      else if s.poisoned ps then (.error ps, s)
      else
        match s.readDeps ctx l rest with
        | (.met ms, s) => (.met (decide (l.words.getD (15 + 2 * i) 0 ≤ wd (leNat (s.getParts ps))) :: ms), s)
        | r => r

/-- LAUNCH_DEPENDENCE_READ (13 R258): the pairs of a waiting launch are read; an address that cannot be read fails it. -/
def execLaunchDependenceRead (ctx k : Nat) (s : State) : Host.Outcome State Fault Refusal :=
  .next <|
    match (s.ctxOf ctx).queue[k]? with
    | none => s
    | some l =>
      if l.eligible then s
      else
        match s.readDeps ctx l (List.range (lNdep l.words)) with
        | (.met ms, s) => s.modCtx ctx fun c => { c with queue := listSet c.queue k { l with met := ms, readAt := s.now } }
        | (.wait, s) => s
        | (.error ps, s) => s.poisonHit ps
        | (.fail a, s) => (s.modCtx ctx fun c => { c with queue := listDrop1 c.queue k }).dispatchFail ctx 4 a 0

/-- First eligible launch of a priority in a queue. -/
def firstAt (q : List Launch) (prio : Nat) : Option Nat := q.findIdx? fun l => l.eligible && lPrio l.words == prio

/-- The launch the fan-out unit takes next: the highest priority, then contexts in turn, in an order of its own for each
priority (13 R258). -/
def State.nextLaunch (s : State) : Option (Nat × Nat × Launch) :=
  let cs := (s.ctxs.filter fun e => e.2.isOpen && !e.2.dying).map fun e => e.1
  [3, 2, 1, 0].findSome? fun p =>
    let last := kvGet s.rrCtx p 4095
    ((cs.filter fun c => decide (last < c)) ++ cs.filter fun c => decide (c ≤ last)).findSome? fun c =>
    (firstAt (s.ctxOf c).queue p).bind fun k => ((s.ctxOf c).queue[k]?).map fun l => (c, k, l)

/-- A descriptor that R257 or R222 refuses, or a signature area that R346 does. -/
def badDesc (d : List Word) : Bool :=
  let n := bits (d.getD 1 0).toNat 3 0
  decide (8 < n) || ((List.range n).any fun i =>
    let l := (d.getD (3 + 3 * i) 0).toNat
    let o := (d.getD (4 + 3 * i) 0).toNat
    l == 0 || l % 64 != 0 || o % 64 != 0 || decide (settOff < o + l)) ||
  (bitOf (d.getD 1 0).toNat 5 && (d.getD 26 0).toNat % 64 != 0)

/-- A redundant launch (21 R346). -/
def isRed (d : List Word) : Bool := bitOf (d.getD 1 0).toNat 5

/-- The other slab of a slab's stack domain (01 R10; 21 R347). -/
def otherSlab (k : Nat) : Nat := if k / 6 % 2 = 0 then k + 6 else k - 6

/-- Tile named by a record of PLC `tile`. -/
def targetTile (r : List Word) : Nat :=
  let v := (r.getD 2 0).toNat
  tileAt (bits v 5 0) (bits v 21 16)

/-- Where the secondary copy runs: a target tile or a cluster (21 R347). -/
def State.secondary (s : State) (r : List Word) : Option (Option Nat × Nat) :=
  if lPlc r = 0 then
    let p := s.phys (targetTile r)
    (s.virtOf (64 * otherSlab (p / 64) + p % 64)).map fun t => (some t, s.cluster t)
  else
    let cl := bits (r.getD 2 0).toNat 7 0
    some (none, 4 * otherSlab (cl / 4) + cl % 4)

/-- Hoists of a record's placement extent (13 R259). -/
def State.extent (s : State) (r : List Word) : List Nat :=
  let v := (r.getD 2 0).toNat
  let up := (List.range 192).filter fun c => s.advertises (c / 4)
  match lPlc r with
  | 0 => [s.cluster (targetTile r)]
  | 1 => [bits v 7 0]
  | 2 => up.filter fun c => stackOf (c / 4) == bits v 4 0
  | _ => up

/-- The Hoist with the most free record entries, the lowest cluster on a tie. -/
def State.roomiest (s : State) (cls : List Nat) : Option Nat :=
  (listMin (fun c => (s.clu c).hoist.length * 256 + c) cls).filter fun c => decide ((s.clu c).hoist.length < 64)

/-- Task record i of a launch (13 R257, R259). -/
def taskRec (w d : List Word) (i : Nat) (target : Option Nat) (now : Nat) (red : Option (Nat × Nat)) : TaskRec :=
  let n := bits (d.getD 1 0).toNat 3 0
  let args := (List.range 8).map fun k => w.getD (6 + k) 0
  { ctx := lCtx w, prio := lPrio w, tcl := lTcl w, pers := lPers w, wave := bitOf (d.getD 1 0).toNat 4
    entry := wordAligned (d.getD 0 0)
    args := if lIdx w then listSet args 7 (wd i) else args
    ranges := (List.range n).map fun k =>
      let g := d.getD (2 + 3 * k) 0
      let g' := if g = 0 then 0 else g + w.getD 4 0 + wd i * w.getD 5 0
      (g'.toNat, (d.getD (3 + 3 * k) 0).toNat, (d.getD (4 + 3 * k) 0).toNat)
    retw := lRetw w, index := i, target := target, arrived := now, kdesc := lKdesc w, red := red }

/-- A record handed to a Hoist, which asks for its cluster (13 R259, R276). -/
def State.handOver (s : State) (cl : Nat) (r : TaskRec) : State :=
  (s.modClu cl fun c => { c with hoist := c.hoist ++ [r] }).wantWake cl

/-- The next record, or pair of records, of the launch at the fan-out unit (13 R259; 21 R347). -/
def State.fanNext (s : State) (f : Fan) : State :=
  let tgt := if lPlc f.words = 0 then some (targetTile f.words) else none
  let done := f.next + 1 = lCount f.words
  let step (s : State) : State := { s with fan := if done then none else some { f with next := f.next + 1 } }
  match s.roomiest (s.extent f.words) with
  | none => s
  | some cl =>
    match f.red with
    | none => step (s.handOver cl (taskRec f.words f.desc f.next tgt s.now none))
    | some r =>
      match s.secondary f.words with
      | none => s
      | some (tgt', cl') =>
        if 64 ≤ (s.clu cl').hoist.length then s
        else
          step ((s.handOver cl (taskRec f.words f.desc f.next tgt s.now (some (r, 0)))).handOver cl'
            (taskRec f.words f.desc f.next tgt' s.now (some (r, 1))))

/-- FAN_OUT (13 R258, R259; 21 R346; 23 R368): the unit takes a launch and reads its descriptor, or hands over the next
record of the one it holds. -/
def execFanOut (s : State) : Host.Outcome State Fault Refusal :=
  .next <|
    match s.fan with
    | some f => s.fanNext f
    | none =>
      match s.nextLaunch with
      | none => s
      | some (c, k, l) =>
        let kd := lKdesc l.words
        let taken (s : State) : State :=
          { s.modCtx c fun x => { x with queue := listDrop1 x.queue k } with rrCtx := kvSet s.rrCtx (lPrio l.words) c }
        match s.slabParts 0 c .read (pieces 256 kd.toNat 256) with
        | (.miss _, s) => s
        | (.bad _, s) => (taken s).dispatchFail c 1 kd 0
        | (.ok ps _, s) =>
          if ps.any s.podClosed then s
          else if s.poisoned ps then ((taken s).poisonHit ps).dispatchFail c 1 kd 0
          else
            let s := taken s
            let d := leWords (s.getParts ps)
            if badDesc d then s.dispatchFail c 1 kd 0
            else if isRed d then
              if 2 ≤ lPlc l.words ∨ (s.secondary l.words).isNone then s.record (s.unitRec 14 6 0 c kd)
              else
                let n := lCount l.words
                { s with
                  reds := kvSet s.reds s.nextRed ⟨c, lRetw l.words, (d.getD 26 0).toNat, n, [n, n], [], false⟩
                  nextRed := s.nextRed + 1
                  fan := some ⟨l.words, d, 0, some s.nextRed⟩ }
            else { s with fan := some ⟨l.words, d, 0, none⟩ }

/-- Threads of a task in their slots. -/
def State.threadsOf (s : State) (k : Nat) : List Who :=
  s.tiles.flatMap fun e => (e.2.slots.filter fun x => x.2.task == some k).map fun x => ⟨e.1, x.1⟩

/-- Threads of a task in SPILL. -/
def State.spilledOf (s : State) (k : Nat) : List Who :=
  s.tiles.flatMap fun e => (e.2.spilled.filter fun x => x.2.task == some k).map fun x => ⟨e.1, x.1⟩

/-- The Badger saves the matrix state and leaves it cold and without an owner (13 R273). -/
def State.saveMx (s : State) (t : Nat) : State :=
  let m := (s.tile t).mx
  (s.resetMx t).modTile t fun x => { x with savedMx := x.savedMx ++ [m], mx := { x.mx with rowsW := [], latchDirty := false } }

/-- The Badger puts back what it saved of a context, and the hand-offs that came for it meanwhile, in their order (13 R273, R274). -/
def State.restoreMx (s : State) (t ctx : Nat) : State :=
  match (s.tile t).savedFor ctx with
  | none => s
  | some m =>
    let hs := (s.tile t).ringH.filter fun h => h.ctx == ctx
    let s := (s.modTile t fun x => { x with
      savedMx := x.savedMx.erase m
      ringH := x.ringH.filter fun h => h.ctx != ctx
      mx := { m with rails := x.mx.rails, wakes := x.mx.wakes, bndVer := x.mx.bndVer.map (· + 1) } }).wakeBands t
    hs.foldl (fun s h => s.takeHandoff h) s

/-- Whether another context holds back what was saved of a context on a tile: it owns the matrix state with a task still bound
(13 R273). -/
def State.mxTaken (s : State) (t ctx : Nat) : Bool :=
  ((s.tile t).savedFor ctx).isSome &&
    (match (s.tile t).mx.owner with
    | some c => c != ctx && (s.tile t).bound c
    | none => false)

/-- Bytes that reach a tile's own scratchpad from outside enter its replay log in 8-byte parts, those that it has room for; the next
leaves the tile uncovered (24 Table 24.2, R381, R382). -/
def State.logBytes (s : State) (t off : Nat) (bs : List Byte) : State :=
  let x := s.tile t
  let room := (262144 - x.image.used) / 16 - x.log.length
  (List.range (min ((bs.length + 7) / 8) (room + 1))).foldl (fun s i =>
    s.logArrival t 4 0 (off + 8 * i) (wd (leNat ((bs.drop (8 * i)).take 8)))) s

/-- The context that last reserved a line of a tile (11 R222 step 3). -/
def Tile.lastOwner (t : Tile) (line : Nat) : Option Nat :=
  let a := 64 * line
  match t.resv.find? fun r => decide (r.off ≤ a ∧ a < r.off + r.len) with
  | some r => some r.ctx
  | none => (t.lastResv.find? fun r => decide (r.2.1 ≤ a ∧ a < r.2.1 + r.2.2)).map fun r => r.1

/-- Lines of a footprint that are zero-filled: last reserved by another context, or never since start. -/
def Tile.zeroLines (t : Tile) (r : TaskRec) : List Nat :=
  (r.ranges.flatMap fun g => (List.range (g.2.1 / 64)).map fun i => g.2.2 / 64 + i).eraseDups.filter fun n =>
    t.lastOwner n != some r.ctx

/-- Placement: the ranges reserved in the task's name and their lines zero-filled, whatever error they held, the slot held for the dispatch
(11 R222; 13 R261, R273). -/
def State.place (s : State) (cl : Nat) (w : Who) (n : Nat) (r : TaskRec) : State :=
  let k := s.nextTask
  let zs := (s.tile w.tile).zeroLines r
  let copied := r.ranges.foldl (fun a g => if g.1 = 0 then a else a + g.2.1) 0
  let s := if s.mxOfRemoved w.tile r.ctx then s.saveMx w.tile else s
  let s := (s.uncover w.tile r.ctx).modTile w.tile fun x => { x with poison := x.poison.filter fun g => !zs.contains (g / 8) }
  let s := zs.foldl (fun s n =>
    (s.putBytes (.spad w.tile (64 * n)) (List.replicate 64 0)).logBytes w.tile (64 * n) (List.replicate 64 0)) s
  let s := s.modTile w.tile fun x => { x with resv := x.resv ++ r.ranges.map fun g => ⟨g.2.2, g.2.1, r.ctx, k⟩ }
  let s := s.modSlot w fun x => { x with claimed := some w }
  let s := s.modClu cl fun c => { c with hoist := listDrop1 c.hoist n, placedAt := s.now + 1 }
  { s with
    nextTask := k + 1
    tasks := kvSet s.tasks k
      { r := r, tile := w.tile, slot := w.slot, at_ := s.now, auxes := 0, removed := none, thrs := [], gen := 0, retired := false, ended := false
        due := some (s.now + 2 + (64 * zs.length + copied + 127) / 128), foot := none } }

/-- Whether the Badger of a cluster's tiles is writing a thread away (13 R272). -/
def State.spilling (s : State) (cl : Nat) : Bool :=
  (s.served cl).any fun t => (s.tile t).slots.any fun e => e.2.st == .out && e.2.claimed == some ⟨t, e.1⟩

/-- Whether the slot of a thread of a pre-empted task of lower priority would suit a record (13 R261, R272). -/
def State.yields (s : State) (r : TaskRec) (w : Who) : Bool :=
  let x := s.slot w
  let n := ((s.tile w.tile).positions w.slot).length
  x.claimed.isNone && x.st != .halt && decide (1 ≤ n) && (!r.wave || n == 1) &&
    ((x.task.bind s.task?).map fun q => q.removed.isSome && decide (q.r.prio < r.prio)).getD false

/-- The slot of an OUT thread that a record may displace, on a tile otherwise suitable (13 R272). -/
def State.displace (s : State) (cl : Nat) (r : TaskRec) : Option Who :=
  if s.spilling cl then none
  else (s.tilesFor cl r).findSome? fun t => (slotNums.find? fun k =>
    let x := (s.tile t).slot k
    s.yields r ⟨t, k⟩ && x.st == .out && x.settledCopies).map fun k => ⟨t, k⟩

/-- HOIST_PLACE (13 R261, R262, R272, R273; 23 R368): the first record for which a slot exists is placed, at most one a
cycle; one that wants the slot of a pre-empted thread has it spilled; one whose target nothing serves fails. -/
def execHoistPlace (cl : Nat) (s : State) : Host.Outcome State Fault Refusal :=
  .next <|
    let c := s.clu cl
    if c.hoist.isEmpty ∨ c.placedAt = s.now + 1 then s
    else if c.pow ≠ .on then s.wantWake cl
    else
      let rs := hoistOrder c.hoist
      match rs.find? fun e => (e.2.target.map fun t => (s.tile t).vacant).getD false with
      | some (n, r) => (s.modClu cl fun c => { c with hoist := listDrop1 c.hoist n }).dispatchFail r.ctx 3 0 (wd r.index)
      | none =>
        match s.hoistPick cl with
        | some (n, r, w) => s.place cl w n r
        | none =>
          match rs.findSome? fun e => s.displace cl e.2 with
          | some w => s.modSlot w fun x => { x with claimed := some w, waitUntil := some (s.now + 160) }
          | none => s

/-- The 8-byte pieces that the ranges of a footprint with G nonzero copy: address, length, offset in the scratchpad (11 R222 step 4; 12
R237). -/
def TaskRec.footPieces (r : TaskRec) : List (Nat × Nat × Nat) :=
  r.ranges.flatMap fun g => if g.1 = 0 then [] else (pieces g.2.1 g.1 g.2.1).map fun p => (p.1, p.2, g.2.2 + (p.1 - g.1))

/-- A fetch that fails: the task alone fails, its reservations go, and the slot stays IDLE with its tag (23 R368). -/
def State.failTask (s : State) (k : Nat) : State :=
  match s.task? k with
  | none => s
  | some q =>
    let s := (s.releaseResv k).modSlot ⟨q.tile, q.slot⟩ fun x => { x with claimed := none }
    ({ s with tasks := kvErase s.tasks k, pods := s.pods.filter fun f => f.by_ != Master.task k } : State).dispatchFail q.r.ctx 2 0 (wd q.r.index)

/-- The fetch of a footprint begins: its places, through the last-level TLB of the Hoist's slab, each read half way of its path (11 R217,
R233; 21 R347). -/
def State.openFoot (s : State) (k : Nat) (q : Task) : State :=
  let ps := q.r.footPieces
  match s.slabParts (s.slabOf q.tile) q.r.ctx .read (ps.map fun p => (p.1, p.2.1)) with
  | (.bad _, s) => s.failTask k
  | (.miss _, s) => s
  | (.ok parts d, s) =>
    let at_ := (parts.zip ps).map fun e => (e.2, { e.1 with loc := s.shadowLoc q.r.red e.2.1 .read e.1.loc })
    let l := at_.foldl (fun m e => max m (s.latency q.tile false e.2)) 0
    (s.addPodBy (.task k) 0 0 q.r.ctx 0 1 0 0 (at_.map fun e => e.2)).modTask k fun q =>
      { q with
        foot := some (at_.map fun e => ⟨e.1.2.2, e.2, s.now + d + s.latency q.tile false e.2 / 2, none⟩)
        due := q.due.map fun n => if ps.isEmpty then n else max n (s.now + d + l) }

/-- One piece of a footprint: read at its place, an acquire at `mod` for the task, then written into the scratchpad (11 R222, R223; 12
R251; 13 R276; 23 R368). -/
def State.footStep (s : State) (k i : Nat) : State :=
  match s.task? k with
  | none => s
  | some q =>
    match (q.foot.getD [])[i]? with
    | none => s
    | some f =>
      let put (s : State) (g : List Foot → List Foot) : State := s.modTask k fun q => { q with foot := q.foot.map g }
      match f.data with
      | none =>
        let p := f.part
        if s.now < f.mid || s.podClosed p || s.seamHeld q.tile p || s.hidden ⟨0, none, s.phys q.tile⟩ [p] ||
            (hbmLines [p]).any (fun l => s.sharerHeld q.tile l.1 (64 * l.2) 0) then s
        else if s.poisoned [p] then (s.poisonHit [p]).failTask k
        else
          let bs := s.getPart p
          put ((s.touchLoads q.tile [p] 0).dropPodBy (.task k) 0 p.loc) fun fs => listSet fs i { f with data := some bs }
      | some bs =>
        if s.tileHeld q.tile then s.wantWake (s.cluster q.tile)
        else put ((s.putBytes (.spad q.tile f.off) bs).logBytes q.tile f.off bs) fun fs => listDrop1 fs i

/-- Every piece that can be read is, and every one read is written, the last first. -/
def State.footAll (s : State) (k : Nat) (fs : List Foot) : State :=
  let each (s : State) : State := (List.range fs.length).reverse.foldl (fun s i => s.footStep k i) s
  each (each s)

/-- A placed task of a slot. -/
def State.placedIn (s : State) (w : Who) : Option (Nat × Task) :=
  s.tasks.find? fun e => e.2.tile == w.tile && e.2.slot == w.slot && e.2.due.isSome && !e.2.retired

/-- The placed task of a slot, its footprint in place and its cycle come, enters RUN: steps 2 to 6 of R37 (02 R37; 24 Table 24.2). -/
def State.dispatchTask (s : State) (w : Who) (k : Nat) (q : Task) : State :=
  let s := (q.r.entry :: q.r.args).foldl (fun s v => s.logArrival w.tile 8 w.slot 0 v) s
  let s := s.placeTask w k q.r
  s.modTask k fun q => { q with due := none, foot := none, at_ := s.now, gen := (s.slot w).gen }

/-- TASK_DISPATCH (02 R37; 11 R222, R223; 23 R368): the fetch of the footprint begins, what is left of it is made, and then the slot enters
RUN; a fetch that fails fails the task alone. A slot that a rotation table has left without a position since it was taken is dispatched into all the same, and
its thread waits for a table that names it (log 77). -/
def execTaskDispatch (w : Who) (s : State) : Host.Outcome State Fault Refusal :=
  .next <|
    match s.placedIn w with
    | none => s
    | some (k, q) =>
      match q.foot with
      | none => s.openFoot k q
      | some fs =>
        let s := s.footAll k fs
        match s.task? k with
        | none => s
        | some q => if q.foot ≠ some [] ∨ s.now < q.due.getD 0 ∨ (s.tile w.tile).running = false then s else s.dispatchTask w k q

/-- Whether a copy accepted for a task still runs (13 R260). -/
def State.copiesOf (s : State) (k : Nat) : Bool :=
  s.tiles.any fun e => e.2.chan.toList.any fun c => c.chains.any fun h => h.task == some k

/-- Whether an event of a task's threads is still to be performed (12 R244; 13 R260). -/
def State.taskOwes (s : State) (k : Nat) : Bool :=
  (((s.task? k).map fun q => q.thrs).getD []).any fun n =>
    (s.stores.any fun e => e.party.thr == n) || s.sendsBefore n (2 ^ 64)

/-- RETIREMENT_WORD_ADD (13 R260; 21 R348): once every copy of the task has ended and every event of its threads is performed; to another
module it is a request, and one that fails counts as a word that cannot be written (15 R303; 23 R368, R376). -/
def execRetirementWordAdd (k : Nat) (s : State) : Host.Outcome State Fault Refusal :=
  .next <|
    match s.retAdds[k]? with
    | none => s
    | some r =>
      if s.copiesOf r.task || s.taskOwes r.task then s
      else
        let done (s : State) : State := { s with retAdds := listDrop1 s.retAdds k }
        match s.tableParts r.ctx .write (pieces 8 r.retw.toNat 8) with
        | .error _ => (done s).dispatchFail r.ctx 5 r.retw 0
        | .ok ps =>
          let mine := s.askedPods (2 ^ 48 + r.task) r.ctx
          let gone (s : State) : State := { s with pods := s.pods.filter fun f => !mine.contains f }
          if s.poisoned ps then (done s).poisonHit ps
          else if mine.any fun f => f.code == podRefused || f.code == podSilent then (gone (done s)).dispatchFail r.ctx 5 r.retw 0
          else if ps.any s.podClosed || s.writeHeld ps then s
          else if hasPod ps && mine.isEmpty then s.addPodBy .module 0 (2 ^ 48 + r.task) r.ctx 0 3 0 r.retw ps
          else if mine.any fun f => decide (s.now < f.firstAt + 1125) then s
          else
            let s := gone (done s)
            let s := ((s.atomic ps 0x1F (wd r.amount) 0).2.touchWrites ps 0).squash none
            s.modCtx r.ctx fun c => { c with queue := c.queue.map fun l => { l with readAt := 0 } }

/-- Whether a pre-empted task can go a step on: a slot stands free for one of its spilled threads, or none is spilled and nothing holds its
threads or its matrix state back (13 R271 to R273). -/
def State.mayResume (s : State) (k : Nat) (q : Task) : Bool :=
  let out := s.spilledOf k
  if out.isEmpty then
    !((s.threadsOf k).any fun w => (s.slot w).claimed.isSome || (s.slot w).outReq) && !((s.threadsOf k).any fun w => s.mxTaken w.tile q.r.ctx)
  else out.any s.openSlot

/-- A pre-empted task resumes (13 R271 to R273): spilled threads whose slots stand free are restored, then the matrix state saved on
its tiles is put back, and then every thread that the Hoist removed runs (02 R44). -/
def State.resumeTask (s : State) (k : Nat) (q : Task) : State :=
  let out := s.spilledOf k
  let ts := ((s.threadsOf k).map fun w => w.tile).eraseDups
  if s.mayResume k q = false then s
  else if !out.isEmpty then
    out.foldl (fun s w => if s.openSlot w then s.modSlot w fun x => { x with claimed := some w, waitUntil := some (s.now + 160) } else s) s
  else
    let s := ts.foldl (fun s t => s.restoreMx t q.r.ctx) s
    let s := (s.threadsOf k).foldl (fun s w => s.modSlot w fun x =>
      if x.st = .out ∧ x.wave = none ∧ x.preempted = true then { x with st := .run, preempted := false } else x) s
    let ids := (s.threadsOf k).filterMap fun w => (s.slot w).wave.map fun r => r.id
    (ids.eraseDups.foldl (fun s id => s.resumeWave id) s).modTask k fun q => { q with removed := none }

/-- A record that waits only for a slot (13 R271): the task of a suitable tile that gives way, with the tile. A record that may yet have
the slot of a thread already removed takes no further one. -/
def State.preemptFor (s : State) (cl : Nat) (r : TaskRec) : Option (Nat × Nat) :=
  let ts := s.tilesFor cl r
  if s.now < r.arrived + 225000 ∨ (s.choose cl r).isSome ∨ s.spilling cl = true ∨
      (ts.any fun t => slotNums.any fun k => s.yields r ⟨t, k⟩) then none
  else
    let cand := s.tasks.filterMap fun e =>
      if decide (e.2.r.prio < r.prio) && e.2.removed.isNone && !e.2.retired && e.2.due.isNone &&
          (s.threadsOf e.1).all fun w => (s.slot w).leases == 0 then
        (ts.find? fun t => (s.threadsOf e.1).any fun w => w.tile == t).map fun t => (e.1, t, e.2)
      else none
    (listMin (fun e => e.2.2.r.prio * 2 ^ 64 + (2 ^ 64 - 1 - min e.2.2.at_ (2 ^ 64 - 1))) cand).map fun e => (e.1, e.2.1)

/-- HOIST_PREEMPT (13 R271): a task that the Hoist removed goes on once no record of higher priority waits and it can; otherwise a record that has
waited 100 µs removes from a tile the task of lowest priority, the most recently dispatched; a wave is cut along its wavefront and goes
as a whole. -/
def execHoistPreempt (cl : Nat) (s : State) : Host.Outcome State Fault Refusal :=
  .next <|
    let c := s.clu cl
    let back := s.tasks.find? fun e =>
      e.2.removed == some cl && !e.2.retired && !(c.hoist.any fun r => decide (e.2.r.prio < r.prio)) && s.mayResume e.1 e.2
    match back with
    | some (k, q) => s.resumeTask k q
    | none =>
      match (hoistOrder c.hoist).findSome? fun e => s.preemptFor cl e.2 with
      | none => s
      | some (k, t) =>
        let ws := (s.threadsOf k).filter fun w => w.tile == t
        let ids := (ws.filterMap fun w => (s.slot w).wave.map fun r => r.id).eraseDups
        let s := ids.foldl (fun s id => s.cutWave id) s
        let s := (ws.filter fun w => (s.slot w).wave.isNone).foldl (fun s w =>
          if (s.slot w).st = .run ∨ (s.slot w).st = .wait then (s.takeOut w).modSlot w fun x => { x with preempted := true } else s) s
        s.modTask k fun q => { q with removed := some cl }

/-- BADGER_SPILL_DONE (13 R272): the thread is in SPILL and its slot IDLE. -/
def execBadgerSpillDone (w : Who) (s : State) : Host.Outcome State Fault Refusal :=
  .next <|
    let x := s.slot w
    if x.st ≠ .out ∨ x.claimed ≠ some w ∨ s.now < x.waitUntil.getD 0 then s
    else
      (s.modTile w.tile fun t =>
        { t with spilled := t.spilled ++ [(w.slot, { x with claimed := none, waitUntil := none })] }).modSlot w fun y =>
          { Slot.cold with freeFrom := s.now + 1, gen := y.gen, lastIssue := y.lastIssue, iseq := y.iseq, v := y.v, vshp := y.vshp, vdirty := y.vdirty
                           lastCtx := y.lastCtx }

/-- Words of the spill ring for a restored thread, in arrival order (13 R274). -/
def State.replayRing (s : State) (w : Who) : State :=
  let mine (m : Msg) : Bool := m.slot == w.slot && s.passes m
  let ms := (s.tile w.tile).ring.filter mine
  let s := s.modTile w.tile fun t => { t with ring := t.ring.filter fun m => !mine m }
  ms.foldl (fun s m => (s.reach m).getD s) s

/-- BADGER_RESTORE_DONE (13 R272, R274): the thread spilled last is in its slot again, OUT, with its tag. -/
def execBadgerRestoreDone (w : Who) (s : State) : Host.Outcome State Fault Refusal :=
  .next <|
    let x := s.slot w
    match ((s.tile w.tile).spilled.filter fun e => e.1 == w.slot).getLast? with
    | none => s
    | some (k, y) =>
      if x.st ≠ .idle ∨ x.claimed ≠ some w ∨ s.now < x.waitUntil.getD 0 then s
      else
        ((s.modTile w.tile fun t => { t with spilled := t.spilled.erase (k, y) }).setSlot w
          { y with st := .out, lastIssue := x.lastIssue }).replayRing w

/-- The launch killed: threads of both copies discarded, records and shadow pages gone (21 R349). -/
def State.killRed (s : State) (k : Nat) : State :=
  let mine (r : TaskRec) : Bool := (r.red.map fun e => e.1 == k).getD false
  let ks := (s.tasks.filter fun e => mine e.2.r).map fun e => e.1
  let s := (s.tiles.map fun e => e.1).foldl (fun s t => s.dropSpilled t fun x => (x.task.map fun k => ks.contains k).getD false) s
  let s := (ks.flatMap s.threadsOf).foldl (fun s w => s.discardThread w) s
  let s := (s.tasks.filter fun e => mine e.2.r).foldl (fun s e =>
    let s := s.releaseResv e.1
    if e.2.due.isSome then s.modSlot ⟨e.2.tile, e.2.slot⟩ fun x => { x with claimed := none } else s) s
  { s with
    tasks := s.tasks.filter fun e => !mine e.2.r
    clusters := s.clusters.map fun (e : Nat × Cluster) => (e.1, { e.2 with hoist := e.2.hoist.filter fun r => !mine r })
    fan := match s.fan with
      | some f => if f.red = some k then none else some f
      | none => none
    reds := kvErase s.reds k
    shadow := kvErase (kvErase s.shadow (2 * k)) (2 * k + 1) }

/-- Pages a copy has shadowed, by virtual page, rising. -/
def Red.pagesOf (d : Red) (c : Nat) : List Nat :=
  sortBy (fun n => n) ((d.pages.filter fun p => p.1 == c).map fun p => p.2)

/-- A copy's signature (21 R348). -/
def State.signature (s : State) (k c : Nat) (d : Red) : BitVec 512 :=
  let m := kvGet s.shadow (2 * k + c) []
  shake256 ((d.pagesOf c).flatMap fun n => leBytes 8 (n * 65536) ++ memRead m (n * 65536) 65536)

/-- A shadow page replaces its original (21 R348). -/
def State.commitPage (s : State) (k : Nat) (d : Red) (n : Nat) : State :=
  match s.pageOf d.ctx (n * 65536) with
  | none => s
  | some p =>
    let pa := p.pa + (n * 65536 - p.va)
    let m := (kvGet s.shadow (2 * k) []).filter fun (c : Host.Cell) => decide (n * 65536 ≤ c.1 ∧ c.1 < n * 65536 + 65536)
    let rest := s.hbm.filter fun (c : Host.Cell) => !decide (pa ≤ c.1 ∧ c.1 < pa + 65536)
    let s : State := { s with hbm := m.foldl (fun h (c : Host.Cell) => memSet h (c.1 - n * 65536 + pa) c.2) rest }
    (List.range 1024).foldl (fun s i => s.invalidateNear (s.homeOf p.plc (pa + 64 * i)) (pa / 64 + i)) s

/-- Whether a shadow page's lines are held back from their originals by overflow records not yet handled (11 R231). -/
def State.commitHeld (s : State) (d : Red) (n : Nat) : Bool :=
  match s.pageOf d.ctx (n * 65536) with
  | none => false
  | some p => s.writeHeld [⟨.hbm (p.pa + (n * 65536 - p.va)), 65536, p.plc⟩]

/-- REDUNDANT_COMMIT (21 R348, R349): with both copies retired the signatures are written and compared, and the shadow pages
committed or discarded; a launch that exhausted the pool is killed. -/
def execRedundantCommit (k : Nat) (s : State) : Host.Outcome State Fault Refusal :=
  .next <|
    match s.red? k with
    | none => s
    | some d =>
      if d.dead then (s.record (s.unitRec 14 6 0 d.ctx 0)).killRed k
      else if d.left != [0, 0] ||
          (s.tiles.any fun e => e.2.chan.toList.any fun c => c.chains.any fun h => (h.red.map fun r => r.1 == k).getD false) ||
          (s.tasks.any fun e => (e.2.r.red.map fun r => r.1 == k).getD false && s.taskOwes e.1) then s
      else
        let a := s.signature k 0 d
        let b := s.signature k 1 d
        let cut (v : BitVec 512) : List Byte := (leBytes 64 v.toNat).take 32
        let area := match s.tableParts d.ctx .write (pieces 64 d.area 64) with
          | .ok ps => ps
          | .error _ => []
        if s.writeHeld area || (d.pagesOf 0).any (s.commitHeld d) then s
        else
        let s := if s.poisoned area then s.poisonHit area else (s.putParts area (cut a ++ cut b)).touchWrites area 0
        let s := if a = b then
            let s := (d.pagesOf 0).foldl (fun s n => s.commitPage k d n) s
            if d.retw = 0 then s else { s with retAdds := s.retAdds ++ [⟨d.ctx, d.retw, 0, d.count⟩] }
          else s.record (s.unitRec 14 4 0 d.ctx 0)
        { s with reds := kvErase s.reds k, shadow := kvErase (kvErase s.shadow (2 * k)) (2 * k + 1) }

end Sys2Proof.Machine
end

