-- ==== Sys2Proof/Machine/Stream.lean ====
section
/-! DEFINITION. Stream ingress (15 R306 to R310; 23 R372) and what the memories' own checks find: patrol scrub, quarantine
scrub and the overflow handler (21 R345; 23 R363, R366). -/

namespace Sys2Proof.Machine

/-- Ring descriptor (15 Table 15.5). -/
def Ring.mode (r : Ring) : Nat := modeOf r.base
def Ring.ctx (r : Ring) : Nat := bits r.cfg.toNat 63 52
def Ring.keyx (r : Ring) : Nat := bits r.cfg.toNat 51 40
def Ring.pol (r : Ring) : Bool := bitOf r.cfg.toNat 33
def Ring.en (r : Ring) : Bool := bitOf r.cfg.toNat 32
def Ring.slotBytes (r : Ring) : Nat := 2 ^ bits r.cfg.toNat 31 24
def Ring.n (r : Ring) : Nat := 2 ^ bits r.cfg.toNat 4 0

/-- A descriptor whose fields lie in their ranges (15 Table 15.5). -/
def Ring.fits (r : Ring) : Bool :=
  let l := bits r.cfg.toNat 31 24
  let n := bits r.cfg.toNat 4 0
  decide (11 ≤ l ∧ l ≤ 14) && decide (1 ≤ n ∧ n ≤ 20) && addrOf r.base % 128 == 0

/-- Parts of a range of a ring's memory: `glob` in its context, or a scratchpad that a `loc` address with FAR = 1 names and
the context has reserved (15 Table 15.5; log 21). -/
def State.ringParts (s : State) (r : Ring) (off n : Nat) (need : Need) : Option (List Part) :=
  let a := addrOf r.base + off
  match r.mode with
  | 0 =>
    match s.tableParts r.ctx need (pieces n a n) with
    | .ok ps => some ps
    | .error _ => none
  | 1 =>
    let t := tileAt (bits a 27 22) (bits a 33 28)
    if bitOf a 34 && decide (bits a 27 22 < 48) && s.advertised t && !(s.tile t).vacant && bits a 61 35 == 0 && !bitOf a 21 &&
        decide (bits a 20 0 + n ≤ settOff) && s.reserved t r.ctx (bits a 20 0) n then
      some ((pieces n (bits a 20 0) n).map fun p => ⟨.spad t p.1, p.2, .home⟩)
    else none
  | _ => none

/-- Whether a frame for a ring waits at the Beaver: the tile or the module that holds the ring, or its slot for frame i, is not to be reached, its
cluster is asked to wake, or a store there would wait (11 R231; 13 R276; 15 R303; 23 R375). -/
def State.ringWaits (s : State) (r : Ring) : Bool × State :=
  let tail := ((s.ringParts r 0 8 .read).map fun ps => leNat (s.getParts ps)).getD 0
  let ps := ((s.ringParts r 0 128 .write).getD []) ++ (s.ringParts r (128 + tail % r.n * r.slotBytes) r.slotBytes .write).getD []
  match s.farHeld 65536 ps with
  | (true, s) => (true, s)
  | (false, s) => (s.writeHeld ps, s)

/-- Bytes written to a ring's memory; none where the write faults, or meets a word with an uncorrectable error (23 R372). -/
def State.ringPut (s : State) (r : Ring) (off : Nat) (bs : List Byte) : Option State :=
  match s.ringParts r off bs.length .write with
  | none => none
  | some ps => if s.poisoned ps then none else some (((s.putParts ps bs).touchWrites ps 0).logStores none ps bs)

def State.ringWord (s : State) (r : Ring) (off : Nat) : Option Nat :=
  match s.ringParts r off 8 .read with
  | none => none
  | some ps => if s.poisoned ps then none else some (leNat (s.getParts ps))

/-- A counter of the control block increased (15 R308 step 4). -/
def State.ringAdd (s : State) (r : Ring) (word n : Nat) : Option State :=
  match s.ringWord r (8 * word) with
  | none => none
  | some v => s.ringPut r (8 * word) (leBytes 8 (v + n))

/-- A frame and its bytes counted in one pair of counters (15 R309, Table 15.6). -/
def State.ringCount (s : State) (r : Ring) (word bytes : Nat) : Option State :=
  (s.ringAdd r word 1).bind fun s => s.ringAdd r (word + 1) bytes

/-- An uncorrectable error in a ring that lies in a scratchpad is pinned to its tile (21 R339; 23 R364). -/
def State.ringPinned (s : State) (ps : List Part) : State :=
  match ps.findSome? fun p => match p.loc with
    | .spad t off => (((s.tile t).poison.find? fun g => decide (g * 8 < off + p.len) && decide (off < g * 8 + 8))).map fun g => (t, 8 * g)
    | _ => none with
  | some (t, off) => s.foundError t 0 off .word
  | none => s

/-- A write fault: the frame counted in FLT as far as it can be, the ring disabled, a record (23 R372). -/
def State.ringFault (s : State) (k : Nat) (r : Ring) (bytes : Nat) : State :=
  let ps := (s.ringParts r 0 128 .read).getD []
  let s := (s.poisonHit ps).ringPinned ps
  let s := (s.ringCount r 12 bytes).getD s
  let s : State := { s with rings := kvSet s.rings k { r with cfg := r.cfg &&& ~~~(0x100000000 : Word) } }
  s.record { s.mkRec 8 6 0 r.ctx 0 0 1 r.base 0 0 with slab := 0, ptile := 0, cyc := s.now }

/-- Length of an Ethernet header, with or without a VLAN tag. -/
def ethLen (vlan : Option Nat) : Nat := if vlan.isSome then 18 else 14

/-- Decryption of a frame on a keyed ring (15 R310): the frame to write, or nothing. -/
def State.decrypt (s : State) (r : Ring) (vlan : Option Nat) (frame : List Byte) : Option (List Byte) :=
  let e := ethLen vlan
  let hdr := leNat ((frame.drop e).take 8)
  if frame.length < e + 24 ∨ bits hdr 63 52 ≠ r.keyx then none
  else
    let k := kvGet s.keys r.keyx (0, 0)
    let iv : BitVec 96 := k.2 ++ (0 : BitVec 16) ++ BitVec.ofNat 48 hdr
    (aesGcm k.1 iv (frame.take (e + 8)) (frame.drop (e + 8))).map fun p => frame.take (e + 8) ++ p

/-- Steps taken in order until one fails: what the earlier ones did stands. -/
def stepsOf : List (State → Option State) → State → State × Bool
  | [], s => (s, true)
  | f :: fs, s =>
    match f s with
    | some s' => stepsOf fs s'
    | none => (s, false)

/-- A frame written to slot i mod N (15 R308): the header busy, the bytes, the header final, TAIL and the counters. -/
def State.ringWrite (s : State) (k : Nat) (r : Ring) (port i bytes : Nat) (dec : Bool) (frame : List Byte) : State × Bool :=
  let slot := i % r.n
  let off := 128 + slot * r.slotBytes
  let hd (busy : Nat) : Nat := i % 2 ^ 48 * 2 ^ 16 + busy * 2 ^ 15 + (if dec then 2 ^ 14 else 0) + frame.length % 2 ^ 14
  stepsOf [
    fun s => s.ringPut r off (leBytes 8 (hd 1) ++ leBytes 8 port),
    fun s => s.ringPut r (off + 16) frame,
    fun s => s.ringPut r off (leBytes 8 (hd 0)),
    fun s => (s.ringPut r 0 (leBytes 8 (i + 1))).map fun s => { s with rings := kvSet s.rings k { r with lens := kvSet r.lens slot bytes } },
    fun s => s.ringCount r 2 bytes] s

/-- A frame that has passed its checks (15 R309). -/
def State.ringDeliver (s : State) (k : Nat) (r : Ring) (port bytes : Nat) (dec : Bool) (frame : List Byte) : State :=
  match s.ringWord r 0, s.ringWord r 8 with
  | some tail, some head =>
    let full := decide (r.n ≤ (tail + 2 ^ 64 - head) % 2 ^ 64)
    if full && !r.pol then (s.ringCount r 4 bytes).getD (s.ringFault k r bytes)
    else
      match s.ringWrite k r port tail bytes dec frame with
      | (s, true) => if full then (s.ringCount r 6 (kvGet r.lens (tail % r.n) 0)).getD s else s
      | (s, false) => s.ringFault k (kvGet s.rings k r) bytes
  | _, _ => s.ringFault k r bytes

/-- FRAME_ARRIVE (15 R306 to R310; 23 R372): counted at its port, or accounted once to its ring: FLT where disabled, FULL
where the port's buffer is full, SIZE, AUTH, or delivery. -/
def execFrameArrive (port : Nat) (vlan : Option Nat) (fcsOk bufFull : Bool) (frame : List Byte) (s : State) :
    Host.Outcome State Fault Refusal :=
  .next <|
    if s.ready = false ∨ s.recovery = true ∨ 12 < port ∨ (1 ≤ port ∧ s.caps.podMode.getLsbD (port - 1) = true) then s
    else if fcsOk = false then { s with portBad := kvSet s.portBad port (kvGet s.portBad port 0 + 1) }
    else
      let key := classKey port vlan
      match s.classes.find? fun e => e.1 == key with
      | none => { s with portNoMatch := kvSet s.portNoMatch port (kvGet s.portNoMatch port 0 + 1) }
      | some (_, k) =>
        let r := kvGet s.rings k ⟨0, 0, []⟩
        let n := frame.length
        match s.ringWaits r with
        | (true, s) => s
        | (false, s) =>
        if r.en = false ∨ r.fits = false then (s.ringCount r 12 n).getD s
        else if bufFull then (s.ringCount r 4 n).getD (s.ringFault k r n)
        else if r.slotBytes - 16 < n then (s.ringCount r 10 n).getD (s.ringFault k r n)
        else if r.keyx = 0 then s.ringDeliver k r port n false frame
        else
          match s.decrypt r vlan frame with
          | none => (s.ringCount r 8 n).getD (s.ringFault k r n)
          | some f => s.ringDeliver k r port n true f

/-- PATROL_SCRUB (23 R363, Table 23.1): a line of HBM read: sound (0), corrected (1), or poisoned (2). -/
def execPatrolScrub (pa res : Nat) (s : State) : Host.Outcome State Fault Refusal :=
  .next <|
    let stack := pa / 2 ^ 36
    if 24 ≤ stack then s
    else
      match res with
      | 0 => s
      | 1 => s.storedError pa .corrected
      | _ => s.storedError pa .line

/-- QUARANTINE_SCRUB (21 R345): a page zeroed and read back twice returns to service, or is withdrawn for good. -/
def execQuarantineScrub (k : Nat) (pass : Bool) (s : State) : Host.Outcome State Fault Refusal :=
  .next <|
    match s.quarantine[k]? with
    | none => s
    | some n =>
      { s with
        quarantine := listDrop1 s.quarantine k
        withdrawn := if pass then s.withdrawn else s.withdrawn ++ [n]
        hbm := s.hbm.filter fun (c : Host.Cell) => c.1 / 65536 != n
        poison := s.poison.filter fun g => g / 2048 != n }

/-- OVERFLOW_HANDLER_RESTART (23 R366): a handler that has trapped is recorded; restarted, it takes the records left in its
queue. -/
def execOverflowHandlerRestart (cl : Nat) (s : State) : Host.Outcome State Fault Refusal :=
  .next <|
    if (s.clu cl).handlerDown then (s.modClu cl fun c => { c with handlerDown := false }).handleOverflow cl
    else
      let s := s.record { s.mkRec 4 0 0 0 0 0 2 0 0 0 with slab := cl / 4, ptile := 0, cyc := s.now }
      s.modClu cl fun c => { c with handlerDown := true }

end Sys2Proof.Machine
end

