-- ==== Sys2Proof/Machine/Links.lean ====
section
/-! DEFINITION. Links (23 R373, R374), pod requests that stay without a reply (23 R376) and the responder of Shoheosh
(15 R303 to R305; 23 R375). A seam or wrap link is numbered 4 x slab + 2 x (0 for its east edge, 1 for its south edge) +
module; the pod port p is link 192 + p. Of its two ends, 0 is that of the slab named first, or this module's, 1 the other (log 22). -/

namespace Sys2Proof.Machine

/-- Slabs next to a slab over edges that are up. -/
def State.slabsNext (s : State) (k : Nat) : List Nat :=
  let west := 6 * (k / 6) + (k % 6 + 5) % 6
  let north := 6 * ((k / 6 + 7) % 8) + k % 6
  (if s.edgeDown k 0 then [] else [acrossEdge k 0]) ++ (if s.edgeDown k 1 then [] else [acrossEdge k 1]) ++
    (if s.edgeDown west 0 then [] else [west]) ++ if s.edgeDown north 1 then [] else [north]

/-- Slabs a path leads to, from a set, in so many rounds. -/
def State.reachable (s : State) : Nat → List Nat → List Nat
  | 0, l => l
  | n + 1, l =>
    match (l.flatMap s.slabsNext).eraseDups.filter fun k => !l.contains k with
    | [] => l
    | more => s.reachable n (l ++ more)

/-- Slabs that no path joins to the rest of the module: those outside the largest set that paths join, the one with the lowest slab on a tie
(23 R374). -/
def State.cutOff (s : State) : List Nat :=
  let all := (List.range 48).map fun k => (s.reachable 48 [k]).eraseDups
  match listMin (fun l => (48 - l.length) * 64 + l.headD 0) all with
  | some l => (List.range 48).filter fun k => !l.contains k
  | none => []

/-- Contexts with a task, a reservation or a binding on a slab (23 R374). -/
def State.ctxsOn (s : State) (slab : Nat) : List Nat := ((s.slabTiles slab).flatMap s.ctxsAt).eraseDups

/-- The physical tile, within the slab of an edge's west or north end, at which a lane of a link module of it stands (14 R294; 26 R400). -/
def laneTile (k lane : Nat) : Nat := if k % 4 / 2 = 0 then 8 * (lane % 8) + 7 else 56 + lane % 8

/-- A record about a link module: that of the tile at its lane, and the number of the module on its edge (21 Table 21.3; 26 R400). -/
def State.linkRec (s : State) (k outcome cause at_ : Nat) : State :=
  s.record { s.mkRec 9 outcome 7 0 0 (if 192 ≤ k then k - 192 else k % 2) cause 0 0 0 with
    slab := if 192 ≤ k then 0 else k / 4, ptile := if 192 ≤ k then 0 else laneTile k (s.link k).lane, y := 0, x := 0, cyc := at_ }

/-- A slab cut off: its contexts are torn down (23 R374). -/
def State.cutSlab (s : State) (slab : Nat) : State :=
  let r : FaultRec := { s.mkRec 9 3 7 0 0 0 5 0 0 0 with slab := slab, ptile := 0, cyc := s.now }
  if (s.ctxsOn slab).isEmpty then s.record r else (s.ctxsOn slab).foldl (fun s c => s.startTeardown c (some r)) s

/-- Sequence numbers from one on. -/
def seqUpTo (a n : Nat) : List Nat := (List.range n).map fun i => (a + i) % 65536

/-- One end of a link module. -/
def Link.end_ (l : Link) (e : Nat) : LinkEnd := vget l.ends e ⟨0, [], 0, 0, 0, false, []⟩

/-- One end changed. -/
def Link.setEnd (l : Link) (e : Nat) (q : LinkEnd) : Link := { l with ends := vset l.ends e q }

/-- More flits sent by an end: as many as its replay buffer of 128 holds (23 R373). -/
def LinkEnd.sent (q : LinkEnd) (n : Nat) : LinkEnd :=
  { q with held := q.held ++ seqUpTo q.txseq n, txseq := (q.txseq + n) % 65536 }

/-- A module goes DOWN (23 R374, R375): records; a slab that this cuts off; the flits that it holds unacknowledged are resent by the other
module of the edge, where that one works. -/
def State.linkDown (s : State) (k : Nat) : State :=
  let before := s.cutOff
  let was := s.edgeDown (k / 4) (k % 4 / 2)
  let l := s.link k
  let mate := k / 2 * 2 + (k + 1) % 2
  let s := s.setLink k { l with state := 3, falls := none, ends := l.ends.map fun q => { q with held := [], owed := [], nakSent := false } }
  let s := if 192 ≤ k ∨ 2 ≤ (s.link mate).state then s
    else
      let m := s.link mate
      let go (e : Nat) (m : Link) : Link := m.setEnd e ((m.end_ e).sent (min (l.end_ e).held.length (128 - (m.end_ e).held.length)))
      s.setLink mate (go 1 (go 0 m))
  let s := s.linkRec k 5 2 s.now
  if 192 ≤ k then s
  else
    let s := if s.edgeDown (k / 4) (k % 4 / 2) && !was then s.linkRec k 5 3 s.now else s
    (s.cutOff.filter fun j => !before.contains j).foldl (fun s j => s.cutSlab j) s

/-- A retry burst begins at an end of a module, with its last flit (23 R374): counted, or the fourth within 1 ms, after which the module falls
back. -/
def State.burst (s : State) (k e last : Nat) : State :=
  let l := s.link k
  let w := l.window s.now
  if l.falls.isSome ∨ 3 ≤ w.length then s.setLink k { l with bursts := w, falls := some (e, last) }
  else s.setLink k { l with bursts := w ++ [s.now] }

/-- The burst that makes a module fall back has ended: it retrains from the next cycle on, or goes DOWN (23 R374; 26 Table 26.3). -/
def State.fallBack (s : State) (k : Nat) : State :=
  let l := s.link k
  if l.state = 0 then (s.setLink k { l with state := 2, since := s.now + 1, falls := none }).linkRec k 5 1 (s.now + 1)
  else if l.state = 1 then s.linkDown k
  else s

/-- Flits of an end acknowledged up to a number that the other end has accepted and not yet acknowledged (23 R373). -/
def Link.acked (l : Link) (e a : Nat) : Link :=
  let q := l.end_ (1 - e)
  match (seqUpTo (q.expect + 65536 - q.owed.length) q.owed.length).findIdx? fun n => n == a % 65536 with
  | none => l
  | some i =>
    let p := l.end_ e
    let held := match p.held.findIdx? fun n => n == a % 65536 with
      | some j => p.held.drop (j + 1)
      | none => p.held
    (l.setEnd e { p with held := held }).setEnd (1 - e) { q with owed := q.owed.drop (i + 1) }

/-- An end that has accepted 16 flits without acknowledging them, or one 32 cycles ago, acknowledges what it has accepted (23 R373). -/
def Link.ackDue (l : Link) (now e : Nat) : Link :=
  let q := l.end_ e
  if 16 ≤ q.owed.length ∨ q.owed.any (fun t => decide (t + 32 ≤ now)) = true then l.acked (1 - e) (q.expect + 65535) else l

/-- Acknowledgements that are due in a cycle. -/
def State.ackLinks (s : State) : State :=
  { s with links := s.links.map fun e => (e.1, (e.2.ackDue s.now 0).ackDue s.now 1) }

/-- LINK_FLIT_RECEIVE (23 R373): the end named by the lowest bit of `link` receives a flit, whose CRC is bad on
a lane or good. One numbered past the sender's TXSEQ shows that it and those before it were sent; only the next expected one is accepted; a bad CRC is counted and answered with a NAK,
unless one is on its way. With the last flit of the burst that makes it fall back the module does. -/
def execLinkFlitReceive (link num : Nat) (bad ack : Option Nat) (s : State) : Host.Outcome State Fault Refusal :=
  .next <|
    let k := link / 2
    let e := link % 2
    let l := s.link k
    if 2 ≤ l.state then s
    else
      let p := l.end_ (1 - e)
      let ahead := (num + 65536 - p.txseq) % 65536 + 1
      let l := if ahead + p.held.length ≤ 128 then l.setEnd (1 - e) (p.sent ahead) else l
      let q := l.end_ e
      match bad with
      | some lane => s.setLink k { l.setEnd e { q with crcerr := min (q.crcerr + 1) 255, nakSent := true } with lane := lane }
      | none =>
        let l := match ack with
          | some a => l.acked e a
          | none => l
        let q := l.end_ e
        if num % 65536 ≠ q.expect ∨ (l.end_ (1 - e)).held.contains (num % 65536) = false then s.setLink k l
        else
          let l := (l.setEnd e { q with expect := (q.expect + 1) % 65536, owed := q.owed ++ [s.now], nakSent := false }).ackDue s.now e
          let s := s.setLink k l
          if l.falls = some (e, num % 65536) then s.fallBack k else s

/-- LINK_NAK_RECEIVE (23 R373, R374): the NAK that the other end has sent reaches the end named by the lowest bit of `link`, and every flit
held from the number on is sent again, in one retry burst. -/
def execLinkNakReceive (link expected : Nat) (s : State) : Host.Outcome State Fault Refusal :=
  .next <|
    let k := link / 2
    let e := link % 2
    let l := s.link k
    let q := l.end_ (1 - e)
    if 2 ≤ l.state ∨ q.nakSent = false ∨ q.expect ≠ expected % 65536 then s
    else
      let l := l.acked e (expected + 65535)
      let p := l.end_ e
      match p.held.findIdx? fun n => n == expected % 65536 with
      | none => s
      | some i =>
        let again := p.held.drop i
        let l := l.setEnd e { p with replays := min (p.replays + again.length) 65535 }
        let l := l.setEnd (1 - e) { l.end_ (1 - e) with nakSent := false }
        (s.setLink k l).burst k (1 - e) (again.getLastD 0)

/-- LINK_BURST_EXPIRE (23 R374). -/
def execLinkBurstExpire (link : Nat) (s : State) : Host.Outcome State Fault Refusal :=
  .next (s.setLink link { s.link link with bursts := (s.link link).window s.now })

/-- LINK_RETRAIN_END (23 R374): after 4,500 cycles the module is at 32 lanes and its bursts are forgotten. -/
def execLinkRetrainEnd (link : Nat) (s : State) : Host.Outcome State Fault Refusal :=
  .next <|
    let l := s.link link
    if l.state ≠ 2 ∨ s.now < l.since + 4500 then s else s.setLink link { l with state := 1, bursts := [] }

/-- A request that still waits for its reply. -/
def PodFlight.waits (f : PodFlight) : Bool := f.code != podRefused && f.code != podSilent

/-- POD_REQUEST_RESEND (23 R376): on the route then in the route table. -/
def execPodRequestResend (k : Nat) (s : State) : Host.Outcome State Fault Refusal :=
  .next <|
    match s.pods[k]? with
    | none => s
    | some f =>
      if s.now < f.sentAt + 2250000 ∨ f.waits = false then s
      else { s with pods := listSet s.pods k { f with sentAt := s.now, port := kvGet s.routes f.module 0 } }

/-- The place in a chain of the record whose burst, increment or read has a number of the tile's order of issue. -/
def Chain.recAt (h : Chain) (stamp : Nat) : Nat :=
  h.recs.findIdx fun r => (r.flight.any fun b => b.stamp == stamp) || (r.step.map fun q => q.2.2 == stamp).getD false

/-- A thread frozen by a request of its own that has failed, where it still lives; an instruction still pending faults, one that has completed
freezes its thread (23 R376). -/
def State.freezePod (s : State) (f : PodFlight) (w : Who) (cause : Nat) (rec : FaultRec) : State :=
  let x := s.slot w
  if x.gen ≠ f.gen ∨ x.thr ≠ f.thr then s
  else
    (s.modSlot w fun x =>
      { x.dropPend f.seq with
        st := .halt, frozen := true, outReq := false, why := .none, trapq := [], solo := false
        epc := f.pc, eval := f.ev, ecause := causeWord cause false, enext := f.pc }).record { rec with gen := x.gen.toNat }

/-- A request that fails for good: it is performed nowhere, and its requester is frozen with the cause given and `eval` the address it names; a
channel's chain ends with CODE 2, an engine's command with a freeze, a footprint's task alone fails, and the host's access is answered
FAULT (21 Table 21.4; 23 R368, R376). -/
def State.podFail (s : State) (f : PodFlight) (silent : Bool) : State :=
  let s : State := { s with stores := s.stores.filter fun e =>
    !(e.party.thr == f.thr && f.thr != 0 && e.seq == f.seq && e.part.loc == .pod f.module f.pa) }
  match f.by_ with
  | .thread w =>
    if silent then s.freezePod f w cTranslation (s.mkRec 9 2 1 f.ctx w.tile w.slot 4 (wd f.pa) f.ev f.pc)
    else s.freezePod f w cProtection (s.mkRec 2 2 1 f.ctx w.tile w.slot cProtection f.ev 0 f.pc)
  | .chan t ch => s.modHead t ch fun h => h.stopAt (h.recAt f.seq) (if silent then noReply else 2) (if silent then wd f.pa else f.ev)
  | .eng cl e =>
    s.freezeEngine cl e ((s.eng cl e).opc.getD 0) ⟨3, if silent then linkCause else 1, if silent then wd f.pa else f.ev⟩
  | .task k => s.failTask k
  | .module => { s with pods := s.pods ++ [{ f with code := if silent then podSilent else podRefused }] }


/-- POD_REQUEST_FREEZE (23 R376): 10 ms without a reply freeze the requester; the record is of class LINK. -/
def execPodRequestFreeze (k : Nat) (s : State) : Host.Outcome State Fault Refusal :=
  .next <|
    match s.pods[k]? with
    | none => s
    | some f =>
      if s.now < f.firstAt + 22500000 ∨ f.waits = false then s
      else ({ s with pods := listDrop1 s.pods k } : State).podFail f true

/-- The responder refuses a request, by its export table or in recovery mode: the protection trap, which freezes (15 R303; 23 R376). -/
def State.podRefuse (s : State) (k : Nat) : State :=
  match s.pods[k]? with
  | none => s
  | some f => if f.waits then ({ s with pods := listDrop1 s.pods k } : State).podFail f false else s

/-- What another module writes into its own memory, or performs there for others: the next access to the place finds it (15 R303). -/
def State.podRemote (s : State) (m pa : Nat) (data : List Byte) : State :=
  if m = s.caps.moduleNo then s else s.putBytes (.pod m pa) data

/-- Whether a request comes by a port that carries Shoheosh (15 R302). -/
def State.podPort (s : State) (r : PodReq) : Bool :=
  s.ready && decide (1 ≤ r.port ∧ r.port ≤ 12) && s.caps.podMode.getLsbD (r.port - 1)

/-- A physical range this module may serve to another (15 R303, R304). -/
def State.admits (s : State) (r : PodReq) (n : Nat) : Bool :=
  s.ready && !s.recovery && (n == 8 || n == 16 || n == 64 || n == 128 || n == 256) && r.pa % n == 0 &&
    decide (r.pa + n ≤ 24 * 2 ^ 36) && s.exports.contains (r.pa / 65536)

/-- A reply to another module: the transaction code, and 0 done or 1 refused. -/
def State.podReply (s : State) (r : PodReq) (code status : Nat) (data : List Byte) : State :=
  { s with replies := s.replies ++ [.pod r.port r.module r.lseq r.reqId r.ctx code status data] }

/-- Identity of a requesting tile in the deduplication table (23 R375). -/
def podWho (r : PodReq) : Nat := r.module * 4096 + r.tile

/-- The old value stored for a request already performed (23 R375). -/
def State.seen (s : State) (r : PodReq) : Option Word :=
  ((s.clu (s.homeSlice r.pa)).dedup.find? fun e =>
    e.1 == r.reqId % 2 ^ 24 && e.2.1 == podWho r && decide (s.now < e.2.2.1 + 2250000)).map fun e => e.2.2.2

/-- A write request performed exactly once (23 R375; log 84): a duplicate is answered as before; `none` while its line is not free or the
table has no room. -/
def State.onceOnly (s : State) (r : PodReq) (ps : List Part) (f : State → Word × State) : Option (Word × State) :=
  match s.seen r with
  | some v => some (v, s)
  | none =>
    if s.writeHeld ps then none
    else
      let q := f s
      some (q.1, q.2.modClu (s.homeSlice r.pa) fun c => { c with dedup := notedReq s.now r.reqId (podWho r) q.1 c.dedup })

/-- A WR or AMO performed once, where its line is free and the table has room (15 R304; 23 R375). -/
def State.podPerform (s : State) (r : PodReq) (op : PodOp) : Option State :=
  match op with
  | .wr data =>
    let ps : List Part := [⟨.hbm r.pa, data.length, .home⟩]
    (s.onceOnly r ps fun s => (0, (s.putParts ps data).touchWrites ps 0)).map fun q => q.2.podReply r 2 0 []
  | .amo o b d =>
    let ps : List Part := [⟨.hbm r.pa, 8, .home⟩]
    (s.onceOnly r ps fun s =>
      let q := s.atomic ps o b d
      (q.1, q.2.touchWrites ps 0)).map fun q => q.2.podReply r 3 0 (leBytes 8 q.1.toNat)
  | .cmpl => if s.podIn.any fun e => e.1.module == r.module && e.1.ctx == r.ctx && e.2 != .cmpl then none else some (s.podReply r 4 0 [])

/-- A request performed, or kept waiting. -/
def State.podTake (s : State) (r : PodReq) (op : PodOp) : State :=
  match s.podPerform r op with
  | some s => s
  | none => { s with podIn := s.podIn ++ [(r, op)] }

/-- A request that waited, taken again: a CMPL only once the WR and AMO before it are performed (15 R304). -/
def State.podAgain (s : State) (k : Nat) : State :=
  match s.podIn[k]? with
  | none => s
  | some (r, op) =>
    let rest := listDrop1 s.podIn k
    let seen : State := { s with podIn := if op = .cmpl then s.podIn.take k else rest }
    match seen.podPerform r op with
    | some t => { t with podIn := rest }
    | none => s

/-- SHOHEOSH_RD (15 R302 to R304). -/
def execShoheoshRd (r : PodReq) (size : Nat) (s : State) : Host.Outcome State Fault Refusal :=
  .next <|
    let ps : List Part := [⟨.hbm r.pa, size, .home⟩]
    if s.podPort r = false then s
    else if s.admits r size = false then s.podReply r 1 1 []
    else if s.poisoned ps then (s.poisonHit ps).podReply r 1 1 []
    else s.podReply r 1 0 (s.getParts ps)

/-- SHOHEOSH_WR (15 R302 to R304; 23 R375). -/
def execShoheoshWr (r : PodReq) (data : List Byte) (s : State) : Host.Outcome State Fault Refusal :=
  .next <|
    let ps : List Part := [⟨.hbm r.pa, data.length, .home⟩]
    if s.podPort r = false then s
    else if s.admits r data.length = false then s.podReply r 2 1 []
    else if s.poisoned ps then (s.poisonHit ps).podReply r 2 1 []
    else s.podTake r (.wr data)

/-- SHOHEOSH_AMO (15 R302 to R304; 23 R375): performed exactly once. -/
def execShoheoshAmo (r : PodReq) (op : Nat) (b d : Word) (s : State) : Host.Outcome State Fault Refusal :=
  .next <|
    let ps : List Part := [⟨.hbm r.pa, 8, .home⟩]
    if s.podPort r = false then s
    else if s.admits r 8 = false ∨ op < 0x1F ∨ 0x28 < op then s.podReply r 3 1 []
    else if s.poisoned ps then (s.poisonHit ps).podReply r 3 1 []
    else s.podTake r (.amo op b d)

/-- SHOHEOSH_CMPL (15 R302, R304): answered once every earlier WR and AMO of the requester and context is performed. -/
def execShoheoshCmpl (r : PodReq) (s : State) : Host.Outcome State Fault Refusal :=
  .next (if s.podPort r = false then s else if s.recovery then s.podReply r 4 1 [] else s.podTake r .cmpl)

end Sys2Proof.Machine
end

