-- ==== Sys2Proof/Machine/Start.lean ====
section
/-! DEFINITION. Starts: COLD_START and WARM_START (15 R311 to R314; 14 R279 to R281, R296, R407; 24 R391, R394) and the image
update that leads to one. -/

namespace Sys2Proof.Machine

/-- The self-test of step 3 on one tile (24 R391): a tile that fails is retired, and a failed router is switched off; one whose margin is not among the start's
findings keeps MARG (log 12). -/
def State.startTest (s : State) (inp : StartIn) (p : Nat) : State :=
  let q := s.ptile p
  let router := inp.routers.contains p
  let pass := !inp.failed.contains p && !router
  let a := match inp.margins.find? fun e => e.1 == p with
    | some e => q.age.tested pass e.2
    | none => { q.age with flag := !pass }.withEol
  if pass then
    let s := s.setPtile p { q with age := a }
    if a.flag then s.record (s.physRec 11 0 2 p) else s
  else (s.setPtile p { { q with age := a }.retire with routerDown := q.routerDown || router }).record (s.physRec 11 0 1 p)

/-- Tiles that step 3 tests: every tile, or at a warm start only those flagged or failed (15 Table 15.7). -/
def State.startTests (s : State) (cold : Bool) (inp : StartIn) : List Nat :=
  (List.range 3072).filter fun p =>
    let q := s.ptile p
    cold || (!q.age.ret && (q.age.flag || inp.failed.contains p || inp.routers.contains p))

/-- A slab that boots: its image and its map pass their checks (15 R312). -/
def slabBoots (inp : StartIn) (slab : Nat) : Bool := !inp.badImage.contains slab && !inp.badMap.contains slab

/-- Fit tiles of a slab (14 R279). -/
def State.fitTiles (s : State) (slab : Nat) : List Nat := (slabPhys slab).filter fun p => !(s.ptile p).age.ret

/-- Rows r a slab can advertise (14 R296). -/
def State.slabHeight (s : State) (inp : StartIn) (slab : Nat) : Nat :=
  let g := if slabBoots inp slab then (s.fitTiles slab).length else 0
  let r := min 7 ((g - 5) / 8)
  if r < 5 then 0 else r

/-- Rows advertised by each slab row (14 R296). -/
def State.heights (s : State) (inp : StartIn) : List Nat :=
  (List.range 8).map fun sy => (List.range 6).foldl (fun m sx => min m (s.slabHeight inp (6 * sy + sx))) 7

/-- Rows in the order in which a column's fit tiles become gaps (14 R407 step 2). -/
def gapOrder (c : Nat) : List Nat :=
  let d := gapRow c
  d :: ((List.range 7).flatMap fun k => [d - (k + 1), d + (k + 1)].filter fun r => decide (1 ≤ r ∧ r ≤ 6 ∧ (r + k + 1 = d ∨ r = d + k + 1))) ++
    [0, 7]

/-- Rows of a column that serve `h` virtual rows when the rows given are fit: the gaps are taken first (14 R407 steps 2, 3). -/
def servingRows (c h : Nat) (fit : List Nat) : List Nat :=
  let out := ((gapOrder c).filter fun r => fit.contains r).take (fit.length - h)
  (fit.filter fun r => !out.contains r).take h

/-- Row a virtual row of a column would take were all its tiles fit. -/
def wouldRow (c h v : Nat) : Nat := (servingRows c h (List.range 8)).getD v 0

/-- Fit rows of a physical column of a slab. -/
def State.fitRows (s : State) (slab c : Nat) : List Nat := (List.range 8).filter fun r => !(s.ptile (64 * slab + 8 * r + c)).age.ret

/-- Tile numbers, within the slab, that serve, each with the column and virtual row it serves: own columns (14 R407). -/
def State.ownServing (s : State) (slab h : Nat) : List (Nat × Nat × Nat) :=
  (List.range 8).flatMap fun c =>
    let rows := servingRows c h (s.fitRows slab c)
    (List.range rows.length).map fun v => (8 * rows.getD v 0 + c, c, v)

/-- Distance of two numbers. -/
def dist (a b : Nat) : Nat := (a - b) + (b - a)

/-- The displaced virtual tiles of a slab, each with the nearest free gap of another column (14 R407 step 3). -/
def State.displaceAll (h : Nat) (free : List Nat) : List (Nat × Nat) → List (Nat × Nat × Nat)
  | [] => []
  | (c, v) :: r =>
    let key (p : Nat) : Nat := dist (p % 8) c * 1024 + dist (p / 8) (wouldRow c h v) * 64 + p
    match listMin key (free.filter fun p => p % 8 != c) with
    | some p => (p, c, v) :: State.displaceAll h (free.filter fun q => q != p) r
    | none => State.displaceAll h free r

/-- A slab's placement: each serving tile number with its column and virtual row, and the gaps that remain (14 R407). -/
def State.placement (s : State) (slab h : Nat) : List (Nat × Nat × Nat) × List Nat :=
  let own := s.ownServing slab h
  let free := ((s.fitTiles slab).map fun p => p % 64).filter fun p => !own.any fun e => e.1 == p
  let missing := (List.range 8).flatMap fun c =>
    ((List.range h).filter fun v => !own.any fun e => e.2 == (c, v)).map fun v => (c, v)
  let moved := State.displaceAll h free missing
  (own ++ moved, free.filter fun p => !moved.any fun e => e.1 == p)

/-- The four gaps that rest: default-row tiles of even columns, of odd columns, then the others (14 R407 step 4). -/
def restingOf (gaps : List Nat) : List Nat :=
  let dflt (c : Nat) : Nat := 8 * gapRow c + c
  let first := [0, 2, 4, 6, 1, 3, 5, 7].map dflt
  ((first.filter fun p => gaps.contains p) ++ gaps.filter fun p => !first.contains p).take 4

/-- Role of a physical tile after a start (14 R279, R407). -/
def startRole (ret serves : Bool) (up : Bool) (rests : Bool) : Role :=
  if ret then .retired else if !up then .offline else if serves then .serving else if rests then .resting else .spare

/-- A slab's tiles placed: roles with every direction north, and the embedding's entries (14 R407). -/
def State.placeSlab (s : State) (inp : StartIn) (hs : List Nat) (slab : Nat) : List (Nat × PTile) × List (Nat × Nat) :=
  let h := hs.getD (slab / 6) 0
  let y0 := (hs.take (slab / 6)).foldl (· + ·) 0
  let up := slabBoots inp slab && decide (0 < h)
  let pl := if up then s.placement slab h else ([], [])
  let rest := restingOf pl.2
  ((List.range 64).map fun n =>
      let q := s.ptile (64 * slab + n)
      let role := startRole q.age.ret (pl.1.any fun e => e.1 == n) up (rest.contains n)
      (64 * slab + n, { q with
        role := role, north := true, since := s.now, testing := role == .resting, bandAt := none, sampledAt := none, gated := false }),
    pl.1.map fun e => (tileAt (8 * (slab % 6) + e.2.1) (y0 + e.2.2), 64 * slab + e.1))

/-- Physical tiles one link away: seams and wrap links of an edge that is down, and routers switched off, count as down
(14 R280; 23 R374; 24 R391). -/
def State.linkedTo (s : State) (p : Nat) : List Nat :=
  let x := panelX p
  let y := panelY p
  let east (q : Nat) : Bool := panelX q % 8 == 7 && s.edgeDown (q / 64) 0
  let south (q : Nat) : Bool := panelY q % 8 == 7 && s.edgeDown (q / 64) 1
  let w := physAt ((x + 47) % 48) y
  let n := physAt x ((y + 63) % 64)
  if (s.ptile p).routerDown then []
  else
    ((if east p then [] else [physAt ((x + 1) % 48) y]) ++ (if east w then [] else [w]) ++
      (if south p then [] else [physAt x ((y + 1) % 64)]) ++ (if south n then [] else [n])).filter fun q => !(s.ptile q).routerDown

/-- Links on the shortest path between two physical tiles, searched outward up to a bound. -/
def State.linkDistance (s : State) (b : Nat) : Nat → List Nat → Nat → Nat
  | 0, _, d => d
  | fuel + 1, reach, d =>
    if reach.contains b then d
    else s.linkDistance b fuel (reach ++ (reach.flatMap s.linkedTo).eraseDups.filter fun q => !reach.contains q) (d + 1)

/-- The largest stretch of a pair of logical neighbours (14 R280); 255 where no path joins a pair (log 7). -/
def State.largestStretch (s : State) : Nat :=
  (List.range (48 * s.caps.height)).foldl (fun m t =>
    [0, 1].foldl (fun m d => max m (s.linkDistance (s.phys (s.neighbour t d)) 255 [s.phys t] 0)) m) 0

/-- A slab's defect map as a start finds it, with the digest that its signature is over (24 R394): its retired tiles, the withdrawn pages of its
stack, its link modules DOWN. -/
def State.defectMap (s : State) (slab : Nat) : DefectMap :=
  let ts := (slabPhys slab).filter fun p => (s.ptile p).age.ret
  let ps := s.withdrawn.filter fun n => n * 65536 / 2 ^ 36 == stackOf slab
  let ls := ((List.range 4).map fun k => 4 * slab + k).filter fun k => s.linkState k == 3
  ⟨ts, ps, ls, shake256 (Config.mapBytes ts ps ls)⟩

/-- A link module after a warm start, which trains none: its state and the CRC failures of its ends run on (15 R311; log 23). -/
def Link.warm (l : Link) : Link :=
  { l with bursts := [], falls := none, ends := l.ends.map fun q => ⟨0, [], 0, q.crcerr, 0, false, []⟩ }

/-- Steps 6 and 7 (15 Table 15.7): context memory cleared, nothing open, dimensions, groups, pointers and roles afresh. The
counters that no register table gives a cold-start value run on: `cyc`, the module log, the ageing records (log 23). -/
def State.embed (s : State) (cold : Bool) (inp : StartIn) : State :=
  let hs := s.heights inp
  let ps := (List.range 48).map fun k => s.placeSlab inp hs k
  let vm := ((ps.flatMap fun e => e.2).foldl (fun m e => kvSet m e.1 e.2) [] : List (Nat × Nat))
  let tiles := (List.range (48 * hs.foldl (· + ·) 0)).map fun t =>
    (t, { Tile.cold with cycBase := (s.tile t).cycBase, boundary := s.now })
  let clusters := (List.range 192).map fun c =>
    (c, { Cluster.cold with
          filled := s.now + 1
          engines := Vector.ofFn fun e => { Engine.cold with inService := !inp.engOut.contains (16 * c + e.val) } })
  let slabs := (List.range 48).map fun k =>
    (k, { Slab.cold with booted := slabBoots inp k, defects := s.defectMap k })
  let s' : State := { State.reset with
    now := s.now, agenda := s.agenda, fresh := s.fresh, tiles := tiles, ptiles := ps.flatMap fun e => e.1
    clusters := clusters, slabs := slabs, vmap := vm, vmap0 := vm
    caps := { hs := hs, maxRing := min 48 inp.maxRing, moduleNo := inp.moduleNo % 16384, podSize := inp.podSize % 16384
              podMode := inp.podMode, engOut := inp.engOut }
    podMem := s.podMem, quarantine := s.quarantine, withdrawn := s.withdrawn, flog := s.flog, fseq := s.fseq, flost := s.flost
    links := if cold then [] else s.links.map fun e => (e.1, e.2.warm)
    replies := s.replies, alog := inp.images.map shake256, image := s.image, hbmCorr := s.hbmCorr, routes := s.routes }
  { s' with stretch := s'.largestStretch }

/-- Recovery mode: step 1 failed, so no later step ran (15 R312; 24 R394). -/
def State.recover (s : State) : State :=
  { State.reset with
    now := s.now, agenda := s.agenda, fresh := s.fresh, recovery := true, ptiles := s.ptiles, hbm := s.hbm, poison := s.poison
    quarantine := s.quarantine, podMem := s.podMem, withdrawn := s.withdrawn, flog := s.flog, fseq := s.fseq, flost := s.flost
    links := s.links, replies := s.replies, image := s.image, hbmCorr := s.hbmCorr
    bootRec := some { s.physRec 13 6 3 0 with mkind := 0 } }

/-- Records of the slabs that do not boot (24 R394). -/
def State.bootRecords (s : State) (inp : StartIn) : State :=
  (List.range 48).foldl (fun s k =>
    let one (c : Nat) (s : State) : State := s.record { s.physRec 13 5 c (64 * k) with mkind := 0 }
    let s := if inp.badImage.contains k then one 1 s else s
    if inp.badMap.contains k then one 2 s else s) s

/-- A start (15 Table 15.7). -/
def State.start (s : State) (cold : Bool) (inp : StartIn) : State :=
  if inp.ctrlOk = false then s.recover
  else
    let s := s.bootRecords inp
    let s := (s.startTests cold inp).foldl (fun s p => s.startTest inp p) s
    s.embed cold inp

/-- COLD_START (15 R311). -/
def execColdStart (inp : StartIn) (s : State) : Host.Outcome State Fault Refusal := .next (s.start true inp)

/-- WARM_START (15 R311): HBM, seam and wrap-link training are skipped; unflagged tiles are not tested. -/
def execWarmStart (inp : StartIn) (s : State) : Host.Outcome State Fault Refusal := .next (s.start false inp)

/-- MGMT_IMAGE_UPDATE (15 R312; 24 R394): outside recovery mode the manual gives an update no effect, so it is refused. -/
def execMgmtImageUpdate (h : HostHdr) (named verifies : Bool) (image : List Byte) (inp : StartIn) (s : State) :
    Host.Outcome State Fault Refusal :=
  .next <|
    if s.ready = false then s
    else if s.recovery = true ∧ (hdrBad h 4 = true ∨ named = false ∨ verifies = false) then s.refuseMgmt h named
    else if hdrBad h 4 then s.reply h rBADREQ []
    else if s.recovery = false then s.refuseMgmt h named
    else
      let s := s.mgmtReply h rOK []
      ({ s with image := image } : State).start true inp

end Sys2Proof.Machine
end

