-- ==== Sys2Proof/Machine/Dispatch.lean ====
section
/-! DEFINITION. One arm per instruction and per step of another agent, each one call of its meaning. -/

namespace Sys2Proof.Machine

/-- The effect of one row of the opcode table. -/
def exec (i : Instr) (s : State) : Host.Outcome State Fault Refusal :=
  match i with
  | .add d a b g => Sys2Proof.Machine.execAdd d a b g s
  | .sub d a b g => Sys2Proof.Machine.execSub d a b g s
  | .and d a b g => Sys2Proof.Machine.execAnd d a b g s
  | .or d a b g => Sys2Proof.Machine.execOr d a b g s
  | .xor d a b g => Sys2Proof.Machine.execXor d a b g s
  | .andn d a b g => Sys2Proof.Machine.execAndn d a b g s
  | .shl d a b g => Sys2Proof.Machine.execShl d a b g s
  | .shr d a b g => Sys2Proof.Machine.execShr d a b g s
  | .sar d a b g => Sys2Proof.Machine.execSar d a b g s
  | .rol d a b g => Sys2Proof.Machine.execRol d a b g s
  | .min d a b g => Sys2Proof.Machine.execMin d a b g s
  | .max d a b g => Sys2Proof.Machine.execMax d a b g s
  | .minn d a b g => Sys2Proof.Machine.execMinn d a b g s
  | .maxn d a b g => Sys2Proof.Machine.execMaxn d a b g s
  | .mul d a b g => Sys2Proof.Machine.execMul d a b g s
  | .mulh d a b g => Sys2Proof.Machine.execMulh d a b g s
  | .mulhn d a b g => Sys2Proof.Machine.execMulhn d a b g s
  | .clz d a g => Sys2Proof.Machine.execClz d a g s
  | .ctz d a g => Sys2Proof.Machine.execCtz d a g s
  | .popc d a g => Sys2Proof.Machine.execPopc d a g s
  | .brev d a g => Sys2Proof.Machine.execBrev d a g s
  | .bswap d a g => Sys2Proof.Machine.execBswap d a g s
  | .sx8 d a g => Sys2Proof.Machine.execSx8 d a g s
  | .sx16 d a g => Sys2Proof.Machine.execSx16 d a g s
  | .sx32 d a g => Sys2Proof.Machine.execSx32 d a g s
  | .zx8 d a g => Sys2Proof.Machine.execZx8 d a g s
  | .zx16 d a g => Sys2Proof.Machine.execZx16 d a g s
  | .zx32 d a g => Sys2Proof.Machine.execZx32 d a g s
  | .sel d a b p => Sys2Proof.Machine.execSel d a b p s
  | .abs d a g => Sys2Proof.Machine.execAbs d a g s
  | .div d a b la p => Sys2Proof.Machine.execDiv d a b la p s
  | .divn d a b la p => Sys2Proof.Machine.execDivn d a b la p s
  | .rem d a b la p => Sys2Proof.Machine.execRem d a b la p s
  | .remn d a b la p => Sys2Proof.Machine.execRemn d a b la p s
  | .addi d a imm => Sys2Proof.Machine.execAddi d a imm s
  | .andi d a imm => Sys2Proof.Machine.execAndi d a imm s
  | .ori d a imm => Sys2Proof.Machine.execOri d a imm s
  | .xori d a imm => Sys2Proof.Machine.execXori d a imm s
  | .shli d a cnt => Sys2Proof.Machine.execShli d a cnt s
  | .shri d a cnt => Sys2Proof.Machine.execShri d a cnt s
  | .sari d a cnt => Sys2Proof.Machine.execSari d a cnt s
  | .muli d a imm => Sys2Proof.Machine.execMuli d a imm s
  | .ceqi pd a imm => Sys2Proof.Machine.execCeqi pd a imm s
  | .clti pd a imm => Sys2Proof.Machine.execClti pd a imm s
  | .cltni pd a imm => Sys2Proof.Machine.execCltni pd a imm s
  | .movh d imm => Sys2Proof.Machine.execMovh d imm s
  | .lpca d imm => Sys2Proof.Machine.execLpca d imm s
  | .ceq pd a b g => Sys2Proof.Machine.execCeq pd a b g s
  | .cne pd a b g => Sys2Proof.Machine.execCne pd a b g s
  | .clt pd a b g => Sys2Proof.Machine.execClt pd a b g s
  | .cle pd a b g => Sys2Proof.Machine.execCle pd a b g s
  | .cltn pd a b g => Sys2Proof.Machine.execCltn pd a b g s
  | .clen pd a b g => Sys2Proof.Machine.execClen pd a b g s
  | .ctst pd a b g => Sys2Proof.Machine.execCtst pd a b g s
  | .pand pd pa pb g => Sys2Proof.Machine.execPand pd pa pb g s
  | .por pd pa pb g => Sys2Proof.Machine.execPor pd pa pb g s
  | .pxor pd pa pb g => Sys2Proof.Machine.execPxor pd pa pb g s
  | .pandn pd pa pb g => Sys2Proof.Machine.execPandn pd pa pb g s
  | .pget d g => Sys2Proof.Machine.execPget d g s
  | .pput a g => Sys2Proof.Machine.execPput a g s
  | .fadd d a b g => Sys2Proof.Machine.execFadd d a b g s
  | .fsub d a b g => Sys2Proof.Machine.execFsub d a b g s
  | .fmul d a b g => Sys2Proof.Machine.execFmul d a b g s
  | .ffma d a b g => Sys2Proof.Machine.execFfma d a b g s
  | .fmin d a b g => Sys2Proof.Machine.execFmin d a b g s
  | .fmax d a b g => Sys2Proof.Machine.execFmax d a b g s
  | .fcvt d a ty rm g => Sys2Proof.Machine.execFcvt d a ty rm g s
  | .fceq pd a b g => Sys2Proof.Machine.execFceq pd a b g s
  | .fclt pd a b g => Sys2Proof.Machine.execFclt pd a b g s
  | .fcle pd a b g => Sys2Proof.Machine.execFcle pd a b g s
  | .fcls pd a mask g => Sys2Proof.Machine.execFcls pd a mask g s
  | .fdiv d a b la p => Sys2Proof.Machine.execFdiv d a b la p s
  | .fsqr d a la p => Sys2Proof.Machine.execFsqr d a la p s
  | .b p sense off => Sys2Proof.Machine.execB p sense off s
  | .bl p sense off => Sys2Proof.Machine.execBl p sense off s
  | .jr a g => Sys2Proof.Machine.execJr a g s
  | .jlr d a g => Sys2Proof.Machine.execJlr d a g s
  | .brk n g => Sys2Proof.Machine.execBrk n g s
  | .wjoin a b g => Sys2Proof.Machine.execWjoin a b g s
  | .wleave a g => Sys2Proof.Machine.execWleave a g s
  | .wwork g => Sys2Proof.Machine.execWwork g s
  | .wsafe g => Sys2Proof.Machine.execWsafe g s
  | .loop c eo => Sys2Proof.Machine.execLoop c eo s
  | .loopi n eo => Sys2Proof.Machine.execLoopi n eo s
  | .ld8s t base am rd la p => Sys2Proof.Machine.execLd8s t base am rd la p s
  | .ld8z t base am rd la p => Sys2Proof.Machine.execLd8z t base am rd la p s
  | .ld16s t base am rd la p => Sys2Proof.Machine.execLd16s t base am rd la p s
  | .ld16z t base am rd la p => Sys2Proof.Machine.execLd16z t base am rd la p s
  | .ld32s t base am rd la p => Sys2Proof.Machine.execLd32s t base am rd la p s
  | .ld32z t base am rd la p => Sys2Proof.Machine.execLd32z t base am rd la p s
  | .ld64 t base am rd la p => Sys2Proof.Machine.execLd64 t base am rd la p s
  | .ld128 t base am rd la p => Sys2Proof.Machine.execLd128 t base am rd la p s
  | .lda32 t base am la p sc => Sys2Proof.Machine.execLda32 t base am la p sc s
  | .lda64 t base am la p sc => Sys2Proof.Machine.execLda64 t base am la p sc s
  | .st8 t base am rd la p => Sys2Proof.Machine.execSt8 t base am rd la p s
  | .st16 t base am rd la p => Sys2Proof.Machine.execSt16 t base am rd la p s
  | .st32 t base am rd la p => Sys2Proof.Machine.execSt32 t base am rd la p s
  | .st64 t base am rd la p => Sys2Proof.Machine.execSt64 t base am rd la p s
  | .st128 t base am rd la p => Sys2Proof.Machine.execSt128 t base am rd la p s
  | .stl32 t base am la p sc => Sys2Proof.Machine.execStl32 t base am la p sc s
  | .stl64 t base am la p sc => Sys2Proof.Machine.execStl64 t base am la p sc s
  | .amoadd d a b la os => Sys2Proof.Machine.execAmoadd d a b la os s
  | .amoand d a b la os => Sys2Proof.Machine.execAmoand d a b la os s
  | .amoor d a b la os => Sys2Proof.Machine.execAmoor d a b la os s
  | .amoxor d a b la os => Sys2Proof.Machine.execAmoxor d a b la os s
  | .amomin d a b la os => Sys2Proof.Machine.execAmomin d a b la os s
  | .amomax d a b la os => Sys2Proof.Machine.execAmomax d a b la os s
  | .amominn d a b la os => Sys2Proof.Machine.execAmominn d a b la os s
  | .amomaxn d a b la os => Sys2Proof.Machine.execAmomaxn d a b la os s
  | .amoswp d a b la os => Sys2Proof.Machine.execAmoswp d a b la os s
  | .cas d a b la os => Sys2Proof.Machine.execCas d a b la os s
  | .fence os g => Sys2Proof.Machine.execFence os g s
  | .drain path g => Sys2Proof.Machine.execDrain path g s
  | .mroute d a g => Sys2Proof.Machine.execMroute d a g s
  | .mprobe d a g => Sys2Proof.Machine.execMprobe d a g s
  | .migrate a g => Sys2Proof.Machine.execMigrate a g s
  | .xcopy d a ch la p => Sys2Proof.Machine.execXcopy d a ch la p s
  | .xred d a ch la p => Sys2Proof.Machine.execXred d a ch la p s
  | .lease f kind prio la p => Sys2Proof.Machine.execLease f kind prio la p s
  | .erd d f n la p => Sys2Proof.Machine.execErd d f n la p s
  | .free f g => Sys2Proof.Machine.execFree f g s
  | .ewr f a n g => Sys2Proof.Machine.execEwr f a n g s
  | .eguard f a sl g => Sys2Proof.Machine.execEguard f a sl g s
  | .gres pa sl g => Sys2Proof.Machine.execGres pa sl g s
  | .mstep ovw n a b la p => Sys2Proof.Machine.execMstep ovw n a b la p s
  | .mwld fmt a b la p => Sys2Proof.Machine.execMwld fmt a b la p s
  | .mst rm ty a b la p => Sys2Proof.Machine.execMst rm ty a b la p s
  | .mrd v b la p => Sys2Proof.Machine.execMrd v b la p s
  | .mshape a g => Sys2Proof.Machine.execMshape a g s
  | .mfmt a g => Sys2Proof.Machine.execMfmt a g s
  | .mwswp g => Sys2Proof.Machine.execMwswp g s
  | .mring g => Sys2Proof.Machine.execMring g s
  | .mclr a g => Sys2Proof.Machine.execMclr a g s
  | .mscl g => Sys2Proof.Machine.execMscl g s
  | .mbnd k a g => Sys2Proof.Machine.execMbnd k a g s
  | .vadd vd va vb ty g => Sys2Proof.Machine.execVadd vd va vb ty g s
  | .vsub vd va vb ty g => Sys2Proof.Machine.execVsub vd va vb ty g s
  | .vmul vd va vb ty g => Sys2Proof.Machine.execVmul vd va vb ty g s
  | .vfma vd va vb ty g => Sys2Proof.Machine.execVfma vd va vb ty g s
  | .vmin vd va vb ty g => Sys2Proof.Machine.execVmin vd va vb ty g s
  | .vmax vd va vb ty g => Sys2Proof.Machine.execVmax vd va vb ty g s
  | .vsel vd va vb ty g => Sys2Proof.Machine.execVsel vd va vb ty g s
  | .vcmpEq vd va vb ty g => Sys2Proof.Machine.execVcmpEq vd va vb ty g s
  | .vcmpLt vd va vb ty g => Sys2Proof.Machine.execVcmpLt vd va vb ty g s
  | .vcmpLe vd va vb ty g => Sys2Proof.Machine.execVcmpLe vd va vb ty g s
  | .vand vd va vb ty g => Sys2Proof.Machine.execVand vd va vb ty g s
  | .vor vd va vb ty g => Sys2Proof.Machine.execVor vd va vb ty g s
  | .vxor vd va vb ty g => Sys2Proof.Machine.execVxor vd va vb ty g s
  | .vshl vd va vb ty g => Sys2Proof.Machine.execVshl vd va vb ty g s
  | .vshr vd va vb ty g => Sys2Proof.Machine.execVshr vd va vb ty g s
  | .vabs vd va ty g => Sys2Proof.Machine.execVabs vd va ty g s
  | .vneg vd va ty g => Sys2Proof.Machine.execVneg vd va ty g s
  | .vmov vd va ty g => Sys2Proof.Machine.execVmov vd va ty g s
  | .vcvt vd va rm ty g => Sys2Proof.Machine.execVcvt vd va rm ty g s
  | .vrcp vd va ty g => Sys2Proof.Machine.execVrcp vd va ty g s
  | .vrsq vd va ty g => Sys2Proof.Machine.execVrsq vd va ty g s
  | .vexp vd va ty g => Sys2Proof.Machine.execVexp vd va ty g s
  | .vlog vd va ty g => Sys2Proof.Machine.execVlog vd va ty g s
  | .vqnt vd va vb ty g => Sys2Proof.Machine.execVqnt vd va vb ty g s
  | .vdq vd va vb ty g => Sys2Proof.Machine.execVdq vd va vb ty g s
  | .vshp o g => Sys2Proof.Machine.execVshp o g s
  | .vred vd va rop dir ty g => Sys2Proof.Machine.execVred vd va rop dir ty g s
  | .vbc vd o ty g => Sys2Proof.Machine.execVbc vd o ty g s
  | .vtr vd va ty g => Sys2Proof.Machine.execVtr vd va ty g s
  | .vrot vd va o ty g => Sys2Proof.Machine.execVrot vd va o ty g s
  | .vld v a rd am la p => Sys2Proof.Machine.execVld v a rd am la p s
  | .vst v a rd am la p => Sys2Proof.Machine.execVst v a rd am la p s
  | .trap n g => Sys2Proof.Machine.execTrap n g s
  | .eret g => Sys2Proof.Machine.execEret g s
  | .sysr d n g => Sys2Proof.Machine.execSysr d n g s
  | .sysw nh a nl g => Sys2Proof.Machine.execSysw nh a nl g s
  | .sysx d a b g => Sys2Proof.Machine.execSysx d a b g s
  | .tlbi a kind g => Sys2Proof.Machine.execTlbi a kind g s
  | .ckpt g => Sys2Proof.Machine.execCkpt g s
  | .idle g => Sys2Proof.Machine.execIdle g s
  | .halt g => Sys2Proof.Machine.execHalt g s
  | .rot a g => Sys2Proof.Machine.execRot a g s
  | .tins a g => Sys2Proof.Machine.execTins a g s
  | .trem a g => Sys2Proof.Machine.execTrem a g s
  | .tspn a b g => Sys2Proof.Machine.execTspn a b g s
  | .divideComplete w seq => Sys2Proof.Machine.execDivideComplete w seq s
  | .fdivFsqrComplete w seq => Sys2Proof.Machine.execFdivFsqrComplete w seq s
  | .wjoinCommit w => Sys2Proof.Machine.execWjoinCommit w s
  | .loadComplete w seq ecc => Sys2Proof.Machine.execLoadComplete w seq ecc s
  | .tlbWalkComplete slab k poisoned => Sys2Proof.Machine.execTlbWalkComplete slab k poisoned s
  | .storeComplete w seq => Sys2Proof.Machine.execStoreComplete w seq s
  | .migrateArrive k => Sys2Proof.Machine.execMigrateArrive k s
  | .messageDeliver k => Sys2Proof.Machine.execMessageDeliver k s
  | .scaleWordDeliver k => Sys2Proof.Machine.execScaleWordDeliver k s
  | .heldWordEnter tile k => Sys2Proof.Machine.execHeldWordEnter tile k s
  | .sendAckReceive k => Sys2Proof.Machine.execSendAckReceive k s
  | .copyRecord tile ch => Sys2Proof.Machine.execCopyRecord tile ch s
  | .martenServe cl => Sys2Proof.Machine.execMartenServe cl s
  | .engineWakeDone cl e pass => Sys2Proof.Machine.execEngineWakeDone cl e pass s
  | .sortInsert cl e => Sys2Proof.Machine.execSortInsert cl e s
  | .sortEmit cl e => Sys2Proof.Machine.execSortEmit cl e s
  | .sortClear cl e => Sys2Proof.Machine.execSortClear cl e s
  | .matchScan cl e => Sys2Proof.Machine.execMatchScan cl e s
  | .matchReset cl e => Sys2Proof.Machine.execMatchReset cl e s
  | .inflDecode cl e => Sys2Proof.Machine.execInflDecode cl e s
  | .xfrmTransform cl e => Sys2Proof.Machine.execXfrmTransform cl e s
  | .gathToSlot cl e => Sys2Proof.Machine.execGathToSlot cl e s
  | .gathFromSlot cl e => Sys2Proof.Machine.execGathFromSlot cl e s
  | .gathFinish cl e => Sys2Proof.Machine.execGathFinish cl e s
  | .scanPrefix cl e => Sys2Proof.Machine.execScanPrefix cl e s
  | .softSoftmax cl e => Sys2Proof.Machine.execSoftSoftmax cl e s
  | .softExponent cl e => Sys2Proof.Machine.execSoftExponent cl e s
  | .collCollective members => Sys2Proof.Machine.execCollCollective members s
  | .mstepRow w flips => Sys2Proof.Machine.execMstepRow w flips s
  | .mwldComplete w seq => Sys2Proof.Machine.execMwldComplete w seq s
  | .mrdComplete w seq => Sys2Proof.Machine.execMrdComplete w seq s
  | .bandWakeDone tile band => Sys2Proof.Machine.execBandWakeDone tile band s
  | .handoffStart tile => Sys2Proof.Machine.execHandoffStart tile s
  | .handoffArrive tile => Sys2Proof.Machine.execHandoffArrive tile s
  | .vectorComplete w => Sys2Proof.Machine.execVectorComplete w s
  | .owlqSubmit cl => Sys2Proof.Machine.execOwlqSubmit cl s
  | .owlJobServe cl => Sys2Proof.Machine.execOwlJobServe cl s
  | .owlEntrySend cl => Sys2Proof.Machine.execOwlEntrySend cl s
  | .tlbiComplete w => Sys2Proof.Machine.execTlbiComplete w s
  | .ckptComplete w => Sys2Proof.Machine.execCkptComplete w s
  | .rotTakeEffect tile => Sys2Proof.Machine.execRotTakeEffect tile s
  | .trapEntry w => Sys2Proof.Machine.execTrapEntry w s
  | .timerTrap w => Sys2Proof.Machine.execTimerTrap w s
  | .slotOffer w => Sys2Proof.Machine.execSlotOffer w s
  | .hostLaunch h rec => Sys2Proof.Machine.execHostLaunch h rec s
  | .hostWrite h data => Sys2Proof.Machine.execHostWrite h data s
  | .hostRead h => Sys2Proof.Machine.execHostRead h s
  | .hostMgmt h named req => Sys2Proof.Machine.execHostMgmt h named req s
  | .mgmtQuote h named nonce => Sys2Proof.Machine.execMgmtQuote h named nonce s
  | .mgmtImageUpdate h named verifies image inp => Sys2Proof.Machine.execMgmtImageUpdate h named verifies image inp s
  | .mgmtEndTask h named w => Sys2Proof.Machine.execMgmtEndTask h named w s
  | .launchDependenceRead ctx k => Sys2Proof.Machine.execLaunchDependenceRead ctx k s
  | .fanOut => Sys2Proof.Machine.execFanOut s
  | .hoistPlace cl => Sys2Proof.Machine.execHoistPlace cl s
  | .taskDispatch w => Sys2Proof.Machine.execTaskDispatch w s
  | .retirementWordAdd k => Sys2Proof.Machine.execRetirementWordAdd k s
  | .hoistPreempt cl => Sys2Proof.Machine.execHoistPreempt cl s
  | .badgerSpillDone w => Sys2Proof.Machine.execBadgerSpillDone w s
  | .badgerRestoreDone w => Sys2Proof.Machine.execBadgerRestoreDone w s
  | .tokenRefill cl => Sys2Proof.Machine.execTokenRefill cl s
  | .inrushGrant slab => Sys2Proof.Machine.execInrushGrant slab s
  | .clusterGate cl => Sys2Proof.Machine.execClusterGate cl s
  | .gatingSpillDone cl => Sys2Proof.Machine.execGatingSpillDone cl s
  | .clusterWakeHoldEnd cl => Sys2Proof.Machine.execClusterWakeHoldEnd cl s
  | .clusterRestoreDone cl => Sys2Proof.Machine.execClusterRestoreDone cl s
  | .thermalSample pt quarters => Sys2Proof.Machine.execThermalSample pt quarters s
  | .restStep slab => Sys2Proof.Machine.execRestStep slab s
  | .movePrecopyPassEnd tile => Sys2Proof.Machine.execMovePrecopyPassEnd tile s
  | .moveDrainEnd tile => Sys2Proof.Machine.execMoveDrainEnd tile s
  | .moveCopyEnd tile => Sys2Proof.Machine.execMoveCopyEnd tile s
  | .moveRemapEnd tile => Sys2Proof.Machine.execMoveRemapEnd tile s
  | .moveResume tile => Sys2Proof.Machine.execMoveResume tile s
  | .stopDrainEnd tile => Sys2Proof.Machine.execStopDrainEnd tile s
  | .stopCopyEnd tile poisoned => Sys2Proof.Machine.execStopCopyEnd tile poisoned s
  | .stopRemapEnd tile => Sys2Proof.Machine.execStopRemapEnd tile s
  | .stopReplayEnd tile => Sys2Proof.Machine.execStopReplayEnd tile s
  | .autoBoundary tile => Sys2Proof.Machine.execAutoBoundary tile s
  | .selftestDone pt pass routerFailed marg => Sys2Proof.Machine.execSelftestDone pt pass routerFailed marg s
  | .ageingHourly pt quarters => Sys2Proof.Machine.execAgeingHourly pt quarters s
  | .patrolScrub pa res => Sys2Proof.Machine.execPatrolScrub pa res s
  | .quarantineScrub k pass => Sys2Proof.Machine.execQuarantineScrub k pass s
  | .teardown ctx => Sys2Proof.Machine.execTeardown ctx s
  | .overflowHandlerRestart cl => Sys2Proof.Machine.execOverflowHandlerRestart cl s
  | .frameArrive port vlan fcsOk bufFull frame => Sys2Proof.Machine.execFrameArrive port vlan fcsOk bufFull frame s
  | .linkFlitReceive link num bad ack => Sys2Proof.Machine.execLinkFlitReceive link num bad ack s
  | .linkNakReceive link expected => Sys2Proof.Machine.execLinkNakReceive link expected s
  | .linkBurstExpire link => Sys2Proof.Machine.execLinkBurstExpire link s
  | .linkRetrainEnd link => Sys2Proof.Machine.execLinkRetrainEnd link s
  | .podRequestResend k => Sys2Proof.Machine.execPodRequestResend k s
  | .podRequestFreeze k => Sys2Proof.Machine.execPodRequestFreeze k s
  | .shoheoshRd r size => Sys2Proof.Machine.execShoheoshRd r size s
  | .shoheoshWr r data => Sys2Proof.Machine.execShoheoshWr r data s
  | .shoheoshAmo r op b d => Sys2Proof.Machine.execShoheoshAmo r op b d s
  | .shoheoshCmpl r => Sys2Proof.Machine.execShoheoshCmpl r s
  | .coldStart inp => Sys2Proof.Machine.execColdStart inp s
  | .warmStart inp => Sys2Proof.Machine.execWarmStart inp s
  | .redundantCommit k => Sys2Proof.Machine.execRedundantCommit k s
  | .erdComplete w seq poisoned => Sys2Proof.Machine.execErdComplete w seq poisoned s

end Sys2Proof.Machine
end

