-- ==== Sys2Proof/Machine/Sched.lean ====
section
/-! DEFINITION. A turn of the schedule: the instruction a slot issues, fetched and decoded (02 R22, R31, R46; 04 R63; 22 R350,
R353), a step of another agent, or the passing of cycles; and the default order of turns (log 1). -/

namespace Sys2Proof.Machine

/-- Whether the cycle is one in which a slot issues: its issue position has come, it has not issued yet, and no step of another
agent has been made in the cycle, but that by which its tile has resumed (02 R21 to R23, R29, R31; 14 Table 14.4; log 1). -/
def State.turnHere (s : State) (w : Who) : Bool :=
  let x := s.slot w
  let t := s.tile w.tile
  decide (x.lastIssue ≤ s.now) && (decide (s.stepAt ≤ s.now) || t.resumed == s.now + 1) && (t.positions w.slot).contains (s.posOf w.tile)

/-- Slots of the module that hold something. -/
def State.slotsOf (s : State) : List Who := s.tiles.flatMap fun e => e.2.slots.map fun x => ⟨e.1, x.1⟩

/-- What a fetch comes to: the word with the place it was read from, the cause of a trap, or a wait for its translation. -/
inductive Fetched where
  | word (v : IWord) (ps : List Part) (s : State)
  | trap (cause : Nat) (s : State)
  | wait (s : State)

/-- The word a thread fetches from a place: one that its tile has captured since the thread's latest acquire fence, or the present one
(12 R253). -/
def State.fetchWord (s : State) (w : Who) (l : Loc) (ps : List Part) : IWord :=
  match l with
  | .hbm pa =>
    match (s.tile w.tile).istore.find? fun e => e.1 == pa && decide ((s.slot w).fetchAt ≤ e.2.2) with
    | some e => e.2.1
    | none => BitVec.ofNat 32 (leNat (s.getParts ps))
  | _ => BitVec.ofNat 32 (leNat (s.getParts ps))

/-- The word at the thread's PC, through the tile's TLB with an execute permission (11 R232, R233). A translation that takes cycles puts
the thread in WAIT; with `now` it does not: the thread has waited for it, or is a wave's head, which never waits (02 R34; log 79). A word of
another module is a request to it (15 R303, R304). -/
def State.fetch (s : State) (w : Who) (now : Bool) : Fetched :=
  let x := s.slot w
  let pc := x.pc.toNat
  let ctx := x.ctx.getD 0
  let held (s : State) (d : Nat) : State := s.modSlot w fun x => { x with st := .wait, why := .fetch, waitUntil := some (s.now + d) }
  match s.globPiece w.tile ctx pc .exec (if now then .now else .thread) with
  | (.ok (l, plc, d), s') =>
    if d ≠ 0 ∧ now = false then .wait (held s' d)
    else
      let l := s'.shadowLoc x.red pc .exec l
      let ps : List Part := [⟨l, 4, plc⟩]
      if hasPod ps = false ∨ x.inWave = true then .word (s'.fetchWord w l ps) ps s'
      else if ps.any s'.podClosed then .wait (held s' 1)
      else if s'.pods.any fun f => f.by_ == .thread w && f.thr == x.thr && f.seq == x.iseq + 1 && l == Loc.pod f.module f.pa then
        .word (s'.fetchWord w l ps) ps (s'.dropPodBy (.thread w) (x.iseq + 1) l)
      else .wait (held (s'.addPod w (x.iseq + 1) 1 x.pc x.pc ps) 2250)
  | (.error (.bad c), s') => .trap (if c = cTranslation then cFetchTrans else cFetchProt) s'
  | (.error (.miss va), s') => .wait (held (s'.startWalk w.tile ctx va) 0)
  | (.error _, s') => .trap cFetchTrans s'

/-- Whether a thread's fetch waits on a walk still in flight (11 R233). -/
def State.walking (s : State) (w : Who) : Bool :=
  let x := s.slot w
  let pg := s.walkPage (x.ctx.getD 0) x.pc.toNat
  s.slabs.any fun b => (b.2.walks ++ b.2.waitWalks).any fun k => k.ctx == x.ctx.getD 0 && k.va == pg && k.tiles.contains w.tile

/-- The instruction a word names, run by the thread whose turn it is; a word that names none is an illegal instruction
(22 R350). -/
def State.runWord (s : State) (v : IWord) : Host.Outcome State Fault Refusal :=
  match decode v with
  | .ok i => exec i s
  | .error _ => .next (s.raise s.focus cIllegal (v.setWidth 64) s.cur.pc)

/-- The instruction a wave's row passes to a member (02 R31). -/
def State.runMember (s : State) (w : Who) (r : WaveRef) : Host.Outcome State Fault Refusal :=
  match (s.wave? r.id).bind fun v => (v.stream.getD r.j [])[r.idx]? with
  | none => .next s
  | some e => (s.modSlot w fun x => { x with pc := e.pc }).runWord (e.word.setWidth 32)

/-- The instruction at the thread's PC: fetch traps come before its word is read (22 R353 step 2); an uncorrectable error in
the word read is a memory fault (23 R363). -/
def State.runFetched (s : State) (w : Who) (now : Bool) : Host.Outcome State Fault Refusal :=
  match s.fetch w now with
  | .trap c s' => .next (s'.raise w c (s.slot w).pc (s.slot w).pc)
  | .wait s' => .next s'
  | .word v ps s' =>
    if absent ps then .fault .absentStack
    else if s'.poisoned ps then .next (s'.poisonHit ps) else s'.runWord v

/-- The instruction that a thread outside waves would issue now, where its word is at hand. -/
def State.nextInstr (s : State) (w : Who) : Option Instr :=
  if (s.slot w).inWave then none
  else match s.fetch w true with
    | .word v _ _ => match decode v with
      | .ok i => some i
      | .error _ => none
    | _ => none

/-- Whether a thread would issue `tspn` now, which takes a slot after every wave claim of the cycle (02 R38; 10 R208). -/
def State.spawns (s : State) (w : Who) : Bool := match s.nextInstr w with
  | some (.tspn ..) => true
  | _ => false

/-- Whether a thread would issue `wjoin` now. -/
def State.joins (s : State) (w : Who) : Bool := match s.nextInstr w with
  | some (.wjoin ..) => true
  | _ => false

/-- The order in which the slots of a cluster draw tokens in one cycle: waves, then the lower tile in the cluster, then the lower slot
(13 R266). -/
def State.turnKey (s : State) (w : Who) : Nat :=
  ((if (s.slot w).inWave then 0 else 1) * 16 + idxInCluster (s.phys w.tile)) * 16 + w.slot

/-- Whether a slot that has a turn in the cycle comes before another: in the order of their cluster, with `tspn`, which draws no token, last;
and a wave claim before every `tspn` (02 R38; 13 R266). -/
def State.precedes (s : State) (u w : Who) : Bool :=
  if s.spawns w then !s.spawns u && (s.joins u || s.cluster u.tile == s.cluster w.tile) ||
    (s.spawns u && s.cluster u.tile == s.cluster w.tile && decide (s.turnKey u < s.turnKey w))
  else s.cluster u.tile == s.cluster w.tile && decide (s.turnKey u < s.turnKey w) && !s.spawns u

/-- Whether the turn is a slot's: one instruction a cycle, in the order of `precedes`. -/
def State.hasTurn (s : State) (w : Who) : Bool :=
  s.turnHere w && !(s.slotsOf.any fun u => u != w && s.turnHere u && s.canIssue u && s.precedes u w)

/-- An issue turn of a slot (02 R21, R22): nothing where it may not issue, the timer trap, or the next instruction. -/
def State.issueTurn (s : State) (w : Who) : Host.Outcome State Fault Refusal :=
  if s.hasTurn w = false ∨ s.canIssue w = false then .next s
  else
    let s := { (s.modSlot w fun x => { x with lastIssue := s.now + 1 }) with focus := w }
    let x := s.slot w
    if s.timerDue w && !x.solo && !x.inWave then execTimerTrap w s
    else
      match x.wave with
      | some r => if r.k = 0 then s.runFetched w true else s.runMember w r
      | none =>
        if x.why = .fetch then (s.modSlot w fun x => { x with why := .none, waitUntil := none }).runFetched w true
        else s.runFetched w false

/-- Whether a thread's wait has ended: its timer trap is due, its translation is there, or the instruction it waits with would now
do something else than wait on (02 R21; 10 R212). -/
def State.waitOver (s : State) (w : Who) : Bool :=
  let x := s.slot w
  let s' := { (s.modSlot w fun x => { x with st := .run }) with focus := w }
  x.st == .wait && x.why != .trap && s'.canIssue w &&
    ((s.timerDue w && !x.solo && !x.inWave) ||
      (if x.why = .fetch then decide (x.waitUntil.getD 0 ≤ s.now) && !s.walking w
       else match s'.runFetched w true with
        | .next t => decide (t.slot w ≠ x)
        | _ => true))

/-- Slots that issue in the present cycle, in the order of the tiles. -/
def State.issuers (s : State) : List Who := s.slotsOf.filter fun w => s.turnHere w && s.canIssue w

/-- Whether a row of the array, or the end of a vector instruction, falls in the present cycle (02 R26). -/
def State.unitsDue (s : State) : Bool :=
  s.slotsOf.any fun w => ((s.slot w).step?.isSome && s.arrayFree w) ||
    (!(s.slot w).vpend.isEmpty && (match s.vectorEnd w with
      | some e => decide (e ≤ s.now)
      | none => false))

/-- Steps the machine takes at the start of a cycle for a tile: a table and hand-offs whose cycle it is (02 R23; 09 R176). -/
def State.startOfCycle (s : State) (t : Nat) : State :=
  let f (s : State) : Host.Outcome State Fault Refusal → State
    | .next s' => s'
    | _ => s
  let s := f s (execRotTakeEffect t s)
  (List.range (s.tile t).handoffs.length).foldl (fun s _ => f s (execHandoffArrive t s)) s

/-- The end of a wait for power tokens or a band enters the tile's replay log (24 Table 24.2, KIND 7). -/
def State.logWait (s : State) (w : Who) : State :=
  if (s.slot w).why = .tokens ∨ (s.slot w).why = .band then s.logArrival w.tile 7 w.slot 0 0 else s

/-- The next cycle: transfers of the cycle that ends (09 R174), members that leave their waves and cut waves that nothing stops any more (02
R35, R36), acknowledgements of flits (23 R373), then the threads whose event came in it leave WAIT (02 R21), then what stands from the new
cycle on. -/
def State.nextCycle (s : State) : State :=
  let s : State := { s with tiles := s.tiles.map (fun e => (e.1, e.2.moveLoad s.now)), now := s.now + 1 }
  let s := (s.slotsOf.foldl State.leaveDone s).freeWaves.ackLinks
  let woken := s.slotsOf.filter s.waitOver
  let s := woken.foldl (fun s w => (s.logWait w).modSlot w fun x => { x with st := .run }) s
  (s.tiles.map fun e => e.1).foldl State.startOfCycle s

/-- A word of memory captured by a tile's instruction store: a fetch may return it for as long as no fence forbids it (12 R253). -/
def State.capture (s : State) (t pa : Nat) : State :=
  s.modTile t fun x => { x with istore := (pa, BitVec.ofNat 32 (leNat (s.getPart ⟨.hbm pa, 4, .home⟩)), s.now) :: x.istore }

/-- Such a word dropped. -/
def State.dropWord (s : State) (t k : Nat) : State := s.modTile t fun x => { x with istore := listDrop1 x.istore k }

/-- The part that a burst of a channel's oldest chain, or the record that the channel reads, is about to read, with the record's place in the
chain and the address of the bytes (07 R146, R147). -/
def State.copyRead (s : State) (t ch k part : Nat) : Option (Nat × Word × Part) :=
  (((s.tile t).channel ch).chains.head?).bind fun h =>
    match h.bursts[k]? with
    | some (r, b) =>
      let i := h.recs.findIdx fun q => q == r
      if b.data.isNone then (b.parts[part]?).map fun p => (i, r.src + wd b.off, p)
      else if h.sum && b.write.isSome then (b.parts[part]?).map fun p => (i, r.dst + wd (r.scale h.sum b.off), p)
      else none
    | none =>
      if h.bursts.length = k then (h.reading.bind fun b => b.parts[part]?).map fun p => (h.recs.length, h.cur, p) else none

/-- An error in a byte that a copy reads, of a source, of a sum's slot or of a record (23 R363, R371): one pinned to a tile ends the chain with
CODE 2; in a slice or in HBM it takes the course of its line. -/
def State.burstError (s : State) (t ch k part : Nat) (ecc : Ecc) : State :=
  match s.copyRead t ch k part with
  | none => s
  | some (i, v, p) =>
    match p.loc with
    | .spad u off =>
      if ecc = .corrected then s.foundErrors u 0 [(0, off, .corrected)]
      else if ecc = .word then (s.modHead t ch fun h => h.stopAt i 2 v).foundErrors u 0 [(0, off, .word)]
      else s
    | .hbm pa => s.storedError pa ecc
    | _ => s

/-- A mismatch of the destination while it replays, in a row of a step (24 R387): counted against it, and the sequence starts again from the
same boundary on a new destination (log 85). -/
def State.rehit (s : State) (w : Who) (flips : List Glitch) : State :=
  match (s.slot w).step?, (s.tile w.tile).move with
  | some p, some m =>
    if (s.tile w.tile).stopped = false ∨ m.phase ≠ .run then s
    else
      match s.rowOf w.tile p flips false with
      | none => s
      | some (a, row, r) =>
        if r.bad = 0 then s
        else (s.rowMismatch w p a row r.bad).stopAgain w.tile
          (if ((s.rowMismatch w p a row r.bad).ptile m.dst).age.ret then .retire else .mismatch)
  | _, _ => s

/-- A turn of the memories, of an engine or of another module. -/
def State.otherTurn (s : State) : Turn → State
  | .serve w seq part ecc => s.serveTurn w seq part ecc
  | .perform id => s.performStored id
  | .accept w seq => s.acceptChain w seq
  | .burst t ch k => s.burstStep t ch k none
  | .combine w seq w' seq' => s.combine w seq w' seq'
  | .capture t pa => s.capture t pa
  | .drop t k => s.dropWord t k
  | .result cl e => s.engResult cl e
  | .found t bad => s.foundErrors t 0 bad
  | .burstError t ch k part ecc => s.burstError t ch k part ecc
  | .part t ch k j => s.partStep t ch k j
  | .engRead cl e p => s.engCatch cl e p
  | .engError cl e => s.engineError cl e
  | .stored pa ecc => s.storedError pa ecc
  | .foot task k => s.footStep task k
  | .rehit w flips => s.rehit w flips
  | .remote m pa data => s.podRemote m pa data
  | .refuse k => s.podRefuse k
  | .podWait k => s.podAgain k
  | .store _ _ => s
  | .issue _ => s
  | .event _ => s
  | .tick _ => s

/-- A turn. An instruction is run by an issue turn only: an event turn that names one has no effect. -/
def State.runTurn (s : State) : Turn → Host.Outcome State Fault Refusal
  | .issue w => s.issueTurn w
  | .event i => if (encode i).isSome then .next s else exec i { s with stepAt := s.now + 1 }
  | .tick 0 => .next s
  | .tick (n + 1) =>
    let s := s.nextCycle
    .next (if n = 0 then s else { s with agenda := .tick n :: s.agenda })
  | .store w seq => ({ s with stepAt := s.now + 1 } : State).endStore w seq false
  | t => .next (({ s with stepAt := s.now + 1 } : State).otherTurn t)

/-- A migrating context waits on a tile where a slot stands open: it takes it in that cycle (02 R38, R43). -/
def State.slotWanted (s : State) : Bool :=
  s.tiles.any fun e => !e.2.runq.isEmpty && e.2.running && slotNums.any fun k => s.openSlot ⟨e.1, k⟩

/-- Whether a turn has to wait: the slots of a cycle issue before any other agent acts in it, and no cycle passes before what falls in it
is done (02 R21, R26, R43; log 1). -/
def State.mustWait (s : State) : Turn → Bool
  | .issue _ => false
  | .tick 0 => false
  | .tick _ => !s.issuers.isEmpty || s.unitsDue || s.slotWanted
  | _ => !s.issuers.isEmpty

/-- A step another agent makes. -/
abbrev Agent := State → Host.Outcome State Fault Refusal

/-- Steps that may be due for a pending instruction. -/
def Pend.events (w : Who) (p : Pend) : List Agent :=
  match p.job with
  | .write _ _ _ => [execDivideComplete w p.seq, execFdivFsqrComplete w p.seq]
  | .load _ _ _ _ _ _ => [fun s => .next (s.serveTurn w p.seq none .sound), execLoadComplete w p.seq .sound]
  | .amo _ _ _ _ _ _ => [fun s => .next (s.serveTurn w p.seq none .sound), execLoadComplete w p.seq .sound]
  | .vload _ _ _ => [fun s => .next (s.serveTurn w p.seq none .sound), execLoadComplete w p.seq .sound]
  | .store _ _ _ _ _ _ _ => [execStoreComplete w p.seq]
  | .erd _ _ _ => [execErdComplete w p.seq false]
  | .lease _ => []
  | .mwld => [execMwldComplete w p.seq]
  | .mrd _ _ => [execMrdComplete w p.seq]
  | .mstep _ _ _ _ _ _ _ _ _ => [execMstepRow w []]
  | .copy _ _ _ _ => [fun s => .next (s.acceptChain w p.seq)]

/-- Steps that may be due for a slot. -/
def slotEvents (w : Who) (x : Slot) : List Agent :=
  x.pend.flatMap (fun p => p.events w) ++ (if x.vpend.isEmpty then [] else [execVectorComplete w]) ++
    (if x.trapq.isEmpty then [] else [execTrapEntry w]) ++ (if x.join.isSome then [execWjoinCommit w] else []) ++
    (if x.op.isSome then [execTlbiComplete w, execCkptComplete w] else []) ++
    [execTaskDispatch w, execBadgerSpillDone w, execBadgerRestoreDone w]

/-- Steps that may be due for a tile. -/
def tileEvents (t : Nat) (x : Tile) : List Agent :=
  x.slots.flatMap (fun e => slotEvents ⟨t, e.1⟩ e.2) ++ (x.spilled.map fun e => execBadgerRestoreDone ⟨t, e.1⟩) ++
    (if x.runq.isEmpty then [] else slotNums.map fun k => execSlotOffer ⟨t, k⟩) ++
    ((List.range x.held.length).map fun k => execHeldWordEnter t k) ++
    ((List.range 4).flatMap fun c => match (x.channel c).chains with
      | [] => []
      | h :: _ => ((List.range h.bursts.length).map fun k => fun s => .next (s.burstStep t c k none)) ++ [execCopyRecord t c]) ++
    [execHandoffStart t] ++
    ((List.range 4).map fun b => execBandWakeDone t b) ++
    (if x.move.isNone then [] else
      [execMovePrecopyPassEnd t, execMoveDrainEnd t, execMoveCopyEnd t, execMoveRemapEnd t, execMoveResume t,
        execStopDrainEnd t, execStopCopyEnd t false,
        execStopRemapEnd t, execStopReplayEnd t]) ++ [execAutoBoundary t]

/-- Steps that may be due for an engine. -/
def engineEvents (cl e : Nat) (g : Engine) : List Agent :=
  (if g.pow == .waking then [execEngineWakeDone cl e true] else []) ++
    (if g.opc.isNone then [] else [fun s => .next (s.engResult cl e)]) ++
    (if g.cmds.isEmpty then [] else
      [execSortInsert cl e, execSortEmit cl e, execSortClear cl e, execMatchScan cl e, execMatchReset cl e,
        execInflDecode cl e, execXfrmTransform cl e,
        execGathToSlot cl e, execGathFromSlot cl e, execGathFinish cl e, execScanPrefix cl e, execSoftSoftmax cl e, execSoftExponent cl e])

/-- Steps that may be due for a cluster. -/
def clusterEvents (cl : Nat) (c : Cluster) : List Agent :=
  (if c.lreq.isEmpty then [] else [execMartenServe cl]) ++
    ((List.range 16).flatMap fun e => engineEvents cl e (c.eng e)) ++
    (if c.owl.isEmpty then [] else [execOwlqSubmit cl, execOwlJobServe cl, execOwlEntrySend cl]) ++
    (if c.hoist.isEmpty then [] else [execHoistPlace cl]) ++ (if c.queue.isEmpty then [] else [execTokenRefill cl]) ++
    [execHoistPreempt cl, execGatingSpillDone cl, execClusterWakeHoldEnd cl, execClusterRestoreDone cl, execClusterGate cl] ++
    (if c.handlerDown then [execOverflowHandlerRestart cl] else [])

/-- Members named by the head commands of running COLL engines (10 R200): one operation for all that wait. -/
def State.collWaiting (s : State) : List (Nat × Nat) :=
  s.clusters.flatMap fun e => (List.range 16).filterMap fun k =>
    if (e.2.eng k).pow == .on && !(e.2.eng k).cmds.isEmpty then some (e.1, k) else none

/-- Steps of other agents that may be due, in the default order (log 1): none of those whose time or outcome comes from
outside the module. -/
def State.dueSteps (s : State) : List Agent :=
  (s.tiles.flatMap fun e => tileEvents e.1 e.2) ++
    ((List.range s.msgs.length).flatMap fun k => [execMessageDeliver k, execScaleWordDeliver k]) ++
    ((List.range s.acks.length).map fun k => execSendAckReceive k) ++
    ((List.range s.migs.length).map fun k => execMigrateArrive k) ++
    (s.slabs.flatMap fun e => (if e.2.wakes.isEmpty then [] else [execInrushGrant e.1]) ++
      (List.range e.2.walks.length).map fun k => execTlbWalkComplete e.1 k none) ++
    (s.clusters.flatMap fun e => clusterEvents e.1 e.2) ++
    (if s.collWaiting.isEmpty then [] else [execCollCollective s.collWaiting]) ++
    ((List.range s.retAdds.length).map fun k => execRetirementWordAdd k) ++ (s.reds.map fun e => execRedundantCommit e.1) ++
    (if s.fan.isSome then [execFanOut] else []) ++
    (s.ctxs.flatMap fun e => ((List.range e.2.queue.length).map fun k => execLaunchDependenceRead e.1 k) ++
      (if e.2.dying then [execTeardown e.1] else []) ++ (if e.2.queue.isEmpty then [] else [execFanOut])) ++
    (s.links.flatMap fun e => [execLinkRetrainEnd e.1, execLinkBurstExpire e.1]) ++
    ((List.range s.pods.length).flatMap fun k => [execPodRequestResend k, execPodRequestFreeze k]) ++
    (s.stores.map fun e => fun s => .next (s.performStored e.id)) ++
    ((List.range s.podIn.length).map fun k => fun s => .next (s.podAgain k))

/-- An outcome other than the state itself. -/
def State.changes (s : State) : Host.Outcome State Fault Refusal → Bool
  | .next s' => decide (s' ≠ s)
  | .fault _ => true
  | .refused _ => true

/-- The turn taken when the agenda is empty or its next turn has to wait (log 1): the slots whose turn the cycle is, then the first step
of another agent that is due, then the next cycle. -/
def State.defaultTurn (s : State) : Host.Outcome State Fault Refusal :=
  match s.issuers.find? s.hasTurn with
  | some w => s.issueTurn w
  | none =>
    (s.dueSteps.findSome? fun f =>
      if s.changes (f s) then some (f { s with stepAt := s.now + 1 }) else none).getD (.next s.nextCycle)

end Sys2Proof.Machine
end

