-- ==== Sys2Proof/Machine/Step.lean ====
section
/-! DEFINITION. One step of the machine: the next turn of the agenda, or of the default schedule when it is empty or that turn has to wait
(log 1). -/

namespace Sys2Proof.Machine

/-- One step. -/
def step (s : State) : Host.Outcome State Fault Refusal :=
  match s.agenda with
  | t :: r => if s.mustWait t then s.defaultTurn else ({ s with agenda := r } : State).runTurn t
  | [] => s.defaultTurn

/-- A state whose next step fetches and runs an instruction of these bits (log 2): the slot whose issue position this is, on
tile 0, holds a thread of an open context whose page at PC, mapped to physical address 0 on, holds the word. -/
def State.withFetchWord (s : State) (nbits w : Nat) : State :=
  let k := bits (vget (s.tile 0).rtab (s.posOf 0) 0).toNat 3 0
  let me : Who := ⟨0, k⟩
  let x := s.slot me
  let ctx := x.ctx.getD 1
  let va := x.pc.toNat / 65536 * 65536
  let page : Page := { ctx := ctx, va := va, lg := 16, pa := 0, r := true, w := true, x := true, plc := .home }
  let v := w % 2 ^ nbits
  let s := (s.modSlot me fun x => { x with st := .run, ctx := some ctx, lastCtx := some ctx, lastIssue := 0 }).modTile 0 fun t =>
    { t with tlb := page :: t.tlb }
  let s := s.modCtx ctx fun c => { c with isOpen := true }
  { s with pages := page :: s.pages, hbm := memWrite s.hbm (x.pc.toNat % 65536) (leBytes 4 v), agenda := [.issue me], stepAt := 0 }

end Sys2Proof.Machine
end

