-- ==== Sys2Proof/Laws/State.lean ====
section
/-! SUPPORT. The fields of the state that each update of one unit leaves as they were. -/

namespace Sys2Proof.Machine

@[simp] theorem State.setTile_now (s : State) (t : Nat) (x : Tile) : (s.setTile t x).now = s.now := rfl
@[simp] theorem State.setTile_stepAt (s : State) (t : Nat) (x : Tile) : (s.setTile t x).stepAt = s.stepAt := rfl
@[simp] theorem State.setTile_focus (s : State) (t : Nat) (x : Tile) : (s.setTile t x).focus = s.focus := rfl
@[simp] theorem State.setTile_agenda (s : State) (t : Nat) (x : Tile) : (s.setTile t x).agenda = s.agenda := rfl
@[simp] theorem State.setTile_fresh (s : State) (t : Nat) (x : Tile) : (s.setTile t x).fresh = s.fresh := rfl
@[simp] theorem State.setTile_ready (s : State) (t : Nat) (x : Tile) : (s.setTile t x).ready = s.ready := rfl
@[simp] theorem State.setTile_recovery (s : State) (t : Nat) (x : Tile) : (s.setTile t x).recovery = s.recovery := rfl
@[simp] theorem State.setTile_ptiles (s : State) (t : Nat) (x : Tile) : (s.setTile t x).ptiles = s.ptiles := rfl
@[simp] theorem State.setTile_clusters (s : State) (t : Nat) (x : Tile) : (s.setTile t x).clusters = s.clusters := rfl
@[simp] theorem State.setTile_slabs (s : State) (t : Nat) (x : Tile) : (s.setTile t x).slabs = s.slabs := rfl
@[simp] theorem State.setTile_vmap (s : State) (t : Nat) (x : Tile) : (s.setTile t x).vmap = s.vmap := rfl
@[simp] theorem State.setTile_vmap0 (s : State) (t : Nat) (x : Tile) : (s.setTile t x).vmap0 = s.vmap0 := rfl
@[simp] theorem State.setTile_caps (s : State) (t : Nat) (x : Tile) : (s.setTile t x).caps = s.caps := rfl
@[simp] theorem State.setTile_hbm (s : State) (t : Nat) (x : Tile) : (s.setTile t x).hbm = s.hbm := rfl
@[simp] theorem State.setTile_poison (s : State) (t : Nat) (x : Tile) : (s.setTile t x).poison = s.poison := rfl
@[simp] theorem State.setTile_podMem (s : State) (t : Nat) (x : Tile) : (s.setTile t x).podMem = s.podMem := rfl
@[simp] theorem State.setTile_shadow (s : State) (t : Nat) (x : Tile) : (s.setTile t x).shadow = s.shadow := rfl
@[simp] theorem State.setTile_ctxs (s : State) (t : Nat) (x : Tile) : (s.setTile t x).ctxs = s.ctxs := rfl
@[simp] theorem State.setTile_pages (s : State) (t : Nat) (x : Tile) : (s.setTile t x).pages = s.pages := rfl
@[simp] theorem State.setTile_quarantine (s : State) (t : Nat) (x : Tile) : (s.setTile t x).quarantine = s.quarantine := rfl
@[simp] theorem State.setTile_withdrawn (s : State) (t : Nat) (x : Tile) : (s.setTile t x).withdrawn = s.withdrawn := rfl
@[simp] theorem State.setTile_fan (s : State) (t : Nat) (x : Tile) : (s.setTile t x).fan = s.fan := rfl
@[simp] theorem State.setTile_rrCtx (s : State) (t : Nat) (x : Tile) : (s.setTile t x).rrCtx = s.rrCtx := rfl
@[simp] theorem State.setTile_tasks (s : State) (t : Nat) (x : Tile) : (s.setTile t x).tasks = s.tasks := rfl
@[simp] theorem State.setTile_nextTask (s : State) (t : Nat) (x : Tile) : (s.setTile t x).nextTask = s.nextTask := rfl
@[simp] theorem State.setTile_retAdds (s : State) (t : Nat) (x : Tile) : (s.setTile t x).retAdds = s.retAdds := rfl
@[simp] theorem State.setTile_msgs (s : State) (t : Nat) (x : Tile) : (s.setTile t x).msgs = s.msgs := rfl
@[simp] theorem State.setTile_nextMsg (s : State) (t : Nat) (x : Tile) : (s.setTile t x).nextMsg = s.nextMsg := rfl
@[simp] theorem State.setTile_acks (s : State) (t : Nat) (x : Tile) : (s.setTile t x).acks = s.acks := rfl
@[simp] theorem State.setTile_migs (s : State) (t : Nat) (x : Tile) : (s.setTile t x).migs = s.migs := rfl
@[simp] theorem State.setTile_waves (s : State) (t : Nat) (x : Tile) : (s.setTile t x).waves = s.waves := rfl
@[simp] theorem State.setTile_nextWave (s : State) (t : Nat) (x : Tile) : (s.setTile t x).nextWave = s.nextWave := rfl
@[simp] theorem State.setTile_flog (s : State) (t : Nat) (x : Tile) : (s.setTile t x).flog = s.flog := rfl
@[simp] theorem State.setTile_fseq (s : State) (t : Nat) (x : Tile) : (s.setTile t x).fseq = s.fseq := rfl
@[simp] theorem State.setTile_flost (s : State) (t : Nat) (x : Tile) : (s.setTile t x).flost = s.flost := rfl
@[simp] theorem State.setTile_links (s : State) (t : Nat) (x : Tile) : (s.setTile t x).links = s.links := rfl
@[simp] theorem State.setTile_exports (s : State) (t : Nat) (x : Tile) : (s.setTile t x).exports = s.exports := rfl
@[simp] theorem State.setTile_routes (s : State) (t : Nat) (x : Tile) : (s.setTile t x).routes = s.routes := rfl
@[simp] theorem State.setTile_pods (s : State) (t : Nat) (x : Tile) : (s.setTile t x).pods = s.pods := rfl
@[simp] theorem State.setTile_nextReq (s : State) (t : Nat) (x : Tile) : (s.setTile t x).nextReq = s.nextReq := rfl
@[simp] theorem State.setTile_rings (s : State) (t : Nat) (x : Tile) : (s.setTile t x).rings = s.rings := rfl
@[simp] theorem State.setTile_classes (s : State) (t : Nat) (x : Tile) : (s.setTile t x).classes = s.classes := rfl
@[simp] theorem State.setTile_keys (s : State) (t : Nat) (x : Tile) : (s.setTile t x).keys = s.keys := rfl
@[simp] theorem State.setTile_portBad (s : State) (t : Nat) (x : Tile) : (s.setTile t x).portBad = s.portBad := rfl
@[simp] theorem State.setTile_portNoMatch (s : State) (t : Nat) (x : Tile) : (s.setTile t x).portNoMatch = s.portNoMatch := rfl
@[simp] theorem State.setTile_replies (s : State) (t : Nat) (x : Tile) : (s.setTile t x).replies = s.replies := rfl
@[simp] theorem State.setTile_alog (s : State) (t : Nat) (x : Tile) : (s.setTile t x).alog = s.alog := rfl
@[simp] theorem State.setTile_image (s : State) (t : Nat) (x : Tile) : (s.setTile t x).image = s.image := rfl
@[simp] theorem State.setTile_bootRec (s : State) (t : Nat) (x : Tile) : (s.setTile t x).bootRec = s.bootRec := rfl
@[simp] theorem State.setTile_reds (s : State) (t : Nat) (x : Tile) : (s.setTile t x).reds = s.reds := rfl
@[simp] theorem State.setTile_nextRed (s : State) (t : Nat) (x : Tile) : (s.setTile t x).nextRed = s.nextRed := rfl
@[simp] theorem State.setTile_shadowPool (s : State) (t : Nat) (x : Tile) : (s.setTile t x).shadowPool = s.shadowPool := rfl
@[simp] theorem State.setTile_hbmCorr (s : State) (t : Nat) (x : Tile) : (s.setTile t x).hbmCorr = s.hbmCorr := rfl
@[simp] theorem State.setTile_stretch (s : State) (t : Nat) (x : Tile) : (s.setTile t x).stretch = s.stretch := rfl
@[simp] theorem State.setTile_stores (s : State) (t : Nat) (x : Tile) : (s.setTile t x).stores = s.stores := rfl
@[simp] theorem State.setTile_nextStore (s : State) (t : Nat) (x : Tile) : (s.setTile t x).nextStore = s.nextStore := rfl
@[simp] theorem State.setTile_early (s : State) (t : Nat) (x : Tile) : (s.setTile t x).early = s.early := rfl
@[simp] theorem State.setTile_nextThr (s : State) (t : Nat) (x : Tile) : (s.setTile t x).nextThr = s.nextThr := rfl
@[simp] theorem State.setTile_slices (s : State) (t : Nat) (x : Tile) : (s.setTile t x).slices = s.slices := rfl
@[simp] theorem State.setTile_lseqs (s : State) (t : Nat) (x : Tile) : (s.setTile t x).lseqs = s.lseqs := rfl
@[simp] theorem State.setTile_podIn (s : State) (t : Nat) (x : Tile) : (s.setTile t x).podIn = s.podIn := rfl
@[simp] theorem State.setTile_oldRepl (s : State) (t : Nat) (x : Tile) : (s.setTile t x).oldRepl = s.oldRepl := rfl
@[simp] theorem State.modTile_now (s : State) (t : Nat) (f : Tile → Tile) : (s.modTile t f).now = s.now := rfl
@[simp] theorem State.modTile_stepAt (s : State) (t : Nat) (f : Tile → Tile) : (s.modTile t f).stepAt = s.stepAt := rfl
@[simp] theorem State.modTile_focus (s : State) (t : Nat) (f : Tile → Tile) : (s.modTile t f).focus = s.focus := rfl
@[simp] theorem State.modTile_agenda (s : State) (t : Nat) (f : Tile → Tile) : (s.modTile t f).agenda = s.agenda := rfl
@[simp] theorem State.modTile_fresh (s : State) (t : Nat) (f : Tile → Tile) : (s.modTile t f).fresh = s.fresh := rfl
@[simp] theorem State.modTile_ready (s : State) (t : Nat) (f : Tile → Tile) : (s.modTile t f).ready = s.ready := rfl
@[simp] theorem State.modTile_recovery (s : State) (t : Nat) (f : Tile → Tile) : (s.modTile t f).recovery = s.recovery := rfl
@[simp] theorem State.modTile_ptiles (s : State) (t : Nat) (f : Tile → Tile) : (s.modTile t f).ptiles = s.ptiles := rfl
@[simp] theorem State.modTile_clusters (s : State) (t : Nat) (f : Tile → Tile) : (s.modTile t f).clusters = s.clusters := rfl
@[simp] theorem State.modTile_slabs (s : State) (t : Nat) (f : Tile → Tile) : (s.modTile t f).slabs = s.slabs := rfl
@[simp] theorem State.modTile_vmap (s : State) (t : Nat) (f : Tile → Tile) : (s.modTile t f).vmap = s.vmap := rfl
@[simp] theorem State.modTile_vmap0 (s : State) (t : Nat) (f : Tile → Tile) : (s.modTile t f).vmap0 = s.vmap0 := rfl
@[simp] theorem State.modTile_caps (s : State) (t : Nat) (f : Tile → Tile) : (s.modTile t f).caps = s.caps := rfl
@[simp] theorem State.modTile_hbm (s : State) (t : Nat) (f : Tile → Tile) : (s.modTile t f).hbm = s.hbm := rfl
@[simp] theorem State.modTile_poison (s : State) (t : Nat) (f : Tile → Tile) : (s.modTile t f).poison = s.poison := rfl
@[simp] theorem State.modTile_podMem (s : State) (t : Nat) (f : Tile → Tile) : (s.modTile t f).podMem = s.podMem := rfl
@[simp] theorem State.modTile_shadow (s : State) (t : Nat) (f : Tile → Tile) : (s.modTile t f).shadow = s.shadow := rfl
@[simp] theorem State.modTile_ctxs (s : State) (t : Nat) (f : Tile → Tile) : (s.modTile t f).ctxs = s.ctxs := rfl
@[simp] theorem State.modTile_pages (s : State) (t : Nat) (f : Tile → Tile) : (s.modTile t f).pages = s.pages := rfl
@[simp] theorem State.modTile_quarantine (s : State) (t : Nat) (f : Tile → Tile) : (s.modTile t f).quarantine = s.quarantine := rfl
@[simp] theorem State.modTile_withdrawn (s : State) (t : Nat) (f : Tile → Tile) : (s.modTile t f).withdrawn = s.withdrawn := rfl
@[simp] theorem State.modTile_fan (s : State) (t : Nat) (f : Tile → Tile) : (s.modTile t f).fan = s.fan := rfl
@[simp] theorem State.modTile_rrCtx (s : State) (t : Nat) (f : Tile → Tile) : (s.modTile t f).rrCtx = s.rrCtx := rfl
@[simp] theorem State.modTile_tasks (s : State) (t : Nat) (f : Tile → Tile) : (s.modTile t f).tasks = s.tasks := rfl
@[simp] theorem State.modTile_nextTask (s : State) (t : Nat) (f : Tile → Tile) : (s.modTile t f).nextTask = s.nextTask := rfl
@[simp] theorem State.modTile_retAdds (s : State) (t : Nat) (f : Tile → Tile) : (s.modTile t f).retAdds = s.retAdds := rfl
@[simp] theorem State.modTile_msgs (s : State) (t : Nat) (f : Tile → Tile) : (s.modTile t f).msgs = s.msgs := rfl
@[simp] theorem State.modTile_nextMsg (s : State) (t : Nat) (f : Tile → Tile) : (s.modTile t f).nextMsg = s.nextMsg := rfl
@[simp] theorem State.modTile_acks (s : State) (t : Nat) (f : Tile → Tile) : (s.modTile t f).acks = s.acks := rfl
@[simp] theorem State.modTile_migs (s : State) (t : Nat) (f : Tile → Tile) : (s.modTile t f).migs = s.migs := rfl
@[simp] theorem State.modTile_waves (s : State) (t : Nat) (f : Tile → Tile) : (s.modTile t f).waves = s.waves := rfl
@[simp] theorem State.modTile_nextWave (s : State) (t : Nat) (f : Tile → Tile) : (s.modTile t f).nextWave = s.nextWave := rfl
@[simp] theorem State.modTile_flog (s : State) (t : Nat) (f : Tile → Tile) : (s.modTile t f).flog = s.flog := rfl
@[simp] theorem State.modTile_fseq (s : State) (t : Nat) (f : Tile → Tile) : (s.modTile t f).fseq = s.fseq := rfl
@[simp] theorem State.modTile_flost (s : State) (t : Nat) (f : Tile → Tile) : (s.modTile t f).flost = s.flost := rfl
@[simp] theorem State.modTile_links (s : State) (t : Nat) (f : Tile → Tile) : (s.modTile t f).links = s.links := rfl
@[simp] theorem State.modTile_exports (s : State) (t : Nat) (f : Tile → Tile) : (s.modTile t f).exports = s.exports := rfl
@[simp] theorem State.modTile_routes (s : State) (t : Nat) (f : Tile → Tile) : (s.modTile t f).routes = s.routes := rfl
@[simp] theorem State.modTile_pods (s : State) (t : Nat) (f : Tile → Tile) : (s.modTile t f).pods = s.pods := rfl
@[simp] theorem State.modTile_nextReq (s : State) (t : Nat) (f : Tile → Tile) : (s.modTile t f).nextReq = s.nextReq := rfl
@[simp] theorem State.modTile_rings (s : State) (t : Nat) (f : Tile → Tile) : (s.modTile t f).rings = s.rings := rfl
@[simp] theorem State.modTile_classes (s : State) (t : Nat) (f : Tile → Tile) : (s.modTile t f).classes = s.classes := rfl
@[simp] theorem State.modTile_keys (s : State) (t : Nat) (f : Tile → Tile) : (s.modTile t f).keys = s.keys := rfl
@[simp] theorem State.modTile_portBad (s : State) (t : Nat) (f : Tile → Tile) : (s.modTile t f).portBad = s.portBad := rfl
@[simp] theorem State.modTile_portNoMatch (s : State) (t : Nat) (f : Tile → Tile) : (s.modTile t f).portNoMatch = s.portNoMatch := rfl
@[simp] theorem State.modTile_replies (s : State) (t : Nat) (f : Tile → Tile) : (s.modTile t f).replies = s.replies := rfl
@[simp] theorem State.modTile_alog (s : State) (t : Nat) (f : Tile → Tile) : (s.modTile t f).alog = s.alog := rfl
@[simp] theorem State.modTile_image (s : State) (t : Nat) (f : Tile → Tile) : (s.modTile t f).image = s.image := rfl
@[simp] theorem State.modTile_bootRec (s : State) (t : Nat) (f : Tile → Tile) : (s.modTile t f).bootRec = s.bootRec := rfl
@[simp] theorem State.modTile_reds (s : State) (t : Nat) (f : Tile → Tile) : (s.modTile t f).reds = s.reds := rfl
@[simp] theorem State.modTile_nextRed (s : State) (t : Nat) (f : Tile → Tile) : (s.modTile t f).nextRed = s.nextRed := rfl
@[simp] theorem State.modTile_shadowPool (s : State) (t : Nat) (f : Tile → Tile) : (s.modTile t f).shadowPool = s.shadowPool := rfl
@[simp] theorem State.modTile_hbmCorr (s : State) (t : Nat) (f : Tile → Tile) : (s.modTile t f).hbmCorr = s.hbmCorr := rfl
@[simp] theorem State.modTile_stretch (s : State) (t : Nat) (f : Tile → Tile) : (s.modTile t f).stretch = s.stretch := rfl
@[simp] theorem State.modTile_stores (s : State) (t : Nat) (f : Tile → Tile) : (s.modTile t f).stores = s.stores := rfl
@[simp] theorem State.modTile_nextStore (s : State) (t : Nat) (f : Tile → Tile) : (s.modTile t f).nextStore = s.nextStore := rfl
@[simp] theorem State.modTile_early (s : State) (t : Nat) (f : Tile → Tile) : (s.modTile t f).early = s.early := rfl
@[simp] theorem State.modTile_nextThr (s : State) (t : Nat) (f : Tile → Tile) : (s.modTile t f).nextThr = s.nextThr := rfl
@[simp] theorem State.modTile_slices (s : State) (t : Nat) (f : Tile → Tile) : (s.modTile t f).slices = s.slices := rfl
@[simp] theorem State.modTile_lseqs (s : State) (t : Nat) (f : Tile → Tile) : (s.modTile t f).lseqs = s.lseqs := rfl
@[simp] theorem State.modTile_podIn (s : State) (t : Nat) (f : Tile → Tile) : (s.modTile t f).podIn = s.podIn := rfl
@[simp] theorem State.modTile_oldRepl (s : State) (t : Nat) (f : Tile → Tile) : (s.modTile t f).oldRepl = s.oldRepl := rfl
@[simp] theorem State.setSlot_now (s : State) (w : Who) (x : Slot) : (s.setSlot w x).now = s.now := rfl
@[simp] theorem State.setSlot_stepAt (s : State) (w : Who) (x : Slot) : (s.setSlot w x).stepAt = s.stepAt := rfl
@[simp] theorem State.setSlot_focus (s : State) (w : Who) (x : Slot) : (s.setSlot w x).focus = s.focus := rfl
@[simp] theorem State.setSlot_agenda (s : State) (w : Who) (x : Slot) : (s.setSlot w x).agenda = s.agenda := rfl
@[simp] theorem State.setSlot_fresh (s : State) (w : Who) (x : Slot) : (s.setSlot w x).fresh = s.fresh := rfl
@[simp] theorem State.setSlot_ready (s : State) (w : Who) (x : Slot) : (s.setSlot w x).ready = s.ready := rfl
@[simp] theorem State.setSlot_recovery (s : State) (w : Who) (x : Slot) : (s.setSlot w x).recovery = s.recovery := rfl
@[simp] theorem State.setSlot_ptiles (s : State) (w : Who) (x : Slot) : (s.setSlot w x).ptiles = s.ptiles := rfl
@[simp] theorem State.setSlot_clusters (s : State) (w : Who) (x : Slot) : (s.setSlot w x).clusters = s.clusters := rfl
@[simp] theorem State.setSlot_slabs (s : State) (w : Who) (x : Slot) : (s.setSlot w x).slabs = s.slabs := rfl
@[simp] theorem State.setSlot_vmap (s : State) (w : Who) (x : Slot) : (s.setSlot w x).vmap = s.vmap := rfl
@[simp] theorem State.setSlot_vmap0 (s : State) (w : Who) (x : Slot) : (s.setSlot w x).vmap0 = s.vmap0 := rfl
@[simp] theorem State.setSlot_caps (s : State) (w : Who) (x : Slot) : (s.setSlot w x).caps = s.caps := rfl
@[simp] theorem State.setSlot_hbm (s : State) (w : Who) (x : Slot) : (s.setSlot w x).hbm = s.hbm := rfl
@[simp] theorem State.setSlot_poison (s : State) (w : Who) (x : Slot) : (s.setSlot w x).poison = s.poison := rfl
@[simp] theorem State.setSlot_podMem (s : State) (w : Who) (x : Slot) : (s.setSlot w x).podMem = s.podMem := rfl
@[simp] theorem State.setSlot_shadow (s : State) (w : Who) (x : Slot) : (s.setSlot w x).shadow = s.shadow := rfl
@[simp] theorem State.setSlot_ctxs (s : State) (w : Who) (x : Slot) : (s.setSlot w x).ctxs = s.ctxs := rfl
@[simp] theorem State.setSlot_pages (s : State) (w : Who) (x : Slot) : (s.setSlot w x).pages = s.pages := rfl
@[simp] theorem State.setSlot_quarantine (s : State) (w : Who) (x : Slot) : (s.setSlot w x).quarantine = s.quarantine := rfl
@[simp] theorem State.setSlot_withdrawn (s : State) (w : Who) (x : Slot) : (s.setSlot w x).withdrawn = s.withdrawn := rfl
@[simp] theorem State.setSlot_fan (s : State) (w : Who) (x : Slot) : (s.setSlot w x).fan = s.fan := rfl
@[simp] theorem State.setSlot_rrCtx (s : State) (w : Who) (x : Slot) : (s.setSlot w x).rrCtx = s.rrCtx := rfl
@[simp] theorem State.setSlot_tasks (s : State) (w : Who) (x : Slot) : (s.setSlot w x).tasks = s.tasks := rfl
@[simp] theorem State.setSlot_nextTask (s : State) (w : Who) (x : Slot) : (s.setSlot w x).nextTask = s.nextTask := rfl
@[simp] theorem State.setSlot_retAdds (s : State) (w : Who) (x : Slot) : (s.setSlot w x).retAdds = s.retAdds := rfl
@[simp] theorem State.setSlot_msgs (s : State) (w : Who) (x : Slot) : (s.setSlot w x).msgs = s.msgs := rfl
@[simp] theorem State.setSlot_nextMsg (s : State) (w : Who) (x : Slot) : (s.setSlot w x).nextMsg = s.nextMsg := rfl
@[simp] theorem State.setSlot_acks (s : State) (w : Who) (x : Slot) : (s.setSlot w x).acks = s.acks := rfl
@[simp] theorem State.setSlot_migs (s : State) (w : Who) (x : Slot) : (s.setSlot w x).migs = s.migs := rfl
@[simp] theorem State.setSlot_waves (s : State) (w : Who) (x : Slot) : (s.setSlot w x).waves = s.waves := rfl
@[simp] theorem State.setSlot_nextWave (s : State) (w : Who) (x : Slot) : (s.setSlot w x).nextWave = s.nextWave := rfl
@[simp] theorem State.setSlot_flog (s : State) (w : Who) (x : Slot) : (s.setSlot w x).flog = s.flog := rfl
@[simp] theorem State.setSlot_fseq (s : State) (w : Who) (x : Slot) : (s.setSlot w x).fseq = s.fseq := rfl
@[simp] theorem State.setSlot_flost (s : State) (w : Who) (x : Slot) : (s.setSlot w x).flost = s.flost := rfl
@[simp] theorem State.setSlot_links (s : State) (w : Who) (x : Slot) : (s.setSlot w x).links = s.links := rfl
@[simp] theorem State.setSlot_exports (s : State) (w : Who) (x : Slot) : (s.setSlot w x).exports = s.exports := rfl
@[simp] theorem State.setSlot_routes (s : State) (w : Who) (x : Slot) : (s.setSlot w x).routes = s.routes := rfl
@[simp] theorem State.setSlot_pods (s : State) (w : Who) (x : Slot) : (s.setSlot w x).pods = s.pods := rfl
@[simp] theorem State.setSlot_nextReq (s : State) (w : Who) (x : Slot) : (s.setSlot w x).nextReq = s.nextReq := rfl
@[simp] theorem State.setSlot_rings (s : State) (w : Who) (x : Slot) : (s.setSlot w x).rings = s.rings := rfl
@[simp] theorem State.setSlot_classes (s : State) (w : Who) (x : Slot) : (s.setSlot w x).classes = s.classes := rfl
@[simp] theorem State.setSlot_keys (s : State) (w : Who) (x : Slot) : (s.setSlot w x).keys = s.keys := rfl
@[simp] theorem State.setSlot_portBad (s : State) (w : Who) (x : Slot) : (s.setSlot w x).portBad = s.portBad := rfl
@[simp] theorem State.setSlot_portNoMatch (s : State) (w : Who) (x : Slot) : (s.setSlot w x).portNoMatch = s.portNoMatch := rfl
@[simp] theorem State.setSlot_replies (s : State) (w : Who) (x : Slot) : (s.setSlot w x).replies = s.replies := rfl
@[simp] theorem State.setSlot_alog (s : State) (w : Who) (x : Slot) : (s.setSlot w x).alog = s.alog := rfl
@[simp] theorem State.setSlot_image (s : State) (w : Who) (x : Slot) : (s.setSlot w x).image = s.image := rfl
@[simp] theorem State.setSlot_bootRec (s : State) (w : Who) (x : Slot) : (s.setSlot w x).bootRec = s.bootRec := rfl
@[simp] theorem State.setSlot_reds (s : State) (w : Who) (x : Slot) : (s.setSlot w x).reds = s.reds := rfl
@[simp] theorem State.setSlot_nextRed (s : State) (w : Who) (x : Slot) : (s.setSlot w x).nextRed = s.nextRed := rfl
@[simp] theorem State.setSlot_shadowPool (s : State) (w : Who) (x : Slot) : (s.setSlot w x).shadowPool = s.shadowPool := rfl
@[simp] theorem State.setSlot_hbmCorr (s : State) (w : Who) (x : Slot) : (s.setSlot w x).hbmCorr = s.hbmCorr := rfl
@[simp] theorem State.setSlot_stretch (s : State) (w : Who) (x : Slot) : (s.setSlot w x).stretch = s.stretch := rfl
@[simp] theorem State.setSlot_stores (s : State) (w : Who) (x : Slot) : (s.setSlot w x).stores = s.stores := rfl
@[simp] theorem State.setSlot_nextStore (s : State) (w : Who) (x : Slot) : (s.setSlot w x).nextStore = s.nextStore := rfl
@[simp] theorem State.setSlot_early (s : State) (w : Who) (x : Slot) : (s.setSlot w x).early = s.early := rfl
@[simp] theorem State.setSlot_nextThr (s : State) (w : Who) (x : Slot) : (s.setSlot w x).nextThr = s.nextThr := rfl
@[simp] theorem State.setSlot_slices (s : State) (w : Who) (x : Slot) : (s.setSlot w x).slices = s.slices := rfl
@[simp] theorem State.setSlot_lseqs (s : State) (w : Who) (x : Slot) : (s.setSlot w x).lseqs = s.lseqs := rfl
@[simp] theorem State.setSlot_podIn (s : State) (w : Who) (x : Slot) : (s.setSlot w x).podIn = s.podIn := rfl
@[simp] theorem State.setSlot_oldRepl (s : State) (w : Who) (x : Slot) : (s.setSlot w x).oldRepl = s.oldRepl := rfl
@[simp] theorem State.modSlot_now (s : State) (w : Who) (f : Slot → Slot) : (s.modSlot w f).now = s.now := rfl
@[simp] theorem State.modSlot_stepAt (s : State) (w : Who) (f : Slot → Slot) : (s.modSlot w f).stepAt = s.stepAt := rfl
@[simp] theorem State.modSlot_focus (s : State) (w : Who) (f : Slot → Slot) : (s.modSlot w f).focus = s.focus := rfl
@[simp] theorem State.modSlot_agenda (s : State) (w : Who) (f : Slot → Slot) : (s.modSlot w f).agenda = s.agenda := rfl
@[simp] theorem State.modSlot_fresh (s : State) (w : Who) (f : Slot → Slot) : (s.modSlot w f).fresh = s.fresh := rfl
@[simp] theorem State.modSlot_ready (s : State) (w : Who) (f : Slot → Slot) : (s.modSlot w f).ready = s.ready := rfl
@[simp] theorem State.modSlot_recovery (s : State) (w : Who) (f : Slot → Slot) : (s.modSlot w f).recovery = s.recovery := rfl
@[simp] theorem State.modSlot_ptiles (s : State) (w : Who) (f : Slot → Slot) : (s.modSlot w f).ptiles = s.ptiles := rfl
@[simp] theorem State.modSlot_clusters (s : State) (w : Who) (f : Slot → Slot) : (s.modSlot w f).clusters = s.clusters := rfl
@[simp] theorem State.modSlot_slabs (s : State) (w : Who) (f : Slot → Slot) : (s.modSlot w f).slabs = s.slabs := rfl
@[simp] theorem State.modSlot_vmap (s : State) (w : Who) (f : Slot → Slot) : (s.modSlot w f).vmap = s.vmap := rfl
@[simp] theorem State.modSlot_vmap0 (s : State) (w : Who) (f : Slot → Slot) : (s.modSlot w f).vmap0 = s.vmap0 := rfl
@[simp] theorem State.modSlot_caps (s : State) (w : Who) (f : Slot → Slot) : (s.modSlot w f).caps = s.caps := rfl
@[simp] theorem State.modSlot_hbm (s : State) (w : Who) (f : Slot → Slot) : (s.modSlot w f).hbm = s.hbm := rfl
@[simp] theorem State.modSlot_poison (s : State) (w : Who) (f : Slot → Slot) : (s.modSlot w f).poison = s.poison := rfl
@[simp] theorem State.modSlot_podMem (s : State) (w : Who) (f : Slot → Slot) : (s.modSlot w f).podMem = s.podMem := rfl
@[simp] theorem State.modSlot_shadow (s : State) (w : Who) (f : Slot → Slot) : (s.modSlot w f).shadow = s.shadow := rfl
@[simp] theorem State.modSlot_ctxs (s : State) (w : Who) (f : Slot → Slot) : (s.modSlot w f).ctxs = s.ctxs := rfl
@[simp] theorem State.modSlot_pages (s : State) (w : Who) (f : Slot → Slot) : (s.modSlot w f).pages = s.pages := rfl
@[simp] theorem State.modSlot_quarantine (s : State) (w : Who) (f : Slot → Slot) : (s.modSlot w f).quarantine = s.quarantine := rfl
@[simp] theorem State.modSlot_withdrawn (s : State) (w : Who) (f : Slot → Slot) : (s.modSlot w f).withdrawn = s.withdrawn := rfl
@[simp] theorem State.modSlot_fan (s : State) (w : Who) (f : Slot → Slot) : (s.modSlot w f).fan = s.fan := rfl
@[simp] theorem State.modSlot_rrCtx (s : State) (w : Who) (f : Slot → Slot) : (s.modSlot w f).rrCtx = s.rrCtx := rfl
@[simp] theorem State.modSlot_tasks (s : State) (w : Who) (f : Slot → Slot) : (s.modSlot w f).tasks = s.tasks := rfl
@[simp] theorem State.modSlot_nextTask (s : State) (w : Who) (f : Slot → Slot) : (s.modSlot w f).nextTask = s.nextTask := rfl
@[simp] theorem State.modSlot_retAdds (s : State) (w : Who) (f : Slot → Slot) : (s.modSlot w f).retAdds = s.retAdds := rfl
@[simp] theorem State.modSlot_msgs (s : State) (w : Who) (f : Slot → Slot) : (s.modSlot w f).msgs = s.msgs := rfl
@[simp] theorem State.modSlot_nextMsg (s : State) (w : Who) (f : Slot → Slot) : (s.modSlot w f).nextMsg = s.nextMsg := rfl
@[simp] theorem State.modSlot_acks (s : State) (w : Who) (f : Slot → Slot) : (s.modSlot w f).acks = s.acks := rfl
@[simp] theorem State.modSlot_migs (s : State) (w : Who) (f : Slot → Slot) : (s.modSlot w f).migs = s.migs := rfl
@[simp] theorem State.modSlot_waves (s : State) (w : Who) (f : Slot → Slot) : (s.modSlot w f).waves = s.waves := rfl
@[simp] theorem State.modSlot_nextWave (s : State) (w : Who) (f : Slot → Slot) : (s.modSlot w f).nextWave = s.nextWave := rfl
@[simp] theorem State.modSlot_flog (s : State) (w : Who) (f : Slot → Slot) : (s.modSlot w f).flog = s.flog := rfl
@[simp] theorem State.modSlot_fseq (s : State) (w : Who) (f : Slot → Slot) : (s.modSlot w f).fseq = s.fseq := rfl
@[simp] theorem State.modSlot_flost (s : State) (w : Who) (f : Slot → Slot) : (s.modSlot w f).flost = s.flost := rfl
@[simp] theorem State.modSlot_links (s : State) (w : Who) (f : Slot → Slot) : (s.modSlot w f).links = s.links := rfl
@[simp] theorem State.modSlot_exports (s : State) (w : Who) (f : Slot → Slot) : (s.modSlot w f).exports = s.exports := rfl
@[simp] theorem State.modSlot_routes (s : State) (w : Who) (f : Slot → Slot) : (s.modSlot w f).routes = s.routes := rfl
@[simp] theorem State.modSlot_pods (s : State) (w : Who) (f : Slot → Slot) : (s.modSlot w f).pods = s.pods := rfl
@[simp] theorem State.modSlot_nextReq (s : State) (w : Who) (f : Slot → Slot) : (s.modSlot w f).nextReq = s.nextReq := rfl
@[simp] theorem State.modSlot_rings (s : State) (w : Who) (f : Slot → Slot) : (s.modSlot w f).rings = s.rings := rfl
@[simp] theorem State.modSlot_classes (s : State) (w : Who) (f : Slot → Slot) : (s.modSlot w f).classes = s.classes := rfl
@[simp] theorem State.modSlot_keys (s : State) (w : Who) (f : Slot → Slot) : (s.modSlot w f).keys = s.keys := rfl
@[simp] theorem State.modSlot_portBad (s : State) (w : Who) (f : Slot → Slot) : (s.modSlot w f).portBad = s.portBad := rfl
@[simp] theorem State.modSlot_portNoMatch (s : State) (w : Who) (f : Slot → Slot) : (s.modSlot w f).portNoMatch = s.portNoMatch := rfl
@[simp] theorem State.modSlot_replies (s : State) (w : Who) (f : Slot → Slot) : (s.modSlot w f).replies = s.replies := rfl
@[simp] theorem State.modSlot_alog (s : State) (w : Who) (f : Slot → Slot) : (s.modSlot w f).alog = s.alog := rfl
@[simp] theorem State.modSlot_image (s : State) (w : Who) (f : Slot → Slot) : (s.modSlot w f).image = s.image := rfl
@[simp] theorem State.modSlot_bootRec (s : State) (w : Who) (f : Slot → Slot) : (s.modSlot w f).bootRec = s.bootRec := rfl
@[simp] theorem State.modSlot_reds (s : State) (w : Who) (f : Slot → Slot) : (s.modSlot w f).reds = s.reds := rfl
@[simp] theorem State.modSlot_nextRed (s : State) (w : Who) (f : Slot → Slot) : (s.modSlot w f).nextRed = s.nextRed := rfl
@[simp] theorem State.modSlot_shadowPool (s : State) (w : Who) (f : Slot → Slot) : (s.modSlot w f).shadowPool = s.shadowPool := rfl
@[simp] theorem State.modSlot_hbmCorr (s : State) (w : Who) (f : Slot → Slot) : (s.modSlot w f).hbmCorr = s.hbmCorr := rfl
@[simp] theorem State.modSlot_stretch (s : State) (w : Who) (f : Slot → Slot) : (s.modSlot w f).stretch = s.stretch := rfl
@[simp] theorem State.modSlot_stores (s : State) (w : Who) (f : Slot → Slot) : (s.modSlot w f).stores = s.stores := rfl
@[simp] theorem State.modSlot_nextStore (s : State) (w : Who) (f : Slot → Slot) : (s.modSlot w f).nextStore = s.nextStore := rfl
@[simp] theorem State.modSlot_early (s : State) (w : Who) (f : Slot → Slot) : (s.modSlot w f).early = s.early := rfl
@[simp] theorem State.modSlot_nextThr (s : State) (w : Who) (f : Slot → Slot) : (s.modSlot w f).nextThr = s.nextThr := rfl
@[simp] theorem State.modSlot_slices (s : State) (w : Who) (f : Slot → Slot) : (s.modSlot w f).slices = s.slices := rfl
@[simp] theorem State.modSlot_lseqs (s : State) (w : Who) (f : Slot → Slot) : (s.modSlot w f).lseqs = s.lseqs := rfl
@[simp] theorem State.modSlot_podIn (s : State) (w : Who) (f : Slot → Slot) : (s.modSlot w f).podIn = s.podIn := rfl
@[simp] theorem State.modSlot_oldRepl (s : State) (w : Who) (f : Slot → Slot) : (s.modSlot w f).oldRepl = s.oldRepl := rfl
@[simp] theorem State.modMx_now (s : State) (t : Nat) (f : Matrix → Matrix) : (s.modMx t f).now = s.now := rfl
@[simp] theorem State.modMx_stepAt (s : State) (t : Nat) (f : Matrix → Matrix) : (s.modMx t f).stepAt = s.stepAt := rfl
@[simp] theorem State.modMx_focus (s : State) (t : Nat) (f : Matrix → Matrix) : (s.modMx t f).focus = s.focus := rfl
@[simp] theorem State.modMx_agenda (s : State) (t : Nat) (f : Matrix → Matrix) : (s.modMx t f).agenda = s.agenda := rfl
@[simp] theorem State.modMx_fresh (s : State) (t : Nat) (f : Matrix → Matrix) : (s.modMx t f).fresh = s.fresh := rfl
@[simp] theorem State.modMx_ready (s : State) (t : Nat) (f : Matrix → Matrix) : (s.modMx t f).ready = s.ready := rfl
@[simp] theorem State.modMx_recovery (s : State) (t : Nat) (f : Matrix → Matrix) : (s.modMx t f).recovery = s.recovery := rfl
@[simp] theorem State.modMx_ptiles (s : State) (t : Nat) (f : Matrix → Matrix) : (s.modMx t f).ptiles = s.ptiles := rfl
@[simp] theorem State.modMx_clusters (s : State) (t : Nat) (f : Matrix → Matrix) : (s.modMx t f).clusters = s.clusters := rfl
@[simp] theorem State.modMx_slabs (s : State) (t : Nat) (f : Matrix → Matrix) : (s.modMx t f).slabs = s.slabs := rfl
@[simp] theorem State.modMx_vmap (s : State) (t : Nat) (f : Matrix → Matrix) : (s.modMx t f).vmap = s.vmap := rfl
@[simp] theorem State.modMx_vmap0 (s : State) (t : Nat) (f : Matrix → Matrix) : (s.modMx t f).vmap0 = s.vmap0 := rfl
@[simp] theorem State.modMx_caps (s : State) (t : Nat) (f : Matrix → Matrix) : (s.modMx t f).caps = s.caps := rfl
@[simp] theorem State.modMx_hbm (s : State) (t : Nat) (f : Matrix → Matrix) : (s.modMx t f).hbm = s.hbm := rfl
@[simp] theorem State.modMx_poison (s : State) (t : Nat) (f : Matrix → Matrix) : (s.modMx t f).poison = s.poison := rfl
@[simp] theorem State.modMx_podMem (s : State) (t : Nat) (f : Matrix → Matrix) : (s.modMx t f).podMem = s.podMem := rfl
@[simp] theorem State.modMx_shadow (s : State) (t : Nat) (f : Matrix → Matrix) : (s.modMx t f).shadow = s.shadow := rfl
@[simp] theorem State.modMx_ctxs (s : State) (t : Nat) (f : Matrix → Matrix) : (s.modMx t f).ctxs = s.ctxs := rfl
@[simp] theorem State.modMx_pages (s : State) (t : Nat) (f : Matrix → Matrix) : (s.modMx t f).pages = s.pages := rfl
@[simp] theorem State.modMx_quarantine (s : State) (t : Nat) (f : Matrix → Matrix) : (s.modMx t f).quarantine = s.quarantine := rfl
@[simp] theorem State.modMx_withdrawn (s : State) (t : Nat) (f : Matrix → Matrix) : (s.modMx t f).withdrawn = s.withdrawn := rfl
@[simp] theorem State.modMx_fan (s : State) (t : Nat) (f : Matrix → Matrix) : (s.modMx t f).fan = s.fan := rfl
@[simp] theorem State.modMx_rrCtx (s : State) (t : Nat) (f : Matrix → Matrix) : (s.modMx t f).rrCtx = s.rrCtx := rfl
@[simp] theorem State.modMx_tasks (s : State) (t : Nat) (f : Matrix → Matrix) : (s.modMx t f).tasks = s.tasks := rfl
@[simp] theorem State.modMx_nextTask (s : State) (t : Nat) (f : Matrix → Matrix) : (s.modMx t f).nextTask = s.nextTask := rfl
@[simp] theorem State.modMx_retAdds (s : State) (t : Nat) (f : Matrix → Matrix) : (s.modMx t f).retAdds = s.retAdds := rfl
@[simp] theorem State.modMx_msgs (s : State) (t : Nat) (f : Matrix → Matrix) : (s.modMx t f).msgs = s.msgs := rfl
@[simp] theorem State.modMx_nextMsg (s : State) (t : Nat) (f : Matrix → Matrix) : (s.modMx t f).nextMsg = s.nextMsg := rfl
@[simp] theorem State.modMx_acks (s : State) (t : Nat) (f : Matrix → Matrix) : (s.modMx t f).acks = s.acks := rfl
@[simp] theorem State.modMx_migs (s : State) (t : Nat) (f : Matrix → Matrix) : (s.modMx t f).migs = s.migs := rfl
@[simp] theorem State.modMx_waves (s : State) (t : Nat) (f : Matrix → Matrix) : (s.modMx t f).waves = s.waves := rfl
@[simp] theorem State.modMx_nextWave (s : State) (t : Nat) (f : Matrix → Matrix) : (s.modMx t f).nextWave = s.nextWave := rfl
@[simp] theorem State.modMx_flog (s : State) (t : Nat) (f : Matrix → Matrix) : (s.modMx t f).flog = s.flog := rfl
@[simp] theorem State.modMx_fseq (s : State) (t : Nat) (f : Matrix → Matrix) : (s.modMx t f).fseq = s.fseq := rfl
@[simp] theorem State.modMx_flost (s : State) (t : Nat) (f : Matrix → Matrix) : (s.modMx t f).flost = s.flost := rfl
@[simp] theorem State.modMx_links (s : State) (t : Nat) (f : Matrix → Matrix) : (s.modMx t f).links = s.links := rfl
@[simp] theorem State.modMx_exports (s : State) (t : Nat) (f : Matrix → Matrix) : (s.modMx t f).exports = s.exports := rfl
@[simp] theorem State.modMx_routes (s : State) (t : Nat) (f : Matrix → Matrix) : (s.modMx t f).routes = s.routes := rfl
@[simp] theorem State.modMx_pods (s : State) (t : Nat) (f : Matrix → Matrix) : (s.modMx t f).pods = s.pods := rfl
@[simp] theorem State.modMx_nextReq (s : State) (t : Nat) (f : Matrix → Matrix) : (s.modMx t f).nextReq = s.nextReq := rfl
@[simp] theorem State.modMx_rings (s : State) (t : Nat) (f : Matrix → Matrix) : (s.modMx t f).rings = s.rings := rfl
@[simp] theorem State.modMx_classes (s : State) (t : Nat) (f : Matrix → Matrix) : (s.modMx t f).classes = s.classes := rfl
@[simp] theorem State.modMx_keys (s : State) (t : Nat) (f : Matrix → Matrix) : (s.modMx t f).keys = s.keys := rfl
@[simp] theorem State.modMx_portBad (s : State) (t : Nat) (f : Matrix → Matrix) : (s.modMx t f).portBad = s.portBad := rfl
@[simp] theorem State.modMx_portNoMatch (s : State) (t : Nat) (f : Matrix → Matrix) : (s.modMx t f).portNoMatch = s.portNoMatch := rfl
@[simp] theorem State.modMx_replies (s : State) (t : Nat) (f : Matrix → Matrix) : (s.modMx t f).replies = s.replies := rfl
@[simp] theorem State.modMx_alog (s : State) (t : Nat) (f : Matrix → Matrix) : (s.modMx t f).alog = s.alog := rfl
@[simp] theorem State.modMx_image (s : State) (t : Nat) (f : Matrix → Matrix) : (s.modMx t f).image = s.image := rfl
@[simp] theorem State.modMx_bootRec (s : State) (t : Nat) (f : Matrix → Matrix) : (s.modMx t f).bootRec = s.bootRec := rfl
@[simp] theorem State.modMx_reds (s : State) (t : Nat) (f : Matrix → Matrix) : (s.modMx t f).reds = s.reds := rfl
@[simp] theorem State.modMx_nextRed (s : State) (t : Nat) (f : Matrix → Matrix) : (s.modMx t f).nextRed = s.nextRed := rfl
@[simp] theorem State.modMx_shadowPool (s : State) (t : Nat) (f : Matrix → Matrix) : (s.modMx t f).shadowPool = s.shadowPool := rfl
@[simp] theorem State.modMx_hbmCorr (s : State) (t : Nat) (f : Matrix → Matrix) : (s.modMx t f).hbmCorr = s.hbmCorr := rfl
@[simp] theorem State.modMx_stretch (s : State) (t : Nat) (f : Matrix → Matrix) : (s.modMx t f).stretch = s.stretch := rfl
@[simp] theorem State.modMx_stores (s : State) (t : Nat) (f : Matrix → Matrix) : (s.modMx t f).stores = s.stores := rfl
@[simp] theorem State.modMx_nextStore (s : State) (t : Nat) (f : Matrix → Matrix) : (s.modMx t f).nextStore = s.nextStore := rfl
@[simp] theorem State.modMx_early (s : State) (t : Nat) (f : Matrix → Matrix) : (s.modMx t f).early = s.early := rfl
@[simp] theorem State.modMx_nextThr (s : State) (t : Nat) (f : Matrix → Matrix) : (s.modMx t f).nextThr = s.nextThr := rfl
@[simp] theorem State.modMx_slices (s : State) (t : Nat) (f : Matrix → Matrix) : (s.modMx t f).slices = s.slices := rfl
@[simp] theorem State.modMx_lseqs (s : State) (t : Nat) (f : Matrix → Matrix) : (s.modMx t f).lseqs = s.lseqs := rfl
@[simp] theorem State.modMx_podIn (s : State) (t : Nat) (f : Matrix → Matrix) : (s.modMx t f).podIn = s.podIn := rfl
@[simp] theorem State.modMx_oldRepl (s : State) (t : Nat) (f : Matrix → Matrix) : (s.modMx t f).oldRepl = s.oldRepl := rfl
@[simp] theorem State.modChan_now (s : State) (t c : Nat) (f : Channel → Channel) : (s.modChan t c f).now = s.now := rfl
@[simp] theorem State.modChan_stepAt (s : State) (t c : Nat) (f : Channel → Channel) : (s.modChan t c f).stepAt = s.stepAt := rfl
@[simp] theorem State.modChan_focus (s : State) (t c : Nat) (f : Channel → Channel) : (s.modChan t c f).focus = s.focus := rfl
@[simp] theorem State.modChan_agenda (s : State) (t c : Nat) (f : Channel → Channel) : (s.modChan t c f).agenda = s.agenda := rfl
@[simp] theorem State.modChan_fresh (s : State) (t c : Nat) (f : Channel → Channel) : (s.modChan t c f).fresh = s.fresh := rfl
@[simp] theorem State.modChan_ready (s : State) (t c : Nat) (f : Channel → Channel) : (s.modChan t c f).ready = s.ready := rfl
@[simp] theorem State.modChan_recovery (s : State) (t c : Nat) (f : Channel → Channel) : (s.modChan t c f).recovery = s.recovery := rfl
@[simp] theorem State.modChan_ptiles (s : State) (t c : Nat) (f : Channel → Channel) : (s.modChan t c f).ptiles = s.ptiles := rfl
@[simp] theorem State.modChan_clusters (s : State) (t c : Nat) (f : Channel → Channel) : (s.modChan t c f).clusters = s.clusters := rfl
@[simp] theorem State.modChan_slabs (s : State) (t c : Nat) (f : Channel → Channel) : (s.modChan t c f).slabs = s.slabs := rfl
@[simp] theorem State.modChan_vmap (s : State) (t c : Nat) (f : Channel → Channel) : (s.modChan t c f).vmap = s.vmap := rfl
@[simp] theorem State.modChan_vmap0 (s : State) (t c : Nat) (f : Channel → Channel) : (s.modChan t c f).vmap0 = s.vmap0 := rfl
@[simp] theorem State.modChan_caps (s : State) (t c : Nat) (f : Channel → Channel) : (s.modChan t c f).caps = s.caps := rfl
@[simp] theorem State.modChan_hbm (s : State) (t c : Nat) (f : Channel → Channel) : (s.modChan t c f).hbm = s.hbm := rfl
@[simp] theorem State.modChan_poison (s : State) (t c : Nat) (f : Channel → Channel) : (s.modChan t c f).poison = s.poison := rfl
@[simp] theorem State.modChan_podMem (s : State) (t c : Nat) (f : Channel → Channel) : (s.modChan t c f).podMem = s.podMem := rfl
@[simp] theorem State.modChan_shadow (s : State) (t c : Nat) (f : Channel → Channel) : (s.modChan t c f).shadow = s.shadow := rfl
@[simp] theorem State.modChan_ctxs (s : State) (t c : Nat) (f : Channel → Channel) : (s.modChan t c f).ctxs = s.ctxs := rfl
@[simp] theorem State.modChan_pages (s : State) (t c : Nat) (f : Channel → Channel) : (s.modChan t c f).pages = s.pages := rfl
@[simp] theorem State.modChan_quarantine (s : State) (t c : Nat) (f : Channel → Channel) : (s.modChan t c f).quarantine = s.quarantine := rfl
@[simp] theorem State.modChan_withdrawn (s : State) (t c : Nat) (f : Channel → Channel) : (s.modChan t c f).withdrawn = s.withdrawn := rfl
@[simp] theorem State.modChan_fan (s : State) (t c : Nat) (f : Channel → Channel) : (s.modChan t c f).fan = s.fan := rfl
@[simp] theorem State.modChan_rrCtx (s : State) (t c : Nat) (f : Channel → Channel) : (s.modChan t c f).rrCtx = s.rrCtx := rfl
@[simp] theorem State.modChan_tasks (s : State) (t c : Nat) (f : Channel → Channel) : (s.modChan t c f).tasks = s.tasks := rfl
@[simp] theorem State.modChan_nextTask (s : State) (t c : Nat) (f : Channel → Channel) : (s.modChan t c f).nextTask = s.nextTask := rfl
@[simp] theorem State.modChan_retAdds (s : State) (t c : Nat) (f : Channel → Channel) : (s.modChan t c f).retAdds = s.retAdds := rfl
@[simp] theorem State.modChan_msgs (s : State) (t c : Nat) (f : Channel → Channel) : (s.modChan t c f).msgs = s.msgs := rfl
@[simp] theorem State.modChan_nextMsg (s : State) (t c : Nat) (f : Channel → Channel) : (s.modChan t c f).nextMsg = s.nextMsg := rfl
@[simp] theorem State.modChan_acks (s : State) (t c : Nat) (f : Channel → Channel) : (s.modChan t c f).acks = s.acks := rfl
@[simp] theorem State.modChan_migs (s : State) (t c : Nat) (f : Channel → Channel) : (s.modChan t c f).migs = s.migs := rfl
@[simp] theorem State.modChan_waves (s : State) (t c : Nat) (f : Channel → Channel) : (s.modChan t c f).waves = s.waves := rfl
@[simp] theorem State.modChan_nextWave (s : State) (t c : Nat) (f : Channel → Channel) : (s.modChan t c f).nextWave = s.nextWave := rfl
@[simp] theorem State.modChan_flog (s : State) (t c : Nat) (f : Channel → Channel) : (s.modChan t c f).flog = s.flog := rfl
@[simp] theorem State.modChan_fseq (s : State) (t c : Nat) (f : Channel → Channel) : (s.modChan t c f).fseq = s.fseq := rfl
@[simp] theorem State.modChan_flost (s : State) (t c : Nat) (f : Channel → Channel) : (s.modChan t c f).flost = s.flost := rfl
@[simp] theorem State.modChan_links (s : State) (t c : Nat) (f : Channel → Channel) : (s.modChan t c f).links = s.links := rfl
@[simp] theorem State.modChan_exports (s : State) (t c : Nat) (f : Channel → Channel) : (s.modChan t c f).exports = s.exports := rfl
@[simp] theorem State.modChan_routes (s : State) (t c : Nat) (f : Channel → Channel) : (s.modChan t c f).routes = s.routes := rfl
@[simp] theorem State.modChan_pods (s : State) (t c : Nat) (f : Channel → Channel) : (s.modChan t c f).pods = s.pods := rfl
@[simp] theorem State.modChan_nextReq (s : State) (t c : Nat) (f : Channel → Channel) : (s.modChan t c f).nextReq = s.nextReq := rfl
@[simp] theorem State.modChan_rings (s : State) (t c : Nat) (f : Channel → Channel) : (s.modChan t c f).rings = s.rings := rfl
@[simp] theorem State.modChan_classes (s : State) (t c : Nat) (f : Channel → Channel) : (s.modChan t c f).classes = s.classes := rfl
@[simp] theorem State.modChan_keys (s : State) (t c : Nat) (f : Channel → Channel) : (s.modChan t c f).keys = s.keys := rfl
@[simp] theorem State.modChan_portBad (s : State) (t c : Nat) (f : Channel → Channel) : (s.modChan t c f).portBad = s.portBad := rfl
@[simp] theorem State.modChan_portNoMatch (s : State) (t c : Nat) (f : Channel → Channel) : (s.modChan t c f).portNoMatch = s.portNoMatch := rfl
@[simp] theorem State.modChan_replies (s : State) (t c : Nat) (f : Channel → Channel) : (s.modChan t c f).replies = s.replies := rfl
@[simp] theorem State.modChan_alog (s : State) (t c : Nat) (f : Channel → Channel) : (s.modChan t c f).alog = s.alog := rfl
@[simp] theorem State.modChan_image (s : State) (t c : Nat) (f : Channel → Channel) : (s.modChan t c f).image = s.image := rfl
@[simp] theorem State.modChan_bootRec (s : State) (t c : Nat) (f : Channel → Channel) : (s.modChan t c f).bootRec = s.bootRec := rfl
@[simp] theorem State.modChan_reds (s : State) (t c : Nat) (f : Channel → Channel) : (s.modChan t c f).reds = s.reds := rfl
@[simp] theorem State.modChan_nextRed (s : State) (t c : Nat) (f : Channel → Channel) : (s.modChan t c f).nextRed = s.nextRed := rfl
@[simp] theorem State.modChan_shadowPool (s : State) (t c : Nat) (f : Channel → Channel) : (s.modChan t c f).shadowPool = s.shadowPool := rfl
@[simp] theorem State.modChan_hbmCorr (s : State) (t c : Nat) (f : Channel → Channel) : (s.modChan t c f).hbmCorr = s.hbmCorr := rfl
@[simp] theorem State.modChan_stretch (s : State) (t c : Nat) (f : Channel → Channel) : (s.modChan t c f).stretch = s.stretch := rfl
@[simp] theorem State.modChan_stores (s : State) (t c : Nat) (f : Channel → Channel) : (s.modChan t c f).stores = s.stores := rfl
@[simp] theorem State.modChan_nextStore (s : State) (t c : Nat) (f : Channel → Channel) : (s.modChan t c f).nextStore = s.nextStore := rfl
@[simp] theorem State.modChan_early (s : State) (t c : Nat) (f : Channel → Channel) : (s.modChan t c f).early = s.early := rfl
@[simp] theorem State.modChan_nextThr (s : State) (t c : Nat) (f : Channel → Channel) : (s.modChan t c f).nextThr = s.nextThr := rfl
@[simp] theorem State.modChan_slices (s : State) (t c : Nat) (f : Channel → Channel) : (s.modChan t c f).slices = s.slices := rfl
@[simp] theorem State.modChan_lseqs (s : State) (t c : Nat) (f : Channel → Channel) : (s.modChan t c f).lseqs = s.lseqs := rfl
@[simp] theorem State.modChan_podIn (s : State) (t c : Nat) (f : Channel → Channel) : (s.modChan t c f).podIn = s.podIn := rfl
@[simp] theorem State.modChan_oldRepl (s : State) (t c : Nat) (f : Channel → Channel) : (s.modChan t c f).oldRepl = s.oldRepl := rfl
@[simp] theorem State.setPtile_now (s : State) (p : Nat) (x : PTile) : (s.setPtile p x).now = s.now := rfl
@[simp] theorem State.setPtile_stepAt (s : State) (p : Nat) (x : PTile) : (s.setPtile p x).stepAt = s.stepAt := rfl
@[simp] theorem State.setPtile_focus (s : State) (p : Nat) (x : PTile) : (s.setPtile p x).focus = s.focus := rfl
@[simp] theorem State.setPtile_agenda (s : State) (p : Nat) (x : PTile) : (s.setPtile p x).agenda = s.agenda := rfl
@[simp] theorem State.setPtile_fresh (s : State) (p : Nat) (x : PTile) : (s.setPtile p x).fresh = s.fresh := rfl
@[simp] theorem State.setPtile_ready (s : State) (p : Nat) (x : PTile) : (s.setPtile p x).ready = s.ready := rfl
@[simp] theorem State.setPtile_recovery (s : State) (p : Nat) (x : PTile) : (s.setPtile p x).recovery = s.recovery := rfl
@[simp] theorem State.setPtile_tiles (s : State) (p : Nat) (x : PTile) : (s.setPtile p x).tiles = s.tiles := rfl
@[simp] theorem State.setPtile_clusters (s : State) (p : Nat) (x : PTile) : (s.setPtile p x).clusters = s.clusters := rfl
@[simp] theorem State.setPtile_slabs (s : State) (p : Nat) (x : PTile) : (s.setPtile p x).slabs = s.slabs := rfl
@[simp] theorem State.setPtile_vmap (s : State) (p : Nat) (x : PTile) : (s.setPtile p x).vmap = s.vmap := rfl
@[simp] theorem State.setPtile_vmap0 (s : State) (p : Nat) (x : PTile) : (s.setPtile p x).vmap0 = s.vmap0 := rfl
@[simp] theorem State.setPtile_caps (s : State) (p : Nat) (x : PTile) : (s.setPtile p x).caps = s.caps := rfl
@[simp] theorem State.setPtile_hbm (s : State) (p : Nat) (x : PTile) : (s.setPtile p x).hbm = s.hbm := rfl
@[simp] theorem State.setPtile_poison (s : State) (p : Nat) (x : PTile) : (s.setPtile p x).poison = s.poison := rfl
@[simp] theorem State.setPtile_podMem (s : State) (p : Nat) (x : PTile) : (s.setPtile p x).podMem = s.podMem := rfl
@[simp] theorem State.setPtile_shadow (s : State) (p : Nat) (x : PTile) : (s.setPtile p x).shadow = s.shadow := rfl
@[simp] theorem State.setPtile_ctxs (s : State) (p : Nat) (x : PTile) : (s.setPtile p x).ctxs = s.ctxs := rfl
@[simp] theorem State.setPtile_pages (s : State) (p : Nat) (x : PTile) : (s.setPtile p x).pages = s.pages := rfl
@[simp] theorem State.setPtile_quarantine (s : State) (p : Nat) (x : PTile) : (s.setPtile p x).quarantine = s.quarantine := rfl
@[simp] theorem State.setPtile_withdrawn (s : State) (p : Nat) (x : PTile) : (s.setPtile p x).withdrawn = s.withdrawn := rfl
@[simp] theorem State.setPtile_fan (s : State) (p : Nat) (x : PTile) : (s.setPtile p x).fan = s.fan := rfl
@[simp] theorem State.setPtile_rrCtx (s : State) (p : Nat) (x : PTile) : (s.setPtile p x).rrCtx = s.rrCtx := rfl
@[simp] theorem State.setPtile_tasks (s : State) (p : Nat) (x : PTile) : (s.setPtile p x).tasks = s.tasks := rfl
@[simp] theorem State.setPtile_nextTask (s : State) (p : Nat) (x : PTile) : (s.setPtile p x).nextTask = s.nextTask := rfl
@[simp] theorem State.setPtile_retAdds (s : State) (p : Nat) (x : PTile) : (s.setPtile p x).retAdds = s.retAdds := rfl
@[simp] theorem State.setPtile_msgs (s : State) (p : Nat) (x : PTile) : (s.setPtile p x).msgs = s.msgs := rfl
@[simp] theorem State.setPtile_nextMsg (s : State) (p : Nat) (x : PTile) : (s.setPtile p x).nextMsg = s.nextMsg := rfl
@[simp] theorem State.setPtile_acks (s : State) (p : Nat) (x : PTile) : (s.setPtile p x).acks = s.acks := rfl
@[simp] theorem State.setPtile_migs (s : State) (p : Nat) (x : PTile) : (s.setPtile p x).migs = s.migs := rfl
@[simp] theorem State.setPtile_waves (s : State) (p : Nat) (x : PTile) : (s.setPtile p x).waves = s.waves := rfl
@[simp] theorem State.setPtile_nextWave (s : State) (p : Nat) (x : PTile) : (s.setPtile p x).nextWave = s.nextWave := rfl
@[simp] theorem State.setPtile_flog (s : State) (p : Nat) (x : PTile) : (s.setPtile p x).flog = s.flog := rfl
@[simp] theorem State.setPtile_fseq (s : State) (p : Nat) (x : PTile) : (s.setPtile p x).fseq = s.fseq := rfl
@[simp] theorem State.setPtile_flost (s : State) (p : Nat) (x : PTile) : (s.setPtile p x).flost = s.flost := rfl
@[simp] theorem State.setPtile_links (s : State) (p : Nat) (x : PTile) : (s.setPtile p x).links = s.links := rfl
@[simp] theorem State.setPtile_exports (s : State) (p : Nat) (x : PTile) : (s.setPtile p x).exports = s.exports := rfl
@[simp] theorem State.setPtile_routes (s : State) (p : Nat) (x : PTile) : (s.setPtile p x).routes = s.routes := rfl
@[simp] theorem State.setPtile_pods (s : State) (p : Nat) (x : PTile) : (s.setPtile p x).pods = s.pods := rfl
@[simp] theorem State.setPtile_nextReq (s : State) (p : Nat) (x : PTile) : (s.setPtile p x).nextReq = s.nextReq := rfl
@[simp] theorem State.setPtile_rings (s : State) (p : Nat) (x : PTile) : (s.setPtile p x).rings = s.rings := rfl
@[simp] theorem State.setPtile_classes (s : State) (p : Nat) (x : PTile) : (s.setPtile p x).classes = s.classes := rfl
@[simp] theorem State.setPtile_keys (s : State) (p : Nat) (x : PTile) : (s.setPtile p x).keys = s.keys := rfl
@[simp] theorem State.setPtile_portBad (s : State) (p : Nat) (x : PTile) : (s.setPtile p x).portBad = s.portBad := rfl
@[simp] theorem State.setPtile_portNoMatch (s : State) (p : Nat) (x : PTile) : (s.setPtile p x).portNoMatch = s.portNoMatch := rfl
@[simp] theorem State.setPtile_replies (s : State) (p : Nat) (x : PTile) : (s.setPtile p x).replies = s.replies := rfl
@[simp] theorem State.setPtile_alog (s : State) (p : Nat) (x : PTile) : (s.setPtile p x).alog = s.alog := rfl
@[simp] theorem State.setPtile_image (s : State) (p : Nat) (x : PTile) : (s.setPtile p x).image = s.image := rfl
@[simp] theorem State.setPtile_bootRec (s : State) (p : Nat) (x : PTile) : (s.setPtile p x).bootRec = s.bootRec := rfl
@[simp] theorem State.setPtile_reds (s : State) (p : Nat) (x : PTile) : (s.setPtile p x).reds = s.reds := rfl
@[simp] theorem State.setPtile_nextRed (s : State) (p : Nat) (x : PTile) : (s.setPtile p x).nextRed = s.nextRed := rfl
@[simp] theorem State.setPtile_shadowPool (s : State) (p : Nat) (x : PTile) : (s.setPtile p x).shadowPool = s.shadowPool := rfl
@[simp] theorem State.setPtile_hbmCorr (s : State) (p : Nat) (x : PTile) : (s.setPtile p x).hbmCorr = s.hbmCorr := rfl
@[simp] theorem State.setPtile_stretch (s : State) (p : Nat) (x : PTile) : (s.setPtile p x).stretch = s.stretch := rfl
@[simp] theorem State.setPtile_stores (s : State) (p : Nat) (x : PTile) : (s.setPtile p x).stores = s.stores := rfl
@[simp] theorem State.setPtile_nextStore (s : State) (p : Nat) (x : PTile) : (s.setPtile p x).nextStore = s.nextStore := rfl
@[simp] theorem State.setPtile_early (s : State) (p : Nat) (x : PTile) : (s.setPtile p x).early = s.early := rfl
@[simp] theorem State.setPtile_nextThr (s : State) (p : Nat) (x : PTile) : (s.setPtile p x).nextThr = s.nextThr := rfl
@[simp] theorem State.setPtile_slices (s : State) (p : Nat) (x : PTile) : (s.setPtile p x).slices = s.slices := rfl
@[simp] theorem State.setPtile_lseqs (s : State) (p : Nat) (x : PTile) : (s.setPtile p x).lseqs = s.lseqs := rfl
@[simp] theorem State.setPtile_podIn (s : State) (p : Nat) (x : PTile) : (s.setPtile p x).podIn = s.podIn := rfl
@[simp] theorem State.setPtile_oldRepl (s : State) (p : Nat) (x : PTile) : (s.setPtile p x).oldRepl = s.oldRepl := rfl
@[simp] theorem State.modPtile_now (s : State) (p : Nat) (f : PTile → PTile) : (s.modPtile p f).now = s.now := rfl
@[simp] theorem State.modPtile_stepAt (s : State) (p : Nat) (f : PTile → PTile) : (s.modPtile p f).stepAt = s.stepAt := rfl
@[simp] theorem State.modPtile_focus (s : State) (p : Nat) (f : PTile → PTile) : (s.modPtile p f).focus = s.focus := rfl
@[simp] theorem State.modPtile_agenda (s : State) (p : Nat) (f : PTile → PTile) : (s.modPtile p f).agenda = s.agenda := rfl
@[simp] theorem State.modPtile_fresh (s : State) (p : Nat) (f : PTile → PTile) : (s.modPtile p f).fresh = s.fresh := rfl
@[simp] theorem State.modPtile_ready (s : State) (p : Nat) (f : PTile → PTile) : (s.modPtile p f).ready = s.ready := rfl
@[simp] theorem State.modPtile_recovery (s : State) (p : Nat) (f : PTile → PTile) : (s.modPtile p f).recovery = s.recovery := rfl
@[simp] theorem State.modPtile_tiles (s : State) (p : Nat) (f : PTile → PTile) : (s.modPtile p f).tiles = s.tiles := rfl
@[simp] theorem State.modPtile_clusters (s : State) (p : Nat) (f : PTile → PTile) : (s.modPtile p f).clusters = s.clusters := rfl
@[simp] theorem State.modPtile_slabs (s : State) (p : Nat) (f : PTile → PTile) : (s.modPtile p f).slabs = s.slabs := rfl
@[simp] theorem State.modPtile_vmap (s : State) (p : Nat) (f : PTile → PTile) : (s.modPtile p f).vmap = s.vmap := rfl
@[simp] theorem State.modPtile_vmap0 (s : State) (p : Nat) (f : PTile → PTile) : (s.modPtile p f).vmap0 = s.vmap0 := rfl
@[simp] theorem State.modPtile_caps (s : State) (p : Nat) (f : PTile → PTile) : (s.modPtile p f).caps = s.caps := rfl
@[simp] theorem State.modPtile_hbm (s : State) (p : Nat) (f : PTile → PTile) : (s.modPtile p f).hbm = s.hbm := rfl
@[simp] theorem State.modPtile_poison (s : State) (p : Nat) (f : PTile → PTile) : (s.modPtile p f).poison = s.poison := rfl
@[simp] theorem State.modPtile_podMem (s : State) (p : Nat) (f : PTile → PTile) : (s.modPtile p f).podMem = s.podMem := rfl
@[simp] theorem State.modPtile_shadow (s : State) (p : Nat) (f : PTile → PTile) : (s.modPtile p f).shadow = s.shadow := rfl
@[simp] theorem State.modPtile_ctxs (s : State) (p : Nat) (f : PTile → PTile) : (s.modPtile p f).ctxs = s.ctxs := rfl
@[simp] theorem State.modPtile_pages (s : State) (p : Nat) (f : PTile → PTile) : (s.modPtile p f).pages = s.pages := rfl
@[simp] theorem State.modPtile_quarantine (s : State) (p : Nat) (f : PTile → PTile) : (s.modPtile p f).quarantine = s.quarantine := rfl
@[simp] theorem State.modPtile_withdrawn (s : State) (p : Nat) (f : PTile → PTile) : (s.modPtile p f).withdrawn = s.withdrawn := rfl
@[simp] theorem State.modPtile_fan (s : State) (p : Nat) (f : PTile → PTile) : (s.modPtile p f).fan = s.fan := rfl
@[simp] theorem State.modPtile_rrCtx (s : State) (p : Nat) (f : PTile → PTile) : (s.modPtile p f).rrCtx = s.rrCtx := rfl
@[simp] theorem State.modPtile_tasks (s : State) (p : Nat) (f : PTile → PTile) : (s.modPtile p f).tasks = s.tasks := rfl
@[simp] theorem State.modPtile_nextTask (s : State) (p : Nat) (f : PTile → PTile) : (s.modPtile p f).nextTask = s.nextTask := rfl
@[simp] theorem State.modPtile_retAdds (s : State) (p : Nat) (f : PTile → PTile) : (s.modPtile p f).retAdds = s.retAdds := rfl
@[simp] theorem State.modPtile_msgs (s : State) (p : Nat) (f : PTile → PTile) : (s.modPtile p f).msgs = s.msgs := rfl
@[simp] theorem State.modPtile_nextMsg (s : State) (p : Nat) (f : PTile → PTile) : (s.modPtile p f).nextMsg = s.nextMsg := rfl
@[simp] theorem State.modPtile_acks (s : State) (p : Nat) (f : PTile → PTile) : (s.modPtile p f).acks = s.acks := rfl
@[simp] theorem State.modPtile_migs (s : State) (p : Nat) (f : PTile → PTile) : (s.modPtile p f).migs = s.migs := rfl
@[simp] theorem State.modPtile_waves (s : State) (p : Nat) (f : PTile → PTile) : (s.modPtile p f).waves = s.waves := rfl
@[simp] theorem State.modPtile_nextWave (s : State) (p : Nat) (f : PTile → PTile) : (s.modPtile p f).nextWave = s.nextWave := rfl
@[simp] theorem State.modPtile_flog (s : State) (p : Nat) (f : PTile → PTile) : (s.modPtile p f).flog = s.flog := rfl
@[simp] theorem State.modPtile_fseq (s : State) (p : Nat) (f : PTile → PTile) : (s.modPtile p f).fseq = s.fseq := rfl
@[simp] theorem State.modPtile_flost (s : State) (p : Nat) (f : PTile → PTile) : (s.modPtile p f).flost = s.flost := rfl
@[simp] theorem State.modPtile_links (s : State) (p : Nat) (f : PTile → PTile) : (s.modPtile p f).links = s.links := rfl
@[simp] theorem State.modPtile_exports (s : State) (p : Nat) (f : PTile → PTile) : (s.modPtile p f).exports = s.exports := rfl
@[simp] theorem State.modPtile_routes (s : State) (p : Nat) (f : PTile → PTile) : (s.modPtile p f).routes = s.routes := rfl
@[simp] theorem State.modPtile_pods (s : State) (p : Nat) (f : PTile → PTile) : (s.modPtile p f).pods = s.pods := rfl
@[simp] theorem State.modPtile_nextReq (s : State) (p : Nat) (f : PTile → PTile) : (s.modPtile p f).nextReq = s.nextReq := rfl
@[simp] theorem State.modPtile_rings (s : State) (p : Nat) (f : PTile → PTile) : (s.modPtile p f).rings = s.rings := rfl
@[simp] theorem State.modPtile_classes (s : State) (p : Nat) (f : PTile → PTile) : (s.modPtile p f).classes = s.classes := rfl
@[simp] theorem State.modPtile_keys (s : State) (p : Nat) (f : PTile → PTile) : (s.modPtile p f).keys = s.keys := rfl
@[simp] theorem State.modPtile_portBad (s : State) (p : Nat) (f : PTile → PTile) : (s.modPtile p f).portBad = s.portBad := rfl
@[simp] theorem State.modPtile_portNoMatch (s : State) (p : Nat) (f : PTile → PTile) : (s.modPtile p f).portNoMatch = s.portNoMatch := rfl
@[simp] theorem State.modPtile_replies (s : State) (p : Nat) (f : PTile → PTile) : (s.modPtile p f).replies = s.replies := rfl
@[simp] theorem State.modPtile_alog (s : State) (p : Nat) (f : PTile → PTile) : (s.modPtile p f).alog = s.alog := rfl
@[simp] theorem State.modPtile_image (s : State) (p : Nat) (f : PTile → PTile) : (s.modPtile p f).image = s.image := rfl
@[simp] theorem State.modPtile_bootRec (s : State) (p : Nat) (f : PTile → PTile) : (s.modPtile p f).bootRec = s.bootRec := rfl
@[simp] theorem State.modPtile_reds (s : State) (p : Nat) (f : PTile → PTile) : (s.modPtile p f).reds = s.reds := rfl
@[simp] theorem State.modPtile_nextRed (s : State) (p : Nat) (f : PTile → PTile) : (s.modPtile p f).nextRed = s.nextRed := rfl
@[simp] theorem State.modPtile_shadowPool (s : State) (p : Nat) (f : PTile → PTile) : (s.modPtile p f).shadowPool = s.shadowPool := rfl
@[simp] theorem State.modPtile_hbmCorr (s : State) (p : Nat) (f : PTile → PTile) : (s.modPtile p f).hbmCorr = s.hbmCorr := rfl
@[simp] theorem State.modPtile_stretch (s : State) (p : Nat) (f : PTile → PTile) : (s.modPtile p f).stretch = s.stretch := rfl
@[simp] theorem State.modPtile_stores (s : State) (p : Nat) (f : PTile → PTile) : (s.modPtile p f).stores = s.stores := rfl
@[simp] theorem State.modPtile_nextStore (s : State) (p : Nat) (f : PTile → PTile) : (s.modPtile p f).nextStore = s.nextStore := rfl
@[simp] theorem State.modPtile_early (s : State) (p : Nat) (f : PTile → PTile) : (s.modPtile p f).early = s.early := rfl
@[simp] theorem State.modPtile_nextThr (s : State) (p : Nat) (f : PTile → PTile) : (s.modPtile p f).nextThr = s.nextThr := rfl
@[simp] theorem State.modPtile_slices (s : State) (p : Nat) (f : PTile → PTile) : (s.modPtile p f).slices = s.slices := rfl
@[simp] theorem State.modPtile_lseqs (s : State) (p : Nat) (f : PTile → PTile) : (s.modPtile p f).lseqs = s.lseqs := rfl
@[simp] theorem State.modPtile_podIn (s : State) (p : Nat) (f : PTile → PTile) : (s.modPtile p f).podIn = s.podIn := rfl
@[simp] theorem State.modPtile_oldRepl (s : State) (p : Nat) (f : PTile → PTile) : (s.modPtile p f).oldRepl = s.oldRepl := rfl
@[simp] theorem State.setClu_now (s : State) (c : Nat) (x : Cluster) : (s.setClu c x).now = s.now := rfl
@[simp] theorem State.setClu_stepAt (s : State) (c : Nat) (x : Cluster) : (s.setClu c x).stepAt = s.stepAt := rfl
@[simp] theorem State.setClu_focus (s : State) (c : Nat) (x : Cluster) : (s.setClu c x).focus = s.focus := rfl
@[simp] theorem State.setClu_agenda (s : State) (c : Nat) (x : Cluster) : (s.setClu c x).agenda = s.agenda := rfl
@[simp] theorem State.setClu_fresh (s : State) (c : Nat) (x : Cluster) : (s.setClu c x).fresh = s.fresh := rfl
@[simp] theorem State.setClu_ready (s : State) (c : Nat) (x : Cluster) : (s.setClu c x).ready = s.ready := rfl
@[simp] theorem State.setClu_recovery (s : State) (c : Nat) (x : Cluster) : (s.setClu c x).recovery = s.recovery := rfl
@[simp] theorem State.setClu_tiles (s : State) (c : Nat) (x : Cluster) : (s.setClu c x).tiles = s.tiles := rfl
@[simp] theorem State.setClu_ptiles (s : State) (c : Nat) (x : Cluster) : (s.setClu c x).ptiles = s.ptiles := rfl
@[simp] theorem State.setClu_slabs (s : State) (c : Nat) (x : Cluster) : (s.setClu c x).slabs = s.slabs := rfl
@[simp] theorem State.setClu_vmap (s : State) (c : Nat) (x : Cluster) : (s.setClu c x).vmap = s.vmap := rfl
@[simp] theorem State.setClu_vmap0 (s : State) (c : Nat) (x : Cluster) : (s.setClu c x).vmap0 = s.vmap0 := rfl
@[simp] theorem State.setClu_caps (s : State) (c : Nat) (x : Cluster) : (s.setClu c x).caps = s.caps := rfl
@[simp] theorem State.setClu_hbm (s : State) (c : Nat) (x : Cluster) : (s.setClu c x).hbm = s.hbm := rfl
@[simp] theorem State.setClu_poison (s : State) (c : Nat) (x : Cluster) : (s.setClu c x).poison = s.poison := rfl
@[simp] theorem State.setClu_podMem (s : State) (c : Nat) (x : Cluster) : (s.setClu c x).podMem = s.podMem := rfl
@[simp] theorem State.setClu_shadow (s : State) (c : Nat) (x : Cluster) : (s.setClu c x).shadow = s.shadow := rfl
@[simp] theorem State.setClu_ctxs (s : State) (c : Nat) (x : Cluster) : (s.setClu c x).ctxs = s.ctxs := rfl
@[simp] theorem State.setClu_pages (s : State) (c : Nat) (x : Cluster) : (s.setClu c x).pages = s.pages := rfl
@[simp] theorem State.setClu_quarantine (s : State) (c : Nat) (x : Cluster) : (s.setClu c x).quarantine = s.quarantine := rfl
@[simp] theorem State.setClu_withdrawn (s : State) (c : Nat) (x : Cluster) : (s.setClu c x).withdrawn = s.withdrawn := rfl
@[simp] theorem State.setClu_fan (s : State) (c : Nat) (x : Cluster) : (s.setClu c x).fan = s.fan := rfl
@[simp] theorem State.setClu_rrCtx (s : State) (c : Nat) (x : Cluster) : (s.setClu c x).rrCtx = s.rrCtx := rfl
@[simp] theorem State.setClu_tasks (s : State) (c : Nat) (x : Cluster) : (s.setClu c x).tasks = s.tasks := rfl
@[simp] theorem State.setClu_nextTask (s : State) (c : Nat) (x : Cluster) : (s.setClu c x).nextTask = s.nextTask := rfl
@[simp] theorem State.setClu_retAdds (s : State) (c : Nat) (x : Cluster) : (s.setClu c x).retAdds = s.retAdds := rfl
@[simp] theorem State.setClu_msgs (s : State) (c : Nat) (x : Cluster) : (s.setClu c x).msgs = s.msgs := rfl
@[simp] theorem State.setClu_nextMsg (s : State) (c : Nat) (x : Cluster) : (s.setClu c x).nextMsg = s.nextMsg := rfl
@[simp] theorem State.setClu_acks (s : State) (c : Nat) (x : Cluster) : (s.setClu c x).acks = s.acks := rfl
@[simp] theorem State.setClu_migs (s : State) (c : Nat) (x : Cluster) : (s.setClu c x).migs = s.migs := rfl
@[simp] theorem State.setClu_waves (s : State) (c : Nat) (x : Cluster) : (s.setClu c x).waves = s.waves := rfl
@[simp] theorem State.setClu_nextWave (s : State) (c : Nat) (x : Cluster) : (s.setClu c x).nextWave = s.nextWave := rfl
@[simp] theorem State.setClu_flog (s : State) (c : Nat) (x : Cluster) : (s.setClu c x).flog = s.flog := rfl
@[simp] theorem State.setClu_fseq (s : State) (c : Nat) (x : Cluster) : (s.setClu c x).fseq = s.fseq := rfl
@[simp] theorem State.setClu_flost (s : State) (c : Nat) (x : Cluster) : (s.setClu c x).flost = s.flost := rfl
@[simp] theorem State.setClu_links (s : State) (c : Nat) (x : Cluster) : (s.setClu c x).links = s.links := rfl
@[simp] theorem State.setClu_exports (s : State) (c : Nat) (x : Cluster) : (s.setClu c x).exports = s.exports := rfl
@[simp] theorem State.setClu_routes (s : State) (c : Nat) (x : Cluster) : (s.setClu c x).routes = s.routes := rfl
@[simp] theorem State.setClu_pods (s : State) (c : Nat) (x : Cluster) : (s.setClu c x).pods = s.pods := rfl
@[simp] theorem State.setClu_nextReq (s : State) (c : Nat) (x : Cluster) : (s.setClu c x).nextReq = s.nextReq := rfl
@[simp] theorem State.setClu_rings (s : State) (c : Nat) (x : Cluster) : (s.setClu c x).rings = s.rings := rfl
@[simp] theorem State.setClu_classes (s : State) (c : Nat) (x : Cluster) : (s.setClu c x).classes = s.classes := rfl
@[simp] theorem State.setClu_keys (s : State) (c : Nat) (x : Cluster) : (s.setClu c x).keys = s.keys := rfl
@[simp] theorem State.setClu_portBad (s : State) (c : Nat) (x : Cluster) : (s.setClu c x).portBad = s.portBad := rfl
@[simp] theorem State.setClu_portNoMatch (s : State) (c : Nat) (x : Cluster) : (s.setClu c x).portNoMatch = s.portNoMatch := rfl
@[simp] theorem State.setClu_replies (s : State) (c : Nat) (x : Cluster) : (s.setClu c x).replies = s.replies := rfl
@[simp] theorem State.setClu_alog (s : State) (c : Nat) (x : Cluster) : (s.setClu c x).alog = s.alog := rfl
@[simp] theorem State.setClu_image (s : State) (c : Nat) (x : Cluster) : (s.setClu c x).image = s.image := rfl
@[simp] theorem State.setClu_bootRec (s : State) (c : Nat) (x : Cluster) : (s.setClu c x).bootRec = s.bootRec := rfl
@[simp] theorem State.setClu_reds (s : State) (c : Nat) (x : Cluster) : (s.setClu c x).reds = s.reds := rfl
@[simp] theorem State.setClu_nextRed (s : State) (c : Nat) (x : Cluster) : (s.setClu c x).nextRed = s.nextRed := rfl
@[simp] theorem State.setClu_shadowPool (s : State) (c : Nat) (x : Cluster) : (s.setClu c x).shadowPool = s.shadowPool := rfl
@[simp] theorem State.setClu_hbmCorr (s : State) (c : Nat) (x : Cluster) : (s.setClu c x).hbmCorr = s.hbmCorr := rfl
@[simp] theorem State.setClu_stretch (s : State) (c : Nat) (x : Cluster) : (s.setClu c x).stretch = s.stretch := rfl
@[simp] theorem State.setClu_stores (s : State) (c : Nat) (x : Cluster) : (s.setClu c x).stores = s.stores := rfl
@[simp] theorem State.setClu_nextStore (s : State) (c : Nat) (x : Cluster) : (s.setClu c x).nextStore = s.nextStore := rfl
@[simp] theorem State.setClu_early (s : State) (c : Nat) (x : Cluster) : (s.setClu c x).early = s.early := rfl
@[simp] theorem State.setClu_nextThr (s : State) (c : Nat) (x : Cluster) : (s.setClu c x).nextThr = s.nextThr := rfl
@[simp] theorem State.setClu_slices (s : State) (c : Nat) (x : Cluster) : (s.setClu c x).slices = s.slices := rfl
@[simp] theorem State.setClu_lseqs (s : State) (c : Nat) (x : Cluster) : (s.setClu c x).lseqs = s.lseqs := rfl
@[simp] theorem State.setClu_podIn (s : State) (c : Nat) (x : Cluster) : (s.setClu c x).podIn = s.podIn := rfl
@[simp] theorem State.setClu_oldRepl (s : State) (c : Nat) (x : Cluster) : (s.setClu c x).oldRepl = s.oldRepl := rfl
@[simp] theorem State.modClu_now (s : State) (c : Nat) (f : Cluster → Cluster) : (s.modClu c f).now = s.now := rfl
@[simp] theorem State.modClu_stepAt (s : State) (c : Nat) (f : Cluster → Cluster) : (s.modClu c f).stepAt = s.stepAt := rfl
@[simp] theorem State.modClu_focus (s : State) (c : Nat) (f : Cluster → Cluster) : (s.modClu c f).focus = s.focus := rfl
@[simp] theorem State.modClu_agenda (s : State) (c : Nat) (f : Cluster → Cluster) : (s.modClu c f).agenda = s.agenda := rfl
@[simp] theorem State.modClu_fresh (s : State) (c : Nat) (f : Cluster → Cluster) : (s.modClu c f).fresh = s.fresh := rfl
@[simp] theorem State.modClu_ready (s : State) (c : Nat) (f : Cluster → Cluster) : (s.modClu c f).ready = s.ready := rfl
@[simp] theorem State.modClu_recovery (s : State) (c : Nat) (f : Cluster → Cluster) : (s.modClu c f).recovery = s.recovery := rfl
@[simp] theorem State.modClu_tiles (s : State) (c : Nat) (f : Cluster → Cluster) : (s.modClu c f).tiles = s.tiles := rfl
@[simp] theorem State.modClu_ptiles (s : State) (c : Nat) (f : Cluster → Cluster) : (s.modClu c f).ptiles = s.ptiles := rfl
@[simp] theorem State.modClu_slabs (s : State) (c : Nat) (f : Cluster → Cluster) : (s.modClu c f).slabs = s.slabs := rfl
@[simp] theorem State.modClu_vmap (s : State) (c : Nat) (f : Cluster → Cluster) : (s.modClu c f).vmap = s.vmap := rfl
@[simp] theorem State.modClu_vmap0 (s : State) (c : Nat) (f : Cluster → Cluster) : (s.modClu c f).vmap0 = s.vmap0 := rfl
@[simp] theorem State.modClu_caps (s : State) (c : Nat) (f : Cluster → Cluster) : (s.modClu c f).caps = s.caps := rfl
@[simp] theorem State.modClu_hbm (s : State) (c : Nat) (f : Cluster → Cluster) : (s.modClu c f).hbm = s.hbm := rfl
@[simp] theorem State.modClu_poison (s : State) (c : Nat) (f : Cluster → Cluster) : (s.modClu c f).poison = s.poison := rfl
@[simp] theorem State.modClu_podMem (s : State) (c : Nat) (f : Cluster → Cluster) : (s.modClu c f).podMem = s.podMem := rfl
@[simp] theorem State.modClu_shadow (s : State) (c : Nat) (f : Cluster → Cluster) : (s.modClu c f).shadow = s.shadow := rfl
@[simp] theorem State.modClu_ctxs (s : State) (c : Nat) (f : Cluster → Cluster) : (s.modClu c f).ctxs = s.ctxs := rfl
@[simp] theorem State.modClu_pages (s : State) (c : Nat) (f : Cluster → Cluster) : (s.modClu c f).pages = s.pages := rfl
@[simp] theorem State.modClu_quarantine (s : State) (c : Nat) (f : Cluster → Cluster) : (s.modClu c f).quarantine = s.quarantine := rfl
@[simp] theorem State.modClu_withdrawn (s : State) (c : Nat) (f : Cluster → Cluster) : (s.modClu c f).withdrawn = s.withdrawn := rfl
@[simp] theorem State.modClu_fan (s : State) (c : Nat) (f : Cluster → Cluster) : (s.modClu c f).fan = s.fan := rfl
@[simp] theorem State.modClu_rrCtx (s : State) (c : Nat) (f : Cluster → Cluster) : (s.modClu c f).rrCtx = s.rrCtx := rfl
@[simp] theorem State.modClu_tasks (s : State) (c : Nat) (f : Cluster → Cluster) : (s.modClu c f).tasks = s.tasks := rfl
@[simp] theorem State.modClu_nextTask (s : State) (c : Nat) (f : Cluster → Cluster) : (s.modClu c f).nextTask = s.nextTask := rfl
@[simp] theorem State.modClu_retAdds (s : State) (c : Nat) (f : Cluster → Cluster) : (s.modClu c f).retAdds = s.retAdds := rfl
@[simp] theorem State.modClu_msgs (s : State) (c : Nat) (f : Cluster → Cluster) : (s.modClu c f).msgs = s.msgs := rfl
@[simp] theorem State.modClu_nextMsg (s : State) (c : Nat) (f : Cluster → Cluster) : (s.modClu c f).nextMsg = s.nextMsg := rfl
@[simp] theorem State.modClu_acks (s : State) (c : Nat) (f : Cluster → Cluster) : (s.modClu c f).acks = s.acks := rfl
@[simp] theorem State.modClu_migs (s : State) (c : Nat) (f : Cluster → Cluster) : (s.modClu c f).migs = s.migs := rfl
@[simp] theorem State.modClu_waves (s : State) (c : Nat) (f : Cluster → Cluster) : (s.modClu c f).waves = s.waves := rfl
@[simp] theorem State.modClu_nextWave (s : State) (c : Nat) (f : Cluster → Cluster) : (s.modClu c f).nextWave = s.nextWave := rfl
@[simp] theorem State.modClu_flog (s : State) (c : Nat) (f : Cluster → Cluster) : (s.modClu c f).flog = s.flog := rfl
@[simp] theorem State.modClu_fseq (s : State) (c : Nat) (f : Cluster → Cluster) : (s.modClu c f).fseq = s.fseq := rfl
@[simp] theorem State.modClu_flost (s : State) (c : Nat) (f : Cluster → Cluster) : (s.modClu c f).flost = s.flost := rfl
@[simp] theorem State.modClu_links (s : State) (c : Nat) (f : Cluster → Cluster) : (s.modClu c f).links = s.links := rfl
@[simp] theorem State.modClu_exports (s : State) (c : Nat) (f : Cluster → Cluster) : (s.modClu c f).exports = s.exports := rfl
@[simp] theorem State.modClu_routes (s : State) (c : Nat) (f : Cluster → Cluster) : (s.modClu c f).routes = s.routes := rfl
@[simp] theorem State.modClu_pods (s : State) (c : Nat) (f : Cluster → Cluster) : (s.modClu c f).pods = s.pods := rfl
@[simp] theorem State.modClu_nextReq (s : State) (c : Nat) (f : Cluster → Cluster) : (s.modClu c f).nextReq = s.nextReq := rfl
@[simp] theorem State.modClu_rings (s : State) (c : Nat) (f : Cluster → Cluster) : (s.modClu c f).rings = s.rings := rfl
@[simp] theorem State.modClu_classes (s : State) (c : Nat) (f : Cluster → Cluster) : (s.modClu c f).classes = s.classes := rfl
@[simp] theorem State.modClu_keys (s : State) (c : Nat) (f : Cluster → Cluster) : (s.modClu c f).keys = s.keys := rfl
@[simp] theorem State.modClu_portBad (s : State) (c : Nat) (f : Cluster → Cluster) : (s.modClu c f).portBad = s.portBad := rfl
@[simp] theorem State.modClu_portNoMatch (s : State) (c : Nat) (f : Cluster → Cluster) : (s.modClu c f).portNoMatch = s.portNoMatch := rfl
@[simp] theorem State.modClu_replies (s : State) (c : Nat) (f : Cluster → Cluster) : (s.modClu c f).replies = s.replies := rfl
@[simp] theorem State.modClu_alog (s : State) (c : Nat) (f : Cluster → Cluster) : (s.modClu c f).alog = s.alog := rfl
@[simp] theorem State.modClu_image (s : State) (c : Nat) (f : Cluster → Cluster) : (s.modClu c f).image = s.image := rfl
@[simp] theorem State.modClu_bootRec (s : State) (c : Nat) (f : Cluster → Cluster) : (s.modClu c f).bootRec = s.bootRec := rfl
@[simp] theorem State.modClu_reds (s : State) (c : Nat) (f : Cluster → Cluster) : (s.modClu c f).reds = s.reds := rfl
@[simp] theorem State.modClu_nextRed (s : State) (c : Nat) (f : Cluster → Cluster) : (s.modClu c f).nextRed = s.nextRed := rfl
@[simp] theorem State.modClu_shadowPool (s : State) (c : Nat) (f : Cluster → Cluster) : (s.modClu c f).shadowPool = s.shadowPool := rfl
@[simp] theorem State.modClu_hbmCorr (s : State) (c : Nat) (f : Cluster → Cluster) : (s.modClu c f).hbmCorr = s.hbmCorr := rfl
@[simp] theorem State.modClu_stretch (s : State) (c : Nat) (f : Cluster → Cluster) : (s.modClu c f).stretch = s.stretch := rfl
@[simp] theorem State.modClu_stores (s : State) (c : Nat) (f : Cluster → Cluster) : (s.modClu c f).stores = s.stores := rfl
@[simp] theorem State.modClu_nextStore (s : State) (c : Nat) (f : Cluster → Cluster) : (s.modClu c f).nextStore = s.nextStore := rfl
@[simp] theorem State.modClu_early (s : State) (c : Nat) (f : Cluster → Cluster) : (s.modClu c f).early = s.early := rfl
@[simp] theorem State.modClu_nextThr (s : State) (c : Nat) (f : Cluster → Cluster) : (s.modClu c f).nextThr = s.nextThr := rfl
@[simp] theorem State.modClu_slices (s : State) (c : Nat) (f : Cluster → Cluster) : (s.modClu c f).slices = s.slices := rfl
@[simp] theorem State.modClu_lseqs (s : State) (c : Nat) (f : Cluster → Cluster) : (s.modClu c f).lseqs = s.lseqs := rfl
@[simp] theorem State.modClu_podIn (s : State) (c : Nat) (f : Cluster → Cluster) : (s.modClu c f).podIn = s.podIn := rfl
@[simp] theorem State.modClu_oldRepl (s : State) (c : Nat) (f : Cluster → Cluster) : (s.modClu c f).oldRepl = s.oldRepl := rfl
@[simp] theorem State.modEng_now (s : State) (c e : Nat) (f : Engine → Engine) : (s.modEng c e f).now = s.now := rfl
@[simp] theorem State.modEng_stepAt (s : State) (c e : Nat) (f : Engine → Engine) : (s.modEng c e f).stepAt = s.stepAt := rfl
@[simp] theorem State.modEng_focus (s : State) (c e : Nat) (f : Engine → Engine) : (s.modEng c e f).focus = s.focus := rfl
@[simp] theorem State.modEng_agenda (s : State) (c e : Nat) (f : Engine → Engine) : (s.modEng c e f).agenda = s.agenda := rfl
@[simp] theorem State.modEng_fresh (s : State) (c e : Nat) (f : Engine → Engine) : (s.modEng c e f).fresh = s.fresh := rfl
@[simp] theorem State.modEng_ready (s : State) (c e : Nat) (f : Engine → Engine) : (s.modEng c e f).ready = s.ready := rfl
@[simp] theorem State.modEng_recovery (s : State) (c e : Nat) (f : Engine → Engine) : (s.modEng c e f).recovery = s.recovery := rfl
@[simp] theorem State.modEng_tiles (s : State) (c e : Nat) (f : Engine → Engine) : (s.modEng c e f).tiles = s.tiles := rfl
@[simp] theorem State.modEng_ptiles (s : State) (c e : Nat) (f : Engine → Engine) : (s.modEng c e f).ptiles = s.ptiles := rfl
@[simp] theorem State.modEng_slabs (s : State) (c e : Nat) (f : Engine → Engine) : (s.modEng c e f).slabs = s.slabs := rfl
@[simp] theorem State.modEng_vmap (s : State) (c e : Nat) (f : Engine → Engine) : (s.modEng c e f).vmap = s.vmap := rfl
@[simp] theorem State.modEng_vmap0 (s : State) (c e : Nat) (f : Engine → Engine) : (s.modEng c e f).vmap0 = s.vmap0 := rfl
@[simp] theorem State.modEng_caps (s : State) (c e : Nat) (f : Engine → Engine) : (s.modEng c e f).caps = s.caps := rfl
@[simp] theorem State.modEng_hbm (s : State) (c e : Nat) (f : Engine → Engine) : (s.modEng c e f).hbm = s.hbm := rfl
@[simp] theorem State.modEng_poison (s : State) (c e : Nat) (f : Engine → Engine) : (s.modEng c e f).poison = s.poison := rfl
@[simp] theorem State.modEng_podMem (s : State) (c e : Nat) (f : Engine → Engine) : (s.modEng c e f).podMem = s.podMem := rfl
@[simp] theorem State.modEng_shadow (s : State) (c e : Nat) (f : Engine → Engine) : (s.modEng c e f).shadow = s.shadow := rfl
@[simp] theorem State.modEng_ctxs (s : State) (c e : Nat) (f : Engine → Engine) : (s.modEng c e f).ctxs = s.ctxs := rfl
@[simp] theorem State.modEng_pages (s : State) (c e : Nat) (f : Engine → Engine) : (s.modEng c e f).pages = s.pages := rfl
@[simp] theorem State.modEng_quarantine (s : State) (c e : Nat) (f : Engine → Engine) : (s.modEng c e f).quarantine = s.quarantine := rfl
@[simp] theorem State.modEng_withdrawn (s : State) (c e : Nat) (f : Engine → Engine) : (s.modEng c e f).withdrawn = s.withdrawn := rfl
@[simp] theorem State.modEng_fan (s : State) (c e : Nat) (f : Engine → Engine) : (s.modEng c e f).fan = s.fan := rfl
@[simp] theorem State.modEng_rrCtx (s : State) (c e : Nat) (f : Engine → Engine) : (s.modEng c e f).rrCtx = s.rrCtx := rfl
@[simp] theorem State.modEng_tasks (s : State) (c e : Nat) (f : Engine → Engine) : (s.modEng c e f).tasks = s.tasks := rfl
@[simp] theorem State.modEng_nextTask (s : State) (c e : Nat) (f : Engine → Engine) : (s.modEng c e f).nextTask = s.nextTask := rfl
@[simp] theorem State.modEng_retAdds (s : State) (c e : Nat) (f : Engine → Engine) : (s.modEng c e f).retAdds = s.retAdds := rfl
@[simp] theorem State.modEng_msgs (s : State) (c e : Nat) (f : Engine → Engine) : (s.modEng c e f).msgs = s.msgs := rfl
@[simp] theorem State.modEng_nextMsg (s : State) (c e : Nat) (f : Engine → Engine) : (s.modEng c e f).nextMsg = s.nextMsg := rfl
@[simp] theorem State.modEng_acks (s : State) (c e : Nat) (f : Engine → Engine) : (s.modEng c e f).acks = s.acks := rfl
@[simp] theorem State.modEng_migs (s : State) (c e : Nat) (f : Engine → Engine) : (s.modEng c e f).migs = s.migs := rfl
@[simp] theorem State.modEng_waves (s : State) (c e : Nat) (f : Engine → Engine) : (s.modEng c e f).waves = s.waves := rfl
@[simp] theorem State.modEng_nextWave (s : State) (c e : Nat) (f : Engine → Engine) : (s.modEng c e f).nextWave = s.nextWave := rfl
@[simp] theorem State.modEng_flog (s : State) (c e : Nat) (f : Engine → Engine) : (s.modEng c e f).flog = s.flog := rfl
@[simp] theorem State.modEng_fseq (s : State) (c e : Nat) (f : Engine → Engine) : (s.modEng c e f).fseq = s.fseq := rfl
@[simp] theorem State.modEng_flost (s : State) (c e : Nat) (f : Engine → Engine) : (s.modEng c e f).flost = s.flost := rfl
@[simp] theorem State.modEng_links (s : State) (c e : Nat) (f : Engine → Engine) : (s.modEng c e f).links = s.links := rfl
@[simp] theorem State.modEng_exports (s : State) (c e : Nat) (f : Engine → Engine) : (s.modEng c e f).exports = s.exports := rfl
@[simp] theorem State.modEng_routes (s : State) (c e : Nat) (f : Engine → Engine) : (s.modEng c e f).routes = s.routes := rfl
@[simp] theorem State.modEng_pods (s : State) (c e : Nat) (f : Engine → Engine) : (s.modEng c e f).pods = s.pods := rfl
@[simp] theorem State.modEng_nextReq (s : State) (c e : Nat) (f : Engine → Engine) : (s.modEng c e f).nextReq = s.nextReq := rfl
@[simp] theorem State.modEng_rings (s : State) (c e : Nat) (f : Engine → Engine) : (s.modEng c e f).rings = s.rings := rfl
@[simp] theorem State.modEng_classes (s : State) (c e : Nat) (f : Engine → Engine) : (s.modEng c e f).classes = s.classes := rfl
@[simp] theorem State.modEng_keys (s : State) (c e : Nat) (f : Engine → Engine) : (s.modEng c e f).keys = s.keys := rfl
@[simp] theorem State.modEng_portBad (s : State) (c e : Nat) (f : Engine → Engine) : (s.modEng c e f).portBad = s.portBad := rfl
@[simp] theorem State.modEng_portNoMatch (s : State) (c e : Nat) (f : Engine → Engine) : (s.modEng c e f).portNoMatch = s.portNoMatch := rfl
@[simp] theorem State.modEng_replies (s : State) (c e : Nat) (f : Engine → Engine) : (s.modEng c e f).replies = s.replies := rfl
@[simp] theorem State.modEng_alog (s : State) (c e : Nat) (f : Engine → Engine) : (s.modEng c e f).alog = s.alog := rfl
@[simp] theorem State.modEng_image (s : State) (c e : Nat) (f : Engine → Engine) : (s.modEng c e f).image = s.image := rfl
@[simp] theorem State.modEng_bootRec (s : State) (c e : Nat) (f : Engine → Engine) : (s.modEng c e f).bootRec = s.bootRec := rfl
@[simp] theorem State.modEng_reds (s : State) (c e : Nat) (f : Engine → Engine) : (s.modEng c e f).reds = s.reds := rfl
@[simp] theorem State.modEng_nextRed (s : State) (c e : Nat) (f : Engine → Engine) : (s.modEng c e f).nextRed = s.nextRed := rfl
@[simp] theorem State.modEng_shadowPool (s : State) (c e : Nat) (f : Engine → Engine) : (s.modEng c e f).shadowPool = s.shadowPool := rfl
@[simp] theorem State.modEng_hbmCorr (s : State) (c e : Nat) (f : Engine → Engine) : (s.modEng c e f).hbmCorr = s.hbmCorr := rfl
@[simp] theorem State.modEng_stretch (s : State) (c e : Nat) (f : Engine → Engine) : (s.modEng c e f).stretch = s.stretch := rfl
@[simp] theorem State.modEng_stores (s : State) (c e : Nat) (f : Engine → Engine) : (s.modEng c e f).stores = s.stores := rfl
@[simp] theorem State.modEng_nextStore (s : State) (c e : Nat) (f : Engine → Engine) : (s.modEng c e f).nextStore = s.nextStore := rfl
@[simp] theorem State.modEng_early (s : State) (c e : Nat) (f : Engine → Engine) : (s.modEng c e f).early = s.early := rfl
@[simp] theorem State.modEng_nextThr (s : State) (c e : Nat) (f : Engine → Engine) : (s.modEng c e f).nextThr = s.nextThr := rfl
@[simp] theorem State.modEng_slices (s : State) (c e : Nat) (f : Engine → Engine) : (s.modEng c e f).slices = s.slices := rfl
@[simp] theorem State.modEng_lseqs (s : State) (c e : Nat) (f : Engine → Engine) : (s.modEng c e f).lseqs = s.lseqs := rfl
@[simp] theorem State.modEng_podIn (s : State) (c e : Nat) (f : Engine → Engine) : (s.modEng c e f).podIn = s.podIn := rfl
@[simp] theorem State.modEng_oldRepl (s : State) (c e : Nat) (f : Engine → Engine) : (s.modEng c e f).oldRepl = s.oldRepl := rfl
@[simp] theorem State.modSlab_now (s : State) (k : Nat) (f : Slab → Slab) : (s.modSlab k f).now = s.now := rfl
@[simp] theorem State.modSlab_stepAt (s : State) (k : Nat) (f : Slab → Slab) : (s.modSlab k f).stepAt = s.stepAt := rfl
@[simp] theorem State.modSlab_focus (s : State) (k : Nat) (f : Slab → Slab) : (s.modSlab k f).focus = s.focus := rfl
@[simp] theorem State.modSlab_agenda (s : State) (k : Nat) (f : Slab → Slab) : (s.modSlab k f).agenda = s.agenda := rfl
@[simp] theorem State.modSlab_fresh (s : State) (k : Nat) (f : Slab → Slab) : (s.modSlab k f).fresh = s.fresh := rfl
@[simp] theorem State.modSlab_ready (s : State) (k : Nat) (f : Slab → Slab) : (s.modSlab k f).ready = s.ready := rfl
@[simp] theorem State.modSlab_recovery (s : State) (k : Nat) (f : Slab → Slab) : (s.modSlab k f).recovery = s.recovery := rfl
@[simp] theorem State.modSlab_tiles (s : State) (k : Nat) (f : Slab → Slab) : (s.modSlab k f).tiles = s.tiles := rfl
@[simp] theorem State.modSlab_ptiles (s : State) (k : Nat) (f : Slab → Slab) : (s.modSlab k f).ptiles = s.ptiles := rfl
@[simp] theorem State.modSlab_clusters (s : State) (k : Nat) (f : Slab → Slab) : (s.modSlab k f).clusters = s.clusters := rfl
@[simp] theorem State.modSlab_vmap (s : State) (k : Nat) (f : Slab → Slab) : (s.modSlab k f).vmap = s.vmap := rfl
@[simp] theorem State.modSlab_vmap0 (s : State) (k : Nat) (f : Slab → Slab) : (s.modSlab k f).vmap0 = s.vmap0 := rfl
@[simp] theorem State.modSlab_caps (s : State) (k : Nat) (f : Slab → Slab) : (s.modSlab k f).caps = s.caps := rfl
@[simp] theorem State.modSlab_hbm (s : State) (k : Nat) (f : Slab → Slab) : (s.modSlab k f).hbm = s.hbm := rfl
@[simp] theorem State.modSlab_poison (s : State) (k : Nat) (f : Slab → Slab) : (s.modSlab k f).poison = s.poison := rfl
@[simp] theorem State.modSlab_podMem (s : State) (k : Nat) (f : Slab → Slab) : (s.modSlab k f).podMem = s.podMem := rfl
@[simp] theorem State.modSlab_shadow (s : State) (k : Nat) (f : Slab → Slab) : (s.modSlab k f).shadow = s.shadow := rfl
@[simp] theorem State.modSlab_ctxs (s : State) (k : Nat) (f : Slab → Slab) : (s.modSlab k f).ctxs = s.ctxs := rfl
@[simp] theorem State.modSlab_pages (s : State) (k : Nat) (f : Slab → Slab) : (s.modSlab k f).pages = s.pages := rfl
@[simp] theorem State.modSlab_quarantine (s : State) (k : Nat) (f : Slab → Slab) : (s.modSlab k f).quarantine = s.quarantine := rfl
@[simp] theorem State.modSlab_withdrawn (s : State) (k : Nat) (f : Slab → Slab) : (s.modSlab k f).withdrawn = s.withdrawn := rfl
@[simp] theorem State.modSlab_fan (s : State) (k : Nat) (f : Slab → Slab) : (s.modSlab k f).fan = s.fan := rfl
@[simp] theorem State.modSlab_rrCtx (s : State) (k : Nat) (f : Slab → Slab) : (s.modSlab k f).rrCtx = s.rrCtx := rfl
@[simp] theorem State.modSlab_tasks (s : State) (k : Nat) (f : Slab → Slab) : (s.modSlab k f).tasks = s.tasks := rfl
@[simp] theorem State.modSlab_nextTask (s : State) (k : Nat) (f : Slab → Slab) : (s.modSlab k f).nextTask = s.nextTask := rfl
@[simp] theorem State.modSlab_retAdds (s : State) (k : Nat) (f : Slab → Slab) : (s.modSlab k f).retAdds = s.retAdds := rfl
@[simp] theorem State.modSlab_msgs (s : State) (k : Nat) (f : Slab → Slab) : (s.modSlab k f).msgs = s.msgs := rfl
@[simp] theorem State.modSlab_nextMsg (s : State) (k : Nat) (f : Slab → Slab) : (s.modSlab k f).nextMsg = s.nextMsg := rfl
@[simp] theorem State.modSlab_acks (s : State) (k : Nat) (f : Slab → Slab) : (s.modSlab k f).acks = s.acks := rfl
@[simp] theorem State.modSlab_migs (s : State) (k : Nat) (f : Slab → Slab) : (s.modSlab k f).migs = s.migs := rfl
@[simp] theorem State.modSlab_waves (s : State) (k : Nat) (f : Slab → Slab) : (s.modSlab k f).waves = s.waves := rfl
@[simp] theorem State.modSlab_nextWave (s : State) (k : Nat) (f : Slab → Slab) : (s.modSlab k f).nextWave = s.nextWave := rfl
@[simp] theorem State.modSlab_flog (s : State) (k : Nat) (f : Slab → Slab) : (s.modSlab k f).flog = s.flog := rfl
@[simp] theorem State.modSlab_fseq (s : State) (k : Nat) (f : Slab → Slab) : (s.modSlab k f).fseq = s.fseq := rfl
@[simp] theorem State.modSlab_flost (s : State) (k : Nat) (f : Slab → Slab) : (s.modSlab k f).flost = s.flost := rfl
@[simp] theorem State.modSlab_links (s : State) (k : Nat) (f : Slab → Slab) : (s.modSlab k f).links = s.links := rfl
@[simp] theorem State.modSlab_exports (s : State) (k : Nat) (f : Slab → Slab) : (s.modSlab k f).exports = s.exports := rfl
@[simp] theorem State.modSlab_routes (s : State) (k : Nat) (f : Slab → Slab) : (s.modSlab k f).routes = s.routes := rfl
@[simp] theorem State.modSlab_pods (s : State) (k : Nat) (f : Slab → Slab) : (s.modSlab k f).pods = s.pods := rfl
@[simp] theorem State.modSlab_nextReq (s : State) (k : Nat) (f : Slab → Slab) : (s.modSlab k f).nextReq = s.nextReq := rfl
@[simp] theorem State.modSlab_rings (s : State) (k : Nat) (f : Slab → Slab) : (s.modSlab k f).rings = s.rings := rfl
@[simp] theorem State.modSlab_classes (s : State) (k : Nat) (f : Slab → Slab) : (s.modSlab k f).classes = s.classes := rfl
@[simp] theorem State.modSlab_keys (s : State) (k : Nat) (f : Slab → Slab) : (s.modSlab k f).keys = s.keys := rfl
@[simp] theorem State.modSlab_portBad (s : State) (k : Nat) (f : Slab → Slab) : (s.modSlab k f).portBad = s.portBad := rfl
@[simp] theorem State.modSlab_portNoMatch (s : State) (k : Nat) (f : Slab → Slab) : (s.modSlab k f).portNoMatch = s.portNoMatch := rfl
@[simp] theorem State.modSlab_replies (s : State) (k : Nat) (f : Slab → Slab) : (s.modSlab k f).replies = s.replies := rfl
@[simp] theorem State.modSlab_alog (s : State) (k : Nat) (f : Slab → Slab) : (s.modSlab k f).alog = s.alog := rfl
@[simp] theorem State.modSlab_image (s : State) (k : Nat) (f : Slab → Slab) : (s.modSlab k f).image = s.image := rfl
@[simp] theorem State.modSlab_bootRec (s : State) (k : Nat) (f : Slab → Slab) : (s.modSlab k f).bootRec = s.bootRec := rfl
@[simp] theorem State.modSlab_reds (s : State) (k : Nat) (f : Slab → Slab) : (s.modSlab k f).reds = s.reds := rfl
@[simp] theorem State.modSlab_nextRed (s : State) (k : Nat) (f : Slab → Slab) : (s.modSlab k f).nextRed = s.nextRed := rfl
@[simp] theorem State.modSlab_shadowPool (s : State) (k : Nat) (f : Slab → Slab) : (s.modSlab k f).shadowPool = s.shadowPool := rfl
@[simp] theorem State.modSlab_hbmCorr (s : State) (k : Nat) (f : Slab → Slab) : (s.modSlab k f).hbmCorr = s.hbmCorr := rfl
@[simp] theorem State.modSlab_stretch (s : State) (k : Nat) (f : Slab → Slab) : (s.modSlab k f).stretch = s.stretch := rfl
@[simp] theorem State.modSlab_stores (s : State) (k : Nat) (f : Slab → Slab) : (s.modSlab k f).stores = s.stores := rfl
@[simp] theorem State.modSlab_nextStore (s : State) (k : Nat) (f : Slab → Slab) : (s.modSlab k f).nextStore = s.nextStore := rfl
@[simp] theorem State.modSlab_early (s : State) (k : Nat) (f : Slab → Slab) : (s.modSlab k f).early = s.early := rfl
@[simp] theorem State.modSlab_nextThr (s : State) (k : Nat) (f : Slab → Slab) : (s.modSlab k f).nextThr = s.nextThr := rfl
@[simp] theorem State.modSlab_slices (s : State) (k : Nat) (f : Slab → Slab) : (s.modSlab k f).slices = s.slices := rfl
@[simp] theorem State.modSlab_lseqs (s : State) (k : Nat) (f : Slab → Slab) : (s.modSlab k f).lseqs = s.lseqs := rfl
@[simp] theorem State.modSlab_podIn (s : State) (k : Nat) (f : Slab → Slab) : (s.modSlab k f).podIn = s.podIn := rfl
@[simp] theorem State.modSlab_oldRepl (s : State) (k : Nat) (f : Slab → Slab) : (s.modSlab k f).oldRepl = s.oldRepl := rfl
@[simp] theorem State.modCtx_now (s : State) (c : Nat) (f : Ctx → Ctx) : (s.modCtx c f).now = s.now := rfl
@[simp] theorem State.modCtx_stepAt (s : State) (c : Nat) (f : Ctx → Ctx) : (s.modCtx c f).stepAt = s.stepAt := rfl
@[simp] theorem State.modCtx_focus (s : State) (c : Nat) (f : Ctx → Ctx) : (s.modCtx c f).focus = s.focus := rfl
@[simp] theorem State.modCtx_agenda (s : State) (c : Nat) (f : Ctx → Ctx) : (s.modCtx c f).agenda = s.agenda := rfl
@[simp] theorem State.modCtx_fresh (s : State) (c : Nat) (f : Ctx → Ctx) : (s.modCtx c f).fresh = s.fresh := rfl
@[simp] theorem State.modCtx_ready (s : State) (c : Nat) (f : Ctx → Ctx) : (s.modCtx c f).ready = s.ready := rfl
@[simp] theorem State.modCtx_recovery (s : State) (c : Nat) (f : Ctx → Ctx) : (s.modCtx c f).recovery = s.recovery := rfl
@[simp] theorem State.modCtx_tiles (s : State) (c : Nat) (f : Ctx → Ctx) : (s.modCtx c f).tiles = s.tiles := rfl
@[simp] theorem State.modCtx_ptiles (s : State) (c : Nat) (f : Ctx → Ctx) : (s.modCtx c f).ptiles = s.ptiles := rfl
@[simp] theorem State.modCtx_clusters (s : State) (c : Nat) (f : Ctx → Ctx) : (s.modCtx c f).clusters = s.clusters := rfl
@[simp] theorem State.modCtx_slabs (s : State) (c : Nat) (f : Ctx → Ctx) : (s.modCtx c f).slabs = s.slabs := rfl
@[simp] theorem State.modCtx_vmap (s : State) (c : Nat) (f : Ctx → Ctx) : (s.modCtx c f).vmap = s.vmap := rfl
@[simp] theorem State.modCtx_vmap0 (s : State) (c : Nat) (f : Ctx → Ctx) : (s.modCtx c f).vmap0 = s.vmap0 := rfl
@[simp] theorem State.modCtx_caps (s : State) (c : Nat) (f : Ctx → Ctx) : (s.modCtx c f).caps = s.caps := rfl
@[simp] theorem State.modCtx_hbm (s : State) (c : Nat) (f : Ctx → Ctx) : (s.modCtx c f).hbm = s.hbm := rfl
@[simp] theorem State.modCtx_poison (s : State) (c : Nat) (f : Ctx → Ctx) : (s.modCtx c f).poison = s.poison := rfl
@[simp] theorem State.modCtx_podMem (s : State) (c : Nat) (f : Ctx → Ctx) : (s.modCtx c f).podMem = s.podMem := rfl
@[simp] theorem State.modCtx_shadow (s : State) (c : Nat) (f : Ctx → Ctx) : (s.modCtx c f).shadow = s.shadow := rfl
@[simp] theorem State.modCtx_pages (s : State) (c : Nat) (f : Ctx → Ctx) : (s.modCtx c f).pages = s.pages := rfl
@[simp] theorem State.modCtx_quarantine (s : State) (c : Nat) (f : Ctx → Ctx) : (s.modCtx c f).quarantine = s.quarantine := rfl
@[simp] theorem State.modCtx_withdrawn (s : State) (c : Nat) (f : Ctx → Ctx) : (s.modCtx c f).withdrawn = s.withdrawn := rfl
@[simp] theorem State.modCtx_fan (s : State) (c : Nat) (f : Ctx → Ctx) : (s.modCtx c f).fan = s.fan := rfl
@[simp] theorem State.modCtx_rrCtx (s : State) (c : Nat) (f : Ctx → Ctx) : (s.modCtx c f).rrCtx = s.rrCtx := rfl
@[simp] theorem State.modCtx_tasks (s : State) (c : Nat) (f : Ctx → Ctx) : (s.modCtx c f).tasks = s.tasks := rfl
@[simp] theorem State.modCtx_nextTask (s : State) (c : Nat) (f : Ctx → Ctx) : (s.modCtx c f).nextTask = s.nextTask := rfl
@[simp] theorem State.modCtx_retAdds (s : State) (c : Nat) (f : Ctx → Ctx) : (s.modCtx c f).retAdds = s.retAdds := rfl
@[simp] theorem State.modCtx_msgs (s : State) (c : Nat) (f : Ctx → Ctx) : (s.modCtx c f).msgs = s.msgs := rfl
@[simp] theorem State.modCtx_nextMsg (s : State) (c : Nat) (f : Ctx → Ctx) : (s.modCtx c f).nextMsg = s.nextMsg := rfl
@[simp] theorem State.modCtx_acks (s : State) (c : Nat) (f : Ctx → Ctx) : (s.modCtx c f).acks = s.acks := rfl
@[simp] theorem State.modCtx_migs (s : State) (c : Nat) (f : Ctx → Ctx) : (s.modCtx c f).migs = s.migs := rfl
@[simp] theorem State.modCtx_waves (s : State) (c : Nat) (f : Ctx → Ctx) : (s.modCtx c f).waves = s.waves := rfl
@[simp] theorem State.modCtx_nextWave (s : State) (c : Nat) (f : Ctx → Ctx) : (s.modCtx c f).nextWave = s.nextWave := rfl
@[simp] theorem State.modCtx_flog (s : State) (c : Nat) (f : Ctx → Ctx) : (s.modCtx c f).flog = s.flog := rfl
@[simp] theorem State.modCtx_fseq (s : State) (c : Nat) (f : Ctx → Ctx) : (s.modCtx c f).fseq = s.fseq := rfl
@[simp] theorem State.modCtx_flost (s : State) (c : Nat) (f : Ctx → Ctx) : (s.modCtx c f).flost = s.flost := rfl
@[simp] theorem State.modCtx_links (s : State) (c : Nat) (f : Ctx → Ctx) : (s.modCtx c f).links = s.links := rfl
@[simp] theorem State.modCtx_exports (s : State) (c : Nat) (f : Ctx → Ctx) : (s.modCtx c f).exports = s.exports := rfl
@[simp] theorem State.modCtx_routes (s : State) (c : Nat) (f : Ctx → Ctx) : (s.modCtx c f).routes = s.routes := rfl
@[simp] theorem State.modCtx_pods (s : State) (c : Nat) (f : Ctx → Ctx) : (s.modCtx c f).pods = s.pods := rfl
@[simp] theorem State.modCtx_nextReq (s : State) (c : Nat) (f : Ctx → Ctx) : (s.modCtx c f).nextReq = s.nextReq := rfl
@[simp] theorem State.modCtx_rings (s : State) (c : Nat) (f : Ctx → Ctx) : (s.modCtx c f).rings = s.rings := rfl
@[simp] theorem State.modCtx_classes (s : State) (c : Nat) (f : Ctx → Ctx) : (s.modCtx c f).classes = s.classes := rfl
@[simp] theorem State.modCtx_keys (s : State) (c : Nat) (f : Ctx → Ctx) : (s.modCtx c f).keys = s.keys := rfl
@[simp] theorem State.modCtx_portBad (s : State) (c : Nat) (f : Ctx → Ctx) : (s.modCtx c f).portBad = s.portBad := rfl
@[simp] theorem State.modCtx_portNoMatch (s : State) (c : Nat) (f : Ctx → Ctx) : (s.modCtx c f).portNoMatch = s.portNoMatch := rfl
@[simp] theorem State.modCtx_replies (s : State) (c : Nat) (f : Ctx → Ctx) : (s.modCtx c f).replies = s.replies := rfl
@[simp] theorem State.modCtx_alog (s : State) (c : Nat) (f : Ctx → Ctx) : (s.modCtx c f).alog = s.alog := rfl
@[simp] theorem State.modCtx_image (s : State) (c : Nat) (f : Ctx → Ctx) : (s.modCtx c f).image = s.image := rfl
@[simp] theorem State.modCtx_bootRec (s : State) (c : Nat) (f : Ctx → Ctx) : (s.modCtx c f).bootRec = s.bootRec := rfl
@[simp] theorem State.modCtx_reds (s : State) (c : Nat) (f : Ctx → Ctx) : (s.modCtx c f).reds = s.reds := rfl
@[simp] theorem State.modCtx_nextRed (s : State) (c : Nat) (f : Ctx → Ctx) : (s.modCtx c f).nextRed = s.nextRed := rfl
@[simp] theorem State.modCtx_shadowPool (s : State) (c : Nat) (f : Ctx → Ctx) : (s.modCtx c f).shadowPool = s.shadowPool := rfl
@[simp] theorem State.modCtx_hbmCorr (s : State) (c : Nat) (f : Ctx → Ctx) : (s.modCtx c f).hbmCorr = s.hbmCorr := rfl
@[simp] theorem State.modCtx_stretch (s : State) (c : Nat) (f : Ctx → Ctx) : (s.modCtx c f).stretch = s.stretch := rfl
@[simp] theorem State.modCtx_stores (s : State) (c : Nat) (f : Ctx → Ctx) : (s.modCtx c f).stores = s.stores := rfl
@[simp] theorem State.modCtx_nextStore (s : State) (c : Nat) (f : Ctx → Ctx) : (s.modCtx c f).nextStore = s.nextStore := rfl
@[simp] theorem State.modCtx_early (s : State) (c : Nat) (f : Ctx → Ctx) : (s.modCtx c f).early = s.early := rfl
@[simp] theorem State.modCtx_nextThr (s : State) (c : Nat) (f : Ctx → Ctx) : (s.modCtx c f).nextThr = s.nextThr := rfl
@[simp] theorem State.modCtx_slices (s : State) (c : Nat) (f : Ctx → Ctx) : (s.modCtx c f).slices = s.slices := rfl
@[simp] theorem State.modCtx_lseqs (s : State) (c : Nat) (f : Ctx → Ctx) : (s.modCtx c f).lseqs = s.lseqs := rfl
@[simp] theorem State.modCtx_podIn (s : State) (c : Nat) (f : Ctx → Ctx) : (s.modCtx c f).podIn = s.podIn := rfl
@[simp] theorem State.modCtx_oldRepl (s : State) (c : Nat) (f : Ctx → Ctx) : (s.modCtx c f).oldRepl = s.oldRepl := rfl
@[simp] theorem State.setWave_now (s : State) (k : Nat) (x : Wave) : (s.setWave k x).now = s.now := rfl
@[simp] theorem State.setWave_stepAt (s : State) (k : Nat) (x : Wave) : (s.setWave k x).stepAt = s.stepAt := rfl
@[simp] theorem State.setWave_focus (s : State) (k : Nat) (x : Wave) : (s.setWave k x).focus = s.focus := rfl
@[simp] theorem State.setWave_agenda (s : State) (k : Nat) (x : Wave) : (s.setWave k x).agenda = s.agenda := rfl
@[simp] theorem State.setWave_fresh (s : State) (k : Nat) (x : Wave) : (s.setWave k x).fresh = s.fresh := rfl
@[simp] theorem State.setWave_ready (s : State) (k : Nat) (x : Wave) : (s.setWave k x).ready = s.ready := rfl
@[simp] theorem State.setWave_recovery (s : State) (k : Nat) (x : Wave) : (s.setWave k x).recovery = s.recovery := rfl
@[simp] theorem State.setWave_tiles (s : State) (k : Nat) (x : Wave) : (s.setWave k x).tiles = s.tiles := rfl
@[simp] theorem State.setWave_ptiles (s : State) (k : Nat) (x : Wave) : (s.setWave k x).ptiles = s.ptiles := rfl
@[simp] theorem State.setWave_clusters (s : State) (k : Nat) (x : Wave) : (s.setWave k x).clusters = s.clusters := rfl
@[simp] theorem State.setWave_slabs (s : State) (k : Nat) (x : Wave) : (s.setWave k x).slabs = s.slabs := rfl
@[simp] theorem State.setWave_vmap (s : State) (k : Nat) (x : Wave) : (s.setWave k x).vmap = s.vmap := rfl
@[simp] theorem State.setWave_vmap0 (s : State) (k : Nat) (x : Wave) : (s.setWave k x).vmap0 = s.vmap0 := rfl
@[simp] theorem State.setWave_caps (s : State) (k : Nat) (x : Wave) : (s.setWave k x).caps = s.caps := rfl
@[simp] theorem State.setWave_hbm (s : State) (k : Nat) (x : Wave) : (s.setWave k x).hbm = s.hbm := rfl
@[simp] theorem State.setWave_poison (s : State) (k : Nat) (x : Wave) : (s.setWave k x).poison = s.poison := rfl
@[simp] theorem State.setWave_podMem (s : State) (k : Nat) (x : Wave) : (s.setWave k x).podMem = s.podMem := rfl
@[simp] theorem State.setWave_shadow (s : State) (k : Nat) (x : Wave) : (s.setWave k x).shadow = s.shadow := rfl
@[simp] theorem State.setWave_ctxs (s : State) (k : Nat) (x : Wave) : (s.setWave k x).ctxs = s.ctxs := rfl
@[simp] theorem State.setWave_pages (s : State) (k : Nat) (x : Wave) : (s.setWave k x).pages = s.pages := rfl
@[simp] theorem State.setWave_quarantine (s : State) (k : Nat) (x : Wave) : (s.setWave k x).quarantine = s.quarantine := rfl
@[simp] theorem State.setWave_withdrawn (s : State) (k : Nat) (x : Wave) : (s.setWave k x).withdrawn = s.withdrawn := rfl
@[simp] theorem State.setWave_fan (s : State) (k : Nat) (x : Wave) : (s.setWave k x).fan = s.fan := rfl
@[simp] theorem State.setWave_rrCtx (s : State) (k : Nat) (x : Wave) : (s.setWave k x).rrCtx = s.rrCtx := rfl
@[simp] theorem State.setWave_tasks (s : State) (k : Nat) (x : Wave) : (s.setWave k x).tasks = s.tasks := rfl
@[simp] theorem State.setWave_nextTask (s : State) (k : Nat) (x : Wave) : (s.setWave k x).nextTask = s.nextTask := rfl
@[simp] theorem State.setWave_retAdds (s : State) (k : Nat) (x : Wave) : (s.setWave k x).retAdds = s.retAdds := rfl
@[simp] theorem State.setWave_msgs (s : State) (k : Nat) (x : Wave) : (s.setWave k x).msgs = s.msgs := rfl
@[simp] theorem State.setWave_nextMsg (s : State) (k : Nat) (x : Wave) : (s.setWave k x).nextMsg = s.nextMsg := rfl
@[simp] theorem State.setWave_acks (s : State) (k : Nat) (x : Wave) : (s.setWave k x).acks = s.acks := rfl
@[simp] theorem State.setWave_migs (s : State) (k : Nat) (x : Wave) : (s.setWave k x).migs = s.migs := rfl
@[simp] theorem State.setWave_nextWave (s : State) (k : Nat) (x : Wave) : (s.setWave k x).nextWave = s.nextWave := rfl
@[simp] theorem State.setWave_flog (s : State) (k : Nat) (x : Wave) : (s.setWave k x).flog = s.flog := rfl
@[simp] theorem State.setWave_fseq (s : State) (k : Nat) (x : Wave) : (s.setWave k x).fseq = s.fseq := rfl
@[simp] theorem State.setWave_flost (s : State) (k : Nat) (x : Wave) : (s.setWave k x).flost = s.flost := rfl
@[simp] theorem State.setWave_links (s : State) (k : Nat) (x : Wave) : (s.setWave k x).links = s.links := rfl
@[simp] theorem State.setWave_exports (s : State) (k : Nat) (x : Wave) : (s.setWave k x).exports = s.exports := rfl
@[simp] theorem State.setWave_routes (s : State) (k : Nat) (x : Wave) : (s.setWave k x).routes = s.routes := rfl
@[simp] theorem State.setWave_pods (s : State) (k : Nat) (x : Wave) : (s.setWave k x).pods = s.pods := rfl
@[simp] theorem State.setWave_nextReq (s : State) (k : Nat) (x : Wave) : (s.setWave k x).nextReq = s.nextReq := rfl
@[simp] theorem State.setWave_rings (s : State) (k : Nat) (x : Wave) : (s.setWave k x).rings = s.rings := rfl
@[simp] theorem State.setWave_classes (s : State) (k : Nat) (x : Wave) : (s.setWave k x).classes = s.classes := rfl
@[simp] theorem State.setWave_keys (s : State) (k : Nat) (x : Wave) : (s.setWave k x).keys = s.keys := rfl
@[simp] theorem State.setWave_portBad (s : State) (k : Nat) (x : Wave) : (s.setWave k x).portBad = s.portBad := rfl
@[simp] theorem State.setWave_portNoMatch (s : State) (k : Nat) (x : Wave) : (s.setWave k x).portNoMatch = s.portNoMatch := rfl
@[simp] theorem State.setWave_replies (s : State) (k : Nat) (x : Wave) : (s.setWave k x).replies = s.replies := rfl
@[simp] theorem State.setWave_alog (s : State) (k : Nat) (x : Wave) : (s.setWave k x).alog = s.alog := rfl
@[simp] theorem State.setWave_image (s : State) (k : Nat) (x : Wave) : (s.setWave k x).image = s.image := rfl
@[simp] theorem State.setWave_bootRec (s : State) (k : Nat) (x : Wave) : (s.setWave k x).bootRec = s.bootRec := rfl
@[simp] theorem State.setWave_reds (s : State) (k : Nat) (x : Wave) : (s.setWave k x).reds = s.reds := rfl
@[simp] theorem State.setWave_nextRed (s : State) (k : Nat) (x : Wave) : (s.setWave k x).nextRed = s.nextRed := rfl
@[simp] theorem State.setWave_shadowPool (s : State) (k : Nat) (x : Wave) : (s.setWave k x).shadowPool = s.shadowPool := rfl
@[simp] theorem State.setWave_hbmCorr (s : State) (k : Nat) (x : Wave) : (s.setWave k x).hbmCorr = s.hbmCorr := rfl
@[simp] theorem State.setWave_stretch (s : State) (k : Nat) (x : Wave) : (s.setWave k x).stretch = s.stretch := rfl
@[simp] theorem State.setWave_stores (s : State) (k : Nat) (x : Wave) : (s.setWave k x).stores = s.stores := rfl
@[simp] theorem State.setWave_nextStore (s : State) (k : Nat) (x : Wave) : (s.setWave k x).nextStore = s.nextStore := rfl
@[simp] theorem State.setWave_early (s : State) (k : Nat) (x : Wave) : (s.setWave k x).early = s.early := rfl
@[simp] theorem State.setWave_nextThr (s : State) (k : Nat) (x : Wave) : (s.setWave k x).nextThr = s.nextThr := rfl
@[simp] theorem State.setWave_slices (s : State) (k : Nat) (x : Wave) : (s.setWave k x).slices = s.slices := rfl
@[simp] theorem State.setWave_lseqs (s : State) (k : Nat) (x : Wave) : (s.setWave k x).lseqs = s.lseqs := rfl
@[simp] theorem State.setWave_podIn (s : State) (k : Nat) (x : Wave) : (s.setWave k x).podIn = s.podIn := rfl
@[simp] theorem State.setWave_oldRepl (s : State) (k : Nat) (x : Wave) : (s.setWave k x).oldRepl = s.oldRepl := rfl
@[simp] theorem State.setLink_now (s : State) (k : Nat) (x : Link) : (s.setLink k x).now = s.now := rfl
@[simp] theorem State.setLink_stepAt (s : State) (k : Nat) (x : Link) : (s.setLink k x).stepAt = s.stepAt := rfl
@[simp] theorem State.setLink_focus (s : State) (k : Nat) (x : Link) : (s.setLink k x).focus = s.focus := rfl
@[simp] theorem State.setLink_agenda (s : State) (k : Nat) (x : Link) : (s.setLink k x).agenda = s.agenda := rfl
@[simp] theorem State.setLink_fresh (s : State) (k : Nat) (x : Link) : (s.setLink k x).fresh = s.fresh := rfl
@[simp] theorem State.setLink_ready (s : State) (k : Nat) (x : Link) : (s.setLink k x).ready = s.ready := rfl
@[simp] theorem State.setLink_recovery (s : State) (k : Nat) (x : Link) : (s.setLink k x).recovery = s.recovery := rfl
@[simp] theorem State.setLink_tiles (s : State) (k : Nat) (x : Link) : (s.setLink k x).tiles = s.tiles := rfl
@[simp] theorem State.setLink_ptiles (s : State) (k : Nat) (x : Link) : (s.setLink k x).ptiles = s.ptiles := rfl
@[simp] theorem State.setLink_clusters (s : State) (k : Nat) (x : Link) : (s.setLink k x).clusters = s.clusters := rfl
@[simp] theorem State.setLink_slabs (s : State) (k : Nat) (x : Link) : (s.setLink k x).slabs = s.slabs := rfl
@[simp] theorem State.setLink_vmap (s : State) (k : Nat) (x : Link) : (s.setLink k x).vmap = s.vmap := rfl
@[simp] theorem State.setLink_vmap0 (s : State) (k : Nat) (x : Link) : (s.setLink k x).vmap0 = s.vmap0 := rfl
@[simp] theorem State.setLink_caps (s : State) (k : Nat) (x : Link) : (s.setLink k x).caps = s.caps := rfl
@[simp] theorem State.setLink_hbm (s : State) (k : Nat) (x : Link) : (s.setLink k x).hbm = s.hbm := rfl
@[simp] theorem State.setLink_poison (s : State) (k : Nat) (x : Link) : (s.setLink k x).poison = s.poison := rfl
@[simp] theorem State.setLink_podMem (s : State) (k : Nat) (x : Link) : (s.setLink k x).podMem = s.podMem := rfl
@[simp] theorem State.setLink_shadow (s : State) (k : Nat) (x : Link) : (s.setLink k x).shadow = s.shadow := rfl
@[simp] theorem State.setLink_ctxs (s : State) (k : Nat) (x : Link) : (s.setLink k x).ctxs = s.ctxs := rfl
@[simp] theorem State.setLink_pages (s : State) (k : Nat) (x : Link) : (s.setLink k x).pages = s.pages := rfl
@[simp] theorem State.setLink_quarantine (s : State) (k : Nat) (x : Link) : (s.setLink k x).quarantine = s.quarantine := rfl
@[simp] theorem State.setLink_withdrawn (s : State) (k : Nat) (x : Link) : (s.setLink k x).withdrawn = s.withdrawn := rfl
@[simp] theorem State.setLink_fan (s : State) (k : Nat) (x : Link) : (s.setLink k x).fan = s.fan := rfl
@[simp] theorem State.setLink_rrCtx (s : State) (k : Nat) (x : Link) : (s.setLink k x).rrCtx = s.rrCtx := rfl
@[simp] theorem State.setLink_tasks (s : State) (k : Nat) (x : Link) : (s.setLink k x).tasks = s.tasks := rfl
@[simp] theorem State.setLink_nextTask (s : State) (k : Nat) (x : Link) : (s.setLink k x).nextTask = s.nextTask := rfl
@[simp] theorem State.setLink_retAdds (s : State) (k : Nat) (x : Link) : (s.setLink k x).retAdds = s.retAdds := rfl
@[simp] theorem State.setLink_msgs (s : State) (k : Nat) (x : Link) : (s.setLink k x).msgs = s.msgs := rfl
@[simp] theorem State.setLink_nextMsg (s : State) (k : Nat) (x : Link) : (s.setLink k x).nextMsg = s.nextMsg := rfl
@[simp] theorem State.setLink_acks (s : State) (k : Nat) (x : Link) : (s.setLink k x).acks = s.acks := rfl
@[simp] theorem State.setLink_migs (s : State) (k : Nat) (x : Link) : (s.setLink k x).migs = s.migs := rfl
@[simp] theorem State.setLink_waves (s : State) (k : Nat) (x : Link) : (s.setLink k x).waves = s.waves := rfl
@[simp] theorem State.setLink_nextWave (s : State) (k : Nat) (x : Link) : (s.setLink k x).nextWave = s.nextWave := rfl
@[simp] theorem State.setLink_flog (s : State) (k : Nat) (x : Link) : (s.setLink k x).flog = s.flog := rfl
@[simp] theorem State.setLink_fseq (s : State) (k : Nat) (x : Link) : (s.setLink k x).fseq = s.fseq := rfl
@[simp] theorem State.setLink_flost (s : State) (k : Nat) (x : Link) : (s.setLink k x).flost = s.flost := rfl
@[simp] theorem State.setLink_exports (s : State) (k : Nat) (x : Link) : (s.setLink k x).exports = s.exports := rfl
@[simp] theorem State.setLink_routes (s : State) (k : Nat) (x : Link) : (s.setLink k x).routes = s.routes := rfl
@[simp] theorem State.setLink_pods (s : State) (k : Nat) (x : Link) : (s.setLink k x).pods = s.pods := rfl
@[simp] theorem State.setLink_nextReq (s : State) (k : Nat) (x : Link) : (s.setLink k x).nextReq = s.nextReq := rfl
@[simp] theorem State.setLink_rings (s : State) (k : Nat) (x : Link) : (s.setLink k x).rings = s.rings := rfl
@[simp] theorem State.setLink_classes (s : State) (k : Nat) (x : Link) : (s.setLink k x).classes = s.classes := rfl
@[simp] theorem State.setLink_keys (s : State) (k : Nat) (x : Link) : (s.setLink k x).keys = s.keys := rfl
@[simp] theorem State.setLink_portBad (s : State) (k : Nat) (x : Link) : (s.setLink k x).portBad = s.portBad := rfl
@[simp] theorem State.setLink_portNoMatch (s : State) (k : Nat) (x : Link) : (s.setLink k x).portNoMatch = s.portNoMatch := rfl
@[simp] theorem State.setLink_replies (s : State) (k : Nat) (x : Link) : (s.setLink k x).replies = s.replies := rfl
@[simp] theorem State.setLink_alog (s : State) (k : Nat) (x : Link) : (s.setLink k x).alog = s.alog := rfl
@[simp] theorem State.setLink_image (s : State) (k : Nat) (x : Link) : (s.setLink k x).image = s.image := rfl
@[simp] theorem State.setLink_bootRec (s : State) (k : Nat) (x : Link) : (s.setLink k x).bootRec = s.bootRec := rfl
@[simp] theorem State.setLink_reds (s : State) (k : Nat) (x : Link) : (s.setLink k x).reds = s.reds := rfl
@[simp] theorem State.setLink_nextRed (s : State) (k : Nat) (x : Link) : (s.setLink k x).nextRed = s.nextRed := rfl
@[simp] theorem State.setLink_shadowPool (s : State) (k : Nat) (x : Link) : (s.setLink k x).shadowPool = s.shadowPool := rfl
@[simp] theorem State.setLink_hbmCorr (s : State) (k : Nat) (x : Link) : (s.setLink k x).hbmCorr = s.hbmCorr := rfl
@[simp] theorem State.setLink_stretch (s : State) (k : Nat) (x : Link) : (s.setLink k x).stretch = s.stretch := rfl
@[simp] theorem State.setLink_stores (s : State) (k : Nat) (x : Link) : (s.setLink k x).stores = s.stores := rfl
@[simp] theorem State.setLink_nextStore (s : State) (k : Nat) (x : Link) : (s.setLink k x).nextStore = s.nextStore := rfl
@[simp] theorem State.setLink_early (s : State) (k : Nat) (x : Link) : (s.setLink k x).early = s.early := rfl
@[simp] theorem State.setLink_nextThr (s : State) (k : Nat) (x : Link) : (s.setLink k x).nextThr = s.nextThr := rfl
@[simp] theorem State.setLink_slices (s : State) (k : Nat) (x : Link) : (s.setLink k x).slices = s.slices := rfl
@[simp] theorem State.setLink_lseqs (s : State) (k : Nat) (x : Link) : (s.setLink k x).lseqs = s.lseqs := rfl
@[simp] theorem State.setLink_podIn (s : State) (k : Nat) (x : Link) : (s.setLink k x).podIn = s.podIn := rfl
@[simp] theorem State.setLink_oldRepl (s : State) (k : Nat) (x : Link) : (s.setLink k x).oldRepl = s.oldRepl := rfl

end Sys2Proof.Machine
end

