-- ==== Sys2Proof/Laws/Maps.lean ====
section
/-! SUPPORT. Reading a map, a vector or a unit of the state after it was set; and that every memory operation keeps the
canonical form. -/

namespace Sys2Proof.Machine

theorem kvGet_kvSet {α : Type} (m : List (Nat × α)) (k j : Nat) (v d : α) :
    kvGet (kvSet m k v) j d = if k = j then v else kvGet m j d := by
  induction m with
  | nil => simp only [kvSet, kvGet]
  | cons e r ih =>
    obtain ⟨a, b⟩ := e
    simp only [kvSet]
    split
    · simp only [kvGet]
    · split
      · next h => subst h; simp only [kvGet]; split <;> rfl
      · simp only [kvGet, ih]
        split
        · next h => subst h; rw [if_neg (by omega)]
        · rfl

@[simp] theorem kvGet_kvSet_same {α : Type} (m : List (Nat × α)) (k : Nat) (v d : α) : kvGet (kvSet m k v) k d = v := by
  rw [kvGet_kvSet, if_pos rfl]

theorem kvGet_kvSet_other {α : Type} (m : List (Nat × α)) {k j : Nat} (v d : α) (h : k ≠ j) :
    kvGet (kvSet m k v) j d = kvGet m j d := by
  rw [kvGet_kvSet, if_neg h]

theorem kvSet_kvSet {α : Type} (m : List (Nat × α)) (k : Nat) (v u : α) : kvSet (kvSet m k v) k u = kvSet m k u := by
  induction m with
  | nil => simp [kvSet]
  | cons e r ih =>
    obtain ⟨a, b⟩ := e
    by_cases h1 : k < a
    · simp [kvSet, h1]
    · by_cases h2 : k = a
      · simp [kvSet, h2]
      · simp [kvSet, h1, h2, ih]

theorem kvGet_kvErase {α : Type} (m : List (Nat × α)) (k j : Nat) (d : α) :
    kvGet (kvErase m k) j d = if k = j then d else kvGet m j d := by
  induction m with
  | nil => simp [kvErase, kvGet]
  | cons e r ih =>
    obtain ⟨a, b⟩ := e
    simp only [kvErase] at ih
    by_cases h : a = k
    · subst h
      simp only [kvErase, List.filter_cons, bne_self_eq_false, Bool.false_eq_true, if_false, ih, kvGet]
      split <;> simp_all
    · simp only [kvErase, List.filter_cons, bne_iff_ne, ne_eq, h, not_false_eq_true, if_true, kvGet, ih]
      by_cases h2 : a = j
      · subst h2
        simp [Ne.symm h]
      · simp [h2]

theorem mem_kvErase {α : Type} {m : List (Nat × α)} {k : Nat} {e : Nat × α} (h : e ∈ kvErase m k) : e ∈ m :=
  (List.mem_filter.mp h).1

theorem mem_kvSet {α : Type} {m : List (Nat × α)} {k : Nat} {v : α} {e : Nat × α} (h : e ∈ kvSet m k v) :
    e = (k, v) ∨ e ∈ m := by
  induction m with
  | nil => simpa [kvSet] using h
  | cons a r ih =>
    obtain ⟨a, b⟩ := a
    simp only [kvSet] at h
    split at h
    · simpa using h
    · split at h
      · next h2 => subst h2; rcases List.mem_cons.mp h with h | h <;> simp [h]
      · rcases List.mem_cons.mp h with h | h
        · simp [h]
        · rcases ih h with h | h <;> simp [h]

/-- Keys rising: the first key is below every other. -/
theorem kvWf_cons {α : Type} (k : Nat) (v : α) (m : List (Nat × α)) :
    kvWf ((k, v) :: m) = true ↔ (∀ e ∈ m, k < e.1) ∧ kvWf m = true := by
  induction m generalizing k v with
  | nil => simp [kvWf]
  | cons e r ih =>
    obtain ⟨a, b⟩ := e
    simp only [kvWf, Bool.and_eq_true, decide_eq_true_eq, ih, List.mem_cons, forall_eq_or_imp]
    constructor
    · rintro ⟨h, h1, h2⟩
      exact ⟨⟨h, fun e he => Nat.lt_trans h (h1 e he)⟩, h1, h2⟩
    · rintro ⟨⟨h, _⟩, h1, h2⟩
      exact ⟨h, h1, h2⟩

theorem kvWf_kvSet {α : Type} (m : List (Nat × α)) (k : Nat) (v : α) (h : kvWf m = true) : kvWf (kvSet m k v) = true := by
  induction m with
  | nil => simp [kvSet, kvWf]
  | cons e r ih =>
    obtain ⟨a, b⟩ := e
    rw [kvWf_cons] at h
    simp only [kvSet]
    split
    · next hk =>
      rw [kvWf_cons, kvWf_cons]
      exact ⟨by rintro e he; rcases List.mem_cons.mp he with rfl | he
                · exact hk
                · exact Nat.lt_trans hk (h.1 e he), h⟩
    · split
      · next hk => subst hk; rw [kvWf_cons]; exact h
      · next h1 h2 =>
        rw [kvWf_cons]
        refine ⟨?_, ih h.2⟩
        intro e he
        rcases mem_kvSet he with rfl | he
        · show a < k; omega
        · exact h.1 e he

theorem kvWf_filter {α : Type} (m : List (Nat × α)) (p : Nat × α → Bool) (h : kvWf m = true) :
    kvWf (m.filter p) = true := by
  induction m with
  | nil => simp [kvWf]
  | cons e r ih =>
    obtain ⟨a, b⟩ := e
    rw [kvWf_cons] at h
    simp only [List.filter_cons]
    split
    · rw [kvWf_cons]
      exact ⟨fun e he => h.1 e (List.mem_filter.mp he).1, ih h.2⟩
    · exact ih h.2

/-- One byte written is read back, and every other byte reads as before. -/
theorem memGet_memSet (m : List Host.Cell) (a b : Nat) (v : Byte) :
    memGet (memSet m a v) b = if a = b then v else memGet m b := by
  unfold memSet memGet
  split
  · next h => rw [kvGet_kvErase, h]
  · rw [kvGet_kvSet]

/-- Bytes written are read back, and every byte outside them reads as before. -/
theorem memGet_memWrite (m : List Host.Cell) (a b : Nat) (bs : List Byte) :
    memGet (memWrite m a bs) b = if a ≤ b ∧ b < a + bs.length then bs.getD (b - a) 0 else memGet m b := by
  induction bs generalizing m a with
  | nil => rw [if_neg (by simp only [List.length_nil]; omega)]; rfl
  | cons v r ih =>
    simp only [memWrite, ih, memGet_memSet, List.length_cons]
    by_cases h : a = b
    · subst h; rw [if_neg (by omega), if_pos rfl, if_pos (by omega)]; simp
    · by_cases h2 : a + 1 ≤ b ∧ b < a + 1 + r.length
      · rw [if_pos h2, if_pos (by omega)]
        obtain ⟨k, hk⟩ : ∃ k, b - a = k + 1 := ⟨b - a - 1, by omega⟩
        rw [hk, show b - (a + 1) = k by omega]
        simp
      · rw [if_neg h2, if_neg h, if_neg (by omega)]

/-- Writing a byte keeps the canonical form. -/
theorem Memory.wf_memSet (m : List Host.Cell) (a : Nat) (v : Byte) (h : Memory.wf m) : Memory.wf (memSet m a v) := by
  unfold memSet
  split
  · exact ⟨kvWf_filter _ _ h.1, fun c hc => h.2 c (mem_kvErase hc)⟩
  · next hv =>
    refine ⟨kvWf_kvSet _ _ _ h.1, fun c hc => ?_⟩
    rcases mem_kvSet hc with rfl | hc
    · exact hv
    · exact h.2 c hc

/-- Writing bytes keeps the canonical form. -/
theorem Memory.wf_memWrite (m : List Host.Cell) (a : Nat) (bs : List Byte) (h : Memory.wf m) :
    Memory.wf (memWrite m a bs) := by
  induction bs generalizing m a with
  | nil => exact h
  | cons v r ih => exact ih _ _ (Memory.wf_memSet m a v h)

/-- Taking cells away keeps the canonical form. -/
theorem Memory.wf_filter (m : List Host.Cell) (p : Host.Cell → Bool) (h : Memory.wf m) : Memory.wf (m.filter p) :=
  ⟨kvWf_filter _ _ h.1, fun c hc => h.2 c (List.mem_filter.mp hc).1⟩

/-- Memory with no byte listed, as a start leaves it. -/
theorem Memory.wf_nil : Memory.wf ([] : List Host.Cell) := by decide

/-- Place `i` of a vector set by number. -/
theorem vget_vset {α : Type} {n : Nat} (v : Vector α n) (i j : Nat) (x d : α) (h : i < n) :
    vget (vset v i x) j d = if i = j then x else vget v j d := by
  unfold vget vset
  rw [dif_pos h]
  simp only [Vector.toList_set, List.getD_eq_getElem?_getD, List.getElem?_set]
  split
  · next hj => subst hj; simp [h]
  · rfl

/-- A place beyond the end is not set. -/
theorem vset_beyond {α : Type} {n : Nat} (v : Vector α n) (i : Nat) (x : α) (h : n ≤ i) : vset v i x = v := by
  unfold vset
  rw [dif_neg (by omega)]

@[simp] theorem State.tile_setTile (s : State) (t : Nat) (x : Tile) : (s.setTile t x).tile t = x := by
  simp [State.setTile, State.tile]

theorem State.tile_setTile_other (s : State) {t u : Nat} (x : Tile) (h : t ≠ u) : (s.setTile t x).tile u = s.tile u := by
  simp only [State.setTile, State.tile]
  exact kvGet_kvSet_other _ _ _ h

@[simp] theorem Tile.slot_setSlot (t : Tile) (k : Nat) (x : Slot) : (t.setSlot k x).slot k = x := by
  simp [Tile.setSlot, Tile.slot]

theorem Tile.slot_setSlot_other (t : Tile) {k j : Nat} (x : Slot) (h : k ≠ j) : (t.setSlot k x).slot j = t.slot j := by
  simp only [Tile.setSlot, Tile.slot]
  exact kvGet_kvSet_other _ _ _ h

/-- A slot set is read back. -/
@[simp] theorem State.slot_setSlot (s : State) (w : Who) (x : Slot) : (s.setSlot w x).slot w = x := by
  simp [State.setSlot, State.slot]

/-- Setting a slot leaves every other slot as it was. -/
theorem State.slot_setSlot_other (s : State) {w u : Who} (x : Slot) (h : u ≠ w) : (s.setSlot w x).slot u = s.slot u := by
  simp only [State.setSlot, State.slot]
  by_cases ht : w.tile = u.tile
  · have hk : w.slot ≠ u.slot := by
      intro hk
      exact h (by cases u; cases w; simp_all)
    rw [← ht, State.tile_setTile]
    exact Tile.slot_setSlot_other _ _ hk
  · rw [State.tile_setTile_other _ _ ht]

@[simp] theorem State.slot_modSlot (s : State) (w : Who) (f : Slot → Slot) : (s.modSlot w f).slot w = f (s.slot w) := by
  simp [State.modSlot]

theorem State.slot_modSlot_other (s : State) {w u : Who} (f : Slot → Slot) (h : u ≠ w) :
    (s.modSlot w f).slot u = s.slot u := State.slot_setSlot_other s _ h

/-- Two settings of one slot are the last of them. -/
@[simp] theorem State.setSlot_setSlot (s : State) (w : Who) (x y : Slot) : (s.setSlot w x).setSlot w y = s.setSlot w y := by
  simp only [State.setSlot, State.setTile, State.tile, kvGet_kvSet_same, Tile.setSlot, kvSet_kvSet]

/-- Two updates of one slot are one. -/
theorem State.modSlot_modSlot (s : State) (w : Who) (f g : Slot → Slot) :
    (s.modSlot w f).modSlot w g = s.modSlot w fun x => g (f x) := by
  simp [State.modSlot]

/-- The units of a tile other than its slots stand as they were when a slot is set. -/
@[simp] theorem State.tile_setSlot_spad (s : State) (w : Who) (x : Slot) (t : Nat) :
    ((s.setSlot w x).tile t).spad = (s.tile t).spad := by
  simp only [State.setSlot]
  by_cases h : w.tile = t
  · subst h; simp [Tile.setSlot]
  · rw [State.tile_setTile_other _ _ h]

@[simp] theorem State.tile_modSlot_spad (s : State) (w : Who) (f : Slot → Slot) (t : Nat) :
    ((s.modSlot w f).tile t).spad = (s.tile t).spad := State.tile_setSlot_spad s w _ t

end Sys2Proof.Machine
end

