-- ==== Sys2Proof/Safety.lean ====
section
/-! DEFINITION. The vocabulary of the statements: when a thread's instruction reaches its effect, the state in which it is
complete, what its check list names, and what leaves memory and other threads as they were. -/

namespace Sys2Proof.Machine

/-- The thread whose turn it is passes the checks of R353 steps 1 to 4 for an instruction, which no lookahead window of
an earlier one holds back (22 R353, R354; 04 R67). -/
abbrev State.Reaches (s : State) (i : Instr) (m : Meta) : Prop :=
  s.canIssue s.focus = true ∧ s.staticCheck s.focus i m = none ∧ s.cur.window m = .free

/-- An instruction reaches its effect: its guard holds (04 R64), a redundant copy names no queue (21 R347), and no status
destination or vector register it names is still to be written (07 R145; 08 R153). -/
abbrev State.Issues (s : State) (i : Instr) (m : Meta) : Prop :=
  s.Reaches i m ∧ s.cur.guardHolds m.g = true ∧ (s.cur.red.isSome && (m.src.any isQ || m.dst.any isQ)) = false ∧
    s.cur.hazard m = none

/-- The state `t`, with the thread of `s` past `i` and no transfer made. -/
abbrev State.past (s : State) (i : Instr) (t : State) : State := t.advance s.focus i true none s.cur.pc

/-- The same with a transfer to an address. -/
abbrev State.pastTo (s : State) (i : Instr) (t : State) (target : Word) : State :=
  t.advance s.focus i true (some target) s.cur.pc

/-- A function of one operand, and of two. -/
def one (f : Word → Word) (vs : List Word) : Word := f (argN vs 0)
def two (f : Word → Word → Word) (vs : List Word) : Word := f (argN vs 0) (argN vs 1)

/-- The n-th of the patterns a floating-point instruction computes with. -/
def argP (ps : List Nat) (n : Nat) : Nat := ps.getD n 0

/-- A scalar instruction with one destination: with its operands obtained, `f` of them is written and the thread goes on. -/
def ScalarResult (i : Instr) (g : Guard) (src : List Spec) (d : Spec) (f : List Word → Word) : Prop :=
  ∀ s vs s1, s.Issues i (Meta.of g src [d]) → s.operands s.focus src [d] = .ok (vs, s1) →
    exec i s = .next (s.past i (s1.writeSpec s.focus d (f vs)))

/-- The same with a result that a relation to the operands determines. -/
def ScalarRel (i : Instr) (g : Guard) (src : List Spec) (d : Spec) (r : List Word → Word → Prop) : Prop :=
  ∀ s vs s1, s.Issues i (Meta.of g src [d]) → s.operands s.focus src [d] = .ok (vs, s1) →
    ∃ v, r vs v ∧ exec i s = .next (s.past i (s1.writeSpec s.focus d v))

/-- A compare: one predicate is written and nothing is shifted (06 R108). -/
def PredResult (i : Instr) (g : Guard) (src : List Spec) (pd : BitVec 3) (f : List Word → Bool) : Prop :=
  ∀ s vs s1, s.Issues i (Meta.of g src []) → s.operands s.focus src [] = .ok (vs, s1) →
    exec i s = .next (s.past i (s1.modSlot s.focus fun x => x.setPred pd (f vs)))

/-- The patterns a floating-point instruction computes with: a subnormal source reads as zero with its sign in a wave
(05 R87, R88). -/
def flushed (inWave : Bool) (ty : Nat) (v : Word) : Nat :=
  if inWave then flushTy ty (v.toNat % 2 ^ tyBits ty) else v.toNat % 2 ^ tyBits ty

/-- Whether one of the sources is subnormal. -/
def anySubnormal (ty : Nat) (vs : List Word) : Bool := vs.any fun v => isSubnormal ty (v.toNat % 2 ^ tyBits ty)

/-- A floating-point instruction with one scalar result: result and flags of `f`, FZ where a wave flushed a source
(06 R110; 05 R88). -/
def FloatResult (i : Instr) (g : Guard) (ty : Nat) (src : List Spec) (d : Spec) (f : List Nat → Word × Nat) : Prop :=
  ∀ s vs s1, s.Issues i (Meta.of g src [d]) → s.operands s.focus src [d] = .ok (vs, s1) →
    (anySubnormal ty vs = true → s.cur.inWave = true) →
    exec i s = .next (s.past i ((s1.writeSpec s.focus d (f (vs.map (flushed s.cur.inWave ty))).1).modSlot s.focus fun x =>
      x.raiseFlags ((f (vs.map (flushed s.cur.inWave ty))).2 ||| if anySubnormal ty vs then fFZ else 0)))

/-- A floating-point compare: the answer of `f` on the order of the two values, false with a NaN (06 R113). -/
def FloatCompare (i : Instr) (g : Guard) (a b : Spec) (pd : BitVec 3) (f : Int → Bool) : Prop :=
  ∀ s vs s1, s.Issues i (Meta.of g [a, b] []) → s.operands s.focus [a, b] [] = .ok (vs, s1) →
    (anySubnormal 0 vs = true → s.cur.inWave = true) →
    exec i s = .next (s.past i (s1.modSlot s.focus fun x =>
      (x.setPred pd (match numCmp (tyDecode 0 (flushed s.cur.inWave 0 (argN vs 0)))
          (tyDecode 0 (flushed s.cur.inWave 0 (argN vs 1))) with
        | some c => f c
        | none => false)).raiseFlags (if anySubnormal 0 vs then fFZ else 0)))

/-- A long-latency instruction whose result is known as it issues: it joins the pending ones of its thread, due after its
cycles, and the thread goes on (04 R66; 06 R105, R111). -/
def LongResult (i : Instr) (la : BitVec 4) (p : BitVec 3) (src : List Spec) (d : Spec) (cycles : Nat)
    (ok : List Word → Prop) (f : List Word → Word × Nat) : Prop :=
  ∀ s vs s1, s.Issues i (Meta.solo (onP p) src [d]) → s.operands s.focus src [d] = .ok (vs, s1) → ok vs →
    exec i s = .next (s.past i (s1.addPend s.focus i la (.write d (f vs).1 (wd (f vs).2)) (s1.now + cycles)))

/-- An element of a vector source as the instruction computes with it (08 R155; 05 R88). -/
def srcElem (x : Slot) (assist : Bool) (ty v k : Nat) : Nat :=
  let e := (x.velems v ty x.shape.n).getD k 0
  if assist && x.inWave && decide (ty ≤ 1) then flushTy ty e else e

/-- Whether a vector source holds a subnormal that an instruction meets. -/
def subSource (x : Slot) (assist : Bool) (ty v : Nat) : Bool :=
  assist && decide (ty ≤ 1) && (x.velems v ty x.shape.n).any (isSubnormal ty)

/-- Element k of an elementwise instruction, with its flags. -/
def elemResult (x : Slot) (assist : Bool) (ty : Nat) (srcs : List Nat) (f : List Nat → Nat × Nat) (k : Nat) : Nat × Nat :=
  f (srcs.map fun v => srcElem x assist ty v k)

/-- Bytes of the result of an elementwise instruction, element 0 lowest (03 R52). -/
def elemBytes (x : Slot) (assist : Bool) (ty : Nat) (srcs : List Nat) (f : List Nat → Nat × Nat) : List Byte :=
  packElems ty ((List.range x.shape.n).map fun k => (elemResult x assist ty srcs f k).1)

/-- Flags of an elementwise instruction: those of its elements, FZ where a wave flushed a source. -/
def elemFlags (x : Slot) (assist : Bool) (ty : Nat) (srcs : List Nat) (f : List Nat → Nat × Nat) : Nat :=
  ((List.range x.shape.n).map (elemResult x assist ty srcs f)).foldl (fun a r => a ||| r.2)
    (srcs.foldl (fun a v => a ||| if subSource x assist ty v then fFZ else 0) 0)

/-- A vector instruction outside waves, with at most one other pending and its tokens drawn: it is pending with the bytes
it will write, the registers it reads, its lane cycles and its flags (08 R152 to R154; 13 R265). -/
def VectorPending (i : Instr) (g : Guard) (os : List Spec) (vr vw : List Nat)
    (plan : Slot → List Word → List (Nat × Nat × List Byte) × Nat × Nat) (ok : Slot → List Word → Prop) : Prop :=
  ∀ s vs s1 s2, s.Issues i ⟨g, os, [], vr, vw, true⟩ → s.operands s.focus os [] = .ok (vs, s1) →
    ok (s1.slot s.focus) vs → (s1.slot s.focus).inWave = false → (s1.slot s.focus).vpend.length < 2 →
    s1.draw s.focus (plan (s1.slot s.focus) vs).2.1 = (true, s2) →
    exec i s = .next (s.past i (s2.modSlot s.focus fun x =>
      { x with vpend := x.vpend ++ [⟨x.iseq + 1, (plan (s1.slot s.focus) vs).1, vr, (plan (s1.slot s.focus) vs).2.1,
          (plan (s1.slot s.focus) vs).2.2, s2.now⟩] }))

/-- The same in a wave, where the result stands at once when the lanes end in the wave's rotation (02 R34; 08 R154). -/
def VectorInWave (i : Instr) (g : Guard) (os : List Spec) (vr vw : List Nat)
    (plan : Slot → List Word → List (Nat × Nat × List Byte) × Nat × Nat) (ok : Slot → List Word → Prop) : Prop :=
  ∀ s vs s1 s2, s.Issues i ⟨g, os, [], vr, vw, true⟩ → s.operands s.focus os [] = .ok (vs, s1) →
    ok (s1.slot s.focus) vs → (s1.slot s.focus).inWave = true →
    endsInWave s1.now (s1.laneEnd s.focus s1.now (plan (s1.slot s.focus) vs).2.1) = true →
    s1.draw s.focus (plan (s1.slot s.focus) vs).2.1 = (true, s2) →
    exec i s = .next (s.past i (s2.modSlot s.focus fun x =>
      ((plan (s1.slot s.focus) vs).1.foldl (fun x q => x.vwrite q.1 q.2.1 q.2.2) x).raiseFlags
        (plan (s1.slot s.focus) vs).2.2))

/-- Both. -/
def VectorResult (i : Instr) (g : Guard) (os : List Spec) (vr vw : List Nat)
    (plan : Slot → List Word → List (Nat × Nat × List Byte) × Nat × Nat) (ok : Slot → List Word → Prop) : Prop :=
  VectorPending i g os vr vw plan ok ∧ VectorInWave i g os vr vw plan ok

/-- An elementwise instruction (08 R155 to R158): `f` on the elements in one place of its sources, where the shape has the
instruction's type and, outside waves, no source element is subnormal. -/
def ElementResult (i : Instr) (g : Guard) (ty vd : BitVec 4) (srcs : List (BitVec 4)) (assist : Bool)
    (f : List Nat → Nat × Nat) : Prop :=
  VectorResult i g [] (srcs.map fun v => v.toNat) [vd.toNat]
    (fun x _ => ([(vd.toNat, 0, elemBytes x assist ty.toNat (srcs.map fun v => v.toNat) f)],
      lanesOf (tyBytes ty.toNat x.shape.n), elemFlags x assist ty.toNat (srcs.map fun v => v.toNat) f))
    (fun x _ => x.shape.ty = ty.toNat ∧
      (srcs.any (fun v => subSource x assist ty.toNat v.toNat) = true → x.inWave = true))

/-- A matrix instruction of the M classes: it waits for nothing, its operands are obtained, and its thread's context owns
the tile's matrix state or takes it (09 R171; 03 R55). -/
def MatrixReady (s : State) (i : Instr) (g : Guard) (os : List Spec) (vr vw : List Nat) (ordered writes : Bool)
    (vs : List Word) (s2 : State) : Prop :=
  s.Issues i ⟨g, os, [], vr, vw, true⟩ ∧ (ordered = true → (s.tile s.focus.tile).stepPending = false) ∧
    ∃ s1, s.operands s.focus os [] = .ok (vs, s1) ∧ s1.ownMx s.focus writes = some s2

/-- Whether the byte n past a place is one of a part's. -/
def Part.has (p : Part) (l : Loc) (n : Nat) : Bool :=
  match p.loc, l with
  | .spad t a, .spad u b => t == u && decide (a ≤ b + n ∧ b + n < a + p.len)
  | .hbm a, .hbm b => decide (a ≤ b + n ∧ b + n < a + p.len)
  | .pod m a, .pod k b => m == k && decide (a ≤ b + n ∧ b + n < a + p.len)
  | .shadow r c a, .shadow r' c' b => 2 * r + c == 2 * r' + c' && decide (a ≤ b + n ∧ b + n < a + p.len)
  | _, _ => false

/-- A part of a redundant copy's shadow page, whose first write copies the page (21 R347). -/
def Part.isShadow (p : Part) : Bool :=
  match p.loc with
  | .shadow _ _ _ => true
  | _ => false

/-- Memory reads as before, at every place. -/
def State.SameMemory (s t : State) : Prop := ∀ l n, t.getByte l n = s.getByte l n

/-- Bytes written at the parts of an access and nowhere else; over one part, the bytes that stand there. -/
def State.Wrote (s t : State) (ps : List Part) (bs : List Byte) : Prop :=
  (∀ l n, (∀ p ∈ ps, p.has l n = false) → t.getByte l n = s.getByte l n) ∧
    ∀ p, ps = [p] → p.len = bs.length → (∀ o, p.loc ≠ .cap o) → t.getParts [p] = bs

/-- A store whose data has crossed the path: translated, with no earlier store of its thread to the same place on the way, and, for its
parts on the own tile, served in issue order and after what its thread has before it (11 R405; 12 R241, R252). -/
def State.StoreArrives (s : State) (w : Who) (q : Pend) (a : Acc) (ty : Nat) (data : List Byte) (bnds : List Bnd) (flags : Word)
    (rel : Option Nat) (rd : Nat) (q' : Pend) (a' : Acc) (s1 : State) : Prop :=
  (s.slot w).ripe s.now q.seq = some q ∧ q.job = .store a ty data bnds flags rel rd ∧ s.arrive w q a .write = .perform q' a' s1 ∧
    q'.job = .store a' ty data bnds flags rel rd ∧ q'.due ≤ s1.now ∧
    (∀ e ∈ (s1.slot w).pend, ∀ b ty data bnds flags rel rd, e.seq < q.seq → e.job = .store b ty data bnds flags rel rd →
      a'.meets b = false) ∧
    ((∀ p ∈ a'.parts, ownPart w.tile p = false) ∨ (s1.portHolds w.tile q'.stamp = false ∧
      s1.writeReady (q'.party (s1.slot w) w) q.seq ((s1.slot w).follows q.seq rel) (a'.parts.filter (ownPart w.tile)) = true))

/-- A store accepted: its bytes for the own tile stand there and no other byte has changed, those for another place wait in `stores`
(11 R405). -/
def State.Accepted (s s1 t : State) (w : Who) (ps : List Part) (data : List Byte) : Prop :=
  (∀ l n, (∀ p ∈ ps, ownPart w.tile p = true → p.has l n = false) → t.getByte l n = s.getByte l n) ∧
    (∀ p, ps = [p] → ownPart w.tile p = true → p.len = data.length → t.getParts [p] = data) ∧
    t.stores.map (fun e => (e.part, e.data)) = s1.stores.map (fun e => (e.part, e.data)) ++
      (cutData ps data).filter fun e => !ownPart w.tile e.1

/-- An engine stands with a command of its kind at the head of its queue, its holder's tile able to take its traffic, and
room for a result (10 R199, R201). -/
def State.Runs (s : State) (cl e kind opc : Nat) (c : Cmd) : Prop :=
  s.engCmd cl e kind = some c ∧ c.opc = opc ∧ s.tileHeld c.who.tile = false

/-- The state as the engine's command starts: the command taken, the shadow set active (10 R201). -/
def State.begun (s : State) (cl e opc : Nat) : State := s.modEng cl e fun g => g.start opc

/-- The state with results of the engine's command still to be enqueued (10 R199). -/
def State.answers (s : State) (cl e : Nat) (rs : List Word) : State := s.modEng cl e fun g => g.finish rs

/-- A parameter of the command at the head: what its register of the shadow set holds (10 R201, Table 10.3). -/
def State.param (s : State) (cl e n : Nat) : Word := vget (s.eng cl e).shadow n 0

/-- The bytes an engine reads at an address, with the state after (10 R199, R202). -/
def State.EngReads (s : State) (cl e : Nat) (c : Cmd) (v : Word) (n : Nat) (bs : List Byte) (t : State) : Prop :=
  ∃ ps u, s.engReach c v n .read = (.ok ps, u) ∧ ps.any (u.engHeld cl e c.who.tile) = false ∧ u.poisoned ps = false ∧
    bs = ps.flatMap (u.engPart cl e) ∧ t = u.touchLoads c.who.tile ps 0

/-- An automaton steps over some bytes from an offset on: each entry of its image gives the next state and, with bit 31, a match with the
byte's place (10 R200). -/
def MatchSteps (cl e : Nat) (c : Cmd) (image : Word) (states : Nat) : List Byte → Nat → List Word → State → State → Prop
  | [], _, rs, s, t => rs = [] ∧ t = s
  | b :: bs, off, rs, s, t =>
    (s.eng cl e).mstate < states ∧
      ∃ en s1 rs', s.EngReads cl e c (image + wd (1024 * (s.eng cl e).mstate + 4 * b.toNat)) 4 en s1 ∧
        rs = (if bitOf (leNat en) 31 then [resultWord 1 (bits (leNat en) 30 24 * 2 ^ 32 + off % 2 ^ 32)] else []) ++ rs' ∧
        MatchSteps cl e c image states bs (off + 1) rs' (s1.modEng cl e fun g => { g with mstate := leNat en % 2 ^ 24 }) t

/-- A command works through some batches of its source, each read, transformed and given to be written (10 R200). -/
def BatchSteps (cl e : Nat) (c : Cmd) (len : Nat) (f : List Byte → List Byte) (src dst : Word) : Nat → Nat → State → State → Prop
  | 0, _, s, t => t = s
  | n + 1, off, s, t => ∃ bs s1 ps s2, s.EngReads cl e c (src + wd off) len bs s1 ∧
      s1.engReach c (dst + wd off) len .write = (.ok ps, s2) ∧ s2.poisoned ps = false ∧
      BatchSteps cl e c len f src dst n (off + len) (s2.engStore cl e c ps (f bs)) t

/-- Every slot but one is as before. -/
def State.SameOthers (s t : State) (w : Who) : Prop := ∀ u : Who, u ≠ w → t.slot u = s.slot u

/-- The registers of a thread that no plain scalar instruction writes: predicates, vector registers and their shape,
queues, bindings and guards, the trap registers, and what the slot is bound to (03 Table 3.1; 10 Table 10.6). -/
def Slot.SameSystem (x y : Slot) : Prop :=
  y.p = x.p ∧ y.v = x.v ∧ y.vshp = x.vshp ∧ y.routes = x.routes ∧ y.qstat = x.qstat ∧ y.rbuf = x.rbuf ∧ y.f = x.f ∧
    y.guards = x.guards ∧ y.fstat = x.fstat ∧ y.tvec = x.tvec ∧ y.epc = x.epc ∧ y.enext = x.enext ∧
    y.ecause = x.ecause ∧ y.eval = x.eval ∧ y.estat = x.estat ∧ y.tmr = x.tmr ∧ y.tctl = x.tctl ∧ y.ckst = x.ckst ∧
    y.notice = x.notice ∧ y.gen = x.gen ∧ y.ctx = x.ctx ∧ y.task = x.task ∧ y.pend = x.pend ∧ y.vpend = x.vpend ∧
    y.scoreboard = x.scoreboard

/-- A specifier that names a register of the thread, or a constant: no queue, no engine, no neighbour. -/
def isOwn : Spec → Bool
  | .g _ | .o _ | .l _ | .z | .tid | .vt => true
  | _ => false

/-- The instructions that write one scalar at once and touch nothing else. -/
def plainScalar : Instr → Bool
  | .add _ _ _ _ | .sub _ _ _ _ | .and _ _ _ _ | .or _ _ _ _ | .xor _ _ _ _ | .andn _ _ _ _ | .shl _ _ _ _
  | .shr _ _ _ _ | .sar _ _ _ _ | .rol _ _ _ _ | .min _ _ _ _ | .max _ _ _ _ | .minn _ _ _ _ | .maxn _ _ _ _
  | .mul _ _ _ _ | .mulh _ _ _ _ | .mulhn _ _ _ _ | .clz _ _ _ | .ctz _ _ _ | .popc _ _ _ | .brev _ _ _
  | .bswap _ _ _ | .sx8 _ _ _ | .sx16 _ _ _ | .sx32 _ _ _ | .zx8 _ _ _ | .zx16 _ _ _ | .zx32 _ _ _ | .abs _ _ _
  | .sel _ _ _ _ | .addi _ _ _ | .andi _ _ _ | .ori _ _ _ | .xori _ _ _ | .muli _ _ _ | .shli _ _ _ | .shri _ _ _
  | .sari _ _ _ | .movh _ _ | .lpca _ _ | .pget _ _ => true
  | _ => false

/-- The predicate a compare or predicate instruction writes. -/
def predTarget : Instr → Option (BitVec 3)
  | .ceq k _ _ _ | .cne k _ _ _ | .clt k _ _ _ | .cle k _ _ _ | .cltn k _ _ _ | .clen k _ _ _ | .ctst k _ _ _
  | .ceqi k _ _ | .clti k _ _ | .cltni k _ _ | .pand k _ _ _ | .por k _ _ _ | .pxor k _ _ _ | .pandn k _ _ _
  | .fcls k _ _ _ => some k
  | _ => none

/-- What a load asks for: destination, base, address mode, reach, bytes, sign, pair, scope of an acquire, read kind. -/
structure LoadForm where
  t : Spec
  base : Spec
  am : Nat
  la : BitVec 4
  p : BitVec 3
  n : Nat
  signed : Bool
  pair : Bool
  acq : Option Nat
  rd : Nat

/-- The loads (07 R129, R130; 04 Table 4.5). -/
def loadForm : Instr → Option LoadForm
  | .ld8s t b am rd la p => some ⟨t, b, am.toNat, la, p, 1, true, false, none, rd.toNat⟩
  | .ld8z t b am rd la p => some ⟨t, b, am.toNat, la, p, 1, false, false, none, rd.toNat⟩
  | .ld16s t b am rd la p => some ⟨t, b, am.toNat, la, p, 2, true, false, none, rd.toNat⟩
  | .ld16z t b am rd la p => some ⟨t, b, am.toNat, la, p, 2, false, false, none, rd.toNat⟩
  | .ld32s t b am rd la p => some ⟨t, b, am.toNat, la, p, 4, true, false, none, rd.toNat⟩
  | .ld32z t b am rd la p => some ⟨t, b, am.toNat, la, p, 4, false, false, none, rd.toNat⟩
  | .ld64 t b am rd la p => some ⟨t, b, am.toNat, la, p, 8, false, false, none, rd.toNat⟩
  | .ld128 t b am rd la p => some ⟨t, b, am.toNat, la, p, 16, false, true, none, rd.toNat⟩
  | .lda32 t b am la p sc => some ⟨t, b, am.toNat, la, p, 4, false, false, some sc.toNat, 0⟩
  | .lda64 t b am la p sc => some ⟨t, b, am.toNat, la, p, 8, false, false, some sc.toNat, 0⟩
  | _ => none

/-- What a store asks for: its data registers, base, address mode, reach, bytes, scope of a release, write kind. -/
structure StoreForm where
  data : List Spec
  base : Spec
  am : Nat
  la : BitVec 4
  p : BitVec 3
  n : Nat
  rel : Option Nat
  rd : Nat

/-- The stores (07 R129, R130; 04 Table 4.5). -/
def storeForm : Instr → Option StoreForm
  | .st8 t b am rd la p => some ⟨[t], b, am.toNat, la, p, 1, none, rd.toNat⟩
  | .st16 t b am rd la p => some ⟨[t], b, am.toNat, la, p, 2, none, rd.toNat⟩
  | .st32 t b am rd la p => some ⟨[t], b, am.toNat, la, p, 4, none, rd.toNat⟩
  | .st64 t b am rd la p => some ⟨[t], b, am.toNat, la, p, 8, none, rd.toNat⟩
  | .st128 t b am rd la p => some ⟨[t, t.succ], b, am.toNat, la, p, 16, none, rd.toNat⟩
  | .stl32 t b am la p sc => some ⟨[t], b, am.toNat, la, p, 4, some sc.toNat, 0⟩
  | .stl64 t b am la p sc => some ⟨[t], b, am.toNat, la, p, 8, some sc.toNat, 0⟩
  | _ => none

/-- Bytes a store writes: its registers little-endian, the first lowest (07 R129; 00 R3). -/
def storeBytes (n : Nat) (vs : List Word) : List Byte :=
  if n = 16 then leBytes 8 (argN vs 0).toNat ++ leBytes 8 (argN vs 1).toNat else leBytes n (argN vs 0).toNat

/-- The atomics: destination, address, operand, order-and-scope, reach, and the operation of Table 7.3 (07 R132). -/
def atomForm : Instr → Option (Spec × Spec × Spec × BitVec 4 × BitVec 4 × Nat)
  | .amoadd d a b la os => some (d, a, b, la, os, 0x1F)
  | .amoand d a b la os => some (d, a, b, la, os, 0x20)
  | .amoor d a b la os => some (d, a, b, la, os, 0x21)
  | .amoxor d a b la os => some (d, a, b, la, os, 0x22)
  | .amomin d a b la os => some (d, a, b, la, os, 0x23)
  | .amomax d a b la os => some (d, a, b, la, os, 0x24)
  | .amominn d a b la os => some (d, a, b, la, os, 0x25)
  | .amomaxn d a b la os => some (d, a, b, la, os, 0x26)
  | .amoswp d a b la os => some (d, a, b, la, os, 0x27)
  | .cas d a b la os => some (d, a, b, la, os, 0x28)
  | _ => none

/-- What the checks at issue see of each instruction: its guard, the scalar specifiers it names as sources and destinations,
the vector registers it reads and writes, and whether a wave may execute it (04 Tables 4.4 to 4.7; 02 Table 2.5). A wave
member executes `wwork` whatever its own guard (06 R122). A step of another agent has none. -/
def instrMeta (member : Bool) : Instr → Option Meta
  | .add d a b g | .sub d a b g | .and d a b g | .or d a b g | .xor d a b g | .andn d a b g | .shl d a b g | .shr d a b g
  | .sar d a b g | .rol d a b g | .min d a b g | .max d a b g | .minn d a b g | .maxn d a b g | .mul d a b g
  | .mulh d a b g | .mulhn d a b g | .fadd d a b g | .fsub d a b g | .fmul d a b g | .fmin d a b g | .fmax d a b g =>
    some (Meta.of g [a, b] [d])
  | .clz d a g | .ctz d a g | .popc d a g | .brev d a g | .bswap d a g | .sx8 d a g | .sx16 d a g | .sx32 d a g
  | .zx8 d a g | .zx16 d a g | .zx32 d a g | .abs d a g | .fcvt d a _ _ g | .jlr d a g => some (Meta.of g [a] [d])
  | .sel d a b _ => some (Meta.of always [a, b] [d])
  | .ffma d a b g => some (Meta.of g [a, b, d] [d])
  | .div d a b _ p | .divn d a b _ p | .rem d a b _ p | .remn d a b _ p | .fdiv d a b _ p =>
    some (Meta.solo (onP p) [a, b] [d])
  | .fsqr d a _ p => some (Meta.solo (onP p) [a] [d])
  | .addi d a _ | .andi d a _ | .ori d a _ | .xori d a _ | .muli d a _ | .shli d a _ | .shri d a _ | .sari d a _ =>
    some (Meta.of always [a] [d])
  | .ceqi _ a _ | .clti _ a _ | .cltni _ a _ => some (Meta.of always [a] [])
  | .movh d _ | .lpca d _ => some (Meta.of always [] [d])
  | .ceq _ a b g | .cne _ a b g | .clt _ a b g | .cle _ a b g | .cltn _ a b g | .clen _ a b g | .ctst _ a b g
  | .fceq _ a b g | .fclt _ a b g | .fcle _ a b g => some (Meta.of g [a, b] [])
  | .fcls _ a _ g | .pput a g | .jr a g | .wleave a g => some (Meta.of g [a] [])
  | .pand _ _ _ g | .por _ _ _ g | .pxor _ _ _ g | .pandn _ _ _ g => some (Meta.of g [] [])
  | .pget d g => some (Meta.of g [] [d])
  | .b p sense _ => some (Meta.of ⟨sense, p⟩ [] [])
  | .bl p sense _ => some (Meta.of ⟨sense, p⟩ [] [.g 15])
  | .wwork g => some (Meta.of (if member then always else g) [] [])
  | .brk _ g | .trap _ g | .wsafe g | .fence _ g | .drain _ g | .gres _ _ g | .eret g | .ckpt g | .idle g | .halt g =>
    some (Meta.solo g [] [])
  | .wjoin a b g | .tspn a b g => some (Meta.solo g [a, b] [])
  | .mroute _ a g | .migrate a g | .sysw _ a _ g | .tlbi a _ g | .rot a g | .tins a g | .trem a g =>
    some (Meta.solo g [a] [])
  | .mprobe d _ g | .sysr d _ g => some (Meta.solo g [] [d])
  | .sysx d a b g => some (Meta.solo g [a, b] [d])
  | .free f g => some (Meta.solo g [] [f])
  | .ewr f a _ g | .eguard f a _ g => some (Meta.solo g [a] [f])
  | .loop c _ => some (Meta.of always [c] [])
  | .loopi _ _ => some (Meta.of always [] [])
  | .ld8s t base am _ _ p | .ld8z t base am _ _ p | .ld16s t base am _ _ p | .ld16z t base am _ _ p
  | .ld32s t base am _ _ p | .ld32z t base am _ _ p | .ld64 t base am _ _ p =>
    some ⟨onP p, [base], [t], [], [], am == 1⟩
  | .ld128 t base am _ _ p => some ⟨onP p, [base], [t, t.succ], [], [], am == 1⟩
  | .lda32 t base _ _ p _ | .lda64 t base _ _ p _ => some (Meta.solo (onP p) [base] [t])
  | .st8 t base am _ _ p | .st16 t base am _ _ p | .st32 t base am _ _ p | .st64 t base am _ _ p =>
    some ⟨onP p, [t, base], [], [], [], am == 1⟩
  | .st128 t base am _ _ p => some ⟨onP p, [t, t.succ, base], [], [], [], am == 1⟩
  | .stl32 t base _ _ p _ | .stl64 t base _ _ p _ => some (Meta.solo (onP p) [t, base] [])
  | .amoadd d a b _ _ | .amoand d a b _ _ | .amoor d a b _ _ | .amoxor d a b _ _ | .amomin d a b _ _ | .amomax d a b _ _
  | .amominn d a b _ _ | .amomaxn d a b _ _ | .amoswp d a b _ _ => some (Meta.solo always [a, b] [d])
  | .cas d a b _ _ => some (Meta.solo always [a, b, d] [d])
  | .xcopy d a _ _ p | .xred d a _ _ p => some (Meta.solo (onP p) [a] [d])
  | .lease f _ _ _ p => some (Meta.solo (onP p) [] [f])
  | .erd d f _ _ p => some (Meta.solo (onP p) [] [d, f])
  | .mstep _ _ a b _ p | .mwld _ a b _ p | .mst _ _ a b _ p => some ⟨onP p, [a, b], [], [], [], true⟩
  | .mrd v b _ p => some ⟨onP p, [b], [], [], [v.toNat], true⟩
  | .mshape a g | .mfmt a g | .mclr a g | .mbnd _ a g => some (Meta.of g [a] [])
  | .mwswp g | .mring g | .mscl g => some (Meta.of g [] [])
  | .vadd vd va vb _ g | .vsub vd va vb _ g | .vmul vd va vb _ g | .vmin vd va vb _ g | .vmax vd va vb _ g
  | .vcmpEq vd va vb _ g | .vcmpLt vd va vb _ g | .vcmpLe vd va vb _ g | .vand vd va vb _ g | .vor vd va vb _ g
  | .vxor vd va vb _ g | .vshl vd va vb _ g | .vshr vd va vb _ g | .vdq vd va vb _ g =>
    some ⟨g, [], [], [va.toNat, vb.toNat], [vd.toNat], true⟩
  | .vfma vd va vb _ g | .vsel vd va vb _ g => some ⟨g, [], [], [va.toNat, vb.toNat, vd.toNat], [vd.toNat], true⟩
  | .vqnt vd va vb _ g => some ⟨g, [], [], [va.toNat], [vd.toNat, vb.toNat], true⟩
  | .vabs vd va _ g | .vneg vd va _ g | .vmov vd va _ g | .vcvt vd va _ _ g | .vrcp vd va _ g | .vrsq vd va _ g
  | .vexp vd va _ g | .vlog vd va _ g | .vred vd va _ _ _ g | .vtr vd va _ g =>
    some ⟨g, [], [], [va.toNat], [vd.toNat], true⟩
  | .vshp o g => some (Meta.of g [.o o] [])
  | .vbc vd o _ g => some ⟨g, [.o o], [], [], [vd.toNat], true⟩
  | .vrot vd va o _ g => some ⟨g, [.o o], [], [va.toNat], [vd.toNat], true⟩
  | .vld v a _ am _ p => some ⟨onP p, [a], [], [], [v.toNat], am == 1⟩
  | .vst v a _ am _ p => some ⟨onP p, [a], [], [v.toNat], [], am == 1⟩
  | .divideComplete _ _ | .fdivFsqrComplete _ _ | .wjoinCommit _ | .loadComplete _ _ _ | .tlbWalkComplete _ _ _
  | .storeComplete _ _ | .migrateArrive _ | .messageDeliver _ | .scaleWordDeliver _ | .heldWordEnter _ _
  | .sendAckReceive _ | .copyRecord _ _ | .martenServe _ | .engineWakeDone _ _ _ | .sortInsert _ _ | .sortEmit _ _
  | .sortClear _ _ | .matchScan _ _ | .matchReset _ _ | .inflDecode _ _ | .xfrmTransform _ _ | .gathToSlot _ _
  | .gathFromSlot _ _ | .gathFinish _ _ | .scanPrefix _ _ | .softSoftmax _ _ | .softExponent _ _ | .collCollective _
  | .mstepRow _ _ | .mwldComplete _ _ | .mrdComplete _ _ | .bandWakeDone _ _ | .handoffStart _ | .handoffArrive _
  | .vectorComplete _ | .owlqSubmit _ | .owlJobServe _ | .owlEntrySend _ | .tlbiComplete _ | .ckptComplete _
  | .rotTakeEffect _ | .trapEntry _ | .timerTrap _ | .slotOffer _ | .hostLaunch _ _ | .hostWrite _ _ | .hostRead _
  | .hostMgmt _ _ _ | .mgmtQuote _ _ _ | .mgmtImageUpdate _ _ _ _ _ | .mgmtEndTask _ _ _ | .launchDependenceRead _ _
  | .fanOut | .hoistPlace _ | .taskDispatch _ | .retirementWordAdd _ | .hoistPreempt _ | .badgerSpillDone _
  | .badgerRestoreDone _ | .tokenRefill _ | .inrushGrant _ | .clusterGate _ | .gatingSpillDone _
  | .clusterWakeHoldEnd _ | .clusterRestoreDone _ | .thermalSample _ _ | .restStep _ | .movePrecopyPassEnd _
  | .moveDrainEnd _ | .moveCopyEnd _ | .moveRemapEnd _ | .moveResume _ | .stopDrainEnd _ | .stopCopyEnd _ _
  | .stopRemapEnd _ | .stopReplayEnd _ | .autoBoundary _ | .selftestDone _ _ _ _ | .ageingHourly _ _
  | .patrolScrub _ _ | .quarantineScrub _ _ | .teardown _ | .overflowHandlerRestart _ | .frameArrive _ _ _ _ _
  | .linkFlitReceive _ _ _ _ | .linkNakReceive _ _ | .linkBurstExpire _ | .linkRetrainEnd _ | .podRequestResend _
  | .podRequestFreeze _ | .shoheoshRd _ _ | .shoheoshWr _ _ | .shoheoshAmo _ _ _ _ | .shoheoshCmpl _ | .coldStart _
  | .warmStart _ | .redundantCommit _ | .erdComplete _ _ _ => none

end Sys2Proof.Machine
end

