-- ==== Sys2Proof/Laws/Issue.lean ====
section
/-! SUPPORT. What issue comes to, said once: an instruction held back, skipped, trapped, or run to the outcome of its body. -/

namespace Sys2Proof.Machine

/-- Every instruction word is issued with the checks `instrMeta` names. -/
theorem exec_issues (i : Instr) (s : State) (m : Meta) (h : instrMeta s.cur.isMember i = some m) :
    ∃ body, exec i s = .next (s.issue i m body) := by
  cases i <;> first | (injection h with h; subst h; exact ⟨_, rfl⟩) | (cases h)

/-- An instruction that reaches its effect comes to the outcome of its body. -/
theorem State.issue_of_issues {s : State} {i : Instr} {m : Meta} (h : s.Issues i m) (body : State → Who → Res) :
    s.issue i m body =
      match body s s.focus with
      | .ok s' => s.past i s'
      | .jump s' t => s.pastTo i s' t
      | .stop s' => s'
      | .wait s' y =>
        if s.cur.inWave then s.raise s.focus cOverrun (wordOf i) s.cur.pc
        else s'.modSlot s.focus fun x => { x with st := .wait, why := y }
      | .trap c ev => s.raise s.focus c ev (if c = cBreak ∨ c = cSoftware then s.cur.pc + 4 else s.cur.pc) := by
  obtain ⟨⟨h1, h2, h3⟩, h4, h5, h6⟩ := h
  unfold State.cur at h3 h4 h5 h6
  unfold State.issue State.past State.pastTo State.cur
  cases hb : body s s.focus <;> simp only [h1, h2, h3, h4, h5, h6, hb, reduceCtorEq, if_false, Bool.false_eq_true]

/-- One whose guard fails only goes on. -/
theorem State.issue_skip {s : State} {i : Instr} {m : Meta} (h : s.Reaches i m) (hg : s.cur.guardHolds m.g = false)
    (body : State → Who → Res) : s.issue i m body = s.advance s.focus i false none s.cur.pc := by
  obtain ⟨h1, h2, h3⟩ := h
  unfold State.cur at h3 hg ⊢
  unfold State.issue
  simp only [h1, h2, h3, hg, reduceCtorEq, if_false, if_true]

/-- One with its operands obtained writes its result. -/
theorem State.scalarOp_ok {s : State} {w : Who} {src : List Spec} {d : Spec} {vs : List Word} {s1 : State}
    (h : s.operands w src [d] = .ok (vs, s1)) (f : List Word → Word) :
    s.scalarOp w src d f = .ok (s1.writeSpec w d (f vs)) := by
  simp only [State.scalarOp, h]

theorem State.withSrc_ok {s : State} {w : Who} {src : List Spec} {vs : List Word} {s1 : State}
    (h : s.operands w src [] = .ok (vs, s1)) (f : List Word → State → Res) : s.withSrc w src f = f vs s1 := by
  simp only [State.withSrc, h]

/-- A scalar instruction issued through `scalarOp`. -/
theorem scalar_result {i : Instr} {g : Guard} {src : List Spec} {d : Spec} {f : List Word → Word}
    (h : ∀ s, exec i s = .next (s.issue i (Meta.of g src [d]) fun s w => s.scalarOp w src d f)) :
    ScalarResult i g src d f := by
  intro s vs s1 hi ho
  rw [h, State.issue_of_issues hi, State.scalarOp_ok ho]

theorem pred_result {i : Instr} {g : Guard} {src : List Spec} {pd : BitVec 3} {f : List Word → Bool}
    (h : ∀ s, exec i s = .next (s.issue i (Meta.of g src []) fun s w =>
      s.withSrc w src fun vs s => .ok (s.modSlot w fun x => x.setPred pd (f vs)))) :
    PredResult i g src pd f := by
  intro s vs s1 hi ho
  rw [h, State.issue_of_issues hi, State.withSrc_ok ho]

end Sys2Proof.Machine
end

