-- ==== Sys2Proof/Laws/Memory.lean ====
section
/-! SUPPORT. The operations over memory: every one keeps the canonical form, and what reads as before. -/

namespace Sys2Proof.Machine

/-- The memory a start leaves is in canonical form. -/
theorem State.reset_hbm_wf : Memory.wf State.reset.hbm := Memory.wf_nil

/-- Bytes put anywhere keep the form of HBM. -/
theorem State.hbm_wf_putBytes (s : State) (l : Loc) (bs : List Byte) (h : Memory.wf s.hbm) : Memory.wf (s.putBytes l bs).hbm := by
  cases l with
  | hbm pa => exact Memory.wf_memWrite _ _ _ h
  | _ => exact h

theorem State.hbm_wf_putParts (s : State) (ps : List Part) (bs : List Byte) (h : Memory.wf s.hbm) :
    Memory.wf (s.putParts ps bs).hbm := by
  induction ps generalizing s bs with
  | nil => exact h
  | cons p r ih => exact ih _ _ (s.hbm_wf_putBytes p.loc _ h)

/-- Bytes put anywhere keep the form of every scratchpad. -/
theorem State.spad_wf_putBytes (s : State) (l : Loc) (bs : List Byte) (h : ∀ n, Memory.wf (s.tile n).spad) (n : Nat) :
    Memory.wf ((s.putBytes l bs).tile n).spad := by
  cases l with
  | spad t off =>
    unfold State.putBytes State.modTile
    by_cases ht : t = n
    · subst ht
      simp only [State.tile_setTile]
      exact Memory.wf_memWrite _ _ _ (h t)
    · rw [State.tile_setTile_other _ _ ht]
      exact h n
  | _ => exact h n

theorem State.spad_wf_putParts (s : State) (ps : List Part) (bs : List Byte) (h : ∀ n, Memory.wf (s.tile n).spad) (n : Nat) :
    Memory.wf ((s.putParts ps bs).tile n).spad := by
  induction ps generalizing s bs with
  | nil => exact h n
  | cons p r ih => exact ih _ _ (s.spad_wf_putBytes p.loc _ h)

/-- Bytes put into HBM are read back, and every other byte of HBM reads as before. -/
theorem State.getByte_putBytes_hbm (s : State) (pa a i : Nat) (bs : List Byte) :
    (s.putBytes (.hbm pa) bs).getByte (.hbm a) i =
      if pa ≤ a + i ∧ a + i < pa + bs.length then bs.getD (a + i - pa) 0 else s.getByte (.hbm a) i :=
  memGet_memWrite _ _ _ _

/-- Bytes put into a scratchpad are read back, and every other byte of it reads as before. -/
theorem State.getByte_putBytes_spad (s : State) (t off a i : Nat) (bs : List Byte) :
    (s.putBytes (.spad t off) bs).getByte (.spad t a) i =
      if off ≤ a + i ∧ a + i < off + bs.length then bs.getD (a + i - off) 0 else s.getByte (.spad t a) i := by
  unfold State.putBytes State.modTile State.getByte
  simp only [State.tile_setTile]
  exact memGet_memWrite _ _ _ _

/-- Bytes put into HBM leave every scratchpad, and bytes put into a scratchpad leave HBM and the other scratchpads. -/
theorem State.getByte_putBytes_apart (s : State) (t u pa a off i : Nat) (bs : List Byte) :
    (s.putBytes (.hbm pa) bs).getByte (.spad t off) i = s.getByte (.spad t off) i ∧
    (s.putBytes (.spad t off) bs).getByte (.hbm pa) i = s.getByte (.hbm pa) i ∧
    (t ≠ u → (s.putBytes (.spad t off) bs).getByte (.spad u a) i = s.getByte (.spad u a) i) := by
  refine ⟨rfl, rfl, fun h => ?_⟩
  unfold State.putBytes State.modTile State.getByte
  simp only
  rw [State.tile_setTile_other _ _ h]

end Sys2Proof.Machine
end

