-- ==== Sys2Proof/Laws/Fields.lean ====
section
/-! SUPPORT. Fields of a word built by appending: each is the field appended there, and each shape of word is read back by
its form (04 Table 4.2). -/

set_option linter.unusedSimpArgs false

namespace Sys2Proof.Laws

/-- `fld` at any width. -/
def cut {m : Nat} (w : BitVec m) (lo n : Nat) : BitVec n := w.extractLsb' lo n

theorem cut_low {a b : Nat} (x : BitVec a) (y : BitVec b) (lo n : Nat) (h : lo + n ≤ b) :
    cut (x ++ y) lo n = cut y lo n := by
  apply BitVec.eq_of_getLsbD_eq
  intro i hi
  simp only [cut, BitVec.getLsbD_extractLsb', BitVec.getLsbD_append, hi, decide_true, Bool.true_and]
  rw [if_pos (by omega)]

theorem cut_high {a b : Nat} (x : BitVec a) (y : BitVec b) (lo n : Nat) (h : b ≤ lo) :
    cut (x ++ y) lo n = cut x (lo - b) n := by
  apply BitVec.eq_of_getLsbD_eq
  intro i hi
  simp only [cut, BitVec.getLsbD_extractLsb', BitVec.getLsbD_append, hi, decide_true, Bool.true_and]
  rw [if_neg (by omega)]
  congr 1
  omega

theorem cut_all {n : Nat} (x : BitVec n) : cut x 0 n = x := by
  apply BitVec.eq_of_getLsbD_eq
  intro i hi
  simp [cut, hi]

/-- Every specifier is read back from its code. -/
theorem Spec.ofCode_code (d : Spec) : Spec.ofCode d.code = some d := by
  cases d with
  | g i => revert i; decide
  | o i => revert i; decide
  | l i => revert i; decide
  | n i => revert i; decide
  | q i => revert i; decide
  | f i => revert i; decide
  | z => decide
  | tid => decide
  | vt => decide

theorem guard_sense_code (g : Guard) : cut g.code 3 1 = g.sense := by
  unfold Guard.code
  rw [cut_high _ _ _ _ (by omega)]
  exact cut_all _

theorem guard_p_code (g : Guard) : cut g.code 0 3 = g.p := by
  unfold Guard.code
  rw [cut_low _ _ _ _ (by omega)]
  exact cut_all _

theorem guardAt_four (w : IWord) : guardAt w 4 = ⟨fld w 7 1, fld w 4 3⟩ := rfl
theorem guardAt_six (w : IWord) : guardAt w 6 = ⟨fld w 9 1, fld w 6 3⟩ := rfl

theorem op_6_6_6_6_4_4 (x0 : BitVec 6) (x1 : BitVec 6) (x2 : BitVec 6) (x3 : BitVec 6) (x4 : BitVec 4) (x5 : BitVec 4) : fld (x0 ++ x1 ++ x2 ++ x3 ++ x4 ++ x5) 26 6 = x0 := by
  show cut (m := 6+6+6+6+4+4) (x0 ++ x1 ++ x2 ++ x3 ++ x4 ++ x5) 26 6 = x0
  simp (disch := omega) only [cut_high, cut_all, Nat.reduceSub]

theorem fn0_6_6_6_6_4_4 (x0 : BitVec 6) (x1 : BitVec 6) (x2 : BitVec 6) (x3 : BitVec 6) (x4 : BitVec 4) (x5 : BitVec 4) : fld (x0 ++ x1 ++ x2 ++ x3 ++ x4 ++ x5) 0 4 = x5 := by
  show cut (m := 6+6+6+6+4+4) (x0 ++ x1 ++ x2 ++ x3 ++ x4 ++ x5) 0 4 = x5
  simp (disch := omega) only [cut_low, cut_high, cut_all, Nat.reduceSub]

theorem formR3_enc (k : Spec → Spec → Spec → Guard → Instr) (x0 : BitVec 6) (x1 : Spec) (x2 : Spec) (x3 : Spec) (x4 : Guard) (x5 : BitVec 4) :
    formR3 k (x0 ++ x1.code ++ x2.code ++ x3.code ++ x4.code ++ x5) = .ok (k x1 x2 x3 x4) := by
  have e (lo n) : fld (x0 ++ x1.code ++ x2.code ++ x3.code ++ x4.code ++ x5) lo n =
      cut (m := 6+6+6+6+4+4) (x0 ++ x1.code ++ x2.code ++ x3.code ++ x4.code ++ x5) lo n := rfl
  simp (disch := omega) only [formR3, specAt, guardAt_four, guardAt_six, e, cut_low, cut_high, cut_all, Nat.reduceSub, Spec.ofCode_code, guard_sense_code, guard_p_code]

theorem formR2_enc (k : Spec → Spec → Guard → Instr) (x0 : BitVec 6) (x1 : Spec) (x2 : Spec) (x4 : Guard) (x5 : BitVec 4) :
    formR2 k (x0 ++ x1.code ++ x2.code ++ 0#6 ++ x4.code ++ x5) = .ok (k x1 x2 x4) := by
  have e (lo n) : fld (x0 ++ x1.code ++ x2.code ++ 0#6 ++ x4.code ++ x5) lo n =
      cut (m := 6+6+6+6+4+4) (x0 ++ x1.code ++ x2.code ++ 0#6 ++ x4.code ++ x5) lo n := rfl
  simp (disch := omega) only [formR2, specAt, guardAt_four, guardAt_six, e, cut_low, cut_high, cut_all, Nat.reduceSub, Spec.ofCode_code, guard_sense_code, guard_p_code, BitVec.ofNat_eq_ofNat, bne_self_eq_false, Bool.or_self, Bool.false_eq_true, ite_false]

theorem op_6_6_6_6_1_3_4 (x0 : BitVec 6) (x1 : BitVec 6) (x2 : BitVec 6) (x3 : BitVec 6) (x4 : BitVec 1) (x5 : BitVec 3) (x6 : BitVec 4) : fld (x0 ++ x1 ++ x2 ++ x3 ++ x4 ++ x5 ++ x6) 26 6 = x0 := by
  show cut (m := 6+6+6+6+1+3+4) (x0 ++ x1 ++ x2 ++ x3 ++ x4 ++ x5 ++ x6) 26 6 = x0
  simp (disch := omega) only [cut_high, cut_all, Nat.reduceSub]

theorem fn0_6_6_6_6_1_3_4 (x0 : BitVec 6) (x1 : BitVec 6) (x2 : BitVec 6) (x3 : BitVec 6) (x4 : BitVec 1) (x5 : BitVec 3) (x6 : BitVec 4) : fld (x0 ++ x1 ++ x2 ++ x3 ++ x4 ++ x5 ++ x6) 0 4 = x6 := by
  show cut (m := 6+6+6+6+1+3+4) (x0 ++ x1 ++ x2 ++ x3 ++ x4 ++ x5 ++ x6) 0 4 = x6
  simp (disch := omega) only [cut_low, cut_high, cut_all, Nat.reduceSub]

theorem formSEL_enc (k : Spec → Spec → Spec → BitVec 3 → Instr) (x0 : BitVec 6) (x1 : Spec) (x2 : Spec) (x3 : Spec) (x5 : BitVec 3) (x6 : BitVec 4) :
    formSEL k (x0 ++ x1.code ++ x2.code ++ x3.code ++ 0#1 ++ x5 ++ x6) = .ok (k x1 x2 x3 x5) := by
  have e (lo n) : fld (x0 ++ x1.code ++ x2.code ++ x3.code ++ 0#1 ++ x5 ++ x6) lo n =
      cut (m := 6+6+6+6+1+3+4) (x0 ++ x1.code ++ x2.code ++ x3.code ++ 0#1 ++ x5 ++ x6) lo n := rfl
  simp (disch := omega) only [formSEL, specAt, e, cut_low, cut_high, cut_all, Nat.reduceSub, Spec.ofCode_code, BitVec.ofNat_eq_ofNat, bne_self_eq_false, Bool.or_self, Bool.false_eq_true, ite_false]

theorem op_6_6_6_6_4_1_3 (x0 : BitVec 6) (x1 : BitVec 6) (x2 : BitVec 6) (x3 : BitVec 6) (x4 : BitVec 4) (x5 : BitVec 1) (x6 : BitVec 3) : fld (x0 ++ x1 ++ x2 ++ x3 ++ x4 ++ x5 ++ x6) 26 6 = x0 := by
  show cut (m := 6+6+6+6+4+1+3) (x0 ++ x1 ++ x2 ++ x3 ++ x4 ++ x5 ++ x6) 26 6 = x0
  simp (disch := omega) only [cut_high, cut_all, Nat.reduceSub]

theorem fn3_6_6_6_6_4_1_3 (x0 : BitVec 6) (x1 : BitVec 6) (x2 : BitVec 6) (x3 : BitVec 6) (x4 : BitVec 4) (x5 : BitVec 1) (x6 : BitVec 3) : fld (x0 ++ x1 ++ x2 ++ x3 ++ x4 ++ x5 ++ x6) 3 1 = x5 := by
  show cut (m := 6+6+6+6+4+1+3) (x0 ++ x1 ++ x2 ++ x3 ++ x4 ++ x5 ++ x6) 3 1 = x5
  simp (disch := omega) only [cut_low, cut_high, cut_all, Nat.reduceSub]

theorem formX3_enc (k : Spec → Spec → Spec → BitVec 4 → BitVec 3 → Instr) (x0 : BitVec 6) (x1 : Spec) (x2 : Spec) (x3 : Spec) (x4 : BitVec 4) (x5 : BitVec 1) (x6 : BitVec 3) :
    formX3 k (x0 ++ x1.code ++ x2.code ++ x3.code ++ x4 ++ x5 ++ x6) = .ok (k x1 x2 x3 x4 x6) := by
  have e (lo n) : fld (x0 ++ x1.code ++ x2.code ++ x3.code ++ x4 ++ x5 ++ x6) lo n =
      cut (m := 6+6+6+6+4+1+3) (x0 ++ x1.code ++ x2.code ++ x3.code ++ x4 ++ x5 ++ x6) lo n := rfl
  simp (disch := omega) only [formX3, specAt, e, cut_low, cut_high, cut_all, Nat.reduceSub, Spec.ofCode_code]

theorem op_6_6_6_14 (x0 : BitVec 6) (x1 : BitVec 6) (x2 : BitVec 6) (x3 : BitVec 14) : fld (x0 ++ x1 ++ x2 ++ x3) 26 6 = x0 := by
  show cut (m := 6+6+6+14) (x0 ++ x1 ++ x2 ++ x3) 26 6 = x0
  simp (disch := omega) only [cut_high, cut_all, Nat.reduceSub]

theorem formI_enc (k : Spec → Spec → BitVec 14 → Instr) (x0 : BitVec 6) (x1 : Spec) (x2 : Spec) (x3 : BitVec 14) :
    formI k (x0 ++ x1.code ++ x2.code ++ x3) = .ok (k x1 x2 x3) := by
  have e (lo n) : fld (x0 ++ x1.code ++ x2.code ++ x3) lo n =
      cut (m := 6+6+6+14) (x0 ++ x1.code ++ x2.code ++ x3) lo n := rfl
  simp (disch := omega) only [formI, specAt, e, cut_low, cut_high, cut_all, Nat.reduceSub, Spec.ofCode_code]

theorem op_6_6_6_8_6 (x0 : BitVec 6) (x1 : BitVec 6) (x2 : BitVec 6) (x3 : BitVec 8) (x4 : BitVec 6) : fld (x0 ++ x1 ++ x2 ++ x3 ++ x4) 26 6 = x0 := by
  show cut (m := 6+6+6+8+6) (x0 ++ x1 ++ x2 ++ x3 ++ x4) 26 6 = x0
  simp (disch := omega) only [cut_high, cut_all, Nat.reduceSub]

theorem formIS_enc (k : Spec → Spec → BitVec 6 → Instr) (x0 : BitVec 6) (x1 : Spec) (x2 : Spec) (x4 : BitVec 6) :
    formIS k (x0 ++ x1.code ++ x2.code ++ 0#8 ++ x4) = .ok (k x1 x2 x4) := by
  have e (lo n) : fld (x0 ++ x1.code ++ x2.code ++ 0#8 ++ x4) lo n =
      cut (m := 6+6+6+8+6) (x0 ++ x1.code ++ x2.code ++ 0#8 ++ x4) lo n := rfl
  simp (disch := omega) only [formIS, specAt, e, cut_low, cut_high, cut_all, Nat.reduceSub, Spec.ofCode_code, BitVec.ofNat_eq_ofNat, bne_self_eq_false, Bool.or_self, Bool.false_eq_true, ite_false]

theorem op_6_3_3_6_14 (x0 : BitVec 6) (x1 : BitVec 3) (x2 : BitVec 3) (x3 : BitVec 6) (x4 : BitVec 14) : fld (x0 ++ x1 ++ x2 ++ x3 ++ x4) 26 6 = x0 := by
  show cut (m := 6+3+3+6+14) (x0 ++ x1 ++ x2 ++ x3 ++ x4) 26 6 = x0
  simp (disch := omega) only [cut_high, cut_all, Nat.reduceSub]

theorem formIC_enc (k : BitVec 3 → Spec → BitVec 14 → Instr) (x0 : BitVec 6) (x2 : BitVec 3) (x3 : Spec) (x4 : BitVec 14) :
    formIC k (x0 ++ 0#3 ++ x2 ++ x3.code ++ x4) = .ok (k x2 x3 x4) := by
  have e (lo n) : fld (x0 ++ 0#3 ++ x2 ++ x3.code ++ x4) lo n =
      cut (m := 6+3+3+6+14) (x0 ++ 0#3 ++ x2 ++ x3.code ++ x4) lo n := rfl
  simp (disch := omega) only [formIC, specAt, e, cut_low, cut_high, cut_all, Nat.reduceSub, Spec.ofCode_code, BitVec.ofNat_eq_ofNat, bne_self_eq_false, Bool.or_self, Bool.false_eq_true, ite_false]

theorem op_6_6_20 (x0 : BitVec 6) (x1 : BitVec 6) (x2 : BitVec 20) : fld (x0 ++ x1 ++ x2) 26 6 = x0 := by
  show cut (m := 6+6+20) (x0 ++ x1 ++ x2) 26 6 = x0
  simp (disch := omega) only [cut_high, cut_all, Nat.reduceSub]

theorem formU_enc (k : Spec → BitVec 20 → Instr) (x0 : BitVec 6) (x1 : Spec) (x2 : BitVec 20) :
    formU k (x0 ++ x1.code ++ x2) = .ok (k x1 x2) := by
  have e (lo n) : fld (x0 ++ x1.code ++ x2) lo n =
      cut (m := 6+6+20) (x0 ++ x1.code ++ x2) lo n := rfl
  simp (disch := omega) only [formU, specAt, e, cut_low, cut_high, cut_all, Nat.reduceSub, Spec.ofCode_code]

theorem op_6_3_3_6_6_4_4 (x0 : BitVec 6) (x1 : BitVec 3) (x2 : BitVec 3) (x3 : BitVec 6) (x4 : BitVec 6) (x5 : BitVec 4) (x6 : BitVec 4) : fld (x0 ++ x1 ++ x2 ++ x3 ++ x4 ++ x5 ++ x6) 26 6 = x0 := by
  show cut (m := 6+3+3+6+6+4+4) (x0 ++ x1 ++ x2 ++ x3 ++ x4 ++ x5 ++ x6) 26 6 = x0
  simp (disch := omega) only [cut_high, cut_all, Nat.reduceSub]

theorem fn0_6_3_3_6_6_4_4 (x0 : BitVec 6) (x1 : BitVec 3) (x2 : BitVec 3) (x3 : BitVec 6) (x4 : BitVec 6) (x5 : BitVec 4) (x6 : BitVec 4) : fld (x0 ++ x1 ++ x2 ++ x3 ++ x4 ++ x5 ++ x6) 0 4 = x6 := by
  show cut (m := 6+3+3+6+6+4+4) (x0 ++ x1 ++ x2 ++ x3 ++ x4 ++ x5 ++ x6) 0 4 = x6
  simp (disch := omega) only [cut_low, cut_high, cut_all, Nat.reduceSub]

theorem formCMP_enc (k : BitVec 3 → Spec → Spec → Guard → Instr) (x0 : BitVec 6) (x2 : BitVec 3) (x3 : Spec) (x4 : Spec) (x5 : Guard) (x6 : BitVec 4) :
    formCMP k (x0 ++ 0#3 ++ x2 ++ x3.code ++ x4.code ++ x5.code ++ x6) = .ok (k x2 x3 x4 x5) := by
  have e (lo n) : fld (x0 ++ 0#3 ++ x2 ++ x3.code ++ x4.code ++ x5.code ++ x6) lo n =
      cut (m := 6+3+3+6+6+4+4) (x0 ++ 0#3 ++ x2 ++ x3.code ++ x4.code ++ x5.code ++ x6) lo n := rfl
  simp (disch := omega) only [formCMP, specAt, guardAt_four, guardAt_six, e, cut_low, cut_high, cut_all, Nat.reduceSub, Spec.ofCode_code, guard_sense_code, guard_p_code, BitVec.ofNat_eq_ofNat, bne_self_eq_false, Bool.or_self, Bool.false_eq_true, ite_false]

theorem op_6_3_3_3_3_3_3_4_4 (x0 : BitVec 6) (x1 : BitVec 3) (x2 : BitVec 3) (x3 : BitVec 3) (x4 : BitVec 3) (x5 : BitVec 3) (x6 : BitVec 3) (x7 : BitVec 4) (x8 : BitVec 4) : fld (x0 ++ x1 ++ x2 ++ x3 ++ x4 ++ x5 ++ x6 ++ x7 ++ x8) 26 6 = x0 := by
  show cut (m := 6+3+3+3+3+3+3+4+4) (x0 ++ x1 ++ x2 ++ x3 ++ x4 ++ x5 ++ x6 ++ x7 ++ x8) 26 6 = x0
  simp (disch := omega) only [cut_high, cut_all, Nat.reduceSub]

theorem fn0_6_3_3_3_3_3_3_4_4 (x0 : BitVec 6) (x1 : BitVec 3) (x2 : BitVec 3) (x3 : BitVec 3) (x4 : BitVec 3) (x5 : BitVec 3) (x6 : BitVec 3) (x7 : BitVec 4) (x8 : BitVec 4) : fld (x0 ++ x1 ++ x2 ++ x3 ++ x4 ++ x5 ++ x6 ++ x7 ++ x8) 0 4 = x8 := by
  show cut (m := 6+3+3+3+3+3+3+4+4) (x0 ++ x1 ++ x2 ++ x3 ++ x4 ++ x5 ++ x6 ++ x7 ++ x8) 0 4 = x8
  simp (disch := omega) only [cut_low, cut_high, cut_all, Nat.reduceSub]

theorem formPRED_enc (k : BitVec 3 → BitVec 3 → BitVec 3 → Guard → Instr) (x0 : BitVec 6) (x2 : BitVec 3) (x4 : BitVec 3) (x6 : BitVec 3) (x7 : Guard) (x8 : BitVec 4) :
    formPRED k (x0 ++ 0#3 ++ x2 ++ 0#3 ++ x4 ++ 0#3 ++ x6 ++ x7.code ++ x8) = .ok (k x2 x4 x6 x7) := by
  have e (lo n) : fld (x0 ++ 0#3 ++ x2 ++ 0#3 ++ x4 ++ 0#3 ++ x6 ++ x7.code ++ x8) lo n =
      cut (m := 6+3+3+3+3+3+3+4+4) (x0 ++ 0#3 ++ x2 ++ 0#3 ++ x4 ++ 0#3 ++ x6 ++ x7.code ++ x8) lo n := rfl
  simp (disch := omega) only [formPRED, guardAt_four, guardAt_six, e, cut_low, cut_high, cut_all, Nat.reduceSub, guard_sense_code, guard_p_code, BitVec.ofNat_eq_ofNat, bne_self_eq_false, Bool.or_self, Bool.false_eq_true, ite_false]

theorem op_6_6_12_4_4 (x0 : BitVec 6) (x1 : BitVec 6) (x2 : BitVec 12) (x3 : BitVec 4) (x4 : BitVec 4) : fld (x0 ++ x1 ++ x2 ++ x3 ++ x4) 26 6 = x0 := by
  show cut (m := 6+6+12+4+4) (x0 ++ x1 ++ x2 ++ x3 ++ x4) 26 6 = x0
  simp (disch := omega) only [cut_high, cut_all, Nat.reduceSub]

theorem fn0_6_6_12_4_4 (x0 : BitVec 6) (x1 : BitVec 6) (x2 : BitVec 12) (x3 : BitVec 4) (x4 : BitVec 4) : fld (x0 ++ x1 ++ x2 ++ x3 ++ x4) 0 4 = x4 := by
  show cut (m := 6+6+12+4+4) (x0 ++ x1 ++ x2 ++ x3 ++ x4) 0 4 = x4
  simp (disch := omega) only [cut_low, cut_high, cut_all, Nat.reduceSub]

theorem formPGET_enc (k : Spec → Guard → Instr) (x0 : BitVec 6) (x1 : Spec) (x3 : Guard) (x4 : BitVec 4) :
    formPGET k (x0 ++ x1.code ++ 0#12 ++ x3.code ++ x4) = .ok (k x1 x3) := by
  have e (lo n) : fld (x0 ++ x1.code ++ 0#12 ++ x3.code ++ x4) lo n =
      cut (m := 6+6+12+4+4) (x0 ++ x1.code ++ 0#12 ++ x3.code ++ x4) lo n := rfl
  simp (disch := omega) only [formPGET, specAt, guardAt_four, guardAt_six, e, cut_low, cut_high, cut_all, Nat.reduceSub, Spec.ofCode_code, guard_sense_code, guard_p_code, BitVec.ofNat_eq_ofNat, bne_self_eq_false, Bool.or_self, Bool.false_eq_true, ite_false]

theorem formPPUT_enc (k : Spec → Guard → Instr) (x0 : BitVec 6) (x2 : Spec) (x4 : Guard) (x5 : BitVec 4) :
    formPPUT k (x0 ++ 0#6 ++ x2.code ++ 0#6 ++ x4.code ++ x5) = .ok (k x2 x4) := by
  have e (lo n) : fld (x0 ++ 0#6 ++ x2.code ++ 0#6 ++ x4.code ++ x5) lo n =
      cut (m := 6+6+6+6+4+4) (x0 ++ 0#6 ++ x2.code ++ 0#6 ++ x4.code ++ x5) lo n := rfl
  simp (disch := omega) only [formPPUT, specAt, guardAt_four, guardAt_six, e, cut_low, cut_high, cut_all, Nat.reduceSub, Spec.ofCode_code, guard_sense_code, guard_p_code, BitVec.ofNat_eq_ofNat, bne_self_eq_false, Bool.or_self, Bool.false_eq_true, ite_false]

theorem op_6_6_6_4_2_4_4 (x0 : BitVec 6) (x1 : BitVec 6) (x2 : BitVec 6) (x3 : BitVec 4) (x4 : BitVec 2) (x5 : BitVec 4) (x6 : BitVec 4) : fld (x0 ++ x1 ++ x2 ++ x3 ++ x4 ++ x5 ++ x6) 26 6 = x0 := by
  show cut (m := 6+6+6+4+2+4+4) (x0 ++ x1 ++ x2 ++ x3 ++ x4 ++ x5 ++ x6) 26 6 = x0
  simp (disch := omega) only [cut_high, cut_all, Nat.reduceSub]

theorem fn0_6_6_6_4_2_4_4 (x0 : BitVec 6) (x1 : BitVec 6) (x2 : BitVec 6) (x3 : BitVec 4) (x4 : BitVec 2) (x5 : BitVec 4) (x6 : BitVec 4) : fld (x0 ++ x1 ++ x2 ++ x3 ++ x4 ++ x5 ++ x6) 0 4 = x6 := by
  show cut (m := 6+6+6+4+2+4+4) (x0 ++ x1 ++ x2 ++ x3 ++ x4 ++ x5 ++ x6) 0 4 = x6
  simp (disch := omega) only [cut_low, cut_high, cut_all, Nat.reduceSub]

theorem formFCVT_enc (k : Spec → Spec → BitVec 4 → BitVec 2 → Guard → Instr) (x0 : BitVec 6) (x1 : Spec) (x2 : Spec) (x3 : BitVec 4) (x4 : BitVec 2) (x5 : Guard) (x6 : BitVec 4) :
    formFCVT k (x0 ++ x1.code ++ x2.code ++ x3 ++ x4 ++ x5.code ++ x6) = .ok (k x1 x2 x3 x4 x5) := by
  have e (lo n) : fld (x0 ++ x1.code ++ x2.code ++ x3 ++ x4 ++ x5.code ++ x6) lo n =
      cut (m := 6+6+6+4+2+4+4) (x0 ++ x1.code ++ x2.code ++ x3 ++ x4 ++ x5.code ++ x6) lo n := rfl
  simp (disch := omega) only [formFCVT, specAt, guardAt_four, guardAt_six, e, cut_low, cut_high, cut_all, Nat.reduceSub, Spec.ofCode_code, guard_sense_code, guard_p_code]

theorem formFCLS_enc (k : BitVec 3 → Spec → BitVec 6 → Guard → Instr) (x0 : BitVec 6) (x2 : BitVec 3) (x3 : Spec) (x4 : BitVec 6) (x5 : Guard) (x6 : BitVec 4) :
    formFCLS k (x0 ++ 0#3 ++ x2 ++ x3.code ++ x4 ++ x5.code ++ x6) = .ok (k x2 x3 x4 x5) := by
  have e (lo n) : fld (x0 ++ 0#3 ++ x2 ++ x3.code ++ x4 ++ x5.code ++ x6) lo n =
      cut (m := 6+3+3+6+6+4+4) (x0 ++ 0#3 ++ x2 ++ x3.code ++ x4 ++ x5.code ++ x6) lo n := rfl
  simp (disch := omega) only [formFCLS, specAt, guardAt_four, guardAt_six, e, cut_low, cut_high, cut_all, Nat.reduceSub, Spec.ofCode_code, guard_sense_code, guard_p_code, BitVec.ofNat_eq_ofNat, bne_self_eq_false, Bool.or_self, Bool.false_eq_true, ite_false]

theorem formX2_enc (k : Spec → Spec → BitVec 4 → BitVec 3 → Instr) (x0 : BitVec 6) (x1 : Spec) (x2 : Spec) (x4 : BitVec 4) (x5 : BitVec 1) (x6 : BitVec 3) :
    formX2 k (x0 ++ x1.code ++ x2.code ++ 0#6 ++ x4 ++ x5 ++ x6) = .ok (k x1 x2 x4 x6) := by
  have e (lo n) : fld (x0 ++ x1.code ++ x2.code ++ 0#6 ++ x4 ++ x5 ++ x6) lo n =
      cut (m := 6+6+6+6+4+1+3) (x0 ++ x1.code ++ x2.code ++ 0#6 ++ x4 ++ x5 ++ x6) lo n := rfl
  simp (disch := omega) only [formX2, specAt, e, cut_low, cut_high, cut_all, Nat.reduceSub, Spec.ofCode_code, BitVec.ofNat_eq_ofNat, bne_self_eq_false, Bool.or_self, Bool.false_eq_true, ite_false]

theorem op_6_3_1_22 (x0 : BitVec 6) (x1 : BitVec 3) (x2 : BitVec 1) (x3 : BitVec 22) : fld (x0 ++ x1 ++ x2 ++ x3) 26 6 = x0 := by
  show cut (m := 6+3+1+22) (x0 ++ x1 ++ x2 ++ x3) 26 6 = x0
  simp (disch := omega) only [cut_high, cut_all, Nat.reduceSub]

theorem formB_enc (k : BitVec 3 → BitVec 1 → BitVec 22 → Instr) (x0 : BitVec 6) (x1 : BitVec 3) (x2 : BitVec 1) (x3 : BitVec 22) :
    formB k (x0 ++ x1 ++ x2 ++ x3) = .ok (k x1 x2 x3) := by
  have e (lo n) : fld (x0 ++ x1 ++ x2 ++ x3) lo n =
      cut (m := 6+3+1+22) (x0 ++ x1 ++ x2 ++ x3) lo n := rfl
  simp (disch := omega) only [formB, e, cut_low, cut_high, cut_all, Nat.reduceSub]

theorem formRA_enc (k : Spec → Guard → Instr) (x0 : BitVec 6) (x2 : Spec) (x4 : Guard) (x5 : BitVec 4) :
    formRA k (x0 ++ 0#6 ++ x2.code ++ 0#6 ++ x4.code ++ x5) = .ok (k x2 x4) := by
  have e (lo n) : fld (x0 ++ 0#6 ++ x2.code ++ 0#6 ++ x4.code ++ x5) lo n =
      cut (m := 6+6+6+6+4+4) (x0 ++ 0#6 ++ x2.code ++ 0#6 ++ x4.code ++ x5) lo n := rfl
  simp (disch := omega) only [formRA, specAt, guardAt_four, guardAt_six, e, cut_low, cut_high, cut_all, Nat.reduceSub, Spec.ofCode_code, guard_sense_code, guard_p_code, BitVec.ofNat_eq_ofNat, bne_self_eq_false, Bool.or_self, Bool.false_eq_true, ite_false]

theorem op_6_12_6_4_4 (x0 : BitVec 6) (x1 : BitVec 12) (x2 : BitVec 6) (x3 : BitVec 4) (x4 : BitVec 4) : fld (x0 ++ x1 ++ x2 ++ x3 ++ x4) 26 6 = x0 := by
  show cut (m := 6+12+6+4+4) (x0 ++ x1 ++ x2 ++ x3 ++ x4) 26 6 = x0
  simp (disch := omega) only [cut_high, cut_all, Nat.reduceSub]

theorem fn0_6_12_6_4_4 (x0 : BitVec 6) (x1 : BitVec 12) (x2 : BitVec 6) (x3 : BitVec 4) (x4 : BitVec 4) : fld (x0 ++ x1 ++ x2 ++ x3 ++ x4) 0 4 = x4 := by
  show cut (m := 6+12+6+4+4) (x0 ++ x1 ++ x2 ++ x3 ++ x4) 0 4 = x4
  simp (disch := omega) only [cut_low, cut_high, cut_all, Nat.reduceSub]

theorem formBRK_enc (k : BitVec 6 → Guard → Instr) (x0 : BitVec 6) (x2 : BitVec 6) (x3 : Guard) (x4 : BitVec 4) :
    formBRK k (x0 ++ 0#12 ++ x2 ++ x3.code ++ x4) = .ok (k x2 x3) := by
  have e (lo n) : fld (x0 ++ 0#12 ++ x2 ++ x3.code ++ x4) lo n =
      cut (m := 6+12+6+4+4) (x0 ++ 0#12 ++ x2 ++ x3.code ++ x4) lo n := rfl
  simp (disch := omega) only [formBRK, guardAt_four, guardAt_six, e, cut_low, cut_high, cut_all, Nat.reduceSub, guard_sense_code, guard_p_code, BitVec.ofNat_eq_ofNat, bne_self_eq_false, Bool.or_self, Bool.false_eq_true, ite_false]

theorem formRAB_enc (k : Spec → Spec → Guard → Instr) (x0 : BitVec 6) (x2 : Spec) (x3 : Spec) (x4 : Guard) (x5 : BitVec 4) :
    formRAB k (x0 ++ 0#6 ++ x2.code ++ x3.code ++ x4.code ++ x5) = .ok (k x2 x3 x4) := by
  have e (lo n) : fld (x0 ++ 0#6 ++ x2.code ++ x3.code ++ x4.code ++ x5) lo n =
      cut (m := 6+6+6+6+4+4) (x0 ++ 0#6 ++ x2.code ++ x3.code ++ x4.code ++ x5) lo n := rfl
  simp (disch := omega) only [formRAB, specAt, guardAt_four, guardAt_six, e, cut_low, cut_high, cut_all, Nat.reduceSub, Spec.ofCode_code, guard_sense_code, guard_p_code, BitVec.ofNat_eq_ofNat, bne_self_eq_false, Bool.or_self, Bool.false_eq_true, ite_false]

theorem op_6_18_4_4 (x0 : BitVec 6) (x1 : BitVec 18) (x2 : BitVec 4) (x3 : BitVec 4) : fld (x0 ++ x1 ++ x2 ++ x3) 26 6 = x0 := by
  show cut (m := 6+18+4+4) (x0 ++ x1 ++ x2 ++ x3) 26 6 = x0
  simp (disch := omega) only [cut_high, cut_all, Nat.reduceSub]

theorem fn0_6_18_4_4 (x0 : BitVec 6) (x1 : BitVec 18) (x2 : BitVec 4) (x3 : BitVec 4) : fld (x0 ++ x1 ++ x2 ++ x3) 0 4 = x3 := by
  show cut (m := 6+18+4+4) (x0 ++ x1 ++ x2 ++ x3) 0 4 = x3
  simp (disch := omega) only [cut_low, cut_high, cut_all, Nat.reduceSub]

theorem formR0_enc (k : Guard → Instr) (x0 : BitVec 6) (x2 : Guard) (x3 : BitVec 4) :
    formR0 k (x0 ++ 0#18 ++ x2.code ++ x3) = .ok (k x2) := by
  have e (lo n) : fld (x0 ++ 0#18 ++ x2.code ++ x3) lo n =
      cut (m := 6+18+4+4) (x0 ++ 0#18 ++ x2.code ++ x3) lo n := rfl
  simp (disch := omega) only [formR0, guardAt_four, guardAt_six, e, cut_low, cut_high, cut_all, Nat.reduceSub, guard_sense_code, guard_p_code, BitVec.ofNat_eq_ofNat, bne_self_eq_false, Bool.or_self, Bool.false_eq_true, ite_false]

theorem formLOOP_enc (k : Spec → BitVec 14 → Instr) (x0 : BitVec 6) (x2 : Spec) (x3 : BitVec 14) :
    formLOOP k (x0 ++ 0#6 ++ x2.code ++ x3) = .ok (k x2 x3) := by
  have e (lo n) : fld (x0 ++ 0#6 ++ x2.code ++ x3) lo n =
      cut (m := 6+6+6+14) (x0 ++ 0#6 ++ x2.code ++ x3) lo n := rfl
  simp (disch := omega) only [formLOOP, specAt, e, cut_low, cut_high, cut_all, Nat.reduceSub, Spec.ofCode_code, BitVec.ofNat_eq_ofNat, bne_self_eq_false, Bool.or_self, Bool.false_eq_true, ite_false]

theorem op_6_12_14 (x0 : BitVec 6) (x1 : BitVec 12) (x2 : BitVec 14) : fld (x0 ++ x1 ++ x2) 26 6 = x0 := by
  show cut (m := 6+12+14) (x0 ++ x1 ++ x2) 26 6 = x0
  simp (disch := omega) only [cut_high, cut_all, Nat.reduceSub]

theorem formLOOPI_enc (k : BitVec 12 → BitVec 14 → Instr) (x0 : BitVec 6) (x1 : BitVec 12) (x2 : BitVec 14) :
    formLOOPI k (x0 ++ x1 ++ x2) = .ok (k x1 x2) := by
  have e (lo n) : fld (x0 ++ x1 ++ x2) lo n =
      cut (m := 6+12+14) (x0 ++ x1 ++ x2) lo n := rfl
  simp (disch := omega) only [formLOOPI, e, cut_low, cut_high, cut_all, Nat.reduceSub]

theorem op_6_6_6_2_2_4_3_3 (x0 : BitVec 6) (x1 : BitVec 6) (x2 : BitVec 6) (x3 : BitVec 2) (x4 : BitVec 2) (x5 : BitVec 4) (x6 : BitVec 3) (x7 : BitVec 3) : fld (x0 ++ x1 ++ x2 ++ x3 ++ x4 ++ x5 ++ x6 ++ x7) 26 6 = x0 := by
  show cut (m := 6+6+6+2+2+4+3+3) (x0 ++ x1 ++ x2 ++ x3 ++ x4 ++ x5 ++ x6 ++ x7) 26 6 = x0
  simp (disch := omega) only [cut_high, cut_all, Nat.reduceSub]

theorem fn0_6_6_6_2_2_4_3_3 (x0 : BitVec 6) (x1 : BitVec 6) (x2 : BitVec 6) (x3 : BitVec 2) (x4 : BitVec 2) (x5 : BitVec 4) (x6 : BitVec 3) (x7 : BitVec 3) : fld (x0 ++ x1 ++ x2 ++ x3 ++ x4 ++ x5 ++ x6 ++ x7) 0 3 = x7 := by
  show cut (m := 6+6+6+2+2+4+3+3) (x0 ++ x1 ++ x2 ++ x3 ++ x4 ++ x5 ++ x6 ++ x7) 0 3 = x7
  simp (disch := omega) only [cut_low, cut_high, cut_all, Nat.reduceSub]

theorem formM_enc (k : Spec → Spec → BitVec 2 → BitVec 2 → BitVec 4 → BitVec 3 → Instr) (x0 : BitVec 6) (x1 : Spec) (x2 : Spec) (x3 : BitVec 2) (x4 : BitVec 2) (x5 : BitVec 4) (x6 : BitVec 3) (x7 : BitVec 3) :
    formM k (x0 ++ x1.code ++ x2.code ++ x3 ++ x4 ++ x5 ++ x6 ++ x7) = .ok (k x1 x2 x3 x4 x5 x6) := by
  have e (lo n) : fld (x0 ++ x1.code ++ x2.code ++ x3 ++ x4 ++ x5 ++ x6 ++ x7) lo n =
      cut (m := 6+6+6+2+2+4+3+3) (x0 ++ x1.code ++ x2.code ++ x3 ++ x4 ++ x5 ++ x6 ++ x7) lo n := rfl
  simp (disch := omega) only [formM, specAt, e, cut_low, cut_high, cut_all, Nat.reduceSub, Spec.ofCode_code]

theorem fn10_6_6_6_2_2_4_3_3 (x0 : BitVec 6) (x1 : BitVec 6) (x2 : BitVec 6) (x3 : BitVec 2) (x4 : BitVec 2) (x5 : BitVec 4) (x6 : BitVec 3) (x7 : BitVec 3) : fld (x0 ++ x1 ++ x2 ++ x3 ++ x4 ++ x5 ++ x6 ++ x7) 10 2 = x4 := by
  show cut (m := 6+6+6+2+2+4+3+3) (x0 ++ x1 ++ x2 ++ x3 ++ x4 ++ x5 ++ x6 ++ x7) 10 2 = x4
  simp (disch := omega) only [cut_low, cut_high, cut_all, Nat.reduceSub]

theorem formMA_enc (k : Spec → Spec → BitVec 2 → BitVec 4 → BitVec 3 → BitVec 3 → Instr) (x0 : BitVec 6) (x1 : Spec) (x2 : Spec) (x3 : BitVec 2) (x4 : BitVec 2) (x5 : BitVec 4) (x6 : BitVec 3) (x7 : BitVec 3) :
    formMA k (x0 ++ x1.code ++ x2.code ++ x3 ++ x4 ++ x5 ++ x6 ++ x7) = .ok (k x1 x2 x3 x5 x6 x7) := by
  have e (lo n) : fld (x0 ++ x1.code ++ x2.code ++ x3 ++ x4 ++ x5 ++ x6 ++ x7) lo n =
      cut (m := 6+6+6+2+2+4+3+3) (x0 ++ x1.code ++ x2.code ++ x3 ++ x4 ++ x5 ++ x6 ++ x7) lo n := rfl
  simp (disch := omega) only [formMA, specAt, e, cut_low, cut_high, cut_all, Nat.reduceSub, Spec.ofCode_code]

theorem formA_enc (k : Spec → Spec → Spec → BitVec 4 → BitVec 4 → Instr) (x0 : BitVec 6) (x1 : Spec) (x2 : Spec) (x3 : Spec) (x4 : BitVec 4) (x5 : BitVec 4) :
    formA k (x0 ++ x1.code ++ x2.code ++ x3.code ++ x4 ++ x5) = .ok (k x1 x2 x3 x4 x5) := by
  have e (lo n) : fld (x0 ++ x1.code ++ x2.code ++ x3.code ++ x4 ++ x5) lo n =
      cut (m := 6+6+6+6+4+4) (x0 ++ x1.code ++ x2.code ++ x3.code ++ x4 ++ x5) lo n := rfl
  simp (disch := omega) only [formA, specAt, e, cut_low, cut_high, cut_all, Nat.reduceSub, Spec.ofCode_code]

theorem op_6_14_4_4_4 (x0 : BitVec 6) (x1 : BitVec 14) (x2 : BitVec 4) (x3 : BitVec 4) (x4 : BitVec 4) : fld (x0 ++ x1 ++ x2 ++ x3 ++ x4) 26 6 = x0 := by
  show cut (m := 6+14+4+4+4) (x0 ++ x1 ++ x2 ++ x3 ++ x4) 26 6 = x0
  simp (disch := omega) only [cut_high, cut_all, Nat.reduceSub]

theorem fn0_6_14_4_4_4 (x0 : BitVec 6) (x1 : BitVec 14) (x2 : BitVec 4) (x3 : BitVec 4) (x4 : BitVec 4) : fld (x0 ++ x1 ++ x2 ++ x3 ++ x4) 0 4 = x4 := by
  show cut (m := 6+14+4+4+4) (x0 ++ x1 ++ x2 ++ x3 ++ x4) 0 4 = x4
  simp (disch := omega) only [cut_low, cut_high, cut_all, Nat.reduceSub]

theorem formFENCE_enc (k : BitVec 4 → Guard → Instr) (x0 : BitVec 6) (x2 : BitVec 4) (x3 : Guard) (x4 : BitVec 4) :
    formFENCE k (x0 ++ 0#14 ++ x2 ++ x3.code ++ x4) = .ok (k x2 x3) := by
  have e (lo n) : fld (x0 ++ 0#14 ++ x2 ++ x3.code ++ x4) lo n =
      cut (m := 6+14+4+4+4) (x0 ++ 0#14 ++ x2 ++ x3.code ++ x4) lo n := rfl
  simp (disch := omega) only [formFENCE, guardAt_four, guardAt_six, e, cut_low, cut_high, cut_all, Nat.reduceSub, guard_sense_code, guard_p_code, BitVec.ofNat_eq_ofNat, bne_self_eq_false, Bool.or_self, Bool.false_eq_true, ite_false]

theorem op_6_15_3_4_4 (x0 : BitVec 6) (x1 : BitVec 15) (x2 : BitVec 3) (x3 : BitVec 4) (x4 : BitVec 4) : fld (x0 ++ x1 ++ x2 ++ x3 ++ x4) 26 6 = x0 := by
  show cut (m := 6+15+3+4+4) (x0 ++ x1 ++ x2 ++ x3 ++ x4) 26 6 = x0
  simp (disch := omega) only [cut_high, cut_all, Nat.reduceSub]

theorem fn0_6_15_3_4_4 (x0 : BitVec 6) (x1 : BitVec 15) (x2 : BitVec 3) (x3 : BitVec 4) (x4 : BitVec 4) : fld (x0 ++ x1 ++ x2 ++ x3 ++ x4) 0 4 = x4 := by
  show cut (m := 6+15+3+4+4) (x0 ++ x1 ++ x2 ++ x3 ++ x4) 0 4 = x4
  simp (disch := omega) only [cut_low, cut_high, cut_all, Nat.reduceSub]

theorem formDRAIN_enc (k : BitVec 3 → Guard → Instr) (x0 : BitVec 6) (x2 : BitVec 3) (x3 : Guard) (x4 : BitVec 4) :
    formDRAIN k (x0 ++ 0#15 ++ x2 ++ x3.code ++ x4) = .ok (k x2 x3) := by
  have e (lo n) : fld (x0 ++ 0#15 ++ x2 ++ x3.code ++ x4) lo n =
      cut (m := 6+15+3+4+4) (x0 ++ 0#15 ++ x2 ++ x3.code ++ x4) lo n := rfl
  simp (disch := omega) only [formDRAIN, guardAt_four, guardAt_six, e, cut_low, cut_high, cut_all, Nat.reduceSub, guard_sense_code, guard_p_code, BitVec.ofNat_eq_ofNat, bne_self_eq_false, Bool.or_self, Bool.false_eq_true, ite_false]

theorem formMROUTE_enc (k : Spec → Spec → Guard → Instr) (x0 : BitVec 6) (x1 : Spec) (x2 : Spec) (x4 : Guard) (x5 : BitVec 4) :
    formMROUTE k (x0 ++ x1.code ++ x2.code ++ 0#6 ++ x4.code ++ x5) = .ok (k x1 x2 x4) := by
  have e (lo n) : fld (x0 ++ x1.code ++ x2.code ++ 0#6 ++ x4.code ++ x5) lo n =
      cut (m := 6+6+6+6+4+4) (x0 ++ x1.code ++ x2.code ++ 0#6 ++ x4.code ++ x5) lo n := rfl
  simp (disch := omega) only [formMROUTE, specAt, guardAt_four, guardAt_six, e, cut_low, cut_high, cut_all, Nat.reduceSub, Spec.ofCode_code, guard_sense_code, guard_p_code, BitVec.ofNat_eq_ofNat, bne_self_eq_false, Bool.or_self, Bool.false_eq_true, ite_false]

theorem formMPROBE_enc (k : Spec → Spec → Guard → Instr) (x0 : BitVec 6) (x1 : Spec) (x2 : Spec) (x4 : Guard) (x5 : BitVec 4) :
    formMPROBE k (x0 ++ x1.code ++ x2.code ++ 0#6 ++ x4.code ++ x5) = .ok (k x1 x2 x4) := by
  have e (lo n) : fld (x0 ++ x1.code ++ x2.code ++ 0#6 ++ x4.code ++ x5) lo n =
      cut (m := 6+6+6+6+4+4) (x0 ++ x1.code ++ x2.code ++ 0#6 ++ x4.code ++ x5) lo n := rfl
  simp (disch := omega) only [formMPROBE, specAt, guardAt_four, guardAt_six, e, cut_low, cut_high, cut_all, Nat.reduceSub, Spec.ofCode_code, guard_sense_code, guard_p_code, BitVec.ofNat_eq_ofNat, bne_self_eq_false, Bool.or_self, Bool.false_eq_true, ite_false]

theorem op_6_6_6_4_2_4_1_3 (x0 : BitVec 6) (x1 : BitVec 6) (x2 : BitVec 6) (x3 : BitVec 4) (x4 : BitVec 2) (x5 : BitVec 4) (x6 : BitVec 1) (x7 : BitVec 3) : fld (x0 ++ x1 ++ x2 ++ x3 ++ x4 ++ x5 ++ x6 ++ x7) 26 6 = x0 := by
  show cut (m := 6+6+6+4+2+4+1+3) (x0 ++ x1 ++ x2 ++ x3 ++ x4 ++ x5 ++ x6 ++ x7) 26 6 = x0
  simp (disch := omega) only [cut_high, cut_all, Nat.reduceSub]

theorem fn3_6_6_6_4_2_4_1_3 (x0 : BitVec 6) (x1 : BitVec 6) (x2 : BitVec 6) (x3 : BitVec 4) (x4 : BitVec 2) (x5 : BitVec 4) (x6 : BitVec 1) (x7 : BitVec 3) : fld (x0 ++ x1 ++ x2 ++ x3 ++ x4 ++ x5 ++ x6 ++ x7) 3 1 = x6 := by
  show cut (m := 6+6+6+4+2+4+1+3) (x0 ++ x1 ++ x2 ++ x3 ++ x4 ++ x5 ++ x6 ++ x7) 3 1 = x6
  simp (disch := omega) only [cut_low, cut_high, cut_all, Nat.reduceSub]

theorem formXCP_enc (k : Spec → Spec → BitVec 2 → BitVec 4 → BitVec 3 → Instr) (x0 : BitVec 6) (x1 : Spec) (x2 : Spec) (x4 : BitVec 2) (x5 : BitVec 4) (x6 : BitVec 1) (x7 : BitVec 3) :
    formXCP k (x0 ++ x1.code ++ x2.code ++ 0#4 ++ x4 ++ x5 ++ x6 ++ x7) = .ok (k x1 x2 x4 x5 x7) := by
  have e (lo n) : fld (x0 ++ x1.code ++ x2.code ++ 0#4 ++ x4 ++ x5 ++ x6 ++ x7) lo n =
      cut (m := 6+6+6+4+2+4+1+3) (x0 ++ x1.code ++ x2.code ++ 0#4 ++ x4 ++ x5 ++ x6 ++ x7) lo n := rfl
  simp (disch := omega) only [formXCP, specAt, e, cut_low, cut_high, cut_all, Nat.reduceSub, Spec.ofCode_code, BitVec.ofNat_eq_ofNat, bne_self_eq_false, Bool.or_self, Bool.false_eq_true, ite_false]

theorem op_6_6_7_3_2_4_1_3 (x0 : BitVec 6) (x1 : BitVec 6) (x2 : BitVec 7) (x3 : BitVec 3) (x4 : BitVec 2) (x5 : BitVec 4) (x6 : BitVec 1) (x7 : BitVec 3) : fld (x0 ++ x1 ++ x2 ++ x3 ++ x4 ++ x5 ++ x6 ++ x7) 26 6 = x0 := by
  show cut (m := 6+6+7+3+2+4+1+3) (x0 ++ x1 ++ x2 ++ x3 ++ x4 ++ x5 ++ x6 ++ x7) 26 6 = x0
  simp (disch := omega) only [cut_high, cut_all, Nat.reduceSub]

theorem fn3_6_6_7_3_2_4_1_3 (x0 : BitVec 6) (x1 : BitVec 6) (x2 : BitVec 7) (x3 : BitVec 3) (x4 : BitVec 2) (x5 : BitVec 4) (x6 : BitVec 1) (x7 : BitVec 3) : fld (x0 ++ x1 ++ x2 ++ x3 ++ x4 ++ x5 ++ x6 ++ x7) 3 1 = x6 := by
  show cut (m := 6+6+7+3+2+4+1+3) (x0 ++ x1 ++ x2 ++ x3 ++ x4 ++ x5 ++ x6 ++ x7) 3 1 = x6
  simp (disch := omega) only [cut_low, cut_high, cut_all, Nat.reduceSub]

theorem formLEASE_enc (k : Spec → BitVec 3 → BitVec 2 → BitVec 4 → BitVec 3 → Instr) (x0 : BitVec 6) (x1 : Spec) (x3 : BitVec 3) (x4 : BitVec 2) (x5 : BitVec 4) (x6 : BitVec 1) (x7 : BitVec 3) :
    formLEASE k (x0 ++ x1.code ++ 0#7 ++ x3 ++ x4 ++ x5 ++ x6 ++ x7) = .ok (k x1 x3 x4 x5 x7) := by
  have e (lo n) : fld (x0 ++ x1.code ++ 0#7 ++ x3 ++ x4 ++ x5 ++ x6 ++ x7) lo n =
      cut (m := 6+6+7+3+2+4+1+3) (x0 ++ x1.code ++ 0#7 ++ x3 ++ x4 ++ x5 ++ x6 ++ x7) lo n := rfl
  simp (disch := omega) only [formLEASE, specAt, e, cut_low, cut_high, cut_all, Nat.reduceSub, Spec.ofCode_code, BitVec.ofNat_eq_ofNat, bne_self_eq_false, Bool.or_self, Bool.false_eq_true, ite_false]

theorem formERD_enc (k : Spec → Spec → BitVec 6 → BitVec 4 → BitVec 3 → Instr) (x0 : BitVec 6) (x1 : Spec) (x2 : Spec) (x3 : BitVec 6) (x4 : BitVec 4) (x5 : BitVec 1) (x6 : BitVec 3) :
    formERD k (x0 ++ x1.code ++ x2.code ++ x3 ++ x4 ++ x5 ++ x6) = .ok (k x1 x2 x3 x4 x6) := by
  have e (lo n) : fld (x0 ++ x1.code ++ x2.code ++ x3 ++ x4 ++ x5 ++ x6) lo n =
      cut (m := 6+6+6+6+4+1+3) (x0 ++ x1.code ++ x2.code ++ x3 ++ x4 ++ x5 ++ x6) lo n := rfl
  simp (disch := omega) only [formERD, specAt, e, cut_low, cut_high, cut_all, Nat.reduceSub, Spec.ofCode_code]

theorem formFREE_enc (k : Spec → Guard → Instr) (x0 : BitVec 6) (x1 : Spec) (x3 : Guard) (x4 : BitVec 4) :
    formFREE k (x0 ++ x1.code ++ 0#12 ++ x3.code ++ x4) = .ok (k x1 x3) := by
  have e (lo n) : fld (x0 ++ x1.code ++ 0#12 ++ x3.code ++ x4) lo n =
      cut (m := 6+6+12+4+4) (x0 ++ x1.code ++ 0#12 ++ x3.code ++ x4) lo n := rfl
  simp (disch := omega) only [formFREE, specAt, guardAt_four, guardAt_six, e, cut_low, cut_high, cut_all, Nat.reduceSub, Spec.ofCode_code, guard_sense_code, guard_p_code, BitVec.ofNat_eq_ofNat, bne_self_eq_false, Bool.or_self, Bool.false_eq_true, ite_false]

theorem formEWR_enc (k : Spec → Spec → BitVec 6 → Guard → Instr) (x0 : BitVec 6) (x1 : Spec) (x2 : Spec) (x3 : BitVec 6) (x4 : Guard) (x5 : BitVec 4) :
    formEWR k (x0 ++ x1.code ++ x2.code ++ x3 ++ x4.code ++ x5) = .ok (k x1 x2 x3 x4) := by
  have e (lo n) : fld (x0 ++ x1.code ++ x2.code ++ x3 ++ x4.code ++ x5) lo n =
      cut (m := 6+6+6+6+4+4) (x0 ++ x1.code ++ x2.code ++ x3 ++ x4.code ++ x5) lo n := rfl
  simp (disch := omega) only [formEWR, specAt, guardAt_four, guardAt_six, e, cut_low, cut_high, cut_all, Nat.reduceSub, Spec.ofCode_code, guard_sense_code, guard_p_code]

theorem op_6_6_6_3_3_4_4 (x0 : BitVec 6) (x1 : BitVec 6) (x2 : BitVec 6) (x3 : BitVec 3) (x4 : BitVec 3) (x5 : BitVec 4) (x6 : BitVec 4) : fld (x0 ++ x1 ++ x2 ++ x3 ++ x4 ++ x5 ++ x6) 26 6 = x0 := by
  show cut (m := 6+6+6+3+3+4+4) (x0 ++ x1 ++ x2 ++ x3 ++ x4 ++ x5 ++ x6) 26 6 = x0
  simp (disch := omega) only [cut_high, cut_all, Nat.reduceSub]

theorem fn0_6_6_6_3_3_4_4 (x0 : BitVec 6) (x1 : BitVec 6) (x2 : BitVec 6) (x3 : BitVec 3) (x4 : BitVec 3) (x5 : BitVec 4) (x6 : BitVec 4) : fld (x0 ++ x1 ++ x2 ++ x3 ++ x4 ++ x5 ++ x6) 0 4 = x6 := by
  show cut (m := 6+6+6+3+3+4+4) (x0 ++ x1 ++ x2 ++ x3 ++ x4 ++ x5 ++ x6) 0 4 = x6
  simp (disch := omega) only [cut_low, cut_high, cut_all, Nat.reduceSub]

theorem formEGUARD_enc (k : Spec → Spec → BitVec 3 → Guard → Instr) (x0 : BitVec 6) (x1 : Spec) (x2 : Spec) (x4 : BitVec 3) (x5 : Guard) (x6 : BitVec 4) :
    formEGUARD k (x0 ++ x1.code ++ x2.code ++ 0#3 ++ x4 ++ x5.code ++ x6) = .ok (k x1 x2 x4 x5) := by
  have e (lo n) : fld (x0 ++ x1.code ++ x2.code ++ 0#3 ++ x4 ++ x5.code ++ x6) lo n =
      cut (m := 6+6+6+3+3+4+4) (x0 ++ x1.code ++ x2.code ++ 0#3 ++ x4 ++ x5.code ++ x6) lo n := rfl
  simp (disch := omega) only [formEGUARD, specAt, guardAt_four, guardAt_six, e, cut_low, cut_high, cut_all, Nat.reduceSub, Spec.ofCode_code, guard_sense_code, guard_p_code, BitVec.ofNat_eq_ofNat, bne_self_eq_false, Bool.or_self, Bool.false_eq_true, ite_false]

theorem op_6_9_3_3_3_4_4 (x0 : BitVec 6) (x1 : BitVec 9) (x2 : BitVec 3) (x3 : BitVec 3) (x4 : BitVec 3) (x5 : BitVec 4) (x6 : BitVec 4) : fld (x0 ++ x1 ++ x2 ++ x3 ++ x4 ++ x5 ++ x6) 26 6 = x0 := by
  show cut (m := 6+9+3+3+3+4+4) (x0 ++ x1 ++ x2 ++ x3 ++ x4 ++ x5 ++ x6) 26 6 = x0
  simp (disch := omega) only [cut_high, cut_all, Nat.reduceSub]

theorem fn0_6_9_3_3_3_4_4 (x0 : BitVec 6) (x1 : BitVec 9) (x2 : BitVec 3) (x3 : BitVec 3) (x4 : BitVec 3) (x5 : BitVec 4) (x6 : BitVec 4) : fld (x0 ++ x1 ++ x2 ++ x3 ++ x4 ++ x5 ++ x6) 0 4 = x6 := by
  show cut (m := 6+9+3+3+3+4+4) (x0 ++ x1 ++ x2 ++ x3 ++ x4 ++ x5 ++ x6) 0 4 = x6
  simp (disch := omega) only [cut_low, cut_high, cut_all, Nat.reduceSub]

theorem formGRES_enc (k : BitVec 3 → BitVec 3 → Guard → Instr) (x0 : BitVec 6) (x2 : BitVec 3) (x4 : BitVec 3) (x5 : Guard) (x6 : BitVec 4) :
    formGRES k (x0 ++ 0#9 ++ x2 ++ 0#3 ++ x4 ++ x5.code ++ x6) = .ok (k x2 x4 x5) := by
  have e (lo n) : fld (x0 ++ 0#9 ++ x2 ++ 0#3 ++ x4 ++ x5.code ++ x6) lo n =
      cut (m := 6+9+3+3+3+4+4) (x0 ++ 0#9 ++ x2 ++ 0#3 ++ x4 ++ x5.code ++ x6) lo n := rfl
  simp (disch := omega) only [formGRES, guardAt_four, guardAt_six, e, cut_low, cut_high, cut_all, Nat.reduceSub, guard_sense_code, guard_p_code, BitVec.ofNat_eq_ofNat, bne_self_eq_false, Bool.or_self, Bool.false_eq_true, ite_false]

theorem op_6_1_1_4_6_6_4_1_3 (x0 : BitVec 6) (x1 : BitVec 1) (x2 : BitVec 1) (x3 : BitVec 4) (x4 : BitVec 6) (x5 : BitVec 6) (x6 : BitVec 4) (x7 : BitVec 1) (x8 : BitVec 3) : fld (x0 ++ x1 ++ x2 ++ x3 ++ x4 ++ x5 ++ x6 ++ x7 ++ x8) 26 6 = x0 := by
  show cut (m := 6+1+1+4+6+6+4+1+3) (x0 ++ x1 ++ x2 ++ x3 ++ x4 ++ x5 ++ x6 ++ x7 ++ x8) 26 6 = x0
  simp (disch := omega) only [cut_high, cut_all, Nat.reduceSub]

theorem fn3_6_1_1_4_6_6_4_1_3 (x0 : BitVec 6) (x1 : BitVec 1) (x2 : BitVec 1) (x3 : BitVec 4) (x4 : BitVec 6) (x5 : BitVec 6) (x6 : BitVec 4) (x7 : BitVec 1) (x8 : BitVec 3) : fld (x0 ++ x1 ++ x2 ++ x3 ++ x4 ++ x5 ++ x6 ++ x7 ++ x8) 3 1 = x7 := by
  show cut (m := 6+1+1+4+6+6+4+1+3) (x0 ++ x1 ++ x2 ++ x3 ++ x4 ++ x5 ++ x6 ++ x7 ++ x8) 3 1 = x7
  simp (disch := omega) only [cut_low, cut_high, cut_all, Nat.reduceSub]

theorem formMSTEP_enc (k : BitVec 1 → BitVec 4 → Spec → Spec → BitVec 4 → BitVec 3 → Instr) (x0 : BitVec 6) (x2 : BitVec 1) (x3 : BitVec 4) (x4 : Spec) (x5 : Spec) (x6 : BitVec 4) (x7 : BitVec 1) (x8 : BitVec 3) :
    formMSTEP k (x0 ++ 0#1 ++ x2 ++ x3 ++ x4.code ++ x5.code ++ x6 ++ x7 ++ x8) = .ok (k x2 x3 x4 x5 x6 x8) := by
  have e (lo n) : fld (x0 ++ 0#1 ++ x2 ++ x3 ++ x4.code ++ x5.code ++ x6 ++ x7 ++ x8) lo n =
      cut (m := 6+1+1+4+6+6+4+1+3) (x0 ++ 0#1 ++ x2 ++ x3 ++ x4.code ++ x5.code ++ x6 ++ x7 ++ x8) lo n := rfl
  simp (disch := omega) only [formMSTEP, specAt, e, cut_low, cut_high, cut_all, Nat.reduceSub, Spec.ofCode_code, BitVec.ofNat_eq_ofNat, bne_self_eq_false, Bool.or_self, Bool.false_eq_true, ite_false]

theorem op_6_2_4_6_6_4_1_3 (x0 : BitVec 6) (x1 : BitVec 2) (x2 : BitVec 4) (x3 : BitVec 6) (x4 : BitVec 6) (x5 : BitVec 4) (x6 : BitVec 1) (x7 : BitVec 3) : fld (x0 ++ x1 ++ x2 ++ x3 ++ x4 ++ x5 ++ x6 ++ x7) 26 6 = x0 := by
  show cut (m := 6+2+4+6+6+4+1+3) (x0 ++ x1 ++ x2 ++ x3 ++ x4 ++ x5 ++ x6 ++ x7) 26 6 = x0
  simp (disch := omega) only [cut_high, cut_all, Nat.reduceSub]

theorem fn3_6_2_4_6_6_4_1_3 (x0 : BitVec 6) (x1 : BitVec 2) (x2 : BitVec 4) (x3 : BitVec 6) (x4 : BitVec 6) (x5 : BitVec 4) (x6 : BitVec 1) (x7 : BitVec 3) : fld (x0 ++ x1 ++ x2 ++ x3 ++ x4 ++ x5 ++ x6 ++ x7) 3 1 = x6 := by
  show cut (m := 6+2+4+6+6+4+1+3) (x0 ++ x1 ++ x2 ++ x3 ++ x4 ++ x5 ++ x6 ++ x7) 3 1 = x6
  simp (disch := omega) only [cut_low, cut_high, cut_all, Nat.reduceSub]

theorem formMWLD_enc (k : BitVec 4 → Spec → Spec → BitVec 4 → BitVec 3 → Instr) (x0 : BitVec 6) (x2 : BitVec 4) (x3 : Spec) (x4 : Spec) (x5 : BitVec 4) (x6 : BitVec 1) (x7 : BitVec 3) :
    formMWLD k (x0 ++ 0#2 ++ x2 ++ x3.code ++ x4.code ++ x5 ++ x6 ++ x7) = .ok (k x2 x3 x4 x5 x7) := by
  have e (lo n) : fld (x0 ++ 0#2 ++ x2 ++ x3.code ++ x4.code ++ x5 ++ x6 ++ x7) lo n =
      cut (m := 6+2+4+6+6+4+1+3) (x0 ++ 0#2 ++ x2 ++ x3.code ++ x4.code ++ x5 ++ x6 ++ x7) lo n := rfl
  simp (disch := omega) only [formMWLD, specAt, e, cut_low, cut_high, cut_all, Nat.reduceSub, Spec.ofCode_code, BitVec.ofNat_eq_ofNat, bne_self_eq_false, Bool.or_self, Bool.false_eq_true, ite_false]

theorem formMST_enc (k : BitVec 2 → BitVec 4 → Spec → Spec → BitVec 4 → BitVec 3 → Instr) (x0 : BitVec 6) (x1 : BitVec 2) (x2 : BitVec 4) (x3 : Spec) (x4 : Spec) (x5 : BitVec 4) (x6 : BitVec 1) (x7 : BitVec 3) :
    formMST k (x0 ++ x1 ++ x2 ++ x3.code ++ x4.code ++ x5 ++ x6 ++ x7) = .ok (k x1 x2 x3 x4 x5 x7) := by
  have e (lo n) : fld (x0 ++ x1 ++ x2 ++ x3.code ++ x4.code ++ x5 ++ x6 ++ x7) lo n =
      cut (m := 6+2+4+6+6+4+1+3) (x0 ++ x1 ++ x2 ++ x3.code ++ x4.code ++ x5 ++ x6 ++ x7) lo n := rfl
  simp (disch := omega) only [formMST, specAt, e, cut_low, cut_high, cut_all, Nat.reduceSub, Spec.ofCode_code]

theorem formMRD_enc (k : BitVec 4 → Spec → BitVec 4 → BitVec 3 → Instr) (x0 : BitVec 6) (x2 : BitVec 4) (x4 : Spec) (x5 : BitVec 4) (x6 : BitVec 1) (x7 : BitVec 3) :
    formMRD k (x0 ++ 0#2 ++ x2 ++ 0#6 ++ x4.code ++ x5 ++ x6 ++ x7) = .ok (k x2 x4 x5 x7) := by
  have e (lo n) : fld (x0 ++ 0#2 ++ x2 ++ 0#6 ++ x4.code ++ x5 ++ x6 ++ x7) lo n =
      cut (m := 6+2+4+6+6+4+1+3) (x0 ++ 0#2 ++ x2 ++ 0#6 ++ x4.code ++ x5 ++ x6 ++ x7) lo n := rfl
  simp (disch := omega) only [formMRD, specAt, e, cut_low, cut_high, cut_all, Nat.reduceSub, Spec.ofCode_code, BitVec.ofNat_eq_ofNat, bne_self_eq_false, Bool.or_self, Bool.false_eq_true, ite_false]

theorem formMBND_enc (k : BitVec 3 → Spec → Guard → Instr) (x0 : BitVec 6) (x2 : BitVec 3) (x3 : Spec) (x5 : Guard) (x6 : BitVec 4) :
    formMBND k (x0 ++ 0#3 ++ x2 ++ x3.code ++ 0#6 ++ x5.code ++ x6) = .ok (k x2 x3 x5) := by
  have e (lo n) : fld (x0 ++ 0#3 ++ x2 ++ x3.code ++ 0#6 ++ x5.code ++ x6) lo n =
      cut (m := 6+3+3+6+6+4+4) (x0 ++ 0#3 ++ x2 ++ x3.code ++ 0#6 ++ x5.code ++ x6) lo n := rfl
  simp (disch := omega) only [formMBND, specAt, guardAt_four, guardAt_six, e, cut_low, cut_high, cut_all, Nat.reduceSub, Spec.ofCode_code, guard_sense_code, guard_p_code, BitVec.ofNat_eq_ofNat, bne_self_eq_false, Bool.or_self, Bool.false_eq_true, ite_false]

theorem op_6_4_4_4_4_4_6 (x0 : BitVec 6) (x1 : BitVec 4) (x2 : BitVec 4) (x3 : BitVec 4) (x4 : BitVec 4) (x5 : BitVec 4) (x6 : BitVec 6) : fld (x0 ++ x1 ++ x2 ++ x3 ++ x4 ++ x5 ++ x6) 26 6 = x0 := by
  show cut (m := 6+4+4+4+4+4+6) (x0 ++ x1 ++ x2 ++ x3 ++ x4 ++ x5 ++ x6) 26 6 = x0
  simp (disch := omega) only [cut_high, cut_all, Nat.reduceSub]

theorem fn0_6_4_4_4_4_4_6 (x0 : BitVec 6) (x1 : BitVec 4) (x2 : BitVec 4) (x3 : BitVec 4) (x4 : BitVec 4) (x5 : BitVec 4) (x6 : BitVec 6) : fld (x0 ++ x1 ++ x2 ++ x3 ++ x4 ++ x5 ++ x6) 0 6 = x6 := by
  show cut (m := 6+4+4+4+4+4+6) (x0 ++ x1 ++ x2 ++ x3 ++ x4 ++ x5 ++ x6) 0 6 = x6
  simp (disch := omega) only [cut_low, cut_high, cut_all, Nat.reduceSub]

theorem formV3_enc (k : BitVec 4 → BitVec 4 → BitVec 4 → BitVec 4 → Guard → Instr) (x0 : BitVec 6) (x1 : BitVec 4) (x2 : BitVec 4) (x3 : BitVec 4) (x4 : BitVec 4) (x5 : Guard) (x6 : BitVec 6) :
    formV3 k (x0 ++ x1 ++ x2 ++ x3 ++ x4 ++ x5.code ++ x6) = .ok (k x1 x2 x3 x4 x5) := by
  have e (lo n) : fld (x0 ++ x1 ++ x2 ++ x3 ++ x4 ++ x5.code ++ x6) lo n =
      cut (m := 6+4+4+4+4+4+6) (x0 ++ x1 ++ x2 ++ x3 ++ x4 ++ x5.code ++ x6) lo n := rfl
  simp (disch := omega) only [formV3, guardAt_four, guardAt_six, e, cut_low, cut_high, cut_all, Nat.reduceSub, guard_sense_code, guard_p_code]

theorem formV2_enc (k : BitVec 4 → BitVec 4 → BitVec 4 → Guard → Instr) (x0 : BitVec 6) (x1 : BitVec 4) (x2 : BitVec 4) (x4 : BitVec 4) (x5 : Guard) (x6 : BitVec 6) :
    formV2 k (x0 ++ x1 ++ x2 ++ 0#4 ++ x4 ++ x5.code ++ x6) = .ok (k x1 x2 x4 x5) := by
  have e (lo n) : fld (x0 ++ x1 ++ x2 ++ 0#4 ++ x4 ++ x5.code ++ x6) lo n =
      cut (m := 6+4+4+4+4+4+6) (x0 ++ x1 ++ x2 ++ 0#4 ++ x4 ++ x5.code ++ x6) lo n := rfl
  simp (disch := omega) only [formV2, guardAt_four, guardAt_six, e, cut_low, cut_high, cut_all, Nat.reduceSub, guard_sense_code, guard_p_code, BitVec.ofNat_eq_ofNat, bne_self_eq_false, Bool.or_self, Bool.false_eq_true, ite_false]

theorem op_6_4_4_2_2_4_4_6 (x0 : BitVec 6) (x1 : BitVec 4) (x2 : BitVec 4) (x3 : BitVec 2) (x4 : BitVec 2) (x5 : BitVec 4) (x6 : BitVec 4) (x7 : BitVec 6) : fld (x0 ++ x1 ++ x2 ++ x3 ++ x4 ++ x5 ++ x6 ++ x7) 26 6 = x0 := by
  show cut (m := 6+4+4+2+2+4+4+6) (x0 ++ x1 ++ x2 ++ x3 ++ x4 ++ x5 ++ x6 ++ x7) 26 6 = x0
  simp (disch := omega) only [cut_high, cut_all, Nat.reduceSub]

theorem fn0_6_4_4_2_2_4_4_6 (x0 : BitVec 6) (x1 : BitVec 4) (x2 : BitVec 4) (x3 : BitVec 2) (x4 : BitVec 2) (x5 : BitVec 4) (x6 : BitVec 4) (x7 : BitVec 6) : fld (x0 ++ x1 ++ x2 ++ x3 ++ x4 ++ x5 ++ x6 ++ x7) 0 6 = x7 := by
  show cut (m := 6+4+4+2+2+4+4+6) (x0 ++ x1 ++ x2 ++ x3 ++ x4 ++ x5 ++ x6 ++ x7) 0 6 = x7
  simp (disch := omega) only [cut_low, cut_high, cut_all, Nat.reduceSub]

theorem formVCVT_enc (k : BitVec 4 → BitVec 4 → BitVec 2 → BitVec 4 → Guard → Instr) (x0 : BitVec 6) (x1 : BitVec 4) (x2 : BitVec 4) (x4 : BitVec 2) (x5 : BitVec 4) (x6 : Guard) (x7 : BitVec 6) :
    formVCVT k (x0 ++ x1 ++ x2 ++ 0#2 ++ x4 ++ x5 ++ x6.code ++ x7) = .ok (k x1 x2 x4 x5 x6) := by
  have e (lo n) : fld (x0 ++ x1 ++ x2 ++ 0#2 ++ x4 ++ x5 ++ x6.code ++ x7) lo n =
      cut (m := 6+4+4+2+2+4+4+6) (x0 ++ x1 ++ x2 ++ 0#2 ++ x4 ++ x5 ++ x6.code ++ x7) lo n := rfl
  simp (disch := omega) only [formVCVT, guardAt_four, guardAt_six, e, cut_low, cut_high, cut_all, Nat.reduceSub, guard_sense_code, guard_p_code, BitVec.ofNat_eq_ofNat, bne_self_eq_false, Bool.or_self, Bool.false_eq_true, ite_false]

theorem op_6_5_3_8_4_6 (x0 : BitVec 6) (x1 : BitVec 5) (x2 : BitVec 3) (x3 : BitVec 8) (x4 : BitVec 4) (x5 : BitVec 6) : fld (x0 ++ x1 ++ x2 ++ x3 ++ x4 ++ x5) 26 6 = x0 := by
  show cut (m := 6+5+3+8+4+6) (x0 ++ x1 ++ x2 ++ x3 ++ x4 ++ x5) 26 6 = x0
  simp (disch := omega) only [cut_high, cut_all, Nat.reduceSub]

theorem fn0_6_5_3_8_4_6 (x0 : BitVec 6) (x1 : BitVec 5) (x2 : BitVec 3) (x3 : BitVec 8) (x4 : BitVec 4) (x5 : BitVec 6) : fld (x0 ++ x1 ++ x2 ++ x3 ++ x4 ++ x5) 0 6 = x5 := by
  show cut (m := 6+5+3+8+4+6) (x0 ++ x1 ++ x2 ++ x3 ++ x4 ++ x5) 0 6 = x5
  simp (disch := omega) only [cut_low, cut_high, cut_all, Nat.reduceSub]

theorem formVSHP_enc (k : BitVec 3 → Guard → Instr) (x0 : BitVec 6) (x2 : BitVec 3) (x4 : Guard) (x5 : BitVec 6) :
    formVSHP k (x0 ++ 0#5 ++ x2 ++ 0#8 ++ x4.code ++ x5) = .ok (k x2 x4) := by
  have e (lo n) : fld (x0 ++ 0#5 ++ x2 ++ 0#8 ++ x4.code ++ x5) lo n =
      cut (m := 6+5+3+8+4+6) (x0 ++ 0#5 ++ x2 ++ 0#8 ++ x4.code ++ x5) lo n := rfl
  simp (disch := omega) only [formVSHP, guardAt_four, guardAt_six, e, cut_low, cut_high, cut_all, Nat.reduceSub, guard_sense_code, guard_p_code, BitVec.ofNat_eq_ofNat, bne_self_eq_false, Bool.or_self, Bool.false_eq_true, ite_false]

theorem op_6_4_4_2_1_1_4_4_6 (x0 : BitVec 6) (x1 : BitVec 4) (x2 : BitVec 4) (x3 : BitVec 2) (x4 : BitVec 1) (x5 : BitVec 1) (x6 : BitVec 4) (x7 : BitVec 4) (x8 : BitVec 6) : fld (x0 ++ x1 ++ x2 ++ x3 ++ x4 ++ x5 ++ x6 ++ x7 ++ x8) 26 6 = x0 := by
  show cut (m := 6+4+4+2+1+1+4+4+6) (x0 ++ x1 ++ x2 ++ x3 ++ x4 ++ x5 ++ x6 ++ x7 ++ x8) 26 6 = x0
  simp (disch := omega) only [cut_high, cut_all, Nat.reduceSub]

theorem fn0_6_4_4_2_1_1_4_4_6 (x0 : BitVec 6) (x1 : BitVec 4) (x2 : BitVec 4) (x3 : BitVec 2) (x4 : BitVec 1) (x5 : BitVec 1) (x6 : BitVec 4) (x7 : BitVec 4) (x8 : BitVec 6) : fld (x0 ++ x1 ++ x2 ++ x3 ++ x4 ++ x5 ++ x6 ++ x7 ++ x8) 0 6 = x8 := by
  show cut (m := 6+4+4+2+1+1+4+4+6) (x0 ++ x1 ++ x2 ++ x3 ++ x4 ++ x5 ++ x6 ++ x7 ++ x8) 0 6 = x8
  simp (disch := omega) only [cut_low, cut_high, cut_all, Nat.reduceSub]

theorem formVRED_enc (k : BitVec 4 → BitVec 4 → BitVec 2 → BitVec 1 → BitVec 4 → Guard → Instr) (x0 : BitVec 6) (x1 : BitVec 4) (x2 : BitVec 4) (x3 : BitVec 2) (x5 : BitVec 1) (x6 : BitVec 4) (x7 : Guard) (x8 : BitVec 6) :
    formVRED k (x0 ++ x1 ++ x2 ++ x3 ++ 0#1 ++ x5 ++ x6 ++ x7.code ++ x8) = .ok (k x1 x2 x3 x5 x6 x7) := by
  have e (lo n) : fld (x0 ++ x1 ++ x2 ++ x3 ++ 0#1 ++ x5 ++ x6 ++ x7.code ++ x8) lo n =
      cut (m := 6+4+4+2+1+1+4+4+6) (x0 ++ x1 ++ x2 ++ x3 ++ 0#1 ++ x5 ++ x6 ++ x7.code ++ x8) lo n := rfl
  simp (disch := omega) only [formVRED, guardAt_four, guardAt_six, e, cut_low, cut_high, cut_all, Nat.reduceSub, guard_sense_code, guard_p_code, BitVec.ofNat_eq_ofNat, bne_self_eq_false, Bool.or_self, Bool.false_eq_true, ite_false]

theorem op_6_4_1_3_4_4_4_6 (x0 : BitVec 6) (x1 : BitVec 4) (x2 : BitVec 1) (x3 : BitVec 3) (x4 : BitVec 4) (x5 : BitVec 4) (x6 : BitVec 4) (x7 : BitVec 6) : fld (x0 ++ x1 ++ x2 ++ x3 ++ x4 ++ x5 ++ x6 ++ x7) 26 6 = x0 := by
  show cut (m := 6+4+1+3+4+4+4+6) (x0 ++ x1 ++ x2 ++ x3 ++ x4 ++ x5 ++ x6 ++ x7) 26 6 = x0
  simp (disch := omega) only [cut_high, cut_all, Nat.reduceSub]

theorem fn0_6_4_1_3_4_4_4_6 (x0 : BitVec 6) (x1 : BitVec 4) (x2 : BitVec 1) (x3 : BitVec 3) (x4 : BitVec 4) (x5 : BitVec 4) (x6 : BitVec 4) (x7 : BitVec 6) : fld (x0 ++ x1 ++ x2 ++ x3 ++ x4 ++ x5 ++ x6 ++ x7) 0 6 = x7 := by
  show cut (m := 6+4+1+3+4+4+4+6) (x0 ++ x1 ++ x2 ++ x3 ++ x4 ++ x5 ++ x6 ++ x7) 0 6 = x7
  simp (disch := omega) only [cut_low, cut_high, cut_all, Nat.reduceSub]

theorem formVBC_enc (k : BitVec 4 → BitVec 3 → BitVec 4 → Guard → Instr) (x0 : BitVec 6) (x1 : BitVec 4) (x3 : BitVec 3) (x5 : BitVec 4) (x6 : Guard) (x7 : BitVec 6) :
    formVBC k (x0 ++ x1 ++ 0#1 ++ x3 ++ 0#4 ++ x5 ++ x6.code ++ x7) = .ok (k x1 x3 x5 x6) := by
  have e (lo n) : fld (x0 ++ x1 ++ 0#1 ++ x3 ++ 0#4 ++ x5 ++ x6.code ++ x7) lo n =
      cut (m := 6+4+1+3+4+4+4+6) (x0 ++ x1 ++ 0#1 ++ x3 ++ 0#4 ++ x5 ++ x6.code ++ x7) lo n := rfl
  simp (disch := omega) only [formVBC, guardAt_four, guardAt_six, e, cut_low, cut_high, cut_all, Nat.reduceSub, guard_sense_code, guard_p_code, BitVec.ofNat_eq_ofNat, bne_self_eq_false, Bool.or_self, Bool.false_eq_true, ite_false]

theorem op_6_4_4_1_3_4_4_6 (x0 : BitVec 6) (x1 : BitVec 4) (x2 : BitVec 4) (x3 : BitVec 1) (x4 : BitVec 3) (x5 : BitVec 4) (x6 : BitVec 4) (x7 : BitVec 6) : fld (x0 ++ x1 ++ x2 ++ x3 ++ x4 ++ x5 ++ x6 ++ x7) 26 6 = x0 := by
  show cut (m := 6+4+4+1+3+4+4+6) (x0 ++ x1 ++ x2 ++ x3 ++ x4 ++ x5 ++ x6 ++ x7) 26 6 = x0
  simp (disch := omega) only [cut_high, cut_all, Nat.reduceSub]

theorem fn0_6_4_4_1_3_4_4_6 (x0 : BitVec 6) (x1 : BitVec 4) (x2 : BitVec 4) (x3 : BitVec 1) (x4 : BitVec 3) (x5 : BitVec 4) (x6 : BitVec 4) (x7 : BitVec 6) : fld (x0 ++ x1 ++ x2 ++ x3 ++ x4 ++ x5 ++ x6 ++ x7) 0 6 = x7 := by
  show cut (m := 6+4+4+1+3+4+4+6) (x0 ++ x1 ++ x2 ++ x3 ++ x4 ++ x5 ++ x6 ++ x7) 0 6 = x7
  simp (disch := omega) only [cut_low, cut_high, cut_all, Nat.reduceSub]

theorem formVROT_enc (k : BitVec 4 → BitVec 4 → BitVec 3 → BitVec 4 → Guard → Instr) (x0 : BitVec 6) (x1 : BitVec 4) (x2 : BitVec 4) (x4 : BitVec 3) (x5 : BitVec 4) (x6 : Guard) (x7 : BitVec 6) :
    formVROT k (x0 ++ x1 ++ x2 ++ 0#1 ++ x4 ++ x5 ++ x6.code ++ x7) = .ok (k x1 x2 x4 x5 x6) := by
  have e (lo n) : fld (x0 ++ x1 ++ x2 ++ 0#1 ++ x4 ++ x5 ++ x6.code ++ x7) lo n =
      cut (m := 6+4+4+1+3+4+4+6) (x0 ++ x1 ++ x2 ++ 0#1 ++ x4 ++ x5 ++ x6.code ++ x7) lo n := rfl
  simp (disch := omega) only [formVROT, guardAt_four, guardAt_six, e, cut_low, cut_high, cut_all, Nat.reduceSub, guard_sense_code, guard_p_code, BitVec.ofNat_eq_ofNat, bne_self_eq_false, Bool.or_self, Bool.false_eq_true, ite_false]

theorem op_6_2_4_6_2_2_2_4_1_3 (x0 : BitVec 6) (x1 : BitVec 2) (x2 : BitVec 4) (x3 : BitVec 6) (x4 : BitVec 2) (x5 : BitVec 2) (x6 : BitVec 2) (x7 : BitVec 4) (x8 : BitVec 1) (x9 : BitVec 3) : fld (x0 ++ x1 ++ x2 ++ x3 ++ x4 ++ x5 ++ x6 ++ x7 ++ x8 ++ x9) 26 6 = x0 := by
  show cut (m := 6+2+4+6+2+2+2+4+1+3) (x0 ++ x1 ++ x2 ++ x3 ++ x4 ++ x5 ++ x6 ++ x7 ++ x8 ++ x9) 26 6 = x0
  simp (disch := omega) only [cut_high, cut_all, Nat.reduceSub]

theorem fn3_6_2_4_6_2_2_2_4_1_3 (x0 : BitVec 6) (x1 : BitVec 2) (x2 : BitVec 4) (x3 : BitVec 6) (x4 : BitVec 2) (x5 : BitVec 2) (x6 : BitVec 2) (x7 : BitVec 4) (x8 : BitVec 1) (x9 : BitVec 3) : fld (x0 ++ x1 ++ x2 ++ x3 ++ x4 ++ x5 ++ x6 ++ x7 ++ x8 ++ x9) 3 1 = x8 := by
  show cut (m := 6+2+4+6+2+2+2+4+1+3) (x0 ++ x1 ++ x2 ++ x3 ++ x4 ++ x5 ++ x6 ++ x7 ++ x8 ++ x9) 3 1 = x8
  simp (disch := omega) only [cut_low, cut_high, cut_all, Nat.reduceSub]

theorem formVM_enc (k : BitVec 4 → Spec → BitVec 2 → BitVec 2 → BitVec 4 → BitVec 3 → Instr) (x0 : BitVec 6) (x2 : BitVec 4) (x3 : Spec) (x5 : BitVec 2) (x6 : BitVec 2) (x7 : BitVec 4) (x8 : BitVec 1) (x9 : BitVec 3) :
    formVM k (x0 ++ 0#2 ++ x2 ++ x3.code ++ 0#2 ++ x5 ++ x6 ++ x7 ++ x8 ++ x9) = .ok (k x2 x3 x5 x6 x7 x9) := by
  have e (lo n) : fld (x0 ++ 0#2 ++ x2 ++ x3.code ++ 0#2 ++ x5 ++ x6 ++ x7 ++ x8 ++ x9) lo n =
      cut (m := 6+2+4+6+2+2+2+4+1+3) (x0 ++ 0#2 ++ x2 ++ x3.code ++ 0#2 ++ x5 ++ x6 ++ x7 ++ x8 ++ x9) lo n := rfl
  simp (disch := omega) only [formVM, specAt, e, cut_low, cut_high, cut_all, Nat.reduceSub, Spec.ofCode_code, BitVec.ofNat_eq_ofNat, bne_self_eq_false, Bool.or_self, Bool.false_eq_true, ite_false]

theorem formTRAP_enc (k : BitVec 12 → Guard → Instr) (x0 : BitVec 6) (x2 : BitVec 12) (x3 : Guard) (x4 : BitVec 4) :
    formTRAP k (x0 ++ 0#6 ++ x2 ++ x3.code ++ x4) = .ok (k x2 x3) := by
  have e (lo n) : fld (x0 ++ 0#6 ++ x2 ++ x3.code ++ x4) lo n =
      cut (m := 6+6+12+4+4) (x0 ++ 0#6 ++ x2 ++ x3.code ++ x4) lo n := rfl
  simp (disch := omega) only [formTRAP, guardAt_four, guardAt_six, e, cut_low, cut_high, cut_all, Nat.reduceSub, guard_sense_code, guard_p_code, BitVec.ofNat_eq_ofNat, bne_self_eq_false, Bool.or_self, Bool.false_eq_true, ite_false]

theorem formSYSR_enc (k : Spec → BitVec 12 → Guard → Instr) (x0 : BitVec 6) (x1 : Spec) (x2 : BitVec 12) (x3 : Guard) (x4 : BitVec 4) :
    formSYSR k (x0 ++ x1.code ++ x2 ++ x3.code ++ x4) = .ok (k x1 x2 x3) := by
  have e (lo n) : fld (x0 ++ x1.code ++ x2 ++ x3.code ++ x4) lo n =
      cut (m := 6+6+12+4+4) (x0 ++ x1.code ++ x2 ++ x3.code ++ x4) lo n := rfl
  simp (disch := omega) only [formSYSR, specAt, guardAt_four, guardAt_six, e, cut_low, cut_high, cut_all, Nat.reduceSub, Spec.ofCode_code, guard_sense_code, guard_p_code]

theorem formSYSW_enc (k : BitVec 6 → Spec → BitVec 6 → Guard → Instr) (x0 : BitVec 6) (x1 : BitVec 6) (x2 : Spec) (x3 : BitVec 6) (x4 : Guard) (x5 : BitVec 4) :
    formSYSW k (x0 ++ x1 ++ x2.code ++ x3 ++ x4.code ++ x5) = .ok (k x1 x2 x3 x4) := by
  have e (lo n) : fld (x0 ++ x1 ++ x2.code ++ x3 ++ x4.code ++ x5) lo n =
      cut (m := 6+6+6+6+4+4) (x0 ++ x1 ++ x2.code ++ x3 ++ x4.code ++ x5) lo n := rfl
  simp (disch := omega) only [formSYSW, specAt, guardAt_four, guardAt_six, e, cut_low, cut_high, cut_all, Nat.reduceSub, Spec.ofCode_code, guard_sense_code, guard_p_code]

theorem formTLBI_enc (k : Spec → BitVec 3 → Guard → Instr) (x0 : BitVec 6) (x2 : Spec) (x4 : BitVec 3) (x5 : Guard) (x6 : BitVec 4) :
    formTLBI k (x0 ++ 0#6 ++ x2.code ++ 0#3 ++ x4 ++ x5.code ++ x6) = .ok (k x2 x4 x5) := by
  have e (lo n) : fld (x0 ++ 0#6 ++ x2.code ++ 0#3 ++ x4 ++ x5.code ++ x6) lo n =
      cut (m := 6+6+6+3+3+4+4) (x0 ++ 0#6 ++ x2.code ++ 0#3 ++ x4 ++ x5.code ++ x6) lo n := rfl
  simp (disch := omega) only [formTLBI, specAt, guardAt_four, guardAt_six, e, cut_low, cut_high, cut_all, Nat.reduceSub, Spec.ofCode_code, guard_sense_code, guard_p_code, BitVec.ofNat_eq_ofNat, bne_self_eq_false, Bool.or_self, Bool.false_eq_true, ite_false]

end Sys2Proof.Laws
end

