-- ==== Sys2Proof/Laws/PerInstr.lean ====
section
/-! SUPPORT. The family Encoding: for each instruction, what decoding its own word gives (04 R63; 22 R350). -/

namespace Sys2Proof.Laws

/-- What decoding an instruction's own word gives: the instruction, where R350 admits it (22 R350; 04 R63). -/
def Encoding.Statement (i : Instr) : Prop :=
  ∀ v, encode i = some v → decode v = if admits i then .ok i else .error .admission

theorem decode_of_fields {v : IWord} {i : Instr} (h : decodeFields v = .ok i) :
    decode v = if admits i then .ok i else .error .admission := by
  rw [decode, h]

theorem Encoding.add (d : Spec) (a : Spec) (b : Spec) (g : Guard) : Encoding.Statement (.add d a b g) := by
  intro v h
  injection h with h
  subst h
  apply decode_of_fields
  rw [decodeFields, op_6_6_6_6_4_4, fn0_6_6_6_6_4_4]
  exact formR3_enc .add _ _ _ _ _ _

theorem Encoding.sub (d : Spec) (a : Spec) (b : Spec) (g : Guard) : Encoding.Statement (.sub d a b g) := by
  intro v h
  injection h with h
  subst h
  apply decode_of_fields
  rw [decodeFields, op_6_6_6_6_4_4, fn0_6_6_6_6_4_4]
  exact formR3_enc .sub _ _ _ _ _ _

theorem Encoding.and (d : Spec) (a : Spec) (b : Spec) (g : Guard) : Encoding.Statement (.and d a b g) := by
  intro v h
  injection h with h
  subst h
  apply decode_of_fields
  rw [decodeFields, op_6_6_6_6_4_4, fn0_6_6_6_6_4_4]
  exact formR3_enc .and _ _ _ _ _ _

theorem Encoding.or (d : Spec) (a : Spec) (b : Spec) (g : Guard) : Encoding.Statement (.or d a b g) := by
  intro v h
  injection h with h
  subst h
  apply decode_of_fields
  rw [decodeFields, op_6_6_6_6_4_4, fn0_6_6_6_6_4_4]
  exact formR3_enc .or _ _ _ _ _ _

theorem Encoding.xor (d : Spec) (a : Spec) (b : Spec) (g : Guard) : Encoding.Statement (.xor d a b g) := by
  intro v h
  injection h with h
  subst h
  apply decode_of_fields
  rw [decodeFields, op_6_6_6_6_4_4, fn0_6_6_6_6_4_4]
  exact formR3_enc .xor _ _ _ _ _ _

theorem Encoding.andn (d : Spec) (a : Spec) (b : Spec) (g : Guard) : Encoding.Statement (.andn d a b g) := by
  intro v h
  injection h with h
  subst h
  apply decode_of_fields
  rw [decodeFields, op_6_6_6_6_4_4, fn0_6_6_6_6_4_4]
  exact formR3_enc .andn _ _ _ _ _ _

theorem Encoding.shl (d : Spec) (a : Spec) (b : Spec) (g : Guard) : Encoding.Statement (.shl d a b g) := by
  intro v h
  injection h with h
  subst h
  apply decode_of_fields
  rw [decodeFields, op_6_6_6_6_4_4, fn0_6_6_6_6_4_4]
  exact formR3_enc .shl _ _ _ _ _ _

theorem Encoding.shr (d : Spec) (a : Spec) (b : Spec) (g : Guard) : Encoding.Statement (.shr d a b g) := by
  intro v h
  injection h with h
  subst h
  apply decode_of_fields
  rw [decodeFields, op_6_6_6_6_4_4, fn0_6_6_6_6_4_4]
  exact formR3_enc .shr _ _ _ _ _ _

theorem Encoding.sar (d : Spec) (a : Spec) (b : Spec) (g : Guard) : Encoding.Statement (.sar d a b g) := by
  intro v h
  injection h with h
  subst h
  apply decode_of_fields
  rw [decodeFields, op_6_6_6_6_4_4, fn0_6_6_6_6_4_4]
  exact formR3_enc .sar _ _ _ _ _ _

theorem Encoding.rol (d : Spec) (a : Spec) (b : Spec) (g : Guard) : Encoding.Statement (.rol d a b g) := by
  intro v h
  injection h with h
  subst h
  apply decode_of_fields
  rw [decodeFields, op_6_6_6_6_4_4, fn0_6_6_6_6_4_4]
  exact formR3_enc .rol _ _ _ _ _ _

theorem Encoding.min (d : Spec) (a : Spec) (b : Spec) (g : Guard) : Encoding.Statement (.min d a b g) := by
  intro v h
  injection h with h
  subst h
  apply decode_of_fields
  rw [decodeFields, op_6_6_6_6_4_4, fn0_6_6_6_6_4_4]
  exact formR3_enc .min _ _ _ _ _ _

theorem Encoding.max (d : Spec) (a : Spec) (b : Spec) (g : Guard) : Encoding.Statement (.max d a b g) := by
  intro v h
  injection h with h
  subst h
  apply decode_of_fields
  rw [decodeFields, op_6_6_6_6_4_4, fn0_6_6_6_6_4_4]
  exact formR3_enc .max _ _ _ _ _ _

theorem Encoding.minn (d : Spec) (a : Spec) (b : Spec) (g : Guard) : Encoding.Statement (.minn d a b g) := by
  intro v h
  injection h with h
  subst h
  apply decode_of_fields
  rw [decodeFields, op_6_6_6_6_4_4, fn0_6_6_6_6_4_4]
  exact formR3_enc .minn _ _ _ _ _ _

theorem Encoding.maxn (d : Spec) (a : Spec) (b : Spec) (g : Guard) : Encoding.Statement (.maxn d a b g) := by
  intro v h
  injection h with h
  subst h
  apply decode_of_fields
  rw [decodeFields, op_6_6_6_6_4_4, fn0_6_6_6_6_4_4]
  exact formR3_enc .maxn _ _ _ _ _ _

theorem Encoding.mul (d : Spec) (a : Spec) (b : Spec) (g : Guard) : Encoding.Statement (.mul d a b g) := by
  intro v h
  injection h with h
  subst h
  apply decode_of_fields
  rw [decodeFields, op_6_6_6_6_4_4, fn0_6_6_6_6_4_4]
  exact formR3_enc .mul _ _ _ _ _ _

theorem Encoding.mulh (d : Spec) (a : Spec) (b : Spec) (g : Guard) : Encoding.Statement (.mulh d a b g) := by
  intro v h
  injection h with h
  subst h
  apply decode_of_fields
  rw [decodeFields, op_6_6_6_6_4_4, fn0_6_6_6_6_4_4]
  exact formR3_enc .mulh _ _ _ _ _ _

theorem Encoding.mulhn (d : Spec) (a : Spec) (b : Spec) (g : Guard) : Encoding.Statement (.mulhn d a b g) := by
  intro v h
  injection h with h
  subst h
  apply decode_of_fields
  rw [decodeFields, op_6_6_6_6_4_4, fn0_6_6_6_6_4_4]
  exact formR3_enc .mulhn _ _ _ _ _ _

theorem Encoding.clz (d : Spec) (a : Spec) (g : Guard) : Encoding.Statement (.clz d a g) := by
  intro v h
  injection h with h
  subst h
  apply decode_of_fields
  rw [decodeFields, op_6_6_6_6_4_4, fn0_6_6_6_6_4_4]
  exact formR2_enc .clz _ _ _ _ _

theorem Encoding.ctz (d : Spec) (a : Spec) (g : Guard) : Encoding.Statement (.ctz d a g) := by
  intro v h
  injection h with h
  subst h
  apply decode_of_fields
  rw [decodeFields, op_6_6_6_6_4_4, fn0_6_6_6_6_4_4]
  exact formR2_enc .ctz _ _ _ _ _

theorem Encoding.popc (d : Spec) (a : Spec) (g : Guard) : Encoding.Statement (.popc d a g) := by
  intro v h
  injection h with h
  subst h
  apply decode_of_fields
  rw [decodeFields, op_6_6_6_6_4_4, fn0_6_6_6_6_4_4]
  exact formR2_enc .popc _ _ _ _ _

theorem Encoding.brev (d : Spec) (a : Spec) (g : Guard) : Encoding.Statement (.brev d a g) := by
  intro v h
  injection h with h
  subst h
  apply decode_of_fields
  rw [decodeFields, op_6_6_6_6_4_4, fn0_6_6_6_6_4_4]
  exact formR2_enc .brev _ _ _ _ _

theorem Encoding.bswap (d : Spec) (a : Spec) (g : Guard) : Encoding.Statement (.bswap d a g) := by
  intro v h
  injection h with h
  subst h
  apply decode_of_fields
  rw [decodeFields, op_6_6_6_6_4_4, fn0_6_6_6_6_4_4]
  exact formR2_enc .bswap _ _ _ _ _

theorem Encoding.sx8 (d : Spec) (a : Spec) (g : Guard) : Encoding.Statement (.sx8 d a g) := by
  intro v h
  injection h with h
  subst h
  apply decode_of_fields
  rw [decodeFields, op_6_6_6_6_4_4, fn0_6_6_6_6_4_4]
  exact formR2_enc .sx8 _ _ _ _ _

theorem Encoding.sx16 (d : Spec) (a : Spec) (g : Guard) : Encoding.Statement (.sx16 d a g) := by
  intro v h
  injection h with h
  subst h
  apply decode_of_fields
  rw [decodeFields, op_6_6_6_6_4_4, fn0_6_6_6_6_4_4]
  exact formR2_enc .sx16 _ _ _ _ _

theorem Encoding.sx32 (d : Spec) (a : Spec) (g : Guard) : Encoding.Statement (.sx32 d a g) := by
  intro v h
  injection h with h
  subst h
  apply decode_of_fields
  rw [decodeFields, op_6_6_6_6_4_4, fn0_6_6_6_6_4_4]
  exact formR2_enc .sx32 _ _ _ _ _

theorem Encoding.zx8 (d : Spec) (a : Spec) (g : Guard) : Encoding.Statement (.zx8 d a g) := by
  intro v h
  injection h with h
  subst h
  apply decode_of_fields
  rw [decodeFields, op_6_6_6_6_4_4, fn0_6_6_6_6_4_4]
  exact formR2_enc .zx8 _ _ _ _ _

theorem Encoding.zx16 (d : Spec) (a : Spec) (g : Guard) : Encoding.Statement (.zx16 d a g) := by
  intro v h
  injection h with h
  subst h
  apply decode_of_fields
  rw [decodeFields, op_6_6_6_6_4_4, fn0_6_6_6_6_4_4]
  exact formR2_enc .zx16 _ _ _ _ _

theorem Encoding.zx32 (d : Spec) (a : Spec) (g : Guard) : Encoding.Statement (.zx32 d a g) := by
  intro v h
  injection h with h
  subst h
  apply decode_of_fields
  rw [decodeFields, op_6_6_6_6_4_4, fn0_6_6_6_6_4_4]
  exact formR2_enc .zx32 _ _ _ _ _

theorem Encoding.sel (d : Spec) (a : Spec) (b : Spec) (p : BitVec 3) : Encoding.Statement (.sel d a b p) := by
  intro v h
  injection h with h
  subst h
  apply decode_of_fields
  rw [decodeFields, op_6_6_6_6_1_3_4, fn0_6_6_6_6_1_3_4]
  exact formSEL_enc .sel _ _ _ _ _ _

theorem Encoding.abs (d : Spec) (a : Spec) (g : Guard) : Encoding.Statement (.abs d a g) := by
  intro v h
  injection h with h
  subst h
  apply decode_of_fields
  rw [decodeFields, op_6_6_6_6_4_4, fn0_6_6_6_6_4_4]
  exact formR2_enc .abs _ _ _ _ _

theorem Encoding.div (d : Spec) (a : Spec) (b : Spec) (la : BitVec 4) (p : BitVec 3) : Encoding.Statement (.div d a b la p) := by
  intro v h
  injection h with h
  subst h
  apply decode_of_fields
  rw [decodeFields, op_6_6_6_6_4_1_3, fn3_6_6_6_6_4_1_3]
  exact formX3_enc .div _ _ _ _ _ _ _

theorem Encoding.divn (d : Spec) (a : Spec) (b : Spec) (la : BitVec 4) (p : BitVec 3) : Encoding.Statement (.divn d a b la p) := by
  intro v h
  injection h with h
  subst h
  apply decode_of_fields
  rw [decodeFields, op_6_6_6_6_4_1_3, fn3_6_6_6_6_4_1_3]
  exact formX3_enc .divn _ _ _ _ _ _ _

theorem Encoding.rem (d : Spec) (a : Spec) (b : Spec) (la : BitVec 4) (p : BitVec 3) : Encoding.Statement (.rem d a b la p) := by
  intro v h
  injection h with h
  subst h
  apply decode_of_fields
  rw [decodeFields, op_6_6_6_6_4_1_3, fn3_6_6_6_6_4_1_3]
  exact formX3_enc .rem _ _ _ _ _ _ _

theorem Encoding.remn (d : Spec) (a : Spec) (b : Spec) (la : BitVec 4) (p : BitVec 3) : Encoding.Statement (.remn d a b la p) := by
  intro v h
  injection h with h
  subst h
  apply decode_of_fields
  rw [decodeFields, op_6_6_6_6_4_1_3, fn3_6_6_6_6_4_1_3]
  exact formX3_enc .remn _ _ _ _ _ _ _

theorem Encoding.addi (d : Spec) (a : Spec) (imm : BitVec 14) : Encoding.Statement (.addi d a imm) := by
  intro v h
  injection h with h
  subst h
  apply decode_of_fields
  rw [decodeFields, op_6_6_6_14]
  exact formI_enc .addi _ _ _ _

theorem Encoding.andi (d : Spec) (a : Spec) (imm : BitVec 14) : Encoding.Statement (.andi d a imm) := by
  intro v h
  injection h with h
  subst h
  apply decode_of_fields
  rw [decodeFields, op_6_6_6_14]
  exact formI_enc .andi _ _ _ _

theorem Encoding.ori (d : Spec) (a : Spec) (imm : BitVec 14) : Encoding.Statement (.ori d a imm) := by
  intro v h
  injection h with h
  subst h
  apply decode_of_fields
  rw [decodeFields, op_6_6_6_14]
  exact formI_enc .ori _ _ _ _

theorem Encoding.xori (d : Spec) (a : Spec) (imm : BitVec 14) : Encoding.Statement (.xori d a imm) := by
  intro v h
  injection h with h
  subst h
  apply decode_of_fields
  rw [decodeFields, op_6_6_6_14]
  exact formI_enc .xori _ _ _ _

theorem Encoding.shli (d : Spec) (a : Spec) (cnt : BitVec 6) : Encoding.Statement (.shli d a cnt) := by
  intro v h
  injection h with h
  subst h
  apply decode_of_fields
  rw [decodeFields, op_6_6_6_8_6]
  exact formIS_enc .shli _ _ _ _

theorem Encoding.shri (d : Spec) (a : Spec) (cnt : BitVec 6) : Encoding.Statement (.shri d a cnt) := by
  intro v h
  injection h with h
  subst h
  apply decode_of_fields
  rw [decodeFields, op_6_6_6_8_6]
  exact formIS_enc .shri _ _ _ _

theorem Encoding.sari (d : Spec) (a : Spec) (cnt : BitVec 6) : Encoding.Statement (.sari d a cnt) := by
  intro v h
  injection h with h
  subst h
  apply decode_of_fields
  rw [decodeFields, op_6_6_6_8_6]
  exact formIS_enc .sari _ _ _ _

theorem Encoding.muli (d : Spec) (a : Spec) (imm : BitVec 14) : Encoding.Statement (.muli d a imm) := by
  intro v h
  injection h with h
  subst h
  apply decode_of_fields
  rw [decodeFields, op_6_6_6_14]
  exact formI_enc .muli _ _ _ _

theorem Encoding.ceqi (pd : BitVec 3) (a : Spec) (imm : BitVec 14) : Encoding.Statement (.ceqi pd a imm) := by
  intro v h
  injection h with h
  subst h
  apply decode_of_fields
  rw [decodeFields, op_6_3_3_6_14]
  exact formIC_enc .ceqi _ _ _ _

theorem Encoding.clti (pd : BitVec 3) (a : Spec) (imm : BitVec 14) : Encoding.Statement (.clti pd a imm) := by
  intro v h
  injection h with h
  subst h
  apply decode_of_fields
  rw [decodeFields, op_6_3_3_6_14]
  exact formIC_enc .clti _ _ _ _

theorem Encoding.cltni (pd : BitVec 3) (a : Spec) (imm : BitVec 14) : Encoding.Statement (.cltni pd a imm) := by
  intro v h
  injection h with h
  subst h
  apply decode_of_fields
  rw [decodeFields, op_6_3_3_6_14]
  exact formIC_enc .cltni _ _ _ _

theorem Encoding.movh (d : Spec) (imm : BitVec 20) : Encoding.Statement (.movh d imm) := by
  intro v h
  injection h with h
  subst h
  apply decode_of_fields
  rw [decodeFields, op_6_6_20]
  exact formU_enc .movh _ _ _

theorem Encoding.lpca (d : Spec) (imm : BitVec 20) : Encoding.Statement (.lpca d imm) := by
  intro v h
  injection h with h
  subst h
  apply decode_of_fields
  rw [decodeFields, op_6_6_20]
  exact formU_enc .lpca _ _ _

theorem Encoding.ceq (pd : BitVec 3) (a : Spec) (b : Spec) (g : Guard) : Encoding.Statement (.ceq pd a b g) := by
  intro v h
  injection h with h
  subst h
  apply decode_of_fields
  rw [decodeFields, op_6_3_3_6_6_4_4, fn0_6_3_3_6_6_4_4]
  exact formCMP_enc .ceq _ _ _ _ _ _

theorem Encoding.cne (pd : BitVec 3) (a : Spec) (b : Spec) (g : Guard) : Encoding.Statement (.cne pd a b g) := by
  intro v h
  injection h with h
  subst h
  apply decode_of_fields
  rw [decodeFields, op_6_3_3_6_6_4_4, fn0_6_3_3_6_6_4_4]
  exact formCMP_enc .cne _ _ _ _ _ _

theorem Encoding.clt (pd : BitVec 3) (a : Spec) (b : Spec) (g : Guard) : Encoding.Statement (.clt pd a b g) := by
  intro v h
  injection h with h
  subst h
  apply decode_of_fields
  rw [decodeFields, op_6_3_3_6_6_4_4, fn0_6_3_3_6_6_4_4]
  exact formCMP_enc .clt _ _ _ _ _ _

theorem Encoding.cle (pd : BitVec 3) (a : Spec) (b : Spec) (g : Guard) : Encoding.Statement (.cle pd a b g) := by
  intro v h
  injection h with h
  subst h
  apply decode_of_fields
  rw [decodeFields, op_6_3_3_6_6_4_4, fn0_6_3_3_6_6_4_4]
  exact formCMP_enc .cle _ _ _ _ _ _

theorem Encoding.cltn (pd : BitVec 3) (a : Spec) (b : Spec) (g : Guard) : Encoding.Statement (.cltn pd a b g) := by
  intro v h
  injection h with h
  subst h
  apply decode_of_fields
  rw [decodeFields, op_6_3_3_6_6_4_4, fn0_6_3_3_6_6_4_4]
  exact formCMP_enc .cltn _ _ _ _ _ _

theorem Encoding.clen (pd : BitVec 3) (a : Spec) (b : Spec) (g : Guard) : Encoding.Statement (.clen pd a b g) := by
  intro v h
  injection h with h
  subst h
  apply decode_of_fields
  rw [decodeFields, op_6_3_3_6_6_4_4, fn0_6_3_3_6_6_4_4]
  exact formCMP_enc .clen _ _ _ _ _ _

theorem Encoding.ctst (pd : BitVec 3) (a : Spec) (b : Spec) (g : Guard) : Encoding.Statement (.ctst pd a b g) := by
  intro v h
  injection h with h
  subst h
  apply decode_of_fields
  rw [decodeFields, op_6_3_3_6_6_4_4, fn0_6_3_3_6_6_4_4]
  exact formCMP_enc .ctst _ _ _ _ _ _

theorem Encoding.pand (pd : BitVec 3) (pa : BitVec 3) (pb : BitVec 3) (g : Guard) : Encoding.Statement (.pand pd pa pb g) := by
  intro v h
  injection h with h
  subst h
  apply decode_of_fields
  rw [decodeFields, op_6_3_3_3_3_3_3_4_4, fn0_6_3_3_3_3_3_3_4_4]
  exact formPRED_enc .pand _ _ _ _ _ _

theorem Encoding.por (pd : BitVec 3) (pa : BitVec 3) (pb : BitVec 3) (g : Guard) : Encoding.Statement (.por pd pa pb g) := by
  intro v h
  injection h with h
  subst h
  apply decode_of_fields
  rw [decodeFields, op_6_3_3_3_3_3_3_4_4, fn0_6_3_3_3_3_3_3_4_4]
  exact formPRED_enc .por _ _ _ _ _ _

theorem Encoding.pxor (pd : BitVec 3) (pa : BitVec 3) (pb : BitVec 3) (g : Guard) : Encoding.Statement (.pxor pd pa pb g) := by
  intro v h
  injection h with h
  subst h
  apply decode_of_fields
  rw [decodeFields, op_6_3_3_3_3_3_3_4_4, fn0_6_3_3_3_3_3_3_4_4]
  exact formPRED_enc .pxor _ _ _ _ _ _

theorem Encoding.pandn (pd : BitVec 3) (pa : BitVec 3) (pb : BitVec 3) (g : Guard) : Encoding.Statement (.pandn pd pa pb g) := by
  intro v h
  injection h with h
  subst h
  apply decode_of_fields
  rw [decodeFields, op_6_3_3_3_3_3_3_4_4, fn0_6_3_3_3_3_3_3_4_4]
  exact formPRED_enc .pandn _ _ _ _ _ _

theorem Encoding.pget (d : Spec) (g : Guard) : Encoding.Statement (.pget d g) := by
  intro v h
  injection h with h
  subst h
  apply decode_of_fields
  rw [decodeFields, op_6_6_12_4_4, fn0_6_6_12_4_4]
  exact formPGET_enc .pget _ _ _ _

theorem Encoding.pput (a : Spec) (g : Guard) : Encoding.Statement (.pput a g) := by
  intro v h
  injection h with h
  subst h
  apply decode_of_fields
  rw [decodeFields, op_6_6_6_6_4_4, fn0_6_6_6_6_4_4]
  exact formPPUT_enc .pput _ _ _ _

theorem Encoding.fadd (d : Spec) (a : Spec) (b : Spec) (g : Guard) : Encoding.Statement (.fadd d a b g) := by
  intro v h
  injection h with h
  subst h
  apply decode_of_fields
  rw [decodeFields, op_6_6_6_6_4_4, fn0_6_6_6_6_4_4]
  exact formR3_enc .fadd _ _ _ _ _ _

theorem Encoding.fsub (d : Spec) (a : Spec) (b : Spec) (g : Guard) : Encoding.Statement (.fsub d a b g) := by
  intro v h
  injection h with h
  subst h
  apply decode_of_fields
  rw [decodeFields, op_6_6_6_6_4_4, fn0_6_6_6_6_4_4]
  exact formR3_enc .fsub _ _ _ _ _ _

theorem Encoding.fmul (d : Spec) (a : Spec) (b : Spec) (g : Guard) : Encoding.Statement (.fmul d a b g) := by
  intro v h
  injection h with h
  subst h
  apply decode_of_fields
  rw [decodeFields, op_6_6_6_6_4_4, fn0_6_6_6_6_4_4]
  exact formR3_enc .fmul _ _ _ _ _ _

theorem Encoding.ffma (d : Spec) (a : Spec) (b : Spec) (g : Guard) : Encoding.Statement (.ffma d a b g) := by
  intro v h
  injection h with h
  subst h
  apply decode_of_fields
  rw [decodeFields, op_6_6_6_6_4_4, fn0_6_6_6_6_4_4]
  exact formR3_enc .ffma _ _ _ _ _ _

theorem Encoding.fmin (d : Spec) (a : Spec) (b : Spec) (g : Guard) : Encoding.Statement (.fmin d a b g) := by
  intro v h
  injection h with h
  subst h
  apply decode_of_fields
  rw [decodeFields, op_6_6_6_6_4_4, fn0_6_6_6_6_4_4]
  exact formR3_enc .fmin _ _ _ _ _ _

theorem Encoding.fmax (d : Spec) (a : Spec) (b : Spec) (g : Guard) : Encoding.Statement (.fmax d a b g) := by
  intro v h
  injection h with h
  subst h
  apply decode_of_fields
  rw [decodeFields, op_6_6_6_6_4_4, fn0_6_6_6_6_4_4]
  exact formR3_enc .fmax _ _ _ _ _ _

theorem Encoding.fcvt (d : Spec) (a : Spec) (ty : BitVec 4) (rm : BitVec 2) (g : Guard) : Encoding.Statement (.fcvt d a ty rm g) := by
  intro v h
  injection h with h
  subst h
  apply decode_of_fields
  rw [decodeFields, op_6_6_6_4_2_4_4, fn0_6_6_6_4_2_4_4]
  exact formFCVT_enc .fcvt _ _ _ _ _ _ _

theorem Encoding.fceq (pd : BitVec 3) (a : Spec) (b : Spec) (g : Guard) : Encoding.Statement (.fceq pd a b g) := by
  intro v h
  injection h with h
  subst h
  apply decode_of_fields
  rw [decodeFields, op_6_3_3_6_6_4_4, fn0_6_3_3_6_6_4_4]
  exact formCMP_enc .fceq _ _ _ _ _ _

theorem Encoding.fclt (pd : BitVec 3) (a : Spec) (b : Spec) (g : Guard) : Encoding.Statement (.fclt pd a b g) := by
  intro v h
  injection h with h
  subst h
  apply decode_of_fields
  rw [decodeFields, op_6_3_3_6_6_4_4, fn0_6_3_3_6_6_4_4]
  exact formCMP_enc .fclt _ _ _ _ _ _

theorem Encoding.fcle (pd : BitVec 3) (a : Spec) (b : Spec) (g : Guard) : Encoding.Statement (.fcle pd a b g) := by
  intro v h
  injection h with h
  subst h
  apply decode_of_fields
  rw [decodeFields, op_6_3_3_6_6_4_4, fn0_6_3_3_6_6_4_4]
  exact formCMP_enc .fcle _ _ _ _ _ _

theorem Encoding.fcls (pd : BitVec 3) (a : Spec) (mask : BitVec 6) (g : Guard) : Encoding.Statement (.fcls pd a mask g) := by
  intro v h
  injection h with h
  subst h
  apply decode_of_fields
  rw [decodeFields, op_6_3_3_6_6_4_4, fn0_6_3_3_6_6_4_4]
  exact formFCLS_enc .fcls _ _ _ _ _ _

theorem Encoding.fdiv (d : Spec) (a : Spec) (b : Spec) (la : BitVec 4) (p : BitVec 3) : Encoding.Statement (.fdiv d a b la p) := by
  intro v h
  injection h with h
  subst h
  apply decode_of_fields
  rw [decodeFields, op_6_6_6_6_4_1_3, fn3_6_6_6_6_4_1_3]
  exact formX3_enc .fdiv _ _ _ _ _ _ _

theorem Encoding.fsqr (d : Spec) (a : Spec) (la : BitVec 4) (p : BitVec 3) : Encoding.Statement (.fsqr d a la p) := by
  intro v h
  injection h with h
  subst h
  apply decode_of_fields
  rw [decodeFields, op_6_6_6_6_4_1_3, fn3_6_6_6_6_4_1_3]
  exact formX2_enc .fsqr _ _ _ _ _ _

theorem Encoding.b (p : BitVec 3) (sense : BitVec 1) (off : BitVec 22) : Encoding.Statement (.b p sense off) := by
  intro v h
  injection h with h
  subst h
  apply decode_of_fields
  rw [decodeFields, op_6_3_1_22]
  exact formB_enc .b _ _ _ _

theorem Encoding.bl (p : BitVec 3) (sense : BitVec 1) (off : BitVec 22) : Encoding.Statement (.bl p sense off) := by
  intro v h
  injection h with h
  subst h
  apply decode_of_fields
  rw [decodeFields, op_6_3_1_22]
  exact formB_enc .bl _ _ _ _

theorem Encoding.jr (a : Spec) (g : Guard) : Encoding.Statement (.jr a g) := by
  intro v h
  injection h with h
  subst h
  apply decode_of_fields
  rw [decodeFields, op_6_6_6_6_4_4, fn0_6_6_6_6_4_4]
  exact formRA_enc .jr _ _ _ _

theorem Encoding.jlr (d : Spec) (a : Spec) (g : Guard) : Encoding.Statement (.jlr d a g) := by
  intro v h
  injection h with h
  subst h
  apply decode_of_fields
  rw [decodeFields, op_6_6_6_6_4_4, fn0_6_6_6_6_4_4]
  exact formR2_enc .jlr _ _ _ _ _

theorem Encoding.brk (n : BitVec 6) (g : Guard) : Encoding.Statement (.brk n g) := by
  intro v h
  injection h with h
  subst h
  apply decode_of_fields
  rw [decodeFields, op_6_12_6_4_4, fn0_6_12_6_4_4]
  exact formBRK_enc .brk _ _ _ _

theorem Encoding.wjoin (a : Spec) (b : Spec) (g : Guard) : Encoding.Statement (.wjoin a b g) := by
  intro v h
  injection h with h
  subst h
  apply decode_of_fields
  rw [decodeFields, op_6_6_6_6_4_4, fn0_6_6_6_6_4_4]
  exact formRAB_enc .wjoin _ _ _ _ _

theorem Encoding.wleave (a : Spec) (g : Guard) : Encoding.Statement (.wleave a g) := by
  intro v h
  injection h with h
  subst h
  apply decode_of_fields
  rw [decodeFields, op_6_6_6_6_4_4, fn0_6_6_6_6_4_4]
  exact formRA_enc .wleave _ _ _ _

theorem Encoding.wwork (g : Guard) : Encoding.Statement (.wwork g) := by
  intro v h
  injection h with h
  subst h
  apply decode_of_fields
  rw [decodeFields, op_6_18_4_4, fn0_6_18_4_4]
  exact formR0_enc .wwork _ _ _

theorem Encoding.wsafe (g : Guard) : Encoding.Statement (.wsafe g) := by
  intro v h
  injection h with h
  subst h
  apply decode_of_fields
  rw [decodeFields, op_6_18_4_4, fn0_6_18_4_4]
  exact formR0_enc .wsafe _ _ _

theorem Encoding.loop (c : Spec) (eo : BitVec 14) : Encoding.Statement (.loop c eo) := by
  intro v h
  injection h with h
  subst h
  apply decode_of_fields
  rw [decodeFields, op_6_6_6_14]
  exact formLOOP_enc .loop _ _ _

theorem Encoding.loopi (n : BitVec 12) (eo : BitVec 14) : Encoding.Statement (.loopi n eo) := by
  intro v h
  injection h with h
  subst h
  apply decode_of_fields
  rw [decodeFields, op_6_12_14]
  exact formLOOPI_enc .loopi _ _ _

theorem Encoding.ld8s (t : Spec) (base : Spec) (am : BitVec 2) (rd : BitVec 2) (la : BitVec 4) (p : BitVec 3) : Encoding.Statement (.ld8s t base am rd la p) := by
  intro v h
  injection h with h
  subst h
  apply decode_of_fields
  rw [decodeFields, op_6_6_6_2_2_4_3_3, fn0_6_6_6_2_2_4_3_3]
  exact formM_enc .ld8s _ _ _ _ _ _ _ _

theorem Encoding.ld8z (t : Spec) (base : Spec) (am : BitVec 2) (rd : BitVec 2) (la : BitVec 4) (p : BitVec 3) : Encoding.Statement (.ld8z t base am rd la p) := by
  intro v h
  injection h with h
  subst h
  apply decode_of_fields
  rw [decodeFields, op_6_6_6_2_2_4_3_3, fn0_6_6_6_2_2_4_3_3]
  exact formM_enc .ld8z _ _ _ _ _ _ _ _

theorem Encoding.ld16s (t : Spec) (base : Spec) (am : BitVec 2) (rd : BitVec 2) (la : BitVec 4) (p : BitVec 3) : Encoding.Statement (.ld16s t base am rd la p) := by
  intro v h
  injection h with h
  subst h
  apply decode_of_fields
  rw [decodeFields, op_6_6_6_2_2_4_3_3, fn0_6_6_6_2_2_4_3_3]
  exact formM_enc .ld16s _ _ _ _ _ _ _ _

theorem Encoding.ld16z (t : Spec) (base : Spec) (am : BitVec 2) (rd : BitVec 2) (la : BitVec 4) (p : BitVec 3) : Encoding.Statement (.ld16z t base am rd la p) := by
  intro v h
  injection h with h
  subst h
  apply decode_of_fields
  rw [decodeFields, op_6_6_6_2_2_4_3_3, fn0_6_6_6_2_2_4_3_3]
  exact formM_enc .ld16z _ _ _ _ _ _ _ _

theorem Encoding.ld32s (t : Spec) (base : Spec) (am : BitVec 2) (rd : BitVec 2) (la : BitVec 4) (p : BitVec 3) : Encoding.Statement (.ld32s t base am rd la p) := by
  intro v h
  injection h with h
  subst h
  apply decode_of_fields
  rw [decodeFields, op_6_6_6_2_2_4_3_3, fn0_6_6_6_2_2_4_3_3]
  exact formM_enc .ld32s _ _ _ _ _ _ _ _

theorem Encoding.ld32z (t : Spec) (base : Spec) (am : BitVec 2) (rd : BitVec 2) (la : BitVec 4) (p : BitVec 3) : Encoding.Statement (.ld32z t base am rd la p) := by
  intro v h
  injection h with h
  subst h
  apply decode_of_fields
  rw [decodeFields, op_6_6_6_2_2_4_3_3, fn0_6_6_6_2_2_4_3_3]
  exact formM_enc .ld32z _ _ _ _ _ _ _ _

theorem Encoding.ld64 (t : Spec) (base : Spec) (am : BitVec 2) (rd : BitVec 2) (la : BitVec 4) (p : BitVec 3) : Encoding.Statement (.ld64 t base am rd la p) := by
  intro v h
  injection h with h
  subst h
  apply decode_of_fields
  rw [decodeFields, op_6_6_6_2_2_4_3_3, fn0_6_6_6_2_2_4_3_3]
  exact formM_enc .ld64 _ _ _ _ _ _ _ _

theorem Encoding.ld128 (t : Spec) (base : Spec) (am : BitVec 2) (rd : BitVec 2) (la : BitVec 4) (p : BitVec 3) : Encoding.Statement (.ld128 t base am rd la p) := by
  intro v h
  injection h with h
  subst h
  apply decode_of_fields
  rw [decodeFields, op_6_6_6_2_2_4_3_3, fn0_6_6_6_2_2_4_3_3]
  exact formM_enc .ld128 _ _ _ _ _ _ _ _

theorem Encoding.lda32 (t : Spec) (base : Spec) (am : BitVec 2) (la : BitVec 4) (p : BitVec 3) (sc : BitVec 3) : Encoding.Statement (.lda32 t base am la p sc) := by
  intro v h
  injection h with h
  subst h
  apply decode_of_fields
  rw [decodeFields, op_6_6_6_2_2_4_3_3, fn10_6_6_6_2_2_4_3_3]
  exact formMA_enc .lda32 _ _ _ _ _ _ _ _

theorem Encoding.lda64 (t : Spec) (base : Spec) (am : BitVec 2) (la : BitVec 4) (p : BitVec 3) (sc : BitVec 3) : Encoding.Statement (.lda64 t base am la p sc) := by
  intro v h
  injection h with h
  subst h
  apply decode_of_fields
  rw [decodeFields, op_6_6_6_2_2_4_3_3, fn10_6_6_6_2_2_4_3_3]
  exact formMA_enc .lda64 _ _ _ _ _ _ _ _

theorem Encoding.st8 (t : Spec) (base : Spec) (am : BitVec 2) (rd : BitVec 2) (la : BitVec 4) (p : BitVec 3) : Encoding.Statement (.st8 t base am rd la p) := by
  intro v h
  injection h with h
  subst h
  apply decode_of_fields
  rw [decodeFields, op_6_6_6_2_2_4_3_3, fn0_6_6_6_2_2_4_3_3]
  exact formM_enc .st8 _ _ _ _ _ _ _ _

theorem Encoding.st16 (t : Spec) (base : Spec) (am : BitVec 2) (rd : BitVec 2) (la : BitVec 4) (p : BitVec 3) : Encoding.Statement (.st16 t base am rd la p) := by
  intro v h
  injection h with h
  subst h
  apply decode_of_fields
  rw [decodeFields, op_6_6_6_2_2_4_3_3, fn0_6_6_6_2_2_4_3_3]
  exact formM_enc .st16 _ _ _ _ _ _ _ _

theorem Encoding.st32 (t : Spec) (base : Spec) (am : BitVec 2) (rd : BitVec 2) (la : BitVec 4) (p : BitVec 3) : Encoding.Statement (.st32 t base am rd la p) := by
  intro v h
  injection h with h
  subst h
  apply decode_of_fields
  rw [decodeFields, op_6_6_6_2_2_4_3_3, fn0_6_6_6_2_2_4_3_3]
  exact formM_enc .st32 _ _ _ _ _ _ _ _

theorem Encoding.st64 (t : Spec) (base : Spec) (am : BitVec 2) (rd : BitVec 2) (la : BitVec 4) (p : BitVec 3) : Encoding.Statement (.st64 t base am rd la p) := by
  intro v h
  injection h with h
  subst h
  apply decode_of_fields
  rw [decodeFields, op_6_6_6_2_2_4_3_3, fn0_6_6_6_2_2_4_3_3]
  exact formM_enc .st64 _ _ _ _ _ _ _ _

theorem Encoding.st128 (t : Spec) (base : Spec) (am : BitVec 2) (rd : BitVec 2) (la : BitVec 4) (p : BitVec 3) : Encoding.Statement (.st128 t base am rd la p) := by
  intro v h
  injection h with h
  subst h
  apply decode_of_fields
  rw [decodeFields, op_6_6_6_2_2_4_3_3, fn0_6_6_6_2_2_4_3_3]
  exact formM_enc .st128 _ _ _ _ _ _ _ _

theorem Encoding.stl32 (t : Spec) (base : Spec) (am : BitVec 2) (la : BitVec 4) (p : BitVec 3) (sc : BitVec 3) : Encoding.Statement (.stl32 t base am la p sc) := by
  intro v h
  injection h with h
  subst h
  apply decode_of_fields
  rw [decodeFields, op_6_6_6_2_2_4_3_3, fn10_6_6_6_2_2_4_3_3]
  exact formMA_enc .stl32 _ _ _ _ _ _ _ _

theorem Encoding.stl64 (t : Spec) (base : Spec) (am : BitVec 2) (la : BitVec 4) (p : BitVec 3) (sc : BitVec 3) : Encoding.Statement (.stl64 t base am la p sc) := by
  intro v h
  injection h with h
  subst h
  apply decode_of_fields
  rw [decodeFields, op_6_6_6_2_2_4_3_3, fn10_6_6_6_2_2_4_3_3]
  exact formMA_enc .stl64 _ _ _ _ _ _ _ _

theorem Encoding.amoadd (d : Spec) (a : Spec) (b : Spec) (la : BitVec 4) (os : BitVec 4) : Encoding.Statement (.amoadd d a b la os) := by
  intro v h
  injection h with h
  subst h
  apply decode_of_fields
  rw [decodeFields, op_6_6_6_6_4_4]
  exact formA_enc .amoadd _ _ _ _ _ _

theorem Encoding.amoand (d : Spec) (a : Spec) (b : Spec) (la : BitVec 4) (os : BitVec 4) : Encoding.Statement (.amoand d a b la os) := by
  intro v h
  injection h with h
  subst h
  apply decode_of_fields
  rw [decodeFields, op_6_6_6_6_4_4]
  exact formA_enc .amoand _ _ _ _ _ _

theorem Encoding.amoor (d : Spec) (a : Spec) (b : Spec) (la : BitVec 4) (os : BitVec 4) : Encoding.Statement (.amoor d a b la os) := by
  intro v h
  injection h with h
  subst h
  apply decode_of_fields
  rw [decodeFields, op_6_6_6_6_4_4]
  exact formA_enc .amoor _ _ _ _ _ _

theorem Encoding.amoxor (d : Spec) (a : Spec) (b : Spec) (la : BitVec 4) (os : BitVec 4) : Encoding.Statement (.amoxor d a b la os) := by
  intro v h
  injection h with h
  subst h
  apply decode_of_fields
  rw [decodeFields, op_6_6_6_6_4_4]
  exact formA_enc .amoxor _ _ _ _ _ _

theorem Encoding.amomin (d : Spec) (a : Spec) (b : Spec) (la : BitVec 4) (os : BitVec 4) : Encoding.Statement (.amomin d a b la os) := by
  intro v h
  injection h with h
  subst h
  apply decode_of_fields
  rw [decodeFields, op_6_6_6_6_4_4]
  exact formA_enc .amomin _ _ _ _ _ _

theorem Encoding.amomax (d : Spec) (a : Spec) (b : Spec) (la : BitVec 4) (os : BitVec 4) : Encoding.Statement (.amomax d a b la os) := by
  intro v h
  injection h with h
  subst h
  apply decode_of_fields
  rw [decodeFields, op_6_6_6_6_4_4]
  exact formA_enc .amomax _ _ _ _ _ _

theorem Encoding.amominn (d : Spec) (a : Spec) (b : Spec) (la : BitVec 4) (os : BitVec 4) : Encoding.Statement (.amominn d a b la os) := by
  intro v h
  injection h with h
  subst h
  apply decode_of_fields
  rw [decodeFields, op_6_6_6_6_4_4]
  exact formA_enc .amominn _ _ _ _ _ _

theorem Encoding.amomaxn (d : Spec) (a : Spec) (b : Spec) (la : BitVec 4) (os : BitVec 4) : Encoding.Statement (.amomaxn d a b la os) := by
  intro v h
  injection h with h
  subst h
  apply decode_of_fields
  rw [decodeFields, op_6_6_6_6_4_4]
  exact formA_enc .amomaxn _ _ _ _ _ _

theorem Encoding.amoswp (d : Spec) (a : Spec) (b : Spec) (la : BitVec 4) (os : BitVec 4) : Encoding.Statement (.amoswp d a b la os) := by
  intro v h
  injection h with h
  subst h
  apply decode_of_fields
  rw [decodeFields, op_6_6_6_6_4_4]
  exact formA_enc .amoswp _ _ _ _ _ _

theorem Encoding.cas (d : Spec) (a : Spec) (b : Spec) (la : BitVec 4) (os : BitVec 4) : Encoding.Statement (.cas d a b la os) := by
  intro v h
  injection h with h
  subst h
  apply decode_of_fields
  rw [decodeFields, op_6_6_6_6_4_4]
  exact formA_enc .cas _ _ _ _ _ _

theorem Encoding.fence (os : BitVec 4) (g : Guard) : Encoding.Statement (.fence os g) := by
  intro v h
  injection h with h
  subst h
  apply decode_of_fields
  rw [decodeFields, op_6_14_4_4_4, fn0_6_14_4_4_4]
  exact formFENCE_enc .fence _ _ _ _

theorem Encoding.drain (path : BitVec 3) (g : Guard) : Encoding.Statement (.drain path g) := by
  intro v h
  injection h with h
  subst h
  apply decode_of_fields
  rw [decodeFields, op_6_15_3_4_4, fn0_6_15_3_4_4]
  exact formDRAIN_enc .drain _ _ _ _

theorem Encoding.mroute (d : Spec) (a : Spec) (g : Guard) : Encoding.Statement (.mroute d a g) := by
  intro v h
  injection h with h
  subst h
  apply decode_of_fields
  rw [decodeFields, op_6_6_6_6_4_4, fn0_6_6_6_6_4_4]
  exact formMROUTE_enc .mroute _ _ _ _ _

theorem Encoding.mprobe (d : Spec) (a : Spec) (g : Guard) : Encoding.Statement (.mprobe d a g) := by
  intro v h
  injection h with h
  subst h
  apply decode_of_fields
  rw [decodeFields, op_6_6_6_6_4_4, fn0_6_6_6_6_4_4]
  exact formMPROBE_enc .mprobe _ _ _ _ _

theorem Encoding.migrate (a : Spec) (g : Guard) : Encoding.Statement (.migrate a g) := by
  intro v h
  injection h with h
  subst h
  apply decode_of_fields
  rw [decodeFields, op_6_6_6_6_4_4, fn0_6_6_6_6_4_4]
  exact formRA_enc .migrate _ _ _ _

theorem Encoding.xcopy (d : Spec) (a : Spec) (ch : BitVec 2) (la : BitVec 4) (p : BitVec 3) : Encoding.Statement (.xcopy d a ch la p) := by
  intro v h
  injection h with h
  subst h
  apply decode_of_fields
  rw [decodeFields, op_6_6_6_4_2_4_1_3, fn3_6_6_6_4_2_4_1_3]
  exact formXCP_enc .xcopy _ _ _ _ _ _ _

theorem Encoding.xred (d : Spec) (a : Spec) (ch : BitVec 2) (la : BitVec 4) (p : BitVec 3) : Encoding.Statement (.xred d a ch la p) := by
  intro v h
  injection h with h
  subst h
  apply decode_of_fields
  rw [decodeFields, op_6_6_6_4_2_4_1_3, fn3_6_6_6_4_2_4_1_3]
  exact formXCP_enc .xred _ _ _ _ _ _ _

theorem Encoding.lease (f : Spec) (kind : BitVec 3) (prio : BitVec 2) (la : BitVec 4) (p : BitVec 3) : Encoding.Statement (.lease f kind prio la p) := by
  intro v h
  injection h with h
  subst h
  apply decode_of_fields
  rw [decodeFields, op_6_6_7_3_2_4_1_3, fn3_6_6_7_3_2_4_1_3]
  exact formLEASE_enc .lease _ _ _ _ _ _ _

theorem Encoding.erd (d : Spec) (f : Spec) (n : BitVec 6) (la : BitVec 4) (p : BitVec 3) : Encoding.Statement (.erd d f n la p) := by
  intro v h
  injection h with h
  subst h
  apply decode_of_fields
  rw [decodeFields, op_6_6_6_6_4_1_3, fn3_6_6_6_6_4_1_3]
  exact formERD_enc .erd _ _ _ _ _ _ _

theorem Encoding.free (f : Spec) (g : Guard) : Encoding.Statement (.free f g) := by
  intro v h
  injection h with h
  subst h
  apply decode_of_fields
  rw [decodeFields, op_6_6_12_4_4, fn0_6_6_12_4_4]
  exact formFREE_enc .free _ _ _ _

theorem Encoding.ewr (f : Spec) (a : Spec) (n : BitVec 6) (g : Guard) : Encoding.Statement (.ewr f a n g) := by
  intro v h
  injection h with h
  subst h
  apply decode_of_fields
  rw [decodeFields, op_6_6_6_6_4_4, fn0_6_6_6_6_4_4]
  exact formEWR_enc .ewr _ _ _ _ _ _

theorem Encoding.eguard (f : Spec) (a : Spec) (sl : BitVec 3) (g : Guard) : Encoding.Statement (.eguard f a sl g) := by
  intro v h
  injection h with h
  subst h
  apply decode_of_fields
  rw [decodeFields, op_6_6_6_3_3_4_4, fn0_6_6_6_3_3_4_4]
  exact formEGUARD_enc .eguard _ _ _ _ _ _

theorem Encoding.gres (pa : BitVec 3) (sl : BitVec 3) (g : Guard) : Encoding.Statement (.gres pa sl g) := by
  intro v h
  injection h with h
  subst h
  apply decode_of_fields
  rw [decodeFields, op_6_9_3_3_3_4_4, fn0_6_9_3_3_3_4_4]
  exact formGRES_enc .gres _ _ _ _ _

theorem Encoding.mstep (ovw : BitVec 1) (n : BitVec 4) (a : Spec) (b : Spec) (la : BitVec 4) (p : BitVec 3) : Encoding.Statement (.mstep ovw n a b la p) := by
  intro v h
  injection h with h
  subst h
  apply decode_of_fields
  rw [decodeFields, op_6_1_1_4_6_6_4_1_3, fn3_6_1_1_4_6_6_4_1_3]
  exact formMSTEP_enc .mstep _ _ _ _ _ _ _ _

theorem Encoding.mwld (fmt : BitVec 4) (a : Spec) (b : Spec) (la : BitVec 4) (p : BitVec 3) : Encoding.Statement (.mwld fmt a b la p) := by
  intro v h
  injection h with h
  subst h
  apply decode_of_fields
  rw [decodeFields, op_6_2_4_6_6_4_1_3, fn3_6_2_4_6_6_4_1_3]
  exact formMWLD_enc .mwld _ _ _ _ _ _ _

theorem Encoding.mst (rm : BitVec 2) (ty : BitVec 4) (a : Spec) (b : Spec) (la : BitVec 4) (p : BitVec 3) : Encoding.Statement (.mst rm ty a b la p) := by
  intro v h
  injection h with h
  subst h
  apply decode_of_fields
  rw [decodeFields, op_6_2_4_6_6_4_1_3, fn3_6_2_4_6_6_4_1_3]
  exact formMST_enc .mst _ _ _ _ _ _ _ _

theorem Encoding.mrd (v : BitVec 4) (b : Spec) (la : BitVec 4) (p : BitVec 3) : Encoding.Statement (.mrd v b la p) := by
  intro v h
  injection h with h
  subst h
  apply decode_of_fields
  rw [decodeFields, op_6_2_4_6_6_4_1_3, fn3_6_2_4_6_6_4_1_3]
  exact formMRD_enc .mrd _ _ _ _ _ _

theorem Encoding.mshape (a : Spec) (g : Guard) : Encoding.Statement (.mshape a g) := by
  intro v h
  injection h with h
  subst h
  apply decode_of_fields
  rw [decodeFields, op_6_6_6_6_4_4, fn0_6_6_6_6_4_4]
  exact formRA_enc .mshape _ _ _ _

theorem Encoding.mfmt (a : Spec) (g : Guard) : Encoding.Statement (.mfmt a g) := by
  intro v h
  injection h with h
  subst h
  apply decode_of_fields
  rw [decodeFields, op_6_6_6_6_4_4, fn0_6_6_6_6_4_4]
  exact formRA_enc .mfmt _ _ _ _

theorem Encoding.mwswp (g : Guard) : Encoding.Statement (.mwswp g) := by
  intro v h
  injection h with h
  subst h
  apply decode_of_fields
  rw [decodeFields, op_6_18_4_4, fn0_6_18_4_4]
  exact formR0_enc .mwswp _ _ _

theorem Encoding.mring (g : Guard) : Encoding.Statement (.mring g) := by
  intro v h
  injection h with h
  subst h
  apply decode_of_fields
  rw [decodeFields, op_6_18_4_4, fn0_6_18_4_4]
  exact formR0_enc .mring _ _ _

theorem Encoding.mclr (a : Spec) (g : Guard) : Encoding.Statement (.mclr a g) := by
  intro v h
  injection h with h
  subst h
  apply decode_of_fields
  rw [decodeFields, op_6_6_6_6_4_4, fn0_6_6_6_6_4_4]
  exact formRA_enc .mclr _ _ _ _

theorem Encoding.mscl (g : Guard) : Encoding.Statement (.mscl g) := by
  intro v h
  injection h with h
  subst h
  apply decode_of_fields
  rw [decodeFields, op_6_18_4_4, fn0_6_18_4_4]
  exact formR0_enc .mscl _ _ _

theorem Encoding.mbnd (k : BitVec 3) (a : Spec) (g : Guard) : Encoding.Statement (.mbnd k a g) := by
  intro v h
  injection h with h
  subst h
  apply decode_of_fields
  rw [decodeFields, op_6_3_3_6_6_4_4, fn0_6_3_3_6_6_4_4]
  exact formMBND_enc .mbnd _ _ _ _ _

theorem Encoding.vadd (vd : BitVec 4) (va : BitVec 4) (vb : BitVec 4) (ty : BitVec 4) (g : Guard) : Encoding.Statement (.vadd vd va vb ty g) := by
  intro v h
  injection h with h
  subst h
  apply decode_of_fields
  rw [decodeFields, op_6_4_4_4_4_4_6, fn0_6_4_4_4_4_4_6]
  exact formV3_enc .vadd _ _ _ _ _ _ _

theorem Encoding.vsub (vd : BitVec 4) (va : BitVec 4) (vb : BitVec 4) (ty : BitVec 4) (g : Guard) : Encoding.Statement (.vsub vd va vb ty g) := by
  intro v h
  injection h with h
  subst h
  apply decode_of_fields
  rw [decodeFields, op_6_4_4_4_4_4_6, fn0_6_4_4_4_4_4_6]
  exact formV3_enc .vsub _ _ _ _ _ _ _

theorem Encoding.vmul (vd : BitVec 4) (va : BitVec 4) (vb : BitVec 4) (ty : BitVec 4) (g : Guard) : Encoding.Statement (.vmul vd va vb ty g) := by
  intro v h
  injection h with h
  subst h
  apply decode_of_fields
  rw [decodeFields, op_6_4_4_4_4_4_6, fn0_6_4_4_4_4_4_6]
  exact formV3_enc .vmul _ _ _ _ _ _ _

theorem Encoding.vfma (vd : BitVec 4) (va : BitVec 4) (vb : BitVec 4) (ty : BitVec 4) (g : Guard) : Encoding.Statement (.vfma vd va vb ty g) := by
  intro v h
  injection h with h
  subst h
  apply decode_of_fields
  rw [decodeFields, op_6_4_4_4_4_4_6, fn0_6_4_4_4_4_4_6]
  exact formV3_enc .vfma _ _ _ _ _ _ _

theorem Encoding.vmin (vd : BitVec 4) (va : BitVec 4) (vb : BitVec 4) (ty : BitVec 4) (g : Guard) : Encoding.Statement (.vmin vd va vb ty g) := by
  intro v h
  injection h with h
  subst h
  apply decode_of_fields
  rw [decodeFields, op_6_4_4_4_4_4_6, fn0_6_4_4_4_4_4_6]
  exact formV3_enc .vmin _ _ _ _ _ _ _

theorem Encoding.vmax (vd : BitVec 4) (va : BitVec 4) (vb : BitVec 4) (ty : BitVec 4) (g : Guard) : Encoding.Statement (.vmax vd va vb ty g) := by
  intro v h
  injection h with h
  subst h
  apply decode_of_fields
  rw [decodeFields, op_6_4_4_4_4_4_6, fn0_6_4_4_4_4_4_6]
  exact formV3_enc .vmax _ _ _ _ _ _ _

theorem Encoding.vsel (vd : BitVec 4) (va : BitVec 4) (vb : BitVec 4) (ty : BitVec 4) (g : Guard) : Encoding.Statement (.vsel vd va vb ty g) := by
  intro v h
  injection h with h
  subst h
  apply decode_of_fields
  rw [decodeFields, op_6_4_4_4_4_4_6, fn0_6_4_4_4_4_4_6]
  exact formV3_enc .vsel _ _ _ _ _ _ _

theorem Encoding.vcmpEq (vd : BitVec 4) (va : BitVec 4) (vb : BitVec 4) (ty : BitVec 4) (g : Guard) : Encoding.Statement (.vcmpEq vd va vb ty g) := by
  intro v h
  injection h with h
  subst h
  apply decode_of_fields
  rw [decodeFields, op_6_4_4_4_4_4_6, fn0_6_4_4_4_4_4_6]
  exact formV3_enc .vcmpEq _ _ _ _ _ _ _

theorem Encoding.vcmpLt (vd : BitVec 4) (va : BitVec 4) (vb : BitVec 4) (ty : BitVec 4) (g : Guard) : Encoding.Statement (.vcmpLt vd va vb ty g) := by
  intro v h
  injection h with h
  subst h
  apply decode_of_fields
  rw [decodeFields, op_6_4_4_4_4_4_6, fn0_6_4_4_4_4_4_6]
  exact formV3_enc .vcmpLt _ _ _ _ _ _ _

theorem Encoding.vcmpLe (vd : BitVec 4) (va : BitVec 4) (vb : BitVec 4) (ty : BitVec 4) (g : Guard) : Encoding.Statement (.vcmpLe vd va vb ty g) := by
  intro v h
  injection h with h
  subst h
  apply decode_of_fields
  rw [decodeFields, op_6_4_4_4_4_4_6, fn0_6_4_4_4_4_4_6]
  exact formV3_enc .vcmpLe _ _ _ _ _ _ _

theorem Encoding.vand (vd : BitVec 4) (va : BitVec 4) (vb : BitVec 4) (ty : BitVec 4) (g : Guard) : Encoding.Statement (.vand vd va vb ty g) := by
  intro v h
  injection h with h
  subst h
  apply decode_of_fields
  rw [decodeFields, op_6_4_4_4_4_4_6, fn0_6_4_4_4_4_4_6]
  exact formV3_enc .vand _ _ _ _ _ _ _

theorem Encoding.vor (vd : BitVec 4) (va : BitVec 4) (vb : BitVec 4) (ty : BitVec 4) (g : Guard) : Encoding.Statement (.vor vd va vb ty g) := by
  intro v h
  injection h with h
  subst h
  apply decode_of_fields
  rw [decodeFields, op_6_4_4_4_4_4_6, fn0_6_4_4_4_4_4_6]
  exact formV3_enc .vor _ _ _ _ _ _ _

theorem Encoding.vxor (vd : BitVec 4) (va : BitVec 4) (vb : BitVec 4) (ty : BitVec 4) (g : Guard) : Encoding.Statement (.vxor vd va vb ty g) := by
  intro v h
  injection h with h
  subst h
  apply decode_of_fields
  rw [decodeFields, op_6_4_4_4_4_4_6, fn0_6_4_4_4_4_4_6]
  exact formV3_enc .vxor _ _ _ _ _ _ _

theorem Encoding.vshl (vd : BitVec 4) (va : BitVec 4) (vb : BitVec 4) (ty : BitVec 4) (g : Guard) : Encoding.Statement (.vshl vd va vb ty g) := by
  intro v h
  injection h with h
  subst h
  apply decode_of_fields
  rw [decodeFields, op_6_4_4_4_4_4_6, fn0_6_4_4_4_4_4_6]
  exact formV3_enc .vshl _ _ _ _ _ _ _

theorem Encoding.vshr (vd : BitVec 4) (va : BitVec 4) (vb : BitVec 4) (ty : BitVec 4) (g : Guard) : Encoding.Statement (.vshr vd va vb ty g) := by
  intro v h
  injection h with h
  subst h
  apply decode_of_fields
  rw [decodeFields, op_6_4_4_4_4_4_6, fn0_6_4_4_4_4_4_6]
  exact formV3_enc .vshr _ _ _ _ _ _ _

theorem Encoding.vabs (vd : BitVec 4) (va : BitVec 4) (ty : BitVec 4) (g : Guard) : Encoding.Statement (.vabs vd va ty g) := by
  intro v h
  injection h with h
  subst h
  apply decode_of_fields
  rw [decodeFields, op_6_4_4_4_4_4_6, fn0_6_4_4_4_4_4_6]
  exact formV2_enc .vabs _ _ _ _ _ _

theorem Encoding.vneg (vd : BitVec 4) (va : BitVec 4) (ty : BitVec 4) (g : Guard) : Encoding.Statement (.vneg vd va ty g) := by
  intro v h
  injection h with h
  subst h
  apply decode_of_fields
  rw [decodeFields, op_6_4_4_4_4_4_6, fn0_6_4_4_4_4_4_6]
  exact formV2_enc .vneg _ _ _ _ _ _

theorem Encoding.vmov (vd : BitVec 4) (va : BitVec 4) (ty : BitVec 4) (g : Guard) : Encoding.Statement (.vmov vd va ty g) := by
  intro v h
  injection h with h
  subst h
  apply decode_of_fields
  rw [decodeFields, op_6_4_4_4_4_4_6, fn0_6_4_4_4_4_4_6]
  exact formV2_enc .vmov _ _ _ _ _ _

theorem Encoding.vcvt (vd : BitVec 4) (va : BitVec 4) (rm : BitVec 2) (ty : BitVec 4) (g : Guard) : Encoding.Statement (.vcvt vd va rm ty g) := by
  intro v h
  injection h with h
  subst h
  apply decode_of_fields
  rw [decodeFields, op_6_4_4_2_2_4_4_6, fn0_6_4_4_2_2_4_4_6]
  exact formVCVT_enc .vcvt _ _ _ _ _ _ _

theorem Encoding.vrcp (vd : BitVec 4) (va : BitVec 4) (ty : BitVec 4) (g : Guard) : Encoding.Statement (.vrcp vd va ty g) := by
  intro v h
  injection h with h
  subst h
  apply decode_of_fields
  rw [decodeFields, op_6_4_4_4_4_4_6, fn0_6_4_4_4_4_4_6]
  exact formV2_enc .vrcp _ _ _ _ _ _

theorem Encoding.vrsq (vd : BitVec 4) (va : BitVec 4) (ty : BitVec 4) (g : Guard) : Encoding.Statement (.vrsq vd va ty g) := by
  intro v h
  injection h with h
  subst h
  apply decode_of_fields
  rw [decodeFields, op_6_4_4_4_4_4_6, fn0_6_4_4_4_4_4_6]
  exact formV2_enc .vrsq _ _ _ _ _ _

theorem Encoding.vexp (vd : BitVec 4) (va : BitVec 4) (ty : BitVec 4) (g : Guard) : Encoding.Statement (.vexp vd va ty g) := by
  intro v h
  injection h with h
  subst h
  apply decode_of_fields
  rw [decodeFields, op_6_4_4_4_4_4_6, fn0_6_4_4_4_4_4_6]
  exact formV2_enc .vexp _ _ _ _ _ _

theorem Encoding.vlog (vd : BitVec 4) (va : BitVec 4) (ty : BitVec 4) (g : Guard) : Encoding.Statement (.vlog vd va ty g) := by
  intro v h
  injection h with h
  subst h
  apply decode_of_fields
  rw [decodeFields, op_6_4_4_4_4_4_6, fn0_6_4_4_4_4_4_6]
  exact formV2_enc .vlog _ _ _ _ _ _

theorem Encoding.vqnt (vd : BitVec 4) (va : BitVec 4) (vb : BitVec 4) (ty : BitVec 4) (g : Guard) : Encoding.Statement (.vqnt vd va vb ty g) := by
  intro v h
  injection h with h
  subst h
  apply decode_of_fields
  rw [decodeFields, op_6_4_4_4_4_4_6, fn0_6_4_4_4_4_4_6]
  exact formV3_enc .vqnt _ _ _ _ _ _ _

theorem Encoding.vdq (vd : BitVec 4) (va : BitVec 4) (vb : BitVec 4) (ty : BitVec 4) (g : Guard) : Encoding.Statement (.vdq vd va vb ty g) := by
  intro v h
  injection h with h
  subst h
  apply decode_of_fields
  rw [decodeFields, op_6_4_4_4_4_4_6, fn0_6_4_4_4_4_4_6]
  exact formV3_enc .vdq _ _ _ _ _ _ _

theorem Encoding.vshp (o : BitVec 3) (g : Guard) : Encoding.Statement (.vshp o g) := by
  intro v h
  injection h with h
  subst h
  apply decode_of_fields
  rw [decodeFields, op_6_5_3_8_4_6, fn0_6_5_3_8_4_6]
  exact formVSHP_enc .vshp _ _ _ _

theorem Encoding.vred (vd : BitVec 4) (va : BitVec 4) (rop : BitVec 2) (dir : BitVec 1) (ty : BitVec 4) (g : Guard) : Encoding.Statement (.vred vd va rop dir ty g) := by
  intro v h
  injection h with h
  subst h
  apply decode_of_fields
  rw [decodeFields, op_6_4_4_2_1_1_4_4_6, fn0_6_4_4_2_1_1_4_4_6]
  exact formVRED_enc .vred _ _ _ _ _ _ _ _

theorem Encoding.vbc (vd : BitVec 4) (o : BitVec 3) (ty : BitVec 4) (g : Guard) : Encoding.Statement (.vbc vd o ty g) := by
  intro v h
  injection h with h
  subst h
  apply decode_of_fields
  rw [decodeFields, op_6_4_1_3_4_4_4_6, fn0_6_4_1_3_4_4_4_6]
  exact formVBC_enc .vbc _ _ _ _ _ _

theorem Encoding.vtr (vd : BitVec 4) (va : BitVec 4) (ty : BitVec 4) (g : Guard) : Encoding.Statement (.vtr vd va ty g) := by
  intro v h
  injection h with h
  subst h
  apply decode_of_fields
  rw [decodeFields, op_6_4_4_4_4_4_6, fn0_6_4_4_4_4_4_6]
  exact formV2_enc .vtr _ _ _ _ _ _

theorem Encoding.vrot (vd : BitVec 4) (va : BitVec 4) (o : BitVec 3) (ty : BitVec 4) (g : Guard) : Encoding.Statement (.vrot vd va o ty g) := by
  intro v h
  injection h with h
  subst h
  apply decode_of_fields
  rw [decodeFields, op_6_4_4_1_3_4_4_6, fn0_6_4_4_1_3_4_4_6]
  exact formVROT_enc .vrot _ _ _ _ _ _ _

theorem Encoding.vld (v : BitVec 4) (a : Spec) (rd : BitVec 2) (am : BitVec 2) (la : BitVec 4) (p : BitVec 3) : Encoding.Statement (.vld v a rd am la p) := by
  intro v h
  injection h with h
  subst h
  apply decode_of_fields
  rw [decodeFields, op_6_2_4_6_2_2_2_4_1_3, fn3_6_2_4_6_2_2_2_4_1_3]
  exact formVM_enc .vld _ _ _ _ _ _ _ _

theorem Encoding.vst (v : BitVec 4) (a : Spec) (rd : BitVec 2) (am : BitVec 2) (la : BitVec 4) (p : BitVec 3) : Encoding.Statement (.vst v a rd am la p) := by
  intro v h
  injection h with h
  subst h
  apply decode_of_fields
  rw [decodeFields, op_6_2_4_6_2_2_2_4_1_3, fn3_6_2_4_6_2_2_2_4_1_3]
  exact formVM_enc .vst _ _ _ _ _ _ _ _

theorem Encoding.trap (n : BitVec 12) (g : Guard) : Encoding.Statement (.trap n g) := by
  intro v h
  injection h with h
  subst h
  apply decode_of_fields
  rw [decodeFields, op_6_6_12_4_4, fn0_6_6_12_4_4]
  exact formTRAP_enc .trap _ _ _ _

theorem Encoding.eret (g : Guard) : Encoding.Statement (.eret g) := by
  intro v h
  injection h with h
  subst h
  apply decode_of_fields
  rw [decodeFields, op_6_18_4_4, fn0_6_18_4_4]
  exact formR0_enc .eret _ _ _

theorem Encoding.sysr (d : Spec) (n : BitVec 12) (g : Guard) : Encoding.Statement (.sysr d n g) := by
  intro v h
  injection h with h
  subst h
  apply decode_of_fields
  rw [decodeFields, op_6_6_12_4_4, fn0_6_6_12_4_4]
  exact formSYSR_enc .sysr _ _ _ _ _

theorem Encoding.sysw (nh : BitVec 6) (a : Spec) (nl : BitVec 6) (g : Guard) : Encoding.Statement (.sysw nh a nl g) := by
  intro v h
  injection h with h
  subst h
  apply decode_of_fields
  rw [decodeFields, op_6_6_6_6_4_4, fn0_6_6_6_6_4_4]
  exact formSYSW_enc .sysw _ _ _ _ _ _

theorem Encoding.sysx (d : Spec) (a : Spec) (b : Spec) (g : Guard) : Encoding.Statement (.sysx d a b g) := by
  intro v h
  injection h with h
  subst h
  apply decode_of_fields
  rw [decodeFields, op_6_6_6_6_4_4, fn0_6_6_6_6_4_4]
  exact formR3_enc .sysx _ _ _ _ _ _

theorem Encoding.tlbi (a : Spec) (kind : BitVec 3) (g : Guard) : Encoding.Statement (.tlbi a kind g) := by
  intro v h
  injection h with h
  subst h
  apply decode_of_fields
  rw [decodeFields, op_6_6_6_3_3_4_4, fn0_6_6_6_3_3_4_4]
  exact formTLBI_enc .tlbi _ _ _ _ _

theorem Encoding.ckpt (g : Guard) : Encoding.Statement (.ckpt g) := by
  intro v h
  injection h with h
  subst h
  apply decode_of_fields
  rw [decodeFields, op_6_18_4_4, fn0_6_18_4_4]
  exact formR0_enc .ckpt _ _ _

theorem Encoding.idle (g : Guard) : Encoding.Statement (.idle g) := by
  intro v h
  injection h with h
  subst h
  apply decode_of_fields
  rw [decodeFields, op_6_18_4_4, fn0_6_18_4_4]
  exact formR0_enc .idle _ _ _

theorem Encoding.halt (g : Guard) : Encoding.Statement (.halt g) := by
  intro v h
  injection h with h
  subst h
  apply decode_of_fields
  rw [decodeFields, op_6_18_4_4, fn0_6_18_4_4]
  exact formR0_enc .halt _ _ _

theorem Encoding.rot (a : Spec) (g : Guard) : Encoding.Statement (.rot a g) := by
  intro v h
  injection h with h
  subst h
  apply decode_of_fields
  rw [decodeFields, op_6_6_6_6_4_4, fn0_6_6_6_6_4_4]
  exact formRA_enc .rot _ _ _ _

theorem Encoding.tins (a : Spec) (g : Guard) : Encoding.Statement (.tins a g) := by
  intro v h
  injection h with h
  subst h
  apply decode_of_fields
  rw [decodeFields, op_6_6_6_6_4_4, fn0_6_6_6_6_4_4]
  exact formRA_enc .tins _ _ _ _

theorem Encoding.trem (a : Spec) (g : Guard) : Encoding.Statement (.trem a g) := by
  intro v h
  injection h with h
  subst h
  apply decode_of_fields
  rw [decodeFields, op_6_6_6_6_4_4, fn0_6_6_6_6_4_4]
  exact formRA_enc .trem _ _ _ _

theorem Encoding.tspn (a : Spec) (b : Spec) (g : Guard) : Encoding.Statement (.tspn a b g) := by
  intro v h
  injection h with h
  subst h
  apply decode_of_fields
  rw [decodeFields, op_6_6_6_6_4_4, fn0_6_6_6_6_4_4]
  exact formRAB_enc .tspn _ _ _ _ _

theorem Encoding.divideComplete (w : Who) (seq : Nat) : Encoding.Statement (.divideComplete w seq) := by
  intro v h
  cases h

theorem Encoding.fdivFsqrComplete (w : Who) (seq : Nat) : Encoding.Statement (.fdivFsqrComplete w seq) := by
  intro v h
  cases h

theorem Encoding.wjoinCommit (w : Who) : Encoding.Statement (.wjoinCommit w) := by
  intro v h
  cases h

theorem Encoding.loadComplete (w : Who) (seq : Nat) (ecc : Ecc) : Encoding.Statement (.loadComplete w seq ecc) := by
  intro v h
  cases h

theorem Encoding.tlbWalkComplete (slab : Nat) (k : Nat) (poisoned : Option Nat) : Encoding.Statement (.tlbWalkComplete slab k poisoned) := by
  intro v h
  cases h

theorem Encoding.storeComplete (w : Who) (seq : Nat) : Encoding.Statement (.storeComplete w seq) := by
  intro v h
  cases h

theorem Encoding.migrateArrive (k : Nat) : Encoding.Statement (.migrateArrive k) := by
  intro v h
  cases h

theorem Encoding.messageDeliver (k : Nat) : Encoding.Statement (.messageDeliver k) := by
  intro v h
  cases h

theorem Encoding.scaleWordDeliver (k : Nat) : Encoding.Statement (.scaleWordDeliver k) := by
  intro v h
  cases h

theorem Encoding.heldWordEnter (tile : Nat) (k : Nat) : Encoding.Statement (.heldWordEnter tile k) := by
  intro v h
  cases h

theorem Encoding.sendAckReceive (k : Nat) : Encoding.Statement (.sendAckReceive k) := by
  intro v h
  cases h

theorem Encoding.copyRecord (tile : Nat) (ch : Nat) : Encoding.Statement (.copyRecord tile ch) := by
  intro v h
  cases h

theorem Encoding.martenServe (cl : Nat) : Encoding.Statement (.martenServe cl) := by
  intro v h
  cases h

theorem Encoding.engineWakeDone (cl : Nat) (e : Nat) (pass : Bool) : Encoding.Statement (.engineWakeDone cl e pass) := by
  intro v h
  cases h

theorem Encoding.sortInsert (cl : Nat) (e : Nat) : Encoding.Statement (.sortInsert cl e) := by
  intro v h
  cases h

theorem Encoding.sortEmit (cl : Nat) (e : Nat) : Encoding.Statement (.sortEmit cl e) := by
  intro v h
  cases h

theorem Encoding.sortClear (cl : Nat) (e : Nat) : Encoding.Statement (.sortClear cl e) := by
  intro v h
  cases h

theorem Encoding.matchScan (cl : Nat) (e : Nat) : Encoding.Statement (.matchScan cl e) := by
  intro v h
  cases h

theorem Encoding.matchReset (cl : Nat) (e : Nat) : Encoding.Statement (.matchReset cl e) := by
  intro v h
  cases h

theorem Encoding.inflDecode (cl : Nat) (e : Nat) : Encoding.Statement (.inflDecode cl e) := by
  intro v h
  cases h

theorem Encoding.xfrmTransform (cl : Nat) (e : Nat) : Encoding.Statement (.xfrmTransform cl e) := by
  intro v h
  cases h

theorem Encoding.gathToSlot (cl : Nat) (e : Nat) : Encoding.Statement (.gathToSlot cl e) := by
  intro v h
  cases h

theorem Encoding.gathFromSlot (cl : Nat) (e : Nat) : Encoding.Statement (.gathFromSlot cl e) := by
  intro v h
  cases h

theorem Encoding.gathFinish (cl : Nat) (e : Nat) : Encoding.Statement (.gathFinish cl e) := by
  intro v h
  cases h

theorem Encoding.scanPrefix (cl : Nat) (e : Nat) : Encoding.Statement (.scanPrefix cl e) := by
  intro v h
  cases h

theorem Encoding.softSoftmax (cl : Nat) (e : Nat) : Encoding.Statement (.softSoftmax cl e) := by
  intro v h
  cases h

theorem Encoding.softExponent (cl : Nat) (e : Nat) : Encoding.Statement (.softExponent cl e) := by
  intro v h
  cases h

theorem Encoding.collCollective (members : List (Nat × Nat)) : Encoding.Statement (.collCollective members) := by
  intro v h
  cases h

theorem Encoding.mstepRow (w : Who) (flips : List Glitch) : Encoding.Statement (.mstepRow w flips) := by
  intro v h
  cases h

theorem Encoding.mwldComplete (w : Who) (seq : Nat) : Encoding.Statement (.mwldComplete w seq) := by
  intro v h
  cases h

theorem Encoding.mrdComplete (w : Who) (seq : Nat) : Encoding.Statement (.mrdComplete w seq) := by
  intro v h
  cases h

theorem Encoding.bandWakeDone (tile : Nat) (band : Nat) : Encoding.Statement (.bandWakeDone tile band) := by
  intro v h
  cases h

theorem Encoding.handoffStart (tile : Nat) : Encoding.Statement (.handoffStart tile) := by
  intro v h
  cases h

theorem Encoding.handoffArrive (tile : Nat) : Encoding.Statement (.handoffArrive tile) := by
  intro v h
  cases h

theorem Encoding.vectorComplete (w : Who) : Encoding.Statement (.vectorComplete w) := by
  intro v h
  cases h

theorem Encoding.owlqSubmit (cl : Nat) : Encoding.Statement (.owlqSubmit cl) := by
  intro v h
  cases h

theorem Encoding.owlJobServe (cl : Nat) : Encoding.Statement (.owlJobServe cl) := by
  intro v h
  cases h

theorem Encoding.owlEntrySend (cl : Nat) : Encoding.Statement (.owlEntrySend cl) := by
  intro v h
  cases h

theorem Encoding.tlbiComplete (w : Who) : Encoding.Statement (.tlbiComplete w) := by
  intro v h
  cases h

theorem Encoding.ckptComplete (w : Who) : Encoding.Statement (.ckptComplete w) := by
  intro v h
  cases h

theorem Encoding.rotTakeEffect (tile : Nat) : Encoding.Statement (.rotTakeEffect tile) := by
  intro v h
  cases h

theorem Encoding.trapEntry (w : Who) : Encoding.Statement (.trapEntry w) := by
  intro v h
  cases h

theorem Encoding.timerTrap (w : Who) : Encoding.Statement (.timerTrap w) := by
  intro v h
  cases h

theorem Encoding.slotOffer (w : Who) : Encoding.Statement (.slotOffer w) := by
  intro v h
  cases h

theorem Encoding.hostLaunch (h : HostHdr) (rec : List Word) : Encoding.Statement (.hostLaunch h rec) := by
  intro v h
  cases h

theorem Encoding.hostWrite (h : HostHdr) (data : List Byte) : Encoding.Statement (.hostWrite h data) := by
  intro v h
  cases h

theorem Encoding.hostRead (h : HostHdr) : Encoding.Statement (.hostRead h) := by
  intro v h
  cases h

theorem Encoding.hostMgmt (h : HostHdr) (named : Bool) (req : MgmtReq) : Encoding.Statement (.hostMgmt h named req) := by
  intro v h
  cases h

theorem Encoding.mgmtQuote (h : HostHdr) (named : Bool) (nonce : List Byte) : Encoding.Statement (.mgmtQuote h named nonce) := by
  intro v h
  cases h

theorem Encoding.mgmtImageUpdate (h : HostHdr) (named : Bool) (verifies : Bool) (image : List Byte) (inp : StartIn) : Encoding.Statement (.mgmtImageUpdate h named verifies image inp) := by
  intro v h
  cases h

theorem Encoding.mgmtEndTask (h : HostHdr) (named : Bool) (w : Who) : Encoding.Statement (.mgmtEndTask h named w) := by
  intro v h
  cases h

theorem Encoding.launchDependenceRead (ctx : Nat) (k : Nat) : Encoding.Statement (.launchDependenceRead ctx k) := by
  intro v h
  cases h

theorem Encoding.fanOut : Encoding.Statement .fanOut := by
  intro v h
  cases h

theorem Encoding.hoistPlace (cl : Nat) : Encoding.Statement (.hoistPlace cl) := by
  intro v h
  cases h

theorem Encoding.taskDispatch (w : Who) : Encoding.Statement (.taskDispatch w) := by
  intro v h
  cases h

theorem Encoding.retirementWordAdd (k : Nat) : Encoding.Statement (.retirementWordAdd k) := by
  intro v h
  cases h

theorem Encoding.hoistPreempt (cl : Nat) : Encoding.Statement (.hoistPreempt cl) := by
  intro v h
  cases h

theorem Encoding.badgerSpillDone (w : Who) : Encoding.Statement (.badgerSpillDone w) := by
  intro v h
  cases h

theorem Encoding.badgerRestoreDone (w : Who) : Encoding.Statement (.badgerRestoreDone w) := by
  intro v h
  cases h

theorem Encoding.tokenRefill (cl : Nat) : Encoding.Statement (.tokenRefill cl) := by
  intro v h
  cases h

theorem Encoding.inrushGrant (slab : Nat) : Encoding.Statement (.inrushGrant slab) := by
  intro v h
  cases h

theorem Encoding.clusterGate (cl : Nat) : Encoding.Statement (.clusterGate cl) := by
  intro v h
  cases h

theorem Encoding.gatingSpillDone (cl : Nat) : Encoding.Statement (.gatingSpillDone cl) := by
  intro v h
  cases h

theorem Encoding.clusterWakeHoldEnd (cl : Nat) : Encoding.Statement (.clusterWakeHoldEnd cl) := by
  intro v h
  cases h

theorem Encoding.clusterRestoreDone (cl : Nat) : Encoding.Statement (.clusterRestoreDone cl) := by
  intro v h
  cases h

theorem Encoding.thermalSample (pt : Nat) (quarters : Nat) : Encoding.Statement (.thermalSample pt quarters) := by
  intro v h
  cases h

theorem Encoding.restStep (slab : Nat) : Encoding.Statement (.restStep slab) := by
  intro v h
  cases h

theorem Encoding.movePrecopyPassEnd (tile : Nat) : Encoding.Statement (.movePrecopyPassEnd tile) := by
  intro v h
  cases h

theorem Encoding.moveDrainEnd (tile : Nat) : Encoding.Statement (.moveDrainEnd tile) := by
  intro v h
  cases h

theorem Encoding.moveCopyEnd (tile : Nat) : Encoding.Statement (.moveCopyEnd tile) := by
  intro v h
  cases h

theorem Encoding.moveRemapEnd (tile : Nat) : Encoding.Statement (.moveRemapEnd tile) := by
  intro v h
  cases h

theorem Encoding.moveResume (tile : Nat) : Encoding.Statement (.moveResume tile) := by
  intro v h
  cases h

theorem Encoding.stopDrainEnd (tile : Nat) : Encoding.Statement (.stopDrainEnd tile) := by
  intro v h
  cases h

theorem Encoding.stopCopyEnd (tile : Nat) (poisoned : Bool) : Encoding.Statement (.stopCopyEnd tile poisoned) := by
  intro v h
  cases h

theorem Encoding.stopRemapEnd (tile : Nat) : Encoding.Statement (.stopRemapEnd tile) := by
  intro v h
  cases h

theorem Encoding.stopReplayEnd (tile : Nat) : Encoding.Statement (.stopReplayEnd tile) := by
  intro v h
  cases h

theorem Encoding.autoBoundary (tile : Nat) : Encoding.Statement (.autoBoundary tile) := by
  intro v h
  cases h

theorem Encoding.selftestDone (pt : Nat) (pass : Bool) (routerFailed : Bool) (marg : Nat) : Encoding.Statement (.selftestDone pt pass routerFailed marg) := by
  intro v h
  cases h

theorem Encoding.ageingHourly (pt : Nat) (quarters : Nat) : Encoding.Statement (.ageingHourly pt quarters) := by
  intro v h
  cases h

theorem Encoding.patrolScrub (pa : Nat) (res : Nat) : Encoding.Statement (.patrolScrub pa res) := by
  intro v h
  cases h

theorem Encoding.quarantineScrub (k : Nat) (pass : Bool) : Encoding.Statement (.quarantineScrub k pass) := by
  intro v h
  cases h

theorem Encoding.teardown (ctx : Nat) : Encoding.Statement (.teardown ctx) := by
  intro v h
  cases h

theorem Encoding.overflowHandlerRestart (cl : Nat) : Encoding.Statement (.overflowHandlerRestart cl) := by
  intro v h
  cases h

theorem Encoding.frameArrive (port : Nat) (vlan : Option Nat) (fcsOk : Bool) (bufFull : Bool) (frame : List Byte) : Encoding.Statement (.frameArrive port vlan fcsOk bufFull frame) := by
  intro v h
  cases h

theorem Encoding.linkFlitReceive (link : Nat) (num : Nat) (bad : Option Nat) (ack : Option Nat) : Encoding.Statement (.linkFlitReceive link num bad ack) := by
  intro v h
  cases h

theorem Encoding.linkNakReceive (link : Nat) (expected : Nat) : Encoding.Statement (.linkNakReceive link expected) := by
  intro v h
  cases h

theorem Encoding.linkBurstExpire (link : Nat) : Encoding.Statement (.linkBurstExpire link) := by
  intro v h
  cases h

theorem Encoding.linkRetrainEnd (link : Nat) : Encoding.Statement (.linkRetrainEnd link) := by
  intro v h
  cases h

theorem Encoding.podRequestResend (k : Nat) : Encoding.Statement (.podRequestResend k) := by
  intro v h
  cases h

theorem Encoding.podRequestFreeze (k : Nat) : Encoding.Statement (.podRequestFreeze k) := by
  intro v h
  cases h

theorem Encoding.shoheoshRd (r : PodReq) (size : Nat) : Encoding.Statement (.shoheoshRd r size) := by
  intro v h
  cases h

theorem Encoding.shoheoshWr (r : PodReq) (data : List Byte) : Encoding.Statement (.shoheoshWr r data) := by
  intro v h
  cases h

theorem Encoding.shoheoshAmo (r : PodReq) (op : Nat) (b : Word) (d : Word) : Encoding.Statement (.shoheoshAmo r op b d) := by
  intro v h
  cases h

theorem Encoding.shoheoshCmpl (r : PodReq) : Encoding.Statement (.shoheoshCmpl r) := by
  intro v h
  cases h

theorem Encoding.coldStart (inp : StartIn) : Encoding.Statement (.coldStart inp) := by
  intro v h
  cases h

theorem Encoding.warmStart (inp : StartIn) : Encoding.Statement (.warmStart inp) := by
  intro v h
  cases h

theorem Encoding.redundantCommit (k : Nat) : Encoding.Statement (.redundantCommit k) := by
  intro v h
  cases h

theorem Encoding.erdComplete (w : Who) (seq : Nat) (poisoned : Bool) : Encoding.Statement (.erdComplete w seq poisoned) := by
  intro v h
  cases h

end Sys2Proof.Laws
end

