-- ==== Sys2Proof/Laws/Traps.lean ====
section
/-! SUPPORT. What taking a trap and returning from one come to (10 R210, R211; 21 R342). -/

namespace Sys2Proof.Machine

/-- The registers a trap leaves when its handler is entered, and nothing of any other thread changed. -/
theorem State.enterTrap_handler (s : State) (w : Who) (cause : Nat) (ev pc : Word) (re : Bool) (en : Word)
    (hf : causeFreezes cause = false) (ht : (s.slot w).tvec ≠ 0) (hm : (s.slot w).tm = false) (hc : cause ≠ cTimer) :
    let t := s.enterTrap w cause ev pc re en
    (t.slot w).pc = (s.slot w).tvec ∧ (t.slot w).epc = pc ∧ (t.slot w).ecause = causeWord cause re ∧ (t.slot w).eval = ev ∧
    (t.slot w).estat = (s.slot w).estat ||| 1 ∧ (t.slot w).enext = (if re then en else pc) ∧
    (t.slot w).tctl = (s.slot w).tctl ∧ ∀ u, u ≠ w → t.slot u = s.slot u := by
  have h : (causeFreezes cause || (s.slot w).tvec == 0 || (s.slot w).tm) = false := by
    rw [hf, hm, Bool.false_or, Bool.or_false, beq_eq_false_iff_ne]
    exact ht
  unfold State.enterTrap
  simp only [h, hc, if_false, Bool.false_eq_true]
  refine ⟨?_, ?_, ?_, ?_, ?_, ?_, ?_, fun u hu => State.slot_modSlot_other _ _ hu⟩ <;> simp

/-- A trap that cannot be entered freezes the thread. -/
theorem State.enterTrap_freezes (s : State) (w : Who) (cause : Nat) (ev pc : Word) (re : Bool) (en : Word)
    (h : causeFreezes cause = true ∨ (s.slot w).tvec = 0 ∨ (s.slot w).tm = true) (hc : cause ≠ cTimer) :
    s.enterTrap w cause ev pc re en = s.freeze w cause ev pc re en := by
  have h' : (causeFreezes cause || (s.slot w).tvec == 0 || (s.slot w).tm) = true := by
    rcases h with h | h | h <;> simp [h]
  unfold State.enterTrap
  simp only [h', hc, if_false, if_true]

/-- A cause found with nothing earlier pending is taken at once. -/
theorem State.raise_now (s : State) (w : Who) (cause : Nat) (ev pc : Word) (hw : (s.slot w).wave = none)
    (hp : (s.slot w).pend = []) (hv : (s.slot w).vpend = []) (hq : (s.slot w).trapq = []) :
    s.raise w cause ev pc = (s.modSlot w fun x => { x with iseq := x.iseq + 1 }).enterTrap w cause ev pc (s.slot w).solo
      (if (s.slot w).solo then (s.slot w).enext else pc) := by
  unfold State.raise
  simp only [hw, hp, hv, hq, List.isEmpty_nil, Bool.and_self, if_true]

/-- A cause found with earlier instructions pending waits in the queue of causes. -/
theorem State.raise_later (s : State) (w : Who) (cause : Nat) (ev pc : Word) (hw : (s.slot w).wave = none)
    (hp : (s.slot w).pend ≠ []) :
    let t := s.raise w cause ev pc
    (t.slot w).st = .wait ∧ (t.slot w).why = .trap ∧ (t.slot w).trapq.length = (s.slot w).trapq.length + 1 ∧
    ∀ u, u ≠ w → t.slot u = s.slot u := by
  have h : (s.slot w).pend.isEmpty = false := by simpa using hp
  unfold State.raise
  simp only [hw, h, Bool.false_and, if_false, Bool.false_eq_true]
  refine ⟨?_, ?_, ?_, fun u hu => State.slot_modSlot_other _ _ hu⟩ <;> simp

/-- The return: TM cleared, the thread runs at `epc`, alone for one instruction when RE is 1. -/
theorem State.returnTrap_slot (s : State) (w : Who) :
    let t := s.returnTrap w
    (t.slot w).pc = (s.slot w).epc ∧ (t.slot w).st = .run ∧ (t.slot w).estat = (s.slot w).estat &&& ~~~1 ∧
    (t.slot w).solo = (s.slot w).ecause.getLsbD 31 ∧ ∀ u, u ≠ w → t.slot u = s.slot u := by
  unfold State.returnTrap
  refine ⟨?_, ?_, ?_, ?_, fun u hu => State.slot_modSlot_other _ _ hu⟩ <;> simp

end Sys2Proof.Machine
end

