-- ==== Sys2Proof/Certificates/Slice0/Obligations.lean ====
section
/-! DEFINITION. The statements for the provers. A statement over several instructions stands as the clauses it joins. -/

section

open Sys2Proof Sys2Proof.Machine

/-- O1. What a start leaves (15 R311; 02 Table 2.3; 03 R50, Tables 3.7 to 3.10; 13 Table 13.3, R267; 14 R407): time 0 and
nothing scheduled; every slot IDLE with no context; p0 reading 1; each rotation table entry naming its own slot in the three
columns; each matrix latch EMPTY with all bands on; memory reading 0 and in canonical form; no context open; every bucket
full; 8 inrush tokens in each slab; the resting and spare tiles of each slab in its default rows. The general registers, the
counters and the trap registers reading 0 is the model's choice (log 6). -/
def Obligations.StateAfterReset : Prop :=
  State.reset.now = 0 ∧ State.reset.agenda = [] ∧
  (∀ w : Who, (State.reset.slot w).st = .idle ∧ (State.reset.slot w).ctx = none ∧ (State.reset.slot w).pred 0 = true ∧
    (∀ i, (State.reset.slot w).reg (.g i) = 0) ∧ (∀ i, (State.reset.slot w).reg (.o i) = 0) ∧
    (State.reset.slot w).tvec = 0 ∧ (State.reset.slot w).pc = 0) ∧
  (∀ t p : Nat, p < 16 → (State.reset.tile t).positions p = [p] ∧ (State.reset.tile t).matrixAt p p = true ∧
    (State.reset.tile t).vectorAt p p = true) ∧
  (∀ t, (State.reset.tile t).mx.active = none ∧ (State.reset.tile t).mx.shadow = none ∧ (State.reset.tile t).mx.mshp = 15 ∧
    (State.reset.tile t).mx.owner = none) ∧
  (∀ l n, (∀ o, l ≠ .cap o) → State.reset.getByte l n = 0) ∧ Memory.wf State.reset.hbm ∧
  (∀ c, (State.reset.ctxOf c).isOpen = false) ∧
  (∀ c, (State.reset.clu c).pow = .on ∧ (State.reset.clu c).bal = (State.reset.clu c).cap) ∧
  (∀ k, (State.reset.slab k).tokens = 8) ∧
  ∀ pt, (State.reset.ptile pt).role =
    (if pt % 64 / 8 = gapRow (pt % 8) then (if pt % 2 = 0 then .resting else .spare) else .serving)

/-- A turn of a slot whose issue position has come and that may issue runs the instruction its PC names: with the slot
marked as issued in this cycle and in focus, and no timer trap due, step is `exec` of the instruction the word fetched
decodes to, in the state the fetch leaves; a word that names none takes the illegal-instruction trap; a fetch that faults its
trap, and one that waits, for its translation or for another module, puts the thread in WAIT; a wave member runs the word its row
passes to it. A wave's head never waits (02 R21, R31, R34; 04 R63; 11 R233; 22 R350). -/
def Clause.StepRunsIt : Prop :=
  ∀ (s : State) (w : Who) (r : List Turn), s.agenda = .issue w :: r →
    let s0 : State := { s with agenda := r }
    let s1 : State := { (s0.modSlot w fun x => { x with lastIssue := s0.now + 1 }) with focus := w }
    s0.hasTurn w = true → s0.canIssue w = true →
    (s1.timerDue w && !(s1.slot w).solo && !(s1.slot w).inWave) = false →
    (∀ (now : Bool) s2, (s1.slot w).isMember = false →
      (now, s2) = (if (s1.slot w).wave.isSome then (true, s1)
        else if (s1.slot w).why = .fetch then (true, s1.modSlot w fun x => { x with why := .none, waitUntil := none })
        else (false, s1)) →
      (∀ v ps s3, s2.fetch w now = .word v ps s3 → absent ps = false → s3.poisoned ps = false →
        (∀ i, decode v = .ok i → step s = exec i s3) ∧
        (∀ e, decode v = .error e → step s = .next (s3.raise s3.focus cIllegal (v.setWidth 64) s3.cur.pc))) ∧
      (∀ c s3, s2.fetch w now = .trap c s3 → step s = .next (s3.raise w c (s1.slot w).pc (s1.slot w).pc)) ∧
      ∀ s3, s2.fetch w now = .wait s3 → (s1.slot w).wave.isSome = false ∧ step s = .next s3 ∧ (s3.slot w).st = .wait ∧ (s3.slot w).why = .fetch) ∧
    (∀ q e i, (s1.slot w).wave = some q → q.k ≠ 0 →
      ((s1.wave? q.id).bind fun v => (v.stream.getD q.j [])[q.idx]?) = some e → decode (e.word.setWidth 32) = .ok i →
      step s = exec i (s1.modSlot w fun x => { x with pc := e.pc }))

/-- Where a page of the thread's context maps its PC and permits execution, as the tile's TLB holds it, the word fetched is
the four bytes there, the lowest address holding bits [7:0], unless the tile has captured an older word since the thread's latest
acquire fence. An entry of the last-level TLB alone puts the thread in WAIT for 30 cycles; without one the walk for the page is in
flight. That the page lies in no pod window is a premise (00 R3; 04 R63; 11 R225, R232, R233; 12 R253). -/
def Clause.FetchReadsTheWordAtPc : Prop :=
  ∀ (s : State) (w : Who) (p : Page) (now : Bool),
    let x := s.slot w
    let pc := x.pc.toNat
    let maps := fun q => pageMaps q (x.ctx.getD 0) pc
    let at_ := fun n => (s.getByte (pageLoc p pc) n).toNat
    let held := fun (t : State) d => t.modSlot w fun x => { x with st := .wait, why := .fetch, waitUntil := some (t.now + d) }
    x.red = none → pc < capVa → p.x = true → (∀ m, p.plc ≠ .pod m) →
    ((s.tile w.tile).tlb.find? maps = some p → (∀ e ∈ (s.tile w.tile).istore, e.2.2 < x.fetchAt) →
      s.fetch w now = .word (BitVec.ofNat 32 (at_ 0 + 256 * at_ 1 + 65536 * at_ 2 + 16777216 * at_ 3)) [⟨pageLoc p pc, 4, p.plc⟩]
        (s.modTile w.tile fun x => { x with tlb := tlbFill x.tlb p })) ∧
    ((s.tile w.tile).tlb.find? maps = none → (s.slab (s.slabOf w.tile)).lltlb.find? maps = some p →
      s.fetch w false = .wait (held (s.modTile w.tile fun x => { x with tlb := tlbFill x.tlb p }) 30)) ∧
    ((s.tile w.tile).tlb.find? maps = none → (s.slab (s.slabOf w.tile)).lltlb.find? maps = none →
      s.fetch w false = .wait (held (s.startWalk w.tile (x.ctx.getD 0) pc) 0))

/-- O2. A step runs the instruction that the word at the program counter decodes to, and the fetch reads that word there: the clauses above together. -/
def Obligations.StepRunsTheDecodedInstruction : Prop :=
  Clause.StepRunsIt ∧ Clause.FetchReadsTheWordAtPc

/-- Words the spec writes out decode to the instructions it names (04 R65; 06 R107, R117; 07 R128; 08 R168; 10 R208;
20 R326, R327; 22 R357). -/
def Clause.WrittenWordsDecode : Prop :=
  decode 0x061A2900 = .ok (.add (.o 1) (.l 0) (.l 1) ⟨0, 0⟩) ∧
  decode 0x6C315496 = .ok (.ld64 (.g 3) (.g 5) 1 1 2 2) ∧
  decode 0x5DFFFFFB = .ok (.b 3 1 (-5)) ∧
  decode 0x3030E789 = .ok (.ori (.g 3) (.g 3) 0x2789) ∧
  decode 0x68008003 = .ok (.loopi 2 3) ∧
  decode 0x74519083 = .ok (.st64 (.g 5) (.g 6) 1 0 2 0) ∧
  decode 0x70A04403 = .ok (.lda64 (.g 10) (.g 1) 0 0 0 3) ∧
  decode 0x74B24003 = .ok (.st64 (.g 11) (.g 9) 0 0 0 0) ∧
  decode 0xAF824000 = .ok (.xcopy .z (.g 9) 0 0 0) ∧
  decode 0x18000006 = .ok (.wsafe ⟨0, 0⟩)

/-- The sample words of Table 22.1 that take the illegal-instruction trap are no instructions (22 R350). -/
def Clause.SampleWordsAreIllegal : Prop :=
  decode 0x00000000 = .error .opcode ∧ decode 0xDC000000 = .error .opcode ∧ decode 0x0800000E = .error .function ∧
  decode 0x18000007 = .error .function ∧ decode 0x083105AC = .error .zeroField ∧ decode 0x6C315007 = .error .admission ∧
  decode 0x38310040 = .error .zeroField ∧ decode 0x043F0500 = .error .specifier ∧ decode 0xA4000000 = .error .admission

/-- O3. Words written out from the encodings decode to their instructions, and the illegal words of Table 22.1 to none: the clauses above together. -/
def Obligations.WordsOfTheSpecDecode : Prop :=
  Clause.WrittenWordsDecode ∧ Clause.SampleWordsAreIllegal

/-- O4. Decoding the word of any instruction gives it back with every operand, where it meets the conditions of R350, and
refuses it by admission where it does not (04 R63; 22 R350). -/
def Obligations.DecodeOfEncodeIsTheInstruction : Prop :=
  ∀ i, Laws.Encoding.Statement i

/-- O5. A word that decodes is the word of its instruction: no bit of it is ignored (22 R350, "No word is ignored, and no
word is executed as some nearby instruction"). -/
def Obligations.EncodeOfDecodeIsTheWord : Prop :=
  ∀ v i, decode v = .ok i → encode i = some v

/-- An instruction whose guard is false only goes on: its thread's count, and in a wave its place in the row's stream,
are its whole effect (04 R64; 22 R354). -/
def Clause.FalseGuardOnlyGoesOn : Prop :=
  ∀ s i m, instrMeta s.cur.isMember i = some m → s.Reaches i m → s.cur.guardHolds m.g = false →
    exec i s = .next (s.advance s.focus i false none s.cur.pc)

/-- The checks of R353 step 4 are made whatever the guard holds: outside waves `wleave` takes the wave-illegal trap and
a neighbour the wave-only trap, in a wave an instruction or operand of the excluded classes takes the wave-illegal trap, each
with the word as its value; a register within an earlier instruction's window takes the lookahead trap with that
instruction's address; and an instruction past the reach of a window waits (04 R67; 22 R353, R354). -/
def Clause.ChecksBeforeTheGuard : Prop :=
  ∀ s i m, instrMeta s.cur.isMember i = some m → s.canIssue s.focus = true →
    (s.cur.window m = .wait →
      exec i s = .next (s.modSlot s.focus fun x => { x with st := .wait, why := .lookahead })) ∧
    (s.cur.window m ≠ .wait →
      (s.cur.inWave = false → m.src.any isN = true → exec i s = .next (s.raise s.focus cWaveOnly (wordOf i) s.cur.pc)) ∧
      (s.cur.inWave = false → m.src.any isN = false → isWleave i = true →
        exec i s = .next (s.raise s.focus cWaveIllegal (wordOf i) s.cur.pc)) ∧
      (s.cur.inWave = true → (m.waveOk = false ∨ m.src.any isQF = true ∨ m.dst.any isQF = true) →
        exec i s = .next (s.raise s.focus cWaveIllegal (wordOf i) s.cur.pc)) ∧
      (∀ pc, s.cur.window m = .bad pc → isWleave i = false → m.src.any isN = false → s.cur.inWave = false →
        exec i s = .next (s.raise s.focus cLookahead pc s.cur.pc)))

/-- An instruction whose guard holds waits for the status destinations of copies and for pending vector instructions it
shares a register with; one that cannot wait, in a wave, takes the wave-overrun trap (07 R145; 08 R153; 02 R34). -/
def Clause.RegisterHazardsWait : Prop :=
  ∀ s i m y, instrMeta s.cur.isMember i = some m → s.Reaches i m → s.cur.guardHolds m.g = true →
    (s.cur.red.isSome && (m.src.any isQ || m.dst.any isQ)) = false → s.cur.hazard m = some y →
    exec i s = .next (if s.cur.inWave then s.raise s.focus cOverrun (wordOf i) s.cur.pc
      else s.modSlot s.focus fun x => { x with st := .wait, why := y })

/-- In a cycle the slots issue before any other agent acts, and no cycle passes before they have: a turn of the agenda that would
come earlier waits for them (02 R21, R43; log 1). A thread in WAIT is in RUN from the cycle after the one in which its wait ended
(02 R21); no member leaves its wave and no cut wave goes on in that cycle. -/
def Clause.WaitsEndAndSlotsIssueFirst : Prop :=
  (∀ (s : State) (u : Turn) (r : List Turn) (w : Who), s.agenda = u :: r → (∀ v, u ≠ .issue v) → u ≠ .tick 0 →
    s.issuers.find? s.hasTurn = some w → step s = s.issueTurn w) ∧
  ∀ (s : State), (∀ e ∈ s.tiles, e.2.rotNext = none ∧ e.2.handoffs = []) →
    (∀ w ∈ s.slotsOf, ∀ r, (s.slot w).wave = some r → r.left = false) → (∀ k v, s.wave? k = some v → v.haltAt = none) →
    let s1 := ({ s with tiles := s.tiles.map (fun e => (e.1, e.2.moveLoad s.now)), now := s.now + 1 } : State).ackLinks
    s.nextCycle.now = s.now + 1 ∧
      ∀ w ∈ s.slotsOf, (s.nextCycle.slot w).st = (if s1.waitOver w then .run else (s.slot w).st) ∧
        (s1.waitOver w = true → (s.slot w).st = .wait)

/-- O6. What every instruction meets as it issues: the checks whatever its guard holds, a false guard, the waits for registers, and how waits end: the clauses above together. -/
def Obligations.IssueChecks : Prop :=
  Clause.FalseGuardOnlyGoesOn ∧ Clause.ChecksBeforeTheGuard ∧ Clause.RegisterHazardsWait ∧ Clause.WaitsEndAndSlotsIssueFirst

/-- Reading an operand that is a register, a constant or an identity word leaves the machine as it is and always
succeeds, whatever register it is: z reads 0, `tid` and `vt` as Tables 3.3 and 3.4 say, a neighbour through a pointer that is
not valid 0 (03 R45, R46, R49; 02 R33). -/
def Clause.PlainOperandsAreReadInPlace : Prop :=
  ∀ (s : State) (w : Who) (src dst : List Spec), (∀ c ∈ src, isQF c = false) → (∀ d ∈ dst, isQF d = false) →
    ∃ vs, s.operands w src dst = .ok (vs, s) ∧ vs.length = src.length ∧
      ∀ n c, src[n]? = some c → argN vs n = (match c with
        | .g i => vget (s.slot w).g i.toNat 0
        | .o i => vget (s.slot w).o i.toNat 0
        | .l i => vget (s.slot w).l i.toNat 0
        | .n i => s.neighbourRead w i.toNat
        | .tid => s.tidOf w
        | .vt => s.vtOf w
        | _ => 0)

/-- A receive queue named as a source gives its oldest word and loses it, once for the instruction, however often the
code stands in it, and a full buffer has room from the next cycle on; an empty one, and an acquire of the thread that is not
performed, make the instruction wait with nothing obtained (03 R48; 07 R130, R138, R140). -/
def Clause.AQueueIsReceivedOnce : Prop :=
  ∀ (s : State) (w : Who) (i : BitVec 2) (dst : List Spec), (∀ d ∈ dst, isQF d = false) →
    ((s.slot w).takeHeld = true → s.operands w [.q i, .q i] dst = .wait .fence) ∧
    ((s.slot w).takeHeld = false → ∀ v r, vget (s.slot w).rbuf i.toNat [] = v :: r →
      s.operands w [.q i, .q i] dst =
        .ok ([v, v], (if r.length = 7 then s.room w.tile (4 * w.slot + i.toNat) else s).modSlot w fun x =>
          { x with rbuf := vset x.rbuf i.toNat r })) ∧
    ((s.slot w).takeHeld = false → vget (s.slot w).rbuf i.toNat [] = [] → s.operands w [.q i, .q i] dst = .wait .receive)

/-- A result reaches a g or o register and, with nothing held before it, shifts into l0; one written to z only shifts;
the other last results move up by one (03 R46, R47, R49). -/
def Clause.ResultsShiftIntoTheLastResults : Prop :=
  ∀ (s : State) (w : Who) (d : Spec) (v : Word), d.isPlainDst = true → (s.slot w).lq = [] →
    let x := s.slot w
    let y := (s.writeSpec w d v).slot w
    vget y.l 0 0 = v ∧ vget y.l 1 0 = vget x.l 0 0 ∧ vget y.l 2 0 = vget x.l 1 0 ∧ vget y.l 3 0 = vget x.l 2 0 ∧
      (d ≠ .z → y.reg d = v) ∧ (∀ c, c ≠ d → y.reg c = x.reg c)

/-- O7. How operands are obtained, plain ones in place and a queue once, and how results shift into the last results: the clauses above together. -/
def Obligations.OperandsAndLastResults : Prop :=
  Clause.PlainOperandsAreReadInPlace ∧ Clause.AQueueIsReceivedOnce ∧ Clause.ResultsShiftIntoTheLastResults

/-- `add` to `mulhn` write the results of Table 6.2, wrapping to 64 bits, with the counts of shifts and rotates bits
[5:0] of B (06 R103). -/
def Clause.IntegerBinaryResults : Prop :=
  ∀ (d a b : Spec) (g : Guard),
    let R := fun i f => ScalarResult i g [a, b] d (two f)
    R (.add d a b g) (fun a b => wd (a.toNat + b.toNat)) ∧
    R (.sub d a b g) (fun a b => BitVec.ofInt 64 (a.toNat - b.toNat)) ∧
    R (.and d a b g) (fun a b => a &&& b) ∧
    R (.or d a b g) (fun a b => a ||| b) ∧
    R (.xor d a b g) (fun a b => a ^^^ b) ∧
    R (.andn d a b g) (fun a b => a &&& ~~~b) ∧
    R (.shl d a b g) (fun a b => wd (a.toNat * 2 ^ (b.toNat % 64))) ∧
    R (.shr d a b g) (fun a b => wd (a.toNat / 2 ^ (b.toNat % 64))) ∧
    R (.sar d a b g) (fun a b => BitVec.ofInt 64 (a.toInt / 2 ^ (b.toNat % 64))) ∧
    R (.rol d a b g) (fun a b => wd (a.toNat * 2 ^ (b.toNat % 64) + a.toNat / 2 ^ (64 - b.toNat % 64))) ∧
    R (.min d a b g) (fun a b => if a.toInt ≤ b.toInt then a else b) ∧
    R (.max d a b g) (fun a b => if a.toInt ≤ b.toInt then b else a) ∧
    R (.minn d a b g) (fun a b => if a.toNat ≤ b.toNat then a else b) ∧
    R (.maxn d a b g) (fun a b => if a.toNat ≤ b.toNat then b else a) ∧
    R (.mul d a b g) (fun a b => BitVec.ofInt 64 (a.toInt * b.toInt)) ∧
    R (.mulh d a b g) (fun a b => BitVec.ofInt 64 (a.toInt * b.toInt / 2 ^ 64)) ∧
    R (.mulhn d a b g) (fun a b => wd (a.toNat * b.toNat / 2 ^ 64))

/-- The unary instructions and `sel` write the results of Table 6.3 (06 R104). -/
def Clause.IntegerUnaryResults : Prop :=
  ∀ (d a b : Spec) (p : BitVec 3) (g : Guard),
    let R := fun i f => ScalarResult i g [a] d (one f)
    let Q := fun i r => ScalarRel i g [a] d fun vs v => r (argN vs 0) v
    R (.clz d a g) (fun a => if a = 0 then 64 else wd (63 - a.toNat.log2)) ∧
    Q (.ctz d a g) (fun a v => v.toNat ≤ 64 ∧ (∀ k < v.toNat, a.getLsbD k = false) ∧
      (v.toNat < 64 → a.getLsbD v.toNat = true)) ∧
    R (.popc d a g) (fun a => wd ((List.range 64).filter fun k => a.getLsbD k).length) ∧
    Q (.brev d a g) (fun a v => ∀ k < 64, v.getLsbD k = a.getLsbD (63 - k)) ∧
    Q (.bswap d a g) (fun a v => ∀ k < 8, v.extractLsb' (8 * k) 8 = a.extractLsb' (8 * (7 - k)) 8) ∧
    R (.sx8 d a g) (fun a => (a.setWidth 8).signExtend 64) ∧
    R (.sx16 d a g) (fun a => (a.setWidth 16).signExtend 64) ∧
    R (.sx32 d a g) (fun a => (a.setWidth 32).signExtend 64) ∧
    R (.zx8 d a g) (fun a => (a.setWidth 8).setWidth 64) ∧
    R (.zx16 d a g) (fun a => (a.setWidth 16).setWidth 64) ∧
    R (.zx32 d a g) (fun a => (a.setWidth 32).setWidth 64) ∧
    R (.abs d a g) (fun a => wd a.toInt.natAbs) ∧
    ∀ s vs s1, s.Issues (.sel d a b p) (Meta.of always [a, b] [d]) → s.operands s.focus [a, b] [d] = .ok (vs, s1) →
      exec (.sel d a b p) s = .next (s.past (.sel d a b p)
        (s1.writeSpec s.focus d (if s.cur.pred p then argN vs 0 else argN vs 1)))

/-- The immediate instructions write the results of Table 6.4, and `movh` and `lpca` those of R107, each unguarded
(06 R106, R107; 04 R65). -/
def Clause.ImmediateResults : Prop :=
  ∀ (d a : Spec) (imm : BitVec 14) (cnt : BitVec 6) (v : BitVec 20),
    let R := fun i f => ScalarResult i always [a] d (one f)
    R (.addi d a imm) (fun a => BitVec.ofInt 64 (a.toInt + imm.toInt)) ∧
    R (.andi d a imm) (fun a => a &&& wd imm.toNat) ∧
    R (.ori d a imm) (fun a => a ||| wd imm.toNat) ∧
    R (.xori d a imm) (fun a => a ^^^ wd imm.toNat) ∧
    R (.shli d a cnt) (fun a => wd (a.toNat * 2 ^ cnt.toNat)) ∧
    R (.shri d a cnt) (fun a => wd (a.toNat / 2 ^ cnt.toNat)) ∧
    R (.sari d a cnt) (fun a => BitVec.ofInt 64 (a.toInt / 2 ^ cnt.toNat)) ∧
    R (.muli d a imm) (fun a => BitVec.ofInt 64 (a.toInt * imm.toInt)) ∧
    ScalarResult (.movh d v) always [] d (fun _ => BitVec.ofInt 64 (v.toInt * 2 ^ 14)) ∧
    ∀ s s1, s.Issues (.lpca d v) (Meta.of always [] [d]) → s.operands s.focus [] [d] = .ok ([], s1) →
      exec (.lpca d v) s = .next (s.past (.lpca d v) (s1.writeSpec s.focus d (BitVec.ofInt 64 (s.cur.pc.toNat + 4 * v.toInt))))

/-- O8. Results of the integer instructions of one and two operands and with immediates: the clauses above together. -/
def Obligations.IntegerResults : Prop :=
  Clause.IntegerBinaryResults ∧ Clause.IntegerUnaryResults ∧ Clause.ImmediateResults

/-- A compare sets its predicate to the truth of its relation in Table 6.5 and writes nothing else (06 R108). -/
def Clause.CompareResults : Prop :=
  ∀ (pd : BitVec 3) (a b : Spec) (imm : BitVec 14) (g : Guard),
    let R := fun i (f : Word → Word → Bool) => PredResult i g [a, b] pd fun vs => f (argN vs 0) (argN vs 1)
    let I := fun i (f : Word → Bool) => PredResult i always [a] pd fun vs => f (argN vs 0)
    R (.ceq pd a b g) (fun a b => decide (a.toNat = b.toNat)) ∧ R (.cne pd a b g) (fun a b => decide (a.toNat ≠ b.toNat)) ∧
    R (.clt pd a b g) (fun a b => decide (a.toInt < b.toInt)) ∧ R (.cle pd a b g) (fun a b => decide (a.toInt ≤ b.toInt)) ∧
    R (.cltn pd a b g) (fun a b => decide (a.toNat < b.toNat)) ∧
    R (.clen pd a b g) (fun a b => decide (a.toNat ≤ b.toNat)) ∧
    R (.ctst pd a b g) (fun a b => (List.range 64).any fun k => a.getLsbD k && b.getLsbD k) ∧
    I (.ceqi pd a imm) (fun a => decide (a.toInt = imm.toInt)) ∧
    I (.clti pd a imm) (fun a => decide (a.toInt < imm.toInt)) ∧
    I (.cltni pd a imm) (fun a => decide (a.toNat < imm.toNat))

/-- `pand` to `pput` have the effects of Table 6.6; p0 reads 1 in every context and a write to it is discarded
(06 R109; 03 R50). -/
def Clause.PredicateInstructions : Prop :=
  (∀ (x : Slot) (k : BitVec 3) (v : Bool), x.pred 0 = true ∧ x.preds.getLsbD 0 = true ∧ x.setPred 0 v = x ∧
    (k ≠ 0 → (x.setPred k v).pred k = v) ∧ (∀ j, j ≠ k → (x.setPred k v).pred j = x.pred j)) ∧
  (∀ (pd pa pb : BitVec 3) (g : Guard) (s : State),
    let R := fun i f => s.Issues i (Meta.of g [] []) → exec i s = .next (s.past i (s.modSlot s.focus fun x =>
      x.setPred pd (f (x.pred pa) (x.pred pb))))
    R (.pand pd pa pb g) (fun a b => a && b) ∧ R (.por pd pa pb g) (fun a b => a || b) ∧
    R (.pxor pd pa pb g) (fun a b => a != b) ∧ R (.pandn pd pa pb g) (fun a b => a && !b)) ∧
  (∀ (d : Spec) (g : Guard) s s1, s.Issues (.pget d g) (Meta.of g [] [d]) → s.operands s.focus [] [d] = .ok ([], s1) →
    exec (.pget d g) s = .next (s.past (.pget d g) (s1.writeSpec s.focus d (s.cur.preds.setWidth 64)))) ∧
  ∀ (a : Spec) (g : Guard) s vs s1, s.Issues (.pput a g) (Meta.of g [a] []) → s.operands s.focus [a] [] = .ok (vs, s1) →
    ∃ p : BitVec 8, (∀ k : BitVec 3, k ≠ 0 → p.getLsbD k.toNat = (argN vs 0).getLsbD k.toNat) ∧
      exec (.pput a g) s = .next (s.past (.pput a g) (s1.modSlot s.focus fun x => { x with p := p }))

/-- O9. Results of the compares and of the predicate instructions: the clauses above together. -/
def Obligations.ComparesAndPredicates : Prop :=
  Clause.CompareResults ∧ Clause.PredicateInstructions

/-- O10. The predicate word holds p7 down to p0 in bits 7 to 0. p0 reads as 1 in every context, `pget` included, a write to it by any
compare, predicate instruction or `pput` is discarded, and a guard names a predicate and the value it must have (03 R50). -/
def Obligations.PredicateZero : Prop :=
  (∀ (x : Slot) (k : BitVec 3) (v : Bool) (g : Guard), x.pred 0 = true ∧ x.setPred 0 v = x ∧
    (k ≠ 0 → x.pred k = x.p.getLsbD k.toNat ∧ (x.setPred k v).p.getLsbD k.toNat = v) ∧
    (x.guardHolds g = true ↔ (x.pred g.p = true ↔ g.sense = 0))) ∧
  (∀ (s s1 : State) (d : Spec) (g : Guard), s.Issues (.pget d g) (Meta.of g [] [d]) → s.operands s.focus [] [d] = .ok ([], s1) →
    ∃ v : Word, exec (.pget d g) s = .next (s.past (.pget d g) (s1.writeSpec s.focus d v)) ∧ v.getLsbD 0 = true ∧
      (∀ k : BitVec 3, v.getLsbD k.toNat = s.cur.pred k) ∧ v.toNat < 256) ∧
  (∀ s i m, predTarget i = some 0 → instrMeta s.cur.isMember i = some m → s.Issues i m → s.cur.wave = none →
    (∀ c ∈ m.src, isOwn c = true) → ∃ t, exec i s = .next t ∧ (t.slot s.focus).p = s.cur.p) ∧
  ∀ (s s1 : State) (a : Spec) (g : Guard) vs, s.Issues (.pput a g) (Meta.of g [a] []) → s.operands s.focus [a] [] = .ok (vs, s1) →
    ∃ t, exec (.pput a g) s = .next (s.past (.pput a g) t) ∧ (t.slot s.focus).pred 0 = true ∧
      ∀ k : BitVec 3, k ≠ 0 → s1.focus = s.focus → (t.slot s.focus).pred k = (argN vs 0).getLsbD k.toNat

/-- The frame of the plain scalar instructions: with sources and destination that are registers of the thread or
constants, outside waves, memory, every other thread, every tile but for its slots, and of the thread's own registers all
but the destination, the last results, the PC and the loop counts are as before (06 R103, R104, R106, R107, R109). -/
def Clause.ScalarFrame : Prop :=
  ∀ s i m d, plainScalar i = true → instrMeta s.cur.isMember i = some m → m.dst = [d] → s.Issues i m →
    s.cur.wave = none → (∀ c ∈ m.src, isOwn c = true) → isOwn d = true →
    ∃ t, exec i s = .next t ∧ s.SameMemory t ∧ s.SameOthers t s.focus ∧ Slot.SameSystem s.cur (t.slot s.focus) ∧
      (∀ c, c ≠ d → (t.slot s.focus).reg c = s.cur.reg c) ∧ (t.slot s.focus).ls0 = s.cur.ls0 ∧
      (t.slot s.focus).ls1 = s.cur.ls1 ∧ (t.slot s.focus).le0 = s.cur.le0 ∧ (t.slot s.focus).le1 = s.cur.le1

/-- The same of the compares and the instructions that combine predicates, `fcls` among them: they change the one
predicate, shift nothing and write no scalar (06 R108, R109, R113). -/
def Clause.CompareFrame : Prop :=
  ∀ s i m, (predTarget i).isSome = true → instrMeta s.cur.isMember i = some m → s.Issues i m → s.cur.wave = none →
    (∀ c ∈ m.src, isOwn c = true) →
    ∃ t, exec i s = .next t ∧ s.SameMemory t ∧ s.SameOthers t s.focus ∧ (∀ c, (t.slot s.focus).reg c = s.cur.reg c) ∧
      (t.slot s.focus).l = s.cur.l ∧ (∀ k, predTarget i ≠ some k → (t.slot s.focus).pred k = s.cur.pred k) ∧
      ∃ p, Slot.SameSystem { s.cur with p := p } (t.slot s.focus)

/-- O11. Frame of the plain scalar, compare and predicate instructions: what they leave unchanged: the clauses above together. -/
def Obligations.ScalarFrames : Prop :=
  Clause.ScalarFrame ∧ Clause.CompareFrame

/-- `fadd`, `fsub`, `fmul`, `ffma`, `fmin`, `fmax` and `fcvt` write the pattern of their result in Table 6.7 and R112 and set
the flags named there, the operands being bits [31:0] of their sources (for `fcvt.f32` bits [15:0], a BF16), subnormals
flushed in waves (06 R110 to R112; 05 R88). -/
def Clause.FloatResults : Prop :=
  ∀ (d a b : Spec) (g : Guard) (ty : BitVec 4) (rm : BitVec 2),
    let R := fun i f => FloatResult i g 0 [a, b] d fun ps =>
      let r := f32Of (f (tyDecode 0 (argP ps 0)) (tyDecode 0 (argP ps 1)))
      (wd r.1, r.2)
    R (.fadd d a b g) (numAdd 0) ∧ R (.fsub d a b g) (fun x y => numAdd 0 x (numNeg y)) ∧ R (.fmul d a b g) numMul ∧
    R (.fmin d a b g) (fun x y => (numPick false x y, 0)) ∧ R (.fmax d a b g) (fun x y => (numPick true x y, 0)) ∧
    FloatResult (.ffma d a b g) g 0 [a, b, d] d (fun ps =>
      let r := f32Of (numFma (tyDecode 0 (argP ps 0)) (tyDecode 0 (argP ps 1)) (tyDecode 0 (argP ps 2)))
      (wd r.1, r.2)) ∧
    FloatResult (.fcvt d a ty rm g) g (if ty = 0 then 1 else 0) [a] d fun ps =>
      let r := tyEncode ty.toNat rm.toNat (tyDecode (if ty = 0 then 1 else 0) (argP ps 0))
      (cvtWord ty.toNat r.1, r.2)

/-- `fceq`, `fclt` and `fcle` set their predicate to the truth of the relation, false with a NaN; `fcls` to whether the
operand's class is among those its mask selects, with bit 5 asking for a sign of 1 as well (06 R113). -/
def Clause.FloatCompareResults : Prop :=
  ∀ (pd : BitVec 3) (a b : Spec) (mask : BitVec 6) (g : Guard),
    FloatCompare (.fceq pd a b g) g a b pd (fun c => decide (c = 0)) ∧
    FloatCompare (.fclt pd a b g) g a b pd (fun c => decide (c < 0)) ∧
    FloatCompare (.fcle pd a b g) g a b pd (fun c => decide (c ≤ 0)) ∧
    PredResult (.fcls pd a mask g) g [a] pd fun vs =>
      let v := argN vs 0
      let e := v.extractLsb' 23 8
      let m := v.extractLsb' 0 23
      let cls := if e = 0 then (if m = 0 then 0 else 1) else if e = 255 then (if m = 0 then 3 else 4) else 2
      mask.getLsbD cls && (!mask.getLsbD 5 || v.getLsbD 31)

/-- A subnormal operand outside waves raises the subnormal-assist trap with the word as its value and nothing written,
in every scalar floating-point instruction but `fcls`; of `fcvt` the operand has its source type (05 R87; 06 R110, R112). -/
def Clause.SubnormalOperandsTrap : Prop :=
  ∀ (s : State) (d a b : Spec) (g : Guard) (pd : BitVec 3) (vs : List Word) (s1 : State), s.cur.inWave = false →
    let traps := fun i m src dst => s.Issues i m → s.operands s.focus src dst = .ok (vs, s1) →
      exec i s = .next (s.raise s.focus cAssist (wordOf i) s.cur.pc)
    (∀ ty rm, anySubnormal (if ty = 0 then 1 else 0) vs = true → traps (.fcvt d a ty rm g) (Meta.of g [a] [d]) [a] [d]) ∧
    (anySubnormal 0 vs = true →
      (∀ i, i ∈ [Instr.fadd d a b g, .fsub d a b g, .fmul d a b g, .fmin d a b g, .fmax d a b g] →
        traps i (Meta.of g [a, b] [d]) [a, b] [d]) ∧
      traps (.ffma d a b g) (Meta.of g [a, b, d] [d]) [a, b, d] [d] ∧
      (∀ i, i ∈ [Instr.fceq pd a b g, .fclt pd a b g, .fcle pd a b g] → traps i (Meta.of g [a, b] []) [a, b] []) ∧
      ∀ la p, traps (.fdiv d a b la p) (Meta.solo (onP p) [a, b] [d]) [a, b] [d] ∧
        traps (.fsqr d a la p) (Meta.solo (onP p) [a] [d]) [a] [d])

/-- O12. Results and flags of the scalar floating-point instructions, and the subnormal-assist trap: the clauses above together. -/
def Obligations.FloatingPoint : Prop :=
  Clause.FloatResults ∧ Clause.FloatCompareResults ∧ Clause.SubnormalOperandsTrap

/-- The divides and roots join the pending instructions of their thread with their quotient, remainder or root, due 36,
20 or 24 cycles after issue; a zero divisor and the one overflowing quotient give what R105 says (06 R105, R111). -/
def Clause.DividesArePending : Prop :=
  ∀ (d a b : Spec) (la : BitVec 4) (p : BitVec 3),
    let R := fun i (f : Word → Word → Word) => LongResult i la p [a, b] d 36 (fun _ => True) fun vs => (f (argN vs 0) (argN vs 1), 0)
    R (.div d a b la p) (fun a b => if b = 0 then -1 else if a.toInt = -2 ^ 63 ∧ b.toInt = -1 then a
      else BitVec.ofInt 64 (a.toInt.tdiv b.toInt)) ∧
    R (.divn d a b la p) (fun a b => if b = 0 then wd (2 ^ 64 - 1) else wd (a.toNat / b.toNat)) ∧
    R (.rem d a b la p) (fun a b => if b = 0 then a else if a.toInt = -2 ^ 63 ∧ b.toInt = -1 then 0
      else BitVec.ofInt 64 (a.toInt - a.toInt.tdiv b.toInt * b.toInt)) ∧
    R (.remn d a b la p) (fun a b => if b = 0 then a else wd (a.toNat - a.toNat / b.toNat * b.toNat)) ∧
    LongResult (.fdiv d a b la p) la p [a, b] d 20 (fun vs => anySubnormal 0 vs = false) (fun vs =>
      let r := numDiv 0 f32 0 (tyDecode 0 (flushed false 0 (argN vs 0))) (tyDecode 0 (flushed false 0 (argN vs 1)))
      (wd r.1, r.2)) ∧
    LongResult (.fsqr d a la p) la p [a] d 24 (fun vs => anySubnormal 0 vs = false) (fun vs =>
      let r := numSqrt 0 f32 0 (tyDecode 0 (flushed false 0 (argN vs 0)))
      (wd r.1, r.2))

/-- DIVIDE_COMPLETE and FDIV_FSQR_COMPLETE write the result of a divide that has run its cycles, shift it in program
order, set its flags and take it from the pending ones (04 Table 4.3; 06 R105, R111; 03 R47). -/
def Clause.DividesComplete : Prop :=
  ∀ (s : State) (w : Who) (q : Pend) (d : Spec) (v fl : Word), (s.slot w).ripe s.now q.seq = some q → q.job = .write d v fl →
    s.landReady w q.seq [d] = true →
    let t := (s.landResult w q.seq [(d, v)]).modSlot w fun x => (x.dropPend q.seq).raiseFlags fl.toNat
    ((bits q.word.toNat 31 26 = 8 ∨ bits q.word.toNat 31 26 = 9) → exec (.divideComplete w q.seq) s = .next t) ∧
    (bits q.word.toNat 31 26 = 7 → exec (.fdivFsqrComplete w q.seq) s = .next t) ∧
    (t.slot w).pend = (s.slot w).pend.filter (fun p => p.seq != q.seq)

/-- O13. Divides and square roots: pending with their result as they issue, written as they complete: the clauses above together. -/
def Obligations.Divides : Prop :=
  Clause.DividesArePending ∧ Clause.DividesComplete

/-- An instruction that took no transfer is followed, outside waves, by the word the loop-end decision names, and one
that did by its target; one `eret` re-executed alone by `enext` (06 R114, R117; 10 R211). A loop-end decision at the last
instruction of an active level counts it down and repeats its body until the count is 0, at the inner level first and at
the outer one in the same cycle when they end together; elsewhere the next word follows (06 R117). -/
def Clause.LoopEndDecision : Prop :=
  (∀ (s t : State) i target, (t.slot s.focus).wave = none →
    let x := t.slot s.focus
    (x.solo = true → s.past i t = t.modSlot s.focus (fun x =>
      { x with iseq := x.iseq + 1, st := .run, why := .none, solo := false, pc := x.enext })) ∧
    (x.solo = false → s.pastTo i t target = t.modSlot s.focus fun x =>
      { x with iseq := x.iseq + 1, st := .run, why := .none, pc := target }) ∧
    (x.solo = false → s.past i t = t.modSlot s.focus fun x =>
      { x with iseq := x.iseq + 1, st := .run, why := .none, lc0 := (x.loopEnd s.cur.pc).1.lc0
               lc1 := (x.loopEnd s.cur.pc).1.lc1, pc := (x.loopEnd s.cur.pc).2 })) ∧
  ∀ (x : Slot) (pc : Word),
    let r := x.loopEnd pc
    let at1 := x.lc1 ≠ 0 ∧ pc = x.le1
    let at0 := x.lc0 ≠ 0 ∧ pc = x.le0
    (at1 ∧ x.lc1 ≠ 1 → r.2 = x.ls1 ∧ r.1.lc1 = x.lc1 - 1 ∧ r.1.lc0 = x.lc0) ∧
    (at1 ∧ x.lc1 = 1 ∧ at0 → r.2 = (if x.lc0 = 1 then pc + 4 else x.ls0) ∧ r.1.lc1 = 0 ∧ r.1.lc0 = x.lc0 - 1) ∧
    (at1 ∧ x.lc1 = 1 ∧ ¬ at0 → r.2 = pc + 4 ∧ r.1.lc1 = 0 ∧ r.1.lc0 = x.lc0) ∧
    (¬ at1 ∧ at0 → r.2 = (if x.lc0 = 1 then pc + 4 else x.ls0) ∧ r.1.lc1 = x.lc1 ∧ r.1.lc0 = x.lc0 - 1) ∧
    (¬ at1 ∧ ¬ at0 → r.2 = pc + 4 ∧ r.1 = x)

/-- `loop` and `loopi` open a level as R116 says: a count of 0 skips the body, else level 0 where it is free, else level 1
inside it, else the loop-nest trap with no register changed. Nothing shifts into l0 (06 R116). -/
def Clause.LoopsOpen : Prop :=
  ∀ (s s1 : State) (a : Spec) (n : BitVec 12) (eo : BitVec 14) (vs : List Word), s.cur.isMember = false →
    let e := s.cur.pc + 4 * eo.setWidth 64
    ∀ i c, (i = .loop a eo ∧ c = argN vs 0 ∧ s.Issues i (Meta.of always [a] []) ∧ s.operands s.focus [a] [] = .ok (vs, s1)) ∨
        (i = .loopi n eo ∧ c = n.setWidth 64 ∧ s.Issues i (Meta.of always [] []) ∧ s1 = s) →
      s1.focus = s.focus → s1.cur.lc0 = s.cur.lc0 → s1.cur.lc1 = s.cur.lc1 → s1.cur.le0 = s.cur.le0 → s1.cur.pc = s.cur.pc →
      exec i s = .next (
        if c = 0 then s.pastTo i s1 (e + 4)
        else if s.cur.lc0 = 0 then
          s.past i (s1.modSlot s.focus fun x => { x with ls0 := x.pc + 4, le0 := e, lc0 := c })
        else if s.cur.lc1 = 0 ∧ e.toNat ≤ s.cur.le0.toNat then
          s.past i (s1.modSlot s.focus fun x => { x with ls1 := x.pc + 4, le1 := e, lc1 := c })
        else s.raise s.focus cLoopNest e s.cur.pc)

/-- O14. Loops: what opens a level, and the loop-end decision after each instruction: the clauses above together. -/
def Obligations.LoopsOpenAndEnd : Prop :=
  Clause.LoopEndDecision ∧ Clause.LoopsOpen

/-- O15. A taken branch goes to its address plus four times its offset, `bl` leaving the address after it in g15 and l0; a
jump goes to its operand, `jlr` leaving its own address + 4, and one whose bits [1:0] are not 0 takes the fetch-alignment
trap with no link written; a wave member only passes the index (06 R114, R115, R124). -/
def Obligations.BranchesAndJumps : Prop :=
  ∀ (s : State) (p : BitVec 3) (sense : BitVec 1) (off : BitVec 22) (d a : Spec) (g : Guard),
    let b : Instr := .b p sense off
    let bl : Instr := .bl p sense off
    let jr : Instr := .jr a g
    let jlr : Instr := .jlr d a g
    let tgt := BitVec.ofInt 64 (s.cur.pc.toNat + 4 * off.toInt)
    (s.cur.isMember = false →
      (s.Issues b (Meta.of ⟨sense, p⟩ [] []) → exec b s = .next (s.pastTo b s tgt)) ∧
      (s.Issues bl (Meta.of ⟨sense, p⟩ [] [.g 15]) →
        exec bl s = .next (s.pastTo bl (s.writeSpec s.focus (.g 15) (s.cur.pc + 4)) tgt)) ∧
      (∀ vs s1, s.Issues jr (Meta.of g [a] []) → s.operands s.focus [a] [] = .ok (vs, s1) →
        exec jr s = .next (if (argN vs 0).toNat % 4 = 0 then s.pastTo jr s1 (argN vs 0)
          else s.raise s.focus cFetchAlign (argN vs 0) s.cur.pc)) ∧
      (∀ vs s1, s.Issues jlr (Meta.of g [a] [d]) → s.operands s.focus [a] [d] = .ok (vs, s1) →
        exec jlr s = .next (if (argN vs 0).toNat % 4 = 0 then
            s.pastTo jlr (s1.writeSpec s.focus d (s.cur.pc + 4)) (argN vs 0)
          else s.raise s.focus cFetchAlign (argN vs 0) s.cur.pc))) ∧
    (s.cur.isMember = true → ∀ i m, i ∈ [b, bl, jr, jlr] → instrMeta true i = some m → s.Issues i m →
      exec i s = .next (s.past i s))

/-- O16. `brk n` takes the breakpoint trap with code n where its guard is true, with the address after it as the return
address, and does nothing where it is false (06 R118). -/
def Obligations.BreakpointTrap : Prop :=
  ∀ (s : State) (n : BitVec 6) (g : Guard), s.Reaches (.brk n g) (Meta.solo g [] []) →
    (s.cur.guardHolds g = true → s.cur.hazard (Meta.solo g [] []) = none →
      exec (.brk n g) s = .next (s.raise s.focus cBreak (wd n.toNat) (s.cur.pc + 4))) ∧
    (s.cur.guardHolds g = false → exec (.brk n g) s = .next (s.advance s.focus (.brk n g) false none s.cur.pc)) ∧
    ∀ v, encode (.brk n g) = some v → v.extractLsb' 8 6 = n ∧ v.extractLsb' 14 6 = 0 ∧ v.extractLsb' 20 6 = 0

/-- A cause taken by a thread with nothing pending, that does not freeze it, with `tvec` not 0 and TM 0: `epc` and
`enext` name the address given, `ecause` and `eval` hold the cause and its value, TM is 1 and the thread goes on at
`tvec`; its registers, memory and every other thread are as before. With `tvec` 0, TM 1, or a cause that freezes, the
thread enters HALT, frozen, with TM as it was; a thread of a context that is torn down is only taken out of the rotation then. `trap n`
is such a cause with n as its value and the next address (10 R210; 21 R344; 22 R351, R352). -/
def Clause.TrapEntry : Prop :=
  (∀ (s : State) (n : BitVec 12) (g : Guard), s.Issues (.trap n g) (Meta.solo g [] []) →
    exec (.trap n g) s = .next (s.raise s.focus cSoftware (wd n.toNat) (s.cur.pc + 4))) ∧
  ∀ (s : State) (w : Who) (c : Nat) (ev pc : Word),
    let x := s.slot w
    let t := s.raise w c ev pc
    let y := t.slot w
    x.wave = none → x.pend = [] → x.vpend = [] → x.trapq = [] → x.solo = false →
    ((s.ctxOf (x.ctx.getD 0)).dying = true → causeFreezes c = true ∨ x.tvec = 0 ∨ x.tm = true →
      y.st = .out ∧ y.frozen = x.frozen ∧ y.epc = x.epc ∧ y.estat = x.estat ∧ ∀ r, y.reg r = x.reg r) ∧
    ((s.ctxOf (x.ctx.getD 0)).dying = false → y.epc = pc ∧ y.enext = pc ∧ y.ecause = wd c ∧ y.eval = (if c = cTimer then s.cyc w.tile else ev) ∧
      (∀ r, y.reg r = x.reg r) ∧ y.l = x.l ∧ y.p = x.p ∧ y.fstat = x.fstat ∧ y.v = x.v ∧ y.tvec = x.tvec ∧
      (causeFreezes c = false → x.tvec ≠ 0 → x.tm = false →
        y.tm = true ∧ y.pc = x.tvec ∧ y.frozen = x.frozen ∧ y.st = (if x.outReq then .out else .run) ∧
        s.SameMemory t ∧ s.SameOthers t w) ∧
      (causeFreezes c = true ∨ x.tvec = 0 ∨ x.tm = true →
        y.st = .halt ∧ y.frozen = true ∧ y.estat = x.estat ∧ y.pc = x.pc))

/-- TRAP_ENTRY takes a cause that waited once every earlier instruction has settled: the earliest one, its RE set when a
later instruction has taken effect, with `enext` then the first instruction not issued; until then the thread waits (10
R210; 22 R356). -/
def Clause.TrapEntryWaits : Prop :=
  ∀ (s : State) (w : Who) (f : TrapReq), let x := s.slot w
    (s.tile w.tile).still = false → x.trapq = [f] → f.re = false → f.long = true → x.solo = false →
    (x.pend ≠ [] ∨ x.vpend ≠ [] → exec (.trapEntry w) s = .next s) ∧
    (x.pend = [] → x.vpend = [] →
      exec (.trapEntry w) s = .next (
        if x.iseq ≤ f.seq then (s.modSlot w fun x => { x with lc0 := f.lc0, lc1 := f.lc1 }).enterTrap w f.cause f.ev f.pc false x.pc
        else s.enterTrap w f.cause f.ev f.pc true x.pc))

/-- O17. Taking a trap: the registers it writes, when it freezes instead, and its wait for earlier instructions: the clauses above together. -/
def Obligations.TrapEntryAndItsWait : Prop :=
  Clause.TrapEntry ∧ Clause.TrapEntryWaits

/-- O18. `eret` with TM 0 takes the illegal-instruction trap; otherwise TM becomes 0 and the thread goes on at `epc`, with RE 1
executing that instruction alone and then going on at `enext` (10 R211). -/
def Obligations.ReturnFromTrap : Prop :=
  (∀ (s : State) (g : Guard), s.Issues (.eret g) (Meta.solo g [] []) →
    (s.cur.tm = false → exec (.eret g) s = .next (s.raise s.focus cIllegal (wordOf (.eret g)) s.cur.pc)) ∧
    (s.cur.tm = true → ∃ t, exec (.eret g) s = .next t ∧ (t.slot s.focus).tm = false ∧ (t.slot s.focus).pc = s.cur.epc ∧
      (t.slot s.focus).solo = s.cur.ecause.getLsbD 31 ∧ (t.slot s.focus).st = .run ∧
      (t.slot s.focus).enext = s.cur.enext ∧ s.SameMemory t ∧ s.SameOthers t s.focus)) ∧
  ∀ (s t : State) i, (t.slot s.focus).wave = none → (t.slot s.focus).solo = true →
    ((s.past i t).slot s.focus).pc = (t.slot s.focus).enext ∧ ((s.past i t).slot s.focus).solo = false

/-- O19. With EN 1, TM 0 and `cyc` at or past `tmr` the timer trap comes before the next instruction of a thread that may
issue: `epc` names it, EN becomes 0 and FIRED 1, and a wait is abandoned. While TM is 1 it is held (10 R212). -/
def Obligations.TimerTrap : Prop :=
  ∀ (s : State) (w : Who), let x := s.slot w
    (x.tctl.getLsbD 0 = false ∨ x.tm = true ∨ (s.cyc w.tile).toNat < x.tmr.toNat → exec (.timerTrap w) s = .next s) ∧
    (s.canIssue w = true → x.tctl.getLsbD 0 = true → x.tm = false → x.tmr.toNat ≤ (s.cyc w.tile).toNat → x.solo = false →
      x.wave = none → x.pend = [] → x.vpend = [] → x.tvec ≠ 0 → x.outReq = false →
      ∃ t, exec (.timerTrap w) s = .next t ∧ let y := t.slot w
        y.epc = x.pc ∧ y.pc = x.tvec ∧ y.ecause = wd cTimer ∧ y.eval = s.cyc w.tile ∧ y.tm = true ∧
        y.tctl.getLsbD 0 = false ∧ y.tctl.getLsbD 1 = true ∧ y.st = .run ∧ y.op = none ∧ y.join = none ∧ s.SameMemory t)

/-- `wjoin` by a thread whose earlier instructions are complete claims slot s of every other tile of the run, where each
is IDLE, is wanted by no context that comes before a wave (06 R120) and holds the issuer's one position, also under a table
accepted for later (02 R29), and waits; where one condition fails it takes the wave-join trap and claims nothing (06 R119). -/
def Clause.WaveJoinClaims : Prop :=
  ∀ (s s1 : State) (a b : Spec) (g : Guard) (vs : List Word), s.Issues (.wjoin a b g) (Meta.solo g [a, b] []) →
    s.cur.red = none → s.cur.join = none → s.cur.settledCopies = true →
    s.operands s.focus [a, b] [] = .ok (vs, s1) →
    (isQF a = false ∧ isQF b = false) →
    let l := (argN vs 0).toNat
    let rows := if b = .z ∨ argN vs 1 = 0 then 1 else (argN vs 1).toNat
    let ok := ∃ h, (s.tile s.focus.tile).positions s.focus.slot = [h] ∧ (s.tile s.focus.tile).holdsPhase s.focus.slot h = true ∧ 1 ≤ l ∧ l ≤ 48 ∧ 1 ≤ rows ∧ rows ≤ s.caps.height ∧
      ∀ m ∈ s.runOf s.focus.tile l rows, m.2.2 ≠ s.focus.tile → s.claimable ⟨m.2.2, s.focus.slot⟩ h none = true
    (ok → ∃ t, exec (.wjoin a b g) s = .next t ∧ (t.slot s.focus).st = .wait ∧ (t.slot s.focus).why = .claim ∧
      (t.slot s.focus).join = some (l, rows, [a, b]) ∧
      (t.slot s.focus).waitUntil = some (s.now + 40 + 4 * (l + rows)) ∧ s.SameMemory t ∧
      (∀ m ∈ s.runOf s.focus.tile l rows, m.2.2 ≠ s.focus.tile →
        t.slot ⟨m.2.2, s.focus.slot⟩ = { s.slot ⟨m.2.2, s.focus.slot⟩ with claimed := some s.focus }) ∧
      ∀ u : Who, u ≠ s.focus → (∀ m ∈ s.runOf s.focus.tile l rows, u ≠ ⟨m.2.2, s.focus.slot⟩) → t.slot u = s.slot u) ∧
    (¬ ok → ∃ v, exec (.wjoin a b g) s = .next (s.raise s.focus cWaveJoin v s.cur.pc))

/-- WJOIN_COMMIT with every claim standing forms the wave: each claimed slot has its tag up by one, the issuer's task,
g0 to g15 and predicates, zero in g16 to g31 and the o registers, the heads of the other rows in RUN at the next
instruction and the rest MEMBER; the issuer is the head of row 0 and goes on (06 R119). -/
def Clause.WaveJoinCommits : Prop :=
  ∀ (s : State) (w : Who) (l rows : Nat) (a b : Spec), let x := s.slot w
    x.join = some (l, rows, [a, b]) → x.st = .wait → x.why = .claim → isQF a = false → isQF b = false → x.wave = none →
    x.solo = false → s.joinHeld w l rows = false → s.joinRefusal w l rows (some w) = none →
    ∃ t, exec (.wjoinCommit w) s = .next t ∧ (t.slot w).wave = some ⟨s.nextWave, 0, 0, 0, none⟩ ∧ (t.slot w).st = .run ∧
      (t.slot w).join = none ∧ t.nextWave = s.nextWave + 1 ∧ s.SameMemory t ∧
      ∀ m ∈ s.runOf w.tile l rows, m.2.2 ≠ w.tile →
        let y := t.slot ⟨m.2.2, w.slot⟩
        y.gen = (s.slot ⟨m.2.2, w.slot⟩).gen + 1 ∧ y.task = x.task ∧ y.ctx = x.ctx ∧ y.p = x.p ∧ y.pc = x.pc + 4 ∧
        y.wave = some ⟨s.nextWave, m.2.1, m.1, 0, none⟩ ∧ y.claimed = none ∧
        y.st = (if m.2.1 = 0 then .run else .member) ∧ (∀ k < 16, vget y.g k 0 = vget x.g k 0) ∧
        (∀ k, 16 ≤ k → vget y.g k 0 = 0) ∧ (∀ k, vget y.o k 0 = 0)

/-- O20. `wjoin` claims the slots of a run and forms its wave when every member is ready: the clauses above together. -/
def Obligations.WavesForm : Prop :=
  Clause.WaveJoinClaims ∧ Clause.WaveJoinCommits

/-- `wleave` at a row head has no effect; at a member it sets the index after which the member leaves, never one before
its own; outside a wave it takes the wave-illegal trap (06 R121). A member past that index, with what it has issued complete, enters
IDLE with its registers kept, and until then it keeps its place (02 R35). -/
def Clause.MembersLeave : Prop :=
  (∀ (s s1 : State) (a : Spec) (g : Guard) (vs : List Word) (r : WaveRef), s.Issues (.wleave a g) (Meta.of g [a] []) →
    s.cur.wave = some r → s.operands s.focus [a] [] = .ok (vs, s1) →
    exec (.wleave a g) s = .next (s.past (.wleave a g) (if r.k = 0 then s1 else
      s1.modSlot s.focus fun x => { x with wave := some { r with leaveAt := some (max (argN vs 0).toNat r.idx) } }))) ∧
  (∀ (s : State) (a : Spec) (g : Guard), s.cur.inWave = false → isN a = false → s.canIssue s.focus = true →
    s.cur.window (Meta.of g [a] []) ≠ .wait →
    exec (.wleave a g) s = .next (s.raise s.focus cWaveIllegal (wordOf (.wleave a g)) s.cur.pc)) ∧
  ∀ (s t : State) (i : Instr) (r : WaveRef) (v : Wave) (m : Nat), (t.slot s.focus).wave = some r → t.wave? r.id = some v →
    v.haltAt = none → r.k ≠ 0 → r.leaveAt = some m → m ≤ r.idx → (t.slot s.focus).isMember = true →
    ((t.slot s.focus).pend ≠ [] → ((s.past i t).slot s.focus).st = (t.slot s.focus).st ∧
      ((s.past i t).slot s.focus).pend = (t.slot s.focus).pend) ∧
    ((t.slot s.focus).pend = [] → (t.slot s.focus).vpend = [] → ((s.past i t).slot s.focus).st = .idle ∧ ((s.past i t).slot s.focus).wave = none ∧
      ((s.past i t).slot s.focus).task = none ∧ ∀ c, ((s.past i t).slot s.focus).reg c = (t.slot s.focus).reg c)

/-- `wwork` outside a wave, with the earlier instructions and copies complete and, for the task's own thread, no
auxiliary left, ends the thread: the slot IDLE with registers kept, its bindings, routes and task gone. In a wave a
member whose head's guard held, and a head, enter IDLE, what they have issued complete (06 R122; 02 R39). -/
def Clause.ThreadsEnd : Prop :=
  ∀ (s : State) (g : Guard),
    let t := s.endThread s.focus
    (s.cur.wave = none → s.Issues (.wwork g) (Meta.of g [] []) → s.cur.settledCopies = true →
      (s.cur.aux = true ∨ ((s.cur.task.bind s.task?).map fun q => q.auxes).getD 0 = 0) →
      exec (.wwork g) s = .next t) ∧
    (t.slot s.focus).st = .idle ∧ (t.slot s.focus).task = none ∧ (t.slot s.focus).ctx = none ∧
    (∀ c, (t.slot s.focus).reg c = s.cur.reg c) ∧ (∀ k, ((t.slot s.focus).bind k).st = .unbound) ∧
    (∀ k, vget (t.slot s.focus).routes k none = none) ∧
    (∀ r, s.cur.wave = some r → s.Issues (.wwork g) (Meta.of (if s.cur.isMember then always else g) [] []) →
      (r.k = 0 ∨ s.headTook r = true) →
      ∃ u, exec (.wwork g) s = .next u ∧ ∀ v, s.wave? r.id = some v → v.haltAt = none →
        s.cur.pend = [] → s.cur.vpend = [] → (u.slot s.focus).st = .idle)

/-- `wsafe` with no notice pending takes its position and does nothing; with one, and the earlier instructions complete,
it completes in place where no spare can take the tile, and otherwise a move of the tile begins while the thread waits
(06 R123; 02 R40). -/
def Clause.SafePoints : Prop :=
  ∀ (s : State) (g : Guard), s.Issues (.wsafe g) (Meta.solo g [] []) →
    (s.cur.notice = false ∨ s.cur.pers = false → exec (.wsafe g) s = .next (s.past (.wsafe g) s)) ∧
    (s.cur.notice = true → s.cur.pers = true → s.cur.settledCopies = true → (s.tile s.focus.tile).move = none →
      (s.coolSpare (s.phys s.focus.tile / 64) = none →
        exec (.wsafe g) s = .next (s.past (.wsafe g) (s.modSlot s.focus fun x => { x with op := none }))) ∧
      ∀ dst, s.coolSpare (s.phys s.focus.tile / 64) = some dst →
        ∃ t, exec (.wsafe g) s = .next t ∧ (t.slot s.focus).st = .wait ∧ (t.slot s.focus).why = .move ∧
          ((t.tile s.focus.tile).move.map fun m => (m.why, m.dst)) = some (.thermal, dst))

/-- O21. Members leave their wave, threads end and their tasks retire, and safe points let a thread move: the clauses above together. -/
def Obligations.WavesAndThreadsEnd : Prop :=
  Clause.MembersLeave ∧ Clause.ThreadsEnd ∧ Clause.SafePoints

/-- A load outside waves, its access opened at issue, joins the pending ones of its thread with the delay of its translation and
the unloaded latency of the places it names; in a wave it is served in its issue cycle, the thread's own stores before it among the
bytes (07 R129, R130; 11 R217, R405; 12 R239). An access that joins is complete no sooner than that, and each part of it acts at its
place no sooner than half way of its own path (11 R405). -/
def Clause.LoadsIssue : Prop :=
  (∀ (s s1 s2 : State) (i : Instr) (f : LoadForm) (m : Meta) (vs : List Word) (a : Acc) (d : Nat),
    loadForm i = some f → instrMeta s.cur.isMember i = some m → s.Issues i m →
    s.operands s.focus [f.base] [] = .ok (vs, s1) →
    s1.openAcc s.focus (wordOf i) ⟨f.am, addrOf (argN vs 0), f.n, 1, 0, 0, [], false⟩ f.n .read = .go a d s2 →
    (s2.slot s.focus).inWave = s.cur.inWave →
    (s.cur.inWave = false →
      exec i s = .next (s.past i (s2.openPend s.focus i f.la (.load f.t a f.signed f.pair f.acq f.rd) d
        (s2.latencies s.focus.tile a false)))) ∧
    (s.cur.inWave = true →
      exec i s = .next (s.past i ((loadResults f.t f.n f.signed f.pair (s2.ownBytes s.focus a.parts)).foldl
        (fun s r => s.writeSpec s.focus r.1 r.2) (s2.modTile s.focus.tile fun x => x.takePath s2.now))))) ∧
  ∀ (s : State) (w : Who) (i : Instr) (la : BitVec 4) (job : Job) (d l : Nat), let t := s.openPend w i la job d l
    ∃ q, (t.slot w).pend = (s.slot w).pend ++ [q] ∧ q.job = job ∧ q.seq = (s.slot w).iseq + 1 ∧ q.la = la.toNat ∧
      q.pc = (s.slot w).pc ∧ q.due = s.now + d + l ∧
      (∀ a, job.acc? = some a → q.mids = a.parts.map fun p => s.now + d + s.latency w.tile (job.podCode != 1) p / 2) ∧ q.got = [] ∧ q.pt = s.phys w.tile ∧
      s.SameMemory t ∧ s.SameOthers t w

/-- A load or atomic whose address an access may not name takes the trap of its cause with the address, mode included, as
its value, and so do stores: the address-mode trap for mode 3, the address-range trap for a byte outside every location,
the data-alignment trap for an address its size does not divide, in this order (07 R126; 22 R351, R353). -/
def Clause.AddressTraps : Prop :=
  (∀ (s s1 : State) (i : Instr) (f : LoadForm) (m : Meta) (vs : List Word) (c : Nat) (e : Word),
    loadForm i = some f → instrMeta s.cur.isMember i = some m → s.Issues i m →
    s.operands s.focus [f.base] [] = .ok (vs, s1) →
    s1.openAcc s.focus (wordOf i) ⟨f.am, addrOf (argN vs 0), f.n, 1, 0, 0, [], false⟩ f.n .read = .trap c e →
    exec i s = .next (s.raise s.focus c e (if c = cBreak ∨ c = cSoftware then s.cur.pc + 4 else s.cur.pc))) ∧
  (∀ (s s1 : State) (i : Instr) (f : StoreForm) (m : Meta) (vs : List Word) (c : Nat) (e : Word),
    storeForm i = some f → instrMeta s.cur.isMember i = some m → s.Issues i m →
    s.operands s.focus (f.data ++ [f.base]) [] = .ok (vs, s1) →
    s1.openAcc s.focus (wordOf i) ⟨f.am, addrOf (argN vs f.data.length), f.n, 1, 0, 0, [], false⟩ f.n .write = .trap c e →
    exec i s = .next (s.raise s.focus c e (if c = cBreak ∨ c = cSoftware then s.cur.pc + 4 else s.cur.pc))) ∧
  ∀ (s : State) (w : Who) (word : Word) (a : Acc) (n : Nat) (need : Need), (s.slot w).inWave = false →
    (s.slot w).red = none →
    (a.am = 3 → s.openAcc w word a n need = .trap cMode (evalAddr 3 a.addr)) ∧
    (a.am ≠ 3 → s.inRange w.tile a.am a.pieces = false → s.openAcc w word a n need = .trap cRange (evalAddr a.am a.addr)) ∧
    (a.am ≠ 3 → s.inRange w.tile a.am a.pieces = true → a.addr % n ≠ 0 →
      s.openAcc w word a n need = .trap cAlign (evalAddr a.am a.addr))

/-- A store outside waves, its access opened at issue, joins the pending ones with its bytes as its registers held them
and the bound registers as they stand, due when its data has crossed the path, 22 cycles out where a bound covers it and
6 where none does (07 R129, R130; 03 R56; 11 R405). -/
def Clause.StoresIssue : Prop :=
  ∀ (s s1 s2 : State) (i : Instr) (f : StoreForm) (m : Meta) (vs : List Word) (a : Acc) (d : Nat),
    storeForm i = some f → instrMeta s.cur.isMember i = some m → s.Issues i m → s.cur.inWave = false →
    s.operands s.focus (f.data ++ [f.base]) [] = .ok (vs, s1) →
    s1.openAcc s.focus (wordOf i) ⟨f.am, addrOf (argN vs f.data.length), f.n, 1, 0, 0, [], false⟩ f.n .write = .go a d s2 →
    (s2.slot s.focus).inWave = false →
    let bnds := (s2.tile s.focus.tile).mx.bnd.toList
    let chk := s2.checkedElems s.focus.tile bnds a 16 a.cols (storeBytes f.n vs)
    exec i s = .next (s.past i (s2.openPend s.focus i f.la
      (.store a 16 (storeBytes f.n vs) bnds 0 f.rel f.rd) (d + (if chk = [] then 6 else 22)) 0))

/-- An atomic, its operands read and its access opened, joins the pending ones with its operation and operands, for `cas`
the expected value in its destination among them (07 R132). -/
def Clause.AtomicsIssue : Prop :=
  ∀ (s s1 s2 : State) (i : Instr) (d a b : Spec) (la os : BitVec 4) (op : Nat) (vs : List Word) (c : Acc) (dl : Nat),
    atomForm i = some (d, a, b, la, os, op) →
    let src := if op = 0x28 then [a, b, d] else [a, b]
    s.Issues i (Meta.solo always src [d]) → s.operands s.focus src [d] = .ok (vs, s1) →
    s1.openAcc s.focus (wordOf i) ⟨modeOf (argN vs 0), addrOf (argN vs 0), 8, 1, 0, 0, [], false⟩ 8 .write = .go c dl s2 →
    exec i s = .next (s.past i (s2.openPend s.focus i la (.amo d c op (argN vs 1) (argN vs 2) os.toNat) dl
      (s2.latencies s.focus.tile c true)))

/-- O22. Loads, stores and atomics as they issue: address, checks, traps, and the access they leave pending: the clauses above together. -/
def Obligations.MemoryInstructionsIssue : Prop :=
  Clause.LoadsIssue ∧ Clause.AddressTraps ∧ Clause.StoresIssue ∧ Clause.AtomicsIssue

/-- A part of a pending load is read at its place, at most once, when nothing that comes first holds it back: the bytes there, with
those of the thread's own earlier stores that are not performed yet, are kept until the load completes, and no byte of memory
changes (11 R405; 12 R237, R240). No write of its thread is performed ahead of it, a premise. -/
def Clause.PartsAreRead : Prop :=
  (∀ (s : State) (w : Who) (p : Pend) (a : Acc) (rd i va n : Nat) (q : Part), let x := s.slot w
    a.parts[i]? = some q → a.pieces[i]? = some (va, n) → x.red = none → (∀ e ∈ p.got, e.1 ≠ i) →
    (s.farHeld w.tile [q]).1 = false → p.mids.getD i 0 ≤ s.now → (∀ u ∈ farTiles w.tile [q], s.afterForwarded u (p.mids.getD i 0) = false) →
    (∀ h ∈ s.early, (x.thr, p.seq) ∉ h.loads) → x.pendHolds p.seq [] [q] (!hasPod [q]) (fun _ => false) = false → s.hidden (p.party x w) [q] = false →
    (ownPart w.tile q = true → s.portHolds w.tile p.stamp = false) → s.podHolds w.tile p.stamp q = false →
    (∀ l ∈ hbmLines [q], s.sharerHeld w.tile l.1 (64 * l.2) rd = false) →
    (s.servePart w p a rd i).slot w = x.keepPart p.seq i (s.readOwn x.thr p.seq q) ∧
      s.SameMemory (s.servePart w p a rd i) ∧ s.SameOthers (s.servePart w p a rd i) w) ∧
  ∀ (s : State) (thr n : Nat) (p : Part),
    ((∀ e ∈ s.stores, e.party.thr = thr → n ≤ e.seq) → s.readOwn thr n p = s.getPart p) ∧
    ∀ l e, (s.stores.filter fun e => e.party.thr == thr && decide (e.seq < n)) = l ++ [e] → e.part.loc = p.loc →
      e.data.length = p.len → s.readOwn thr n p = e.data

/-- LOAD_COMPLETE gives a load whose parts are all read its result: the register, or the pair with the lower address first,
holds those bytes, little-endian, sign- or zero-extended as the load says; the load is no longer pending; no byte of memory
changes (07 R129; 11 R405; 00 R3). One that an acquire before it may still have read again stays (12 R244). -/
def Clause.LoadsComplete : Prop :=
  ∀ (s s1 : State) (w : Who) (q q' : Pend) (d : Spec) (a a' : Acc) (signed pair : Bool) (acq : Option Nat) (rd : Nat),
    (s.slot w).ripe s.now q.seq = some q → q.job = .load d a signed pair acq rd →
    s.serveAcc w q a .read none .sound = .perform q' a' s1 → q'.job = .load d a' signed pair acq rd →
    q'.due ≤ s1.now →
    ((s1.slot w).forGood q' = false → exec (.loadComplete w q.seq .sound) s = .next s1) ∧
    ((s1.slot w).forGood q' = true → d.isPlainDst = true → (pair = true → d ≠ .z ∧ d.succ.isPlainDst = true ∧ d.succ ≠ d ∧ d.succ ≠ .z) →
    let bs := q'.bytes a'.parts.length
    ∃ t, exec (.loadComplete w q.seq .sound) s = .next t ∧ s.SameMemory t ∧
      (t.slot w).pend = (s1.slot w).pend.filter (fun p => p.seq != q.seq) ∧
      (pair = true → (t.slot w).reg d = wd (leNat (bs.take 8)) ∧ (t.slot w).reg d.succ = wd (leNat (bs.drop 8))) ∧
      (pair = false → signed = false → d ≠ .z → (t.slot w).reg d = wd (leNat bs)) ∧
      (pair = false → signed = true → d ≠ .z → 0 < a'.len → a'.len ≤ 8 → bs.length = a'.len →
        ((t.slot w).reg d).toInt = if leNat bs < 2 ^ (8 * a'.len - 1) then (leNat bs : Int) else leNat bs - 2 ^ (8 * a'.len)) ∧
      ∀ c, c ≠ d → (pair = true → c ≠ d.succ) → (t.slot w).reg c = (s.slot w).reg c)

/-- An atomic that may be performed reads the 8 bytes at its address and writes what Table 7.3 gives, in one step: a sum, a
bitwise operation, a smaller or larger value, the operand; `cas` writes only where the old value is the expected one. Its
destination receives the old value; every other byte is as before. In a page of a redundant copy the old value is that of the copy's
page, and the copy's page alone is written. A destination that is a queue or an engine is given the old value once it can take it (07
R132; 12 R247; 21 R347). An atomic is 8 bytes on an 8-byte boundary, so it has one part. -/
def Clause.AtomicsComplete : Prop :=
  (∀ (s s1 : State) (w : Who) (q q' : Pend) (d : Spec) (a a' : Acc) (op : Nat) (b e : Word) (os : Nat) (p : Part),
    (s.slot w).ripe s.now q.seq = some q → q.job = .amo d a op b e os →
    s.arrive w q a .write = .perform q' a' s1 → q'.job = .amo d a' op b e os → q'.due ≤ s1.now → q'.mids.getD 0 0 ≤ s1.now →
    (s1.farHeld w.tile a'.parts).1 = false → s1.amoReady w q' a'.parts (s1.amoAfter (s1.slot w) q' a'.parts op b e) = true →
    (s1.slot w).acqBefore q.seq = false →
    (∀ cl, (s1.clu cl).comb = []) → a'.parts = [p] → p.len = 8 → (∀ o, p.loc ≠ .cap o) →
    d.isPlainDst = true → 0x1F ≤ op → op ≤ 0x28 →
    let old := s1.wordAt [p]
    let new : Word :=
      if op = 0x1F then old + b else if op = 0x20 then old &&& b else if op = 0x21 then old ||| b
      else if op = 0x22 then old ^^^ b else if op = 0x23 then (if old.toInt ≤ b.toInt then old else b)
      else if op = 0x24 then (if old.toInt ≤ b.toInt then b else old)
      else if op = 0x25 then (if old.toNat ≤ b.toNat then old else b)
      else if op = 0x26 then (if old.toNat ≤ b.toNat then b else old)
      else if op = 0x27 then b else if old = e then b else old
    ∃ t, exec (.loadComplete w q.seq .sound) s = .next t ∧ (d ≠ .z → (t.slot w).reg d = old) ∧ (t.slot w).pend? q.seq = none ∧
      (p.isShadow = false → old = wd (leNat (s.getParts [p])) ∧ wd (leNat (t.getParts [p])) = new ∧
        ∀ l n, p.has l n = false → t.getByte l n = s.getByte l n) ∧
      (p.isShadow = true → (∀ l n, (∀ r c va, l ≠ .shadow r c va) → t.getByte l n = s.getByte l n) ∧
        ((op ≠ 0x28 ∨ old = e) → ∀ l n, t.getByte l n = ((s1.openShadow [p]).putParts [p] (leBytes 8 new.toNat)).getByte l n) ∧
        (op = 0x28 → old ≠ e → s.SameMemory t))) ∧
  ∀ (s s1 : State) (w : Who) (q q' : Pend) (d : Spec) (a a' : Acc) (op : Nat) (b e : Word) (os : Nat),
    (s.slot w).ripe s.now q.seq = some q → q.job.reads = some (a, .write) → s.serveAcc w q a .write none .sound = .perform q' a' s1 →
    q'.job = .amo d a' op b e os → q'.due ≤ s1.now → (s1.slot w).forGood q' = true → s1.landReady w q.seq [d] = true →
    q'.seq = q.seq →
    let rs := [(d, wd (leNat (q'.bytes a'.parts.length)))]
    (s1.logLoads w q' a' rs).landReady w q.seq [d] = true →
    exec (.loadComplete w q.seq .sound) s = .next (((s1.logLoads w q' a' rs).landResult w q.seq rs).modSlot w fun x => x.dropPend q.seq)

/-- Two fetch-and-adds that meet at a switch of their cluster are carried by one request, that on input 0, whose operand is the sum of
both; the switch keeps the operand of input 0. The reply gives the first the old value and the second that value plus the first operand,
as if the first had come before the second (07 R134). -/
def Clause.AddsCombine : Prop :=
  (∀ (s : State) (w w' : Who) (p q : Pend) (d d' : Spec) (a a' : Acc) (b b' dv dv' : Word) (os pa k : Nat) (plc : Placement),
    let x := s.slot w
    let y := s.slot w'
    let cl := s.homeOf plc pa
    let stage := 3 - k
    let sw := (idxInCluster (s.phys w.tile) * 2 ^ (stage + 1) + bits pa 9 6 / 2 ^ (3 - stage)) % 16 / 2
    x.pend? p.seq = some p → y.pend? q.seq = some q → p.job = .amo d a 0x1F b dv os → q.job = .amo d' a' 0x1F b' dv' os →
    a.ready = true → a'.ready = true → a.parts = [⟨.hbm pa, 8, plc⟩] → a'.parts = a.parts → x.ctx = y.ctx →
    meetBit (idxInCluster (s.phys w.tile)) (idxInCluster (s.phys w'.tile)) = some k →
    bitOf (idxInCluster (s.phys w.tile)) k = false → s.cluster w.tile = cl → s.cluster w'.tile = cl →
    s.amoReady w p a.parts (x.follows p.seq p.job.releases) = true → s.amoReady w' q a.parts (y.follows q.seq q.job.releases) = true →
    (∀ e ∈ (s.clu cl).comb, e.first = (x.thr, p.seq) ∨ e.first = (y.thr, q.seq) → e.stage < stage) →
    ((s.clu cl).comb.filter fun e => e.stage == stage && e.switch == sw).length < 8 →
    let t := s.combine w p.seq w' q.seq
    (∃ e, (t.clu cl).comb = (s.clu cl).comb ++ [e] ∧ e.first = (x.thr, p.seq) ∧ e.second = (y.thr, q.seq) ∧ e.b0 = b ∧
      e.stage = stage ∧ e.switch = sw) ∧
    (∃ r, (t.slot w).pend? p.seq = some r ∧ r.job = .amo d a 0x1F (b + b') dv os) ∧ (∀ u, u ≠ w → t.slot u = s.slot u) ∧ s.SameMemory t) ∧
  ∀ (s : State) (cl : Nat) (e : Comb) (old : Word), (s.clu cl).comb = [e] → e.first.1 ≠ 0 → e.second.1 ≠ 0 →
    e.first.1 ≠ e.second.1 →
    let t := s.splitReply cl e.first old
    (t.clu cl).comb = [] ∧ s.SameMemory t ∧
      ∀ u : Who, let x := s.slot u
        (x.thr = e.first.1 → t.slot u = x.keepPart e.first.2 0 (leBytes 8 old.toNat)) ∧
        (x.thr = e.second.1 → t.slot u = x.keepPart e.second.2 0 (leBytes 8 (old + e.b0).toNat))

/-- O23. Loads and atomics: what they read at their place, and what they write to registers and to memory: the clauses above together. -/
def Obligations.LoadsAndAtomicsComplete : Prop :=
  Clause.PartsAreRead ∧ Clause.LoadsComplete ∧ Clause.AtomicsComplete ∧ Clause.AddsCombine

/-- STORE_COMPLETE takes a store that no bound covers: the bytes for the thread's own tile stand there, those for another
place wait to be performed, every other byte of memory is as before, and so are all registers; the store is no longer pending
(07 R129; 11 R405). A waiting part is performed once what its thread has before it is: then its bytes stand at its place, and
nothing else changes in memory or in a thread, but that loads which others have read ahead of a narrow acquire are read again
(11 R405; 12 R240, R241, R244); over a poisoned word nothing is written (23 R363). -/
def Clause.StoresWrite : Prop :=
  (∀ (s s1 : State) (w : Who) (q q' : Pend) (a a' : Acc) (ty : Nat) (data : List Byte) (bnds : List Bnd) (flags : Word)
    (rel : Option Nat) (rd : Nat),
    s.StoreArrives w q a ty data bnds flags rel rd q' a' s1 →
    s1.checkedElems w.tile bnds a' ty a'.cols data = [] →
    a'.parts.any Part.isShadow = false →
    ∃ t, exec (.storeComplete w q.seq) s = .next t ∧
      (t.slot w).pend = (s1.slot w).pend.filter (fun p => p.seq != q.seq) ∧ (∀ c, (t.slot w).reg c = (s.slot w).reg c) ∧
      s.Accepted s1 t w a'.parts data) ∧
  ∀ (s : State) (e : Stored), s.stores.find? (fun q => q.id == e.id) = some e →
    let tile := e.party.tile.getD 65536
    (s.farHeld tile [e.part]).1 = false → e.due ≤ s.now → s.writeReady e.party e.seq e.after [e.part] = true →
    s.podHolds tile e.stamp e.part = false → (∀ u ∈ farTiles tile [e.part], s.afterForwarded u e.due = false) →
    (ownPart tile e.part = true → s.portHolds tile e.stamp = false) → s.writeHeld [e.part] = false →
    let t := s.performStored e.id
    t.stores = s.stores.filter (fun q => q.id != e.id) ∧
    (s.poisoned [e.part] = true → s.SameMemory t) ∧
    (s.poisoned [e.part] = false → s.Wrote t [e.part] e.data ∧ (∀ u, { t.slot u with pend := [] } = { s.slot u with pend := [] }) ∧
      (∀ u, (t.slot u).pend.map (fun p => { p with got := [] }) = (s.slot u).pend.map fun p => { p with got := [] }) ∧
      ((∀ x ∈ s.tiles, ∀ y ∈ x.2.slots, y.2.acqBefore (y.2.iseq + 1) = false) → ∀ u, t.slot u = s.slot u))

/-- A store that a bound register checks at STORE_COMPLETE: with its trap action an element outside the limits stops the
store with no byte written, the bound trap taken with that element's address; with no element to stop it, the store is
taken with the checked bytes, those of clamped elements replaced (03 R56; 07 R129). -/
def Clause.BoundsAtTheStore : Prop :=
  ∀ (s s1 : State) (w : Who) (q q' : Pend) (a a' : Acc) (ty : Nat) (data : List Byte) (bnds : List Bnd) (flags : Word)
    (rel : Option Nat) (rd : Nat),
    s.StoreArrives w q a ty data bnds flags rel rd q' a' s1 → a'.parts.any Part.isShadow = false →
    let c := checkElems bnds data (s1.checkedElems w.tile bnds a' ty a'.cols data)
    (∀ off, c.trapAt = some off → ∃ t, exec (.storeComplete w q.seq) s = .next t ∧ s.SameMemory t ∧
      (∃ r ∈ (t.slot w).trapq, r.seq = q.seq ∧ r.cause = cBound ∧ r.ev = evalAddr a'.am (a'.addrAt off)) ∧
      (t.slot w).pend? q.seq = none ∧ t.stores = s1.stores) ∧
    (c.trapAt = none → ∃ t, exec (.storeComplete w q.seq) s = .next t ∧ (t.slot w).pend? q.seq = none ∧
      s.Accepted s1 t w a'.parts c.data)

/-- O24. Stores as they complete: the bytes written and no other, and the bounds of bound registers: the clauses above together. -/
def Obligations.StoresComplete : Prop :=
  Clause.StoresWrite ∧ Clause.BoundsAtTheStore

/-- O25. An access that names a byte of HBM stack 24 to 63, which the module does not have, stops the machine, a fetch as well as a load,
an atomic or a store: that place does not exist. No instruction and no other agent's step stops it otherwise (11 R225). -/
def Obligations.AbsentStacksFault : Prop :=
  let outside := fun (ps : List Part) => ∃ p ∈ ps, ∃ pa n, p.loc = .hbm pa ∧ n < p.len ∧ 24 ≤ bits (pa + n) 41 36
  (∀ (s s' : State) (w : Who) (q : Pend) (a : Acc) (need : Need) (ecc : Ecc) (ps : List Part) (d : Nat),
    (s.slot w).ripe s.now q.seq = some q → q.job.reads = some (a, need) → s.accNow w q a need = (.ok ps d, s') → outside ps →
    exec (.loadComplete w q.seq ecc) s = .fault .absentStack) ∧
  (∀ (s s' : State) (w : Who) (q : Pend) (a : Acc) ty data bnds flags rel rd (ps : List Part) (d : Nat),
    (s.slot w).ripe s.now q.seq = some q → q.job = .store a ty data bnds flags rel rd → s.accNow w q a .write = (.ok ps d, s') →
    outside ps → exec (.storeComplete w q.seq) s = .fault .absentStack) ∧
  (∀ (s s' : State) (w : Who) (now : Bool) (v : IWord) (ps : List Part), s.fetch w now = .word v ps s' → outside ps →
    s.runFetched w now = .fault .absentStack) ∧
  ∀ (i : Instr) (s : State), (∀ r, exec i s ≠ .refused r) ∧
    ∀ e, exec i s = .fault e → ∃ w q need a ps d s', (s.slot w).ripe s.now q.seq = some q ∧
      ((∃ ecc, i = .loadComplete w q.seq ecc ∧ q.job.reads = some (a, need)) ∨
        (i = .storeComplete w q.seq ∧ need = .write ∧ ∃ ty data bnds flags rel rd, q.job = .store a ty data bnds flags rel rd)) ∧
      s.accNow w q a need = (.ok ps d, s') ∧ ∃ p ∈ ps, ∃ pa, p.loc = .hbm pa ∧ 24 * 2 ^ 36 < pa + p.len

/-- The orders of a thread: no write, and no load but past an acquire of a scope narrower than the module, is performed before an
earlier acquire of the thread has been; no release before every earlier access and no store or atomic past a release fence before the
accesses ahead of it, but loads and stores that their scope lets it pass; and none before an earlier one of the same place; it waits. A
load read ahead of an acquire is not yet performed for good (07 R130, R135; 12 R238, R241, R244, R252). -/
def Clause.AccessesKeepTheirOrder : Prop :=
  (∀ (s : State) (w : Who) (p e : Pend) (a : Acc) (rd i : Nat) (z : Part), (s.slot w).red = none → a.parts[i]? = some z →
    (s.farHeld w.tile [z]).1 = false → e ∈ (s.slot w).pend → e.seq < p.seq → e.performed = false →
    ((∃ c, e.job.acqScope = some c ∧ (3 ≤ c ∨ hasPod [z] = true)) ∨ ∃ b j y, e.job.acc? = some b ∧ b.ready = true ∧ b.parts[j]? = some y ∧
      (∀ g ∈ e.got, g.1 ≠ j) ∧ partsMeet z y = true) →
    s.servePart w p a rd i = s) ∧
  (∀ (x : Slot) (p e : Pend), e ∈ x.pend → e.seq < p.seq → e.performed = false → e.job.acquires = true → x.forGood p = false) ∧
  (∀ (s : State) (who : Party) (n : Nat) (after : List (Nat × Nat)) (ps : List Part) (e : Pend),
    e ∈ (s.threadOf who.thr).pend → e.seq < n → e.performed = false →
    (e.job.acquires = true ∨ ∃ f ∈ after, e.seq < f.1 ∧ (3 ≤ f.2 ∨ e.job.isLoad = false ∨ s.mayPass who n = false)) →
    s.writeReady who n after ps = false) ∧
  (∀ (s : State) (who : Party) (n : Nat) (after : List (Nat × Nat)) (ps : List Part) (e : Stored),
    e ∈ s.stores → e.party.thr = who.thr → e.seq < n →
    ((∃ p ∈ ps, partsMeet p e.part = true) ∨ ∃ f ∈ after, e.seq < f.1 ∧ (3 ≤ f.2 ∨ s.mayPass who n = false)) →
    s.writeReady who n after ps = false) ∧
  (∀ (s : State) (who : Party) (n : Nat) (after : List (Nat × Nat)) (ps : List Part), s.hidden who ps = true →
    s.writeReady who n after ps = false) ∧
  (∀ (x : Slot) (n c : Nat) (f : Nat × Nat), (n, c) ∈ x.follows n (some c) ∧
    ∀ rel, f ∈ x.fences → f.1 < n → f ∈ x.follows n rel) ∧
  (∀ (s : State) (w : Who) (p : Pend) (a : Acc) (op : Nat) (b d : Word),
    s.writeReady (p.party (s.slot w) w) p.seq (s.amoAfter (s.slot w) p a.parts op b d) a.parts = false → s.serveAmo w p a op b d = s) ∧
  ∀ (s : State) (e : Stored), s.stores.find? (fun q => q.id == e.id) = some e →
    (s.farHeld (e.party.tile.getD 65536) [e.part]).1 = false →
    s.writeReady e.party e.seq e.after [e.part] = false → s.performStored e.id = s

/-- A store that follows earlier stores or loads at a scope narrower than the module, performed ahead of them: the parties that share the
scope with it read its place only once those are performed (12 R238, R244, R245). And a load read ahead of a narrow acquire is read again
when a party that shares the acquire's scope performs a write; one of a party that does not share it stands (12 R238, R244). -/
def Clause.NarrowReleases : Prop :=
  (∀ (s : State) (e : Stored) (f : Nat × Nat) (who : Party) (q : Part),
    s.stores.find? (fun k => k.id == e.id) = some e →
    ((∃ g ∈ s.stores, g.id ≠ e.id ∧ g.party.thr = e.party.thr ∧ g.seq < f.1) ∨
      ∃ l ∈ (s.threadOf e.party.thr).pend, l.seq < f.1 ∧ (s.threadOf e.party.thr).forGood l = false) →
    f ∈ e.after → (s.farHeld (e.party.tile.getD 65536) [e.part]).1 = false → s.performStored e.id ≠ s → partsMeet q e.part = true →
    e.party.shares who f.2 = true → who.thr ≠ e.party.thr →
    (s.performStored e.id).hidden who [q] = true) ∧
  ∀ (x : Slot) (t : Nat) (who : Party) (q : Pend), q ∈ x.pend → q.job.isLoad = true → x.thr ≠ who.thr →
    ((∃ a ∈ x.pend, a.seq < q.seq ∧ a.performed = false ∧ ∃ c, a.job.acqScope = some c ∧ who.shares ⟨x.thr, some t, a.pt⟩ c = true) →
      { q with got := [] } ∈ (x.squash t (some who)).pend) ∧
    ((∀ a ∈ x.pend, a.seq < q.seq → a.performed = false → ∀ c, a.job.acqScope = some c → who.shares ⟨x.thr, some t, a.pt⟩ c = false) →
      q ∈ (x.squash t (some who)).pend)

/-- `fence` with an acquire waits for the earlier loads and atomics, after which words captured by the tile are stale for the
thread, and with both orders for every earlier event; a release lets the thread go on and orders what came before it ahead of
its later stores and sends. `drain` waits until every chain accepted on the tile before it has ended (07 R135, R136; 12 R245,
R253). -/
def Clause.FencesAndDrains : Prop :=
  (∀ (s : State) (os : BitVec 4) (g : Guard), s.Issues (.fence os g) (Meta.solo g [] []) →
    let i : Instr := .fence os g
    let stay : State := s.modSlot s.focus fun x => { x with st := .wait, why := .fence }
    (os.toNat ≤ 5 → exec i s = .next (if s.cur.pend.any (fun p => p.job.loads) then stay
      else s.past i (s.modSlot s.focus fun x => { x with fetchAt := s.now + 1 }))) ∧
    (6 ≤ os.toNat → os.toNat ≤ 10 → exec i s = .next (s.past i (s.modSlot s.focus fun x =>
      { x with fences := (x.fences.filter fun f => s.owesAt x f.1) ++ [(s.cur.iseq + 1, osScope os.toNat)] }))) ∧
    (11 ≤ os.toNat → exec i s = .next (if s.cur.pend.any (fun p => p.job.isMem) ∨ s.owesAt s.cur (s.cur.iseq + 1) = true then stay
      else s.past i (s.modSlot s.focus fun x => { x with fences := [], fetchAt := s.now + 1 })))) ∧
  ∀ (s : State) (path : BitVec 3) (g : Guard), s.Issues (.drain path g) (Meta.solo g [] []) →
    let i : Instr := .drain path g
    let cur := (s.tile s.focus.tile).chainIds
    let all := if s.cur.why = .drain then s.cur.drainSet else cur
    ((∀ k ∈ all, k ∉ cur) → exec i s = .next (s.past i s)) ∧
    ((∃ k ∈ all, k ∈ cur) → exec i s = .next ((s.modSlot s.focus fun x => { x with drainSet := all }).modSlot s.focus fun x =>
      { x with st := .wait, why := .drain }))

/-- O26. The order of a thread's accesses, and what fences and drains wait for: the clauses above together. -/
def Obligations.MemoryOrder : Prop :=
  Clause.AccessesKeepTheirOrder ∧ Clause.NarrowReleases ∧ Clause.FencesAndDrains

/-- O27. A page walk that ends fills the last-level TLB of its slab and the TLB of every tile that waits on it with the entry the
page tables hold, and leaves the list. One that finds no entry, and one that reads the tables through an uncorrectable error, fill none;
the latter tears its context down and takes the page that holds the entry from every context (11 R233; 23 R362). -/
def Obligations.WalksFillTheTlbs : Prop :=
  ∀ (s : State) (k n : Nat) (q : Walk), (s.slab k).walks[n]? = some q → (s.slab k).waitWalks = [] → q.due ≤ s.now →
    (∀ p, s.pageOf q.ctx q.va = some p →
      ∃ t, exec (.tlbWalkComplete k n none) s = .next t ∧ (t.slab k).walks = listDrop1 (s.slab k).walks n ∧
        (∀ u ∈ q.tiles, (t.tile u).tlb.head? = some p ∧ (t.tile u).tlb.length ≤ 64) ∧
        (∀ u, u ∉ q.tiles → t.tile u = s.tile u) ∧
        ((s.slab k).lltlb.length < 4096 → p ∈ (t.slab k).lltlb) ∧ s.SameMemory t) ∧
    (s.pageOf q.ctx q.va = none → ∃ t, exec (.tlbWalkComplete k n none) s = .next t ∧
      (t.slab k).walks = listDrop1 (s.slab k).walks n ∧ (∀ u, (t.tile u).tlb = (s.tile u).tlb) ∧
      (∀ j, (t.slab j).lltlb = (s.slab j).lltlb) ∧ s.SameMemory t) ∧
    ∀ pa, ∃ t, exec (.tlbWalkComplete k n (some pa)) s = .next t ∧ (t.slab k).walks = listDrop1 (s.slab k).walks n ∧
      (∀ u, ∀ p ∈ (t.tile u).tlb, p ∈ (s.tile u).tlb) ∧ (∀ j, ∀ p ∈ (t.slab j).lltlb, p ∈ (s.slab j).lltlb) ∧
      ((s.ctxOf q.ctx).isOpen = true → (t.ctxOf q.ctx).dying = true) ∧ pa / 65536 ∈ t.quarantine ∧
      ∀ p ∈ t.pages, (∀ m, p.plc ≠ .pod m) → pa < p.pa ∨ p.pa + 2 ^ p.lg ≤ pa

/-- `mroute` puts its operand into the route of a queue unchecked and clears its stale count; `mprobe` reads the queue's
status of Table 7.7. A copy of a redundant launch may execute neither (07 R137, R141; 21 R347). -/
def Clause.RoutesAndProbes : Prop :=
  ∀ (s s1 : State) (n : BitVec 2) (d a : Spec) (g : Guard) (vs : List Word),
    (s.Issues (.mroute (.q n) a g) (Meta.solo g [a] []) → s.operands s.focus [a] [] = .ok (vs, s1) →
      (s.cur.red.isSome → exec (.mroute (.q n) a g) s =
        .next (s.raise s.focus cRedundancy (wordOf (.mroute (.q n) a g)) s.cur.pc)) ∧
      (s.cur.red = none → exec (.mroute (.q n) a g) s = .next (s.past (.mroute (.q n) a g) (s1.modSlot s.focus fun x =>
        { x with routes := vset x.routes n.toNat (some (argN vs 0))
                 qstat := vset x.qstat n.toNat { vget x.qstat n.toNat ⟨0, 0, 0⟩ with stalec := 0 } })))) ∧
    (s.Issues (.mprobe d (.q n) g) (Meta.solo g [] [d]) → s.operands s.focus [] [d] = .ok ([], s1) → s.cur.red = none →
      ∃ v, exec (.mprobe d (.q n) g) s = .next (s.past (.mprobe d (.q n) g) (s1.writeSpec s.focus d v)) ∧
        let q := vget s.cur.qstat n.toNat ⟨0, 0, 0⟩
        (q.ackp ≤ 8 → q.last ≤ 2 → q.stalec ≤ 255 → (vget s.cur.rbuf n.toNat []).length ≤ 8 →
          bits v.toNat 3 0 = (vget s.cur.rbuf n.toNat []).length ∧ bits v.toNat 7 4 = q.ackp ∧ bits v.toNat 9 8 = q.last ∧
          bitOf v.toNat 10 = (vget s.cur.routes n.toNat none).isSome ∧ bits v.toNat 23 16 = q.stalec))

/-- A result written to a queue with a route to one thread puts one word into the network, for the tile, slot, queue and tag
the route names, under the sender's context; an acknowledged send counts one more in ACKP (07 R137 to R139). -/
def Clause.SendsPutWordsIntoTheNetwork : Prop :=
  ∀ (s : State) (w : Who) (n : BitVec 2) (r v : Word), vget (s.slot w).routes n.toNat none = some r → (routeOf r).kind = 0 →
    let f := routeOf r
    let t := s.writeSpec w (.q n) v
    ∃ m, t.msgs = s.msgs ++ [m] ∧ m.tile = 48 * f.y + f.x ∧ m.slot = f.slot ∧ m.dq = f.dq ∧ m.gen = BitVec.ofNat 8 f.gen ∧
      m.anyGen = f.any ∧ m.data = v ∧ m.ctx = (s.slot w).ctx.getD 0 ∧ m.src = some w ∧ m.scale = false ∧ m.ack = f.ack ∧
      s.now + 12 ≤ m.due ∧
      (vget (t.slot w).qstat n.toNat ⟨0, 0, 0⟩).ackp =
        (vget (s.slot w).qstat n.toNat ⟨0, 0, 0⟩).ackp + (if f.ack then 1 else 0) ∧
      s.SameMemory t

/-- MESSAGE_DELIVER gives a word that has come to the buffer of its thread, the oldest first, where it has room and no
earlier word is held for it; holds it where it has none; takes it into the ring of a spilled thread; and spoils it where no
thread of its context and tag stands in the slot, counted, with an acknowledgement that says so (07 R138, R139; 13 R274). -/
def Clause.WordsAreDelivered : Prop :=
  ∀ (s : State) (k : Nat) (m : Msg), s.arrived k false = some m → s.tileHeld m.tile = false → (s.tile m.tile).vacant = false →
    let w : Who := ⟨m.tile, m.slot⟩
    let x := s.slot w
    ∃ t, exec (.messageDeliver k) s = .next t ∧
      (s.passes m = true → (vget x.rbuf m.dq []).length < 8 → (s.tile m.tile).held.any (fun h => sameBuffer h m) = false →
        m.dq < 4 → vget (t.slot w).rbuf m.dq [] = vget x.rbuf m.dq [] ++ [m.data] ∧ t.msgs = listDrop1 s.msgs k) ∧
      (s.passes m = true → 8 ≤ (vget x.rbuf m.dq []).length →
        (t.tile m.tile).held = (s.tile m.tile).held ++ [m] ∧ t.slot w = x ∧ t.msgs = listDrop1 s.msgs k) ∧
      (s.passes m = false → s.spilledFor m = true → (s.tile m.tile).ring.length + (s.tile m.tile).ringH.length < 256 →
        (t.tile m.tile).ring = (s.tile m.tile).ring ++ [m] ∧ t.msgs = listDrop1 s.msgs k) ∧
      (s.passes m = false → s.spilledFor m = false →
        (t.tile m.tile).spoilc = ((s.tile m.tile).spoilc + 1) % 2 ^ 64 ∧ t.slot w = x ∧ t.msgs = listDrop1 s.msgs k ∧
        (m.ack = true → m.src.isSome → ∃ a ∈ t.acks, a.delivered = false ∧ a.q = m.q)) ∧ s.SameMemory t

/-- SCALE_WORD_DELIVER gives a scale word to the FIFO of a tile whose matrix state its context owns, or nobody does, where
there is room; HELD_WORD_ENTER gives the oldest word held for a buffer in the cycle after room
has appeared, one a cycle; SEND_ACK_RECEIVE counts ACKP down
and keeps what became of the word (07 R138, R139, R141). -/
def Clause.ScaleWordsHeldWordsAndAcks : Prop :=
  (∀ (s : State) (k : Nat) (m : Msg), s.arrived k true = some m → s.tileHeld m.tile = false → (s.tile m.tile).vacant = false →
    (s.tile m.tile).mx.takesScale m.ctx = true → (s.tile m.tile).mx.fifo.length < 16 →
    (s.tile m.tile).held.any (fun h => sameBuffer h m) = false →
    ∃ t, exec (.scaleWordDeliver k) s = .next t ∧ (t.tile m.tile).mx.fifo = (s.tile m.tile).mx.fifo ++ [m.data] ∧
      t.msgs = listDrop1 s.msgs k ∧ s.SameMemory t) ∧
  (∀ (s : State) (tl k : Nat) (m : Msg), (s.tile tl).held[k]? = some m → ((s.tile tl).held.take k).any (fun h => sameBuffer h m) = false →
    s.tileHeld tl = false → kvGet (s.tile tl).roomAt m.bufKey 0 ≤ s.now → m.scale = false → m.tile = tl → s.passes m = true → m.dq < 4 →
    (vget (s.slot ⟨tl, m.slot⟩).rbuf m.dq []).length < 8 →
    ∃ t, exec (.heldWordEnter tl k) s = .next t ∧ (t.tile tl).held = listDrop1 (s.tile tl).held k ∧
      vget (t.slot ⟨tl, m.slot⟩).rbuf m.dq [] = vget (s.slot ⟨tl, m.slot⟩).rbuf m.dq [] ++ [m.data] ∧
      kvGet (t.tile tl).roomAt m.bufKey 0 = s.now + 1) ∧
  ∀ (s : State) (k : Nat) (a : Ack), s.acks[k]? = some a → a.due ≤ s.now → s.tileHeld a.who.tile = false → (s.slot a.who).gen = a.gen → a.q < 4 →
    let q := vget (s.slot a.who).qstat a.q ⟨0, 0, 0⟩
    ∃ t, exec (.sendAckReceive k) s = .next t ∧ t.acks = listDrop1 s.acks k ∧
      vget (t.slot a.who).qstat a.q ⟨0, 0, 0⟩ =
        ⟨q.ackp - 1, if a.delivered then 1 else 2, if a.delivered then q.stalec else min 255 (q.stalec + 1)⟩

/-- O28. Queues: routes and probes, sends, delivery, scale words, held words and acknowledgements: the clauses above together. -/
def Obligations.MessagesMove : Prop :=
  Clause.RoutesAndProbes ∧ Clause.SendsPutWordsIntoTheNetwork ∧ Clause.WordsAreDelivered ∧ Clause.ScaleWordsHeldWordsAndAcks

/-- O29. `migrate` by a thread with nothing outstanding and no lease leaves its slot IDLE with the tag up by one, its travel set
(g0 to g15, the predicates, `fstat`, the next PC) on the way to the tile its operand names; MIGRATE_ARRIVE adds it to that
tile's run queue of 8; SLOT_OFFER puts the oldest of the queue into an available slot, with the tag it came with plus one
and every other register 0; one of a context that is torn down is discarded and counted (02 R38, R41; 07 R142; 21 R344). -/
def Obligations.ThreadsMigrate : Prop :=
  (∀ (s s1 s2 : State) (a : Spec) (g : Guard) (vs : List Word) (u : Nat), s.Issues (.migrate a g) (Meta.solo g [a] []) →
    s.cur.red = none → s.cur.leases = 0 → s.operands s.focus [a] [] = .ok (vs, s1) →
    s1.migrateTo s.focus (argN vs 0) = (.ok (some u), s2) → s.cur.settledCopies = true →
    s.cur.qstat.toList.any (fun q => q.ackp != 0) = false → s2.cur = s.cur → s2.focus = s.focus → s.cur.solo = false →
    ∃ t m, exec (.migrate a g) s = .next t ∧ t.migs = s2.migs ++ [m] ∧ m.tile = u ∧
      m.g = (List.range 16).map (fun i => vget s.cur.g i 0) ∧ m.p = s.cur.p ∧ m.fstat = s.cur.fstat ∧
      m.pc = (s.cur.loopEnd s.cur.pc).2 ∧ m.gen = s.cur.gen ∧ (t.slot s.focus).st = .idle ∧
      (t.slot s.focus).gen = s.cur.gen + 1 ∧ (t.slot s.focus).task = none) ∧
  (∀ (s : State) (k : Nat) (m : Migrant), s.migs[k]? = some m → m.due ≤ s.now →
    ((s.ctxOf m.ctx).isOpen = true → (s.ctxOf m.ctx).dying = false → s.tileHeld m.tile = false → (s.tile m.tile).runq.length < 8 →
      ∃ t, exec (.migrateArrive k) s = .next t ∧ (t.tile m.tile).runq = (s.tile m.tile).runq ++ [m] ∧ t.migs = listDrop1 s.migs k) ∧
    ((s.ctxOf m.ctx).isOpen = false ∨ (s.ctxOf m.ctx).dying = true →
      ∃ t, exec (.migrateArrive k) s = .next t ∧ (t.tile m.tile).runq = (s.tile m.tile).runq ∧ t.migs = listDrop1 s.migs k ∧
        (t.tile m.tile).spoilc = ((s.tile m.tile).spoilc + 1) % 2 ^ 64)) ∧
  ∀ (s : State) (w : Who) (m : Migrant) (r : List Migrant), s.openSlot w = true → (s.tile w.tile).runq = m :: r →
    ∃ t, exec (.slotOffer w) s = .next t ∧ (t.tile w.tile).runq = r ∧
      let y := t.slot w
      y.gen = m.gen + 1 ∧ y.pc = m.pc ∧ y.p = m.p ∧ y.fstat = m.fstat ∧ y.st = .run ∧ y.task = m.task ∧ y.ctx = some m.ctx ∧
      y.thr = m.thr ∧ y.fences = m.fences ∧ y.fetchAt = m.fetchAt ∧
      (∀ k, vget y.g k 0 = if k < 32 then m.g.getD k 0 else 0) ∧ (∀ k, vget y.o k 0 = 0) ∧ y.lc0 = 0 ∧ y.lc1 = 0 ∧ y.tvec = 0

/-- `xcopy` and `xred` are pending once their channel has a free head entry of its four, for which they wait. The chain is accepted
once everything of its thread before it is performed: the copy is then complete, its status destination under the scoreboard. A
frozen channel gives the status ABORTED at once (07 R145; 12 R250; 21 Table 21.4). -/
def Clause.CopiesAreAccepted : Prop :=
  (∀ (s s1 : State) (d a : Spec) (ch : BitVec 2) (la : BitVec 4) (p : BitVec 3) (vs : List Word) (i : Instr),
    (i = .xcopy d a ch la p ∨ i = .xred d a ch la p) → s.Issues i (Meta.solo (onP p) [a] [d]) →
    (4 ≤ (s.tile s.focus.tile).entriesUsed ch.toNat →
      exec i s = .next (s.modSlot s.focus fun x => { x with st := .wait, why := .copies })) ∧
    ((s.tile s.focus.tile).entriesUsed ch.toNat < 4 → s.operands s.focus [a] [] = .ok (vs, s1) →
      exec i s = .next (s.past i (s1.addPend s.focus i la
        (.copy d ch.toNat (argN vs 0) (decide (i = .xred d a ch la p))) s1.now)))) ∧
  ∀ (s : State) (w : Who) (q : Pend) (d : Spec) (ch : Nat) (head : Word) (sum : Bool), let x := s.slot w
    x.pend? q.seq = some q → q.job = .copy d ch head sum → s.tileHeld w.tile = false → ch < 4 →
    let c := (s.tile w.tile).channel ch
    let t := s.acceptChain w q.seq
    (s.owesAt x q.seq = true → t = s) ∧
    (s.owesAt x q.seq = false → c.frozen.isSome = true → t.slot w = (x.dropPend q.seq).setReg d 4) ∧
    (s.owesAt x q.seq = false → c.frozen = none →
      ∃ h, ((t.tile w.tile).channel ch).chains = c.chains ++ [h] ∧ h.cur = head ∧ h.d = d ∧ h.who = w ∧ h.sum = sum ∧ h.n = 0 ∧
        h.flags = 0 ∧ h.recs = [] ∧ (t.slot w).pend = (x.dropPend q.seq).pend ∧ (d ≠ .z → d ∈ (t.slot w).scoreboard) ∧
        s.SameMemory t)

/-- COPY_RECORD reads the records of the oldest chain one after another: at 0 the list has ended, with code 0; a record address with
mode 3 or out of line is bad, code 3; a record that cannot be read is a fault, code 2; its parts are read each by itself half its latency
later; one read with OWN 0 ends the list with code 1, a bad one with code 3, any other joins the records whose bytes move (07 R143, R146;
12 R237). -/
def Clause.RecordsAreRead : Prop :=
  ∀ (s s1 : State) (tl ch : Nat) (h : Chain) (r : List Chain), let c := (s.tile tl).channel ch
    c.chains = h :: r → h.recs = [] → h.ending = none → s.tileHeld tl = false → ch < 4 →
    let i : Instr := .copyRecord tl ch
    let stop := fun (s : State) code v => s.modHead tl ch fun h => h.stopAt h.recs.length code v
    let reads := fun (t : State) => (((t.tile tl).channel ch).chains.head?).bind fun h => h.reading
    (h.cur = 0 → exec i s = .next (stop s 0 0)) ∧
    (h.cur ≠ 0 → (modeOf h.cur = 3 ∨ addrOf h.cur % 64 ≠ 0) → exec i s = .next (stop s 3 0)) ∧
    (h.cur ≠ 0 → modeOf h.cur ≠ 3 → addrOf h.cur % 64 = 0 →
      (h.reading = none →
        (∀ c, s.unitAcc tl h.ctx h.red h.cur 64 .read = (.bad c, s1) → exec i s = .next (stop s1 2 h.cur)) ∧
        (s.unitAcc tl h.ctx h.red h.cur 64 .read = (.wait, s1) → exec i s = .next s1) ∧
        ∀ a d, s.unitAcc tl h.ctx h.red h.cur 64 .read = (.at_ a d, s1) →
          let l := s1.latencies tl a false
          ∃ t b, exec i s = .next t ∧ reads t = some b ∧ b.parts = a.parts ∧ b.got = [] ∧ b.data = none ∧
            b.mid = s1.now + d + l / 2 ∧ b.due = s1.now + d + l ∧ s.SameMemory t) ∧
      ∀ b, h.reading = some b →
        (∀ j q va n, b.data = none → b.mid ≤ s.now → b.parts[j]? = some q → (pieces 64 (addrOf h.cur) 64)[j]? = some (va, n) →
          b.len = 64 → h.red = none → (∀ e ∈ b.got, e.1 ≠ j) → (s.unitHeld tl b.stamp b.mid [q]).1 = false →
          s.hidden (h.party tl) [q] = false → s.poisoned [q] = false →
          ∃ b', reads (s.partStep tl ch 0 j) = some b' ∧ b'.got = b.got ++ [(j, s.getPart q)] ∧
            (b'.data.isSome = true ↔ b.got.length + 1 = b.parts.length) ∧ s.SameMemory (s.partStep tl ch 0 j)) ∧
        ∀ bs, b.data = some bs → b.due ≤ s.now →
          let w := leWords bs
          (recOwn (argN w 3) = false → exec i s = .next (stop s 1 0)) ∧
          (recOwn (argN w 3) = true → badRecord h.sum w = true → exec i s = .next (stop s 3 0)) ∧
          (recOwn (argN w 3) = true → badRecord h.sum w = false → exec i s = .next (s.modHead tl ch fun h =>
            { h with recs := h.recs ++ [⟨h.cur, w, 0, [], none⟩], cur := argN w 0, reading := none })))

/-- A record whose bytes have moved is given back: its word 3 is written with OWN 0, then with CWE the word at CWA increased by CWINC, each
half the latency of its path after it starts; then it counts, and the next record is served. A chain whose records are complete ends:
its status, the count, the flags and the code, is written into its destination, and after an access fault, or where another module gives
no answer, the channel is frozen (07 R145, R146, R148; 23 R376). -/
def Clause.RecordsEnd : Prop :=
  (∀ (s s1 : State) (tl ch : Nat) (h : Chain) (r : Rec) (rs : List Rec) (cs : List Chain) (a : Acc) (d : Nat),
    ((s.tile tl).channel ch).chains = h :: cs → h.recs = r :: rs → r.next = r.len → r.flight = [] → s.tileHeld tl = false → ch < 4 →
    let i : Instr := .copyRecord tl ch
    let head := fun (t : State) => ((t.tile tl).channel ch).chains.head?
    let own := r.addr + 24
    let cwa := argN r.words 4
    (r.step = none →
      (∀ c, s.unitAcc tl h.ctx h.red own 8 .write = (.bad c, s1) → exec i s = .next (s1.modHead tl ch fun h => h.stopAt 0 2 own)) ∧
      (s.unitAcc tl h.ctx h.red own 8 .write = (.at_ a d, s1) → ∃ t k, exec i s = .next t ∧
        head t = some { h with recs := { r with step := some (false, s1.now + d + s1.latencies tl a true / 2, k) } :: rs } ∧
        s.SameMemory t)) ∧
    (∀ due k, r.step = some (false, due, k) → due ≤ s.now → s.unitAcc tl h.ctx h.red own 8 .write = (.at_ a d, s1) →
      (s1.unitHeld tl k due a.parts).1 = false → s1.writeHeld a.parts = false → s1.poisoned a.parts = false →
      a.parts.any Part.isShadow = false →
      ∃ t, exec i s = .next t ∧ s.Wrote t a.parts (leBytes 8 (r.w3.toNat % 2 ^ 63)) ∧
        (recCwe r.w3 = false → head t = some { h with n := h.n + 1, recs := rs }) ∧
        (recCwe r.w3 = true → (head t).map (fun h => h.n) = some h.n)) ∧
    (∀ due k p, r.step = some (true, due, k) → due ≤ s.now → s.unitAcc tl h.ctx h.red cwa 8 .write = (.at_ a d, s1) →
      (s1.unitHeld tl k due a.parts).1 = false → s1.writeHeld a.parts = false → s1.poisoned a.parts = false →
      a.parts = [p] → p.len = 8 → p.isShadow = false → (∀ o, p.loc ≠ .cap o) →
      ∃ t, exec i s = .next t ∧ s.Wrote t [p] (leBytes 8 (wd (leNat (s.getPart p)) + argN r.words 5).toNat) ∧
        head t = some { h with n := h.n + 1, recs := rs }) ∧
    ∀ e, r.step = some e → s.now < e.2.1 → h.ending.isSome = true → exec i s = .next s) ∧
  (∀ (s : State) (tl ch : Nat) (h : Chain) (cs : List Chain) (code : Nat) (addr : Word),
    ((s.tile tl).channel ch).chains = h :: cs → h.recs = [] → h.ending = some (code, addr) →
    exec (.copyRecord tl ch) s = .next (s.endChain tl ch h code addr)) ∧
  ∀ (s : State) (tl ch : Nat) (h : Chain) (cs : List Chain) (code : Nat) (addr : Word),
    ((s.tile tl).channel ch).chains = h :: cs → ch < 4 → (s.slot h.who).gen = h.gen →
    let t := s.endChain tl ch h code addr
    (h.d ≠ .z → h.d.isPlainDst = true → (code % 16 = 2 → ∀ b ∈ cs, b.who = h.who → b.d ≠ h.d) →
      (t.slot h.who).reg h.d = wd (h.n * 2 ^ 32 + h.flags * 2 ^ 8 + code % 16)) ∧
    (code % 16 ≠ 2 → ((t.tile tl).channel ch).chains = cs ∧ ((t.tile tl).channel ch).frozen = ((s.tile tl).channel ch).frozen) ∧
    (code % 16 = 2 → (t.tile tl).channel ch = ⟨[], some h.ctx⟩)

/-- The data of a record moves in bursts of at most 64 source bytes, each up to a 64-byte boundary of the source, from the top where
the destination overlaps the source from above, of which one starts a cycle and at most 16 are in flight. Each part of a burst is read,
and written, by itself: a burst starts its read, has its bytes, starts its write once no read of the record that overlaps it
is under way, and its write is performed: a copy writes the bytes read, a sum adds to each 16-byte slot the W96 value of one source
element, the flags of the conversions kept (07 R146, R147; 11 R405; 12 R237, R250). -/
def Clause.CopyData : Prop :=
  (∀ (s s1 : State) (tl ch d : Nat) (h : Chain) (r : Rec) (cs : List Chain) (a : Acc),
    ((s.tile tl).channel ch).chains = h :: cs → h.recs = [r] → r.next < r.len → s.tileHeld tl = false → h.ending = none →
    h.last ≤ s.now → s.inFlight tl h < 16 → ch < 4 →
    let c := r.cut h.sum (s.recDown tl r)
    s.unitAcc tl h.ctx h.red (r.src + wd c.1) c.2 .read = (.at_ a d, s1) →
    let l := s1.latencies tl a false
    ∃ t k, exec (.copyRecord tl ch) s = .next t ∧ s.SameMemory t ∧ ((t.tile tl).channel ch).chains = { h with
      recs := [{ r with
        next := r.next + c.2
        flight := r.flight ++ [⟨c.1, c.2, a.parts, [], none, k, s1.now + d + l / 2, s1.now + d + l, none⟩] }]
      last := s1.now + 1 } :: cs) ∧
  (∀ (r : Rec) (down : Bool), r.next < r.len → let c := r.cut false down
    c.2 ≤ 64 ∧ 0 < c.2 ∧ c.2 ≤ r.len - r.next ∧
    (down = false → c.1 = r.next ∧ ((addrOf r.src + r.next + c.2) % 64 = 0 ∨ r.next + c.2 = r.len)) ∧
    (down = true → c.1 + c.2 = r.len - r.next ∧ ((addrOf r.src + c.1) % 64 = 0 ∨ c.1 = 0))) ∧
  ∀ (s : State) (tl ch : Nat) (h : Chain) (r : Rec) (b : Burst) (cs : List Chain),
    ((s.tile tl).channel ch).chains = h :: cs → h.recs = [r] → r.flight = [b] → ch < 4 →
    let out (t : State) : List Burst := (((t.tile tl).channel ch).chains.head?.map fun h => h.bursts.map fun e => e.2).getD []
    (∀ j q va n, b.data = none → b.mid ≤ s.now → (b.got = [] → s.portTakes tl b.parts b.len = true) → b.parts[j]? = some q →
      (pieces b.len (addrOf (r.src + wd b.off)) b.len)[j]? = some (va, n) → h.red = none → (∀ e ∈ b.got, e.1 ≠ j) →
      let s' := if b.got.isEmpty then s.takePort tl b.parts b.len else s
      (s'.unitHeld tl b.stamp b.mid [q]).1 = false → s'.hidden (h.party tl) [q] = false → s'.poisoned [q] = false →
      let got := b.got ++ [(j, s.getPart q)]
      let t := s.burstStep tl ch 0 (some j)
      s.SameMemory t ∧ out t = [{ b with
        got := got
        data := if got.length = b.parts.length then some ((List.range got.length).flatMap fun i =>
          ((got.find? fun e => e.1 == i).map fun e => e.2).getD []) else none }]) ∧
    (∀ bs a d s1, b.data = some bs → b.write = none → b.due ≤ s.now →
      s.readsFirst tl h r b (s.recDown tl r) = (false, false) →
      s.unitAcc tl h.ctx h.red (r.dst + wd (r.scale h.sum b.off)) (r.scale h.sum b.len) .write = (.at_ a d, s1) →
      s1.portTakes tl a.parts (r.scale h.sum b.len) = true →
      ∃ k, out (s.burstStep tl ch 0 none) =
        [{ b with parts := a.parts, got := [], stamp := k, write := some (s1.now + d + s1.latencies tl a true / 2) }]) ∧
    ∀ bs due, b.data = some bs → b.write = some due → due ≤ s.now →
      (∀ j q, h.sum = false → b.parts[j]? = some q → (∀ e ∈ b.got, e.1 ≠ j) → (s.unitHeld tl b.stamp due [q]).1 = false →
        s.writeHeld [q] = false → s.poisoned [q] = false → q.isShadow = false →
        let t := s.burstStep tl ch 0 (some j)
        s.Wrote t [q] ((bs.drop ((b.parts.take j).map fun p => p.len).sum).take q.len) ∧
          out t = if b.got.length + 1 = b.parts.length then [] else [{ b with got := b.got ++ [(j, [])] }]) ∧
      (h.sum = true → (s.unitHeld tl b.stamp due b.parts).1 = false → s.writeHeld b.parts = false → s.poisoned b.parts = false →
        b.parts.any Part.isShadow = false →
        let z := xfSize (recXf r.w3)
        let t := s.burstStep tl ch 0 none
        out t = [] ∧ s.Wrote t b.parts ((List.range (bs.length / z)).flatMap fun i =>
          w96Bytes (w96Of (((s.getParts b.parts).drop (16 * i)).take 16) +
            (w96Elem (recXf r.w3) ((bs.drop (z * i)).take z)).1)))

/-- O30. Copies: acceptance by a channel, records, and the data of each kind of copy: the clauses above together. -/
def Obligations.CopiesRun : Prop :=
  Clause.CopiesAreAccepted ∧ Clause.RecordsAreRead ∧ Clause.RecordsEnd ∧ Clause.CopyData

/-- `lease` on a binding that is UNBOUND or EVICTED makes it QUEUED with its kind and priority and sends a request that the
Marten has 4 cycles later; a binding in use takes the engine-state trap and a kind without an engine on the shelf the
engine-absent trap. The instruction stays pending until the binding is BOUND (10 R196). -/
def Clause.LeasesAreRequested : Prop :=
  ∀ (s : State) (n : BitVec 2) (kind : BitVec 3) (prio : BitVec 2) (la : BitVec 4) (p : BitVec 3),
    let i : Instr := .lease (.f n) kind prio la p
    let b := s.cur.bind n.toNat
    let cl := s.cluster s.focus.tile
    let gone := (shelfOf kind.toNat).all fun e => s.caps.engOut.contains (16 * cl + e)
    s.Issues i (Meta.solo (onP p) [] [.f n]) → (s.cur.red = none ∨ kind ≠ 7) →
    ((b.st = .queued ∨ b.st = .waking ∨ b.st = .bound) →
      exec i s = .next (s.raise s.focus cEngState b.status s.cur.pc)) ∧
    ((b.st = .unbound ∨ b.st = .evicted) → gone = true →
      exec i s = .next (s.raise s.focus cEngAbsent (wd kind.toNat) s.cur.pc)) ∧
    ((b.st = .unbound ∨ b.st = .evicted) → gone = false →
      ∃ t, exec i s = .next (s.past i t) ∧ (t.slot s.focus).bind n.toNat =
          { Binding.cold with st := .queued, evn := b.evn, kind := kind.toNat, prio := prio.toNat, cl := cl } ∧
        (t.clu cl).lreq = (s.clu cl).lreq ++ [⟨s.focus, n.toNat, kind.toNat, prio.toNat, s.now + 4⟩] ∧
        (∃ q ∈ (t.slot s.focus).pend, q.job = .lease n.toNat ∧ q.seq = s.cur.iseq + 1 ∧ q.la = la.toNat) ∧ s.SameMemory t)

/-- MARTEN_SERVE gives one request that has come the first action of R269 that is possible: a powered, unleased engine of
its kind is bound to it with both register sets zero; else, with fewer than 4 powered, a sleeping one is taken and an
inrush token asked for; a kind with no engine in service, an engine that is frozen being none, ends the request with an error token of code 8. One that has not
come keeps its place (13 R269; 10 R196; 01 R16; 23 R370). -/
def Clause.MartenServes : Prop :=
  ∀ (s : State) (cl : Nat) (r : LReq), (s.clu cl).pow = .on → (s.clu cl).lreq = [r] → r.f < 4 → r.kind < 8 →
    let kin := shelfOf r.kind
    let free (e : Nat) := (s.eng cl e).usable = true ∧ (s.eng cl e).pow = .on ∧ (s.eng cl e).holder = none
    (s.now < r.at_ → exec (.martenServe cl) s = .next s) ∧
    (r.at_ ≤ s.now → (∃ e ∈ kin, free e) →
      ∃ t e, exec (.martenServe cl) s = .next t ∧ e ∈ kin ∧ free e ∧ (t.clu cl).lreq = [] ∧
        (t.eng cl e).holder = some (r.who, r.f) ∧ (t.eng cl e).cmds = [] ∧ (∀ k, vget (t.eng cl e).shadow k 0 = 0) ∧
        (∀ k, vget (t.eng cl e).active k 0 = 0) ∧
        ((t.slot r.who).bind r.f).st = .bound ∧ ((t.slot r.who).bind r.f).eng = e) ∧
    (r.at_ ≤ s.now → (∀ e ∈ kin, ¬ free e) → (∃ e ∈ kin, (s.eng cl e).usable = true ∧ (s.eng cl e).pow = .off) →
      (s.clu cl).powered < 4 →
      ∃ t e, exec (.martenServe cl) s = .next t ∧ e ∈ kin ∧ (s.eng cl e).pow = .off ∧ (t.clu cl).lreq = [] ∧
        (t.eng cl e).pow = .waiting ∧ (t.eng cl e).holder = some (r.who, r.f) ∧
        (t.slab (cl / 4)).wakes = (s.slab (cl / 4)).wakes ++ [⟨.engine cl e, r.prio, r.at_, none⟩]) ∧
    (r.at_ ≤ s.now → (∀ e ∈ kin, (s.eng cl e).usable = false) →
      ∃ t, exec (.martenServe cl) s = .next t ∧ (t.clu cl).lreq = [] ∧ ((t.slot r.who).bind r.f).st = .evicted ∧
        ((t.slot r.who).bind r.f).token = some 0xFE00000000000008)

/-- ENGINE_WAKE_DONE, 4,500 cycles after its inrush token was granted, gives the token back and binds the engine to the
request it was woken for; an engine that fails its check leaves service, and the request is queued again (10 R196; 13
R267; 23 R370). -/
def Clause.EnginesWake : Prop :=
  ∀ (s : State) (cl e g p a f : Nat) (w : Who), e < 16 → f < 4 →
    (s.slab (cl / 4)).wakes.find? (fun r => r.what == WakeOf.engine cl e) = some ⟨.engine cl e, p, a, some g⟩ →
    (s.eng cl e).holder = some (w, f) →
    (s.now < g + 4500 → ∀ pass, exec (.engineWakeDone cl e pass) s = .next s) ∧
    (g + 4500 ≤ s.now →
      (∃ t, exec (.engineWakeDone cl e true) s = .next t ∧ (t.slab (cl / 4)).tokens = (s.slab (cl / 4)).tokens + 1 ∧
        (t.eng cl e).pow = .on ∧ (t.eng cl e).holder = some (w, f) ∧ ((t.slot w).bind f).st = .bound ∧
        ((t.slot w).bind f).eng = e) ∧
      ∃ t, exec (.engineWakeDone cl e false) s = .next t ∧ (t.eng cl e).inService = false ∧ (t.eng cl e).pow = .off ∧
        ((t.slot w).bind f).st = .queued ∧ ∃ r ∈ (t.clu cl).lreq, r.who = w ∧ r.f = f)

/-- O31. Leases: the request, the Marten's choice of an engine, and the wake of one: the clauses above together. -/
def Obligations.LeasesAndMarten : Prop :=
  Clause.LeasesAreRequested ∧ Clause.MartenServes ∧ Clause.EnginesWake

/-- `free` ends a binding at issue: it is UNBOUND, its kind, priority and EVN kept, its guard slots EMPTY, its engine powered down and without
commands and results, a queued request withdrawn (10 R197). -/
def Clause.BindingsAreFreed : Prop :=
  ∀ (s : State) (n : BitVec 2) (g : Guard), s.Issues (.free (.f n) g) (Meta.solo g [] [.f n]) →
    let b := s.cur.bind n.toNat
    let t := s.freeBinding s.focus n.toNat
    exec (.free (.f n) g) s = .next (s.past (.free (.f n) g) t) ∧
    (t.slot s.focus).bind n.toNat = { b with st := .unbound, left := [], token := none } ∧
    (b.st = .bound → ∀ k, vget (t.slot s.focus).guards k none ≠ some n.toNat) ∧
    (b.st = .bound → b.eng < 16 → (t.eng b.cl b.eng).pow = .off ∧ (t.eng b.cl b.eng).holder = none ∧
      (t.eng b.cl b.eng).cmds = [] ∧ (t.eng b.cl b.eng).results = []) ∧
    (b.st = .queued → ∀ r ∈ (t.clu b.cl).lreq, r.who ≠ s.focus ∨ r.f ≠ n.toNat) ∧
    (∀ k, k ≠ n.toNat → (t.slot s.focus).bind k = s.cur.bind k) ∧ (∀ c, (t.slot s.focus).reg c = s.cur.reg c) ∧ s.SameMemory t

/-- `ewr` puts its operand into a shadow register of a BOUND engine that has no command waiting to start, and waits while it
has; on an EVICTED binding it is discarded, on an UNBOUND one it takes the unbound-engine trap. `erd` completes 24 cycles
later with the shadow register, the count of commands, ESTAT or the engine's number, 0 on an EVICTED binding (10 R198,
R201). -/
def Clause.EngineRegisters : Prop :=
  ∀ (s s1 : State) (n : BitVec 2) (a d : Spec) (r : BitVec 6) (g : Guard) (la : BitVec 4) (p : BitVec 3) (vs : List Word),
    let b := s.cur.bind n.toNat
    let e := s.eng b.cl b.eng
    let i : Instr := .ewr (.f n) a r g
    let j : Instr := .erd d (.f n) r la p
    (s.Issues i (Meta.solo g [a] [.f n]) →
      (b.st = .unbound → exec i s = .next (s.raise s.focus cUnbound (wd n.toNat) s.cur.pc)) ∧
      (s.operands s.focus [a] [] = .ok (vs, s1) → isQF a = false →
        (b.st = .evicted → exec i s = .next (s.past i s)) ∧
        (b.st = .bound → e.frozen = none → e.cmds = [] → b.eng < 16 → r.toNat < 16 →
          ∃ t, exec i s = .next (s.past i t) ∧ vget (t.eng b.cl b.eng).shadow r.toNat 0 = argN vs 0 ∧
            (t.eng b.cl b.eng).active = e.active ∧ s.SameMemory t) ∧
        (b.st = .bound → e.frozen = none → e.cmds ≠ [] →
          exec i s = .next (s.modSlot s.focus fun x => { x with st := .wait, why := .push })))) ∧
    (s.Issues j (Meta.solo (onP p) [] [d, .f n]) →
      (b.st = .unbound → exec j s = .next (s.raise s.focus cUnbound (wd n.toNat) s.cur.pc)) ∧
      ((b.st = .bound ∨ b.st = .evicted) → isQF d = false →
        exec j s = .next (s.past j (s.addPend s.focus j la (.erd d n.toNat r.toNat) (s.now + 24))))) ∧
    ∀ (w : Who) (q : Pend) (f k : Nat), (s.slot w).ripe s.now q.seq = some q → q.job = .erd d f k → isQF d = false →
      let c := (s.slot w).bind f
      let v : Word := if c.st ≠ .bound ∨ (s.eng c.cl c.eng).frozen.isSome then 0
        else if k < 16 then vget (s.eng c.cl c.eng).shadow k 0
        else if k = 48 then (s.eng c.cl c.eng).estat c.kind
        else if k = 49 then wd (s.eng c.cl c.eng).done else wd (c.cl * 16 + c.eng)
      ∃ t, exec (.erdComplete w q.seq false) s = .next t ∧ (t.slot w).pend? q.seq = none ∧
        (d.isPlainDst = true → d ≠ .z → (t.slot w).reg d = v) ∧ s.SameMemory t

/-- `eguard` pushes a command under an EMPTY guard slot, which then refers to its binding, and traps on one that is not
EMPTY; `gres` lets that command run, or discards it where its predicate is 0, and the slot is EMPTY; on an EMPTY slot it
has no effect (10 R203, R204). -/
def Clause.GuardedCommands : Prop :=
  ∀ (s s1 : State) (n : BitVec 2) (a : Spec) (sl pa : BitVec 3) (g : Guard) (vs : List Word),
    let b := s.cur.bind n.toNat
    let i : Instr := .eguard (.f n) a sl g
    let j : Instr := .gres pa sl g
    (s.Issues i (Meta.solo g [a] [.f n]) → b.st ≠ .unbound →
      (vget s.cur.guards sl.toNat none ≠ none → exec i s = .next (s.raise s.focus cEngState b.status s.cur.pc)) ∧
      (vget s.cur.guards sl.toNat none = none → b.st = .bound → s.dstReady s.focus (.f n) = .ok () →
        (s.eng b.cl b.eng).frozen = none → b.eng < 16 → s.operands s.focus [a] [] = .ok (vs, s1) → isQF a = false →
        ∃ t, exec i s = .next (s.past i t) ∧
          (t.eng b.cl b.eng).cmds = (s.eng b.cl b.eng).cmds ++ [⟨argN vs 0, some sl.toNat, s.cur.thr, s.cur.iseq + 1⟩] ∧
          vget (t.slot s.focus).guards sl.toNat none = some n.toNat)) ∧
    (s.Issues j (Meta.solo g [] []) →
      (vget s.cur.guards sl.toNat none = none → exec j s = .next (s.past j s)) ∧
      ∀ k, vget s.cur.guards sl.toNat none = some k → (s.cur.bind k).st = .bound → (s.cur.bind k).eng < 16 →
        let c := s.cur.bind k
        ∃ t, exec j s = .next (s.past j t) ∧ vget (t.slot s.focus).guards sl.toNat none = none ∧
          (s.cur.pred pa = true → (t.eng c.cl c.eng).cmds.length = (s.eng c.cl c.eng).cmds.length ∧
            ∀ q ∈ (t.eng c.cl c.eng).cmds, q.guard ≠ some sl.toNat) ∧
          (s.cur.pred pa = false → (t.eng c.cl c.eng).cmds = (s.eng c.cl c.eng).cmds.filter fun q => q.guard != some sl.toNat))

/-- O32. Bindings freed, engine registers written and read, and commands under guard: the clauses above together. -/
def Obligations.BindingsAndGuards : Prop :=
  Clause.BindingsAreFreed ∧ Clause.EngineRegisters ∧ Clause.GuardedCommands

/-- SORT: insert keeps the best K keys with their indices, emit gives one word for each, best first under its own parameters, and a
done word with their number, clear empties the set. A parameter outside its limits, and an OPC the kind does not define, give an error
token, and the engine goes on (10 R199, R200; 23 Table 23.3). -/
def Clause.SortEngine : Prop :=
  ∀ (s : State) (cl e : Nat) (c : Cmd),
    let k := (s.param cl e 0).toNat
    let ty := (s.param cl e 1).toNat
    let ord := (s.param cl e 2).toNat
    let ok := 1 ≤ k ∧ k ≤ 4096 ∧ ty ≤ 2 ∧ ord ≤ 1
    let keys := (s.eng cl e).keys
    (s.Runs cl e 0 1 c → ok → exec (.sortInsert cl e) s = .next (((s.begun cl e 1).modEng cl e fun g =>
      { g with keys := (keySort ty ord ((c.arg % 2 ^ 32, c.arg / 2 ^ 32 % 2 ^ 24) :: keys)).take k }).answers cl e [])) ∧
    (s.Runs cl e 0 2 c → ok → exec (.sortEmit cl e) s = .next ((s.begun cl e 2).answers cl e
      (((keySort ty ord keys).map fun q => resultWord 1 (q.2 * 2 ^ 32 + q.1)) ++ [resultWord 2 keys.length]))) ∧
    (keySort ty ord keys).Pairwise (fun x y => keyBefore ty ord x y = true) ∧ (keySort ty ord keys).Perm keys ∧
    (s.Runs cl e 0 3 c → ok → exec (.sortClear cl e) s = .next (((s.begun cl e 3).modEng cl e fun g =>
      { g with keys := [] }).answers cl e [])) ∧
    (¬ ok → (s.Runs cl e 0 1 c → exec (.sortInsert cl e) s = .next ((s.begun cl e 1).answers cl e [errToken 2 1 0])) ∧
      (s.Runs cl e 0 2 c → exec (.sortEmit cl e) s = .next ((s.begun cl e 2).answers cl e [errToken 2 2 0])) ∧
      (s.Runs cl e 0 3 c → exec (.sortClear cl e) s = .next ((s.begun cl e 3).answers cl e [errToken 2 3 0]))) ∧
    ∀ o, s.Runs cl e 0 o c → o = 0 ∨ 3 < o →
      exec (.sortInsert cl e) s = .next ((s.begun cl e o).answers cl e [errToken 1 o 0])

/-- A command of a kind that defines no such OPC ends with an error token of code 1, and one whose parameters lie outside Table 10.3 with
one of code 2 (10 R199). -/
def Clause.CommandsAreChecked : Prop :=
  ∀ (s : State) (cl e o : Nat) (c : Cmd),
    let bad (n : Nat) : Host.Outcome State Fault Refusal := .next ((s.begun cl e o).answers cl e [errToken n o 0])
    let p (n : Nat) : Nat := (s.param cl e n).toNat
    (s.Runs cl e 1 o c → (o ≠ 1 ∧ o ≠ 2 → exec (.matchScan cl e) s = bad 1) ∧
      (o = 1 → 2 ^ 24 < p 1 → exec (.matchScan cl e) s = bad 2) ∧ (o = 2 → 2 ^ 24 < p 1 → exec (.matchReset cl e) s = bad 2)) ∧
    (s.Runs cl e 2 o c → (o ≠ 1 → exec (.inflDecode cl e) s = bad 1) ∧ (o = 1 → 1 < p 3 → exec (.inflDecode cl e) s = bad 2)) ∧
    (s.Runs cl e 3 o c → (o ≠ 1 → exec (.xfrmTransform cl e) s = bad 1) ∧
      (o = 1 → p 2 < 4 ∨ 14 < p 2 ∨ 2 < p 3 → exec (.xfrmTransform cl e) s = bad 2)) ∧
    (s.Runs cl e 4 o c → (o = 0 ∨ 3 < o → exec (.gathToSlot cl e) s = bad 1) ∧
      (p 1 < 8 ∨ 4096 < p 1 ∨ p 1 % 8 ≠ 0 → (o = 1 → exec (.gathToSlot cl e) s = bad 2) ∧
        (o = 2 → exec (.gathFromSlot cl e) s = bad 2) ∧ (o = 3 → exec (.gathFinish cl e) s = bad 2))) ∧
    (s.Runs cl e 5 o c → (o ≠ 1 → exec (.scanPrefix cl e) s = bad 1) ∧ (o = 1 → 1 < p 3 → exec (.scanPrefix cl e) s = bad 2)) ∧
    (s.Runs cl e 6 o c → (o ≠ 1 ∧ o ≠ 2 → exec (.softSoftmax cl e) s = bad 1) ∧
      (p 2 = 0 ∨ 4096 < p 2 ∨ 1 < p 3 → (o = 1 → exec (.softSoftmax cl e) s = bad 2) ∧
        (o = 2 → exec (.softExponent cl e) s = bad 2)))

/-- The results of a command are enqueued one at a time, each once the writes of the command are performed and there is room; with the
last the command has ended, and counts, or its engine freezes: its binding then gives the results left and after them one token,
and one record names the cause (10 R199, R202, R406; 21 Table 21.4). What a command writes waits, as a store does, to be performed (11
R405). -/
def Clause.ResultsAreEnqueued : Prop :=
  (∀ (s : State) (cl e o : Nat), e < 16 → (s.eng cl e).opc = some o →
    let g := s.eng cl e
    let t := s.engResult cl e
    let mine (q : Stored) : Prop := q.party.tile = none ∧ q.party.thr = g.thr
    ((∃ q ∈ s.stores, mine q) → t = s) ∧
    ((∀ q ∈ s.stores, ¬ mine q) →
      (∀ r rs, g.outs = r :: rs →
        (16 ≤ g.results.length → t = s) ∧
        (g.results.length < 16 → (t.eng cl e).results = g.results ++ [r] ∧ (t.eng cl e).outs = rs ∧
          (rs = [] ∧ g.stop = none → (t.eng cl e).opc = none ∧ (t.eng cl e).done = g.done + 1) ∧
          (rs ≠ [] ∨ g.stop ≠ none → (t.eng cl e).opc = some o ∧ (t.eng cl e).done = g.done))) ∧
      (g.outs = [] → g.stop = none → (t.eng cl e).opc = none ∧ (t.eng cl e).done = g.done + 1 ∧ (t.eng cl e).results = g.results) ∧
      ∀ q w k, g.outs = [] → g.stop = some q → g.holder = some (w, k) → k < 4 →
        (t.eng cl e).frozen = some ((s.slot w).ctx.getD 0) ∧ (t.eng cl e).cmds = [] ∧
        ((t.slot w).bind k).left = ((s.slot w).bind k).left ++ g.results ∧
        ((t.slot w).bind k).token = some (errToken q.code o q.addr.toNat) ∧
        ∃ r ∈ t.flog, r.cls = (if q.cause = linkCause then 9 else 6) ∧ r.outcome = 2 ∧ r.cause = q.cause % 256 ∧ r.addr = q.addr)) ∧
  ∀ (s : State) (cl e : Nat) (c : Cmd) (ps : List Part) (bs : List Byte), ps.any Part.isShadow = false →
    let t := s.engStore cl e c ps bs
    t.stores.map (fun q => (q.part, q.data)) = s.stores.map (fun q => (q.part, q.data)) ++ cutData ps bs ∧
      s.SameMemory t ∧ (∀ u, t.slot u = s.slot u) ∧ ∀ k, t.eng cl k = s.eng cl k

/-- MATCH: a scan steps the automaton over the source bytes, each entry the next state and, with bit 31, a match with the
byte's place, and ends with the state, or with an error token at a state outside the image; reset sets state 0. INFL writes what its
source decodes to, up to the capacity, an error token after a longer one; an access fault freezes the engine once its results are
enqueued (10 R200; 23 R369). -/
def Clause.StreamEngines : Prop :=
  ∀ (s : State) (cl e : Nat) (c : Cmd),
    let p := s.param cl e
    (s.Runs cl e 1 1 c → (p 1).toNat ≤ 2 ^ 24 → ∀ bs s1 rs t,
      (s.begun cl e 1).EngReads cl e c (p 2) (c.arg % 2 ^ 32) bs s1 →
      (MatchSteps cl e c (p 0) (p 1).toNat bs 0 rs s1 t →
        exec (.matchScan cl e) s = .next (t.answers cl e (rs ++ [resultWord 2 (t.eng cl e).mstate]))) ∧
      ∀ pre b post, bs = pre ++ b :: post → MatchSteps cl e c (p 0) (p 1).toNat pre 0 rs s1 t →
        (p 1).toNat ≤ (t.eng cl e).mstate →
        exec (.matchScan cl e) s = .next (t.answers cl e (rs ++ [errToken 4 1 pre.length]))) ∧
    (s.Runs cl e 1 2 c → (p 1).toNat ≤ 2 ^ 24 →
      exec (.matchReset cl e) s = .next (((s.begun cl e 2).modEng cl e fun g => { g with mstate := 0 }).answers cl e [])) ∧
    (s.Runs cl e 2 1 c → (p 3).toNat ≤ 1 →
      (∀ bs s1 out qs s2, (s.begun cl e 1).EngReads cl e c (p 0) (c.arg % 2 ^ 32) bs s1 → inflate (p 3).toNat bs = some out →
        let fits := out.take (p 2).toNat
        s1.engReach c (p 1) fits.length .write = (.ok qs, s2) → s2.poisoned qs = false →
        exec (.inflDecode cl e) s = .next ((s2.engStore cl e c qs fits).answers cl e
          [if out.length ≤ (p 2).toNat then resultWord 2 out.length else errToken 5 1 0])) ∧
      (∀ bs s1, (s.begun cl e 1).EngReads cl e c (p 0) (c.arg % 2 ^ 32) bs s1 → inflate (p 3).toNat bs = none →
        ∃ n, (n = 0 ∨ n < bs.length) ∧ exec (.inflDecode cl e) s = .next (s1.freeVal.2.answers cl e [errToken 4 1 n])) ∧
      ∀ a s1 s2, (s.begun cl e 1).engReach c (p 0) (c.arg % 2 ^ 32) .read = (.error (.fault s1 [] a), s2) →
        exec (.inflDecode cl e) s = .next ((s1.answers cl e []).modEng cl e fun g => { g with stop := some ⟨3, 1, a⟩ }))

/-- SCAN writes the inclusive prefix sums of its source, which start anew where a bit of its bitmap is 1 (10 R200). -/
def Clause.ScanEngine : Prop :=
  (∀ (s : State) (cl e : Nat) (c : Cmd), let p := s.param cl e
    s.Runs cl e 5 1 c → (p 3).toNat ≤ 1 → ∀ bm s1 bs s2 qs s3, let n := (p 2).toNat
      (s.begun cl e 1).EngReads cl e c (p 4) ((n + 7) / 8) bm s1 → s1.EngReads cl e c (p 0) (4 * n) bs s2 →
      let starts := bm.flatMap fun b => (List.range 8).map fun i => bitOf b.toNat i
      let out := (scanList (p 3).toNat ((chunks 4 n bs).map leNat) starts 0 true).flatMap fun y => leBytes 4 y
      s2.engReach c (p 1) out.length .write = (.ok qs, s3) → s3.poisoned qs = false →
      exec (.scanPrefix cl e) s = .next ((s3.engStore cl e c qs out).answers cl e [resultWord 2 0])) ∧
  ∀ (ty : Nat) (xs : List Nat) (starts : List Bool), let ys := scanList ty xs starts 0 true
    ys.length = xs.length ∧ ∀ i < xs.length, ys.getD i 0 =
      if i = 0 ∨ starts.getD i false = true then xs.getD i 0
      else if ty = 0 then (ys.getD (i - 1) 0 + xs.getD i 0) % 2 ^ 32
      else (tyEncode 0 0 (numAdd 0 (tyDecode 0 (ys.getD (i - 1) 0)) (tyDecode 0 (xs.getD i 0))).1).1

/-- O33. What SORT, MATCH, INFL and SCAN engines answer, how commands are checked, and how results are enqueued: the clauses above together. -/
def Obligations.SortAndStreamEngines : Prop :=
  Clause.SortEngine ∧ Clause.CommandsAreChecked ∧ Clause.ResultsAreEnqueued ∧ Clause.StreamEngines ∧ Clause.ScanEngine

/-- XFRM, SOFT and GATH: batches transformed, rows replaced by their softmax or their exponentials, one row moved to or
from a slot with the slots counted; done words (10 R200). The twiddle factors, the exponential and the layout of the real
transform are free values (log 5). -/
def Clause.BlockEngines : Prop :=
  ∀ (s : State) (cl e : Nat) (c : Cmd),
    let p := s.param cl e
    (s.Runs cl e 3 1 c → 4 ≤ (p 2).toNat → (p 2).toNat ≤ 14 → (p 3).toNat ≤ 2 → ∀ t,
      BatchSteps cl e c (8 * 2 ^ (p 2).toNat) (xfrmBatch (p 2).toNat (p 3).toNat) (p 0) (p 1) c.arg 0 (s.begun cl e 1) t →
      exec (.xfrmTransform cl e) s = .next (t.answers cl e [resultWord 2 0])) ∧
    (∀ k, (k = 1 ∨ k = 2) → s.Runs cl e 6 k c → 1 ≤ (p 2).toNat → (p 2).toNat ≤ 4096 → (p 3).toNat ≤ 1 → ∀ t,
      let z := tyBytes (p 3).toNat 1
      let row (xs : List Nat) : List Nat :=
        if k = 1 then softRow (p 3).toNat xs else xs.map fun x => (approx 2 (p 3).toNat (tyDecode (p 3).toNat x)).1
      BatchSteps cl e c ((p 2).toNat * z)
        (fun bs => (row ((chunks z (p 2).toNat bs).map leNat)).flatMap fun y => leBytes z y) (p 0) (p 1) c.arg 0 (s.begun cl e k) t →
      exec (if k = 1 then .softSoftmax cl e else .softExponent cl e) s = .next (t.answers cl e [resultWord 2 0])) ∧
    (8 ≤ (p 1).toNat → (p 1).toNat ≤ 4096 → (p 1).toNat % 8 = 0 →
      let n := (p 1).toNat
      let row := p 0 + wd (c.arg % 2 ^ 48 * n)
      let slot := p 2 + wd ((s.eng cl e).moved * n)
      let one (t : State) : State := (t.modEng cl e fun g => { g with moved := g.moved + 1 }).answers cl e []
      (∀ bs s1 qs s2, s.Runs cl e 4 1 c → (s.begun cl e 1).EngReads cl e c row n bs s1 →
        s1.engReach c slot bs.length .write = (.ok qs, s2) → s2.poisoned qs = false →
        exec (.gathToSlot cl e) s = .next (one (s2.engStore cl e c qs bs))) ∧
      (∀ bs s1 qs s2, s.Runs cl e 4 2 c → (s.begun cl e 2).EngReads cl e c slot n bs s1 →
        s1.engReach c row bs.length .write = (.ok qs, s2) → s2.poisoned qs = false →
        exec (.gathFromSlot cl e) s = .next (one (s2.engStore cl e c qs bs))) ∧
      (s.Runs cl e 4 3 c → exec (.gathFinish cl e) s = .next (((s.begun cl e 3).modEng cl e fun g =>
        { g with moved := 0 }).answers cl e [resultWord 2 (s.eng cl e).moved])))

/-- COLL: a collective of two engines whose commands stand at the head with one operation and one length reads their group
records and both sources, writes the elementwise sum, or the first source, at both destinations, and ends both commands with a done
word; commands that disagree end with error tokens of code 2 (the model's choice, log 15), a member whose context is torn down ends both with code 7,
one of another OPC alone with code 1 (10 R200; 21 Table 21.5; 23 R369). Which engines a record
names is not given, so the members come with the event (log 15). -/
def Clause.CollectiveEngines : Prop :=
  (∀ (s : State) (m : Nat × Nat) (c : Cmd) (o : Nat), s.Runs m.1 m.2 7 o c → o ≠ 1 → (s.eng m.1 m.2).stop = none →
    exec (.collCollective [m]) s = .next ((s.begun m.1 m.2 o).answers m.1 m.2 [errToken 1 o 0])) ∧
  ∀ (s : State) (m1 m2 : Nat × Nat) (c1 c2 : Cmd),
    let p1 := s.param m1.1 m1.2
    let p2 := s.param m2.1 m2.2
    let n := (p1 2).toNat
    let op := (p1 4).toNat
    let s0 := (s.begun m1.1 m1.2 1).begun m2.1 m2.2 1
    let both (t : State) (v : Word) : State := (t.answers m1.1 m1.2 [v]).answers m2.1 m2.2 [v]
    m1 ≠ m2 → s.Runs m1.1 m1.2 7 1 c1 → s.Runs m2.1 m2.2 7 1 c2 →
    (s.eng m1.1 m1.2).stop = none → (s.eng m2.1 m2.2).stop = none →
    ((s.ctxOf c1.ctx).dying = true ∨ (s.ctxOf c2.ctx).dying = true →
      exec (.collCollective [m1, m2]) s = .next (both s0 (errToken 7 1 0))) ∧
    ((s.ctxOf c1.ctx).dying = false → (s.ctxOf c2.ctx).dying = false →
      (p2 4).toNat ≠ op ∨ (p2 2).toNat ≠ n ∨ 1 < op ∨ (op = 0 ∧ n % 4 ≠ 0) →
      exec (.collCollective [m1, m2]) s = .next (both s0 (errToken 2 1 0))) ∧
    ((s.ctxOf c1.ctx).dying = false → (s.ctxOf c2.ctx).dying = false →
      (p2 4).toNat = op → (p2 2).toNat = n → op ≤ 1 → (op = 0 → n % 4 = 0) →
      let brings (t : State) (m : Nat × Nat) (c : Cmd) (bs : List Byte) (t' : State) : Prop :=
        ∃ g sa ps sb, t.engReach c (s.param m.1 m.2 3) 8 .read = (.ok g, sa) ∧
          sa.engReach c (s.param m.1 m.2 0) n .read = (.ok ps, sb) ∧ (g ++ ps).any (sb.engHeld m.1 m.2 c.who.tile) = false ∧
          sb.poisoned (g ++ ps) = false ∧ bs = ps.flatMap (sb.engPart m.1 m.2) ∧ t' = sb.touchLoads c.who.tile (g ++ ps) 0
      ∀ b1 b2 s1 s2 d1 d2 s3 s4, brings s0 m1 c1 b1 s1 → brings s1 m2 c2 b2 s2 →
        s2.engReach c1 (p1 1) n .write = (.ok d1, s3) → s3.poisoned d1 = false →
        let out := if op = 0 then collSum n [b1, b2] else b1
        (s3.engStore m1.1 m1.2 c1 d1 out).engReach c2 (p2 1) n .write = (.ok d2, s4) → s4.poisoned d2 = false →
        exec (.collCollective [m1, m2]) s = .next (both (s4.engStore m2.1 m2.2 c2 d2 out) (resultWord 2 0)))

/-- O34. What XFRM, SOFT, GATH and COLL engines compute and write: the clauses above together. -/
def Obligations.BlockAndCollectiveEngines : Prop :=
  Clause.BlockEngines ∧ Clause.CollectiveEngines

/-- O35. The elementwise vector instructions compute each element from the elements in its place: sums, differences, products, a
product and sum rounded once, smaller and larger, compares to all ones or zeros, bitwise operations, shifts by a count modulo
the width, selection by a mask, magnitude and negation, and the functions of Table 8.3 (08 R155 to R160; 03 R52). -/
def Obligations.ElementwiseVectors : Prop :=
  ∀ (vd va vb ty : BitVec 4) (g : Guard),
    let t := ty.toNat
    let w := tyBits t
    let B := fun i assist (f : Nat → Nat → Nat × Nat) => ElementResult i g ty vd [va, vb] assist fun ps => f (argP ps 0) (argP ps 1)
    let F := fun i (fl : Machine.Num → Machine.Num → Machine.Num × Nat) (int : Int → Int → Int) => B i true fun a b =>
      if t ≤ 3 then flOf t (fl (tyDecode t a) (tyDecode t b)) else (wrapN (int (Machine.tyInt t a) (Machine.tyInt t b)) w, 0)
    let C := fun i (f : Int → Bool) => B i true fun a b =>
      (match numCmp (tyDecode t a) (tyDecode t b) with
        | some c => if f c then 2 ^ w - 1 else 0
        | none => 0, 0)
    let U := fun i (f : Nat → Nat) => ElementResult i g ty vd [va] false fun ps => (f (argP ps 0), 0)
    let A := fun i fn => ElementResult i g ty vd [va] true fun ps => approx fn t (tyDecode t (argP ps 0))
    F (.vadd vd va vb ty g) (numAdd 0) (· + ·) ∧ F (.vsub vd va vb ty g) (fun x y => numAdd 0 x (numNeg y)) (· - ·) ∧
    F (.vmul vd va vb ty g) numMul (· * ·) ∧ F (.vmin vd va vb ty g) (fun x y => (numPick false x y, 0)) min ∧
    F (.vmax vd va vb ty g) (fun x y => (numPick true x y, 0)) max ∧
    ElementResult (.vfma vd va vb ty g) g ty vd [va, vb, vd] true (fun ps =>
      if t ≤ 3 then flOf t (numFma (tyDecode t (argP ps 0)) (tyDecode t (argP ps 1)) (tyDecode t (argP ps 2)))
      else (wrapN (Machine.tyInt t (argP ps 0) * Machine.tyInt t (argP ps 1) + Machine.tyInt t (argP ps 2)) w, 0)) ∧
    C (.vcmpEq vd va vb ty g) (fun c => decide (c = 0)) ∧ C (.vcmpLt vd va vb ty g) (fun c => decide (c < 0)) ∧
    C (.vcmpLe vd va vb ty g) (fun c => decide (c ≤ 0)) ∧
    ElementResult (.vsel vd va vb ty g) g ty vd [va, vb, vd] false (fun ps =>
      (if argP ps 2 = 0 then argP ps 1 else argP ps 0, 0)) ∧
    B (.vand vd va vb ty g) false (fun a b => (a &&& b, 0)) ∧ B (.vor vd va vb ty g) false (fun a b => (a ||| b, 0)) ∧
    B (.vxor vd va vb ty g) false (fun a b => (a ^^^ b, 0)) ∧
    B (.vshl vd va vb ty g) false (fun a b => (a * 2 ^ (b % w) % 2 ^ w, 0)) ∧
    B (.vshr vd va vb ty g) false (fun a b => (wrapN (Machine.tyInt t a / 2 ^ (b % w)) w, 0)) ∧
    U (.vabs vd va ty g) (fun a => if t ≤ 3 then a % 2 ^ (w - 1) else wrapN (Machine.tyInt t a).natAbs w) ∧
    U (.vneg vd va ty g) (fun a => if t ≤ 3 then a ^^^ 2 ^ (w - 1) else wrapN (-(Machine.tyInt t a)) w) ∧
    A (.vrcp vd va ty g) 0 ∧ A (.vrsq vd va ty g) 1 ∧ A (.vexp vd va ty g) 2 ∧ A (.vlog vd va ty g) 3

/-- The other vector instructions: `vmov` the covered bytes, `vcvt` each element in the other type, `vred` the lines of the
shape reduced, `vbc` one element everywhere, `vtr` the transpose, `vrot` rows and columns turned, `vqnt` blocks of 32 to
codes and scales and `vdq` back; `vshp` a new shape, where it is a legal one (08 R156, R159, R161 to R166). -/
def Clause.VectorRearrangements : Prop :=
  ∀ (vd va vb ty : BitVec 4) (rm rop : BitVec 2) (dir : BitVec 1) (o : BitVec 3) (g : Guard),
    let v := va.toNat
    let d := vd.toNat
    let same := fun (x : Slot) => x.shape.ty = ty.toNat
    let calm := fun (x : Slot) => subSource x true x.shape.ty v = true → x.inWave = true
    let fz := fun (x : Slot) => if subSource x true x.shape.ty v then fFZ else 0
    let size := fun (x : Slot) td => tyBytes td x.shape.n
    VectorResult (.vmov vd va ty g) g [] [v] [d] (fun x _ =>
      ([(d, 0, x.vbytes v 0 (size x x.shape.ty))], lanesOf (size x x.shape.ty), 0)) (fun x _ => same x) ∧
    VectorResult (.vcvt vd va rm ty g) g [] [v] [d] (fun x _ =>
      let rs := (List.range x.shape.n).map fun k =>
        tyEncode ty.toNat rm.toNat (tyDecode x.shape.ty (srcElem x true x.shape.ty v k))
      ([(d, 0, packElems ty.toNat (rs.map fun r => r.1))], lanesOf (max (size x ty.toNat) (size x x.shape.ty)),
        rs.foldl (fun a r => a ||| r.2) (fz x)))
      (fun x _ => x.shape.ty ≠ 4 ∧ size x ty.toNat ≤ 2048 ∧ calm x) ∧
    VectorResult (.vred vd va rop dir ty g) g [] [v] [d] (fun x _ =>
      let h := x.shape
      let e := fun k => srcElem x true h.ty v k
      let lines := if dir = 0 then (List.range h.r).map fun i => (List.range h.c).map fun j => e (i * h.c + j)
        else (List.range h.c).map fun j => (List.range h.r).map fun i => e (i * h.c + j)
      let rs := lines.map (redLine h.ty rop.toNat)
      ([(d, 0, packElems h.ty (rs.map fun r => r.1))], lanesOf (size x h.ty), rs.foldl (fun a r => a ||| r.2) (fz x)))
      (fun x _ => same x ∧ calm x) ∧
    VectorResult (.vbc vd o ty g) g [.o o] [] [d] (fun x vs =>
      ([(d, 0, packElems x.shape.ty (List.replicate x.shape.n ((argN vs 0).toNat % 2 ^ tyBits x.shape.ty)))],
        lanesOf (size x x.shape.ty), 0)) (fun x _ => same x) ∧
    VectorResult (.vtr vd va ty g) g [] [v] [d] (fun x _ =>
      let h := x.shape
      ([(d, 0, packElems h.ty ((List.range h.c).flatMap fun j => (List.range h.r).map fun i =>
        srcElem x false h.ty v (i * h.c + j)))], lanesOf (size x h.ty), 0)) (fun x _ => same x ∧ x.shape.c ≤ 64) ∧
    VectorResult (.vrot vd va o ty g) g [.o o] [v] [d] (fun x vs =>
      let h := x.shape
      let kc := (argN vs 0).toNat % 256 % h.c
      let kr := (argN vs 0).toNat / 256 % 64 % h.r
      ([(d, 0, packElems h.ty ((List.range h.r).flatMap fun i => (List.range h.c).map fun j =>
        srcElem x false h.ty v ((i + h.r - kr) % h.r * h.c + (j + h.c - kc) % h.c)))], lanesOf (size x h.ty), 0))
      (fun x _ => same x) ∧
    VectorResult (.vqnt vd va vb ty g) g [] [v] [d, vb.toNat] (fun x _ =>
      let h := x.shape
      let qs := (List.range h.r).flatMap fun i => (List.range ((h.c + 31) / 32)).map fun k =>
        (i, k, quantBlock ((List.range (min 32 (h.c - 32 * k))).map fun j =>
          tyDecode h.ty (srcElem x true h.ty v (i * h.c + 32 * k + j))))
      let codes := qs.flatMap fun q => q.2.2.2.1
      ((d, 0, (chunks 2 (codes.length / 2) codes).map fun p => BitVec.ofNat 8 (p.getD 0 0 + 16 * p.getD 1 0)) ::
          qs.map fun q => (vb.toNat, 2 * (8 * q.1 + q.2.1), leBytes 2 q.2.2.1),
        lanesOf (size x h.ty), qs.foldl (fun a q => a ||| q.2.2.2.2) (fz x)))
      (fun x _ => x.shape.ty ≤ 1 ∧ x.shape.c % 2 = 0 ∧ calm x) ∧
    VectorResult (.vdq vd va vb ty g) g [] [v, vb.toNat] [d] (fun x _ =>
      let h := x.shape
      let td := ty.toNat
      let rows := (List.range h.r).map fun i => (i, q4Row (x.vbytes v (i * (h.c / 2)) (h.c / 2)))
      let rs := rows.flatMap fun q => (List.range h.c).map fun j =>
        dequant td (q.2.1.getD j .nan) (tyDecode 1 (leNat (x.vbytes vb.toNat (2 * (8 * q.1 + j / 32)) 2)))
      ([(d, 0, packElems td (rs.map fun r => r.1))], lanesOf (max (size x td) (size x 4)),
        rs.foldl (fun a r => a ||| r.2) (if rows.any fun q => q.2.2 then fQA else 0)))
      (fun x _ => x.shape.ty = 4 ∧ size x ty.toNat ≤ 2048) ∧
    ∀ s, s.Issues (.vshp o g) (Meta.of g [.o o] []) →
      let n := vget s.cur.o o.toNat 0
      (vshpOk n = true → exec (.vshp o g) s = .next (s.past (.vshp o g) (s.modSlot s.focus fun x => { x with vshp := vshpMask n }))) ∧
      (vshpOk n = false → exec (.vshp o g) s = .next (s.raise s.focus cVShape (wordOf (.vshp o g)) s.cur.pc))

/-- A vector instruction takes the vector-type trap where the shape's type is not its own, and the subnormal-assist trap for a
subnormal element outside waves; nothing is written (08 R151; 05 R87). -/
def Clause.VectorTraps : Prop :=
  ∀ (s : State) (vd va vb ty : BitVec 4) (g : Guard) (i : Instr) (m : Meta),
    i ∈ [Instr.vadd vd va vb ty g, .vsub vd va vb ty g, .vmul vd va vb ty g, .vmin vd va vb ty g, .vmax vd va vb ty g,
      .vcmpEq vd va vb ty g, .vcmpLt vd va vb ty g, .vcmpLe vd va vb ty g] →
    instrMeta s.cur.isMember i = some m → s.Issues i m →
    (s.cur.shape.ty ≠ ty.toNat → exec i s = .next (s.raise s.focus cVType (wordOf i) s.cur.pc)) ∧
    (s.cur.shape.ty = ty.toNat → s.cur.inWave = false →
      (subSource s.cur true ty.toNat va.toNat = true ∨ subSource s.cur true ty.toNat vb.toNat = true) →
      exec i s = .next (s.raise s.focus cAssist (wordOf i) s.cur.pc))

/-- O36. The other vector instructions, the shape of a vector, and the traps of vector instructions: the clauses above together. -/
def Obligations.OtherVectors : Prop :=
  Clause.VectorRearrangements ∧ Clause.VectorTraps

/-- O37. `vld` and `vst` name the bytes their shape covers; a load joins the pending ones and LOAD_COMPLETE puts its bytes into the
register, a store takes the register's bytes as it issues. VECTOR_COMPLETE writes the oldest pending result of a thread when
its last lane cycle has come, with its flags, and the next one's lane cycles begin after it (08 R152 to R154, R167). -/
def Obligations.VectorMemoryAndCompletion : Prop :=
  (∀ (s s1 s2 : State) (v : BitVec 4) (a : Spec) (rd am : BitVec 2) (la : BitVec 4) (p : BitVec 3) (vs : List Word) (c : Acc) (d : Nat),
    let i : Instr := .vld v a rd am la p
    s.Issues i ⟨onP p, [a], [], [], [v.toNat], am == 1⟩ → s.cur.inWave = false → s.operands s.focus [a] [] = .ok (vs, s1) →
    s1.openVec s.focus (wordOf i) (vecAcc am (argN vs 0) s1.cur.shape) (argN vs 0) .read = .go c d s2 → s1.focus = s.focus →
    (s2.slot s.focus).inWave = false →
    exec i s = .next (s.past i (s2.openPend s.focus i la (.vload v.toNat c rd.toNat) d
      (s2.latencies s.focus.tile c false)))) ∧
  (∀ (s s1 s2 : State) (v : BitVec 4) (a : Spec) (rd am : BitVec 2) (la : BitVec 4) (p : BitVec 3) (vs : List Word) (c : Acc) (d : Nat),
    let i : Instr := .vst v a rd am la p
    let acc := vecAcc am (argN vs 0) s1.cur.shape
    let data := s1.cur.vbytes v.toNat 0 acc.len
    s.Issues i ⟨onP p, [a], [], [v.toNat], [], am == 1⟩ → s.cur.inWave = false → s.operands s.focus [a] [] = .ok (vs, s1) →
    s1.focus = s.focus → addrOf (argN vs 0) % 16 = 0 → s1.openAcc s.focus (wordOf i) acc 1 .write = .go c d s2 →
    (s2.slot s.focus).inWave = false → (s2.tile s.focus.tile).mx.bnd.toList.all (fun b => !b.on) = true →
    exec i s = .next (s.past i (s2.openPend s.focus i la
      (.store c s1.cur.shape.ty data (s2.tile s.focus.tile).mx.bnd.toList 0 none rd.toNat)
      (d + (6 + (data.length + 127) / 128 - 1)) 0))) ∧
  (∀ (s s1 : State) (w : Who) (q q' : Pend) (v : Nat) (a a' : Acc) (rd : Nat), (s.slot w).ripe s.now q.seq = some q →
    q.job = .vload v a rd → s.serveAcc w q a .read none .sound = .perform q' a' s1 → q'.job = .vload v a' rd →
    q'.due ≤ s1.now → q'.performed = true → (s1.slot w).forGood q' = true →
    let bs := q'.bytes a'.parts.length
    ∃ t, exec (.loadComplete w q.seq .sound) s = .next t ∧ s.SameMemory t ∧ (t.slot w).pend? q.seq = none ∧
      (t.slot w).vbytes v 0 bs.length = bs ∧
      ∀ k, (k < 2048 * v ∨ 2048 * v + bs.length ≤ k) → memGet (t.slot w).v k = memGet (s.slot w).v k) ∧
  ∀ (s : State) (w : Who) (p : VPend) (rest : List VPend) (e : Nat), (s.slot w).vpend = p :: rest →
    s.laneEnd w p.since p.lanes = some e →
    (s.now < e → exec (.vectorComplete w) s = .next s) ∧
    (e ≤ s.now → ∃ t, exec (.vectorComplete w) s = .next t ∧
      (t.slot w).vpend = rest.map (fun q => { q with since := max q.since (e + 1) }) ∧
      (t.slot w).fstat = (s.slot w).fstat ||| wd p.flags ∧
      (∀ v off bs, p.writes = [(v, off, bs)] → (t.slot w).vbytes v off bs.length = bs) ∧ s.SameMemory t ∧ s.SameOthers t w)

/-- O38. The matrix control instructions: `mshape` enables and disables bands, `mfmt` sets the activation format, `mwswp` makes
the shadow tile active, `mring` copies the active one into the output buffer, `mscl` discards the head scale, `mclr` zeroes
rows and leaves the others, `mbnd` loads a bound register from 32 bytes of the own scratchpad (09 R175 to R179, R186, R187). -/
def Obligations.MatrixControl : Prop :=
  ∀ (s s2 : State) (a : Spec) (k : BitVec 3) (g : Guard) (vs : List Word), s2.focus = s.focus →
    let tl := s.focus.tile
    let m := (s2.tile tl).mx
    let v := (argN vs 0).toNat
    let R := fun i os ordered => MatrixReady s i g os [] [] ordered true vs s2
    (R (.mshape a g) [a] true → s2.cur.inWave = false →
      ∃ t, exec (.mshape a g) s = .next (s.past (.mshape a g) t) ∧ (t.tile tl).mx.mshp = wd (v % 16) ∧
        (∀ b < 4, bitOf v b = false → (t.tile tl).mx.rails.getLsbD b = false ∧ (t.tile tl).mx.wakes.getLsbD b = false) ∧
        (∀ b < 4, bitOf v b = true → (t.tile tl).mx.rails.getLsbD b = m.rails.getLsbD b ∧
          (m.rails.getLsbD b = false → (t.tile tl).mx.wakes.getLsbD b = true))) ∧
    (R (.mfmt a g) [a] true →
      (matFmt (v % 16) = true → exec (.mfmt a g) s = .next (s.past (.mfmt a g) (s2.modMx tl fun m =>
        { m with afmt := wd (v % 16), latchDirty := true }))) ∧
      (matFmt (v % 16) = false → exec (.mfmt a g) s = .next (s.raise s.focus cMFormat (wordOf (.mfmt a g)) s.cur.pc))) ∧
    (R (.mwswp g) [] true → ∀ w, m.shadow = some w → m.filling = false →
      exec (.mwswp g) s = .next (s.past (.mwswp g) (s2.modMx tl fun m =>
        { m with active := some w, shadow := none, latchDirty := true }))) ∧
    (R (.mring g) [] false → m.out = none → s2.tailLen s.focus = none →
      (m.active = none → exec (.mring g) s = .next (s.raise s.focus cMLatch (wordOf (.mring g)) s.cur.pc)) ∧
      ∀ w, m.active = some w → (s2.tile tl).vacant = false → (s2.tile (s2.neighbour tl 0)).vacant = false →
        ∃ t, exec (.mring g) s = .next (s.past (.mring g) t) ∧ (t.tile tl).mx.out = some w ∧ (t.tile tl).mx.active = some w) ∧
    (R (.mscl g) [] false → m.fifo ≠ [] → exec (.mscl g) s = .next (s.past (.mscl g) ((s2.modMx tl fun m =>
      { m with fifo := m.fifo.tail, latchDirty := true }).room tl 64))) ∧
    (R (.mclr a g) [a] true →
      let r0 := v % 256
      let nr := v / 256 % 256 + 1
      r0 + nr ≤ 256 → v / 2 ^ 16 % 64 = 0 → v / 2 ^ 24 % 64 = 63 → v / 2 ^ 32 = 0 →
      ∃ t, exec (.mclr a g) s = .next (s.past (.mclr a g) t) ∧
        ∀ r c, r < 256 → c < 64 → (t.tile tl).mx.accAt r c = if r0 ≤ r ∧ r < r0 + nr then 0 else m.accAt r c) ∧
    (R (.mbnd k a g) [a] false → ∀ off, s2.ownPad s.focus (argN vs 0) 32 32 = .ok off →
      let w := fun n => wd (leNat (memRead (s2.tile tl).spad (off + 8 * n) 8))
      let b : Bnd := ⟨w 0, w 1, w 2, ctlMask (w 3)⟩
      (s2.slot s.focus).padStore tl = false → (∀ q ∈ s2.stores, q.party.thr ≠ s2.cur.thr) → (b.act = 0 ∨ b.am ≠ 3) →
      let s3 := if s2.cur.inWave then s2.modTile tl (fun x => x.takePath s2.now) else s2
      exec (.mbnd k a g) s = .next (s.past (.mbnd k a g) (s3.modMx tl fun m =>
        { m with bnd := vset m.bnd k.toNat b, bndVer := vset m.bndVer k.toNat (vget m.bndVer k.toNat 0 + 1), latchDirty := true })))

/-- O39. `mstep`, its checks passed, takes a place among at most two of its thread, holding the weight tile, the format, the bands
and the head scale as they stand; `mwld` empties the shadow and begins its 52 transfers; `mrd` and `mst` read their elements
as they issue, `mst` converting each (09 R174, R181, R184, R185). -/
def Obligations.MatrixStepsIssue : Prop :=
  ∀ (s s2 s3 : State) (ovw : BitVec 1) (n fmt v : BitVec 4) (rm : BitVec 2) (ty : BitVec 4) (a b : Spec) (la : BitVec 4) (p : BitVec 3)
    (vs : List Word), s2.focus = s.focus → s2.cur.inWave = false → s.cur.inWave = false →
    let tl := s.focus.tile
    let m := (s2.tile tl).mx
    let be := m.mshp.toNat % 16
    let rows := n.toNat + 1
    (∀ w off, let i : Instr := .mstep ovw n a b la p
      MatrixReady s i (onP p) [a, b] [] [] false true vs s2 →
      ((s.cur.pend.filter fun q => match q.job with | .mstep .. => true | _ => false).length < 2) →
      m.active = some w → be ≠ 0 → (argN vs 1).toNat % 256 + rows ≤ 256 → paired w.fmt m.afmt.toNat = true →
      s2.ownPad s.focus (argN vs 0) (96 * rows) 32 = .ok off → (w.fmt = 1 ∨ m.fifo ≠ []) →
      ((bandsOf be).all fun k => m.rails.getLsbD k) = true → s2.draw s.focus (rows * (bandsOf be).length) = (true, s3) →
      exec i s = .next (s.past i (s3.addPend s.focus i la
        (.mstep rows 0 off ((argN vs 1).toNat % 256) (ovw == 1) w m.afmt.toNat be (m.fifo.headD 0)) s3.now))) ∧
    (∀ src scl, let i : Instr := .mwld fmt a b la p
      MatrixReady s i (onP p) [a, b] [] [] true true vs s2 → (s.tile tl).mx.filling = false → matFmt fmt.toNat = true →
      s2.ownPad s.focus (argN vs 0) 6144 64 = .ok src →
      (fmt = 1 ∨ s2.ownPad s.focus (argN vs 1) 512 64 = .ok scl) → s2.draw s.focus 4 = (true, s3) →
      ∃ t, exec i s = .next (s.past i t) ∧ (t.tile tl).mx.shadow = none ∧ (t.tile tl).mx.filling = true ∧
        (t.tile tl).mx.load = some ⟨fmt.toNat, src, if fmt = 1 then padOff (argN vs 1) else scl, [], 0⟩ ∧
        ∃ q ∈ (t.slot s.focus).pend, q.job = .mwld ∧ q.la = la.toNat) ∧
    (let i : Instr := .mrd v b la p
      let d := rowDesc (argN vs 0)
      let es := (List.range d.nr).flatMap fun r => (List.range d.nc).map fun c => m.accAt (d.row0 + r) (d.c0 + c)
      MatrixReady s i (onP p) [b] [] [v.toNat] true false vs s2 → d.fits = true → d.stride = 0 → d.nr * d.nc * 4 ≤ 2048 →
      exec i s = .next (s.past i (s2.addPend s.focus i la (.mrd v.toNat (es.flatMap fun e => leBytes 4 e))
        (s2.now + (4 * es.length + 127) / 128)))) ∧
    (∀ c dl, let i : Instr := .mst rm ty a b la p
      let d := rowDesc (argN vs 1)
      let z := tyBytes ty.toNat 1
      let es := ((List.range d.nr).flatMap fun r => (List.range d.nc).map fun c => m.accAt (d.row0 + r) (d.c0 + c)).map
        fun e => tyEncode ty.toNat rm.toNat (tyDecode 0 e)
      let data := es.flatMap fun e => leBytes z e.1
      MatrixReady s i (onP p) [a, b] [] [] true false vs s2 → ty ≠ 4 → d.fits = true → (d.nr = 1 ∨ d.nc * z ≤ d.stride) →
      s2.openAcc s.focus (wordOf i) ⟨modeOf (argN vs 0), addrOf (argN vs 0), d.nc * z, d.nr, d.stride, 1, [], false⟩ z .write =
        .go c dl s3 → (s3.slot s.focus).inWave = false → (s3.tile tl).mx.bnd.toList.all (fun b => !b.on) = true →
      exec i s = .next (s.past i (s3.openPend s.focus i la
        (.store c ty.toNat data (s3.tile tl).mx.bnd.toList (wd (es.foldl (fun f e => f ||| e.2) 0)) none 0)
        (dl + (6 + (data.length + 127) / 128 - 1)) 0)))

/-- MSTEP_ROW processes one row of a step in an array cycle of its slot: the accumulator row holds the new elements, the
other rows theirs, and the last row completes the step. A `mwld` moves 128 bytes a cycle in which its read path is free, as they stood before the cycle; with the last, MWLD_COMPLETE
fills the shadow with the tile transferred; MRD_COMPLETE writes the elements read (09 R172, R174, R181, R184). -/
def Clause.RowsAndLoadsAreProcessed : Prop :=
  (∀ (s : State) (w : Who) (p : Pend) (fl : List Glitch) (a row : Nat) (r : RowOut), (s.slot w).step? = some p → s.arrayFree w = true →
    s.rowOf w.tile p fl false = some (a, row, r) → row < 256 → r.elems.length = 64 → (∀ e ∈ r.elems, e < 2 ^ 32) → r.bad = 0 →
    ∃ t, exec (.mstepRow w fl) s = .next t ∧ s.SameMemory t ∧
      (∀ c < 64, (t.tile w.tile).mx.accAt row c = r.elems.getD c 0) ∧
      (∀ k c, k < 256 → c < 64 → k ≠ row → (t.tile w.tile).mx.accAt k c = (s.tile w.tile).mx.accAt k c) ∧
      (∀ n d ao r0 o tw af be sc, p.job = .mstep n d ao r0 o tw af be sc → n ≤ d + 1 → (t.slot w).pend? p.seq = none)) ∧
  (∀ (s : State) (w : Who) (q : Pend) (l : Loading), (s.slot w).pend? q.seq = some q → q.job = .mwld →
    (s.tile w.tile).mx.load = some l → 6656 ≤ l.got.length →
    ∃ t, exec (.mwldComplete w q.seq) s = .next t ∧ (t.tile w.tile).mx.shadow = some (makeWeights l.fmt l.got).1 ∧
      (t.tile w.tile).mx.filling = false ∧ (t.tile w.tile).mx.load = none ∧ (t.slot w).pend? q.seq = none) ∧
  (∀ (t : Tile) (l : Loading) (now : Nat), t.mx.load = some l → l.got.length < 6656 →
    (l.taken = now + 1 → t.moveLoad now = t) ∧
    (l.taken ≠ now + 1 → ∃ more, (t.moveLoad now).mx.load = some { l with got := l.got ++ more } ∧ more.length = 128 ∧
      ∀ i < 128, l.got.length + i < 6144 → more.getD i 0 = t.byteBefore now (l.src + (l.got.length + i)))) ∧
  ∀ (s : State) (w : Who) (q : Pend) (v : Nat) (bs : List Byte), (s.slot w).ripe s.now q.seq = some q → q.job = .mrd v bs →
    ∃ t, exec (.mrdComplete w q.seq) s = .next t ∧ (t.slot w).vbytes v 0 bs.length = bs ∧ (t.slot w).pend? q.seq = none

/-- The elements of a row without a fault of the datapath: each starts at -0 on overwrite, else at what the accumulator holds, and adds for
every enabled band in ascending order, rounded to F32, the band's term. In a narrow step the term is the product of both scales and the
exact sum of the band's products, rounded once; in a BF16 step it is the rounded sum, in ascending order, of the rounded products (05
R95 to R97). -/
def Clause.RowElements : Prop :=
  ∀ (m : Matrix) (f afmt be row c : Nat) (img data : List Byte) (ovw : Bool) (scale : Word), c < 64 → f < 16 →
    let w := (makeWeights f img).1
    let a k := (inputRow afmt data).1.getD k .nan
    let y k := (inputRow f ((img.drop (96 * c)).take 96)).1.getD k .nan
    let start : Machine.Num := if ovw then .fin true 0 0 else tyDecode 0 (m.accAt row c)
    let add (x t : Machine.Num) : Machine.Num := rneF32 (numAdd 0 x t).1
    (f ≠ 1 → bandLen afmt = bandLen f → data.length = 96 → 6144 ≤ img.length →
      let ks b := (List.range (bandLen f)).map fun k => bandLen f * b + k
      let sum b := if (ks b).all (fun k => isFin (a k) && isFin (y k)) then
          some (((ks b).map fun k => fixed 2 (a k) * fixed 2 (y k)).foldl (· + ·) (0 : Int)) else none
      let term b := scaled (tyDecode 1 (scale.toNat / 2 ^ (16 * b) % 2 ^ 16)) (tyDecode 1 (w.sc.getD (64 * b + c) 0).toNat) (sum b)
      (narrowRow m w afmt be row ovw scale data []).elems[c]? = some (elemOut ((bandsOf be).foldl (fun x b => add x (term b)) start))) ∧
    (f = 1 → data.length = 96 → 6144 ≤ img.length →
      let prod k := (bfProduct (a k) (y k)).1
      let term b := ((List.range 11).map fun k => prod (12 * b + k + 1)).foldl add (prod (12 * b))
      (bf16Row m w be row ovw data []).elems[c]? = some (elemOut ((bandsOf be).foldl (fun x b => add x (term b)) start)))

/-- A row that mismatches is not written, and its step does not complete: the tile's count of mismatches rises, a record of class SCREEN
names the row's address, the row and the bands, and no slot of the tile issues any more, for the stop sequence has begun; with the
third within 24 hours it is that of a retirement, and the tile's RET is set (09 R189, R191; 24 R377, R384, R390). A context being torn
down starts none but a retirement's (21 R344). -/
def Clause.RowsThatMismatchStop : Prop :=
  (∀ (s : State) (w : Who) (p : Pend) (fl : List Glitch) (a row : Nat) (r : RowOut) (n d ao r0 : Nat) (o : Bool) (tw : Weights)
    (af be : Nat) (sc : Word), (s.slot w).step? = some p → p.job = .mstep n d ao r0 o tw af be sc → s.arrayFree w = true →
    s.rowOf w.tile p fl false = some (a, row, r) → r.bad ≠ 0 →
    exec (.mstepRow w fl) s = .next ((s.modTile w.tile fun t => { t.takePath s.now with lastRow := s.now + 1 }).mismatch w.tile
      ((s.slot w).ctx.getD 0) (if tw.fmt = 1 then 2 else 1) p.pc (evalAddr 1 a) (wd (row * 2 ^ 40 + r.bad * 2 ^ 32)))) ∧
  ∀ (s : State) (t ctx cause : Nat) (pc addr aux : Word), (s.tile t).waveIds = [] →
    let u := s.mismatch t ctx cause pc addr aux
    let age := (s.ptile (s.phys t)).age
    let third := 3 ≤ (age.mismatch s.now).smis.length
    (∀ k c, (u.tile t).mx.accAt k c = (s.tile t).mx.accAt k c) ∧ (∀ k, (u.slot ⟨t, k⟩).pend = (s.slot ⟨t, k⟩).pend) ∧
    (∃ q ∈ u.flog, q.cls = 10 ∧ q.outcome = 1 ∧ q.ctx = ctx ∧ q.cause = cause ∧ q.addr = addr ∧ q.pc = pc ∧
      q.aux = aux ||| (if (s.tile t).covered = false then 1 else 0)) ∧
    (u.ptile (s.phys t)).age.smtot = min (age.smtot + 1) 0xFFFF ∧ (third → (u.ptile (s.phys t)).age.ret = true) ∧
    ((s.ctxOf ctx).dying = false ∨ third → (s.tile t).stopped = false → (s.tile t).move = none →
      (∀ k, u.canIssue ⟨t, k⟩ = false) ∧
        ∃ m, (u.tile t).move = some m ∧ m.phase = .drain ∧ (m.why = if third then .retire else .mismatch))

/-- O40. A row of a matrix step, its elements and its mismatch, the end of a weight load, and the end of an accumulator read: the clauses above together. -/
def Obligations.MatrixRowsAndLoads : Prop :=
  Clause.RowsAndLoadsAreProcessed ∧ Clause.RowElements ∧ Clause.RowsThatMismatchStop

/-- O41. The witness of a narrow row is exact: without a fault of the datapath no row of a narrow step mismatches, whatever its
data, weights, bands and accumulators; and a fault that makes one enabled band's sum of finite products in one column wrong, by whatever
amount, is always found (09 R188, R189; 05 R97). -/
def Obligations.NarrowWitnessIsExact : Prop :=
  ∀ (m : Matrix) (f afmt be row : Nat) (img data : List Byte) (ovw : Bool) (scale : Word), f ≠ 1 →
    let w := (makeWeights f img).1
    (narrowRow m w afmt be row ovw scale data []).bad = 0 ∧
    ∀ b c d, c < 64 → d ≠ 0 → b ∈ bandsOf be →
      ((((inputRow afmt data).1.drop (bandLen f * b)).take (bandLen f)).all isFin = true) →
      (((chunks 96 64 w.w).map fun r => (inputRow f r).1).all fun y => ((y.drop (bandLen f * b)).take (bandLen f)).all isFin) = true →
      bitOf (narrowRow m w afmt be row ovw scale data [.sum b c d]).bad b = true

/-- O42. BAND_WAKE_DONE, 450 cycles after its token was granted, gives it back and readies the rail of a band still enabled, unless
a later wake of the band is still to come. HANDOFF_START reserves the EMPTY shadow of its target for the tile in the output buffer,
which it sends on its way; HANDOFF_ARRIVE gives the shadow the tile and frees the buffer (09 R176, R177; 13 R267). -/
def Obligations.BandsAndHandOffs : Prop :=
  (∀ (s : State) (tl b g p a : Nat), b < 4 →
    let ws := (s.slab (s.slabOf tl)).wakes
    let mine (r : WakeReq) : Bool := r.what == WakeOf.band tl b
    ws.find? (fun r => mine r && r.granted.isSome) = some ⟨.band tl b, p, a, some g⟩ →
    let later := (ws.erase ⟨.band tl b, p, a, some g⟩).any mine
    (s.now < g + 450 → exec (.bandWakeDone tl b) s = .next s) ∧
    (g + 450 ≤ s.now → ∃ t, exec (.bandWakeDone tl b) s = .next t ∧
      (t.slab (s.slabOf tl)).tokens = (s.slab (s.slabOf tl)).tokens + 1 ∧
      (later = true → (t.tile tl).mx = (s.tile tl).mx) ∧
      (later = false → (t.tile tl).mx.wakes.getLsbD b = false ∧
        ((s.tile tl).mx.wakes.getLsbD b = true → (t.tile tl).mx.rails.getLsbD b = true)))) ∧
  (∀ (s : State) (tl : Nat) (x : Weights), let m := (s.tile tl).mx
    let u := s.ringTarget tl m.outTail
    let due := s.now + 60 + 2 * (m.outTail.getD 1 - 1)
    m.out = some x → m.flight = none → (s.tile u).savedFor m.outCtx = none → (s.tile u).mx.shadow = none →
    (s.tile u).mx.filling = false → s.tileHeld u = false →
    ∃ t, exec (.handoffStart tl) s = .next t ∧ (t.tile u).mx.filling = true ∧ (t.tile tl).mx.flight = some due ∧
      (t.tile tl).handoffs = (s.tile tl).handoffs ++ [⟨u, due, m.outCtx, x⟩] ∧ (t.tile tl).mx.out = some x) ∧
  ∀ (s : State) (tl : Nat) (h : Handoff), let m := (s.tile tl).mx
    (s.tile tl).handoffs.find? (fun h => decide (h.due ≤ s.now) && !s.afterForwarded h.tile h.due) = some h →
    s.tileHeld h.tile = false → (s.tile h.tile).savedFor h.ctx = none →
    ((s.tile h.tile).mx.owner = none ∨ (s.tile h.tile).mx.owner = some h.ctx) →
    ∃ t, exec (.handoffArrive tl) s = .next t ∧ (t.tile h.tile).mx.shadow = some h.data ∧ (t.tile h.tile).mx.filling = false ∧
      (t.tile h.tile).mx.owner = some h.ctx ∧ (t.tile tl).handoffs = (s.tile tl).handoffs.erase h ∧
      (m.flight = some h.due → m.outCtx = h.ctx → (t.tile tl).mx.out = none ∧ (t.tile tl).mx.flight = none)

/-- O43. The Owl: a job written to `owlq` is accepted once everything of its thread before it is performed; the record at its address is
read, and a good one is served entry by entry, one scale word a cycle along its route, and leaves the queue with its last; one that is bad
or cannot be read is skipped and counted (09 R180; 11 R217; 12 R250). -/
def Obligations.OwlJobs : Prop :=
  (∀ (s : State) (cl : Nat) (j : OwlJob) (r : List OwlJob), (s.clu cl).owl = j :: r → j.accepted = false →
    (s.owes j.thr j.seq = false → ∃ t, exec (.owlqSubmit cl) s = .next t ∧ (t.clu cl).owl = { j with accepted := true } :: r) ∧
    (s.owes j.thr j.seq = true → r = [] → exec (.owlqSubmit cl) s = .next s)) ∧
  (∀ (s s1 : State) (cl : Nat) (j : OwlJob) (r : List OwlJob), (s.clu cl).owl = j :: r → j.accepted = true →
    j.cur = none → (s.clu cl).pow = .on →
    let i : Instr := .owlJobServe cl
    let skips := ∃ t, exec i s = .next t ∧ (t.clu cl).owl = r ∧ (t.clu cl).owlSkip = (s.clu cl).owlSkip + 1
    (∀ c, s.owlRead cl j j.addr 32 = (.bad c, s1) → skips) ∧
    ∀ a l, s.owlRead cl j j.addr 32 = (.at_ a l, s1) →
      (j.due = none → ∃ t, exec i s = .next t ∧ (t.clu cl).owl = { j with due := some (s1.now + l) } :: r) ∧
      ∀ due, j.due = some due → due ≤ s1.now → s1.owlHeld cl due a.parts = (false, s1) → s1.poisoned a.parts = false →
        let w := leWords (s1.getParts a.parts)
        let bad := (argN w 2).toNat / 2 ^ 32 ≠ 0 ∨ (argN w 2).toNat % 2 ^ 32 = 0 ∨ (routeOf (argN w 1)).kind < 2 ∨
          badRoute s1.caps.height (argN w 1) = true ∨ modeOf (argN w 0) = 3 ∨ addrOf (argN w 0) % 8 ≠ 0
        (bad → skips) ∧
        ∀ b l' s2, s1.owlRead cl j (argN w 0) 8 = (.at_ b l', s2) → ¬ bad → ∃ t, exec i s = .next t ∧
          (t.clu cl).owl = { j with cur := some (argN w 0, argN w 1, (argN w 2).toNat % 2 ^ 32), due := some (s2.now + l'), started := s2.now } :: r) ∧
  ∀ (s s1 : State) (cl n : Nat) (j : OwlJob) (r : List OwlJob) (src route : Word) (a : Acc) (d : Nat), (s.clu cl).owl = j :: r →
    j.cur = some (src, route, n) → (s.clu cl).owlAt ≠ s.now + 1 → (s.clu cl).pow = .on → j.due.getD 0 ≤ s.now →
    s.unitAcc j.who.tile j.ctx none src 8 .read = (.at_ a d, s1) → s1.owlHeld cl s1.now a.parts = (false, s1) → s1.poisoned a.parts = false →
    (routeOf route).kind = 2 →
    ∃ t m, exec (.owlEntrySend cl) s = .next t ∧ t.msgs = s.msgs ++ [m] ∧ m.scale = true ∧ m.data = wd (leNat (s1.getParts a.parts)) ∧
      m.tile = 48 * (routeOf route).y + (routeOf route).x ∧ m.ctx = j.ctx ∧
      (n ≤ 1 → (t.clu cl).owl = r) ∧
      (1 < n → ∃ due, s.now < due ∧ (t.clu cl).owl =
        { j with cur := some (src + 8, route, n - 1), started := j.started + 1, due := some due } :: r)

/-- O44. `sysr` reads the register its number names, `sysw` writes it and `sysx` does both, each once the thread's earlier
instructions are complete; values are masked to the bits Tables 10.6 and 10.7 give, and a number that `sysx` may not write takes the
illegal-instruction trap (10 R213; 03 R51; 05 R92). -/
def Obligations.SystemRegisters : Prop :=
  ∀ (s s1 : State) (d a b : Spec) (g : Guard) (n : BitVec 12) (vs : List Word),
    let w := s.focus
    let x := s.cur
    (s.Issues (.sysr d n g) (Meta.solo g [] [d]) → s.sysWait w n.toNat = none → s.operands w [] [d] = .ok (vs, s1) →
      exec (.sysr d n g) s = .next (s.past (.sysr d n g) ((s1.logSys w n.toNat (s.sysRead w n.toNat)).writeSpec w d
        (s.sysRead w n.toNat)))) ∧
    (s.sysRead w 0x21 = x.fstat ∧ s.sysRead w 0x30 = x.lc0 ∧ s.sysRead w 0x31 = x.ls0 ∧ s.sysRead w 0x32 = x.le0 ∧
      s.sysRead w 0x33 = x.lc1 ∧ s.sysRead w 0x34 = x.ls1 ∧ s.sysRead w 0x35 = x.le1 ∧ s.sysRead w 0x20 = x.vshp ∧
      s.sysRead w 0x22 = (s.tile w.tile).mx.mshp ∧ s.sysRead w 0x23 = (s.tile w.tile).mx.afmt ∧
      s.sysRead w 0x24 = (s.tile w.tile).mx.mstat ∧ s.sysRead w 0x100 = s.cyc w.tile ∧ s.sysRead w 0x101 = x.tmr ∧
      s.sysRead w 0x102 = x.tctl ∧ s.sysRead w 0x104 = x.tvec ∧ s.sysRead w 0x105 = x.epc ∧ s.sysRead w 0x106 = x.enext ∧
      s.sysRead w 0x107 = x.ecause ∧ s.sysRead w 0x108 = x.eval ∧ s.sysRead w 0x109 = x.estat ∧
      s.sysRead w 0x25 = wd (s.tile w.tile).mx.fifo.length ∧ s.sysRead w 0x110 = wd (s.tile w.tile).spoilc ∧
      s.sysRead w 0x111 = x.noticeWord ∧ s.sysRead w 0x112 = x.ckst ∧ ∀ p < 16, s.sysRead w p = wd (vget (s.tile w.tile).rtab p 0).toNat) ∧
    (∀ r : BitVec 12, let i : Instr := .sysw (r.extractLsb' 6 6) a (r.extractLsb' 0 6) g
      let v := argN vs 0
      let al := BitVec.ofNat 64 (v.toNat / 4 * 4)
      let W := fun (f : Slot → Slot) => exec i s = .next (s.past i (s1.modSlot w f))
      s.Issues i (Meta.solo g [a] []) → s.sysWait w r.toNat = none → s.operands w [a] [] = .ok (vs, s1) →
      (r = 0x21 → W fun x => { x with fstat := wd (v.toNat % 256) }) ∧ (r = 0x30 → W fun x => { x with lc0 := v }) ∧
      (r = 0x31 → W fun x => { x with ls0 := al }) ∧ (r = 0x32 → W fun x => { x with le0 := al }) ∧
      (r = 0x33 → W fun x => { x with lc1 := v }) ∧ (r = 0x34 → W fun x => { x with ls1 := al }) ∧
      (r = 0x35 → W fun x => { x with le1 := al }) ∧ (r = 0x101 → W fun x => { x with tmr := v }) ∧
      (r = 0x102 → W fun x => { x with tctl := wd (v.toNat % 4) }) ∧ (r = 0x104 → W fun x => { x with tvec := al }) ∧
      (r = 0x105 → W fun x => { x with epc := al }) ∧ (r = 0x106 → W fun x => { x with enext := al }) ∧
      (r = 0x108 → W fun x => { x with eval := v }) ∧ (r = 0x109 → W fun x => { x with estat := wd (v.toNat % 2) }) ∧
      (r = 0x107 → W fun x => { x with ecause := v &&& 0x8000FFFF })) ∧
    (let i : Instr := .sysx d a b g
      let r := (argN vs 1).toNat
      s.Issues i (Meta.solo g [a, b] [d]) → x.settled = true → s.operands w [a, b] [d] = .ok (vs, s1) →
      (sysWritable r = false → exec i s = .next (s.raise w cIllegal (wordOf i) x.pc)) ∧
      (sysWritable r = true → s.sysWait w r = none → ∀ s2, s1.sysWrite w r (argN vs 0) (wordOf i) = .ok s2 →
        exec i s = .next (s.past i ((s2.logSys w r (s1.sysRead w r)).writeSpec w d (s1.sysRead w r)))))

/-- O45. `tlbi` waits for the thread's earlier stores, then for the extent of its invalidation, and TLBI_COMPLETE removes every
translation of the page, or of the context, from the tile's TLB or from every TLB (10 R214). `ckpt` waits until the waves of its context
on the tile stand, then while the boundary is written; CKPT_COMPLETE leaves its size and whether it fitted in `ckst` (10 R215; 14 R291). -/
def Obligations.InvalidationAndCheckpoint : Prop :=
  (∀ (s s1 : State) (a : Spec) (k : BitVec 3) (g : Guard) (vs : List Word), s.Issues (.tlbi a k g) (Meta.solo g [a] []) →
    s.cur.op = none → (s.cur.pend.any fun p => p.job.writes) = false → (s.stores.any fun e => e.party.thr == s.cur.thr) = false →
    s.operands s.focus [a] [] = .ok (vs, s1) →
    ∃ t, exec (.tlbi a k g) s = .next t ∧ (t.slot s.focus).st = .wait ∧ (t.slot s.focus).why = .tlbi ∧
      (t.slot s.focus).op = some (k.toNat, argN vs 0, [a]) ∧
      (t.slot s.focus).waitUntil = some (s.now + if k.toNat % 2 = 0 then 40 else 6000)) ∧
  (∀ (s : State) (w : Who) (k n : Nat) (v : Word) (a : Spec), let x := s.slot w
    x.st = .wait → x.why = .tlbi → x.op = some (k, v, [a]) → x.waitUntil = some n → n ≤ s.now → isQF a = false →
    x.wave = none →
    ∃ t, exec (.tlbiComplete w) s = .next t ∧ (t.slot w).st = .run ∧ (t.slot w).op = none ∧ s.SameMemory t ∧
      (∀ p ∈ (t.tile w.tile).tlb, ¬ (p.ctx = x.ctx.getD 0 ∧ (2 ≤ k ∨ pageMaps p (x.ctx.getD 0) (addrOf v) = true))) ∧
      (k % 2 = 1 → ∀ u, ∀ p ∈ (t.tile u).tlb, ¬ (p.ctx = x.ctx.getD 0 ∧ (2 ≤ k ∨ pageMaps p (x.ctx.getD 0) (addrOf v) = true)))) ∧
  (∀ (s : State) (g : Guard), s.Issues (.ckpt g) (Meta.solo g [] []) → s.cur.op = none → s.cur.settledCopies = true →
    ((s.tile s.focus.tile).wavesOf s.cur.ctx ≠ [] → ∃ t, exec (.ckpt g) s = .next t ∧ (t.slot s.focus).st = .wait ∧
      (t.slot s.focus).why = .ckpt ∧ (t.slot s.focus).op = none) ∧
    ((s.tile s.focus.tile).wavesOf s.cur.ctx = [] →
    let size := (s.tile s.focus.tile).ckptBytes fun c => some c == s.cur.ctx
    ∃ t, exec (.ckpt g) s = .next t ∧ (t.slot s.focus).st = .wait ∧ (t.slot s.focus).why = .ckpt ∧
      (t.slot s.focus).op = some (0, 0, []) ∧ (t.slot s.focus).waitUntil =
        some (s.now + if (s.tile s.focus.tile).image.used + size ≤ 262144 then (size + 31) / 32 else 1))) ∧
  ∀ (s : State) (w : Who) (n : Nat) (o : Nat × Word × List Spec), let x := s.slot w
    let size := (s.tile w.tile).ckptBytes fun c => some c == x.ctx
    x.st = .wait → x.why = .ckpt → x.op = some o → o.2.2 = [] → x.waitUntil = some n → n ≤ s.now → x.wave = none →
    ∃ t, exec (.ckptComplete w) s = .next t ∧ (t.slot w).st = .run ∧ (t.slot w).op = none ∧
      (t.slot w).ckst = wd (size * 2 ^ 32 + if (s.tile w.tile).image.used + size ≤ 262144 then 0 else 1) ∧ s.SameMemory t ∧
      ((s.tile w.tile).image.used + size ≤ 262144 → (t.tile w.tile).log = [] ∧ (t.tile w.tile).boundary = s.now ∧
        (t.tile w.tile).image.used = (s.tile w.tile).image.used + size)

/-- O46. `idle` waits until a word, a result, a notice or the timer has come; `halt` puts the thread into HALT once its earlier
instructions are complete. `trem` takes a thread of its context out of the rotation and `tins` puts one back; a slot
neither may name, and a frozen one, takes the thread trap; `tspn` starts an auxiliary in an available slot with g1 to g8 of the
issuer, and traps where the slot is not IDLE or another party takes it (10 R205, R207 to R209; 02 R38; 11 R231). -/
def Obligations.ThreadControl : Prop :=
  ∀ (s s1 : State) (a b : Spec) (g : Guard) (vs : List Word),
    let w := s.focus
    let x := s.cur
    (s.Issues (.idle g) (Meta.solo g [] []) → exec (.idle g) s = .next (if s.idleEnds w then s.past (.idle g) s
      else s.modSlot w fun x => { x with st := .wait, why := .idle })) ∧
    (s.Issues (.halt g) (Meta.solo g [] []) → x.settled = true → ∃ t, exec (.halt g) s = .next t ∧ (t.slot w).st = .halt ∧
      (t.slot w).halted = true ∧ (x.solo = false → (t.slot w).pc = (x.loopEnd x.pc).2) ∧ s.SameMemory t ∧ s.SameOthers t w) ∧
    (isQF a = false → isQF b = false → s.operands w [a] [] = .ok (vs, s1) →
      let u : Who := ⟨w.tile, (argN vs 0).toNat % 16⟩
      let y := s.slot u
      let may := y.wave = none ∧ s.isHandler u = false ∧ (y.st = .idle ∨ y.ctx = x.ctx)
      let k := wd ((argN vs 0).toNat % 16)
      (s.Issues (.trem a g) (Meta.solo g [a] []) →
        (¬ may → exec (.trem a g) s = .next (s.raise w cThread k x.pc)) ∧
        (may → u ≠ w → (y.st = .run ∨ y.st = .wait) → y.trapq = [] → ∃ t, exec (.trem a g) s = .next t ∧ (t.slot u).st = .out ∧
          (t.slot u).pc = y.pc ∧ (∀ c, (t.slot u).reg c = y.reg c)) ∧
        (may → u = w → ∃ t, exec (.trem a g) s = .next t ∧ (t.slot w).st = .out)) ∧
      (s.Issues (.tins a g) (Meta.solo g [a] []) →
        (¬ may ∨ y.frozen = true → exec (.tins a g) s = .next (s.raise w cThread k x.pc)) ∧
        (may → y.frozen = false → (y.st = .out ∨ (y.st = .halt ∧ y.halted = true)) → u ≠ w → ∃ t, exec (.tins a g) s = .next t ∧ (t.slot u).st = .run ∧ (t.slot u).pc = y.pc)) ∧
      (∀ vs2, s.Issues (.tspn a b g) (Meta.solo g [a, b] []) → s.operands w [a, b] [] = .ok (vs2, s) → argN vs2 0 = argN vs 0 →
        x.red = none →
        (¬ may → exec (.tspn a b g) s = .next (s.raise w cThread k x.pc)) ∧
        (may → s.spareSlot u = false → exec (.tspn a b g) s = .next (s.raise w cThread k x.pc)) ∧
        (may → s.spareSlot u = true → (argN vs2 1).toNat % 4 ≠ 0 →
          exec (.tspn a b g) s = .next (s.raise w cFetchAlign (argN vs2 1) x.pc)) ∧
        (may → s.spareSlot u = true → u ≠ w → (argN vs2 1).toNat % 4 = 0 → ∃ t, exec (.tspn a b g) s = .next t ∧
          let z := t.slot u
          z.st = .run ∧ z.pc = argN vs2 1 ∧ z.gen = y.gen + 1 ∧ z.task = x.task ∧ z.aux = true ∧ z.pers = x.pers ∧ z.ctx = some (x.ctx.getD 0) ∧
          ∀ n, vget z.g n 0 = if 1 ≤ n ∧ n ≤ 8 then vget x.g n 0 else 0)))

/-- O47. `rot` refuses an image whose table R206 does not admit, naming the first position; else the table waits, and
ROT_TAKE_EFFECT puts it in force at the first position 0 that is 8 cycles later or more, the thread going on (10 R206; 02 R23, R24). -/
def Obligations.RotationTables : Prop :=
  (∀ (s s1 : State) (a : Spec) (g : Guard) (vs : List Word) (off : Nat), s.Issues (.rot a g) (Meta.solo g [a] []) →
    s.cur.op = none → ((s.tile s.focus.tile).slots.any fun e => e.2.st == .wait && e.2.why == .rot && e.2.op.isSome) = false →
    s.operands s.focus [a] [] = .ok (vs, s1) → s.ownPad s.focus (argN vs 0) 64 64 = .ok off → s.cur.padStore s.focus.tile = false → isQF a = false →
    (∀ q ∈ s.stores, q.party.thr ≠ s.cur.thr) →
    let new := tableOf (memRead (s.tile s.focus.tile).spad off 64)
    (∀ p, ((List.range 16).find? fun p => (s.tile s.focus.tile).refusesAt s.cur.ctx new p) = some p →
      exec (.rot a g) s = .next (s.raise s.focus cRotTable (wd p) s.cur.pc)) ∧
    (((List.range 16).find? fun p => (s.tile s.focus.tile).refusesAt s.cur.ctx new p) = none →
      ∃ t, exec (.rot a g) s = .next t ∧ (t.slot s.focus).st = .wait ∧ (t.slot s.focus).why = .rot ∧
        (t.tile s.focus.tile).rotNext = some (s.now + 8 + (16 - (s.posOf s.focus.tile + 8) % 16) % 16, new) ∧ (t.tile s.focus.tile).rtab = (s.tile s.focus.tile).rtab)) ∧
  (∀ (s : State) (tl from_ : Nat) (new : Vector (BitVec 32) 16) (k : Nat) (x : Slot), let t := s.tile tl
    t.rotNext = some (from_, new) → from_ ≤ s.now → (t.slots.find? fun e => (e.2.opDue .rot s.now).isSome) = some (k, x) →
    t.slot k = x → x.wave = none → k < 16 →
    ∃ t', exec (.rotTakeEffect tl) s = .next t' ∧ (t'.tile tl).rtab = new ∧ (t'.tile tl).rotNext = none ∧
      (t'.slot ⟨tl, k⟩).st = .run) ∧
  ∀ (s : State) (tl from_ : Nat) (new : Vector (BitVec 32) 16), (s.tile tl).rotNext = some (from_, new) → s.now < from_ →
    exec (.rotTakeEffect tl) s = .next s

/-- HOST_LAUNCH answers with the first status that applies: REFUSED in recovery mode, BADREQ for the header, NOCTX, REFUSED for a
frozen queue, BADREC for the record, QFULL; otherwise the launch stands at the end of its context's queue and the reply is OK (13 R256; 15 R299,
R300). -/
def Clause.HostLaunches : Prop :=
  ∀ (s : State) (h : HostHdr) (r : List Word), s.ready = true →
    let c := s.ctxOf (hdrCtx h)
    let answers (st : Nat) : Prop := exec (.hostLaunch h r) s = .next (s.reply h st [])
    let bad : Prop := hdrBad h 1 = true ∨ h.w1 ≠ 0 ∨ hdrLen h ≠ 192 ∨ r.length ≠ 24
    (s.recovery = true → answers rREFUSED) ∧ (s.recovery = false → bad → answers rBADREQ) ∧
    (¬ bad → s.recovery = false →
      (s.ctxLive (hdrCtx h) = false → answers rNOCTX) ∧
      (s.ctxLive (hdrCtx h) = true → c.queueFrozen = true → answers rREFUSED) ∧
      (s.ctxLive (hdrCtx h) = true → c.queueFrozen = false →
        (s.badLaunch (hdrCtx h) r = true → answers rBADREC) ∧
        (s.badLaunch (hdrCtx h) r = false →
          (256 ≤ c.queue.length → answers rQFULL) ∧
          (c.queue.length < 256 → ∃ t, exec (.hostLaunch h r) s = .next t ∧
            (t.ctxOf (hdrCtx h)).queue = c.queue ++ [⟨r, List.replicate (lNdep r) false, 0⟩] ∧
            t.replies = s.replies ++ [.host (replyHdr h rOK 0) []] ∧ (∀ w, t.slot w = s.slot w) ∧ s.SameMemory t))))

/-- HOST_WRITE and HOST_READ, their header well formed and of 8-byte multiples, act on the range their context's page tables map:
the write stores its payload there and nowhere else, the read replies with the bytes there and changes none. A range that
is not mapped or not permitted, or that another module refuses, freezes the context's host queue, is answered FAULT, and leaves a record;
places of another module are asked for by requests (15 R300, R303; 21 R342; 23 R376; 07 R126). -/
def Clause.HostAccesses : Prop :=
  ∀ (s : State) (h : HostHdr) (data : List Byte), let c := hdrCtx h
    s.ready = true → s.recovery = false → s.ctxLive c = true → (s.ctxOf c).queueFrozen = false →
    hdrLen h ≠ 0 → hdrLen h % 8 = 0 → h.w1.toNat % 8 = 0 →
    let range := pieces (hdrLen h) h.w1.toNat (hdrLen h)
    let frozen (t : State) (cause : Nat) : Prop := (t.ctxOf c).queueFrozen = true ∧
      t.replies = s.replies ++ [.host (replyHdr h rFAULT 0) []] ∧
      (∃ f ∈ t.flog, f.cls = 2 ∧ f.outcome = 2 ∧ f.mkind = 5 ∧ f.ctx = c ∧ f.cause = cause ∧ f.addr = h.w1)
    (hdrBad h 2 = false → data.length = hdrLen h →
      (∀ ps, s.tableParts c .write range = .ok ps → s.poisoned ps = false → ps.any s.podClosed = false → s.hostPods h = [] →
        (hasPod ps = false → s.writeHeld ps = false → ∃ t, exec (.hostWrite h data) s = .next t ∧
          s.Wrote t ps data ∧ t.replies = s.replies ++ [.host (replyHdr h rOK 0) []] ∧ ∀ w, t.slot w = s.slot w) ∧
        (hasPod ps = true → s.writeHeld ps = false → exec (.hostWrite h data) s = .next
          (s.addPodBy .module 0 (hdrType h * 2 ^ 32 + hdrTag h) c 0 2 0 h.w1 ps))) ∧
      ∀ e, s.tableParts c .write range = .error e → ∃ t, exec (.hostWrite h data) s = .next t ∧ frozen t e) ∧
    (hdrBad h 3 = false →
      (∀ ps, s.tableParts c .read range = .ok ps → s.poisoned ps = false →
        (ps.any s.podClosed = false → s.hostPods h = [] →
          (hasPod ps = false → exec (.hostRead h) s = .next (s.reply h rOK (s.getParts ps))) ∧
          (hasPod ps = true → exec (.hostRead h) s = .next
            (s.addPodBy .module 0 (hdrType h * 2 ^ 32 + hdrTag h) c 0 1 0 h.w1 ps))) ∧
        ∀ q, s.hostPods h = [q] → q.code = podRefused → ∃ t, exec (.hostRead h) s = .next t ∧ frozen t cProtection) ∧
      ∀ e, s.tableParts c .read range = .error e → ∃ t, exec (.hostRead h) s = .next t ∧ frozen t e)

/-- Management requests are accepted only from the job the configuration names, and in recovery mode only an image update is;
the schema of the requests is the model's (log 17). A request to end a task ends a frozen thread as `wwork` does; a quote
replies with the log and a signature over log and nonce; an image that verifies is stored and the module starts (15 R300,
R312, R313; 21 R342). -/
def Clause.Management : Prop :=
  ∀ (s : State) (h : HostHdr) (q : MgmtReq) (nonce : List Byte) (w : Who) (img : List Byte) (inp : StartIn), s.ready = true →
    hdrBad h 4 = false →
    (∀ i, i = .hostMgmt h false q ∨ (i = .mgmtQuote h false nonce ∧ nonce.length = 32) ∨ i = .mgmtEndTask h false w →
      exec i s = .next (s.reply h rREFUSED [])) ∧
    (s.recovery = false →
      exec (.hostMgmt h true q) s = .next ((s.manage q).1.mgmtReply h (s.manage q).2.1 (s.manage q).2.2) ∧
      (∀ (cl cap rsv fill : Nat), (((s.manage (.bucket cl cap rsv fill)).1).clu cl).cap = max 64 (cap % 65536) ∧
        ((s.manage (.bucket cl cap rsv fill)).1.clu cl).fill = fill % 256 ∧
        ((s.manage (.bucket cl cap rsv fill)).1.clu cl).rsv = min (max 64 (cap % 65536)) (rsv % 65536)) ∧
      (∀ c, s.ctxLive c = true → (((s.manage (.teardownCtx c)).1).ctxOf c).dying = true ∧
        (((s.manage (.teardownCtx c)).1).ctxOf c).queue = []) ∧
      (∀ c, ((s.manage (.releaseQueue c)).1.ctxOf c).queueFrozen = false) ∧
      ((slhSign nonce).length = 29792) ∧ (nonce.length = 32 → let log := s.alog.flatMap fun d => leBytes 64 d.toNat
        exec (.mgmtQuote h true nonce) s = .next (s.mgmtReply h rOK (log ++ slhSign (log ++ nonce)))) ∧
      ((s.slot w).frozen = true → (s.slot w).wave = none → ∃ t, exec (.mgmtEndTask h true w) s = .next t ∧
        (t.slot w).st = .idle ∧ (t.slot w).frozen = false ∧ (t.slot w).ctx = none ∧ (t.slot w).task = none ∧
        (∀ k < 4, ((t.slot w).bind k).st = .unbound) ∧ (∀ r, (t.slot w).reg r = (s.slot w).reg r)) ∧
      ((s.slot w).frozen = false → exec (.mgmtEndTask h true w) s = .next (s.mgmtReply h rBADREQ []))) ∧
    (s.recovery = true → exec (.mgmtImageUpdate h true false img inp) s = .next (s.mgmtReply h rREFUSED []) ∧
      (inp.ctrlOk = true → ∃ t, exec (.mgmtImageUpdate h true true img inp) s = .next t ∧ t.recovery = false ∧ t.image = img ∧
        t.ready = true))

/-- The header of a reply carries TYPE + 0x80, its status, CTX and TAG of the request and, as LEN, the bytes that follow; every other bit
of words 0, 2 and 3 is 0. In word 1 the model repeats the ADDR of a WRITE or READ (15 R299, Table 15.1; log 81). -/
def Clause.RepliesEcho : Prop :=
  ∀ (s : State) (h : HostHdr) (st : Nat) (data : List Byte), hdrType h < 128 → st < 256 → data.length < 2 ^ 17 →
    let r := replyHdr h st data.length
    (s.reply h st data).replies = s.replies ++ [.host r data] ∧ hdrType r = hdrType h + 0x80 ∧ bits r.w0.toNat 55 48 = st ∧
      hdrCtx r = hdrCtx h ∧ bits r.w0.toNat 35 32 = 0 ∧ hdrTag r = hdrTag h ∧ r.w2 = wd data.length ∧ r.w3 = 0 ∧
      r.w1 = if hdrType h = 2 ∨ hdrType h = 3 then h.w1 else 0

/-- In recovery mode every request is refused, whatever its header, type and range (15 R312). -/
def Clause.RecoveryRefuses : Prop :=
  ∀ (s : State) (h : HostHdr) (r : List Word) (data : List Byte) (q : MgmtReq) (w : Who), s.ready = true → s.recovery = true →
    (exec (.hostLaunch h r) s = .next (s.reply h rREFUSED []) ∧ exec (.hostWrite h data) s = .next (s.reply h rREFUSED []) ∧
      exec (.hostRead h) s = .next (s.reply h rREFUSED [])) ∧
    (∀ i, i = .hostMgmt h true q ∨ i = .mgmtQuote h true data ∨ i = .mgmtEndTask h true w →
      exec i s = .next (s.mgmtReply h rREFUSED []))

/-- O48. Host messages: launches, writes, reads and management requests, their checks and replies: the clauses above together. -/
def Obligations.HostRequests : Prop :=
  Clause.HostLaunches ∧ Clause.HostAccesses ∧ Clause.Management ∧ Clause.RepliesEcho ∧ Clause.RecoveryRefuses

/-- LAUNCH_DEPENDENCE_READ reads the dependence pairs of a launch that is not eligible and notes which words have reached their
values, once the last-level TLB of slab 0 has their pages; an address that cannot be read takes the launch out of its queue with a DISPATCH record of CAUSE 4 (13 R258; 23
R368). -/
def Clause.DependencesAreRead : Prop :=
  ∀ (s : State) (c k : Nat) (l : Launch), (s.ctxOf c).queue[k]? = some l → l.eligible = false →
    let addr (i : Nat) := (l.words.getD (14 + 2 * i) 0).toNat
    (∀ (ps : Nat → List Part) (d : Nat → Nat), (∀ i < lNdep l.words, s.slabParts 0 c .read (pieces 8 (addr i) 8) = (.ok (ps i) (d i), s) ∧
        (ps i).any s.podClosed = false ∧ s.poisoned (ps i) = false) →
      ∃ t, exec (.launchDependenceRead c k) s = .next t ∧ (t.ctxOf c).queue[k]? = some { l with
          met := (List.range (lNdep l.words)).map fun i => decide (l.words.getD (15 + 2 * i) 0 ≤ wd (leNat (s.getParts (ps i))))
          readAt := s.now } ∧ s.SameMemory t ∧ ∀ w, t.slot w = s.slot w) ∧
    (∀ a s1, 0 < lNdep l.words → s.slabParts 0 c .read (pieces 8 (addr 0) 8) = (.miss a, s1) →
      exec (.launchDependenceRead c k) s = .next s1) ∧
    ∀ e s1, 0 < lNdep l.words → s.slabParts 0 c .read (pieces 8 (addr 0) 8) = (.bad e, s1) →
      ∃ t, exec (.launchDependenceRead c k) s = .next t ∧ (t.ctxOf c).queue = listDrop1 (s.ctxOf c).queue k ∧
        ∃ f ∈ t.flog, f.cls = 5 ∧ f.outcome = 6 ∧ f.ctx = c ∧ f.cause = 4 ∧ f.addr = l.words.getD 14 0

/-- FAN_OUT takes the eligible launch of highest priority and reads its descriptor, one that R257 refuses ending it with a DISPATCH
record of CAUSE 1; then it hands over one task record at a time to the Hoist of the launch's extent with the most room, each
with its arguments, the task index in g8 where IDX asks for it, and a footprint biased by FPB and FPS (13 R257 to R259; 23
R368). -/
def Clause.LaunchesFanOut : Prop :=
  (∀ (s : State) (c k : Nat) (l : Launch), s.nextLaunch = some (c, k, l) → l.eligible = true ∧
    ∀ c' l', s.ctxLive c' = true → l' ∈ (s.ctxOf c').queue → l'.eligible = true → lPrio l'.words ≤ lPrio l.words) ∧
  (∀ (s : State) (c k : Nat) (l : Launch) (ps : List Part) (d0 : Nat) (s1 : State), s.fan = none → s.nextLaunch = some (c, k, l) →
    s.slabParts 0 c .read (pieces 256 (lKdesc l.words).toNat 256) = (.ok ps d0, s1) → ps.any s1.podClosed = false → s1.poisoned ps = false →
    let d := leWords (s.getParts ps)
    (badDesc d = true → ∃ t, exec .fanOut s = .next t ∧ t.fan = none ∧ (t.ctxOf c).queue = listDrop1 (s.ctxOf c).queue k ∧
      ∃ f ∈ t.flog, f.cls = 5 ∧ f.outcome = 6 ∧ f.ctx = c ∧ f.cause = 1 ∧ f.addr = lKdesc l.words) ∧
    (badDesc d = false → isRed d = false → ∃ t, exec .fanOut s = .next t ∧ t.fan = some ⟨l.words, d, 0, none⟩ ∧
      (t.ctxOf c).queue = listDrop1 (s.ctxOf c).queue k ∧ s.SameMemory t)) ∧
  ∀ (s : State) (f : Fan) (cl : Nat), s.fan = some f → f.red = none → s.roomiest (s.extent f.words) = some cl →
    let r := taskRec f.words f.desc f.next (if lPlc f.words = 0 then some (targetTile f.words) else none) s.now none
    (∃ t, exec .fanOut s = .next t ∧ (t.clu cl).hoist = (s.clu cl).hoist ++ [r] ∧
      t.fan = (if f.next + 1 = lCount f.words then none else some { f with next := f.next + 1 }) ∧ s.SameMemory t) ∧
    cl ∈ s.extent f.words ∧ (s.clu cl).hoist.length < 64 ∧
    (∀ j ∈ s.extent f.words, (s.clu cl).hoist.length ≤ (s.clu j).hoist.length) ∧
    r.entry = f.desc.getD 0 0 &&& 0xFFFFFFFFFFFFFFFC ∧ r.retw = f.words.getD 3 0 ∧
    (∀ n < 7, r.args.getD n 0 = f.words.getD (6 + n) 0) ∧
    r.args.getD 7 0 = if lIdx f.words = true then wd f.next else f.words.getD 13 0

/-- HOIST_PLACE reserves a record's footprint on the tile it chooses, zeroes the lines another context has held, and claims the
slot (11 R222; 13 R261). TASK_DISPATCH then starts the thread: the footprint's bytes stand in the scratchpad, pc at the
entry, g1 to g8 the arguments, every other register zero, the generation tag one higher; a footprint that cannot be read
fails the task alone with a DISPATCH record of CAUSE 2 (02 R37; 23 R368). -/
def Clause.TasksArePlaced : Prop :=
  (∀ (s : State) (cl : Nat) (r : TaskRec) (w : Who), let c := s.clu cl
    c.hoist = [r] → r.prio < 4 → c.placedAt ≠ s.now + 1 → c.pow = .on → s.choose cl r = some w →
    (∀ u, r.target = some u → (s.tile u).vacant = false) → s.mxOfRemoved w.tile r.ctx = false →
    ∃ t, exec (.hoistPlace cl) s = .next t ∧ (t.clu cl).hoist = [] ∧ (t.slot w).claimed = some w ∧
      (t.tile w.tile).resv = (s.tile w.tile).resv ++ r.ranges.map (fun g => ⟨g.2.2, g.2.1, r.ctx, s.nextTask⟩) ∧
      (∃ q, t.task? s.nextTask = some q ∧ q.r = r ∧ q.tile = w.tile ∧ q.slot = w.slot ∧ q.due.isSome = true) ∧
      (∀ n ∈ (s.tile w.tile).zeroLines r, ∀ k < 64, t.getByte (.spad w.tile (64 * n)) k = 0) ∧
      (∀ o, o / 64 ∉ (s.tile w.tile).zeroLines r → t.getByte (.spad w.tile o) 0 = s.getByte (.spad w.tile o) 0)) ∧
  ∀ (s : State) (w : Who) (k n : Nat) (q : Task), s.placedIn w = some (k, q) → s.task? k = some q → q.due = some n → n ≤ s.now →
    (s.tile w.tile).running = true →
    (q.foot = some [] → ∃ t, exec (.taskDispatch w) s = .next t ∧
      let x := s.slot w
      let y := t.slot w
      y.st = .run ∧ y.pc = q.r.entry ∧ y.gen = x.gen + 1 ∧ y.task = some k ∧ y.ctx = some q.r.ctx ∧ y.pers = q.r.pers ∧
      (∀ i, vget y.g i 0 = if 1 ≤ i ∧ i ≤ 8 then q.r.args.getD (i - 1) 0 else 0) ∧ (∀ i, y.reg (.o i) = 0) ∧
      y.p = 1 ∧ y.estat = 0 ∧ y.tvec = 0 ∧ y.fstat = 0 ∧ (∀ i < 4, (y.bind i).st = .unbound) ∧ s.SameMemory t) ∧
    (∀ e s1, q.foot = none → s.slabParts (s.slabOf q.tile) q.r.ctx .read (q.r.footPieces.map fun p => (p.1, p.2.1)) = (.bad e, s1) →
      ∃ t, exec (.taskDispatch w) s = .next t ∧ (t.slot w).claimed = none ∧ (t.slot w).st = (s.slot w).st ∧
      ∃ f ∈ t.flog, f.cls = 5 ∧ f.outcome = 6 ∧ f.ctx = q.r.ctx ∧ f.cause = 2 ∧ f.aux = wd q.r.index)

/-- A footprint is fetched once the last-level TLB of the Hoist's slab has its pages: each 8-byte piece has its place and the cycle in which it
is read, half its path's latency after the translation; it is read there, not before what a release must make visible to the task, and
then written into the scratchpad (11 R217, R222, R223, R233; 12 R237, R251). -/
def Clause.FootprintsAreFetched : Prop :=
  (∀ (s s1 : State) (w : Who) (k d : Nat) (q : Task) (ps : List Part), s.placedIn w = some (k, q) → s.task? k = some q → q.foot = none → q.r.red = none →
    s.slabParts (s.slabOf q.tile) q.r.ctx .read (q.r.footPieces.map fun p => (p.1, p.2.1)) = (.ok ps d, s1) →
    ∃ t, exec (.taskDispatch w) s = .next t ∧ s.SameMemory t ∧ ((t.task? k).bind fun q => q.foot) = some ((ps.zip q.r.footPieces).map fun e =>
      ⟨e.2.2.2, e.1, s1.now + d + s1.latency q.tile false e.1 / 2, none⟩)) ∧
  ∀ (s : State) (w : Who) (k off mid : Nat) (q : Task) (p : Part), s.placedIn w = some (k, q) → s.task? k = some q → q.foot = some [⟨off, p, mid, none⟩] →
    q.tile = w.tile → s.now < q.due.getD 0 →
    let at_ := exec (.taskDispatch w) s
    (s.now < mid → at_ = .next s) ∧
    (s.hidden ⟨0, none, s.phys w.tile⟩ [p] = true → at_ = .next s) ∧
    (mid ≤ s.now → s.podClosed p = false → s.seamHeld w.tile p = false → s.hidden ⟨0, none, s.phys w.tile⟩ [p] = false →
      (hbmLines [p]).any (fun l => s.sharerHeld w.tile l.1 (64 * l.2) 0) = false → s.poisoned [p] = false → s.tileHeld w.tile = false →
      ∃ t, at_ = .next t ∧ ((t.task? k).bind fun q => q.foot) = some [] ∧
        t.getParts [⟨.spad w.tile off, p.len, .home⟩] = s.getParts [p] ∧
        ∀ l n, (∀ o, l = .spad w.tile o → o + n < off ∨ off + p.len ≤ o + n) → t.getByte l n = s.getByte l n)

/-- O49. From a launch to a running thread: dependences, fan-out, placement and dispatch: the clauses above together. -/
def Obligations.LaunchesAndTasks : Prop :=
  Clause.DependencesAreRead ∧ Clause.LaunchesFanOut ∧ Clause.TasksArePlaced ∧ Clause.FootprintsAreFetched

/-- RETIREMENT_WORD_ADD, once every copy of the task has ended and every event of its threads is performed, adds to the launch's retirement word; a word of another module is asked for by a request; one that cannot be written
leaves a DISPATCH record of CAUSE 5 (13 R260; 23 R368; 15 R303). -/
def Clause.RetirementWords : Prop :=
  ∀ (s : State) (k : Nat) (r : RetAdd), s.retAdds[k]? = some r → s.copiesOf r.task = false → s.taskOwes r.task = false →
    (∀ p, s.tableParts r.ctx .write (pieces 8 r.retw.toNat 8) = .ok [p] → s.poisoned [p] = false → s.podClosed p = false →
      s.writeHeld [p] = false → s.askedPods (2 ^ 48 + r.task) r.ctx = [] →
      (hasPod [p] = false → ∃ t, exec (.retirementWordAdd k) s = .next t ∧ t.retAdds = listDrop1 s.retAdds k ∧
        s.Wrote t [p] (leBytes 8 (leNat (s.getParts [p]) + r.amount)) ∧ ∀ w c, (t.slot w).reg c = (s.slot w).reg c) ∧
      (hasPod [p] = true → exec (.retirementWordAdd k) s = .next (s.addPodBy .module 0 (2 ^ 48 + r.task) r.ctx 0 3 0 r.retw [p]))) ∧
    ∀ e, s.tableParts r.ctx .write (pieces 8 r.retw.toNat 8) = .error e →
      ∃ t, exec (.retirementWordAdd k) s = .next t ∧ t.retAdds = listDrop1 s.retAdds k ∧
        ∃ f ∈ t.flog, f.cls = 5 ∧ f.outcome = 6 ∧ f.ctx = r.ctx ∧ f.cause = 5 ∧ f.addr = r.retw

/-- HOIST_PREEMPT takes the threads of the task it chooses out of the rotation on the tile a record needs, with their registers as
they are, for a record that has waited 100 µs, and lets the threads it removed go on once no record of higher priority waits;
BADGER_SPILL_DONE moves a thread that is OUT into SPILL and leaves its slot IDLE, and BADGER_RESTORE_DONE puts the thread spilled
last back as it was (13 R271, R272). -/
def Clause.TasksArePreempted : Prop :=
  (∀ (s : State) (cl k : Nat), let c := s.clu cl
    let back := s.tasks.find? fun e =>
      e.2.removed == some cl && !e.2.retired && !(c.hoist.any fun r => decide (e.2.r.prio < r.prio)) && s.mayResume e.1 e.2
    (∀ tl, back = none → (hoistOrder c.hoist).findSome? (fun e => s.preemptFor cl e.2) = some (k, tl) →
      (∀ w ∈ s.threadsOf k, (s.slot w).wave = none) →
      ∃ t q, exec (.hoistPreempt cl) s = .next t ∧ t.task? k = some q ∧ q.removed = some cl ∧
        ∀ w ∈ s.threadsOf k, w.tile = tl → (s.slot w).st = .run → (s.slot w).trapq = [] →
          (t.slot w).st = .out ∧ (t.slot w).pc = (s.slot w).pc ∧ ∀ r, (t.slot w).reg r = (s.slot w).reg r) ∧
    (∀ q, back = some (k, q) → s.spilledOf k = [] →
      (∀ w ∈ s.threadsOf k, (s.tile w.tile).savedFor q.r.ctx = none ∧ (s.slot w).claimed = none ∧ (s.slot w).outReq = false ∧
        (s.slot w).wave = none) →
      ∃ t, exec (.hoistPreempt cl) s = .next t ∧
        ∀ w ∈ s.threadsOf k, (s.slot w).st = .out → (t.slot w).st = (if (s.slot w).preempted then .run else .out) ∧
          (t.slot w).pc = (s.slot w).pc ∧ ∀ r, (t.slot w).reg r = (s.slot w).reg r)) ∧
  (∀ (s : State) (r : TaskRec) (cl k tl : Nat), s.preemptFor cl r = some (k, tl) → r.arrived + 225000 ≤ s.now ∧ s.choose cl r = none ∧
    tl ∈ s.tilesFor cl r ∧ ∃ q, (k, q) ∈ s.tasks ∧ q.r.prio < r.prio ∧ q.removed = none ∧ q.retired = false ∧
      (∀ w ∈ s.threadsOf k, (s.slot w).leases = 0) ∧ ∃ w ∈ s.threadsOf k, w.tile = tl) ∧
  (∀ (s : State) (w : Who) (n : Nat), let x := s.slot w
    x.st = .out → x.claimed = some w → x.waitUntil = some n → n ≤ s.now →
    ∃ t, exec (.badgerSpillDone w) s = .next t ∧ (t.slot w).st = .idle ∧ (t.slot w).gen = x.gen ∧ (t.slot w).ctx = none ∧
      (t.tile w.tile).spilled = (s.tile w.tile).spilled ++ [(w.slot, { x with claimed := none, waitUntil := none })] ∧
      s.SameMemory t ∧ s.SameOthers t w) ∧
  ∀ (s : State) (w : Who) (n : Nat) (y : Slot), let x := s.slot w
    ((s.tile w.tile).spilled.filter fun e => e.1 == w.slot).getLast? = some (w.slot, y) → x.st = .idle → x.claimed = some w →
    x.waitUntil = some n → n ≤ s.now → (s.tile w.tile).ring = [] →
    ∃ t, exec (.badgerRestoreDone w) s = .next t ∧ t.slot w = { y with st := .out, lastIssue := x.lastIssue } ∧
      (t.tile w.tile).spilled = (s.tile w.tile).spilled.erase (w.slot, y) ∧ s.SameMemory t ∧ s.SameOthers t w

/-- O50. Retirement words, pre-emption, and threads spilled and restored: the clauses above together. -/
def Obligations.RetirementAndPreemption : Prop :=
  Clause.RetirementWords ∧ Clause.TasksArePreempted

/-- TOKEN_REFILL brings a cluster's bucket up to date: FILL a cycle, half of it while throttled, up to CAP (13 R264, R265).
INRUSH_GRANT gives a free token of the slab to the waiting request of highest effective priority, the earliest on a tie, and the
wake begins in that cycle; with no token free it waits (13 R267). -/
def Clause.TokensAreGranted : Prop :=
  (∀ (s : State) (cl : Nat), let c := s.clu cl
    ∃ t, exec (.tokenRefill cl) s = .next t ∧ (t.clu cl).filled = max c.filled (s.now + 1) ∧
      (t.clu cl).bal = min c.cap (c.bal + (if s.throttled cl = true then c.fill / 2 else c.fill) * (s.now + 1 - c.filled)) ∧
      (t.clu cl).cap = c.cap ∧ s.SameMemory t ∧ ∀ w, t.slot w = s.slot w) ∧
  ∀ (s : State) (b : Nat), let l := s.slab b
    let waiting := l.wakes.filter fun r => r.granted.isNone
    let eff (r : WakeReq) := min 3 (r.base + (s.now - r.at_) / 112500)
    (l.tokens = 0 → exec (.inrushGrant b) s = .next s) ∧
    (waiting = [] → exec (.inrushGrant b) s = .next s) ∧
    (l.tokens ≠ 0 → waiting ≠ [] → ∃ t r, exec (.inrushGrant b) s = .next t ∧ r ∈ waiting ∧
      (t.slab b).tokens = l.tokens - 1 ∧
      (t.slab b).wakes = l.wakes.map (fun q => if q = r then { q with granted := some s.now } else q) ∧
      (∀ cl, r.what = .cluster cl → (t.clu cl).pow = .waking) ∧
      (∀ cl e, r.what = .engine cl e → e < 16 → (t.eng cl e).pow = .waking) ∧
      ((∀ q ∈ waiting, q.at_ < 2 ^ 64 ∧ ((∃ cl < 192, q.what = .cluster cl) ∨ ∃ cl < 192, ∃ e < 16, q.what = .engine cl e)) →
        ∀ q ∈ waiting, eff q ≤ eff r ∧ (eff q = eff r → r.at_ ≤ q.at_)))

/-- A cluster that is idle for 225,000 cycles, with nothing issued since, begins to gate; after its spill it is GATED with a full
bucket, and a wake event met in the meantime asks for its wake; a granted wake gives its token back after 2,250 cycles and the
cluster is ON 600 cycles after that (13 R275, R276; Tables 13.4, 13.5). -/
def Clause.ClustersGate : Prop :=
  ∀ (s : State) (cl : Nat), let c := s.clu cl
    (c.pow = .on → s.clusterIdle cl = false → ∃ t, exec (.clusterGate cl) s = .next t ∧ (t.clu cl).pow = .on ∧
      (t.clu cl).idleAt = none) ∧
    (c.pow = .on → s.clusterIdle cl = true → c.idleAt = none → ∃ t, exec (.clusterGate cl) s = .next t ∧ (t.clu cl).pow = .on ∧
      (t.clu cl).idleAt = some s.now) ∧
    (∀ a, c.pow = .on → s.clusterIdle cl = true → c.idleAt = some a →
      (∀ u ∈ s.served cl, ∀ e ∈ (s.tile u).slots, e.2.lastIssue ≤ a) →
      (s.now < a + 225000 → exec (.clusterGate cl) s = .next s) ∧
      (a + 225000 ≤ s.now → ∃ t, exec (.clusterGate cl) s = .next t ∧ (t.clu cl).pow = .gating ∧ s.SameMemory t ∧
        ∀ w, t.slot w = s.slot w)) ∧
    (c.pow = .gating → ∃ t, exec (.gatingSpillDone cl) s = .next t ∧ (t.clu cl).pow = .gated ∧ (t.clu cl).bal = c.cap ∧
      (c.wakeWanted = true → ∃ r ∈ (t.slab (cl / 4)).wakes, r.what = .cluster cl) ∧ s.SameMemory t ∧ ∀ w, t.slot w = s.slot w) ∧
    (∀ b a g, (s.slab (cl / 4)).wakes.find? (fun r => r.what == WakeOf.cluster cl) = some ⟨.cluster cl, b, a, some g⟩ →
      (s.now < g + 2250 → exec (.clusterWakeHoldEnd cl) s = .next s) ∧
      (g + 2250 ≤ s.now → ∃ t, exec (.clusterWakeHoldEnd cl) s = .next t ∧ (t.clu cl).pow = .restoring ∧
        (t.clu cl).idleAt = some s.now ∧ (t.slab (cl / 4)).tokens = (s.slab (cl / 4)).tokens + 1 ∧
        ∀ r ∈ (t.slab (cl / 4)).wakes, r.what ≠ .cluster cl)) ∧
    ∀ a, c.pow = .restoring → c.idleAt = some a → (s.now < a + 600 → exec (.clusterRestoreDone cl) s = .next s) ∧
      (a + 600 ≤ s.now → ∃ t, exec (.clusterRestoreDone cl) s = .next t ∧ (t.clu cl).pow = .on ∧ s.SameMemory t ∧
        ∀ w, t.slot w = s.slot w)

/-- O51. Power tokens, inrush tokens, and clusters that gate and wake: the clauses above together. -/
def Obligations.TokensAndGating : Prop :=
  Clause.TokensAreGranted ∧ Clause.ClustersGate

/-- THERMAL_SAMPLE, at most one in 2,250 cycles, records the reading and the band after it: at the first sample the band called for; later a rise, or a fall
once the reading is 3 degrees under the band's threshold, only 225,000 cycles after the last change, but TRIP at once. A change
to NOTICE or THROTTLE gives every persistent thread of the tile its notice, and entry to TRIP gates the physical tile (15 R315;
24 R393). -/
def Clause.BandsAreSampled : Prop :=
  ∀ (s : State) (pt q : Nat), let p := s.ptile pt
    let b := p.nextBand s.now q
    (∀ a, p.sampledAt = some a → s.now < a + 2250 → exec (.thermalSample pt q) s = .next s) ∧
    ((∀ a, p.sampledAt = some a → a + 2250 ≤ s.now) →
    ∃ t, exec (.thermalSample pt q) s = .next t ∧ (t.ptile pt).reading = q ∧ (t.ptile pt).sampledAt = some s.now ∧ (t.ptile pt).band = b ∧
      (p.bandAt = none → b = if 460 ≤ q then 3 else if 420 ≤ q then 2 else if 380 ≤ q then 1 else 0) ∧
      (460 ≤ q → p.band < 4 → b = 3) ∧
      (∀ a, p.bandAt = some a → p.band < 4 →
        (s.now < a + 225000 → q < 460 → b = p.band) ∧
        (a + 225000 ≤ s.now → p.band < bandFor q → b = bandFor q) ∧
        (a + 225000 ≤ s.now → bandFor q < p.band → b = if q + 12 ≤ bandAbove p.band then bandFor q else p.band)) ∧
      ((b ≠ p.band ∨ p.bandAt = none) → b = 3 → (t.ptile pt).gated = true) ∧
      (∀ v k, (b ≠ p.band ∨ p.bandAt = none) → 1 ≤ b → b < 3 → p.gated = false → p.role = .serving → s.virtOf pt = some v →
        ((s.tile v).slot k).pers = true → ((t.tile v).slot k).notice = true))

/-- O52. Thermal samples: the band of a tile, migration notices and trips: the clauses above together. -/
def Obligations.ThermalBands : Prop :=
  Clause.BandsAreSampled

/-- REST_STEP moves one serving tile into the SPARE gap next to it, the slab's clusters in turn, unless a Return is possible in the
column; it does nothing while the slab has fewer than five gaps or a move in progress. A move then goes through its phases:
pre-copy passes while enough lines, of the scratchpad and the sett, are marked, four at most; the drain, which begins at a position 0 and ends once every
issued instruction is complete and every access performed; the copy; the remap, which gives the virtual tile its destination; and the resume, at a position 0 once the
destination's cluster is on, when the source rests, is spare or is retired by the reason of the move (14 R284, R285, R281; Tables 14.1, 14.2). -/
def Clause.TilesMove : Prop :=
  (∀ (s : State) (b : Nat),
    ((s.slab b).booted = false ∨ s.bearBusy b = true ∨ (s.gaps b).length < 5 → exec (.restStep b) s = .next s) ∧
    ∀ q v g north, (s.slab b).booted = true → s.bearBusy b = false → 5 ≤ (s.gaps b).length →
      ((List.range 4).map fun k => ((s.slab b).nextRest + k) % 4).findSome?
        (fun q => ((s.restsOf b q).head?).map fun r => (q, r)) = some (q, v, g, north) →
      s.findReturn ((s.slabTiles b).filter fun u => tx u % 8 == g % 8) = none →
      (s.ptile g).role = .spare ∧ (s.ptile (if north = true then g - 8 else g + 8)).role = .serving ∧
      s.virtOf (if north = true then g - 8 else g + 8) = some v ∧
      ∃ t m, exec (.restStep b) s = .next t ∧ (t.tile v).move = some m ∧ m.why = .rest ∧ m.src = s.phys v ∧ m.dst = g ∧
        m.phase = .precopy ∧ (t.slab b).nextRest = (q + 1) % 4 ∧ s.SameMemory t ∧ ∀ w, t.slot w = s.slot w) ∧
  ∀ (s : State) (n : Nat) (m : Move), let x := s.tile n
    let becomes (i : Instr) (m' : Move) : Prop := ∃ t, exec i s = .next t ∧ (t.tile n).move = some m' ∧ s.SameMemory t
    let lines := m.marked.length + s.settMarked n m
    x.move = some m →
    (m.phase = .precopy → m.due ≤ s.now → m.pass < 4 → 4096 ≤ lines → becomes (.movePrecopyPassEnd n)
      { m with pass := m.pass + 1, todo := m.marked, marked := [], sett := s.settBytes n, due := s.now + 2 * lines }) ∧
    (m.phase = .precopy → m.due ≤ s.now → (4 ≤ m.pass ∨ lines < 4096) →
      (s.posOf n ≠ 0 → exec (.movePrecopyPassEnd n) s = .next s) ∧
      (s.posOf n = 0 → x.waveIds = [] → becomes (.movePrecopyPassEnd n) { m with phase := .drain })) ∧
    (m.phase = .drain → x.stopped = false →
      ((∃ e ∈ x.slots, e.2.settled = false ∨ e.2.trapq ≠ []) ∨ s.accessesOut n = true → exec (.moveDrainEnd n) s = .next s) ∧
      ((∀ e ∈ x.slots, e.2.settled = true ∧ e.2.trapq = []) → s.wavesStopped n = true → s.accessesOut n = false → becomes (.moveDrainEnd n)
        { m with phase := .copy, due := s.now + (x.copyBytes lines + 63) / 64 })) ∧
    (m.phase = .copy → x.stopped = false → m.due ≤ s.now →
      becomes (.moveCopyEnd n) { m with phase := .remap, due := s.now + 1800 }) ∧
    (m.phase = .remap → x.stopped = false → m.due ≤ s.now → ∃ t, exec (.moveRemapEnd n) s = .next t ∧ t.phys n = m.dst ∧
      (t.ptile m.dst).role = .serving ∧ (∀ u, u ≠ n → t.phys u = s.phys u) ∧ (t.tile n).move = some { m with phase := .resume } ∧
      s.SameMemory t) ∧
    (m.phase = .resume → s.posOf n ≠ 0 → exec (.moveResume n) s = .next s) ∧
    (m.phase = .resume → s.posOf n = 0 → (s.clu (clusterOf m.dst)).pow ≠ .on →
      exec (.moveResume n) s = .next (s.wantWake (clusterOf m.dst))) ∧
    (m.phase = .resume → s.posOf n = 0 → (s.clu (clusterOf m.dst)).pow = .on → ∃ t, exec (.moveResume n) s = .next t ∧ (t.tile n).move = none ∧
      (t.tile n).stopped = false ∧ (x.waveIds = [] → s.SameMemory t) ∧
      (m.why ≠ .thermal → ∀ k r, (t.slot ⟨n, k⟩).pc = (s.slot ⟨n, k⟩).pc ∧ (t.slot ⟨n, k⟩).reg r = (s.slot ⟨n, k⟩).reg r) ∧
      (m.why = .thermal → ∀ k, (t.slot ⟨n, k⟩).notice = false) ∧
      (m.src ≠ m.dst →
        (m.why = .rest ∨ m.why = .mismatch → (t.ptile m.src).role = .resting ∧ (t.ptile m.src).testing = true) ∧
        (m.why = .ret ∨ m.why = .thermal → (t.ptile m.src).role = .spare) ∧
        (m.why = .trip → (t.ptile m.src).role = .resting ∧ (t.ptile m.src).testing = !(s.ptile m.src).gated) ∧
        (m.why = .retire → (t.ptile m.src).role = .retired)))

/-- A stop sequence goes through its own phases: once the issued instructions are complete, the copy to the destination R385
chooses (without one a tile to be retired becomes vacant and any other waits), the remap, and for a rollback the run from
the boundary to the stop's offset, after which the tile resumes, its accumulators without what undetected faults had left wrong; one that
waits for a destination takes a gap only once it is SPARE; an error in the image turns a rollback into the live path, and its record says
so (24 R377, R383, R384 to R386, R392; Tables 24.3, 24.4). -/
def Clause.TilesStop : Prop :=
  ∀ (s : State) (n : Nat) (m : Move), let x := s.tile n
    let becomes (i : Instr) (m' : Move) : Prop := ∃ t, exec i s = .next t ∧ (t.tile n).move = some m' ∧ s.SameMemory t
    x.move = some m → x.stopped = true →
    ((m.phase = .drain ∨ m.phase = .waiting) → x.onlySteps = true → s.wavesStopped n = true → s.stopBlocked n m = false →
      (m.phase = .drain → s.stopGap m = s.stopDest m.src m.why) ∧
      (∀ d, m.phase = .waiting → s.stopGap m = some d → (s.ptile d).role = .spare) ∧
      (∀ d, s.stopGap m = some d → becomes (.stopDrainEnd n) { m with
        dst := d, phase := .copy
        due := s.now + 1 + ((if m.live = true then x.copyBytes x.reservedLines.length else s.rollbackBytes n) + 63) / 64 }) ∧
      (s.stopGap m = none → m.why ≠ .retire → becomes (.stopDrainEnd n) { m with phase := .waiting }) ∧
      (s.stopGap m = none → m.why = .retire → ∃ t, exec (.stopDrainEnd n) s = .next t ∧ (t.tile n).vacant = true ∧
        (t.tile n).move = none ∧ (t.ptile m.src).role = .retired ∧
        ∀ k c, ((s.tile n).slot k).ctx = some c → (s.ctxOf c).isOpen = true → (t.ctxOf c).dying = true)) ∧
    ((m.phase = .drain ∨ m.phase = .waiting) → x.onlySteps = false → exec (.stopDrainEnd n) s = .next s) ∧
    (m.phase = .copy → m.due ≤ s.now →
      becomes (.stopCopyEnd n false) { m with phase := .remap, due := s.now + 1800 } ∧
      (m.live = false → ∃ t m', exec (.stopCopyEnd n true) s = .next t ∧ (t.tile n).move = some m' ∧ m'.live = true ∧
        m'.phase = .copy ∧ (t.tile n).image.valid = false ∧ s.SameMemory t ∧
        let mine (r : FaultRec) : Prop := r.cls = 10 ∧ (r.cause = 1 ∨ r.cause = 2) ∧ r.slab = m.src / 64 ∧ r.ptile = m.src % 64
        ∀ pre r post, s.flog = pre ++ r :: post → mine r → (∀ q ∈ post, ¬ mine q) →
          t.flog = pre ++ { r with aux := r.aux ||| 1 } :: post)) ∧
    (m.phase = .remap → m.due ≤ s.now → ∃ t, exec (.stopRemapEnd n) s = .next t ∧ t.phys n = m.dst ∧
      (t.ptile m.dst).role = .serving ∧ (∀ u, u ≠ n → t.phys u = s.phys u) ∧ s.SameMemory t ∧
      (t.tile n).move = some (if m.live = true then { m with phase := .resume }
        else { m with phase := .run, due := s.now + (m.started - x.boundary) })) ∧
    (m.phase = .run → m.due ≤ s.now → becomes (.stopReplayEnd n) { m with phase := .resume } ∧
      ∃ t, exec (.stopReplayEnd n) s = .next t ∧ (t.tile n).mx.slips = [] ∧ (t.tile n).poison = [] ∧
        ∀ r c v, x.mx.slips = [(r, c, v)] → r < 256 → c < 64 → v < 2 ^ 32 → (t.tile n).mx.accAt r c = v ∧
          ∀ k j, k < 256 → j < 64 → (k ≠ r ∨ j ≠ c) → (t.tile n).mx.accAt k j = x.mx.accAt k j)

/-- O53. The phases of a move and of a stop sequence of the Bear: the clauses above together. -/
def Obligations.MovesAndStops : Prop :=
  Clause.TilesMove ∧ Clause.TilesStop

/-- AUTO_BOUNDARY writes a tile's image at a position 0 once one is called for, and leaves the tile uncovered where it does not
fit; SELFTEST_DONE gives a RESTING tile its margin and readiness, or retires one that failed, or whose router did, with a SELFTEST
record; AGEING_HOURLY adds the hour's weight, 2^((T-85)/10) in units of 2^-32 rounded down (log 90), to STRH of a tile that serves (24 R382, R388, R389, R391; 14 R284). -/
def Clause.TilesAge : Prop :=
  (∀ (s : State) (n : Nat), let x := s.tile n
    let size := x.ckptBytes fun _ => true
    x.running = true → x.wantsBoundary s.now = true → s.posOf n = 0 →
    (x.image.used + size ≤ 262144 → ∃ t, exec (.autoBoundary n) s = .next t ∧ (t.tile n).log = [] ∧
      (t.tile n).boundary = s.now ∧ (t.tile n).covered = true ∧ (t.tile n).image.used = x.image.used + size ∧
      (∀ k ∈ x.dirtyLines, kvGet (t.tile n).image.lines k [] = memRead x.spad (64 * k) 64) ∧ s.SameMemory t) ∧
    (262144 < x.image.used + size → ∃ t, exec (.autoBoundary n) s = .next t ∧ (t.tile n).covered = false ∧
      (t.tile n).image = x.image ∧ s.SameMemory t)) ∧
  (∀ (s : State) (n : Nat) (bad : Bool) (marg : Nat), let p := s.ptile n
    p.role = .resting → p.testing = true → p.gated = false →
    (∃ t, exec (.selftestDone n true false marg) s = .next t ∧ (t.ptile n).testing = false ∧ (t.ptile n).age.marg = marg % 65536 ∧
      (t.ptile n).age.flag = decide (marg % 65536 < 40) ∧ ((t.ptile n).role = .resting ∨ (t.ptile n).role = .spare) ∧
      (∀ w, t.slot w = s.slot w) ∧ s.SameMemory t) ∧
    ∀ pass, pass = false ∨ bad = true → ∃ t, exec (.selftestDone n pass bad marg) s = .next t ∧ (t.ptile n).role = .retired ∧ (t.ptile n).age.ret = true ∧
      (∃ f ∈ t.flog, f.cls = 11 ∧ f.outcome = 0 ∧ f.cause = 1 ∧ f.slab = n / 64 ∧ f.ptile = n % 64) ∧ s.SameMemory t) ∧
  (∀ q, stressWeight q ^ 40 ≤ 2 ^ (940 + q) ∧ 2 ^ (940 + q) < (stressWeight q + 1) ^ 40) ∧
  ∀ (s : State) (n q : Nat), let p := s.ptile n
    ∃ t, exec (.ageingHourly n q) s = .next t ∧ (p.role ≠ .serving → (t.ptile n).age.strh = p.age.strh) ∧
      (p.role = .serving → (t.ptile n).age.strh =
        min (p.age.strh + (p.age.frac + stressWeight q) / 2 ^ 32) 0xFFFFFFFF) ∧
      (∀ w, t.slot w = s.slot w) ∧ s.SameMemory t

/-- O54. Automatic boundaries, self-tests and the hourly ageing record: the clauses above together. -/
def Obligations.BoundariesAndAgeing : Prop :=
  Clause.TilesAge

/-- TEARDOWN, once no move holds it back, takes the threads of a dying context out of the rotation and waits for what they have issued
(which of that it waits for, and for how long, is log 61's choice); then it closes the context: its threads are gone from their slots,
which are IDLE with the tag one higher, and its pages, translations, reservations, tasks, waves, copies and rings with them; bytes of its
pages that no other open context maps read 0, and HBM outside its pages reads as before (21 R343, R344; Table 21.5). -/
def Clause.ContextsAreTornDown : Prop :=
  ∀ (s : State) (c : Nat), (s.ctxOf c).dying = true →
    (s.teardownHeld c = true → exec (.teardown c) s = .next s) ∧
    (s.teardownHeld c = false → (s.withdrawCtx c).teardownWaits c = true → ∃ t, exec (.teardown c) s = .next t ∧
      (t.ctxOf c).dying = true ∧ s.SameMemory t ∧
      ∀ w, (t.slot w).ctx = some c → (t.slot w).wave = none → (t.slot w).st = .run ∨ (t.slot w).st = .wait → (t.slot w).outReq = true) ∧
    (s.teardownHeld c = false → (s.withdrawCtx c).teardownWaits c = false → ∃ t, exec (.teardown c) s = .next t ∧ t.ctxOf c = Ctx.cold ∧
      (∀ w, (s.slot w).ctx = some c → (t.slot w).st = .idle ∧ (t.slot w).ctx = none ∧ (t.slot w).pend = []) ∧
      (kvWf s.tiles = true → (∀ e ∈ s.tiles, kvWf e.2.slots = true) →
        ∀ w, (s.slot w).ctx = some c → (t.slot w).gen = (s.slot w).gen + 1) ∧
      (∀ p ∈ t.pages, p.ctx ≠ c) ∧ (∀ n, (∀ r ∈ (t.tile n).resv, r.ctx ≠ c) ∧ (∀ p ∈ (t.tile n).tlb, p.ctx ≠ c) ∧
        (t.tile n).mx.owner ≠ some c ∧ ∀ e ∈ (t.tile n).spilled, e.2.ctx ≠ some c) ∧
      (∀ e ∈ t.tasks, e.2.r.ctx ≠ c) ∧ (∀ e ∈ t.waves, e.2.ctx ≠ c) ∧ (∀ r ∈ t.retAdds, r.ctx ≠ c) ∧
      (∀ a, (∀ p ∈ s.pages, p.ctx = c → a < p.pa ∨ p.pa + 2 ^ p.lg ≤ a) → t.getByte (.hbm a) 0 = s.getByte (.hbm a) 0) ∧
      ∀ a, ∀ p ∈ s.pages, p.ctx = c → p.plc = .home → p.pa ≤ a → a < p.pa + 2 ^ p.lg →
        (∀ q ∈ s.pages, q.ctx ≠ c → (s.ctxOf q.ctx).isOpen = false) → t.getByte (.hbm a) 0 = 0)

/-- PATROL_SCRUB counts a corrected error, and an uncorrectable one poisons its granule, takes its page from every context and tears
down those charged with it; QUARANTINE_SCRUB zeroes a quarantined page, which returns to service or is withdrawn for good; a
handler that trapped leaves a COHERENCE record of CAUSE 2 and, restarted, is up again with its queue taken (21 R345; 23 R363,
R366). -/
def Clause.MemoryIsScrubbed : Prop :=
  (∀ (s : State) (pa : Nat), pa / 2 ^ 36 < 24 → exec (.patrolScrub pa 0) s = .next s ∧
    (∃ t, exec (.patrolScrub pa 1) s = .next t ∧
      kvGet t.hbmCorr (pa / 2 ^ 36) 0 = kvGet s.hbmCorr (pa / 2 ^ 36) 0 + 1 ∧ s.SameMemory t ∧ ∀ w, t.slot w = s.slot w) ∧
    ∃ t, exec (.patrolScrub pa 2) s = .next t ∧ pa / 32 ∈ t.poison ∧ pa / 65536 ∈ t.quarantine ∧ pa / 65536 ∉ t.exports ∧
      (∀ p ∈ t.pages, p.plc = .home → ¬ (p.pa ≤ pa ∧ pa < p.pa + 2 ^ p.lg)) ∧
      (∀ c ∈ s.chargedAt pa, (s.ctxOf c).isOpen = true → (t.ctxOf c).dying = true) ∧ s.SameMemory t) ∧
  (∀ (s : State) (k n : Nat), s.quarantine[k]? = some n → ∀ pass, ∃ t, exec (.quarantineScrub k pass) s = .next t ∧
    t.quarantine = listDrop1 s.quarantine k ∧ t.withdrawn = (if pass = true then s.withdrawn else s.withdrawn ++ [n]) ∧
    (∀ g ∈ t.poison, g / 2048 ≠ n) ∧ (∀ g ∈ s.poison, g / 2048 ≠ n → g ∈ t.poison) ∧
    (∀ a, t.getByte (.hbm a) 0 = if a / 65536 = n then 0 else s.getByte (.hbm a) 0) ∧ ∀ w, t.slot w = s.slot w) ∧
  ∀ (s : State) (cl : Nat),
    ((s.clu cl).handlerDown = true → ∃ t, exec (.overflowHandlerRestart cl) s = .next t ∧ (t.clu cl).handlerDown = false ∧
      (t.clu cl).ovq = [] ∧ s.SameMemory t ∧ ∀ w, t.slot w = s.slot w) ∧
    ((s.clu cl).handlerDown = false → ∃ t, exec (.overflowHandlerRestart cl) s = .next t ∧ (t.clu cl).handlerDown = true ∧
      (∃ f ∈ t.flog, f.cls = 4 ∧ f.cause = 2 ∧ f.slab = cl / 4) ∧ s.SameMemory t)

/-- An error corrected as a load reads HBM is counted and the load goes on. An uncorrectable one poisons the granule, takes its
page from every context and tears down those charged, and so does one in a directory entry; one in a word of a scratchpad stops the tile for its replay, with a record
REPLAYED, where the sett covers the word, and otherwise tears down every context on the tile; one in an engine's state that
`erd` reads freezes the engine. The load is not performed (23 R363, R364, Tables 23.1, 23.2; log 12, 61). -/
def Clause.StoredErrors : Prop :=
  (∀ (s s1 : State) (w : Who) (q q' : Pend) (d : Spec) (a0 a : Acc) (sg pr : Bool) (acq : Option Nat) (rd : Nat) (rest : List Part),
    (s.slot w).ripe s.now q.seq = some q → q.job = .load d a0 sg pr acq rd → s.arrive w q a0 .read = .perform q' a s1 →
    q'.performed = false →
    (∀ pa n plc, a.parts = ⟨.hbm pa, n, plc⟩ :: rest →
      (∃ t, exec (.loadComplete w q.seq .corrected) s = .next t ∧
        kvGet t.hbmCorr (pa / 2 ^ 36) 0 = kvGet s1.hbmCorr (pa / 2 ^ 36) 0 + 1) ∧
      (∃ t, exec (.loadComplete w q.seq .dir) s = .next t ∧ pa / 65536 ∈ t.quarantine ∧
        (∀ c ∈ s1.chargedAt pa, (s1.ctxOf c).isOpen = true → (t.ctxOf c).dying = true ∧
          ∃ f ∈ t.flog, f.cls = 4 ∧ f.outcome = 3 ∧ f.cause = 1 ∧ f.addr = wd pa) ∧ s1.SameMemory t ∧
        (t.slot w).pend? q.seq = (s1.slot w).pend? q.seq) ∧
      ∃ t, exec (.loadComplete w q.seq .line) s = .next t ∧ pa / 32 ∈ t.poison ∧ pa / 65536 ∈ t.quarantine ∧
        (∀ p ∈ t.pages, p.plc = .home → ¬ (p.pa ≤ pa ∧ pa < p.pa + 2 ^ p.lg)) ∧
        (∀ c ∈ s1.chargedAt pa, (s1.ctxOf c).isOpen = true → (t.ctxOf c).dying = true) ∧ s1.SameMemory t ∧
        (t.slot w).pend? q.seq = (s1.slot w).pend? q.seq) ∧
    ∀ u off n plc, a.parts = ⟨.spad u off, n, plc⟩ :: rest →
      ((s1.tile u).lineCovered off = true → (s1.tile u).stopped = false → (s1.tile u).move = none → (s1.tile u).waveIds = [] →
        (s1.ctxOf ((s1.tile u).findingCtx (0, off, .word))).dying = false →
        ∃ t, exec (.loadComplete w q.seq .word) s = .next t ∧ (t.tile u).stopped = true ∧ off / 8 ∈ (t.tile u).poison ∧
          (∃ f ∈ t.flog, f.cls = 3 ∧ f.outcome = 1 ∧ f.mkind = 6 ∧ f.cause = 3) ∧
          (t.slot w).pend? q.seq = (s1.slot w).pend? q.seq) ∧
      ((s1.tile u).lineCovered off = false → ∃ t, exec (.loadComplete w q.seq .word) s = .next t ∧
        (∀ c ∈ (s1.tile u).contexts, (s1.ctxOf c).isOpen = true → (t.ctxOf c).dying = true) ∧ s1.SameMemory t ∧
        (t.slot w).pend? q.seq = (s1.slot w).pend? q.seq)) ∧
  ∀ (s : State) (w : Who) (q : Pend) (d : Spec) (f n : Nat), let b := (s.slot w).bind f
    (s.slot w).ripe s.now q.seq = some q → q.job = .erd d f n → b.st = .bound → b.cl < 192 → b.eng < 16 →
    (s.eng b.cl b.eng).frozen = none → (s.eng b.cl b.eng).holder = some (w, f) →
    ∃ t, exec (.erdComplete w q.seq true) s = .next t ∧ (t.eng b.cl b.eng).frozen = some ((s.slot w).ctx.getD 0) ∧
      ∃ r ∈ t.flog, r.cls = 6 ∧ r.outcome = 2 ∧ r.cause = 2

/-- O55. Teardown of a context, errors of stored data, quarantine and the overflow handler: the clauses above together. -/
def Obligations.TeardownAndScrub : Prop :=
  Clause.ContextsAreTornDown ∧ Clause.MemoryIsScrubbed ∧ Clause.StoredErrors

/-- FRAME_ARRIVE counts a frame with a bad check sequence or of no class at its port; one for a ring that is disabled in FLT, one too
long in SIZE, one for a full ring that drops, or for which its port's buffer is full, in FULL; and writes any other to slot TAIL mod N of
its ring, whose TAIL, FRAMES and BYTES grow. A frame whose ring is not to be reached waits and is not counted (15 R306 to R309; 23 R372). -/
def Clause.FramesArrive : Prop :=
  ∀ (s : State) (port : Nat) (vlan : Option Nat) (frame : List Byte), s.ready = true → s.recovery = false → port ≤ 12 →
    (port = 0 ∨ s.caps.podMode.getLsbD (port - 1) = false) →
    (∃ t, exec (.frameArrive port vlan false false frame) s = .next t ∧
      kvGet t.portBad port 0 = kvGet s.portBad port 0 + 1 ∧ s.SameMemory t) ∧
    (s.classes.find? (fun e => e.1 == classKey port vlan) = none → ∃ t, exec (.frameArrive port vlan true false frame) s = .next t ∧
      kvGet t.portNoMatch port 0 = kvGet s.portNoMatch port 0 + 1 ∧ s.SameMemory t) ∧
    ∀ key k tail head fr by_ n0, s.classes.find? (fun e => e.1 == classKey port vlan) = some (key, k) →
      let r := kvGet s.rings k ⟨0, 0, []⟩
      (∀ s', s.ringWaits r = (true, s') → exec (.frameArrive port vlan true false frame) s = .next s' ∧ s.SameMemory s') ∧
      (s.ringWaits r = (false, s) → r.fits = true → r.mode = 1 → r.keyx = 0 →
      s.ringParts r 0 (128 + r.n * r.slotBytes) .write ≠ none →
      (∀ off n ps, off + n ≤ 128 + r.n * r.slotBytes → s.ringParts r off n .write = some ps → s.poisoned ps = false) →
      s.ringWord r 0 = some tail → s.ringWord r 8 = some head →
      let full : Prop := r.n ≤ (tail + 2 ^ 64 - head) % 2 ^ 64
      let counted (t : State) (word : Nat) : Prop :=
        t.ringWord r (8 * word) = some ((fr + 1) % 2 ^ 64) ∧ t.ringWord r (8 * word + 8) = some ((by_ + frame.length) % 2 ^ 64)
      let had (word : Nat) : Prop := s.ringWord r (8 * word) = some fr ∧ s.ringWord r (8 * word + 8) = some by_
      (r.en = false → had 12 → ∃ t, exec (.frameArrive port vlan true false frame) s = .next t ∧ counted t 12 ∧
        t.ringWord r 0 = some tail) ∧
      (r.en = true → had 4 → ∃ t, exec (.frameArrive port vlan true true frame) s = .next t ∧ counted t 4 ∧
        t.ringWord r 0 = some tail) ∧
      (r.en = true → r.slotBytes - 16 < frame.length → had 10 → ∃ t, exec (.frameArrive port vlan true false frame) s = .next t ∧
        counted t 10 ∧ t.ringWord r 0 = some tail) ∧
      (r.en = true → frame.length ≤ r.slotBytes - 16 → full → r.pol = false → had 4 →
        ∃ t, exec (.frameArrive port vlan true false frame) s = .next t ∧ counted t 4 ∧ t.ringWord r 0 = some tail) ∧
      (r.en = true → frame.length ≤ r.slotBytes - 16 → ¬ full → had 2 → n0 = 128 + tail % r.n * r.slotBytes →
        ∃ t, exec (.frameArrive port vlan true false frame) s = .next t ∧ counted t 2 ∧
          t.ringWord r 0 = some ((tail + 1) % 2 ^ 64) ∧
          t.ringWord r n0 = some (tail % 2 ^ 48 * 2 ^ 16 + frame.length % 2 ^ 14) ∧ t.ringWord r (n0 + 8) = some port ∧
          ∃ ps, t.ringParts r (n0 + 16) frame.length .read = some ps ∧ t.getParts ps = frame))

/-- An end of a link accepts only the flit it expects, counts a bad check sequence and asks for the flits again with a NAK, which the
other end answers with every flit it holds from the number on; the fourth retry burst within 2,250,000 cycles makes a full link retrain
once the last flit of the burst is accepted, and a fallen one go DOWN, and a retrain ends after 4,500 cycles at 32 lanes with its bursts
forgotten (23 R373, R374). Each end has registers of its own (26 R400). -/
def Clause.LinksRetry : Prop :=
  ∀ (s : State) (k e : Nat), e < 2 → let l := s.link k
    let q := l.end_ e
    let mate := l.end_ (1 - e)
    (∀ num ack, l.state < 2 →
      (mate.held.contains (num % 65536) = true → num % 65536 = q.expect →
        ∃ t, exec (.linkFlitReceive (2 * k + e) num none ack) s = .next t ∧
        ((t.link k).end_ e).expect = (q.expect + 1) % 65536 ∧ ((t.link k).end_ e).nakSent = false ∧ s.SameMemory t ∧
        (l.falls ≠ some (e, num % 65536) → (t.link k).state = l.state) ∧
        (l.falls = some (e, num % 65536) → l.state = 0 → (t.link k).state = 2 ∧ (t.link k).since = s.now + 1) ∧
        (l.falls = some (e, num % 65536) → l.state = 1 → (t.link k).state = 3)) ∧
      (num % 65536 ≠ q.expect → ∃ t, exec (.linkFlitReceive (2 * k + e) num none ack) s = .next t ∧
        ((t.link k).end_ e).expect = q.expect ∧ (t.link k).state = l.state ∧ s.SameMemory t) ∧
      ∀ lane, ∃ t, exec (.linkFlitReceive (2 * k + e) num (some lane) ack) s = .next t ∧
        ((t.link k).end_ e).crcerr = min (q.crcerr + 1) 255 ∧ ((t.link k).end_ e).nakSent = true ∧
        ((t.link k).end_ e).expect = q.expect ∧ ((t.link k).end_ (1 - e)).crcerr = mate.crcerr ∧ s.SameMemory t) ∧
    (∀ num, mate.nakSent = false ∨ mate.expect ≠ num % 65536 → exec (.linkNakReceive (2 * k + e) num) s = .next s) ∧
    (∀ num i, l.state < 2 → mate.nakSent = true → mate.expect = num % 65536 →
      let held := ((l.acked e (num + 65535)).end_ e).held
      held.findIdx? (fun n => n == num % 65536) = some i →
      ∃ t, exec (.linkNakReceive (2 * k + e) num) s = .next t ∧
        ((t.link k).end_ e).replays = min (q.replays + (held.length - i)) 65535 ∧ ((t.link k).end_ e).held = held ∧
        ((t.link k).end_ (1 - e)).nakSent = false ∧ (t.link k).state = l.state ∧ s.SameMemory t ∧
        ((l.window s.now).length < 3 → l.falls = none → (t.link k).bursts = l.window s.now ++ [s.now] ∧ (t.link k).falls = none) ∧
        (3 ≤ (l.window s.now).length → (t.link k).falls = some (1 - e, (held.drop i).getLastD 0))) ∧
    (∃ t, exec (.linkBurstExpire k) s = .next t ∧ (t.link k).bursts = l.window s.now ∧ (t.link k).state = l.state ∧ s.SameMemory t) ∧
    (l.state = 2 → (s.now < l.since + 4500 → exec (.linkRetrainEnd k) s = .next s) ∧
      (l.since + 4500 ≤ s.now → ∃ t, exec (.linkRetrainEnd k) s = .next t ∧ (t.link k).state = 1 ∧ (t.link k).bursts = [] ∧
        s.SameMemory t))

/-- When a link module goes DOWN, the flits that each of its ends holds unacknowledged are sent by the other module of the edge, where that
one works, as far as its buffer has room; the numbers they have there are log 22's choice (23 R374, R375). -/
def Clause.FlitsMoveToTheOtherModule : Prop :=
  ∀ (s : State) (k e : Nat), k < 192 → e < 2 → let mate := k / 2 * 2 + (k + 1) % 2
    let m := (s.link mate).end_ e
    let n := min ((s.link k).end_ e).held.length (128 - m.held.length)
    (s.link mate).state < 2 →
    ((s.linkDown k).link k).state = 3 ∧ (((s.linkDown k).link k).end_ e).held = [] ∧
    (((s.linkDown k).link mate).end_ e).held = m.held ++ seqUpTo m.txseq n

/-- O56. Frames of stream ingress, and the retry, fall-back and retraining of links: the clauses above together. -/
def Obligations.StreamsAndLinks : Prop :=
  Clause.FramesArrive ∧ Clause.LinksRetry ∧ Clause.FlitsMoveToTheOtherModule

/-- A pod request without a reply is sent again after 2,250,000 cycles on the route then in force, and after 22,500,000 cycles it fails:
its thread is frozen with a LINK record of CAUSE 4, its channel's chain is to end, its engine is frozen, the task whose footprint it
reads fails, and a unit of the module has no reply (23 R368, R371, R376). -/
def Clause.PodRequestsEnd : Prop :=
  ∀ (s : State) (k : Nat) (f : PodFlight), s.pods[k]? = some f → f.waits = true →
    let fails : Prop := f.firstAt + 22500000 ≤ s.now
    (s.now < f.sentAt + 2250000 → exec (.podRequestResend k) s = .next s) ∧
    (f.sentAt + 2250000 ≤ s.now → ∃ t, exec (.podRequestResend k) s = .next t ∧
      t.pods[k]? = some { f with sentAt := s.now, port := kvGet s.routes f.module 0 } ∧ s.SameMemory t) ∧
    (s.now < f.firstAt + 22500000 → exec (.podRequestFreeze k) s = .next s) ∧
    (∀ w, fails → f.by_ = .thread w → f.thr ≠ 0 → (s.slot w).gen = f.gen → (s.slot w).thr = f.thr →
      ∃ t, exec (.podRequestFreeze k) s = .next t ∧ t.pods = listDrop1 s.pods k ∧ (t.slot w).st = .halt ∧
        (t.slot w).frozen = true ∧ (t.slot w).epc = f.pc ∧ (t.slot w).eval = f.ev ∧ (t.slot w).pend? f.seq = none ∧
        s.SameOthers t w ∧ (∀ e ∈ t.stores, ¬ (e.party.thr = f.thr ∧ e.seq = f.seq ∧ e.part.loc = .pod f.module f.pa)) ∧
        ∃ r ∈ t.flog, r.cls = 9 ∧ r.outcome = 2 ∧ r.cause = 4 ∧ r.ctx = f.ctx ∧ r.pc = f.pc) ∧
    (∀ tile ch h rest, fails → f.by_ = .chan tile ch → ((s.tile tile).channel ch).chains = h :: rest →
      ∃ t, exec (.podRequestFreeze k) s = .next t ∧
        ((t.tile tile).channel ch).chains = h.stopAt (h.recAt f.seq) noReply (wd f.pa) :: rest ∧ ∀ w, t.slot w = s.slot w) ∧
    (∀ cl e p, fails → f.by_ = .eng cl e → (s.eng cl e).holder = some p →
      ∃ t, exec (.podRequestFreeze k) s = .next t ∧ (t.eng cl e).frozen = some ((s.slot p.1).ctx.getD 0) ∧
        ∃ r ∈ t.flog, r.cls = 9 ∧ r.outcome = 2 ∧ r.addr = wd f.pa) ∧
    (∀ j, fails → f.by_ = .task j → ∃ t, exec (.podRequestFreeze k) s = .next t ∧ t.task? j = none) ∧
    (fails → f.by_ = .module → ∃ t, exec (.podRequestFreeze k) s = .next t ∧ s.SameMemory t ∧
      t.pods = listDrop1 s.pods k ++ [{ f with code := podSilent }])

/-- A request of another module that comes by a port in POD mode is served at the physical address it names where the page is
exported and the access is of a size and alignment Shoheosh has, and refused elsewhere; a read replies with the bytes, a write and
an atomic are performed once, a repeated request getting the same reply with no second effect, or wait while their line is held
or the table of requests is full; a completion request is answered once none before it waits (15 R302 to R305; 23 R375). -/
def Clause.PodRequestsAreServed : Prop :=
  ∀ (s : State) (r : PodReq), s.podPort r = true →
    let sent (t : State) (code status : Nat) (data : List Byte) : Prop :=
      t.replies = s.replies ++ [.pod r.port r.module r.lseq r.reqId r.ctx code status data]
    let free (n : Nat) : Prop := s.writeHeld [⟨.hbm r.pa, n, .home⟩] = false
    let waits (i : Instr) (op : PodOp) : Prop := exec i s = .next { s with podIn := s.podIn ++ [(r, op)] }
    (∀ n, s.admits r n = true → s.poisoned [⟨.hbm r.pa, n, .home⟩] = false →
      exec (.shoheoshRd r n) s = .next (s.podReply r 1 0 (s.getParts [⟨.hbm r.pa, n, .home⟩]))) ∧
    (∀ n, s.admits r n = false → exec (.shoheoshRd r n) s = .next (s.podReply r 1 1 [])) ∧
    (∀ data, s.admits r data.length = false → exec (.shoheoshWr r data) s = .next (s.podReply r 2 1 [])) ∧
    (∀ data, s.admits r data.length = true → s.poisoned [⟨.hbm r.pa, data.length, .home⟩] = false →
      (s.seen r = none → ¬ free data.length → waits (.shoheoshWr r data) (.wr data)) ∧
      (∀ v, s.seen r = some v → exec (.shoheoshWr r data) s = .next (s.podReply r 2 0 [])) ∧
      (free data.length → s.seen r = none → ∃ t, exec (.shoheoshWr r data) s = .next t ∧
        s.Wrote t [⟨.hbm r.pa, data.length, .home⟩] data ∧ sent t 2 0 [] ∧ t.seen r = some 0)) ∧
    (∀ op b d, s.admits r 8 = false ∨ op < 0x1F ∨ 0x28 < op → exec (.shoheoshAmo r op b d) s = .next (s.podReply r 3 1 [])) ∧
    (∀ op b d, s.admits r 8 = true → 0x1F ≤ op → op ≤ 0x28 → s.poisoned [⟨.hbm r.pa, 8, .home⟩] = false →
      let old := wd (leNat (s.getParts [⟨.hbm r.pa, 8, .home⟩]))
      (s.seen r = none → ¬ free 8 → waits (.shoheoshAmo r op b d) (.amo op b d)) ∧
      (∀ v, s.seen r = some v → exec (.shoheoshAmo r op b d) s = .next (s.podReply r 3 0 (leBytes 8 v.toNat))) ∧
      (free 8 → s.seen r = none → ∃ t, exec (.shoheoshAmo r op b d) s = .next t ∧
        s.Wrote t [⟨.hbm r.pa, 8, .home⟩] (leBytes 8 ((amoNew op old b d).getD old).toNat) ∧
        sent t 3 0 (leBytes 8 old.toNat) ∧ t.seen r = some old)) ∧
    let before := s.podIn.any fun e => e.1.module == r.module && e.1.ctx == r.ctx && e.2 != .cmpl
    (s.recovery = false → before = false → exec (.shoheoshCmpl r) s = .next (s.podReply r 4 0 [])) ∧
    (s.recovery = false → before = true → waits (.shoheoshCmpl r) .cmpl)

/-- What comes by a port that does not carry Shoheosh is no request (15 R302). -/
def Clause.OtherPortsCarryNoRequest : Prop :=
  ∀ (s : State) (r : PodReq) (n op : Nat) (data : List Byte) (b d : Word) (i : Instr), s.podPort r = false →
    (i = .shoheoshRd r n ∨ i = .shoheoshWr r data ∨ i = .shoheoshAmo r op b d ∨ i = .shoheoshCmpl r) → exec i s = .next s

/-- O57. Requests to other modules that stay without a reply, and requests of other modules served here: the clauses above together. -/
def Obligations.PodRequests : Prop :=
  Clause.PodRequestsEnd ∧ Clause.PodRequestsAreServed ∧ Clause.OtherPortsCarryNoRequest

/-- A start whose control image passes leaves no context, no page and no thread, every register at its value after a start and all
memory of the module reading 0, with the rows R296 lets each slab row advertise; a tile that fails its self-test, or whose router does, is retired
and stands in its slab's defect map.
COLD_START tests every tile not retired; WARM_START only those flagged or failing, and leaves the other ageing records as they are.
A control image that fails leaves the module in recovery mode (15 R311, R312; 14 R296; 24 R391, R394). -/
def Clause.Starts : Prop :=
  ∀ (s : State) (inp : StartIn), ∀ i, (i = .coldStart inp ∨ i = .warmStart inp) →
    (inp.ctrlOk = false → ∃ t, exec i s = .next t ∧ t.recovery = true) ∧
    (inp.ctrlOk = true → ∃ t, exec i s = .next t ∧ t.recovery = false ∧ t.ready = true ∧ t.ctxs = [] ∧ t.pages = [] ∧
      t.tasks = [] ∧ (∀ w, t.slot w = Slot.cold) ∧ (∀ n, (t.tile n).resv = [] ∧ (t.tile n).mx = Matrix.cold ∧
        (t.tile n).rtab = Vector.ofFn fun p => rtabCold p.val) ∧
      (∀ a, t.getByte (.hbm a) 0 = 0) ∧ (∀ n a, t.getByte (.spad n a) 0 = 0) ∧ t.caps.hs.length = 8 ∧
      (∀ h ∈ t.caps.hs, h = 0 ∨ (5 ≤ h ∧ h ≤ 7)) ∧ t.alog = inp.images.map shake256 ∧
      (∀ b < 48, (t.slab b).booted = slabBoots inp b) ∧
      (∀ p < 3072, p ∈ inp.failed ∨ p ∈ inp.routers → (t.ptile p).role = .retired ∧ (t.ptile p).age.ret = true) ∧
      (∀ b < 48, ∀ p, p ∈ (t.slab b).defects.tiles ↔ 64 * b ≤ p ∧ p < 64 * b + 64 ∧ (t.ptile p).age.ret = true) ∧
      (i = .coldStart inp → ∀ k, (t.link k).state = 0) ∧
      (i = .warmStart inp → ∀ p < 3072, p ∉ inp.failed → p ∉ inp.routers → (s.ptile p).age.flag = false → (t.ptile p).age = (s.ptile p).age))

/-- O58. Cold and warm starts: the clauses above together. -/
def Obligations.StartsLeaveAFreshModule : Prop :=
  Clause.Starts

/-- O59. When both copies of a redundant launch have retired, the signatures of their shadow pages are compared: where they agree the
primary's pages replace the originals and RETW is due an increase of COUNT; where they differ nothing but the signature area
is written (and that not over a word with an uncorrectable error) and a REDUNDANT record of outcome NOCOMMIT is left. A launch that exhausted the pool is killed with outcome FAILED (21
R348, R349). -/
def Obligations.RedundantCommits : Prop :=
  ∀ (s : State) (k : Nat) (d : Red), s.red? k = some d →
    (d.dead = true → ∃ t, exec (.redundantCommit k) s = .next t ∧ t.red? k = none ∧
      ∃ f ∈ t.flog, f.cls = 14 ∧ f.outcome = 6 ∧ f.ctx = d.ctx) ∧
    let area : List Part := match s.tableParts d.ctx .write (pieces 64 d.area 64) with
      | .ok ps => ps
      | .error _ => []
    let held : Bool := s.writeHeld area || (d.pagesOf 0).any (s.commitHeld d)
    (d.dead = false → d.left ≠ [0, 0] → exec (.redundantCommit k) s = .next s) ∧
    (d.dead = false → d.left = [0, 0] →
      (s.tiles.any fun e => e.2.chan.toList.any fun c => c.chains.any fun h => (h.red.map fun r => r.1 == k).getD false) = false →
      (s.tasks.any fun e => (e.2.r.red.map fun r => r.1 == k).getD false && s.taskOwes e.1) = false →
      (held = true → exec (.redundantCommit k) s = .next s) ∧ (held = false →
      ∃ t, exec (.redundantCommit k) s = .next t ∧ t.red? k = none ∧
      (s.signature k 0 d = s.signature k 1 d →
        t.retAdds = s.retAdds ++ (if d.retw = 0 then [] else [⟨d.ctx, d.retw, 0, d.count⟩]) ∧
        ∀ n p, d.pagesOf 0 = [n] → s.pageOf d.ctx (n * 65536) = some p → p.va ≤ n * 65536 →
          Memory.wf s.hbm → Memory.wf (kvGet s.shadow (2 * k) []) → s.poisoned area = false → ∀ j < 65536,
          t.getByte (.hbm (p.pa + (n * 65536 - p.va) + j)) 0 = memGet (kvGet s.shadow (2 * k) []) (n * 65536 + j)) ∧
      (s.signature k 0 d ≠ s.signature k 1 d → (s.ctxOf d.ctx).ring = none →
        t.retAdds = s.retAdds ∧ (∃ f ∈ t.flog, f.cls = 14 ∧ f.outcome = 4 ∧ f.ctx = d.ctx) ∧
        ∀ a, (s.poisoned area = true ∨ ∀ p ∈ area, p.has (.hbm a) 0 = false) →
          t.getByte (.hbm a) 0 = s.getByte (.hbm a) 0)))

/-- O60. The bytes of HBM stand in the memory's one canonical form in every state that a step reaches from a state where they do:
addresses strictly rising and no zero byte listed (log 3). -/
def Obligations.HbmStaysCanonical : Prop :=
  ∀ s t : State, Memory.wf s.hbm → step s = .next t → Memory.wf t.hbm

end
end

