-- ==== Sys2Proof/WellFormed.lean ====
section
/-! DEFINITION. Well-formed instructions: those whose fields meet the checks of R350. -/

namespace Sys2Proof

/-- An instruction whose operands the encoding admits (22 R350; 03 R46). -/
abbrev WellFormed (i : Instr) : Prop := admits i = true

end Sys2Proof
end

