-- ==== Sys2Proof/Tests/Slice0.lean ====
section
/-! SUPPORT. Tests: words of the encodings, terms the checks refuse, results worked by hand from the tables of the spec, and for
each statement states and operands that meet its hypotheses. -/

namespace Sys2Proof.Tests

set_option Elab.async false

open Sys2Proof.Machine

/-- Each word decodes to the instruction beside it. -/
abbrev Reads (ws : List (Nat × Instr)) : Prop := ∀ e ∈ ws, decodeTableWord 32 e.1 = some e.2

/-- A page of context 1 over the low 64 KiB of HBM, with every permission. -/
def page : Page := ⟨1, 0, 16, 0, true, true, true, .home⟩

/-- The thread in slot 0 of tile 0. -/
def w0 : Who := ⟨0, 0⟩

/-- A thread of context 1 in RUN: p0 and p4 are 1, g5 is -7, g20 is 3, l0 is 11, l1 is 22. -/
def x0 : Slot :=
  { Slot.cold with
    st := .run, ctx := some 1, lastCtx := some 1, pc := 0x1000, tvec := 0x8000, p := 0x11
    g := (Slot.cold.g.set 5 (-7)).set 20 3, l := (Slot.cold.l.set 0 11).set 1 22 }

/-- Slot 0 of tile 0 holding a thread, with context 1 open, its page in the TLB, and 8 KiB of the scratchpad its own. -/
def sx (x : Slot) : State :=
  { (State.reset.setSlot w0 x).modTile 0 fun t => { t with resv := [⟨0, 8192, 1, 1⟩], tlb := [page] } with
    ctxs := [(1, { Ctx.cold with isOpen := true })], pages := [page] }

def s0 : State := sx x0

/-- The thread of `s0` with changes. -/
def sm (f : Slot → Slot) : State := sx (f x0)

/-- The thread of `s0` as the head of a wave of four in one row, or as a member of it. -/
def inWave (k : Nat) (f : Slot → Slot) : State :=
  { sx (f { x0 with wave := some ⟨0, k, 0, 0, none⟩, st := if k = 0 then .run else .member }) with
    waves := [(0, ⟨0, none, 1, 0, 0, 4, 1, 0, [[⟨0x1000, 0, true⟩]], none, 0, false, [], []⟩)], now := 16 * k }

def got? {α : Type} : Got α → Option α
  | .ok a => some a
  | _ => none

def opened? : Opened → Option (Acc × Nat × State)
  | .go a d s => some (a, d, s)
  | .trap _ _ => none

def arrived? : Arrived → Option (Pend × Acc × State)
  | .perform p a s => some (p, a, s)
  | _ => none

/-- The state an instruction leaves. -/
def after (i : Instr) (s : State) : State :=
  match exec i s with
  | .next t => t
  | _ => s

def goesOn (i : Instr) (s : State) : Bool :=
  match exec i s with
  | .next _ => true
  | _ => false

theorem got_of {α : Type} {r : Got α} {a : α} (h : got? r = some a) : r = .ok a := by
  cases r <;> simp_all [got?]

theorem opened_of {r : Opened} {a : Acc} {d : Nat} {s : State} (h : opened? r = some (a, d, s)) : r = .go a d s := by
  cases r <;> simp_all [opened?]

theorem arrived_of {r : Arrived} {p : Pend} {a : Acc} {s : State} (h : arrived? r = some (p, a, s)) : r = .perform p a s := by
  cases r <;> simp_all [arrived?]

/-- The instruction meets the checks of its issue, and its scalar operands are there. -/
def meets (s : State) (i : Instr) : Bool :=
  match instrMeta s.cur.isMember i with
  | some m => decide (s.Issues i m) && (got? (s.operands s.focus m.src m.dst)).isSome
  | none => false

theorem meets_of {s : State} {i : Instr} (h : meets s i = true) :
    ∃ m vs s1, instrMeta s.cur.isMember i = some m ∧ s.Issues i m ∧ s.operands s.focus m.src m.dst = .ok (vs, s1) := by
  unfold meets at h
  split at h
  · rename_i m hm
    simp only [Bool.and_eq_true, decide_eq_true_eq] at h
    obtain ⟨hi, ho⟩ := h
    obtain ⟨⟨vs, s1⟩, ho⟩ := Option.isSome_iff_exists.mp ho
    exact ⟨m, vs, s1, hm, hi, got_of ho⟩
  · cases h

/-- A long-latency instruction of the thread that is pending, first in its program order. -/
def pending (la : Nat) (word : Word) (job : Job) (x : Slot) : Slot :=
  { x with
    iseq := 1, pend := [⟨1, 0, la, 0x0FFC, word, job, 0, 0, 0, false, [], [], 0, []⟩]
    lq := if job.shifts then [⟨1, none⟩] else [] }

/-- Memory written into HBM and the scratchpad of tile 0, little-endian. -/
def withHbm (a : Nat) (v : Word) (s : State) : State := s.putParts [⟨.hbm a, 8, .home⟩] (leBytes 8 v.toNat)
def withPad (a : Nat) (v : Word) (s : State) : State := s.putParts [⟨.spad 0 a, 8, .home⟩] (leBytes 8 v.toNat)

/-- The state some cycles later. -/
def later (n : Nat) (s : State) : State := { s with now := s.now + n }

/-- `s0` with g21 and g5 an address of the scratchpad by `loc` or of HBM by `glob`, g6 a value to store. -/
def at_ (a : Word) : State := sm fun x => { x with g := ((x.g.set 21 a).set 5 a).set 6 0xABCD }

/-- Whether the first pending access of the thread may be performed. -/
def arrives (s : State) (need : Need) : Bool :=
  match s.cur.pend with
  | p :: _ => decide (s.cur.ripe s.now p.seq = some p) &&
    match p.job.acc? with
    | some a => (arrived? (s.arrive w0 p a need)).isSome
    | none => false
  | [] => false

/-- Words of INTA and INTB, the binary rows of Table 6.2, put together from the fields of Tables 4.2 and 4.4 to 4.7 (04 R63, R65). -/
def wordsInta : List (Nat × Instr) := [
  (0x061154B0, .add (.o 1) (.g 5) (.g 20) ⟨1, 3⟩),
  (0x061154B1, .sub (.o 1) (.g 5) (.g 20) ⟨1, 3⟩),
  (0x061154B2, .and (.o 1) (.g 5) (.g 20) ⟨1, 3⟩),
  (0x061154B3, .or (.o 1) (.g 5) (.g 20) ⟨1, 3⟩),
  (0x061154B4, .xor (.o 1) (.g 5) (.g 20) ⟨1, 3⟩),
  (0x061154B5, .andn (.o 1) (.g 5) (.g 20) ⟨1, 3⟩),
  (0x061154B6, .shl (.o 1) (.g 5) (.g 20) ⟨1, 3⟩),
  (0x061154B7, .shr (.o 1) (.g 5) (.g 20) ⟨1, 3⟩),
  (0x061154B8, .sar (.o 1) (.g 5) (.g 20) ⟨1, 3⟩),
  (0x061154B9, .rol (.o 1) (.g 5) (.g 20) ⟨1, 3⟩),
  (0x061154BA, .min (.o 1) (.g 5) (.g 20) ⟨1, 3⟩),
  (0x061154BB, .max (.o 1) (.g 5) (.g 20) ⟨1, 3⟩),
  (0x061154BC, .minn (.o 1) (.g 5) (.g 20) ⟨1, 3⟩),
  (0x061154BD, .maxn (.o 1) (.g 5) (.g 20) ⟨1, 3⟩),
  (0x061154BE, .mul (.o 1) (.g 5) (.g 20) ⟨1, 3⟩),
  (0x061154BF, .mulh (.o 1) (.g 5) (.g 20) ⟨1, 3⟩),
  (0x0A1154B0, .mulhn (.o 1) (.g 5) (.g 20) ⟨1, 3⟩)]

theorem test_words_inta : Reads wordsInta := by decide +kernel

/-- Words of the unary rows of Table 6.3 and `sel`, put together from the fields of Tables 4.2 and 4.4 to 4.7 (04 R63, R65). -/
def wordsIntb : List (Nat × Instr) := [
  (0x0A1140B1, .clz (.o 1) (.g 5) ⟨1, 3⟩),
  (0x0A1140B2, .ctz (.o 1) (.g 5) ⟨1, 3⟩),
  (0x0A1140B3, .popc (.o 1) (.g 5) ⟨1, 3⟩),
  (0x0A1140B4, .brev (.o 1) (.g 5) ⟨1, 3⟩),
  (0x0A1140B5, .bswap (.o 1) (.g 5) ⟨1, 3⟩),
  (0x0A1140B6, .sx8 (.o 1) (.g 5) ⟨1, 3⟩),
  (0x0A1140B7, .sx16 (.o 1) (.g 5) ⟨1, 3⟩),
  (0x0A1140B8, .sx32 (.o 1) (.g 5) ⟨1, 3⟩),
  (0x0A1140B9, .zx8 (.o 1) (.g 5) ⟨1, 3⟩),
  (0x0A1140BA, .zx16 (.o 1) (.g 5) ⟨1, 3⟩),
  (0x0A1140BB, .zx32 (.o 1) (.g 5) ⟨1, 3⟩),
  (0x0A11544C, .sel (.o 1) (.g 5) (.g 20) 4),
  (0x0A1140BD, .abs (.o 1) (.g 5) ⟨1, 3⟩)]

theorem test_words_intb : Reads wordsIntb := by decide +kernel

/-- Words of DIVQ and REMQ, put together from the fields of Tables 4.2 and 4.4 to 4.7 (04 R63, R65). -/
def wordsDivides : List (Nat × Instr) := [
  (0x22115494, .div (.o 1) (.g 5) (.g 20) 9 4),
  (0x2211549C, .divn (.o 1) (.g 5) (.g 20) 9 4),
  (0x26115494, .rem (.o 1) (.g 5) (.g 20) 9 4),
  (0x2611549C, .remn (.o 1) (.g 5) (.g 20) 9 4)]

theorem test_words_divides : Reads wordsDivides := by decide +kernel

/-- Words of the I and U formats, put together from the fields of Tables 4.2 and 4.4 to 4.7 (04 R63, R65). -/
def wordsImmediates : List (Nat × Instr) := [
  (0x2A116A5C, .addi (.o 1) (.g 5) 0x2a5c),
  (0x2E116A5C, .andi (.o 1) (.g 5) 0x2a5c),
  (0x32116A5C, .ori (.o 1) (.g 5) 0x2a5c),
  (0x36116A5C, .xori (.o 1) (.g 5) 0x2a5c),
  (0x3A11402B, .shli (.o 1) (.g 5) 0x2b),
  (0x3E11402B, .shri (.o 1) (.g 5) 0x2b),
  (0x4211402B, .sari (.o 1) (.g 5) 0x2b),
  (0x46116A5C, .muli (.o 1) (.g 5) 0x2a5c),
  (0x48516A5C, .ceqi 5 (.g 5) 0x2a5c),
  (0x4C516A5C, .clti 5 (.g 5) 0x2a5c),
  (0x50516A5C, .cltni 5 (.g 5) 0x2a5c),
  (0x561A5C3D, .movh (.o 1) 0xa5c3d),
  (0x5A1A5C3D, .lpca (.o 1) 0xa5c3d)]

theorem test_words_immediates : Reads wordsImmediates := by decide +kernel

/-- Words of CMP and PRED, put together from the fields of Tables 4.2 and 4.4 to 4.7 (04 R63, R65). -/
def wordsCompares : List (Nat × Instr) := [
  (0x0C5154B0, .ceq 5 (.g 5) (.g 20) ⟨1, 3⟩),
  (0x0C5154B1, .cne 5 (.g 5) (.g 20) ⟨1, 3⟩),
  (0x0C5154B2, .clt 5 (.g 5) (.g 20) ⟨1, 3⟩),
  (0x0C5154B3, .cle 5 (.g 5) (.g 20) ⟨1, 3⟩),
  (0x0C5154B4, .cltn 5 (.g 5) (.g 20) ⟨1, 3⟩),
  (0x0C5154B5, .clen 5 (.g 5) (.g 20) ⟨1, 3⟩),
  (0x0C5154B6, .ctst 5 (.g 5) (.g 20) ⟨1, 3⟩),
  (0x105183B0, .pand 5 6 3 ⟨1, 3⟩),
  (0x105183B1, .por 5 6 3 ⟨1, 3⟩),
  (0x105183B2, .pxor 5 6 3 ⟨1, 3⟩),
  (0x105183B3, .pandn 5 6 3 ⟨1, 3⟩),
  (0x121000B4, .pget (.o 1) ⟨1, 3⟩),
  (0x100140B5, .pput (.g 5) ⟨1, 3⟩)]

theorem test_words_compares : Reads wordsCompares := by decide +kernel

/-- Words of FPS and FPX, put together from the fields of Tables 4.2 and 4.4 to 4.7 (04 R63, R65). -/
def wordsFloats : List (Nat × Instr) := [
  (0x161154B0, .fadd (.o 1) (.g 5) (.g 20) ⟨1, 3⟩),
  (0x161154B1, .fsub (.o 1) (.g 5) (.g 20) ⟨1, 3⟩),
  (0x161154B2, .fmul (.o 1) (.g 5) (.g 20) ⟨1, 3⟩),
  (0x143154B3, .ffma (.g 3) (.g 5) (.g 20) ⟨1, 3⟩),
  (0x161154B4, .fmin (.o 1) (.g 5) (.g 20) ⟨1, 3⟩),
  (0x161154B5, .fmax (.o 1) (.g 5) (.g 20) ⟨1, 3⟩),
  (0x16115EB6, .fcvt (.o 1) (.g 5) 7 2 ⟨1, 3⟩),
  (0x145154B7, .fceq 5 (.g 5) (.g 20) ⟨1, 3⟩),
  (0x145154B8, .fclt 5 (.g 5) (.g 20) ⟨1, 3⟩),
  (0x145154B9, .fcle 5 (.g 5) (.g 20) ⟨1, 3⟩),
  (0x14516ABA, .fcls 5 (.g 5) 0x2a ⟨1, 3⟩),
  (0x1E115494, .fdiv (.o 1) (.g 5) (.g 20) 9 4),
  (0x1E11409C, .fsqr (.o 1) (.g 5) 9 4)]

theorem test_words_floats : Reads wordsFloats := by decide +kernel

/-- Words of branches, CTRL and loops, put together from the fields of Tables 4.2 and 4.4 to 4.7 (04 R63, R65). -/
def wordsControl : List (Nat × Instr) := [
  (0x5DEA5A5B, .b 3 1 0x2a5a5b),
  (0x61EA5A5B, .bl 3 1 0x2a5a5b),
  (0x180140B0, .jr (.g 5) ⟨1, 3⟩),
  (0x1A1140B1, .jlr (.o 1) (.g 5) ⟨1, 3⟩),
  (0x18002AB2, .brk 0x2a ⟨1, 3⟩),
  (0x180154B3, .wjoin (.g 5) (.g 20) ⟨1, 3⟩),
  (0x180140B4, .wleave (.g 5) ⟨1, 3⟩),
  (0x180000B5, .wwork ⟨1, 3⟩),
  (0x180000B6, .wsafe ⟨1, 3⟩),
  (0x64026A5C, .loop (.g 9) 0x2a5c),
  (0x6AAF2A5C, .loopi 0xabc 0x2a5c)]

theorem test_words_control : Reads wordsControl := by decide +kernel

/-- Words of LD and LDA, put together from the fields of Tables 4.2 and 4.4 to 4.7 (04 R63, R65). -/
def wordsLoads : List (Nat × Instr) := [
  (0x6C655A60, .ld8s (.g 6) (.g 21) 1 2 9 4),
  (0x6C655A61, .ld8z (.g 6) (.g 21) 1 2 9 4),
  (0x6C655A62, .ld16s (.g 6) (.g 21) 1 2 9 4),
  (0x6C655A63, .ld16z (.g 6) (.g 21) 1 2 9 4),
  (0x6C655A64, .ld32s (.g 6) (.g 21) 1 2 9 4),
  (0x6C655A65, .ld32z (.g 6) (.g 21) 1 2 9 4),
  (0x6C655A66, .ld64 (.g 6) (.g 21) 1 2 9 4),
  (0x6C655A67, .ld128 (.g 6) (.g 21) 1 2 9 4),
  (0x70655263, .lda32 (.g 6) (.g 21) 1 9 4 3),
  (0x70655663, .lda64 (.g 6) (.g 21) 1 9 4 3)]

theorem test_words_loads : Reads wordsLoads := by decide +kernel

/-- Words of ST and STL, put together from the fields of Tables 4.2 and 4.4 to 4.7 (04 R63, R65). -/
def wordsStores : List (Nat × Instr) := [
  (0x74655A60, .st8 (.g 6) (.g 21) 1 2 9 4),
  (0x74655A61, .st16 (.g 6) (.g 21) 1 2 9 4),
  (0x74655A62, .st32 (.g 6) (.g 21) 1 2 9 4),
  (0x74655A63, .st64 (.g 6) (.g 21) 1 2 9 4),
  (0x74655A64, .st128 (.g 6) (.g 21) 1 2 9 4),
  (0x78655263, .stl32 (.g 6) (.g 21) 1 9 4 3),
  (0x78655663, .stl64 (.g 6) (.g 21) 1 9 4 3)]

theorem test_words_stores : Reads wordsStores := by decide +kernel

/-- Words of the A format, put together from the fields of Tables 4.2 and 4.4 to 4.7 (04 R63, R65). -/
def wordsAtomics : List (Nat × Instr) := [
  (0x7E11549B, .amoadd (.o 1) (.g 5) (.g 20) 9 11),
  (0x8211549B, .amoand (.o 1) (.g 5) (.g 20) 9 11),
  (0x8611549B, .amoor (.o 1) (.g 5) (.g 20) 9 11),
  (0x8A11549B, .amoxor (.o 1) (.g 5) (.g 20) 9 11),
  (0x8E11549B, .amomin (.o 1) (.g 5) (.g 20) 9 11),
  (0x9211549B, .amomax (.o 1) (.g 5) (.g 20) 9 11),
  (0x9611549B, .amominn (.o 1) (.g 5) (.g 20) 9 11),
  (0x9A11549B, .amomaxn (.o 1) (.g 5) (.g 20) 9 11),
  (0x9E11549B, .amoswp (.o 1) (.g 5) (.g 20) 9 11),
  (0xA211549B, .cas (.o 1) (.g 5) (.g 20) 9 11)]

theorem test_words_atomics : Reads wordsAtomics := by decide +kernel

/-- Words of ORD, MSG and XCP, put together from the fields of Tables 4.2 and 4.4 to 4.7 (04 R63, R65). -/
def wordsOrder : List (Nat × Instr) := [
  (0xA4000BB0, .fence 11 ⟨1, 3⟩),
  (0xA40003B1, .drain 3 ⟨1, 3⟩),
  (0xAB2140B0, .mroute (.q 2) (.g 5) ⟨1, 3⟩),
  (0xAA1C80B1, .mprobe (.o 1) (.q 2) ⟨1, 3⟩),
  (0xA80140B2, .migrate (.g 5) ⟨1, 3⟩),
  (0xAE114294, .xcopy (.o 1) (.g 5) 2 9 4),
  (0xAE11429C, .xred (.o 1) (.g 5) 2 9 4)]

theorem test_words_order : Reads wordsOrder := by decide +kernel

/-- Words of ENGA and ENGB, put together from the fields of Tables 4.2 and 4.4 to 4.7 (04 R63, R65). -/
def wordsEngines : List (Nat × Instr) := [
  (0xB3600E94, .lease (.f 2) 3 2 9 4),
  (0xB21DF09C, .erd (.o 1) (.f 3) 0x30 9 4),
  (0xB76000B0, .free (.f 2) ⟨1, 3⟩),
  (0xB7614DB1, .ewr (.f 2) (.g 5) 13 ⟨1, 3⟩),
  (0xB76145B2, .eguard (.f 2) (.g 5) 5 ⟨1, 3⟩),
  (0xB40185B3, .gres 6 5 ⟨1, 3⟩)]

theorem test_words_engines : Reads wordsEngines := by decide +kernel

/-- Words of MATA to MATC, put together from the fields of Tables 4.2 and 4.4 to 4.7 (04 R63, R65). -/
def wordsMatrix : List (Nat × Instr) := [
  (0xB9D92694, .mstep 1 13 (.o 4) (.o 6) 9 4),
  (0xB879269C, .mwld 7 (.o 4) (.o 6) 9 4),
  (0xBE792694, .mst 2 7 (.o 4) (.o 6) 9 4),
  (0xBCB0269C, .mrd 11 (.o 6) 9 4),
  (0xC00900B0, .mshape (.o 4) ⟨1, 3⟩),
  (0xC00900B1, .mfmt (.o 4) ⟨1, 3⟩),
  (0xC00000B2, .mwswp ⟨1, 3⟩),
  (0xC00000B3, .mring ⟨1, 3⟩),
  (0xC00900B4, .mclr (.o 4) ⟨1, 3⟩),
  (0xC00000B5, .mscl ⟨1, 3⟩),
  (0xC05900B6, .mbnd 5 (.o 4) ⟨1, 3⟩)]

theorem test_words_matrix : Reads wordsMatrix := by decide +kernel

/-- Words of VECA, put together from the fields of Tables 4.2 and 4.4 to 4.7 (04 R63, R65). -/
def wordsVeca : List (Nat × Instr) := [
  (0xC4E79EC0, .vadd 3 9 14 7 ⟨1, 3⟩),
  (0xC4E79EC1, .vsub 3 9 14 7 ⟨1, 3⟩),
  (0xC4E79EC2, .vmul 3 9 14 7 ⟨1, 3⟩),
  (0xC4E79EC3, .vfma 3 9 14 7 ⟨1, 3⟩),
  (0xC4E79EC4, .vmin 3 9 14 7 ⟨1, 3⟩),
  (0xC4E79EC5, .vmax 3 9 14 7 ⟨1, 3⟩),
  (0xC4E79EC6, .vsel 3 9 14 7 ⟨1, 3⟩),
  (0xC4E79EC7, .vcmpEq 3 9 14 7 ⟨1, 3⟩),
  (0xC4E79EC8, .vcmpLt 3 9 14 7 ⟨1, 3⟩),
  (0xC4E79EC9, .vcmpLe 3 9 14 7 ⟨1, 3⟩),
  (0xC4E79ECA, .vand 3 9 14 7 ⟨1, 3⟩),
  (0xC4E79ECB, .vor 3 9 14 7 ⟨1, 3⟩),
  (0xC4E79ECC, .vxor 3 9 14 7 ⟨1, 3⟩),
  (0xC4E79ECD, .vshl 3 9 14 7 ⟨1, 3⟩),
  (0xC4E79ECE, .vshr 3 9 14 7 ⟨1, 3⟩)]

theorem test_words_veca : Reads wordsVeca := by decide +kernel

/-- Words of VECB, put together from the fields of Tables 4.2 and 4.4 to 4.7 (04 R63, R65). -/
def wordsVecb : List (Nat × Instr) := [
  (0xC8E41EC0, .vabs 3 9 7 ⟨1, 3⟩),
  (0xC8E41EC1, .vneg 3 9 7 ⟨1, 3⟩),
  (0xC8E41EC2, .vmov 3 9 7 ⟨1, 3⟩),
  (0xC8E49EC3, .vcvt 3 9 2 7 ⟨1, 3⟩),
  (0xC8E406C4, .vrcp 3 9 1 ⟨1, 3⟩),
  (0xC8E406C5, .vrsq 3 9 1 ⟨1, 3⟩),
  (0xC8E406C6, .vexp 3 9 1 ⟨1, 3⟩),
  (0xC8E406C7, .vlog 3 9 1 ⟨1, 3⟩),
  (0xC8E792C8, .vqnt 3 9 14 4 ⟨1, 3⟩),
  (0xC8E786C9, .vdq 3 9 14 1 ⟨1, 3⟩)]

theorem test_words_vecb : Reads wordsVecb := by decide +kernel

/-- Words of VECC and VMEM, put together from the fields of Tables 4.2 and 4.4 to 4.7 (04 R63, R65). -/
def wordsVecc : List (Nat × Instr) := [
  (0xCC1402C0, .vshp 5 ⟨1, 3⟩),
  (0xCCE65AC1, .vred 3 9 2 1 6 ⟨1, 3⟩),
  (0xCCD41EC2, .vbc 3 5 7 ⟨1, 3⟩),
  (0xCCE41EC3, .vtr 3 9 7 ⟨1, 3⟩),
  (0xCCE55EC4, .vrot 3 9 5 7 ⟨1, 3⟩),
  (0xD0B90994, .vld 11 (.o 4) 2 1 9 4),
  (0xD0B9099C, .vst 11 (.o 4) 2 1 9 4)]

theorem test_words_vecc : Reads wordsVecc := by decide +kernel

/-- Words of SYSA and SYSB, put together from the fields of Tables 4.2 and 4.4 to 4.7 (04 R63, R65). -/
def wordsSystem : List (Nat × Instr) := [
  (0xD40A83B0, .trap 0xa83 ⟨1, 3⟩),
  (0xD40000B1, .eret ⟨1, 3⟩),
  (0xD61104B2, .sysr (.o 1) 0x104 ⟨1, 3⟩),
  (0xD44147B3, .sysw 4 (.g 5) 7 ⟨1, 3⟩),
  (0xD61154B4, .sysx (.o 1) (.g 5) (.g 20) ⟨1, 3⟩),
  (0xD40143B5, .tlbi (.g 5) 3 ⟨1, 3⟩),
  (0xD40000B6, .ckpt ⟨1, 3⟩),
  (0xD40000B7, .idle ⟨1, 3⟩),
  (0xD40000B8, .halt ⟨1, 3⟩),
  (0xD80140B0, .rot (.g 5) ⟨1, 3⟩),
  (0xD80140B1, .tins (.g 5) ⟨1, 3⟩),
  (0xD80140B2, .trem (.g 5) ⟨1, 3⟩),
  (0xD80154B3, .tspn (.g 5) (.g 20) ⟨1, 3⟩)]

theorem test_words_system : Reads wordsSystem := by decide +kernel

/-- Words the spec gives with their instructions (04 R65; 06 R107, R117; 07 R128; 08 R168; 10 R208; 20 R326; 22 R357). -/
theorem test_words_of_the_spec : Reads [
    (0x061A2900, .add (.o 1) (.l 0) (.l 1) ⟨0, 0⟩), (0x6C315496, .ld64 (.g 3) (.g 5) 1 1 2 2), (0x5DFFFFFB, .b 3 1 (-5)),
    (0x3030E789, .ori (.g 3) (.g 3) 0x2789), (0x68008003, .loopi 2 3), (0x74519083, .st64 (.g 5) (.g 6) 1 0 2 0),
    (0x70A04403, .lda64 (.g 10) (.g 1) 0 0 0 3), (0x0C154A04, .cltn 1 (.g 21) (.g 10) ⟨0, 0⟩), (0xAF824000, .xcopy .z (.g 9) 0 0 0),
    (0x043B3800, .add (.g 3) (.n 0) .z ⟨0, 0⟩), (0x18000006, .wsafe ⟨0, 0⟩)] := by decide +kernel

/-- The words of Table 22.1 that name no instruction. -/
theorem test_illegal_words : ∀ v ∈ [0x00000000, 0xDC000000, 0x0800000E, 0x18000007, 0x083105AC, 0x6C315007, 0x38310040,
    0x043F0500, 0xA4000000], decodeTableWord 32 v = none := by decide +kernel

/-- One term for each check of R350 that refuses it: a destination, a plain register, a pair, a type, a mode, a scope, a reserved
kind, path, number or field. -/
theorem test_ill_formed_terms : ∀ i ∈ [
    Instr.add (.l 0) .z .z always, .movh (.q 0) 0, .ffma .z .z .z always, .fcvt .z .z 4 0 always, .fcvt .z .z 11 0 always,
    .loop .z 0, .loop (.q 1) 1, .loopi 1 0, .ld64 .z .z 3 0 0 0, .ld64 (.q 0) .z 0 0 0 0, .ld128 (.g 1) .z 0 0 0 0,
    .lda32 .z .z 0 0 0 5, .st8 (.f 0) .z 0 0 0 0, .stl64 .z .z 0 0 0 7, .amoadd (.l 0) (.g 1) .z 0 0, .amoadd .z (.q 0) .z 0 0,
    .cas .z (.g 1) .z 0 0, .fence 0 always, .drain 5 always, .mroute (.g 0) .z always, .mprobe .z (.g 0) always,
    .xcopy (.q 0) (.g 1) 0 0 0, .lease (.q 0) 0 0 0 0, .erd .z (.f 0) 16 0 0, .free (.g 0) always, .ewr (.f 0) .z 16 always,
    .mstep 0 0 (.g 0) .z 0 0, .mwld 11 .z .z 0 0, .mwld 1 .z (.o 0) 0 0, .mst 0 11 .z .z 0 0, .mrd 0 (.g 0) 0 0,
    .vadd 0 0 0 4 always, .vshl 0 0 0 0 always, .vrcp 0 0 5 always, .vqnt 1 0 1 4 always, .vqnt 1 0 0 0 always,
    .vred 0 0 3 0 0 always, .vld 0 .z 0 3 0 0, .sysr .z 0xFFF always, .sysw 4 .z 0 always, .tlbi .z 4 always],
    ¬ WellFormed i ∧ (encode i).all (fun v => (decodeTableWord 32 v.toNat).isNone) = true := by decide +kernel

/-- In `s0` every instruction meets the checks of its issue, so that the hypotheses of the statements about it hold there, its
operands among them where they are registers (22 R353, R354). `wleave` does so in a wave, and a thread of a handler may `eret`. -/
theorem witness_plain_instructions : ∀ e ∈ wordsInta ++ wordsIntb ++ wordsDivides ++ wordsImmediates ++ wordsCompares ++
    wordsFloats ++ wordsLoads ++ wordsStores ++ wordsAtomics, meets s0 e.2 = true := by decide +kernel

theorem witness_other_instructions : ∀ e ∈ wordsOrder ++ wordsMatrix ++ wordsVeca ++ wordsVecb ++ wordsVecc ++
    wordsSystem ++ (wordsControl.filter fun e => !isWleave e.2), meets s0 e.2 = true := by decide +kernel

theorem witness_engine_instructions : ∀ e ∈ wordsEngines,
    (match instrMeta s0.cur.isMember e.2 with | some m => decide (s0.Issues e.2 m) | none => false) = true := by decide +kernel

theorem witness_wave_members : ∀ k ∈ [0, 2], meets (inWave k id) (.wleave (.g 20) ⟨1, 3⟩) = true ∧
    meets (inWave k id) (.wwork ⟨1, 3⟩) = true ∧ meets (inWave k id) (.jr (.g 20) ⟨1, 3⟩) = true ∧
    meets (inWave k id) (.add (.o 1) (.n 0) (.g 5) ⟨1, 3⟩) = true := by decide +kernel

/-- And each goes on there. -/
theorem test_every_instruction_goes_on : ∀ e ∈ wordsInta ++ wordsIntb ++ wordsDivides ++ wordsImmediates ++ wordsCompares ++
    wordsFloats ++ wordsControl ++ wordsLoads ++ wordsStores ++ wordsAtomics ++ wordsOrder ++ wordsEngines ++ wordsMatrix ++
    wordsVeca ++ wordsVecb ++ wordsVecc ++ wordsSystem, goesOn e.2 s0 = true := by decide +kernel

/-- What each instruction of a list writes to o1 in `s0`. -/
def o1 (ws : List (Nat × Instr)) : List Word := ws.map fun e => (after e.2 s0).cur.reg (.o 1)

/-- Table 6.2 with A = -7 and B = 3, worked by hand. -/
theorem test_binary_results : o1 wordsInta = [0xFFFFFFFFFFFFFFFC, 0xFFFFFFFFFFFFFFF6, 0x0000000000000001, 0xFFFFFFFFFFFFFFFB,
    0xFFFFFFFFFFFFFFFA, 0xFFFFFFFFFFFFFFF8, 0xFFFFFFFFFFFFFFC8, 0x1FFFFFFFFFFFFFFF, 0xFFFFFFFFFFFFFFFF, 0xFFFFFFFFFFFFFFCF,
    0xFFFFFFFFFFFFFFF9, 0x0000000000000003, 0x0000000000000003, 0xFFFFFFFFFFFFFFF9, 0xFFFFFFFFFFFFFFEB, 0xFFFFFFFFFFFFFFFF,
    0x0000000000000002] := by decide +kernel

/-- Table 6.3 with A = -7 and B = 3, the predicate of `sel` 1. -/
theorem test_unary_results : o1 wordsIntb = [0x0000000000000000, 0x0000000000000000, 0x000000000000003E, 0x9FFFFFFFFFFFFFFF,
    0xF9FFFFFFFFFFFFFF, 0xFFFFFFFFFFFFFFF9, 0xFFFFFFFFFFFFFFF9, 0xFFFFFFFFFFFFFFF9, 0x00000000000000F9, 0x000000000000FFF9,
    0x00000000FFFFFFF9, 0xFFFFFFFFFFFFFFF9, 0x0000000000000007] := by decide +kernel

/-- Table 6.4 and R107 with A = -7, the immediates 0x2A5C (negative where it is signed), 0x2B and 0xA5C3D. -/
theorem test_immediate_results : o1 (wordsImmediates.filter fun e => (predTarget e.2).isNone) = [0xFFFFFFFFFFFFEA55,
    0x0000000000002A58, 0xFFFFFFFFFFFFFFFD, 0xFFFFFFFFFFFFD5A5, 0xFFFFC80000000000, 0x00000000001FFFFF, 0xFFFFFFFFFFFFFFFF,
    0x000000000000977C, 0xFFFFFFFE970F4000, 0xFFFFFFFFFFE980F4] := by decide +kernel

/-- Counts of zeros, the magnitude of the least number, and a shift count of 64 + 3 (06 R103, R104). -/
theorem test_integer_corners :
    let s := sm fun x => { x with g := (x.g.set 5 (BitVec.ofNat 64 (2 ^ 63))).set 20 67 }
    (after (.abs (.o 1) (.g 5) always) s).cur.reg (.o 1) = BitVec.ofNat 64 (2 ^ 63) ∧
    (after (.ctz (.o 1) (.g 5) always) s).cur.reg (.o 1) = 63 ∧ (after (.clz (.o 1) .z always) s).cur.reg (.o 1) = 64 ∧
    (after (.shr (.o 1) (.g 5) (.g 20) always) s).cur.reg (.o 1) = BitVec.ofNat 64 (2 ^ 60) ∧
    (after (.mulhn (.o 1) (.g 5) (.g 20) always) s).cur.reg (.o 1) = 33 := by decide +kernel

/-- Relations of Table 6.5 between -7 and 3, in the order of the words: `ceq` to `ctst`, then those with the immediate 0x2A5C. -/
theorem test_compare_results : ((wordsCompares.take 7) ++ (wordsImmediates.filter fun e => (predTarget e.2).isSome)).map
    (fun e => (after e.2 s0).cur.pred 5) = [false, true, true, true, false, false, true, false, false, false] := by decide +kernel

/-- Table 6.6 with p6 = 0 and p3 = 1: `pand`, `por`, `pxor`, `pandn`; `pget` and `pput` (06 R109; 03 R50). -/
theorem test_predicate_results :
    let s := sm fun x => { x with p := 0x09 }
    ([.pand 5 6 3 always, .por 5 6 3 always, .pxor 5 3 6 always, .pandn 5 3 6 always].map fun i => (after i s).cur.pred 5) =
      [false, true, true, true] ∧
    (after (.pget (.o 1) always) s).cur.reg (.o 1) = 9 ∧ (after (.pput (.g 5) always) s).cur.p = 0xF9 ∧
    (after (.pput .z always) s).cur.preds = 1 ∧ (after (.ceq 0 .z (.g 5) always) s).cur.pred 0 = true := by decide +kernel

/-- Quotients and remainders of -7 by 3 and by 0, held until the divide is complete; the one that overflows (06 R105). -/
theorem test_divide_results :
    let job := fun (i : Instr) s => (after i s).cur.pend.map fun p => (p.job, p.due, p.la)
    let q := fun (d a b : Spec) s => [job (.div d a b 9 0) s, job (.rem d a b 9 0) s, job (.divn d a b 9 0) s, job (.remn d a b 9 0) s]
    q (.o 1) (.g 5) (.g 20) s0 = [[(.write (.o 1) (-2) 0, 36, 9)], [(.write (.o 1) (-1) 0, 36, 9)],
      [(.write (.o 1) 0x5555555555555553 0, 36, 9)], [(.write (.o 1) 0 0, 36, 9)]] ∧
    q (.o 1) (.g 5) .z s0 = [[(.write (.o 1) (-1) 0, 36, 9)], [(.write (.o 1) (-7) 0, 36, 9)],
      [(.write (.o 1) (-1) 0, 36, 9)], [(.write (.o 1) (-7) 0, 36, 9)]] ∧
    (q (.o 1) (.g 5) (.g 20) (sm fun x => { x with g := (x.g.set 5 (BitVec.ofNat 64 (2 ^ 63))).set 20 (-1) })).take 2 =
      [[(.write (.o 1) (BitVec.ofNat 64 (2 ^ 63)) 0, 36, 9)], [(.write (.o 1) 0 0, 36, 9)]] := by decide +kernel

/-- F32 results (06 R110 to R113): 1.5 and 2.25; an inexact sum; an overflow; NaN; a conversion of -2.5 to I8 by RNE and RZ. -/
theorem test_float_results :
    let s := sm fun x => { x with g := (((x.g.set 5 0x3FC00000).set 20 0x40100000).set 3 0xC0200000).set 4 0x7F7FFFFF }
    let f := fun (i : Instr) => let y := (after i s).cur
      (y.reg (.o 1), y.fstat)
    f (.fadd (.o 1) (.g 5) (.g 20) always) = (0x40700000, 0) ∧ f (.fsub (.o 1) (.g 5) (.g 20) always) = (0xBF400000, 0) ∧
    f (.fmul (.o 1) (.g 5) (.g 20) always) = (0x40580000, 0) ∧ (f (.fadd (.o 1) (.g 4) (.g 4) always)).1 = 0x7F800000 ∧
    (f (.fadd (.o 1) (.g 4) (.g 5) always)).1 = 0x7F7FFFFF ∧ f (.fmin (.o 1) (.g 5) (.g 3) always) = (0xC0200000, 0) ∧
    (f (.fcvt (.o 1) (.g 3) 6 0 always)).1 = 0xFFFFFFFFFFFFFFFE ∧ (after (.fclt 5 (.g 3) (.g 5) always) s).cur.pred 5 = true ∧
    (after (.fcls 5 (.g 3) 0x24 always) s).cur.pred 5 = true ∧ (after (.fcls 5 (.g 5) 0x24 always) s).cur.pred 5 = false := by
  decide +kernel

/-- What a step meets as it issues: a word that is fetched, one that names no instruction, an address that cannot be
fetched, and a wave member's word (O2). -/
theorem witness_steps :
    let start := fun (s : State) (w : Who) =>
      let s0 : State := { s with agenda := [] }
      { (s0.modSlot w fun x => { x with lastIssue := s0.now + 1 }) with focus := w }
    let turn := fun (s : State) (w : Who) => s.hasTurn w && s.canIssue w &&
      !((start s w).timerDue w && !((start s w).slot w).solo && !((start s w).slot w).inWave)
    let fetched := fun (s : State) (v : IWord) => turn s w0 && !((start s w0).slot w0).isMember &&
      match (start s w0).fetch w0 false with
      | .word u ps s2 => u == v && !s2.poisoned ps && !absent ps
      | _ => false
    let s := s0.withFetchWord 32 0x061A2900
    fetched s 0x061A2900 = true ∧ (match step s with | .next t => (t.slot w0).reg (.o 1) | _ => 0) = 33 ∧
    fetched (s0.withFetchWord 32 0x0800000E) 0x0800000E = true ∧
    (match step (s0.withFetchWord 32 0x0800000E) with | .next t => ((t.slot w0).pc, (t.slot w0).ecause) | _ => (0, 0)) = (0x8000, wd cIllegal) ∧
    (let s := sm fun x => { x with pc := capVa }
     turn s w0 = true ∧ (match (start s w0).fetch w0 false with | .trap _ _ => true | _ => false) = true) ∧
    (let s := { inWave 2 id with waves := [(0, ⟨0, none, 1, 0, 0, 4, 1, 0, [[⟨0x1000, 0x061A2900, true⟩]], none, 0, false, [], []⟩)] }
     turn s w0 = true ∧ ((((start s w0).slot w0).wave.bind fun q => ((start s w0).wave? q.id).bind fun v =>
       (v.stream.getD q.j [])[q.idx]?).bind fun e => decodeTableWord 32 e.word.toNat).isSome = true) := by decide +kernel

/-- A page that maps the PC (O2). -/
theorem witness_fetch : s0.cur.red = none ∧ s0.cur.pc.toNat < capVa ∧
    (s0.tile 0).tlb.find? (fun q => pageMaps q 1 s0.cur.pc.toNat) = some page ∧ page.x = true := by decide +kernel

/-- False guards, the checks made whatever a guard holds, and the waits for registers (O6). -/
theorem witness_issue_checks :
    let i : Instr := .add (.o 1) (.g 5) (.g 20) ⟨0, 3⟩
    let m := Meta.of ⟨0, 3⟩ [.g 5, .g 20] [.o 1]
    instrMeta false i = some m ∧ s0.Reaches i m ∧ s0.cur.guardHolds m.g = false ∧
    (sm (pending 0 0 (.write (.g 9) 1 0))).canIssue w0 = true ∧ (sm (pending 0 0 (.write (.g 9) 1 0))).cur.window m = .wait ∧
    (sm (pending 5 0 (.write (.g 5) 1 0))).canIssue w0 = true ∧ (sm (pending 5 0 (.write (.g 5) 1 0))).cur.window m = .bad 0x0FFC ∧
    (after i (sm (pending 5 0 (.write (.g 5) 1 0)))).cur.trapq.map (fun r => (r.cause, r.ev)) = [(cLookahead, 0x0FFC)] ∧
    (Meta.of always [.n 0, .z] [.o 1]).src.any isN = true ∧ s0.cur.window (Meta.of always [.n 0, .z] [.o 1]) = .free ∧
    (after (.wleave (.g 5) always) s0).cur.ecause = wd cWaveIllegal ∧
    (inWave 0 id).canIssue w0 = true ∧ (inWave 0 id).cur.inWave = true ∧ (inWave 0 id).cur.window (Meta.solo always [.g 5] [.o 1]) = .free ∧
    (let s := sm fun x => { x with scoreboard := [.g 5] }
     s.Reaches (.add (.o 1) (.g 5) (.g 20) always) (Meta.of always [.g 5, .g 20] [.o 1]) ∧
       s.cur.hazard (Meta.of always [.g 5, .g 20] [.o 1]) = some .scoreboard) ∧
    (let m : Meta := ⟨always, [], [], [1, 2], [3], true⟩
     let s := sm fun x => { x with vpend := [⟨0, [(2, 0, [])], [3], 1, 0, 0⟩] }
     s.Reaches (.vadd 3 1 2 0 always) m ∧ s.cur.hazard m = some .vector) := by decide +kernel

/-- A queue that holds words, one that is empty, and results into registers and z (O7). -/
theorem witness_operands : (∀ d ∈ [Spec.o 1, .z], d.isPlainDst = true ∧ isQF d = false) ∧ s0.cur.lq = [] ∧
    vget (sm fun x => { x with rbuf := vset x.rbuf 2 [7, 8] }).cur.rbuf 2 [] = [7, 8] ∧ vget s0.cur.rbuf 2 [] = [] ∧
    (got? ((sm fun x => { x with rbuf := vset x.rbuf 2 [7, 8] }).operands w0 [.q 2, .q 2] [])).map (fun r => r.1) = some [7, 7] := by
  decide +kernel

/-- The plain instructions with registers only (O11). -/
theorem witness_frames : s0.cur.wave = none ∧ ∀ e ∈ wordsInta ++ wordsIntb ++ wordsImmediates ++ wordsCompares,
    (plainScalar e.2 = true ∧ (match instrMeta false e.2 with | some m => m.src.all isOwn && m.dst.all isOwn && (m.dst.length == 1) | none => false) = true) ∨
    ((predTarget e.2).isSome = true ∧ (match instrMeta false e.2 with | some m => m.src.all isOwn | none => false) = true) ∨
    e.2 = .pput (.g 5) ⟨1, 3⟩ := by decide +kernel

/-- Floating-point operands: normal ones, and a subnormal one in a thread and in a wave (O12, O13). -/
theorem witness_floats :
    let s := sm fun x => { x with g := (x.g.set 5 0x3FC00000).set 20 0x40100000 }
    (∀ e ∈ wordsFloats, meets s e.2 = true) ∧ anySubnormal 0 [0x3FC00000, 0x40100000] = false ∧
    anySubnormal 0 [0x3FC00000, 3] = true ∧ s0.cur.inWave = false ∧
    meets (inWave 0 id) (.fadd (.o 1) (.g 5) (.g 20) always) = true ∧ (inWave 0 id).cur.inWave = true ∧
    (after (.fadd (.o 1) (.g 5) (.g 20) always) s0).cur.ecause = wd cAssist := by decide +kernel

/-- Divides whose cycles have passed (O13). -/
theorem witness_divide_completes : ∀ op ∈ [8, 9, 7],
    let s := sm (pending 3 (wd (op * 2 ^ 26)) (.write (.o 1) 5 2))
    (s.cur.ripe s.now 1).isSome = true ∧ s.landReady w0 1 [.o 1] = true ∧
    bits (wd (op * 2 ^ 26)).toNat 31 26 = op ∧
    (let t := after (if op = 7 then .fdivFsqrComplete w0 1 else .divideComplete w0 1) s
     t.cur.reg (.o 1) = 5 ∧ vget t.cur.l 0 0 = 5 ∧ t.cur.fstat = 2 ∧ t.cur.pend = []) := by decide +kernel

/-- The five cases of the loop-end decision, and an instruction that `eret` executes alone (O14). -/
theorem witness_loop_ends :
    let x := { x0 with ls0 := 0x100, le0 := 0x200, ls1 := 0x180, le1 := 0x200 }
    [{ x with lc0 := 2, lc1 := 3 }, { x with lc0 := 2, lc1 := 1 }, { x with lc0 := 1, lc1 := 1 }, { x with lc0 := 2, lc1 := 0 },
      { x with lc0 := 1, lc1 := 0 }, { x with lc0 := 0, lc1 := 1 }, x].map (fun x => let r := x.loopEnd 0x200
        (r.2, r.1.lc0, r.1.lc1)) =
      [(0x180, 2, 2), (0x100, 1, 0), (0x204, 0, 0), (0x100, 1, 0), (0x204, 0, 0), (0x204, 0, 0), (0x204, 0, 0)] ∧
    (sm fun x => { x with solo := true }).cur.wave = none ∧
    (after (.add .z .z .z always) (sm fun x => { x with solo := true, enext := 0x4000 })).cur.pc = 0x4000 := by decide +kernel

/-- Loops of count 0, at level 0, inside it, and where no level is free (O14). -/
theorem witness_loops_open :
    let f := fun (i : Instr) (f : Slot → Slot) => let s := sm f
      (meets s i, (after i s).cur.pc, (after i s).cur.lc0, (after i s).cur.lc1)
    let one := fun x : Slot => { x with lc0 := 5, le0 := 0x2000 }
    f (.loopi 0 4) id = (true, 0x1014, 0, 0) ∧ f (.loopi 7 4) id = (true, 0x1004, 7, 0) ∧
    f (.loop (.g 20) 4) one = (true, 0x1004, 5, 3) ∧ f (.loop (.g 20) 4) (fun x => { one x with le0 := 0x1008 }) = (true, 0x8000, 5, 0) := by
  decide +kernel

/-- Jumps to an address that is aligned and one that is not, and a member that only passes (O15); a breakpoint under either guard
(O16). -/
theorem witness_jumps_and_breaks :
    let s := sm fun x => { x with g := x.g.set 5 0x2000 }
    (∀ i ∈ [Instr.jr (.g 5) always, .jlr (.g 7) (.g 5) always, .b 0 0 3, .bl 0 0 3], meets s i = true) ∧
    (after (.jlr (.g 7) (.g 5) always) s).cur.pc = 0x2000 ∧ (after (.jlr (.g 7) (.g 5) always) s).cur.reg (.g 7) = 0x1004 ∧
    (after (.bl 0 0 3) s).cur.pc = 0x100C ∧ (after (.bl 0 0 3) s).cur.reg (.g 15) = 0x1004 ∧
    (after (.jlr (.g 7) (.g 20) always) s).cur.ecause = wd cFetchAlign ∧ (after (.jlr (.g 7) (.g 20) always) s).cur.reg (.g 7) = 0 ∧
    (inWave 2 id).cur.isMember = true ∧ meets (inWave 2 id) (.b 0 0 3) = true ∧
    meets s0 (.brk 42 ⟨1, 3⟩) = true ∧ s0.Reaches (.brk 42 ⟨0, 3⟩) (Meta.solo ⟨0, 3⟩ [] []) ∧ s0.cur.guardHolds ⟨0, 3⟩ = false ∧
    (after (.brk 42 ⟨1, 3⟩) s0).cur.epc = 0x1004 ∧ (after (.brk 42 ⟨1, 3⟩) s0).cur.eval = 42 := by decide +kernel

/-- Threads that a cause takes to their handler or freezes, and causes that wait for earlier instructions (O17). -/
theorem witness_traps :
    let x := s0.cur
    x.wave = none ∧ x.pend = [] ∧ x.vpend = [] ∧ x.trapq = [] ∧ x.solo = false ∧ x.tvec ≠ 0 ∧ x.tm = false ∧
    causeFreezes cIllegal = false ∧ meets s0 (.trap 0x41 always) = true ∧
    (sm fun x => { x with tvec := 0 }).cur.tvec = 0 ∧ (sm fun x => { x with estat := 1 }).cur.tm = true ∧
    (s0.tile 0).still = false ∧
    (∀ q ∈ [5, 1], let s := sm fun x => { x with iseq := q, trapq := [⟨5, 0x800, cAlign, 1, true, 2, 3, false⟩], st := .wait, why := .trap }
      (after (.trapEntry w0) s).cur.pc = 0x8000) ∧
    (let s := sm fun x => { pending 3 0 (.write (.o 1) 5 0) x with trapq := [⟨5, 0x800, cAlign, 1, true, 2, 3, false⟩] }
     s.cur.pend ≠ [] ∧ (after (.trapEntry w0) s).cur.pc = 0x1000) := by decide +kernel

/-- `eret` outside a handler and in one, with RE 0 and 1 (O18); timer traps held and taken (O19). -/
theorem witness_returns_and_timers :
    meets s0 (.eret always) = true ∧ s0.cur.tm = false ∧
    (∀ re ∈ [false, true], let s := sm fun x => { x with estat := 1, ecause := causeWord 5 re, epc := 0x3000, enext := 0x3010 }
      meets s (.eret always) = true ∧ s.cur.tm = true ∧ (after (.eret always) s).cur.pc = 0x3000 ∧
      (after (.eret always) s).cur.solo = re) ∧
    s0.cur.tctl.getLsbD 0 = false ∧
    (let s := sm fun x => { x with tctl := 1, tmr := 0 }
     s.canIssue w0 = true ∧ s.cur.tctl.getLsbD 0 = true ∧ s.cur.tmr.toNat ≤ (s.cyc 0).toNat ∧ s.cur.outReq = false ∧
     (after (.timerTrap w0) s).cur.tctl = 2 ∧ (after (.timerTrap w0) s).cur.epc = 0x1000) ∧
    (let s := sm fun x => { x with tctl := 1, tmr := 9 }
     (s.cyc 0).toNat < s.cur.tmr.toNat) := by decide +kernel

/-- A run that can be claimed, one of length 0, one past the longest, and the commit (O20). -/
theorem witness_waves :
    let s := sm fun x => { x with g := x.g.set 5 4 }
    let j : Instr := .wjoin (.g 5) .z always
    meets s j = true ∧ s.joinRefusal w0 4 1 none = none ∧ (s.tile 0).positions 0 = [0] ∧ s.cur.settledCopies = true ∧
    (after j s).cur.why = .claim ∧ (after j s).cur.waitUntil = some 60 ∧ (after j s).joinRefusal w0 4 1 (some w0) = none ∧
    (after (.wjoin .z .z always) s).cur.ecause = wd cWaveJoin ∧ s.joinRefusal w0 49 1 none = some 0 ∧ s.joinRefusal w0 48 1 none = none ∧
    (let t := after (.wjoinCommit w0) (after j s)
     t.cur.wave = some ⟨0, 0, 0, 0, none⟩ ∧ (t.slot ⟨3, 0⟩).st = .member ∧ (t.slot ⟨3, 0⟩).reg (.g 5) = 4 ∧ (t.slot ⟨4, 0⟩).st = .idle) := by
  decide +kernel

/-- Members that leave, threads that end, and safe points without and with a spare tile (O21). -/
theorem witness_endings :
    let s := inWave 2 fun x => { x with wave := some ⟨0, 2, 0, 0, some 0⟩ }
    s.cur.wave = some ⟨0, 2, 0, 0, some 0⟩ ∧ (s.wave? 0).isSome = true ∧ s.cur.isMember = true ∧
    (after (.add .z .z .z always) s).cur.st = .idle ∧ (after (.wwork always) s0).cur.st = .idle ∧ s0.cur.settledCopies = true ∧
    (inWave 2 id).headTook ⟨0, 2, 0, 0, none⟩ = true ∧ (after (.wwork always) (inWave 0 id)).cur.st = .idle ∧
    s0.cur.notice = false ∧ meets s0 (.wsafe always) = true ∧
    (let s := sm fun x => { x with notice := true, pers := true }
     s.cur.settledCopies = true ∧ (s.tile 0).move = none ∧ (s.coolSpare (s.phys 0 / 64)).isSome = true ∧
     (after (.wsafe always) s).cur.why = .move ∧
     (let s := { s with ptiles := (List.range 64).map fun n => (n, { PTile.cold n with role := .serving }) }
      s.coolSpare (s.phys 0 / 64) = none ∧ (after (.wsafe always) s).cur.pc = 0x1004)) := by decide +kernel

/-- A subnormal operand in the other floating-point instructions, a conversion by the type of its source among them (O12). -/
theorem witness_subnormals : ∀ i ∈ [Instr.fcvt (.o 1) (.g 20) 1 0 always, .fcvt (.o 1) (.g 20) 0 0 always, .ffma (.o 1) (.g 5) (.g 20) always,
      .fdiv (.o 1) (.g 20) (.g 5) 9 0, .fsqr (.o 1) (.g 20) 9 0, .fceq 5 (.g 5) (.g 20) always, .fclt 0 (.g 20) (.g 5) always, .fcle 3 (.g 5) (.g 20) always],
    meets s0 i = true ∧ (after i s0).cur.ecause = wd cAssist := by decide +kernel

/-- Accesses that open: by address mode 1 and 0, in a wave, and their traps: mode 3, out of range, misaligned (O22). -/
theorem witness_accesses_issue :
    let go := fun (s : State) am n need => (opened? (s.openAcc w0 0 ⟨am, addrOf (s.cur.reg (.g 21)), n, 1, 0, 0, [], false⟩ n need)).isSome
    go (at_ 0x100) 1 8 .read = true ∧ go (at_ 0x100) 0 8 .read = true ∧ go (at_ 0x100) 1 4 .write = true ∧
    go { inWave 0 id with now := 0 } 1 8 .read = true ∧ (inWave 0 id).cur.inWave = true ∧
    (∀ e ∈ wordsLoads ++ wordsStores ++ wordsAtomics, meets (at_ 0x100) e.2 = true) ∧
    (after (.ld64 (.g 6) (.g 21) 1 0 9 0) (at_ 0x100)).cur.pend.map (fun p => (p.due, p.la)) = [(8, 9)] ∧
    (after (.st64 (.g 6) (.g 21) 1 0 9 0) (at_ 0x100)).cur.pend.map (fun p => (p.due, p.la)) = [(6, 9)] ∧
    (after (.amoadd (.o 1) (.g 5) (.g 20) 9 0) (at_ 0x100)).cur.pend.length = 1 ∧
    ([(.ld64 (.g 6) (.g 21) 1 0 9 0, 0x104), (.st64 (.g 6) (.g 21) 1 0 9 0, 0x104), (.ld64 (.g 6) (.g 21) 1 0 9 0, 0x600000)] :
      List (Instr × Word)).map (fun e => (after e.1 (at_ e.2)).cur.ecause.toNat) = [cAlign, cAlign, cRange] ∧
    s0.inRange 0 1 [(0x100, 8)] = true ∧ s0.inRange 0 1 [(0x600000, 8)] = false ∧ s0.cur.red = none := by decide +kernel

/-- Bytes -128 and 0x88 to 0x11 in the scratchpad at 0x100 and 0x108. -/
def sPad : State := withPad 0x108 0x1122334455667788 (withPad 0x100 0xFFFFFFFFFFFFFF80 (at_ 0x4000000000000100))

/-- Whether the first pending load or atomic of the thread is complete once its parts are read. -/
def served (s : State) : Bool :=
  match s.cur.pend with
  | p :: _ => decide (s.cur.ripe s.now p.seq = some p) &&
    match p.job.reads with
    | some (a, need) =>
      match s.serveAcc w0 p a need none .sound with
      | .perform q _ t => decide (q.due ≤ t.now) && q.performed
      | _ => false
    | none => false
  | [] => false

/-- Whether nothing holds the first part of the thread's first pending load back. -/
def readable (s : State) : Bool :=
  match s.cur.pend with
  | p :: _ => match p.job.acc?.bind fun a => a.parts.head?.map fun q => (a, q) with
    | some (a, q) => decide (a.pieces.length = a.parts.length) && !s.cur.pendHolds p.seq [] [q] true (fun _ => false) && !s.hidden (p.party s.cur w0) [q] &&
      !s.portHolds 0 p.stamp && !s.podHolds 0 p.stamp q && !((hbmLines [q]).any fun l => s.sharerHeld 0 l.1 (64 * l.2) 0) && p.got.isEmpty
    | none => false
  | [] => false

/-- Loads, a pair among them, and atomics that may be performed, with what they leave in their destination and in memory (O23). -/
theorem witness_loads_complete :
    let run := fun (i : Instr) => later 1000 (after i sPad)
    let load := fun (i : Instr) => after (.loadComplete w0 1 .sound) (run i)
    readable (run (.ld64 (.g 6) (.g 21) 1 0 9 0)) = true ∧ sPad.cur.red = none ∧ sPad.stores = [] ∧
    served (run (.ld64 (.g 6) (.g 21) 1 0 9 0)) = true ∧ (load (.ld64 (.g 6) (.g 21) 1 0 9 0)).cur.reg (.g 6) = 0xFFFFFFFFFFFFFF80 ∧
    (load (.ld8s (.g 6) (.g 21) 1 0 9 0)).cur.reg (.g 6) = 0xFFFFFFFFFFFFFF80 ∧ (load (.ld16z (.g 6) (.g 21) 1 0 9 0)).cur.reg (.g 6) = 0xFF80 ∧
    (load (.ld128 (.g 6) (.g 21) 1 0 9 0)).cur.reg (.g 7) = 0x1122334455667788 ∧
    (let s := run (.amoadd (.o 1) (.g 5) (.g 20) 9 0)
     arrives s .write = true ∧ served s = true ∧ s.landReady w0 1 [.o 1] = true ∧ s.clusters.all (fun c => c.2.comb.isEmpty) = true ∧
     (s.cur.pend.map fun p => (p.job.acc?.map fun a => ((s.farHeld 0 a.parts).1, s.amoReady w0 p a.parts []))) = [some (false, true)]) ∧
    (⟨.spad 0 0x100, 8, .home⟩ : Machine.Part).isShadow = false ∧
    ([.amoadd (.o 1) (.g 5) (.g 20) 9 0, .amoand (.o 1) (.g 5) (.g 20) 9 0, .amoor (.o 1) (.g 5) (.g 20) 9 0,
      .amoxor (.o 1) (.g 5) (.g 20) 9 0, .amomin (.o 1) (.g 5) (.g 20) 9 0, .amomax (.o 1) (.g 5) (.g 20) 9 0,
      .amominn (.o 1) (.g 5) (.g 20) 9 0, .amomaxn (.o 1) (.g 5) (.g 20) 9 0, .amoswp (.o 1) (.g 5) (.g 20) 9 0,
      .cas (.o 1) (.g 5) (.g 20) 9 0] : List Instr).map (fun i => sval (leNat ((load i).getParts [⟨.spad 0 0x100, 8, .home⟩])) 64) =
      [-125, 0, -125, -125, -128, 3, 3, -128, 3, -128] ∧
    (load (.amoadd (.o 1) (.g 5) (.g 20) 9 0)).cur.reg (.o 1) = 0xFFFFFFFFFFFFFF80 := by decide +kernel

/-- Two fetch-and-adds carried by one request: the first gets the old value, the second that and the first operand (O23). -/
theorem witness_adds_combine :
    let s := ((s0.modSlot w0 (pending 9 0 (.write (.g 9) 1 0))).modSlot w0 fun x => { x with thr := 5 }).setSlot ⟨1, 0⟩ { pending 9 0 (.write (.g 9) 1 0) x0 with thr := 6 }
    let s := s.modClu 0 fun c => { c with comb := [⟨3, 0, (5, 1), (6, 1), [], ⟨6, some 1, 1⟩, 3⟩] }
    let t := s.splitReply 0 (5, 1) 40
    (s.clu 0).comb = [⟨3, 0, (5, 1), (6, 1), [], ⟨6, some 1, 1⟩, 3⟩] ∧ (t.clu 0).comb = [] ∧
    [w0, ⟨1, 0⟩].map (fun w => (t.slot w).pend.map fun p => leNat (p.bytes 1)) = [[40], [43]] := by decide +kernel

/-- A store of the tile before the first store of its thread has been performed: bytes of HBM that wait. -/
def stored (id seq : Nat) (after : List (Nat × Nat)) (v : Word) : Stored :=
  { id := id, party := ⟨5, some 0, 0⟩, seq := seq, stamp := 0, part := ⟨.hbm (0x300 + 8 * id), 8, .home⟩, data := leBytes 8 v.toNat, rd := 0, ctx := 1
    task := none, after := after, due := 0 }

/-- Stores that no bound covers, that one clamps, and that one stops (O24): LO -8, HI 8 in integers over 0x100 to 0x1FF; and one whose
bytes wait. -/
theorem witness_stores_complete :
    let bound := fun (act : Nat) => at_ 0x100 |>.modMx 0 fun m => { m with bnd := vset m.bnd 0 ⟨0x100, 0x100, 0x00000008FFFFFFF8, wd (0x14 + act)⟩ }
    let run := fun (s : State) => later 1000 (after (.st32 (.g 6) (.g 21) 1 0 9 0) s)
    let done := fun (s : State) => after (.storeComplete w0 1) (run s)
    let kept := fun (s : State) => leNat (s.getParts [⟨.spad 0 0x100, 8, .home⟩])
    arrives (run (at_ 0x100)) .write = true ∧ arrives (run (bound 3)) .write = true ∧
    (let s := run (at_ 0x100)
     s.cur.pend.length = 1 ∧ (s.cur.pend.map fun p => (decide (p.due ≤ s.now), s.portHolds 0 p.stamp)) = [(true, false)] ∧
     s.writeReady ⟨s.cur.thr, some 0, 0⟩ 1 (s.cur.follows 1 none) [⟨.spad 0 0x100, 4, .home⟩] = true) ∧
    kept (done (at_ 0x100)) = 0xABCD ∧ kept (done (bound 1)) = 0xABCD ∧ kept (done (bound 2)) = 8 ∧ kept (done (bound 3)) = 0 ∧
    (done (bound 3)).cur.trapq.map (fun r => (r.cause, r.ev)) = [(cBound, evalAddr 1 0x100)] ∧
    (let s := after (.storeComplete w0 1) (later 1000 (after (.st64 (.g 6) (.g 21) 0 0 9 0) (at_ 0x300)))
     let e := stored 0 1 [] 7
     let s' := { s0 with stores := [e] }
     s.stores.map (fun e => (e.part, leNat e.data)) = [(⟨.hbm 0x300, 8, .home⟩, 0xABCD)] ∧ leNat (s.getParts [⟨.hbm 0x300, 8, .home⟩]) = 0 ∧
     s.cur.pend = [] ∧ s'.stores.find? (fun q => q.id == 0) = some e ∧ (s'.farHeld 0 [e.part]).1 = false ∧
     s'.writeReady e.party 1 [] [e.part] = true ∧ s'.podHolds 0 0 e.part = false ∧ farTiles 0 [e.part] = [] ∧
     s'.writeHeld [e.part] = false ∧ leNat ((s'.performStored 0).getParts [e.part]) = 7) := by decide +kernel

/-- A store that follows another at cluster scope and is performed first: a thread of the cluster does not read it yet, one of another
cluster does (O26). -/
theorem witness_narrow_release :
    let g := stored 0 1 [] 7
    let e := stored 1 3 [(2, 1)] 8
    let s := { s0 with stores := [g, e] }
    let t := s.performStored 1
    s.stores.find? (fun k => k.id == 1) = some e ∧ (s.farHeld 0 [e.part]).1 = false ∧ t ≠ s ∧
    e.party.shares ⟨6, some 1, 1⟩ 1 = true ∧ t.hidden ⟨6, some 1, 1⟩ [e.part] = true ∧
    e.party.shares ⟨6, some 47, 3071⟩ 1 = false ∧ t.hidden ⟨6, some 47, 3071⟩ [e.part] = false := by decide +kernel

/-- An access of stack 24, which the module does not have (O25). -/
theorem witness_absent_stack :
    let s := { at_ 0x100 with pages := [{ page with pa := 24 * 2 ^ 36 }] }
    let s := s.modTile 0 fun t => { t with tlb := [{ page with pa := 24 * 2 ^ 36 }] }
    (∀ i ∈ [Instr.ld64 (.g 6) (.g 21) 0 0 9 0, .amoadd (.o 1) (.g 5) (.g 20) 9 0],
      (match exec (.loadComplete w0 1 .sound) (later 9999 (after i s)) with | .fault f => f == .absentStack | _ => false) = true) ∧
    (match exec (.storeComplete w0 1) (later 9999 (after (.st64 (.g 6) (.g 21) 0 0 9 0) s)) with
      | .fault f => f == .absentStack | _ => false) = true := by decide +kernel

/-- Loads behind an acquire and behind a load of the same bytes, a store behind an acquire and behind one of its place, an atomic
behind a store, and the waits of fences and drains (O26). -/
theorem witness_orders :
    let two := fun (i j : Instr) => later 1000 (after j (after i (at_ 0x100)))
    let held := fun (i j : Instr) => let s := two i j
      match s.cur.pend with
      | [_, q] => (match q.job.acc? with
        | some a => decide (a.parts.length = 1) && decide (s.servePart w0 q a 0 0 = s)
        | none => false)
      | _ => false
    held (.lda64 (.g 7) (.g 21) 1 9 0 0) (.ld64 (.o 1) (.g 5) 1 0 9 0) = true ∧
    held (.ld64 (.g 7) (.g 21) 1 0 9 0) (.ld64 (.o 1) (.g 5) 1 0 9 0) = true ∧
    (let s := two (.lda64 (.g 7) (.g 21) 1 9 0 0) (.st64 (.g 6) (.g 5) 1 0 9 0)
     s.threadOf s.cur.thr = s.cur ∧ s.cur.pend.length = 2 ∧ (s.cur.pend.any fun e => e.job.acquires && !e.performed && e.seq == 1) = true ∧
     s.writeReady ⟨s.cur.thr, some 0, 0⟩ 2 [] [⟨.spad 0 0x100, 8, .home⟩] = false) ∧
    (let s := { s0 with stores := [stored 0 1 [] 7, stored 1 3 [(2, 3)] 8] }
     s.writeReady ⟨5, some 0, 0⟩ 2 [] [⟨.hbm 0x300, 8, .home⟩] = false ∧ s.writeReady ⟨5, some 0, 0⟩ 3 [(2, 3)] [⟨.hbm 0x308, 8, .home⟩] = false ∧ s.performStored 1 = s) ∧
    ((sm fun x => { x with fences := [(2, 3)] }).cur.follows 5 none) = [(2, 3)] ∧
    (∀ os ∈ [1, 5, 6, 10, 11, 15], meets s0 (.fence (BitVec.ofNat 4 os) always) = true) ∧
    (∀ os ∈ [1, 5, 11, 15], (after (.fence (BitVec.ofNat 4 os) always) (later 9 (after (.ld64 (.o 1) (.g 21) 1 0 9 0) (at_ 0x100)))).cur.why = .fence) ∧
    (∀ os ∈ [6, 10], (after (.fence (BitVec.ofNat 4 os) always) (after (.ld64 (.o 1) (.g 21) 1 0 9 0) (at_ 0x100))).cur.fences =
      [(2, osScope os)]) ∧
    meets s0 (.drain 1 always) = true ∧ (after (.drain 1 always) s0).cur.pc = 0x1004 ∧
    (let s := (after (.xcopy (.g 9) (.g 5) 0 0 0) (at_ 0x100)).acceptChain w0 1
     meets s (.drain 1 always) = true ∧ (after (.drain 1 always) s).cur.why = .drain) := by decide +kernel

/-- A walk that two tiles wait on (O27). -/
theorem witness_walk :
    let s := later 240 (s0.modSlab 0 fun b => { b with walks := [⟨1, 0, [0, 5], false, 240⟩] })
    (s.slab 0).walks[0]? = some ⟨1, 0, [0, 5], false, 240⟩ ∧ (s.slab 0).waitWalks = [] ∧ s.pageOf 1 0 = some page ∧ (s.slab 0).lltlb.length < 4096 ∧
    ((after (.tlbWalkComplete 0 0 none) s).tile 5).tlb = [page] ∧ ((after (.tlbWalkComplete 0 0 none) s).slab 0).lltlb = [page] ∧
    (s.ctxOf 1).isOpen = true ∧ { s with pages := [] }.pageOf 1 0 = none ∧
    (let t := after (.tlbWalkComplete 0 0 (some 0x100)) s
     (t.tile 5).tlb = [] ∧ (t.slab 0).lltlb = [] ∧ (t.ctxOf 1).dying = true ∧ t.quarantine = [0] ∧ t.pages = []) := by
  decide +kernel

/-- A send over a route, and words delivered, held, spilled and spoiled (O28). -/
theorem witness_messages :
    let r : Word := 0x2400200000000001   -- one thread, ACK, dq 1, slot 2 of tile x = 1
    let s := sm fun x => { x with routes := vset x.routes 2 (some r), g := x.g.set 20 r }
    let rx := fun (f : Slot → Slot) => later 100 ((s.setSlot ⟨1, 2⟩ (f { x0 with task := some 1 })))
    let go := fun (f : Slot → Slot) => after (.add (.q 2) (.g 5) .z always) (rx f)
    let del := fun (f : Slot → Slot) => after (.messageDeliver 0) (later 100 (go f))
    meets s (.mroute (.q 2) (.g 20) always) = true ∧ meets s (.mprobe (.o 1) (.q 2) always) = true ∧
    (sm fun x => { x with red := some (0, 0) }).cur.red.isSome = true ∧
    vget s.cur.routes 2 none = some r ∧ (routeOf r).kind = 0 ∧ (routeOf r).ack = true ∧ (routeOf r).dq = 1 ∧
    (go id).msgs.map (fun m => (m.tile, m.slot, m.dq, m.data.toInt, m.ack)) = [(1, 2, 1, -7, true)] ∧
    ((later 100 (go id)).arrived 0 false).isSome = true ∧ (later 100 (go id)).tileHeld 1 = false ∧
    vget ((del id).slot ⟨1, 2⟩).rbuf 1 [] = [-7] ∧
    ((del fun x => { x with rbuf := vset x.rbuf 1 (List.replicate 8 1) }).tile 1).held.length = 1 ∧
    ((del fun x => { x with gen := 9 }).tile 1).spoilc = 1 ∧ (del fun x => { x with gen := 9 }).acks.map (fun a => (a.delivered, a.q)) = [(false, 2)] ∧
    (let t := after (.sendAckReceive 0) (later 100 (del id))
     (del id).acks.map (fun a => a.delivered) = [true] ∧ t.acks = [] ∧ vget t.cur.qstat 2 ⟨0, 0, 0⟩ = ⟨0, 1, 0⟩) ∧
    (let t := (del fun x => { x with rbuf := vset x.rbuf 1 (List.replicate 8 1) }).modSlot ⟨1, 2⟩ fun x => { x with rbuf := vset x.rbuf 1 [1] }
     vget ((after (.heldWordEnter 1 0) t).slot ⟨1, 2⟩).rbuf 1 [] = [1, -7]) := by decide +kernel

/-- A scale word for the FIFO of a tile, and a word for a thread that has been spilled (O28). -/
theorem witness_scale_and_spilled :
    let m : Msg := ⟨0, some w0, 0, 2, 1, true, 0, 0, true, 0, 1, 7, false, 0, 0, 1, 0⟩
    let s := { s0 with msgs := [m] }
    s.arrived 0 true = some m ∧ s.tileHeld 1 = false ∧ (s.tile 1).vacant = false ∧ (s.tile 1).mx.takesScale 1 = true ∧
    ((after (.scaleWordDeliver 0) s).tile 1).mx.fifo = [7] ∧
    (let m : Msg := { m with scale := false, slot := 2, dq := 1 }
     let s := { s0 with msgs := [m] }.modTile 1 fun t => { t with spilled := [(2, { x0 with st := .out })] }
     s.arrived 0 false = some m ∧ s.passes m = false ∧ s.spilledFor m = true ∧ ((after (.messageDeliver 0) s).tile 1).ring.length = 1) := by
  decide +kernel

/-- A migration to tile x = 1 of the cluster, its arrival, and the slot it is put into (O29). -/
theorem witness_migration :
    let s := sm fun x => { x with g := x.g.set 5 0x4000000400400000 }
    let t := after (.migrate (.g 5) always) s
    let u := after (.migrateArrive 0) (later 9999 t)
    meets s (.migrate (.g 5) always) = true ∧ s.cur.leases = 0 ∧ s.cur.settledCopies = true ∧ s.cur.solo = false ∧
    (match s.migrateTo w0 0x4000000400400000 with | (.ok (some u), t) => u == 1 && decide (t = s) | _ => false) = true ∧
    t.migs.map (fun m => (m.tile, m.pc, m.g.getD 5 0)) = [(1, 0x1004, 0x4000000400400000)] ∧ t.cur.st = .idle ∧
    (u.tile 1).runq.length = 1 ∧ u.openSlot ⟨1, 0⟩ = true ∧
    (let z := (after (.slotOffer ⟨1, 0⟩) u).slot ⟨1, 0⟩
     z.gen = 1 ∧ z.pc = 0x1004 ∧ z.reg (.g 5) = 0x4000000400400000 ∧ z.reg (.g 20) = 0) := by decide +kernel

/-- A chain of channel 1 of tile 0 whose one record, at 0x200, takes 8 bytes from 0x300 to 0x400. -/
def chain : Chain :=
  { id := 0, d := .g 9, who := w0, gen := 0, ctx := 1, task := none, sum := false, red := none, cur := 0x200, n := 0, flags := 0, pt := 0
    last := 0, reading := none, recs := [], ending := none }
def rec0 : Rec := ⟨0x200, [0, 0x300, 0x400, 0x8000000000000008], 8, [], none⟩
def burst : Burst := ⟨0, 8, [⟨.hbm 0x300, 8, .home⟩], [], none, 0, 0, 0, none⟩

/-- The state once a walk of slab 0 for a unit has found no entry for an address of context 1. -/
def unmapped (va : Nat) (s : State) : State := s.modSlab 0 fun b => { b with walkFails := [(1, va)] }

/-- The channel walks it. -/
def onChan (h : Chain) (s : State) : State := s.modChan 0 1 fun c => { c with chains := [h] }
def head? (s : State) : Option Chain := ((s.tile 0).channel 1).chains.head?
def chan (s : State) : Option Chain := head? (after (.copyRecord 0 1) s)

/-- Copies that wait for a head entry, are pending, and are accepted or aborted (O30). -/
theorem witness_copies_accepted :
    let i : Instr := .xcopy (.g 9) (.g 5) 1 0 0
    let s := at_ 0x200
    let full := s.modChan 0 1 fun c => { c with chains := [chain, chain, chain, chain] }
    meets s i = true ∧ (s.tile 0).entriesUsed 1 = 0 ∧ (full.tile 0).entriesUsed 1 = 4 ∧ meets full i = true ∧
    (after i full).cur.why = .copies ∧ ((s0.tile 0).channel 1).frozen = none ∧
    (after i s).cur.pend.map (fun p => p.job) = [.copy (.g 9) 1 0x200 false] ∧
    (let t := sm (pending 9 0 (.copy (.g 9) 1 0x200 false))
     t.owesAt t.cur 1 = false ∧ t.tileHeld 0 = false ∧ (t.acceptChain w0 1).cur.scoreboard = [.g 9] ∧
     ((head? (t.acceptChain w0 1)).map fun h => (h.cur, h.sum)) = some (0x200, false) ∧
     (let t := t.modSlot w0 fun x => { x with thr := 5, iseq := 2, pend := x.pend.map fun p => { p with seq := 2 } }
      { t with stores := [stored 0 1 [] 7] }.owesAt t.cur 2 = true) ∧
     (let t := (t.modChan 0 1 fun c => { c with frozen := some 1 }).acceptChain w0 1
      t.cur.reg (.g 9) = 4 ∧ t.cur.pend = [])) := by decide +kernel

/-- Records read: one that is good, one not owned, one bad, one that cannot be read, and the end of the list (O30). -/
theorem witness_records_read :
    let mem := fun (w3 : Word) => withHbm 0x218 w3 (withHbm 0x210 0x400 (withHbm 0x208 0x300 s0))
    let read := fun (h : Chain) (w3 : Word) => chan (onChan h (mem w3))
    let r0 : Burst := ⟨0, 64, [⟨.hbm 0x200, 64, .home⟩], [], none, 0, 0, 0, none⟩
    let due := fun (w3 : Word) => { chain with reading := some { r0 with data := some ((mem w3).getParts r0.parts) } }
    s0.tileHeld 0 = false ∧ chain.recs = [] ∧ chain.ending = none ∧ chain.red = none ∧
    ((read chain 0).bind fun h => h.reading.map fun b => b.data.isSome) = some false ∧
    (s0.unitHeld 0 0 0 r0.parts).1 = false ∧ s0.hidden (chain.party 0) r0.parts = false ∧ s0.poisoned r0.parts = false ∧
    ((head? ((onChan { chain with reading := some r0 } (mem 7)).partStep 0 1 0 0)).bind fun h => h.reading.map fun b =>
      (b.got.map fun e => e.1, b.data.isSome)) = some ([0], true) ∧
    ((read (due 0x8000000000000008) 0x8000000000000008).map fun h => (h.cur, h.recs.map fun r => (r.addr, r.next, r.len))) =
      some (0, [(0x200, 0, 8)]) ∧
    ([8, 0x8000000100000008].map fun w3 => (read (due w3) w3).bind fun h => h.ending) = [some (1, 0), some (3, 0)] ∧
    ([0, 3, 0xC000000000000000, 0x20000].map fun v => (read { chain with cur := v } 0).bind fun h => h.ending) =
      [some (0, 0), some (3, 0), some (3, 0), none] ∧
    ((chan (unmapped 0x20000 (onChan { chain with cur := 0x20000 } s0))).bind fun h => h.ending) = some (2, 0x20000) := by decide +kernel

/-- A burst of the record in flight, and what is in flight after its next step. -/
def fly (sum : Bool) (w3 : Word) (b : Burst) : State :=
  onChan { chain with sum := sum, recs := [{ rec0 with words := [0, 0x300, 0x400, w3], flight := [b] }] } (withHbm 0x300 0x3F800000 s0)
def flown (s : State) (j : Option Nat) : List Burst := ((head? (s.burstStep 0 1 0 j)).map fun h => h.bursts.map fun e => e.2).getD []
def moved : Burst := { burst with parts := [⟨.hbm 0x400, 8, .home⟩], data := some (leBytes 8 0x3F800000), write := some 0 }
def summed : Burst := { moved with len := 4, parts := [⟨.hbm 0x400, 16, .home⟩], data := some (leBytes 4 0x3F800000) }

/-- A burst of a copy and one of a sum through their steps (O30). -/
theorem witness_copy_data :
    (((chan (onChan { chain with recs := [{ rec0 with next := 0 }] } s0)).map fun h => h.bursts.map fun e => (e.2.off, e.2.len)) =
      some [(0, 8)]) ∧
    (flown (fly false 0x8000000000000008 burst) (some 0)).map (fun b => b.data) = [some (leBytes 8 0x3F800000)] ∧
    s0.portTakes 0 burst.parts 8 = true ∧ (s0.unitHeld 0 0 0 burst.parts).1 = false ∧
    (flown (fly false 0x8000000000000008 { burst with data := some [1, 2, 3, 4, 5, 6, 7, 8] }) none).map (fun b => (b.parts, b.write.isSome)) =
      [([⟨.hbm 0x400, 8, .home⟩], true)] ∧
    (let s := fly false 0x8000000000000008 burst
     s.readsFirst 0 chain rec0 burst (s.recDown 0 rec0) = (false, false)) ∧
    flown (fly false 0x8000000000000008 moved) (some 0) = [] ∧ flown (fly true 0x8000000000000004 summed) none = [] ∧
    leNat (((fly false 0x8000000000000008 moved).burstStep 0 1 0 (some 0)).getParts moved.parts) = 0x3F800000 ∧
    leNat (((fly true 0x8000000000000004 summed).burstStep 0 1 0 none).getParts summed.parts) = 2 ^ 48 ∧
    s0.writeHeld burst.parts = false ∧ moved.parts.any Part.isShadow = false := by
  decide +kernel

/-- A record given back, with and without an increment, and the chain's end (O30). -/
theorem witness_records_end :
    let s := fun (r : Rec) => onChan { chain with recs := [r] } s0
    let own := { rec0 with step := some (false, 0, 0) }
    let inc : Rec := { rec0 with words := [0, 0x300, 0x400, 0xC000000000000008, 0x400, 3], step := some (true, 0, 0) }
    rec0.next = rec0.len ∧ rec0.flight = [] ∧
    ((chan (s rec0)).map fun h => h.recs.map fun r => r.step.map fun e => e.1) = some [some false] ∧
    ((chan (s own)).map fun h => (h.n, h.recs.length)) = some (1, 0) ∧ recCwe own.w3 = false ∧
    leNat ((after (.copyRecord 0 1) (s own)).getParts [⟨.hbm 0x218, 8, .home⟩]) = 8 ∧ ((chan (s inc)).map fun h => (h.n, h.recs.length)) = some (1, 0) ∧
    leNat ((after (.copyRecord 0 1) (s inc)).getParts [⟨.hbm 0x400, 8, .home⟩]) = 3 ∧
    ((chan (onChan { chain with recs := [{ rec0 with step := some (true, 9, 0) }], ending := some (2, 0) } s0)).map fun h => h.recs.length) =
      some 1 ∧
    ((after (.copyRecord 0 1) (onChan { chain with n := 1, ending := some (0, 0) } s0)).cur.reg (.g 9) = 0x100000000 ∧
      ((after (.copyRecord 0 1) (onChan { chain with n := 1, ending := some (2, 0) } s0)).tile 0).channel 1 = ⟨[], some 1⟩ ∧
      s0.cur.gen = 0 ∧ chain.gen = 0) := by decide +kernel

def addS : State :=
  let job := fun (b : Word) => Job.amo (.g 9) ⟨0, 8, 8, 1, 0, 0, [⟨.hbm 8, 8, .home⟩], true⟩ 0x1F b 0 0
  ((s0.modSlot w0 (pending 9 0 (job 3))).modSlot w0 fun x => { x with thr := 5 }).setSlot ⟨1, 0⟩ { pending 9 0 (job 4) x0 with thr := 6 }

/-- Two fetch-and-adds of tiles that meet at a switch, of a line whose home is their cluster, become one request (O23). -/
theorem witness_adds_meet :
    (∀ w ∈ [w0, ⟨1, 0⟩], ((addS.slot w).pend.map fun p => addS.amoReady w p [⟨.hbm 8, 8, .home⟩] ((addS.slot w).follows 1 p.job.releases)) = [true]) ∧
    meetBit (idxInCluster (addS.phys 0)) (idxInCluster (addS.phys 1)) = some 0 ∧ bitOf (idxInCluster (addS.phys 0)) 0 = false ∧
    addS.homeOf .home 8 = 0 ∧ (addS.cluster 0, addS.cluster 1) = (0, 0) ∧ (addS.clu 0).comb = [] ∧
    (let t := addS.combine w0 1 ⟨1, 0⟩ 1
     (t.clu 0).comb.map (fun e => (e.stage, e.switch, e.first, e.second, e.b0)) = [(3, 0, (5, 1), (6, 1), 3)] ∧
     t.cur.pend.map (fun p => match p.job with | .amo _ _ _ b _ _ => b | _ => 0) = [7]) := by decide +kernel

/-- A thread whose load has read ahead of an acquire at cluster scope. -/
def ahead : Slot :=
  let load := fun (pa : Nat) (acq : Option Nat) => Job.load (.g 9) ⟨0, pa, 8, 1, 0, 0, [⟨.hbm pa, 8, .home⟩], true⟩ false false acq 0
  { pending 9 0 (load 0x300 (some 1)) x0 with thr := 5, iseq := 2 } |> fun x =>
    { x with pend := x.pend ++ (x.pend.map fun p => { p with seq := 2, job := load 0x308 none, got := [(0, [1])] }) }

/-- It reads again after a write of a thread of its cluster, and keeps what it has after one of another cluster (O26). -/
theorem witness_read_ahead :
    (ahead.pend.map fun p => (p.seq, p.performed, p.job.isLoad, p.job.acqScope)) = [(1, false, true, some 1), (2, true, true, none)] ∧
    (⟨6, some 1, 1⟩ : Party).shares ⟨5, some 0, 0⟩ 1 = true ∧ (⟨6, some 47, 3071⟩ : Party).shares ⟨5, some 0, 0⟩ 1 = false ∧
    (ahead.squash 0 (some ⟨6, some 1, 1⟩)).pend.map (fun p => p.got) = [[], []] ∧
    (ahead.squash 0 (some ⟨6, some 47, 3071⟩)).pend.map (fun p => p.got) = [[], [(0, [1])]] := by decide +kernel

/-- An access of stack 24 by its parts, and a fetch of it (O25). -/
theorem witness_absent_parts :
    let far := { page with pa := 24 * 2 ^ 36 }
    let s := ({ at_ 0x100 with pages := [far] }).modTile 0 fun t => { t with tlb := [far] }
    let l := later 9999 (after (.ld64 (.g 6) (.g 21) 0 0 9 0) s)
    (match l.cur.pend with
      | [q] => (match q.job.reads with
        | some (a, need) => (match (l.accNow w0 q a need).1 with
          | .ok ps _ => decide (ps.map (fun p => p.loc) = [.hbm (24 * 2 ^ 36 + 0x100)])
          | _ => false)
        | none => false)
      | _ => false) = true ∧
    (match s.fetch w0 false with
      | .word _ ps _ => decide (ps.map (fun p => p.loc) = [.hbm (24 * 2 ^ 36 + 0x1000)])
      | _ => false) = true ∧
    (match s.runFetched w0 false with | .fault f => f == .absentStack | _ => false) = true := by decide +kernel

/-- A command word, and a command of the thread in slot 0 that holds it. -/
def command (opc arg : Nat) : Word := wd (opc * 2 ^ 56 + arg)
def cmd (w : Word) : Command := ⟨w, none, 0, 1⟩

/-- `s0` with f1 bound to engine `e` of cluster 0, which holds commands and parameters. -/
def engaged (e : Nat) (cmds : List Command) (ps : List Word) (s : State) : State :=
  (s.modSlot w0 fun x => x.setBind 1 { Binding.cold with st := .bound, evn := 3, kind := e / 2, eng := e }).modEng 0 e fun g =>
    { g with pow := .on, holder := some (w0, 1), cmds := cmds, shadow := Vector.ofFn fun i => ps.getD i.val 0, thr := 9 }

/-- The engine with one command, what that command is, and the state once it has run. -/
def due (e opc arg : Nat) (ps : List Word) (s : State) : State := engaged e [cmd (command opc arg)] ps s
def job (opc arg : Nat) : Cmd := ⟨w0, 1, 1, opc, arg⟩
def runs (e opc arg : Nat) (ps : List Word) (s : State) : Bool :=
  let s := due e opc arg ps s
  (s.engCmd 0 e (e / 2)).any fun c => c.opc == opc && c.arg == arg && c.who == w0 && !s.tileHeld 0
def ran (i : Instr) (e opc arg : Nat) (ps : List Word) (s : State) : State := after i (due e opc arg ps s)
def outs (i : Instr) (e opc arg : Nat) (ps : List Word) (s : State) : List Word := ((ran i e opc arg ps s).eng 0 e).outs

/-- Leases requested, refused by a binding in use and by an empty shelf; requests served by a free engine, by waking one, by
failing, and left where they have not come; engines that wake and that fail (O31). -/
theorem witness_leases :
    let i : Instr := .lease (.f 2) 3 1 5 0
    let s := after i s0
    let served := fun (s : State) => after (.martenServe 0) (later 4 s)
    let eng := fun (f : Engine → Engine) => s.modEng 0 6 f
    let woken := (later 4500 (served s)).modSlab 0 fun l => { l with wakes := l.wakes.map fun r => { r with granted := some 4 } }
    s0.Issues i (Meta.solo (onP 0) [] [.f 2]) ∧ (s0.cur.bind 2).st = .unbound ∧ (s.cur.bind 2).st = .queued ∧ s0.cur.red = none ∧
    (s.clu 0).lreq = [⟨w0, 2, 3, 1, 4⟩] ∧ (after (.lease (.f 1) 3 1 5 0) (engaged 6 [] [] s0)).cur.ecause = wd cEngState ∧
    (let s := { s0 with caps := { s0.caps with engOut := [6, 7] } }
     s.Issues i (Meta.solo (onP 0) [] [.f 2]) ∧ (after i s).cur.ecause = wd cEngAbsent) ∧
    (s.clu 0).pow = .on ∧ s.now < 4 ∧ (s.eng 0 6).usable = true ∧ (s.eng 0 6).pow = .off ∧ (s.clu 0).powered < 4 ∧
    ((served s).eng 0 6).pow = .waiting ∧ ((served s).slab 0).wakes = [⟨.engine 0 6, 1, 4, none⟩] ∧
    ((served (eng fun g => { g with pow := .on })).cur.bind 2).st = .bound ∧
    (let t := served ((eng fun g => { g with inService := false }).modEng 0 7 fun g => { g with inService := false })
     (t.cur.bind 2).st = .evicted ∧ (t.cur.bind 2).token = some 0xFE00000000000008) ∧
    ((served s).eng 0 6).holder = some (w0, 2) ∧
    ((after (.engineWakeDone 0 6 true) woken).cur.bind 2).st = .bound ∧ ((after (.engineWakeDone 0 6 true) woken).slab 0).tokens = 9 ∧
    ((after (.engineWakeDone 0 6 false) woken).eng 0 6).inService = false ∧
    ((after (.engineWakeDone 0 6 false) woken).clu 0).lreq.length = 1 := by decide +kernel

/-- f1 BOUND to a free engine, to one with a command waiting, EVICTED, QUEUED; and `s0` with it UNBOUND. -/
def sBound : State := engaged 6 [] [7, 8] s0
def sBusy : State := engaged 6 [cmd 1] [] s0
def sEvicted : State := s0.modSlot w0 fun x => x.setBind 1 { Binding.cold with st := .evicted, evn := 3 }
def sQueued : State := (after (.lease (.f 1) 3 1 5 0) s0).modSlot w0 fun x => { x with pend := [] }

/-- Bindings freed, and engine registers on UNBOUND, EVICTED and BOUND bindings (O32). -/
theorem witness_bindings :
    let ewr := fun s => after (.ewr (.f 1) (.g 5) 3 always) s
    let erd := fun (k : Nat) s => after (.erdComplete w0 1 false) (later 24 (after (.erd (.o 1) (.f 1) (BitVec.ofNat 6 k) 5 0) s))
    (∀ t ∈ [sBound, sEvicted, sQueued, s0, sBusy], t.Issues (.free (.f 1) always) (Meta.solo always [] [.f 1]) ∧
      t.Issues (.ewr (.f 1) (.g 5) 3 always) (Meta.solo always [.g 5] [.f 1]) ∧
      t.Issues (.erd (.o 1) (.f 1) 3 5 0) (Meta.solo (onP 0) [] [.o 1, .f 1])) ∧
    ((after (.free (.f 1) always) sBound).cur.bind 1) = { Binding.cold with evn := 3, kind := 3, eng := 6 } ∧
    (sBound.eng 0 6).frozen = none ∧ (sBusy.eng 0 6).frozen = none ∧
    ((after (.free (.f 1) always) sBound).eng 0 6).pow = .off ∧ ((after (.free (.f 1) always) sQueued).clu 0).lreq = [] ∧
    vget ((ewr sBound).eng 0 6).shadow 3 0 = -7 ∧ (ewr sBusy).cur.why = .push ∧
    (ewr s0).cur.ecause = wd cUnbound ∧ (ewr sEvicted).cur.pc = 0x1004 ∧
    ([1, 48, 49, 63].map fun k => (erd k sBound).cur.reg (.o 1)) = [8, 0x60000, 0, 6] ∧
    (erd 1 sEvicted).cur.reg (.o 1) = 0 := by decide +kernel

/-- Guarded commands let run and discarded (O32). -/
theorem witness_guarded_commands :
    let grd := after (.eguard (.f 1) (.g 5) 4 always) sBound
    sBound.Issues (.eguard (.f 1) (.g 5) 4 always) (Meta.solo always [.g 5] [.f 1]) ∧ got? (sBound.dstReady w0 (.f 1)) = some () ∧
    (grd.eng 0 6).cmds = [⟨-7, some 4, 0, 1⟩] ∧ vget grd.cur.guards 4 none = some 1 ∧ vget sBound.cur.guards 4 none = none ∧
    grd.Issues (.eguard (.f 1) (.g 5) 4 always) (Meta.solo always [.g 5] [.f 1]) ∧
    grd.Issues (.gres 0 4 always) (Meta.solo always [] []) ∧ sBound.Issues (.gres 0 4 always) (Meta.solo always [] []) ∧
    ((after (.gres 0 4 always) grd).eng 0 6).cmds = [⟨-7, none, 0, 1⟩] ∧ ((after (.gres 1 4 always) grd).eng 0 6).cmds = [] := by
  decide +kernel

/-- SORT commands within the limits, outside them, and of an OPC that is not defined (O33). -/
theorem witness_sort :
    let with_ := fun (ks : List (Nat × Nat)) => s0.modEng 0 0 fun g => { g with keys := ks }
    (∀ o ∈ [0, 1, 2, 3, 4], runs 0 o 0x9000000007 [4, 0, 0] s0 = true ∧ runs 0 o 0x9000000007 [0, 0, 0] s0 = true) ∧
    ((ran (.sortInsert 0 0) 0 1 0x9000000007 [4, 0, 0] (with_ [(9, 1), (5, 2)])).eng 0 0).keys = [(9, 1), (7, 0x90), (5, 2)] ∧
    ((ran (.sortInsert 0 0) 0 1 0x9000000007 [2, 0, 1] (with_ [(5, 2), (9, 1)])).eng 0 0).keys = [(5, 2), (7, 0x90)] ∧
    outs (.sortInsert 0 0) 0 1 7 [0, 0, 0] s0 = [errToken 2 1 0] ∧ outs (.sortInsert 0 0) 0 4 7 [4, 0, 0] s0 = [errToken 1 4 0] ∧
    outs (.sortEmit 0 0) 0 2 0 [4, 0, 0] (with_ [(9, 1)]) = [0x0100000100000009, 0x0200000000000001] ∧
    outs (.sortEmit 0 0) 0 2 0 [4, 0, 0] (with_ [(5, 2), (9, 1)]) = [0x0100000100000009, 0x0100000200000005, 0x0200000000000002] ∧
    outs (.sortEmit 0 0) 0 2 0 [4, 3, 0] s0 = [errToken 2 2 0] ∧ ((ran (.sortClear 0 0) 0 3 0 [4, 0, 0] (with_ [(9, 1)])).eng 0 0).keys = [] ∧
    outs (.sortClear 0 0) 0 3 0 [4, 0, 2] s0 = [errToken 2 3 0] := by decide +kernel

/-- Commands of each other kind with an OPC of no meaning, and with a parameter outside its limits (O33). -/
theorem witness_commands_checked :
    (∀ e ∈ [2, 4, 6, 8, 10, 12, 14], ∀ o ∈ [0, 4], runs e o 1 [] s0 = true) ∧
    ([(2, 1, [0, 2 ^ 24 + 1]), (2, 2, [0, 2 ^ 24 + 1]), (4, 1, [0, 0, 0, 2]), (6, 1, [0, 0, 3, 0]), (8, 1, [0, 12]), (8, 2, [0, 4104]),
      (8, 3, [0, 0]), (10, 1, [0, 0, 0, 2]), (12, 1, [0, 0, 0, 0]), (12, 2, [0, 0, 1, 2])] : List (Nat × Nat × List Word)).all
      (fun q => runs q.1 q.2.1 1 q.2.2 s0) = true ∧
    outs (.matchScan 0 2) 2 4 1 [] s0 = [errToken 1 4 0] ∧ outs (.gathFinish 0 8) 8 3 1 [0, 0] s0 = [errToken 2 3 0] := by decide +kernel

/-- Engine 6 of cluster 0 once a command has run: results to enqueue, a write that is not performed, a fault that follows. -/
def answering (rs : List Word) (stop : Option EngStop) (s : State) : State :=
  (engaged 6 [cmd 5] [] s).modEng 0 6 fun g => { g with opc := some 1, outs := rs, stop := stop, results := [8] }

/-- Results enqueued, held by a write, by a full queue, and an engine that freezes after them; what an engine stores (O33). -/
theorem witness_results_enqueued :
    let q0 : Stored := { stored 0 1 [] 7 with party := ⟨9, none, 0⟩ }
    let q : EngStop := ⟨3, 1, 0x300⟩
    let one := fun (s : State) => s.engResult 0 6
    ({ answering [7] none s0 with stores := [q0] }.engResult 0 6 = { answering [7] none s0 with stores := [q0] }) ∧ (s0.eng 0 6).thr ≠ 9 ∧
    ((one (answering [7] none s0)).eng 0 6).results = [8, 7] ∧ ((one (answering [7] none s0)).eng 0 6).done = 1 ∧
    ((one (answering [7] (some q) s0)).eng 0 6).opc = some 1 ∧ ((one (answering [] none s0)).eng 0 6).done = 1 ∧
    ((answering [7] none s0).modEng 0 6 fun g => { g with results := List.replicate 16 0 }).engResult 0 6 =
      ((answering [7] none s0).modEng 0 6 fun g => { g with results := List.replicate 16 0 }) ∧
    (let t := one (answering [] (some q) s0)
     (t.eng 0 6).frozen = some 1 ∧ (t.eng 0 6).cmds = [] ∧ (t.cur.bind 1).left = [8] ∧ (t.cur.bind 1).token = some (errToken 3 1 0x300) ∧
     t.flog.map (fun r => (r.cls, r.outcome, r.cause, r.addr)) = [(6, 2, 1, 0x300)]) ∧
    ((s0.engStore 0 6 (job 1 0) [⟨.hbm 0x300, 8, .home⟩] (leBytes 8 5)).stores.map fun q => (q.part, leNat q.data)) = [(⟨.hbm 0x300, 8, .home⟩, 5)] := by
  decide +kernel

/-- What an engine reads, and the parts it writes, where they can be had. -/
def readOf? (s : State) (cl e : Nat) (c : Cmd) (v : Word) (n : Nat) : Option (List Byte × State) :=
  match s.engReach c v n .read with
  | (.ok ps, t) => if ps.any (t.engHeld cl e c.who.tile) || t.poisoned ps then none else some (ps.flatMap (t.engPart cl e), t.touchLoads c.who.tile ps 0)
  | _ => none
def partsOf? (s : State) (c : Cmd) (v : Word) (n : Nat) (need : Need) : Option (List Machine.Part × State) :=
  match s.engReach c v n need with
  | (.ok ps, t) => if t.poisoned ps then none else some (ps, t)
  | _ => none

theorem reads_of {s t : State} {cl e n : Nat} {c : Cmd} {v : Word} {bs : List Byte} (h : readOf? s cl e c v n = some (bs, t)) :
    s.EngReads cl e c v n bs t := by
  unfold readOf? at h
  split at h
  · rename_i ps u hu
    split at h
    · cases h
    · cases h; exact ⟨ps, u, hu, by simp_all, by simp_all, rfl, rfl⟩
  · cases h

theorem parts_of {s t : State} {n : Nat} {c : Cmd} {v : Word} {need : Need} {ps : List Machine.Part}
    (h : partsOf? s c v n need = some (ps, t)) : s.engReach c v n need = (.ok ps, t) ∧ t.poisoned ps = false := by
  unfold partsOf? at h
  split at h
  · split at h
    · cases h
    · cases h; exact ⟨by assumption, by simp_all⟩
  · cases h

/-- One byte scanned, and one batch worked through, where the reads can be had. -/
theorem match_one {s : State} {cl e states off : Nat} {c : Cmd} {image : Word} {b : Byte} (hm : (s.eng cl e).mstate < states)
    (hr : (readOf? s cl e c (image + wd (1024 * (s.eng cl e).mstate + 4 * b.toNat)) 4).isSome) :
    ∃ rs t, MatchSteps cl e c image states [b] off rs s t := by
  obtain ⟨⟨en, s1⟩, hr⟩ := Option.isSome_iff_exists.mp hr
  exact ⟨_, _, hm, en, s1, [], reads_of hr, rfl, rfl, rfl⟩

theorem batch_one {s : State} {cl e len off : Nat} {c : Cmd} {f : List Byte → List Byte} {src dst : Word}
    (hr : ((readOf? s cl e c (src + wd off) len).bind fun r => partsOf? r.2 c (dst + wd off) len .write).isSome) :
    ∃ t, BatchSteps cl e c len f src dst 1 off s t := by
  obtain ⟨⟨ps, s2⟩, hr⟩ := Option.isSome_iff_exists.mp hr
  obtain ⟨⟨bs, s1⟩, h1, h2⟩ := Option.bind_eq_some_iff.mp hr
  exact ⟨_, bs, s1, ps, s2, reads_of h1, (parts_of h2).1, (parts_of h2).2, rfl⟩

/-- Whether a command that starts can read a range, and then write one. -/
def canRead (e opc arg : Nat) (ps : List Word) (v : Word) (n : Nat) (s : State) : Bool :=
  (readOf? ((due e opc arg ps s).begun 0 e opc) 0 e (job opc arg) v n).isSome
def canMove (e opc arg : Nat) (ps : List Word) (v : Word) (n : Nat) (u : Word) (m : Nat) (s : State) : Bool :=
  ((readOf? ((due e opc arg ps s).begun 0 e opc) 0 e (job opc arg) v n).bind fun r =>
    partsOf? r.2 (job opc arg) u m .write).isSome

/-- What a command gives to be written. -/
def gives (i : Instr) (e opc arg : Nat) (ps : List Word) (s : State) : List (Machine.Part × Nat) :=
  (ran i e opc arg ps s).stores.map fun q => (q.part, leNat q.data)

/-- MATCH over one byte of HBM, from state 0 and from one outside the image; a DEFLATE stream of one stored byte, one that is malformed, and a
source that cannot be read (O33). -/
theorem witness_stream_engines :
    let auto := withHbm (0x4000 + 4 * 0x41) 0x85000003 (withHbm 0x300 0x41 s0)
    let m := [0x4000, 2, 0x300]
    let lost := auto.modEng 0 2 fun g => { g with mstate := 2 }
    let z := withHbm 0x300 0x41FFFE000101 s0
    runs 2 1 1 m auto = true ∧ canRead 2 1 1 m 0x300 1 auto = true ∧
    (readOf? ((due 2 1 1 m auto).begun 0 2 1) 0 2 (job 1 1) (0x4000 + wd (1024 * 0 + 4 * 0x41)) 4).isSome = true ∧
    outs (.matchScan 0 2) 2 1 1 m auto = [0x0100000500000000, 0x0200000000000003] ∧ runs 2 1 1 m lost = true ∧
    canRead 2 1 1 m 0x300 1 lost = true ∧ outs (.matchScan 0 2) 2 1 1 m lost = [errToken 4 1 0] ∧ runs 2 2 0 m s0 = true ∧
    ((ran (.matchReset 0 2) 2 2 0 m lost).eng 0 2).mstate = 0 ∧
    runs 4 1 6 [0x300, 0x400, 64, 1] z = true ∧ canMove 4 1 6 [0x300, 0x400, 64, 1] 0x300 6 0x400 1 z = true ∧
    inflate 1 (leBytes 6 0x41FFFE000101) = some [0x41] ∧ inflate 1 (leBytes 6 0x41FFFF000101) = none ∧
    gives (.inflDecode 0 4) 4 1 6 [0x300, 0x400, 64, 1] z = [(⟨.hbm 0x400, 1, .home⟩, 0x41)] ∧
    outs (.inflDecode 0 4) 4 1 6 [0x300, 0x400, 64, 1] z = [0x0200000000000001] ∧
    outs (.inflDecode 0 4) 4 1 6 [0x300, 0x400, 0, 1] z = [errToken 5 1 0] ∧
    runs 4 1 6 [0x300, 0x400, 64, 1] (withHbm 0x300 0x41FFFF000101 s0) = true ∧
    canRead 4 1 6 [0x300, 0x400, 64, 1] 0x300 6 (withHbm 0x300 0x41FFFF000101 s0) = true ∧
    runs 4 1 8 [0x90000, 0x400, 64, 1] (unmapped 0x90000 s0) = true ∧
    ((ran (.inflDecode 0 4) 4 1 8 [0x90000, 0x400, 64, 1] (unmapped 0x90000 s0)).eng 0 4).stop = some ⟨3, 1, 0x90000⟩ := by decide +kernel

/-- SCAN over two numbers in one segment, and in two (O33). -/
theorem witness_scan :
    let s := fun (bm : Word) => withHbm 0x500 bm (withHbm 0x300 0x300000004 s0)
    runs 10 1 0 [0x300, 0x400, 2, 0, 0x500] (s 0) = true ∧ canRead 10 1 0 [0x300, 0x400, 2, 0, 0x500] 0x500 1 (s 0) = true ∧
    canMove 10 1 0 [0x300, 0x400, 2, 0, 0x500] 0x300 8 0x400 8 (s 0) = true ∧
    gives (.scanPrefix 0 10) 10 1 0 [0x300, 0x400, 2, 0, 0x500] (s 0) = [(⟨.hbm 0x400, 8, .home⟩, 0x700000004)] ∧
    gives (.scanPrefix 0 10) 10 1 0 [0x300, 0x400, 2, 0, 0x500] (s 3) = [(⟨.hbm 0x400, 8, .home⟩, 0x300000004)] := by decide +kernel

/-- Commands of XFRM, SOFT and GATH that read and write one batch or row; a row moved to a slot and back, and counted (O34). -/
theorem witness_block_engines :
    let s := withHbm 0x308 0x40000000 (withHbm 0x300 0x3F800000 s0)
    runs 6 1 1 [0x300, 0x400, 4, 0] s = true ∧ canMove 6 1 1 [0x300, 0x400, 4, 0] 0x300 128 0x400 128 s = true ∧
    runs 12 1 1 [0x300, 0x400, 1, 0] s = true ∧ canMove 12 1 1 [0x300, 0x400, 1, 0] 0x300 4 0x400 4 s = true ∧
    runs 12 2 1 [0x300, 0x400, 2, 1] s = true ∧ canMove 12 2 1 [0x300, 0x400, 2, 1] 0x300 4 0x400 4 s = true ∧
    (∀ o ∈ [1, 2, 3], runs 8 o 1 [0x2F8, 8, 0x400] s = true) ∧ canMove 8 1 1 [0x2F8, 8, 0x400] 0x300 8 0x400 8 s = true ∧
    canMove 8 2 1 [0x2F8, 8, 0x400] 0x400 8 0x300 8 s = true ∧
    gives (.gathToSlot 0 8) 8 1 1 [0x2F8, 8, 0x400] s = [(⟨.hbm 0x400, 8, .home⟩, 0x3F800000)] ∧
    gives (.gathFromSlot 0 8) 8 2 1 [0x2F8, 8, 0x400] (withHbm 0x400 7 s0) = [(⟨.hbm 0x300, 8, .home⟩, 7)] ∧
    ((ran (.gathToSlot 0 8) 8 1 1 [0x2F8, 8, 0x400] s).eng 0 8).moved = 1 ∧ outs (.gathFinish 0 8) 8 3 0 [0x2F8, 8, 0x400] s = [0x0200000000000000] := by
  decide +kernel

/-- Engines 14 and 15 with a command each: a collective of two sums of 4 bytes from 0x300 and 0x308. -/
def two (n op : Word) : State :=
  ((due 14 1 0 [0x300, 0x400, 4, 0x600, op] (withHbm 0x308 0x40000000 (withHbm 0x300 0x3F800000 s0))).modSlot w0 fun x =>
    x.setBind 2 { Binding.cold with st := .bound, kind := 7, eng := 15 }).modEng 0 15 fun g =>
      { g with pow := .on, holder := some (w0, 2), cmds := [cmd (command 1 0)], thr := 8
               shadow := Vector.ofFn fun i => [0x308, 0x500, n, 0x600, op].getD i.val 0 }

/-- Collectives that sum, that broadcast, and whose members disagree; a member of another OPC (O34). -/
theorem witness_collectives :
    let run := fun n op => after (.collCollective [(0, 14), (0, 15)]) (two n op)
    let c1 := job 1 0
    let c2 : Cmd := { job 1 0 with f := 2 }
    ([two 4 0, two 8 0, two 4 1].all fun s => (s.engCmd 0 14 7).isSome && (s.engCmd 0 15 7).isSome && !s.tileHeld 0 &&
      (s.eng 0 14).stop.isNone && (s.eng 0 15).stop.isNone) = true ∧
    ((((partsOf? (((two 4 0).begun 0 14 1).begun 0 15 1) c1 0x600 8 .read).bind fun a => readOf? a.2 0 14 c1 0x300 4).bind fun a =>
      (partsOf? a.2 c2 0x600 8 .read).bind fun a => readOf? a.2 0 15 c2 0x308 4).bind fun a =>
      (partsOf? a.2 c1 0x400 4 .write).bind fun a =>
        partsOf? (a.2.engStore 0 14 c1 a.1 (leBytes 4 0x40400000)) c2 0x500 4 .write).isSome = true ∧
    (run 4 0).stores.map (fun q => (q.part, leNat q.data)) = [(⟨.hbm 0x400, 4, .home⟩, 0x40400000), (⟨.hbm 0x500, 4, .home⟩, 0x40400000)] ∧
    (run 4 1).stores.map (fun q => leNat q.data) = [0x3F800000, 0x3F800000] ∧ ((run 4 0).eng 0 15).outs = [0x0200000000000000] ∧
    ((run 8 0).eng 0 15).outs = [errToken 2 1 0] ∧
    (let s := due 14 2 0 [] s0
     runs 14 2 0 [] s0 = true ∧ ((after (.collCollective [(0, 14)]) s).eng 0 14).outs = [errToken 1 2 0] ∧ (s.eng 0 14).stop = none) := by
  decide +kernel

/-- A collective one of whose members is torn down (O34). -/
theorem witness_collective_dies :
    let s := (two 4 0).modCtx 1 fun c => { c with dying := true }
    ((s.engCmd 0 14 7).isSome && (s.engCmd 0 15 7).isSome && !s.tileHeld 0 && (s.eng 0 14).stop.isNone && (s.eng 0 15).stop.isNone) = true ∧
    (s.ctxOf 1).dying = true ∧
    [14, 15].map (fun e => ((after (.collCollective [(0, 14), (0, 15)]) s).eng 0 e).outs) = [[errToken 7 1 0], [errToken 7 1 0]] := by
  decide +kernel

/-- `s0` with a vector shape, v1 and v2 holding elements from byte 0, and o4 and o6. -/
def vec (shape : Word) (a b : List Byte) (o4 o6 : Word) : State :=
  sm fun x => (({ x with vshp := shape, o := (x.o.set 4 o4).set 6 o6 }).vwrite 1 0 a).vwrite 2 0 b

/-- Elements of v3 once the vector instruction has run its lane cycles. -/
def v3 (i : Instr) (s : State) (n : Nat) : List Byte :=
  (after (.vectorComplete w0) (later 99 (after i s))).cur.vbytes 3 0 n

/-- Four I8 elements: 100, -100, 5, 0 and 100, 7, 3, 0, by the instructions of Table 8.1 (08 R155, R156); a type that is not the
shape's, and two vector instructions pending (O35, O36). -/
theorem witness_vectors :
    let s := vec 0x50300 [100, 156, 5, 0] [100, 7, 3, 0] 0 0x101
    s.cur.shape = ⟨1, 4, 5⟩ ∧ s.cur.inWave = false ∧ s.cur.vpend.length < 2 ∧ (s.draw w0 1).1 = true ∧
    (∀ i ∈ [Instr.vadd 3 1 2 5 always, .vsub 3 1 2 5 always, .vmin 3 1 2 5 always, .vmax 3 1 2 5 always, .vcmpLt 3 1 2 5 always,
      .vxor 3 1 2 5 always, .vshr 3 1 2 5 always, .vabs 3 1 5 always, .vneg 3 1 5 always, .vmov 3 1 5 always, .vtr 3 1 5 always,
      .vrot 3 1 6 5 always, .vbc 3 6 5 always, .vred 3 1 0 0 5 always, .vcvt 3 1 0 6 always], meets s i = true) ∧
    ([Instr.vadd 3 1 2 5 always, .vsub 3 1 2 5 always, .vmin 3 1 2 5 always, .vmax 3 1 2 5 always, .vcmpLt 3 1 2 5 always,
      .vxor 3 1 2 5 always, .vshr 3 1 2 5 always, .vabs 3 1 5 always, .vneg 3 1 5 always, .vmov 3 1 5 always, .vtr 3 1 5 always,
      .vrot 3 1 6 5 always, .vbc 3 6 5 always].map fun i => (v3 i s 4).map fun b => b.toNat) =
      [[200, 163, 8, 0], [0, 149, 2, 0], [100, 156, 3, 0], [100, 7, 5, 0], [0, 255, 0, 0], [0, 155, 6, 0], [6, 255, 0, 0],
       [100, 100, 5, 0], [156, 100, 251, 0], [100, 156, 5, 0], [100, 156, 5, 0], [0, 100, 156, 5], [1, 1, 1, 1]] ∧
    (v3 (.vred 3 1 0 0 5 always) s 1).map (fun b => b.toNat) = [5] ∧ (v3 (.vcvt 3 1 0 6 always) s 4).map (fun b => b.toNat) = [100, 0, 156, 255] ∧
    s.cur.shape.ty ≠ 7 ∧ (after (.vadd 3 1 2 7 always) s).cur.ecause = wd cVType := by decide +kernel

/-- A subnormal BF16 element in a thread and in a wave, a shape that is legal and one that is not, quantizing and back (O36). -/
theorem witness_vector_corners :
    let s := vec 0x10300 [1, 0, 0x80, 0x3F, 0, 0x40, 0, 0] [] 0x50301 0xFFFFF
    s.cur.shape = ⟨1, 4, 1⟩ ∧ subSource s.cur true 1 1 = true ∧ (after (.vadd 3 1 2 1 always) s).cur.ecause = wd cAssist ∧
    (let w := inWave 0 fun x => { x with vshp := 0x10300 }.vwrite 1 0 [1, 0, 0x80, 0x3F, 0, 0x40, 0, 0]
     w.cur.inWave = true ∧ meets w (.vadd 3 1 2 1 always) = true ∧ endsInWave w.now (w.laneEnd w0 w.now 1) = true ∧ (w.draw w0 1).1 = true ∧
     ((after (.vadd 3 1 2 1 always) w).cur.vbytes 3 0 4).map (fun b => b.toNat) = [0, 0, 0x80, 0x3F] ∧
     (after (.vadd 3 1 2 1 always) w).cur.fstat = wd fFZ) ∧
    vshpOk 0x50301 = true ∧ vshpOk 0xFFFFF = false ∧ (after (.vshp 4 always) s).cur.vshp = 0x50301 ∧
    (after (.vshp 6 always) s).cur.ecause = wd cVShape ∧
    meets (vec 0x11F00 [] [] 0 0) (.vqnt 3 1 2 4 always) = true ∧ (vec 0x11F00 [] [] 0 0).cur.shape.c % 2 = 0 ∧
    (vec 0x41F00 [] [] 0 0).cur.shape.ty = 4 ∧ meets (vec 0x41F00 [] [] 0 0) (.vdq 3 1 2 1 always) = true := by decide +kernel

/-- Vector loads and stores that open, a load that completes, a store's bytes, and lane cycles not yet past (O37). -/
theorem witness_vector_memory :
    let s := withPad 0x100 0x0807060504030201 (vec 0x50700 [9, 8, 7, 6, 5, 4, 3, 2] [] 0x4000000000000100 0)
    let ld := later 1000 (after (.vld 3 (.o 4) 0 1 9 0) s)
    let st := later 1000 (after (.vst 1 (.o 4) 0 1 9 0) s)
    meets s (.vld 3 (.o 4) 0 1 9 0) = true ∧ meets s (.vst 1 (.o 4) 0 1 9 0) = true ∧
    (opened? (s.openVec w0 0 (vecAcc 1 0x4000000000000100 s.cur.shape) 0x4000000000000100 .read)).isSome = true ∧
    (opened? (s.openAcc w0 0 (vecAcc 1 0x4000000000000100 s.cur.shape) 1 .write)).isSome = true ∧
    (s.tile 0).mx.bnd.toList.all (fun b => !b.on) = true ∧ arrives ld .read = true ∧
    leNat ((after (.loadComplete w0 1 .sound) ld).cur.vbytes 3 0 8) = 0x0807060504030201 ∧ arrives st .write = true ∧
    leNat ((after (.storeComplete w0 1) st).getParts [⟨.spad 0 0x100, 8, .home⟩]) = 0x0203040506070809 ∧
    (let t := after (.vadd 3 1 2 5 always) s
     t.cur.vpend.map (fun p => t.laneEnd w0 p.since p.lanes) = [some 0] ∧
     (after (.vadd 3 1 2 5 always) (later 5 s)).cur.vpend.map (fun p => (later 5 t).laneEnd w0 p.since p.lanes) = [some 16]) := by
  decide +kernel

/-- A tile whose weights in I8 are all ones, an activation row of ones at 0x1000 of the scratchpad, and a scale of 1.0. -/
def ones : Weights := (makeWeights 5 (List.replicate 6144 1 ++ (List.replicate 256 [0x80, 0x3F]).flatten)).1
def sMat (o4 o6 : Word) : State :=
  let s := sm fun x => { x with o := (x.o.set 4 o4).set 6 o6 }
  later 16 ((s.putParts [⟨.spad 0 0x1000, 96, .home⟩] (List.replicate 96 1)).modMx 0 fun m => { m with active := some ones, fifo := [0x3F80] })

/-- The matrix control instructions: bands, formats, the latches, scales, rows and bounds (O38). -/
theorem witness_matrix_control :
    let s := (sMat 5 0).modMx 0 fun m => { m with shadow := some ones, acc := memWrite [] 0x100 [0, 0, 0x80, 0x3F] }
    (∀ i ∈ [Instr.mshape (.o 4) always, .mfmt (.o 4) always, .mwswp always, .mring always, .mscl always, .mclr (.o 4) always,
      .mbnd 2 (.o 4) always], meets s i = true) ∧
    (s.ownMx w0 true).isSome = true ∧ (s.tile 0).stepPending = false ∧ matFmt 5 = true ∧ matFmt 3 = false ∧
    ((after (.mshape (.o 4) always) s).tile 0).mx.rails = 5 ∧ ((after (.mfmt (.o 4) always) s).tile 0).mx.afmt = 5 ∧
    (after (.mfmt (.o 4) always) (sMat 3 0)).cur.ecause = wd cMFormat ∧
    ((after (.mwswp always) s).tile 0).mx.shadow.isNone = true ∧ s.tailLen w0 = none ∧
    ((after (.mring always) s).tile 0).mx.out.isSome = true ∧ (after (.mring always) s0).cur.ecause = wd cMLatch ∧
    ((after (.mscl always) s).tile 0).mx.fifo = [] ∧ (s.tile 0).mx.accAt 1 0 = 0x3F800000 ∧
    ((after (.mclr (.o 4) always) { (s.modSlot w0 fun x => { x with o := x.o.set 4 0x3F000000 }) with now := 0 }).tile 0).mx.accAt 1 0 = 0x3F800000 ∧
    ((after (.mclr (.o 4) always) (s.modSlot w0 fun x => { x with o := x.o.set 4 0x3F000001 })).tile 0).mx.accAt 1 0 = 0 ∧
    (let s := withPad 0x158 0x11 (withPad 0x148 0x100 (s.modSlot w0 fun x => { x with o := x.o.set 4 0x4000000000000140 }))
     (s.ownPad w0 0x4000000000000140 32 32).toOption = some 0x140 ∧
     vget ((after (.mbnd 2 (.o 4) always) s).tile 0).mx.bnd 2 ⟨0, 0, 0, 0⟩ = ⟨0, 0x100, 0, 0x11⟩) := by decide +kernel

/-- `mstep`, `mwld`, `mrd` and `mst` that issue (O39); a row of ones by ones is 24 in every column
of one band (09 R181; 05 R95), and the step
is complete (O40). -/
theorem witness_matrix_steps :
    let s := (sMat 0x4000000000001000 2).modMx 0 fun m => { m with mshp := 1 }
    let t := after (.mstep 1 0 (.o 4) (.o 6) 9 0) s
    meets s (.mstep 1 0 (.o 4) (.o 6) 9 0) = true ∧ paired 5 5 = true ∧ (s.ownPad w0 0x4000000000001000 96 32).toOption = some 0x1000 ∧
    ((bandsOf 1).all fun k => (s.tile 0).mx.rails.getLsbD k) = true ∧ (s.draw w0 1).1 = true ∧
    t.cur.pend.length = 1 ∧ t.cur.step?.isSome = true ∧ t.arrayFree w0 = true ∧
    bandLen 5 = 24 ∧ (t.tile 0).waveIds = [] ∧ (t.tile 0).stopped = false ∧ (t.tile 0).move = none ∧ (t.ctxOf 1).dying = false := by decide +kernel

/-- The row of that step is computed, written, and the step complete. -/
theorem witness_matrix_row :
    let s := (sMat 0x4000000000001000 2).modMx 0 fun m => { m with mshp := 1 }
    let t := after (.mstep 1 0 (.o 4) (.o 6) 9 0) s
    let u := after (.mstepRow w0 []) t
    (match t.cur.step?.bind fun p => t.rowOf 0 p [] false with
      | some (_, row, r) => row == 2 && r.bad == 0 && r.elems.length == 64 | none => false) = true ∧
    (u.tile 0).mx.accAt 2 63 = 0x41C00000 ∧ (u.tile 0).mx.accAt 1 63 = 0 ∧ u.cur.pend = [] := by decide +kernel

/-- The same row with a fault of one column's sum. -/
theorem witness_matrix_mismatch :
    let s := (sMat 0x4000000000001000 2).modMx 0 fun m => { m with mshp := 1 }
    let t := after (.mstep 1 0 (.o 4) (.o 6) 9 0) s
    let v := after (.mstepRow w0 [.sum 0 63 16]) t
    (match t.cur.step?.bind fun p => t.rowOf 0 p [.sum 0 63 16] false with | some (_, _, r) => r.bad == 1 | none => false) = true ∧
    (v.tile 0).mx.accAt 2 63 = 0 ∧ v.cur.pend.length = 1 ∧ v.canIssue w0 = false ∧ ((v.tile 0).move.map fun m => m.phase) = some .drain ∧
    v.flog.map (fun r => (r.cls, r.outcome, r.cause, r.addr, r.aux)) = [(10, 1, 1, evalAddr 1 0x1000, 0x20100000001)] := by decide +kernel

/-- A weight load and the reads of accumulators (O39, O40). -/
theorem witness_matrix_loads :
    let s := sMat 0x4000000000000000 0x4000000000001800
    let t := after (.mwld 5 (.o 4) (.o 6) 9 0) s
    let r := (sMat 0x4000000000000100 0x03000001).modMx 0 fun m => { m with acc := memWrite [] 0x100 [0, 0, 0x80, 0x3F] }
    meets s (.mwld 5 (.o 4) (.o 6) 9 0) = true ∧ (s.tile 0).mx.filling = false ∧ (s.ownPad w0 0x4000000000000000 6144 64).toOption = some 0 ∧
    (s.ownPad w0 0x4000000000001800 512 64).toOption = some 0x1800 ∧ (t.tile 0).mx.filling = true ∧
    ((t.tile 0).mx.load.map fun l => (l.src, l.scl, l.got.length, l.taken)) = some (0, 0x1800, 0, 0) ∧
    (((t.tile 0).moveLoad t.now).mx.load.map fun l => l.got.length) = some 128 ∧
    (((t.tile 0).takePath t.now).moveLoad t.now).mx.load = ((t.tile 0).takePath t.now).mx.load ∧
    (let u := t.modMx 0 fun m => { m with load := m.load.map fun l => { l with got := List.replicate 6656 0 } }
     (u.cur.pend.map fun q => q.job) = [.mwld] ∧ ((after (.mwldComplete w0 1) u).tile 0).mx.shadow.isSome = true) ∧
    meets r (.mrd 3 (.o 6) 9 0) = true ∧ (rowDesc 0x03000001) = ⟨1, 1, 0, 4, 0⟩ ∧ (rowDesc 0x03000001).fits = true ∧
    ((after (.mrdComplete w0 1) (later 9 (after (.mrd 3 (.o 6) 9 0) r))).cur.vbytes 3 0 4).map (fun b => b.toNat) = [0, 0, 0x80, 0x3F] ∧
    meets r (.mst 0 5 (.o 4) (.o 6) 9 0) = true ∧
    (opened? (r.openAcc w0 0 ⟨1, 0x100, 4, 1, 0, 1, [], false⟩ 1 .write)).isSome = true ∧
    (after (.mst 0 5 (.o 4) (.o 6) 9 0) r).cur.pend.map (fun p => match p.job with | .store _ ty data _ _ _ _ => (ty, data) | _ => (0, [])) =
      [(5, [1, 0, 0, 0])] := by decide +kernel

/-- A band that wakes, and a tile handed to the east (O42). -/
theorem witness_hand_offs :
    let s := (s0.modSlab 0 fun b => { b with wakes := [⟨.band 0 2, 3, 0, some 10⟩] }).modMx 0 fun m => { m with wakes := 4, rails := 0xB }
    let s2 := s.modSlab 0 fun b => { b with wakes := b.wakes ++ [⟨.band 0 2, 3, 5, none⟩] }
    let h := s0.modMx 0 fun m => { m with out := some ⟨5, [], [], [], [], []⟩, outCtx := 1 }
    let t := after (.handoffStart 0) h
    s.now < 10 + 450 ∧ ((after (.bandWakeDone 0 2) (later 460 s2)).tile 0).mx.rails = 0xB ∧ ((after (.bandWakeDone 0 2) (later 460 s)).tile 0).mx.rails = 0xF ∧ ((after (.bandWakeDone 0 2) (later 460 s)).slab 0).tokens = 9 ∧
    h.ringTarget 0 none = 1 ∧ (h.tile 1).mx.shadow = none ∧ (h.tile 1).mx.filling = false ∧ ((h.tile 1).savedFor 1).isNone = true ∧ h.tileHeld 1 = false ∧
    (t.tile 0).mx.flight = some 60 ∧ (t.tile 0).handoffs.map (fun h => (h.tile, h.due, h.ctx)) = [(1, 60, 1)] ∧ (t.tile 1).mx.owner = none ∧
    (((later 60 t).tile 0).handoffs.find? fun h => decide (h.due ≤ 60) && !(later 60 t).afterForwarded h.tile h.due).isSome = true ∧ (t.tile 1).mx.filling = true ∧
    ((after (.handoffArrive 0) (later 60 t)).tile 1).mx.shadow.isSome = true ∧ ((after (.handoffArrive 0) (later 60 t)).tile 0).mx.out = none := by
  decide +kernel

/-- An Owl job: accepted, held by an access before it, its record read, good or bad, its entries sent and the last (O43). -/
def owlJob : OwlJob := ⟨w0, 0, 1, 1, 0x300, false, none, 0, none⟩
def sOwl (route : Word) (j : OwlJob) : State :=
  (withHbm 0x310 2 (withHbm 0x308 route (withHbm 0x300 0x400 (withHbm 0x400 0x77 s0)))).modClu 0 fun c => { c with owl := [j] }

theorem witness_owl :
    let route : Word := 0x8000000000000001
    let jobs := fun (s : State) => (s.clu 0).owl
    let serve := fun (r : Word) (j : OwlJob) => after (.owlJobServe 0) (sOwl r { owlJob with accepted := true, due := j.due })
    let due := { owlJob with due := some 0 }
    let reads := fun (v : Word) (n : Nat) (s : State) => match (s.owlRead 0 { owlJob with accepted := true } v n).1 with
      | .at_ a _ => some a.parts
      | _ => none
    (sOwl 0 owlJob).owes 0 1 = false ∧ (jobs (after (.owlqSubmit 0) (sOwl 0 owlJob))).map (fun q => q.accepted) = [true] ∧
    (let s := (after (.st64 (.g 6) (.g 21) 0 0 9 0) (at_ 0x300)).modClu 0 fun c => { c with owl := [{ owlJob with seq := 2 }] }
     s.owes 0 2 = true ∧ jobs (after (.owlqSubmit 0) s) = jobs s) ∧
    reads 0x300 32 (sOwl route owlJob) = some ([0x300, 0x308, 0x310, 0x318].map fun a => ⟨.hbm a, 8, .home⟩) ∧ reads 0x90000 32 (sOwl route owlJob) = none ∧
    (jobs (serve route owlJob)).map (fun q => q.due.isSome && q.cur.isNone) = [true] ∧
    (jobs (serve route due)).map (fun q => q.cur) = [some (0x400, route, 2)] ∧
    jobs (serve 1 due) = [] ∧ ((serve 1 due).clu 0).owlSkip = 1 ∧
    (let send := fun n => after (.owlEntrySend 0) (sOwl route { owlJob with accepted := true, cur := some (0x400, route, n) })
     (send 2).msgs.map (fun m => (m.tile, m.scale, m.data)) = [(1, true, 0x77)] ∧ (jobs (send 2)).map (fun q => q.cur) = [some (0x408, route, 1)] ∧
     jobs (send 1) = [] ∧ ((sOwl route owlJob).clu 0).pow = .on ∧ ((sOwl route owlJob).clu 0).owlAt = 0) := by decide +kernel

/-- A row of ones by ones in BF16 is 12 in a column for one band, and elements whose lengths the formats give (O40). -/
theorem witness_row_elements :
    let img := (List.replicate 3072 [(0x80 : Byte), 0x3F]).flatten
    let w := (makeWeights 1 img).1
    img.length = 6144 ∧ ones.fmt = 5 ∧ bandLen 5 = 24 ∧ bandsOf 1 = [0] ∧
    (bf16Row Matrix.cold w 1 2 true (List.replicate 48 [(0x80 : Byte), 0x3F]).flatten []).elems[63]? = some 0x41400000 := by decide +kernel


/-- System registers read, written and exchanged, one that `sysx` may not write, and a reader that waits (O44). -/
theorem witness_system_registers :
    let i : Instr := .sysx (.g 1) (.g 20) (.g 5) always
    let s := fun (n : Word) => sm fun x => { x with g := (x.g.set 5 n).set 20 0x8003 }
    s0.Issues (.sysr (.g 1) 0x104 always) (Meta.solo always [] [.g 1]) ∧ s0.sysWait w0 0x104 = none ∧
    s0.sysWait w0 0x24 = none ∧ (sm fun x => { x with vpend := [⟨1, [], [], 4, 0, 0⟩] }).sysWait w0 0x104 = some .earlier ∧
    (got? (s0.operands w0 [] [.g 1])).isSome = true ∧ (after (.sysr (.g 1) 0x104 always) s0).cur.reg (.g 1) = 0x8000 ∧
    (s 0x104).Issues (.sysw 4 (.g 20) 4 always) (Meta.solo always [.g 20] []) ∧
    (after (.sysw 4 (.g 20) 4 always) (s 0)).cur.tvec = 0x8000 ∧
    meets (s 0x104) i = true ∧ sysWritable 0x104 = true ∧ sysWritable 0x100 = false ∧
    ((after i (s 0x104)).cur.reg (.g 1), (after i (s 0x104)).cur.tvec) = (0x8000, 0x8000) ∧
    (after i (s 0x100)).cur.ecause = wd cIllegal := by decide +kernel

/-- `tlbi` and `ckpt` issued and completed (O45). -/
theorem witness_invalidation :
    let s := (at_ 0x100).modSlot w0 fun x => { x with vdirty := 1 }
    let t := after (.tlbi (.g 21) 0 always) s
    let k := after (.ckpt always) s
    s.Issues (.tlbi (.g 21) 0 always) (Meta.solo always [.g 21] []) ∧ s.cur.op = none ∧ s.cur.settledCopies = true ∧
    (s.cur.pend.any fun p => p.job.writes) = false ∧ s.stores = [] ∧ t.cur.wave = none ∧
    t.cur.op = some (0, 0x100, [.g 21]) ∧ t.cur.waitUntil = some 40 ∧ (t.tile 0).tlb = [page] ∧
    ((after (.tlbiComplete w0) (later 40 t)).tile 0).tlb = [] ∧ ((after (.tlbiComplete w0) (later 39 t)).tile 0).tlb = [page] ∧
    s.Issues (.ckpt always) (Meta.solo always [] []) ∧ k.cur.waitUntil = some 96 ∧
    (after (.ckptComplete w0) (later 96 k)).cur.ckst = 0xC0000000000 ∧ (after (.ckptComplete w0) (later 96 k)).cur.st = .run := by
  decide +kernel

/-- A second slot of the tile of `s0`. -/
def with1 (y : Slot) (s : State) : State := s.setSlot ⟨0, 1⟩ y

/-- `idle` and `halt`, and `trem`, `tins` and `tspn` on slots they may name and may not (O46). -/
theorem witness_thread_control :
    let run1 : Slot := { Slot.cold with st := .run, ctx := some 1, pc := 0x2000 }
    let s := fun (y : Slot) => with1 y (sm fun x => { x with g := ((x.g.set 6 1).set 7 0x3000).set 1 9 })
    let other := { run1 with ctx := some 2 }
    s0.Issues (.idle always) (Meta.solo always [] []) ∧ s0.idleEnds w0 = false ∧ (sm fun x => { x with notice := true }).idleEnds w0 = true ∧
    s0.Issues (.halt always) (Meta.solo always [] []) ∧ s0.cur.settled = true ∧ (after (.halt always) s0).cur.st = .halt ∧
    (s run1).Issues (.trem (.g 6) always) (Meta.solo always [.g 6] []) ∧ ((after (.trem (.g 6) always) (s run1)).slot ⟨0, 1⟩).st = .out ∧
    (after (.trem (.g 6) always) (s other)).cur.ecause = wd cThread ∧ s0.isHandler ⟨0, 1⟩ = false ∧ s0.isHandler ⟨0, 15⟩ = true ∧
    (let t := after (.trem (.g 6) always) (sm fun x => { x with g := x.g.set 6 0 })
     (sm fun x => { x with g := x.g.set 6 0 }).isHandler w0 = false ∧ t.cur.st = .out) ∧
    (after (.tins (.g 6) always) (s other)).cur.ecause = wd cThread ∧
    (after (.tins (.g 6) always) (s { run1 with st := .halt, frozen := true })).cur.ecause = wd cThread ∧
    (s run1).Issues (.tins (.g 6) always) (Meta.solo always [.g 6] []) ∧
    ((after (.tins (.g 6) always) (s { run1 with st := .out })).slot ⟨0, 1⟩).st = .run ∧
    ((after (.tins (.g 6) always) (s { run1 with st := .halt, halted := true })).slot ⟨0, 1⟩).st = .run := by decide +kernel

theorem witness_thread_spawn :
    let run1 : Slot := { Slot.cold with st := .run, ctx := some 1, pc := 0x2000 }
    let s := with1 Slot.cold (sm fun x => { x with g := ((x.g.set 6 1).set 7 0x3000).set 1 9 })
    let t := after (.tspn (.g 6) (.g 7) always) s
    s.Issues (.tspn (.g 6) (.g 7) always) (Meta.solo always [.g 6, .g 7] []) ∧ s.spareSlot ⟨0, 1⟩ = true ∧ s.cur.red = none ∧ (with1 run1 s).spareSlot ⟨0, 1⟩ = false ∧
    (got? (s.operands w0 [.g 6, .g 7] [])).isSome = true ∧
    ((t.slot ⟨0, 1⟩).st, (t.slot ⟨0, 1⟩).pc, (t.slot ⟨0, 1⟩).gen, (t.slot ⟨0, 1⟩).reg (.g 1)) = (.run, 0x3000, 1, 9) ∧
    (after (.tspn (.g 6) (.g 5) always) s).cur.ecause = wd cFetchAlign ∧
    (after (.tspn (.g 6) (.g 7) always) (with1 { Slot.cold with st := .run, ctx := some 2 } s)).cur.ecause = wd cThread := by decide +kernel

/-- `rot` with an image it refuses at position 0 (the same slot at every position) and one it accepts, which takes effect
at the position 0 of cycle 16 (O47). -/
theorem witness_rotation_tables :
    let s := fun (w : Nat → Nat) => ((sm fun x => { x with g := x.g.set 6 0x4000000000000040 }).putParts [⟨.spad 0 0x40, 64, .home⟩]
      ((List.range 16).flatMap fun p => leBytes 4 (w p)))
    let good := s fun p => (rtabCold p).toNat
    let t := after (.rot (.g 6) always) good
    good.Issues (.rot (.g 6) always) (Meta.solo always [.g 6] []) ∧ good.cur.op = none ∧
    ((good.tile 0).slots.any fun e => e.2.st == .wait && e.2.why == .rot && e.2.op.isSome) = false ∧ good.cur.padStore 0 = false ∧
    (got? (good.operands w0 [.g 6] [])).isSome = true ∧
    (good.ownPad w0 0x4000000000000040 64 64).toOption = some 0x40 ∧
    (after (.rot (.g 6) always) (s fun _ => 16)).cur.ecause = wd cRotTable ∧ (after (.rot (.g 6) always) (s fun _ => 16)).cur.eval = 0 ∧
    t.cur.why = .rot ∧ ((t.tile 0).rotNext.map fun r => r.1) = some 16 ∧ t.posOf 0 = 0 ∧
    (((later 16 t).tile 0).slots.find? fun e => (e.2.opDue .rot 16).isSome).isSome = true ∧
    ((after (.rotTakeEffect 0) (later 16 t)).tile 0).rotNext = none ∧ (after (.rotTakeEffect 0) (later 16 t)).cur.st = .run ∧
    (after (.rotTakeEffect 0) (later 15 t)).cur.st = .wait := by decide +kernel


/-- A `ckpt` beside the head of a wave of its context in slot 1, which it cuts first (O45). -/
theorem witness_ckpt_waves :
    let s := { with1 { x0 with wave := some ⟨0, 0, 0, 1, none⟩ } s0 with
      waves := [(0, ⟨1, none, 1, 0, 0, 1, 1, 0, [[⟨0x1000, 0, true⟩]], none, 0, false, [], []⟩)] }
    let k := after (.ckpt always) s
    s.Issues (.ckpt always) (Meta.solo always [] []) ∧ s.cur.op = none ∧ s.cur.settledCopies = true ∧ (s.tile 0).wavesOf s.cur.ctx = [0] ∧
    k.cur.why = .ckpt ∧ k.cur.op = none ∧ (k.slot ⟨0, 1⟩).st = .out ∧ (k.tile 0).wavesOf k.cur.ctx = [] := by decide +kernel

/-- A host message header of a type, for context 1, with w1 and LEN. -/
def hdr (type w1 len : Nat) : HostHdr := ⟨wd (type * 2 ^ 56 + 2 ^ 36 + 7), wd w1, wd len, 0⟩

/-- A launch of context 1: of w0's low fields, descriptor at 0x300, on any cluster, RETW at 0x200, arguments 1, 2, .... -/
def record (low : Nat) (deps : List Word) : List Word :=
  let fixed : List Word := [wd (2 ^ 52 + 3 * 2 ^ 48 + low), 0x300, 0, 0x200, 0, 0, 1, 2, 3, 4, 5, 6, 7, 8]
  fixed ++ deps ++ List.replicate (10 - deps.length) 0

/-- `s0` with launches in the queue of context 1. -/
def queued (ls : List Launch) : State := s0.modCtx 1 fun c => { c with queue := ls }

/-- The page of context 1 in the last-level TLB of slab 0. -/
def known (s : State) : State := s.modSlab 0 fun b => { b with lltlb := [page] }

/-- What a unit of slab 0 reaches for context 1, where its pages are known. -/
def slabParts? (s : State) (ps : List (Nat × Nat)) : Option (List Machine.Part) :=
  match s.slabParts 0 1 .read ps with
  | (.ok qs _, _) => some qs
  | _ => none

/-- The state with its page in module 5, which port 1 leads to. -/
def remote (s : State) : State :=
  { s with pages := [{ page with plc := .pod 5 }], routes := [(5, 1)], caps := { s.caps with podMode := 1 } }

/-- TYPE, STATUS, TAG and payload of each reply to the host. -/
def told (s : State) : List (Nat × Nat × Nat × List Byte) := s.replies.filterMap fun r => match r with
  | .host h data => some (hdrType h, bits h.w0.toNat 55 48, hdrTag h, data)
  | .pod _ _ _ _ _ _ _ _ => none

/-- Statuses of HOST_LAUNCH (O48, O49). -/
theorem witness_launch_statuses :
    let h := hdr 1 0 192
    let i := Instr.hostLaunch h (record 1 [])
    let st := fun (i : Instr) (s : State) => (told (after i s)).map fun r => (r.1, r.2.1, r.2.2.1)
    s0.ready = true ∧ hdrBad h 1 = false ∧ hdrCtx h = 1 ∧ s0.recovery = false ∧ s0.ctxLive 1 = true ∧
    s0.badLaunch 1 (record 1 []) = false ∧ st i s0 = [(0x81, 0, 7)] ∧ ((after i s0).ctxOf 1).queue = [⟨record 1 [], [], 0⟩] ∧
    st (.hostLaunch (hdr 1 8 192) (record 1 [])) s0 = [(0x81, 6, 7)] ∧ st i { s0 with recovery := true } = [(0x81, 5, 7)] ∧
    st (.hostLaunch { h with w0 := 0x0100002000000007 } (record 1 [])) s0 = [(0x81, 2, 7)] ∧
    st i (s0.modCtx 1 fun c => { c with queueFrozen := true }) = [(0x81, 5, 7)] ∧
    st (.hostLaunch h (record 0 [])) s0 = [(0x81, 1, 7)] ∧
    st i (queued (List.replicate 256 ⟨record 1 [], [], 0⟩)) = [(0x81, 3, 7)] := by decide +kernel

/-- Bytes written and read by the host, and a range that no page maps (O48). -/
theorem witness_host_accesses :
    let wr := fun a => after (.hostWrite (hdr 2 a 8) [1, 2, 3, 4, 5, 6, 7, 8]) s0
    let rd := fun a => after (.hostRead (hdr 3 a 8)) s0
    hdrBad (hdr 2 0x108 8) 2 = false ∧ hdrLen (hdr 2 0x108 8) = 8 ∧
    (s0.tableParts 1 .write (pieces 8 0x108 8)).toOption = some [⟨.hbm 0x108, 8, .home⟩] ∧ s0.poisoned [⟨.hbm 0x108, 8, .home⟩] = false ∧
    leNat ((wr 0x108).getParts [⟨.hbm 0x108, 8, .home⟩]) = 0x0807060504030201 ∧
    (told (wr 0x108)).map (fun r => (r.1, r.2.1, r.2.2.1)) = [(0x82, 0, 7)] ∧
    (s0.tableParts 1 .read (pieces 8 0x90000 8)).toOption = none ∧ ((wr 0x90000).ctxOf 1).queueFrozen = true ∧
    (wr 0x90000).flog.map (fun f => (f.cls, f.outcome, f.mkind, f.ctx)) = [(2, 2, 5, 1)] ∧
    (told (rd 0x108)).map (fun r => (r.1, r.2.1, leNat r.2.2.2, r.2.2.2.length)) = [(0x83, 0, 0, 8)] ∧
    (told (rd 0x90000)).map (fun r => (r.1, r.2.1)) = [(0x83, 4)] ∧ s0.hostPods (hdr 2 0x108 8) = [] ∧ s0.writeHeld [⟨.hbm 0x108, 8, .home⟩] = false ∧
    (let r := remote s0
     let t := after (.hostRead (hdr 3 0x108 8)) r
     let u := { t with pods := t.pods.map fun f => { f with code := podRefused } }
     (r.tableParts 1 .read (pieces 8 0x108 8)).toOption = some [⟨.pod 5 0x108, 8, .pod 5⟩] ∧ r.podClosed ⟨.pod 5 0x108, 8, .pod 5⟩ = false ∧
     t.pods.map (fun f => (f.by_, f.module, f.pa, f.code)) = [(.module, 5, 0x108, 1)] ∧ (u.hostPods (hdr 3 0x108 8)).length = 1 ∧
     ((after (.hostRead (hdr 3 0x108 8)) u).ctxOf 1).queueFrozen = true) := by decide +kernel

/-- What a start finds when everything passes. -/
def passes : StartIn := ⟨true, [], [], [], [], [], [], 0, 1, 0, 10, []⟩

/-- Management requests refused and carried out (O48). -/
theorem witness_management :
    let h := hdr 4 0 8
    let stuck := sm fun x => { x with st := .halt, frozen := true, task := some 3 }
    let st := fun (i : Instr) (s : State) => (told (after i s)).map fun r => r.2.1
    hdrBad h 4 = false ∧ st (.hostMgmt h false (.openCtx 2)) s0 = [5] ∧ hdrType h < 128 ∧
    st (.hostMgmt h true (.openCtx 2)) { s0 with recovery := true } = [5] ∧ ((after (.hostMgmt h true (.openCtx 2)) s0).ctxOf 2).isOpen = true ∧
    ((s0.manage (.bucket 0 10 900 300)).1.clu 0).cap = 64 ∧ s0.ctxLive 1 = true ∧ stuck.cur.frozen = true ∧ stuck.cur.wave = none ∧
    (after (.mgmtEndTask h true w0) stuck).cur.st = .idle ∧ st (.mgmtEndTask h true w0) s0 = [6] := by decide +kernel

theorem witness_image_update :
    let h := hdr 4 0 8
    let r := { State.reset with recovery := true }
    goesOn (.mgmtQuote h true (List.replicate 32 0)) s0 = true ∧ r.ready = true ∧ r.recovery = true ∧ passes.ctrlOk = true ∧
    (after (.mgmtImageUpdate h true true [1, 2] passes) r).image = [1, 2] ∧
    (after (.mgmtImageUpdate h true false [1, 2] passes) r).recovery = true := by decide +kernel

/-- Dependences read: one reached and one not, and one that cannot be read (O49). -/
theorem witness_dependences :
    let l : Launch := ⟨record (2 ^ 33 + 1) [0x308, 5, 0x310, 6], [false, false], 0⟩
    let s := known (withHbm 0x310 5 (withHbm 0x308 5 (queued [l])))
    let bad := unmapped 0x90000 (queued [⟨record (2 ^ 32 + 1) [0x90000, 5], [false], 0⟩])
    l.eligible = false ∧ lNdep l.words = 2 ∧ slabParts? s (pieces 8 0x308 8) = some [⟨.hbm 0x308, 8, .home⟩] ∧ slabParts? s (pieces 8 0x310 8) = some [⟨.hbm 0x310, 8, .home⟩] ∧
    ((after (.launchDependenceRead 1 0) s).ctxOf 1).queue = [{ l with met := [true, false] }] ∧
    (match bad.slabParts 0 1 .read (pieces 8 0x90000 8) with | (.bad _, _) => true | _ => false) = true ∧
    (match (queued []).slabParts 0 1 .read (pieces 8 0x308 8) with | (.miss _, _) => true | _ => false) = true ∧
    ((after (.launchDependenceRead 1 0) bad).ctxOf 1).queue = [] ∧
    (after (.launchDependenceRead 1 0) bad).flog.map (fun f => (f.cls, f.outcome, f.cause, f.addr)) = [(5, 6, 4, 0x90000)] := by
  decide +kernel

/-- A descriptor: entry 0x1000, one range of 64 bytes from 0x400 to scratchpad 0x2000. -/
def descriptor (n : Nat) : List Word := [0x1002, wd n, 0x400, 64, 0x2000] ++ List.replicate 27 0
def withDesc (n : Nat) (s : State) : State :=
  s.putParts [⟨.hbm 0x300, 256, .home⟩] ((descriptor n).flatMap fun w => leBytes 8 w.toNat)

/-- A launch of two tasks eligible in the queue of context 1, and the parts of its descriptor. -/
def fanned (n : Nat) : State := known (withDesc n (queued [⟨record (2 ^ 44 + 2) [], [], 0⟩]))
def descParts : List Machine.Part := (List.range 32).map fun k => ⟨.hbm (0x300 + 8 * k), 8, .home⟩

/-- A launch taken from its queue with a good descriptor and with a bad one, and its first task handed to a Hoist (O49). -/
theorem witness_fan_out :
    (fanned 1).fan = none ∧ (fanned 1).nextLaunch = some (1, 0, ⟨record (2 ^ 44 + 2) [], [], 0⟩) ∧
    slabParts? (fanned 1) (pieces 256 0x300 256) = some descParts ∧ (fanned 1).poisoned descParts = false ∧
    badDesc (leWords ((fanned 1).getParts descParts)) = false ∧ isRed (descriptor 1) = false ∧
    (after .fanOut (fanned 1)).fan = some ⟨record (2 ^ 44 + 2) [], descriptor 1, 0, none⟩ := by decide +kernel

theorem witness_bad_descriptor :
    badDesc (leWords ((fanned 9).getParts descParts)) = true ∧ (after .fanOut (fanned 9)).fan = none ∧
    (after .fanOut (fanned 9)).flog.map (fun f => (f.cls, f.cause)) = [(5, 1)] := by decide +kernel

theorem witness_task_record :
    let t := after .fanOut (fanned 1)
    let u := after .fanOut t
    t.roomiest (t.extent (record (2 ^ 44 + 2) [])) = some 0 ∧ u.fan.map (fun f => f.next) = some 1 ∧
    (u.clu 0).hoist.map (fun r => (r.entry, r.retw)) = [(0x1000, 0x200)] ∧
    (u.clu 0).hoist.map (fun r => r.args) = [[1, 2, 3, 4, 5, 6, 7, 0]] ∧
    (u.clu 0).hoist.map (fun r => r.ranges) = [[(0x400, 64, 0x2000)]] := by decide +kernel

/-- A task placed, then dispatched; and one whose footprint cannot be read (O49). -/
theorem witness_placement :
    let rec_ := { taskRec (record (2 ^ 44 + 2) []) (descriptor 1) 0 none 0 none with ranges := [(0x400, 8, 0x2000)] }
    let s := withHbm 0x400 0x55 (s0.modClu 0 fun c => { c with hoist := [rec_], placedAt := 0 })
    let w := (s.choose 0 rec_).getD w0
    let t := after (.hoistPlace 0) s
    let opened := after (.taskDispatch w) (known t)
    let d := after (.taskDispatch w) (later 10000 opened)
    (s.clu 0).pow = .on ∧ rec_.prio < 4 ∧ (s.choose 0 rec_).isSome = true ∧ s.mxOfRemoved w.tile 1 = false ∧
    (t.clu 0).hoist = [] ∧ (t.slot w).claimed = some w ∧ (t.tile w.tile).resv.length = (s.tile w.tile).resv.length + 1 ∧
    ((later 10000 opened).placedIn w).map (fun e => (e.2.due.map fun n => decide (n ≤ 10000))) = some (some true) ∧ (t.tile w.tile).running = true ∧
    (d.slot w).st = .run ∧ (d.slot w).pc = 0x1000 ∧ vget (d.slot w).g 7 0 = 7 ∧ leNat (d.getParts [⟨.spad w.tile 0x2000, 8, .home⟩]) = 0x55 := by
  decide +kernel

/-- The pieces of a footprint on their way, one of them not yet to be read, and one read and written (O49). -/
theorem witness_footprint :
    let rec_ := taskRec (record (2 ^ 44 + 2) []) (descriptor 1) 0 none 0 none
    let s := withHbm 0x400 0x55 (s0.modClu 0 fun c => { c with hoist := [rec_], placedAt := 0 })
    let w := (s.choose 0 rec_).getD w0
    let t := after (.taskDispatch w) (known (after (.hoistPlace 0) s))
    let foot := fun (s : State) => ((s.placedIn w).bind fun e => e.2.foot).getD []
    let one := t.modTask 1 fun q => { q with foot := some [⟨0x2000, ⟨.hbm 0x400, 8, .home⟩, 5, none⟩], due := some 9 }
    let go := fun (n : Nat) => after (.taskDispatch w) (later n one)
    (foot t).map (fun f => (f.off, f.data)) = (List.range 8).map (fun k => (0x2000 + 8 * k, none)) ∧
    (foot t).map (fun f => f.part.loc) = (List.range 8).map (fun k => .hbm (0x400 + 8 * k)) ∧ (foot (go 4)).length = 1 ∧
    (foot (go 6)).length = 0 ∧ leNat ((go 6).getParts [⟨.spad w.tile 0x2000, 8, .home⟩]) = 0x55 := by decide +kernel

theorem witness_unread_footprint :
    let rec_ := { taskRec (record 1 []) (descriptor 1) 0 none 0 none with ranges := [(0x90000, 64, 0x2000)] }
    let s := unmapped 0x90000 (s0.modClu 0 fun c => { c with hoist := [rec_], placedAt := 0 })
    let w := (s.choose 0 rec_).getD w0
    let d := after (.taskDispatch w) (later 10000 (after (.hoistPlace 0) s))
    (match s.slabParts 0 1 .read (rec_.footPieces.map fun p => (p.1, p.2.1)) with | (.bad _, _) => true | _ => false) = true ∧ (d.slot w).claimed = none ∧
    (d.slot w).st = (s.slot w).st ∧
    d.flog.map (fun f => (f.cls, f.outcome, f.ctx, f.cause)) = [(5, 6, 1, 2)] := by decide +kernel

/-- Retirement words increased, and one that cannot be written (O50). -/
theorem witness_retirement :
    let s := fun (a : Word) => { withHbm 0x200 5 s0 with retAdds := [⟨1, a, 9, 3⟩] }
    let t := after (.retirementWordAdd 0) (s 0x200)
    (s 0x200).copiesOf 9 = false ∧ (s 0x200).taskOwes 9 = false ∧ ((s 0x200).tableParts 1 .write (pieces 8 0x200 8)).toOption = some [⟨.hbm 0x200, 8, .home⟩] ∧
    leNat (t.getParts [⟨.hbm 0x200, 8, .home⟩]) = 8 ∧ t.retAdds = [] ∧
    ((s 0x90000).tableParts 1 .write (pieces 8 0x90000 8)).toOption = none ∧
    (s 0x200).askedPods (2 ^ 48 + 9) 1 = [] ∧
    (after (.retirementWordAdd 0) (remote (s 0x200))).pods.map (fun f => (f.by_, f.module, f.pa, f.code)) = [(.module, 5, 0x200, 3)] ∧
    (after (.retirementWordAdd 0) (s 0x90000)).flog.map (fun f => (f.cls, f.outcome, f.cause, f.addr)) = [(5, 6, 5, 0x90000)] := by
  decide +kernel

/-- A task of priority 0 with its thread in slot 0, and a record of priority 3 for a tile with no slot free. -/
def tasked (f : Task → Task) (st : SlotSt) : State :=
  let low := { taskRec (record 1 []) (descriptor 0) 0 none 0 none with prio := 0 }
  let high := { taskRec (record 1 []) (descriptor 0) 0 none 0 none with prio := 3, ctx := 2, target := some 0, ranges := [] }
  { (((sm fun x => { x with task := some 9, st := st }).modTile 0 fun t =>
      { t with slots := t.slots ++ (List.range 15).map fun k => (k + 1, { Slot.cold with st := .halt }) }).modClu 0
      fun c => { c with hoist := [high] }) with
    tasks := [(9, f ⟨low, 0, 0, 0, 0, none, [], 0, false, false, none, none⟩)] }

/-- A task pre-empted after 100 µs, and one that goes on (O50). -/
theorem witness_preemption :
    let s := later 225000 (tasked (fun q => q) .run)
    let t := after (.hoistPreempt 0) s
    let u := (after (.hoistPreempt 0) s).modClu 0 fun c => { c with hoist := [] }
    (hoistOrder (s.clu 0).hoist).findSome? (fun e => s.preemptFor 0 e.2) = some (9, 0) ∧ s.threadsOf 9 = [w0] ∧ s.cur.trapq = [] ∧
    t.cur.st = .out ∧ (t.task? 9).map (fun q => q.removed) = some (some 0) ∧
    ((u.tile 0).savedFor 1).isNone = true ∧ u.spilledOf 9 = [] ∧ u.cur.claimed = none ∧ u.cur.st = .out ∧
    (after (.hoistPreempt 0) u).cur.st = .run := by decide +kernel

/-- A thread spilled by the Badger and put back (O50). -/
theorem witness_spill :
    let s := later 9 (sm fun x => { x with st := .out, claimed := some w0, waitUntil := some 9, gen := 4 })
    let t := after (.badgerSpillDone w0) s
    let u := t.modSlot w0 fun x => { x with claimed := some w0, waitUntil := some 9 }
    (s.cur.st, s.cur.claimed, s.cur.waitUntil) = (.out, some w0, some 9) ∧ t.cur.st = .idle ∧ t.cur.gen = 4 ∧
    (t.tile 0).spilled.map (fun e => e.1) = [0] ∧ (u.tile 0).ring = [] ∧
    (after (.badgerRestoreDone w0) u).cur.st = .out ∧ (after (.badgerRestoreDone w0) u).cur.reg (.g 20) = 3 := by decide +kernel

/-- Tokens refilled; a grant with no token, with no request, and with two requests (O51). -/
theorem witness_tokens :
    let s := later 99 (s0.modClu 0 fun c => { c with bal := 5 })
    let w := s0.modSlab 0 fun l => { l with wakes := [⟨.cluster 1, 1, 0, none⟩, ⟨.engine 0 6, 2, 0, none⟩] }
    let t := after (.inrushGrant 0) w
    (s.clu 0).filled = 0 ∧ s.throttled 0 = false ∧ ((after (.tokenRefill 0) s).clu 0).bal = min (s.clu 0).cap (5 + (s.clu 0).fill * 100) ∧
    (s0.slab 0).tokens = 8 ∧ (s0.slab 0).wakes = [] ∧ ((w.modSlab 0 fun l => { l with tokens := 0 }).slab 0).tokens = 0 ∧
    (t.slab 0).tokens = 7 ∧ (t.eng 0 6).pow = .waking ∧ (t.clu 1).pow = .on ∧
    (t.slab 0).wakes = [⟨.cluster 1, 1, 0, none⟩, ⟨.engine 0 6, 2, 0, some 0⟩] := by decide +kernel

/-- The states of a cluster's power (O51). -/
theorem witness_gating :
    let at_ := fun (p : ClPow) (a : Option Nat) => State.reset.modClu 0 fun c => { c with pow := p, idleAt := a, wakeWanted := p == .gating }
    let held := (at_ .waking none).modSlab 0 fun l => { l with wakes := [⟨.cluster 0, 1, 0, some 3⟩] }
    (s0.clu 0).pow = .on ∧ s0.clusterIdle 0 = false ∧ (at_ .on none).clusterIdle 0 = true ∧
    ((after (.clusterGate 0) (at_ .on none)).clu 0).idleAt = some 0 ∧
    ((at_ .on (some 0)).served 0).all (fun u => ((at_ .on (some 0)).tile u).slots.isEmpty) = true ∧
    ((after (.clusterGate 0) (later 224999 (at_ .on (some 0)))).clu 0).pow = .on ∧
    ((after (.clusterGate 0) (later 225000 (at_ .on (some 0)))).clu 0).pow = .gating ∧
    ((after (.gatingSpillDone 0) (at_ .gating none)).clu 0).pow = .gated ∧
    ((after (.gatingSpillDone 0) (at_ .gating none)).slab 0).wakes.map (fun r => r.what) = [.cluster 0] ∧
    ((after (.clusterWakeHoldEnd 0) (later 2252 held)).clu 0).pow = .waking ∧
    ((after (.clusterWakeHoldEnd 0) (later 2253 held)).clu 0).pow = .restoring ∧
    ((after (.clusterRestoreDone 0) (later 600 (at_ .restoring (some 1)))).clu 0).pow = .restoring ∧
    ((after (.clusterRestoreDone 0) (later 601 (at_ .restoring (some 1)))).clu 0).pow = .on := by decide +kernel

/-- Bands at the first sample, held by the 100 µs, left only 3 degrees below, and a trip (O52). -/
theorem witness_bands :
    let s := fun (b : Nat) (a : Option Nat) => ((sm fun x => { x with pers := true }).modPtile (s0.phys 0) fun p => { p with band := b, bandAt := a })
    let go := fun (n q b : Nat) (a : Option Nat) => ((after (.thermalSample (s0.phys 0) q) (later n (s b a))).ptile (s0.phys 0)).band
    s0.virtOf (s0.phys 0) = some 0 ∧ (s0.ptile (s0.phys 0)).role = .serving ∧ (s0.ptile (s0.phys 0)).bandAt = none ∧
    [go 0 379 0 none, go 0 380 0 none, go 0 420 0 none, go 0 459 0 none, go 0 460 0 none] = [0, 1, 2, 2, 3] ∧
    [go 224999 400 0 (some 0), go 225000 400 0 (some 0), go 1 460 0 (some 0)] = [0, 1, 3] ∧
    [go 225000 369 1 (some 0), go 225000 368 1 (some 0)] = [1, 0] ∧
    (let s := (s 0 none).modPtile (s0.phys 0) fun p => { p with sampledAt := some 0 }
     (after (.thermalSample (s0.phys 0) 460) (later 2249 s)) = later 2249 s ∧
     ((after (.thermalSample (s0.phys 0) 460) (later 2250 s)).ptile (s0.phys 0)).band = 3) ∧
    (after (.thermalSample (s0.phys 0) 380) (s 0 none)).cur.notice = true ∧
    ((after (.thermalSample (s0.phys 0) 460) (s 0 none)).ptile (s0.phys 0)).gated = true := by decide +kernel

/-- A move of virtual tile 0, to the SPARE tile 25, in a phase, with what follows it. -/
def moving (why : MoveWhy) (ph : Phase) (f : Move → Move) (g : Tile → Tile) : State :=
  s0.modTile 0 fun t => g { t with move := some (f ⟨why, s0.phys 0, 25, ph, 1, [], [], 0, 0, true, 0⟩) }
def phaseOf (s : State) : Option Phase := (s.tile 0).move.map fun m => m.phase

/-- A rest step at a fresh module, and none while the slab is not booted or has a move in progress (O53). -/
theorem witness_rest_step :
    let t := after (.restStep 0) State.reset
    let down := s0.modSlab 0 fun b => { b with booted := false }
    (s0.slab 0).booted = true ∧ s0.bearBusy 0 = false ∧ (s0.gaps 0).length = 8 ∧ (down.slab 0).booted = false ∧
    (moving .rest .precopy (fun m => m) fun t => t).bearBusy 0 = true ∧
    ((List.range 4).findSome? fun q => (State.reset.restsOf 0 q).head?).isSome = true ∧
    State.reset.findReturn (State.reset.slabTiles 0) = none ∧ t.bearBusy 0 = true ∧ (after (.restStep 0) t).bearBusy 0 = true := by
  decide +kernel

/-- The phases of a move (O53). -/
theorem witness_move_phases :
    let pass := moving .rest .precopy (fun m => { m with marked := List.range 4096 }) fun t => t
    let drained := after (.movePrecopyPassEnd 0) (moving .rest .precopy (fun m => m) fun t => t)
    let copied := after (.moveDrainEnd 0) drained
    let t := after (.moveCopyEnd 0) (later 5000 copied)
    let u := after (.moveRemapEnd 0) (later 1800 t)
    ((after (.movePrecopyPassEnd 0) pass).tile 0).move.map (fun m => (m.pass, m.due)) = some (2, 8192) ∧
    phaseOf (after (.movePrecopyPassEnd 0) (later 1 (moving .rest .precopy (fun m => m) fun t => t))) = some .precopy ∧
    drained.posOf 0 = 0 ∧ (drained.tile 0).waveIds = [] ∧ phaseOf drained = some .drain ∧ (drained.tile 0).stopped = false ∧
    (drained.tile 0).slots.all (fun e => e.2.settled && e.2.trapq.isEmpty) = true ∧ drained.wavesStopped 0 = true ∧ drained.accessesOut 0 = false ∧
    phaseOf copied = some .copy ∧ phaseOf t = some .remap ∧ phaseOf u = some .resume ∧ u.phys 0 = 25 ∧
    (drained.modSlot w0 (pending 0 0 .mwld)).wavesStopped 0 = true ∧
    phaseOf (after (.moveDrainEnd 0) (drained.modSlot w0 (pending 0 0 .mwld))) = some .drain := by decide +kernel

theorem witness_resumes :
    let s := fun (why : MoveWhy) => after (.moveResume 0) (moving why .resume (fun m => m) fun t => t)
    let role := fun (why : MoveWhy) => ((s why).ptile (s0.phys 0)).role
    let off := (moving .rest .resume (fun m => m) fun t => t).modClu (clusterOf 25) fun c => { c with pow := .gated }
    (off.clu (clusterOf 25)).pow ≠ .on ∧ (s0.clu (clusterOf 25)).pow = .on ∧ phaseOf (after (.moveResume 0) off) = some .resume ∧
    (later 1 (moving .rest .resume (fun m => m) fun t => t)).posOf 0 = 1 ∧ (s0.posOf 0) = 0 ∧ s0.phys 0 ≠ 25 ∧
    ((s .rest).tile 0).move.isNone = true ∧
    [role .rest, role .mismatch, role .ret, role .thermal, role .retire] = [.resting, .resting, .spare, .spare, .retired] := by
  decide +kernel

/-- The phases of a stop sequence (O53). -/
theorem witness_stop_phases :
    let stop := fun (why : MoveWhy) (live : Bool) => moving why .drain (fun m => { m with live := live }) fun t => { t with stopped := true }
    let full := fun (s : State) => { s with ptiles := (List.range 64).map fun p => (p, { PTile.cold p with role := .serving }) }
    let c := after (.stopDrainEnd 0) (stop .mismatch false)
    let r := after (.stopCopyEnd 0 false) (later 9000 c)
    let n := after (.stopRemapEnd 0) (later 1800 r)
    (stop .mismatch false).stopBlocked 0 ⟨.mismatch, s0.phys 0, 25, .drain, 1, [], [], 0, 0, false, 0⟩ = false ∧
    ((stop .mismatch false).tile 0).onlySteps = true ∧ (stop .mismatch false).wavesStopped 0 = true ∧
    (stop .mismatch false).stopDest (s0.phys 0) .mismatch = some 29 ∧ phaseOf c = some .copy ∧ phaseOf r = some .remap ∧
    phaseOf n = some .run ∧ phaseOf (after (.stopReplayEnd 0) (later 9000 n)) = some .resume ∧
    ((after (.stopCopyEnd 0 true) (later 9000 c)).tile 0).move.map (fun m => (m.live, m.phase)) = some (true, .copy) ∧
    (full (stop .trip true)).stopDest (s0.phys 0) .trip = none ∧ phaseOf (after (.stopDrainEnd 0) (full (stop .trip true))) = some .waiting ∧
    ((after (.stopDrainEnd 0) (full (stop .retire true))).tile 0).vacant = true ∧
    phaseOf (after (.stopDrainEnd 0) ((stop .trip true).modSlot w0 (pending 0 0 .mwld))) = some .drain := by decide +kernel

/-- A boundary that fits and one that does not (O54). -/
theorem witness_boundaries :
    let s := fun (used : Nat) => (withPad 0x40 0x77 s0).modTile 0 fun t => { t with image := { t.image with used := used }, boundary := 0 }
    let t := after (.autoBoundary 0) (later 1125008 (s 0))
    ((s 0).tile 0).running = true ∧ ((s 0).tile 0).wantsBoundary 1125008 = true ∧ (later 1125008 (s 0)).posOf 0 = 0 ∧
    (t.tile 0).covered = true ∧ (t.tile 0).boundary = 1125008 ∧ leNat ((kvGet (t.tile 0).image.lines 1 []).take 8) = 0x77 ∧
    ((after (.autoBoundary 0) (later 1125008 (s 262144))).tile 0).covered = false := by decide +kernel

/-- Self-tests that pass and fail, and an hour of a tile that serves and of one that rests (O54). -/
theorem witness_ageing :
    let p := gapRow 0 * 8
    let pass := (after (.selftestDone p true false 39) State.reset).ptile p
    let fail := after (.selftestDone p false false 39) State.reset
    ((State.reset.ptile p).role, (State.reset.ptile p).testing, (State.reset.ptile p).gated) = (.resting, true, false) ∧
    (pass.testing, pass.age.marg, pass.age.flag) = (false, 39, true) ∧ (fail.ptile p).role = .retired ∧
    fail.flog.map (fun f => (f.cls, f.cause)) = [(11, 1)] ∧ (State.reset.ptile 0).role = .serving ∧
    goesOn (.ageingHourly 0 300) s0 = true := by decide +kernel

/-- The example of R389: 1,200 stress-hours between margins of 62 and 58 mV at 75 degrees, then a mismatch (24 R389). -/
theorem test_remaining_life :
    let a := { Ageing.cold with marg := 62, strh := 1200, lastW := stressWeight 300 }
    (a.tested true 58).eol = 22800 ∧ ((a.tested true 58).mismatch 0).eol = 11400 ∧ stressWeight 340 = 2 ^ 32 := by decide +kernel

/-- A context torn down, and one that a move holds back (O55). -/
theorem witness_teardown :
    let dying := fun (s : State) => s.modCtx 1 fun c => { c with dying := true }
    let s := dying (withHbm 0x300 5 s0)
    let t := after (.teardown 1) s
    (s.ctxOf 1).dying = true ∧ s.teardownHeld 1 = false ∧ (dying (moving .rest .copy (fun m => m) fun t => t)).teardownHeld 1 = true ∧
    kvWf s.tiles = true ∧ s.tiles.all (fun e => kvWf e.2.slots) = true ∧
    t.ctxOf 1 = Ctx.cold ∧ t.cur.st = .idle ∧ t.cur.gen = 1 ∧ t.pages = [] ∧ leNat (t.getParts [⟨.hbm 0x300, 8, .home⟩]) = 0 := by decide +kernel

/-- A patrol that finds nothing, a corrected error and an uncorrectable one; a page scrubbed; a handler down and up again (O55). -/
theorem witness_scrub :
    let bad := after (.patrolScrub 0x300 2) (withHbm 0x300 5 s0)
    let q := { withHbm 0x300 5 s0 with quarantine := [0] }
    let d := after (.overflowHandlerRestart 0) s0
    kvGet (after (.patrolScrub 0x300 1) s0).hbmCorr 0 0 = 1 ∧ bad.poison = [24] ∧ bad.quarantine = [0] ∧ bad.pages = [] ∧
    (bad.ctxOf 1).dying = true ∧ s0.chargedAt 0x300 = [1] ∧
    (after (.quarantineScrub 0 true) q).quarantine = [] ∧ leNat ((after (.quarantineScrub 0 true) q).getParts [⟨.hbm 0x300, 8, .home⟩]) = 0 ∧
    (after (.quarantineScrub 0 false) q).withdrawn = [0] ∧ (s0.clu 0).handlerDown = false ∧ (d.clu 0).handlerDown = true ∧
    d.flog.map (fun f => (f.cls, f.cause)) = [(4, 2)] ∧ ((after (.overflowHandlerRestart 0) d).clu 0).handlerDown = false := by decide +kernel

/-- A load of HBM and one of the scratchpad that meet errors, with the word covered and not, and a poisoned engine (O55). -/
def loading (a : Word) : State := later 9999 (after (.ld64 (.g 6) (.g 21) (BitVec.ofNat 2 (modeOf a)) 0 9 0) (at_ (wd (addrOf a))))

/-- Whether the data of the first pending load is still to be read, and nothing far holds it. -/
def unread (s : State) : Bool :=
  match s.cur.pend with
  | p :: _ => match p.job.acc?.bind fun a => arrived? (s.arrive w0 p a .read) with
    | some (q, a, t) => decide (q.mids.getD 0 0 ≤ t.now) && !q.performed && !(t.farHeld 0 a.parts).1
    | none => false
  | [] => false

theorem witness_stored_errors :
    let h := loading 0x300
    let go := fun (e : Ecc) (s : State) => after (.loadComplete w0 1 e) s
    arrives h .read = true ∧ unread h = true ∧
    kvGet (go .corrected h).hbmCorr 0 0 = 1 ∧ (go .corrected h).cur.pend = [] ∧
    (go .line h).poison = [24] ∧ ((go .line h).ctxOf 1).dying = true ∧ (go .line h).cur.pend.length = 1 := by decide +kernel

theorem witness_scratchpad_errors :
    let l := loading 0x4000000000000300
    let cov := l.modTile 0 fun t => { t with covered := true }
    let go := fun (e : Ecc) (s : State) => after (.loadComplete w0 1 e) s
    [l, cov].all (fun s => arrives s .read) = true ∧ [l, cov].all unread = true ∧
    (l.tile 0).lineCovered 0x300 = false ∧ (cov.tile 0).lineCovered 0x300 = true ∧ (cov.tile 0).stopped = false ∧
    (cov.tile 0).move.isNone = true ∧ (cov.tile 0).waveIds = [] ∧ ((go .word l).ctxOf 1).dying = true ∧ ((go .word cov).tile 0).stopped = true ∧
    (go .word cov).flog.map (fun f => (f.cls, f.outcome, f.mkind, f.cause)) = [(3, 1, 6, 3)] := by decide +kernel

theorem witness_engine_error :
    let s := (s0.modSlot w0 fun x => pending 5 0 (.erd (.o 1) 1 0) (x.setBind 1 { Binding.cold with st := .bound, evn := 3, kind := 3, eng := 6 })).modEng
      0 6 fun g => { g with pow := .on, holder := some (w0, 1) }
    let t := after (.erdComplete w0 1 true) s
    (s.cur.ripe s.now 1).isSome = true ∧ (s.cur.bind 1).st = .bound ∧ (s.eng 0 6).frozen = none ∧ (t.eng 0 6).frozen = some 1 ∧
    t.flog.map (fun f => (f.cls, f.outcome, f.cause)) = [(6, 2, 2)] := by decide +kernel

/-- Errors that no load meets: a corrected word counted at its tile, an uncorrectable one in the source of a burst, which ends its chain
with CODE 2 (23 R363, R364, R371); and the engine's registers in the module log (21 Table 21.4). -/
theorem test_errors_found :
    let t := (fly false 0x8000000000000008 { burst with parts := [⟨.spad 0 0x300, 8, .home⟩] }).burstError 0 1 0 0 .word
    ((s0.foundError 0 0 0x300 .corrected).ptile (s0.phys 0)).age.corr = 1 ∧ (t.ctxOf 1).dying = true ∧
    ((head? t).bind fun h => h.ending.map fun e => e.1) = some 2 ∧
    (((s0.modEng 0 6 fun g => { g with holder := some (w0, 1), active := vset g.active 2 9 }).freezeEngine 0 6 1 ⟨6, 2, 0⟩).flog.map
      fun f => (f.dump.getD 2 0, f.dump.length)) = [(9, 35)] := by decide +kernel

/-- Ring 5 in the scratchpad of tile 0: two slots of 2,048 bytes, with TAIL, HEAD, frames for its class from port 0. -/
def ringed (tail : Word) (more : Nat) : State :=
  { withPad 0 tail s0 with rings := [(5, ⟨0x4000000400000000, wd (2 ^ 52 + more + 11 * 2 ^ 24 + 1), []⟩)], classes := [(0, 5)] }
def ringOf (s : State) : Ring := kvGet s.rings 5 ⟨0, 0, []⟩

/-- Frames counted at their port, and in the FLT, SIZE and FULL counters of a ring (O56). -/
theorem witness_frames_dropped :
    let s := ringed 0 (2 ^ 32)
    kvGet (after (.frameArrive 0 none false false [1]) s).portBad 0 0 = 1 ∧
    kvGet (after (.frameArrive 0 (some 3) true false [1]) s).portNoMatch 0 0 = 1 ∧
    s.classes.find? (fun e => e.1 == classKey 0 (some 3)) = none ∧ s.classes.find? (fun e => e.1 == classKey 0 none) = some (0, 5) ∧
    (ringOf s).fits = true ∧ (ringOf s).mode = 1 ∧ (ringOf s).keyx = 0 ∧ ((ringOf s).en, (ringOf s).pol, (ringOf s).n) = (true, false, 2) ∧
    (s.ringParts (ringOf s) 0 (128 + 2 * 2048) .write).isSome = true ∧
    (s.ringWord (ringOf s) 0, s.ringWord (ringOf s) 8) = (some 0, some 0) := by decide +kernel

theorem witness_frame_policy :
    let s := ringed 0 (2 ^ 32)
    let t := after (.frameArrive 0 none true false (List.replicate 100 0x5A)) (ringed 0 0)
    (t.ringWord (ringOf s) 96, t.ringWord (ringOf s) 104, t.ringWord (ringOf s) 0) = (some 1, some 100, some 0) := by decide +kernel

theorem witness_frame_too_long :
    let s := ringed 0 (2 ^ 32)
    let t := after (.frameArrive 0 none true false (List.replicate 2033 0x5A)) s
    (t.ringWord (ringOf s) 80, t.ringWord (ringOf s) 88) = (some 1, some 2033) := by decide +kernel

theorem witness_frame_ring_full :
    let s := ringed 0 (2 ^ 32)
    let t := after (.frameArrive 0 none true false (List.replicate 100 0x5A)) (ringed 2 (2 ^ 32))
    (t.ringWord (ringOf s) 32, t.ringWord (ringOf s) 40, t.ringWord (ringOf s) 0) = (some 1, some 100, some 2) := by decide +kernel

/-- A frame of 24 bytes stands in slot 1 with its header (O56). -/
theorem witness_frame_written :
    let s := ringed 1 (2 ^ 32)
    let t := after (.frameArrive 0 none true false (List.replicate 24 0x5A)) s
    let r := ringOf t
    (t.ringWord r 0, t.ringWord r 16, t.ringWord r 24) = (some 2, some 1, some 24) ∧
    (t.ringWord r (128 + 2048), t.ringWord r (128 + 2048 + 8)) = (some 0x10018, some 0) ∧
    t.ringWord r (128 + 2048 + 16 + 16) = some 0x5A5A5A5A5A5A5A5A := by decide +kernel

/-- A link module 3 of `s0` whose end 0 holds three flits and whose end 1 is as given. -/
def linked (q : LinkEnd) (f : Link → Link) : State :=
  { s0 with links := [(3, f { s0.link 3 with ends := #v[⟨10, [7, 8, 9], 0, 0, 0, false, []⟩, q] })] }
def fresh : LinkEnd := ⟨0, [], 0, 0, 0, false, []⟩
def link3 (i : Instr) (s : State) : Link := (after i s).link 3
def received (i : Instr) (f : Link → Link) : Link := link3 i (linked { fresh with expect := 7 } f)
def refused (i : Instr) (b : List Nat) (st : Nat) : Link :=
  link3 i (linked { fresh with expect := 8, nakSent := true, owed := [0] } fun x => { x with bursts := b, state := st })

/-- Flits expected, not expected and damaged, and those that end a fall-back (O56). -/
theorem witness_flits :
    (s0.link 3).state = 0 ∧ ((s0.link 3).end_ 1).expect = 0 ∧ ((received (.linkFlitReceive 7 7 none none) id).end_ 1).expect = 8 ∧
    ((received (.linkFlitReceive 7 9 none none) id).end_ 1).expect = 7 := by decide +kernel

theorem witness_flit_bad :
    ((received (.linkFlitReceive 7 7 (some 4) none) id).end_ 1).crcerr = 1 ∧ ((received (.linkFlitReceive 7 7 (some 4) none) id).end_ 1).nakSent = true ∧
    ((received (.linkFlitReceive 7 7 (some 4) none) id).end_ 0).crcerr = 0 := by decide +kernel

theorem witness_fall_back :
    (received (.linkFlitReceive 7 7 none none) fun x => { x with falls := some (1, 7) }).state = 2 ∧
    (let s := { s0 with links := [(192, { s0.link 3 with ends := #v[⟨10, [7], 0, 0, 0, false, []⟩, { fresh with expect := 7 }], falls := some (1, 7), state := 1 })] }
     ((after (.linkFlitReceive 385 7 none none) s).link 192).state = 3) := by decide +kernel

/-- A NAK, with bursts up to the fourth, and a retrain (O56). -/
theorem witness_nak :
    ((refused (.linkNakReceive 6 8) [] 0).end_ 0).held = [8, 9] ∧ ((refused (.linkNakReceive 6 8) [] 0).end_ 0).replays = 2 ∧ (refused (.linkNakReceive 6 8) [] 0).bursts = [0] ∧ (refused (.linkNakReceive 6 8) [] 0).falls = none ∧
    (refused (.linkNakReceive 6 8) [0, 0, 0] 0).falls = some (1, 9) ∧ ((refused (.linkNakReceive 6 8) [] 0).end_ 1).nakSent = false := by decide +kernel

theorem witness_links_wait :
    after (.linkNakReceive 6 8) (linked fresh id) = linked fresh id ∧
    (link3 (.linkBurstExpire 3) (later 2250001 (linked fresh fun x => { x with bursts := [0] }))).bursts = [] ∧
    (link3 (.linkRetrainEnd 3) (later 4499 (linked fresh fun x => { x with state := 2 }))).state = 2 ∧
    (link3 (.linkRetrainEnd 3) (later 4500 (linked fresh fun x => { x with state := 2 }))).state = 1 := by decide +kernel

/-- A module whose end holds flits, beside one that works (O56; 23 R375). -/
theorem witness_module_down :
    ((linked fresh id).link 2).state < 2 ∧ (((linked fresh id).link 3).end_ 0).held = [7, 8, 9] ∧
    ((linked fresh id).link 2).end_ 0 = fresh := by decide +kernel

/-- Pod requests sent again and then given up: of a thread, a channel, an engine, a task and another unit (O57). -/
theorem witness_pod_requests_end :
    let f := fun (m : Master) (thr : Nat) => (⟨m, thr, 0x0FFC, 0x300, 0, 1, 4, 0x300, 1, 6, 0, 0, 2, 1, 8, 0⟩ : PodFlight)
    let s := fun (m : Master) => { ((sm fun x => { pending 5 0 .mwld x with thr := 3 }).modChan 0 1 fun c => { c with chains := [chain] }).modEng 0 6 (fun g =>
      { g with holder := some (w0, 1) }) with pods := [f m 3], routes := [(4, 7)], tasks := [(9, ⟨taskRec (record 1 []) (descriptor 0) 0 none 0 none, 0, 5, 0, 0, none, [], 0, false, false, none, none⟩)] }
    let t := fun (m : Master) => after (.podRequestFreeze 0) (later 22500000 (s m))
    let me := s (.thread w0)
    me.cur.gen = 0 ∧ me.cur.thr = 3 ∧ (me.cur.pend? 1).isSome = true ∧ (f .module 3).waits = true ∧
    (after (.podRequestResend 0) (later 2249999 me)).pods = [f (.thread w0) 3] ∧
    (after (.podRequestResend 0) (later 2250000 me)).pods = [{ f (.thread w0) 3 with sentAt := 2250000, port := 7 }] ∧
    (after (.podRequestFreeze 0) (later 22499999 me)).cur.frozen = false ∧ (t (.thread w0)).cur.frozen = true ∧ (t (.thread w0)).cur.epc = 0x0FFC ∧
    (t (.thread w0)).pods = [] ∧ (t (.thread w0)).flog.map (fun r => (r.cls, r.outcome, r.cause)) = [(9, 2, 4)] ∧
    ((head? (t (.chan 0 1))).bind fun h => h.ending) = some (noReply, 0x300) ∧
    ((t (.eng 0 6)).eng 0 6).frozen = some 1 ∧ (t (.eng 0 6)).flog.map (fun r => (r.cls, r.outcome, r.addr)) = [(9, 2, 0x300)] ∧
    (t (.task 9)).tasks = [] ∧ (t .module).pods.map (fun f => f.code) = [podSilent] := by decide +kernel

/-- Code, status and data of each reply to another module. -/
def sent (s : State) : List (Nat × Nat × Nat) := s.replies.filterMap fun r => match r with
  | .host _ _ => none
  | .pod _ _ _ _ _ code st data => some (code, st, leNat data)

/-- The page at 0 exported, port 1 carrying Shoheosh, and a request that comes by it. -/
def sPod : State := { withHbm 0x300 5 s0 with exports := [0], caps := { s0.caps with podMode := 1 } }
def req : PodReq := ⟨1, 0, 2, 1, 9, 77, 0x300⟩

/-- Requests of another module served, refused and repeated, made to wait, and those that come by another port (O57). -/
theorem witness_pod_requests_served :
    let s := sPod
    let r := req
    let w := after (.shoheoshWr r [1, 0, 0, 0, 0, 0, 0, 0]) s
    let a := after (.shoheoshAmo r 0x1F 3 0) s
    let full := s.modClu (s.homeSlice 0x300) fun c => { c with dedup := List.replicate 4096 (5, 6, 0, 0) }
    s.podPort r = true ∧ s.podPort { r with port := 2 } = false ∧ s.admits r 8 = true ∧ s.admits r 32 = false ∧ s0.admits r 8 = false ∧
    s.admits { r with pa := 0x304 } 8 = false ∧ s.writeHeld [⟨.hbm 0x300, 8, .home⟩] = false ∧
    s.poisoned [⟨.hbm 0x300, 8, .home⟩] = false ∧ s.seen r = none ∧ w.seen r = some 0 ∧
    sent (after (.shoheoshRd r 8) s) = [(1, 0, 5)] ∧ sent (after (.shoheoshRd r 32) s) = [(1, 1, 0)] ∧
    leNat (w.getParts [⟨.hbm 0x300, 8, .home⟩]) = 1 ∧ leNat ((after (.shoheoshWr r [9, 0, 0, 0, 0, 0, 0, 0]) w).getParts [⟨.hbm 0x300, 8, .home⟩]) = 1 ∧
    full.writeHeld [⟨.hbm 0x300, 8, .home⟩] = true ∧ (after (.shoheoshWr r [1, 0, 0, 0, 0, 0, 0, 0]) full).podIn.length = 1 ∧
    sent a = [(3, 0, 5)] ∧ leNat (a.getParts [⟨.hbm 0x300, 8, .home⟩]) = 8 ∧ sent (after (.shoheoshAmo r 0x29 3 0) s) = [(3, 1, 0)] ∧
    sent (after (.shoheoshCmpl r) s) = [(4, 0, 0)] ∧
    (after (.shoheoshCmpl r) { s with podIn := [(r, .wr [1])] }).podIn.length = 2 := by decide +kernel

/-- Starts with a control image that passes and that fails (O58). -/
theorem witness_starts :
    (after (.coldStart { passes with ctrlOk := false }) s0).recovery = true ∧ (after (.coldStart passes) s0).recovery = false ∧
    ((after (.warmStart { passes with failed := [9] }) s0).ptile 9).role = .retired ∧
    (after (.warmStart { passes with failed := [9] }) s0).ctxs = [] ∧ (State.reset.ptile 8).age.flag = false := by decide +kernel

/-- A redundant launch: dead, with a copy still to retire, with both retired (O59). -/
def redundant (dead : Bool) (left : List Nat) : State :=
  { s0 with reds := [(4, ⟨1, 0x200, 0x400, 3, left, [(0, 0), (1, 0)], dead⟩)] }

theorem witness_redundant :
    (redundant true [1, 1]).red? 4 = some ⟨1, 0x200, 0x400, 3, [1, 1], [(0, 0), (1, 0)], true⟩ ∧
    (after (.redundantCommit 4) (redundant true [1, 1])).flog.map (fun f => (f.cls, f.outcome)) = [(14, 6)] ∧
    ((after (.redundantCommit 4) (redundant false [0, 1])).red? 4).isSome = true ∧
    ((redundant false [0, 0]).tiles.any fun e => e.2.chan.toList.any fun c => !c.chains.isEmpty) = false ∧
    ((redundant false [0, 0]).tasks.any fun e => (e.2.r.red.map fun r => r.1 == 4).getD false && (redundant false [0, 0]).taskOwes e.1) = false ∧
    ((redundant false [0, 0]).ctxOf 1).ring = none ∧ (redundant false [0, 0]).pageOf 1 0 = some page ∧ page.va ≤ 0 ∧
    (redundant false [0, 0]).writeHeld [⟨.hbm 0x400, 64, .home⟩] = false ∧ (redundant false [0, 0]).poisoned [⟨.hbm 0x400, 64, .home⟩] = false ∧
    (redundant false [0, 0]).commitHeld ⟨1, 0x200, 0x400, 3, [0, 0], [], false⟩ 1 = false ∧ Memory.wf (redundant false [0, 0]).hbm ∧
    Memory.wf (kvGet (redundant false [0, 0]).shadow 8 []) := by decide +kernel

theorem witness_redundant_agree :
    (redundant false [0, 0]).signature 4 0 ⟨1, 0x200, 0x400, 3, [0, 0], [(0, 0), (1, 0)], false⟩ =
      (redundant false [0, 0]).signature 4 1 ⟨1, 0x200, 0x400, 3, [0, 0], [(0, 0), (1, 0)], false⟩ := rfl

/-- The HBM of `s0` with a byte in it is in canonical form, and the machine steps (O60). -/
theorem witness_canonical :
    Memory.wf (withHbm 0x300 5 s0).hbm ∧ (match step (withHbm 0x300 5 s0) with | .next _ => true | _ => false) = true := by decide +kernel

/-- Further clauses of the stop sequence: the replay undoes what a fault of the array wrote, and the record of a rollback that takes the
live path is marked (O53). -/
theorem witness_replay_repairs :
    let s := moving .mismatch .run (fun m => { m with live := false }) fun t => { t with stopped := true, mx := { t.mx with slips := [(2, 3, 7)] } }
    let t := after (.stopReplayEnd 0) s
    phaseOf t = some .resume ∧ (t.tile 0).mx.slips = [] ∧ (t.tile 0).mx.accAt 2 3 = 7 ∧ (s.tile 0).mx.accAt 2 3 = 0 := by decide +kernel

theorem witness_record_of_live_path :
    let s := { moving .mismatch .copy (fun m => { m with live := false }) fun t => { t with stopped := true } with
      flog := [⟨10, 1, 0, 1, 0, 0, (s0.phys 0) / 64, (s0.phys 0) % 64, 0, 0, 0, 0, 1, 0, 4, 0, []⟩, ⟨11, 0, 0, 0, 1, 0, 0, 0, 0, 0, 0, 0, 1, 0, 0, 0, []⟩] }
    (after (.stopCopyEnd 0 true) s).flog.map (fun r => r.aux) = [5, 0] := by decide +kernel

/-- A third mismatch within 24 hours retires the tile (O40). -/
theorem witness_third_mismatch :
    let s := s0.modPtile (s0.phys 0) fun p => { p with age := { p.age with smis := [0, 0] } }
    let u := s.mismatch 0 1 1 0x1000 0x40 0
    3 ≤ ((s.ptile (s.phys 0)).age.mismatch s.now).smis.length ∧ (u.ptile (s.phys 0)).age.ret = true ∧
    (u.tile 0).move.map (fun m => (m.phase, m.why)) = some (.drain, .retire) := by decide +kernel

/-- A teardown that waits for a store that its context's thread has made, and one past the bound of the wait (O55). -/
theorem witness_teardown_waits :
    let s := (after (.st64 (.g 6) (.g 21) 1 0 9 0) (at_ 0x300)).modCtx 1 fun c => { c with dying := true }
    let t := after (.teardown 1) s
    (s.ctxOf 1).dying = true ∧ s.teardownHeld 1 = false ∧ (s.withdrawCtx 1).teardownWaits 1 = true ∧ (t.ctxOf 1).dying = true ∧
    t.cur.st = .out ∧ t.cur.pend.length = 1 ∧ ((later 450000 s).withdrawCtx 1).teardownWaits 1 = false := by decide +kernel

/-- An exported page leaves the exports with an uncorrectable error (O55), and a directory entry's error tears down (O55). -/
theorem witness_lost_entries :
    let bad := after (.patrolScrub 0x300 2) { s0 with exports := [0, 1] }
    let h := loading 0x300
    let t := after (.loadComplete w0 1 .dir) h
    bad.exports = [1] ∧ arrives h .read = true ∧ t.quarantine = [0] ∧ (t.ctxOf 1).dying = true ∧
    t.flog.map (fun f => (f.cls, f.outcome, f.cause, f.addr)) = [(4, 3, 1, 0x300)] := by decide +kernel

/-- A self-test that passes while the tile's router fails (O54). -/
theorem witness_failed_router :
    let p := gapRow 0 * 8
    let t := after (.selftestDone p true true 39) State.reset
    (t.ptile p).role = .retired ∧ (t.ptile p).age.ret = true ∧ t.flog.map (fun f => (f.cls, f.cause)) = [(11, 1)] := by decide +kernel

/-- A frame for a ring in a gated cluster waits for its wake; one without room in its port's buffer is counted in FULL (O56). -/
theorem witness_frame_waits :
    let s := (ringed 0 (2 ^ 32)).modClu 0 fun c => { c with pow := .gated }
    let t := after (.frameArrive 0 none true false (List.replicate 24 0x5A)) s
    (s.ringWaits (ringOf s)).1 = true ∧ t.tiles = s.tiles ∧ (t.clu 0).pow ≠ .on := by decide +kernel

theorem witness_frame_buffer_full :
    let s := ringed 0 (2 ^ 32)
    let t := after (.frameArrive 0 none true true (List.replicate 24 0x5A)) s
    (t.ringWord (ringOf s) 32, t.ringWord (ringOf s) 40, t.ringWord (ringOf s) 0) = (some 1, some 24, some 0) := by decide +kernel

end Sys2Proof.Tests
end

section
/-! SUPPORT. What updates of a tile leave of its slots, of its run queue and of the state beside it; what a place of a filled vector
reads. -/

namespace Sys2Proof.Machine

/-- A fold each of whose steps keeps a reading keeps it. -/
theorem foldl_keeps {σ β γ : Type} (read : σ → γ) (f : σ → β → σ) (h : ∀ s b, read (f s b) = read s) (l : List β) (s : σ) :
    read (l.foldl f s) = read s := by
  induction l generalizing s with
  | nil => rfl
  | cons b l ih => exact (ih (f s b)).trans (h s b)

@[simp] theorem vget_replicate {α : Type} (n k : Nat) (v : α) : vget (Vector.replicate n v) k v = v := by
  simp only [vget, Vector.toList_replicate, List.getD_eq_getElem?_getD, List.getElem?_replicate]
  split <;> rfl

theorem vget_ofFn {α : Type} {n : Nat} (f : Nat → α) (k : Nat) (d : α) :
    vget (Vector.ofFn fun i : Fin n => f i.val) k d = if k < n then f k else d := by
  simp only [vget, Vector.toList_ofFn, List.getD_eq_getElem?_getD, List.getElem?_ofFn]
  split <;> rfl

@[simp] theorem State.tile_modTile (s : State) (t : Nat) (f : Tile → Tile) : (s.modTile t f).tile t = f (s.tile t) :=
  s.tile_setTile t _

theorem State.tile_modTile_other (s : State) {t u : Nat} (f : Tile → Tile) (h : t ≠ u) : (s.modTile t f).tile u = s.tile u :=
  s.tile_setTile_other _ h

/-- A reading of the tiles that an update of one of them keeps. -/
theorem State.modTile_keeps {γ : Type} (read : Tile → γ) (s : State) (t : Nat) (f : Tile → Tile) (h : ∀ x, read (f x) = read x) (u : Nat) :
    read ((s.modTile t f).tile u) = read (s.tile u) := by
  by_cases hu : t = u
  · rw [← hu, State.tile_modTile, h]
  · rw [State.tile_modTile_other _ _ hu]

/-- An update of a tile that keeps its slots keeps every slot. -/
theorem State.slot_modTile (s : State) (t : Nat) (f : Tile → Tile) (h : ∀ x, (f x).slots = x.slots) (w : Who) :
    (s.modTile t f).slot w = s.slot w := by
  unfold State.slot Tile.slot
  rw [State.modTile_keeps Tile.slots s t f h]

/-- Setting a slot leaves the run queues. -/
@[simp] theorem State.runq_modSlot (s : State) (w : Who) (f : Slot → Slot) (u : Nat) :
    ((s.modSlot w f).tile u).runq = (s.tile u).runq :=
  State.modTile_keeps Tile.runq s w.tile (fun x => x.setSlot w.slot (f (s.slot w))) (fun _ => rfl) u

@[simp] theorem State.tile_modTask (s : State) (k : Nat) (f : Task → Task) (u : Nat) : (s.modTask k f).tile u = s.tile u := by
  unfold State.modTask
  split <;> rfl

@[simp] theorem State.runq_logArrival (s : State) (t kind slot off : Nat) (v : Word) (u : Nat) :
    ((s.logArrival t kind slot off v).tile u).runq = (s.tile u).runq :=
  State.modTile_keeps Tile.runq s t _ (fun x => by split <;> rfl) u

@[simp] theorem State.runq_uncover (s : State) (t ctx u : Nat) : ((s.uncover t ctx).tile u).runq = (s.tile u).runq :=
  State.modTile_keeps Tile.runq s t _ (fun x => by split <;> rfl) u

@[simp] theorem State.spoil_slot (s : State) (t : Nat) (m : Msg) (w : Who) : (s.spoil t m).slot w = s.slot w := by
  unfold State.spoil
  exact s.slot_modTile t _ (by intro; rfl) w

@[simp] theorem State.spoilWords_slot (s : State) (w u : Who) (x : Slot) : (s.spoilWords w x).slot u = s.slot u := by
  unfold State.spoilWords
  exact foldl_keeps (fun s : State => s.slot u) _ (fun s _ => s.spoil_slot _ _ u) ..

@[simp] theorem State.spoil_migs (s : State) (t : Nat) (m : Msg) : (s.spoil t m).migs = s.migs := rfl

@[simp] theorem State.spoilWords_migs (s : State) (w : Who) (x : Slot) : (s.spoilWords w x).migs = s.migs := by
  unfold State.spoilWords
  exact foldl_keeps State.migs _ (fun s _ => s.spoil_migs _ _) ..

/-- The contexts on their way are no part of a tile. -/
theorem State.tile_setMigs (s : State) (l : List Migrant) (u : Nat) : ({ s with migs := l } : State).tile u = s.tile u := rfl

@[simp] theorem State.slot_setMigs (s : State) (l : List Migrant) (u : Who) : ({ s with migs := l } : State).slot u = s.slot u := rfl

end Sys2Proof.Machine
end

section
/-! SUPPORT. Migration: the thread that departs, the context that arrives, and the slot it is put into (02 R38, R41; 07 R142; 21 R344). -/

namespace Sys2Proof.Machine

@[simp] theorem State.vacate_migs (s : State) (w : Who) : (s.vacate w).migs = s.migs := s.spoilWords_migs w _

/-- A slot left by its thread is IDLE, has no task and keeps its tag. -/
@[simp] theorem State.vacate_st (s : State) (w : Who) : ((s.vacate w).slot w).st = .idle := by simp [State.vacate]

@[simp] theorem State.vacate_task (s : State) (w : Who) : ((s.vacate w).slot w).task = none := by simp [State.vacate]

@[simp] theorem State.vacate_gen (s : State) (w : Who) : ((s.vacate w).slot w).gen = (s.slot w).gen := by
  simp [State.vacate, State.spoilBuffers]

/-- A thread that departs puts its travel set on the way and leaves its slot IDLE with the tag up by one (02 R41). -/
theorem State.depart_spec (s : State) (w : Who) (u : Nat) (hsolo : (s.slot w).solo = false) :
    ∃ m, (s.depart w u).migs = s.migs ++ [m] ∧ m.tile = u ∧ m.g = (List.range 16).map (fun i => vget (s.slot w).g i 0) ∧
      m.p = (s.slot w).p ∧ m.fstat = (s.slot w).fstat ∧ m.pc = ((s.slot w).loopEnd (s.slot w).pc).2 ∧ m.gen = (s.slot w).gen ∧
      ((s.depart w u).slot w).st = .idle ∧ ((s.depart w u).slot w).gen = (s.slot w).gen + 1 ∧
      ((s.depart w u).slot w).task = none := by
  refine ⟨_, State.vacate_migs _ _, rfl, rfl, rfl, rfl, ?_, rfl, ?_⟩
  · simp [hsolo]
  · simp [State.depart]

/-- `migrate` with every condition met departs for the tile its operand names (02 R41, R42; 07 R142). -/
theorem exec_migrate_departs {s s1 s2 : State} {a : Spec} {g : Guard} {vs : List Word} {u : Nat}
    (hi : s.Issues (.migrate a g) (Meta.solo g [a] [])) (hred : s.cur.red = none) (hlease : s.cur.leases = 0)
    (hops : s.operands s.focus [a] [] = .ok (vs, s1)) (hto : s1.migrateTo s.focus (argN vs 0) = (.ok (some u), s2))
    (hset : s.cur.settledCopies = true) (hack : s.cur.qstat.toList.any (fun q => q.ackp != 0) = false) :
    exec (.migrate a g) s = .next (s2.depart s.focus u) := by
  unfold State.cur at hred hlease hset hack
  show Host.Outcome.next _ = _
  rw [State.issue_of_issues hi]
  simp only [hred, hlease, State.withSrc_ok hops, hto, hset, hack, Option.isSome_none, Bool.false_eq_true, ne_eq,
    not_true_eq_false, if_false, reduceCtorEq]

/-- A context that has come and may enter joins the run queue of its tile (02 R41). -/
theorem exec_migrateArrive_joins {s : State} {k : Nat} {m : Migrant} (hm : s.migs[k]? = some m) (hdue : m.due ≤ s.now)
    (hopen : (s.ctxOf m.ctx).isOpen = true) (hdying : (s.ctxOf m.ctx).dying = false) (hheld : s.tileHeld m.tile = false)
    (hroom : (s.tile m.tile).runq.length < 8) :
    exec (.migrateArrive k) s =
      .next { s.modTile m.tile fun t => { t with runq := t.runq ++ [m] } with migs := listDrop1 s.migs k } := by
  show execMigrateArrive k s = _
  simp only [execMigrateArrive, hm, hopen, hdying, hheld, Nat.not_lt.mpr hdue, Nat.not_le.mpr hroom, reduceCtorEq,
    Bool.false_eq_true, or_self, if_false]

/-- One of a context that is closed or torn down is discarded and counted (21 R344). -/
theorem exec_migrateArrive_discards {s : State} {k : Nat} {m : Migrant} (hm : s.migs[k]? = some m) (hdue : m.due ≤ s.now)
    (hgone : (s.ctxOf m.ctx).isOpen = false ∨ (s.ctxOf m.ctx).dying = true) :
    exec (.migrateArrive k) s =
      .next { s.modTile m.tile fun t => { t with spoilc := (t.spoilc + 1) % 2 ^ 64 } with migs := listDrop1 s.migs k } := by
  show execMigrateArrive k s = _
  simp only [execMigrateArrive, hm, hgone, Nat.not_lt.mpr hdue, if_true, if_false]

/-- The run queues stand as a context is put into a slot. -/
@[simp] theorem State.runq_landMigrant (s : State) (w : Who) (m : Migrant) (u : Nat) :
    ((s.landMigrant w m).tile u).runq = (s.tile u).runq := by
  have hlog : ∀ l : List Word, ((l.foldl (fun s v => s.logArrival w.tile 8 w.slot 0 v) (s.uncover w.tile m.ctx)).tile u).runq =
      (s.tile u).runq := fun l => by
    rw [foldl_keeps (fun s : State => (s.tile u).runq) _ (fun s v => s.runq_logArrival _ _ _ _ v u), State.runq_uncover]
  unfold State.landMigrant
  rw [State.runq_modSlot]
  split
  · rw [State.tile_modTask, hlog]
  · exact hlog _

/-- The oldest context of the run queue goes into an open slot (02 R38). -/
theorem exec_slotOffer_lands {s : State} {w : Who} {m : Migrant} {r : List Migrant} (hopen : s.openSlot w = true)
    (hq : (s.tile w.tile).runq = m :: r) :
    exec (.slotOffer w) s = .next ((s.modTile w.tile fun t => { t with runq := r }).landMigrant w m) := by
  show execSlotOffer w s = _
  simp only [execSlotOffer, hopen, hq, if_true]

/-- The thread of a context put into a slot: the travel set, the tag it came with plus one, every other register 0 (02 R41). -/
theorem State.landMigrant_slot (s : State) (w : Who) (m : Migrant) :
    let y := (s.landMigrant w m).slot w
    y.gen = m.gen + 1 ∧ y.pc = m.pc ∧ y.p = m.p ∧ y.fstat = m.fstat ∧ y.st = .run ∧ y.task = m.task ∧ y.ctx = some m.ctx ∧
      y.thr = m.thr ∧ y.fences = m.fences ∧ y.fetchAt = m.fetchAt ∧
      (∀ k, vget y.g k 0 = if k < 32 then m.g.getD k 0 else 0) ∧ (∀ k, vget y.o k 0 = 0) ∧ y.lc0 = 0 ∧ y.lc1 = 0 ∧ y.tvec = 0 := by
  unfold State.landMigrant
  rw [State.slot_modSlot]
  exact ⟨rfl, rfl, rfl, rfl, rfl, rfl, rfl, rfl, rfl, rfl, fun k => vget_ofFn (fun i => m.g.getD i 0) k 0,
    fun k => vget_replicate 8 k 0, rfl, rfl, rfl⟩

/-- Settles O29: `migrate` departs, an arrival joins its run queue or is discarded, and the oldest context of the queue lands. -/
theorem threadsMigrate : Obligations.ThreadsMigrate := by
  refine ⟨?_, ?_, ?_⟩
  · intro s s1 s2 a g vs u hi hred hlease hops hto hset hack hcur hfocus hsolo
    have hslot : s2.slot s.focus = s.cur := by rw [← hcur, ← hfocus]; rfl
    obtain ⟨m, hm⟩ := s2.depart_spec s.focus u (by rw [hslot, hsolo])
    rw [hslot] at hm
    exact ⟨_, m, exec_migrate_departs hi hred hlease hops hto hset hack, hm⟩
  · intro s k m hm hdue
    refine ⟨fun hopen hdying hheld hroom => ?_, fun hgone => ?_⟩
    · refine ⟨_, exec_migrateArrive_joins hm hdue hopen hdying hheld hroom, ?_, rfl⟩
      rw [State.tile_setMigs, State.tile_modTile]
    · refine ⟨_, exec_migrateArrive_discards hm hdue hgone, ?_, rfl, ?_⟩ <;> rw [State.tile_setMigs, State.tile_modTile]
  · intro s w m r hopen hq
    refine ⟨_, exec_slotOffer_lands hopen hq, ?_, State.landMigrant_slot _ w m⟩
    rw [State.runq_landMigrant, State.tile_modTile]

end Sys2Proof.Machine
end

section
/-! SUPPORT. A fetch: the translations it may meet, the word it reads, and what it comes to (02 R34; 04 R63; 11 R225, R232, R233; 12
R253). -/

namespace Sys2Proof.Machine

/-- Execution asks of a page its execute permission alone (11 Table 11.3). -/
@[simp] theorem State.permits_exec (s : State) (p : Page) (va : Nat) : s.permits p va .exec = p.x := by
  simp [State.permits, pagePermits]

/-- A page outside the pod windows lies in HBM (11 R225). -/
theorem pageLoc_hbm {p : Page} (va : Nat) (h : ∀ m, p.plc ≠ .pod m) : pageLoc p va = .hbm (p.pa + (va - p.va)) := by
  unfold pageLoc
  split
  · next m hm => exact absurd hm (h m)
  · rfl

theorem State.lookup_tile {s : State} {t ctx va : Nat} {p : Page}
    (h : (s.tile t).tlb.find? (fun q => pageMaps q ctx va) = some p) :
    s.lookup t ctx va = (some (p, 0), s.modTile t fun x => { x with tlb := tlbFill x.tlb p }) := by
  simp only [State.lookup, h]

theorem State.lookup_lastLevel {s : State} {t ctx va : Nat} {p : Page}
    (h : (s.tile t).tlb.find? (fun q => pageMaps q ctx va) = none)
    (hl : (s.slab (s.slabOf t)).lltlb.find? (fun q => pageMaps q ctx va) = some p) :
    s.lookup t ctx va = (some (p, 30), s.modTile t fun x => { x with tlb := tlbFill x.tlb p }) := by
  simp only [State.lookup, h, hl]

theorem State.lookup_none {s : State} {t ctx va : Nat} (h : (s.tile t).tlb.find? (fun q => pageMaps q ctx va) = none)
    (hl : (s.slab (s.slabOf t)).lltlb.find? (fun q => pageMaps q ctx va) = none) : s.lookup t ctx va = (none, s) := by
  simp only [State.lookup, h, hl]

/-- An address below the capability list whose page a TLB holds (11 R233). -/
theorem State.globPiece_hit {s s' : State} {t ctx va d : Nat} {need : Need} {p : Page} (m : Misses) (hva : va < capVa)
    (h : s.lookup t ctx va = (some (p, d), s')) (hp : s.permits p va need = true) :
    s.globPiece t ctx va need m = (.ok (pageLoc p va, p.plc, d), s') := by
  simp only [State.globPiece, Nat.not_le.mpr hva, false_and, if_false, h, hp, if_true]

/-- One whose page no TLB holds is missed by a thread's access (11 R233). -/
theorem State.globPiece_miss {s s' : State} {t ctx va : Nat} {need : Need} (hva : va < capVa)
    (h : s.lookup t ctx va = (none, s')) : s.globPiece t ctx va need .thread = (.error (.miss va), s') := by
  simp only [State.globPiece, Nat.not_le.mpr hva, false_and, if_false, h]

/-- A fetch that reads the tables at once meets no miss (02 R34). -/
theorem State.globPiece_now_ne_miss (s : State) (t ctx va va' : Nat) (need : Need) :
    (s.globPiece t ctx va need .now).1 ≠ .error (.miss va') := by
  unfold State.globPiece
  dsimp only
  repeat' split
  all_goals simp

@[simp] theorem State.getByte_modTile_hbm (s : State) (t pa n : Nat) (f : Tile → Tile) :
    (s.modTile t f).getByte (.hbm pa) n = s.getByte (.hbm pa) n := rfl

/-- The word that four bytes of one place hold, the lowest address bits [7:0] (00 R3; 04 R63). -/
theorem State.leNat_getParts_four (s : State) (l : Loc) (plc : Placement) :
    leNat (s.getParts [⟨l, 4, plc⟩]) = (s.getByte l 0).toNat + 256 * (s.getByte l 1).toNat + 65536 * (s.getByte l 2).toNat +
      16777216 * (s.getByte l 3).toNat := by
  have hr : List.range 4 = [0, 1, 2, 3] := rfl
  simp only [State.getParts, State.getPart, List.flatMap_cons, List.flatMap_nil, List.append_nil, hr, List.map_cons, List.map_nil,
    leNat]
  omega

/-- Where every word of its tile's instruction store is stale for a thread, it fetches the present one (12 R253). -/
theorem State.fetchWord_present {s : State} {w : Who} (h : ∀ e ∈ (s.tile w.tile).istore, e.2.2 < (s.slot w).fetchAt) (l : Loc)
    (ps : List Part) : s.fetchWord w l ps = BitVec.ofNat 32 (leNat (s.getParts ps)) := by
  cases l with
  | hbm pa =>
    have hf : ((s.tile w.tile).istore.find? fun e => e.1 == pa && decide ((s.slot w).fetchAt ≤ e.2.2)) = none := by
      rw [List.find?_eq_none]
      intro e he
      simp [h e he]
    simp only [State.fetchWord, hf]
  | _ => rfl

/-- A translation at hand outside the pod windows gives the word at its place at once (11 R233). -/
theorem State.fetch_of_hit {s s' : State} {w : Who} {now : Bool} {pa : Nat} {plc : Placement} (hred : (s.slot w).red = none)
    (h : s.globPiece w.tile ((s.slot w).ctx.getD 0) (s.slot w).pc.toNat .exec (if now then .now else .thread) =
      (.ok (.hbm pa, plc, 0), s')) :
    s.fetch w now = .word (s'.fetchWord w (.hbm pa) [⟨.hbm pa, 4, plc⟩]) [⟨.hbm pa, 4, plc⟩] s' := by
  simp [State.fetch, h, hred, State.shadowLoc, hasPod]

/-- A translation that takes cycles puts a thread that has not waited for it into WAIT (11 R233). -/
theorem State.fetch_of_late {s s' : State} {w : Who} {l : Loc} {plc : Placement} {d : Nat} (hd : d ≠ 0)
    (h : s.globPiece w.tile ((s.slot w).ctx.getD 0) (s.slot w).pc.toNat .exec .thread = (.ok (l, plc, d), s')) :
    s.fetch w false = .wait (s'.modSlot w fun x => { x with st := .wait, why := .fetch, waitUntil := some (s'.now + d) }) := by
  simp [State.fetch, h, hd]

@[simp] theorem State.startWalk_now (s : State) (t ctx va : Nat) : (s.startWalk t ctx va).now = s.now := rfl

/-- A miss starts a walk and puts the thread into WAIT (11 R233). -/
theorem State.fetch_of_miss {s s' : State} {w : Who} {va : Nat}
    (h : s.globPiece w.tile ((s.slot w).ctx.getD 0) (s.slot w).pc.toNat .exec .thread = (.error (.miss va), s')) :
    s.fetch w false = .wait ((s'.startWalk w.tile ((s.slot w).ctx.getD 0) va).modSlot w fun x =>
      { x with st := .wait, why := .fetch, waitUntil := some (s'.now + 0) }) := by
  simp [State.fetch, h]

/-- A fetch that waits leaves its thread in WAIT for it (11 R233). -/
theorem State.fetch_wait_slot {s t : State} {w : Who} {now : Bool} (h : s.fetch w now = .wait t) :
    (t.slot w).st = .wait ∧ (t.slot w).why = .fetch := by
  unfold State.fetch at h
  dsimp only at h
  repeat' split at h
  all_goals cases h
  all_goals simp

/-- The fetch of a thread in a wave never waits (02 R34). -/
theorem State.fetch_wave_ne_wait {s t : State} {w : Who} (hw : (s.slot w).inWave = true) : s.fetch w true ≠ .wait t := by
  have hm := s.globPiece_now_ne_miss w.tile ((s.slot w).ctx.getD 0) (s.slot w).pc.toNat
  unfold State.fetch
  simp only [if_true, hw, or_true, Bool.true_eq_false, and_false, if_false]
  split
  · simp
  · simp
  · next va _ he => exact absurd (congrArg Prod.fst he) (hm va .exec)
  · simp

/-- The word at the PC, where the pages of the thread's context say (00 R3; 04 R63; 11 R225, R232, R233; 12 R253). -/
theorem fetchReadsTheWordAtPc : Clause.FetchReadsTheWordAtPc := by
  intro s w p now x pc maps at_ held hred hpc hx hplc
  have hloc : pageLoc p pc = .hbm (p.pa + (pc - p.va)) := pageLoc_hbm pc hplc
  have hperm : s.permits p pc .exec = true := (s.permits_exec p pc).trans hx
  refine ⟨fun htlb hstale => ?_, fun htlb hll => ?_, fun htlb hll => ?_⟩
  · have hg := State.globPiece_hit (if now then .now else .thread) hpc (State.lookup_tile htlb) hperm
    rw [hloc] at hg
    rw [State.fetch_of_hit hred hg, State.fetchWord_present, State.leNat_getParts_four]
    · simp only [at_, hloc, State.getByte_modTile_hbm]
    · rw [State.slot_modTile _ _ _ (by intro; rfl), State.tile_modTile]
      exact hstale
  · exact State.fetch_of_late (by decide) (State.globPiece_hit .thread hpc (State.lookup_lastLevel htlb hll) hperm)
  · exact State.fetch_of_miss (State.globPiece_miss hpc (State.lookup_none htlb hll))

end Sys2Proof.Machine
end

section
/-! SUPPORT. A step that is a slot's turn: what it runs (02 R21, R31, R34; 04 R63; 22 R350). -/

namespace Sys2Proof.Machine

/-- The slots' turns of the agenda never wait (02 R21). -/
theorem step_of_issue {s : State} {w : Who} {r : List Turn} (h : s.agenda = .issue w :: r) :
    step s = ({ s with agenda := r } : State).issueTurn w := by
  unfold step
  rw [h]
  rfl

/-- A slot marked as issued in this cycle and in focus. -/
def State.issuing (s : State) (w : Who) : State :=
  { (s.modSlot w fun x => { x with lastIssue := s.now + 1 }) with focus := w }

/-- A slot takes its turn, with no timer trap due (02 R21; 10 R212). -/
abbrev State.TakesTurn (s : State) (w : Who) : Prop :=
  s.hasTurn w = true ∧ s.canIssue w = true ∧
    ((s.issuing w).timerDue w && !((s.issuing w).slot w).solo && !((s.issuing w).slot w).inWave) = false

/-- Whether the fetch of a turn waits for nothing, and the state it fetches in: a wave's head never waits, and a thread that has waited for
its translation does not wait for it again (02 R34). -/
def State.fetching (s : State) (w : Who) : Bool × State :=
  if (s.slot w).wave.isSome then (true, s)
  else if (s.slot w).why = .fetch then (true, s.modSlot w fun x => { x with why := .none, waitUntil := none })
  else (false, s)

@[simp] theorem State.fetching_pc (s : State) (w : Who) : ((s.fetching w).2.slot w).pc = (s.slot w).pc := by
  unfold State.fetching
  repeat' split
  all_goals simp

/-- A turn of a wave's member runs the instruction that its row passes to it (02 R31). -/
theorem State.issueTurn_member {s : State} {w : Who} {q : WaveRef} (h : s.TakesTurn w) (hw : ((s.issuing w).slot w).wave = some q)
    (hk : q.k ≠ 0) : s.issueTurn w = (s.issuing w).runMember w q := by
  obtain ⟨hturn, hcan, htimer⟩ := h
  unfold State.issuing at hw htimer ⊢
  simp only [State.issueTurn, hturn, hcan, htimer, hw, hk, reduceCtorEq, or_self, if_false, Bool.false_eq_true]

/-- A turn of any other slot runs what it fetches (02 R31, R34). -/
theorem State.issueTurn_fetches {s : State} {w : Who} (h : s.TakesTurn w) (hm : ((s.issuing w).slot w).isMember = false) :
    s.issueTurn w = ((s.issuing w).fetching w).2.runFetched w ((s.issuing w).fetching w).1 := by
  obtain ⟨hturn, hcan, htimer⟩ := h
  cases hw : ((s.issuing w).slot w).wave with
  | none =>
    by_cases hwhy : ((s.issuing w).slot w).why = .fetch
    all_goals
      unfold State.issuing at hw hwhy htimer ⊢
      simp only [State.issueTurn, State.fetching, hturn, hcan, htimer, hw, hwhy, Option.isSome_none, reduceCtorEq, or_self, if_true,
        if_false, Bool.false_eq_true]
  | some q =>
    have hk : q.k = 0 := by simpa [Slot.isMember, hw] using hm
    unfold State.issuing at hw htimer ⊢
    simp only [State.issueTurn, State.fetching, hturn, hcan, htimer, hw, hk, Option.isSome_some, reduceCtorEq, or_self, if_true,
      if_false, Bool.false_eq_true]

/-- What a turn comes to once the word is fetched, sound and of a place that exists (22 R350). -/
theorem State.runFetched_word {s s' : State} {w : Who} {now : Bool} {v : IWord} {ps : List Part}
    (h : s.fetch w now = .word v ps s') (habsent : absent ps = false) (hsound : s'.poisoned ps = false) :
    s.runFetched w now = s'.runWord v := by
  simp only [State.runFetched, h, habsent, hsound, Bool.false_eq_true, if_false]

theorem State.runFetched_trap {s s' : State} {w : Who} {now : Bool} {c : Nat} (h : s.fetch w now = .trap c s') :
    s.runFetched w now = .next (s'.raise w c (s.slot w).pc (s.slot w).pc) := by
  simp only [State.runFetched, h]

theorem State.runFetched_wait {s s' : State} {w : Who} {now : Bool} (h : s.fetch w now = .wait s') :
    s.runFetched w now = .next s' := by
  simp only [State.runFetched, h]

theorem State.runWord_ok {s : State} {v : IWord} {i : Instr} (h : decode v = .ok i) : s.runWord v = exec i s := by
  simp only [State.runWord, h]

theorem State.runMember_some {s : State} {w : Who} {q : WaveRef} {e : WEntry}
    (h : ((s.wave? q.id).bind fun v => (v.stream.getD q.j [])[q.idx]?) = some e) :
    s.runMember w q = (s.modSlot w fun x => { x with pc := e.pc }).runWord (e.word.setWidth 32) := by
  simp only [State.runMember, h]

/-- A fetch of a turn that waits is no wave's (02 R34). -/
theorem State.fetching_wait {s t : State} {w : Who} (h : (s.fetching w).2.fetch w (s.fetching w).1 = .wait t) :
    (s.slot w).wave.isSome = false := by
  refine Bool.eq_false_iff.mpr fun hw => ?_
  simp only [State.fetching, hw, if_true] at h
  exact State.fetch_wave_ne_wait hw h

/-- A turn of a slot runs the instruction at its PC, or the one its row passes to it. -/
theorem stepRunsIt : Clause.StepRunsIt := by
  intro s w r hagenda s0 s1 hturn hcan htimer
  have hi : s0.TakesTurn w := ⟨hturn, hcan, htimer⟩
  have hstep : step s = s0.issueTurn w := step_of_issue hagenda
  refine ⟨fun now s2 hm hs2 => ?_, fun q e i hq hk he hdec => ?_⟩
  · have hfetch : (s1.fetching w) = (now, s2) := hs2.symm
    have hrun : step s = s2.runFetched w now := by
      rw [hstep, State.issueTurn_fetches hi hm]
      exact congrArg (fun f : Bool × State => f.2.runFetched w f.1) hfetch
    have hpc : (s2.slot w).pc = (s1.slot w).pc := by rw [← s1.fetching_pc w, hfetch]
    refine ⟨fun v ps s3 hword habsent hsound => ?_, fun c s3 htrap => ?_, fun s3 hwait => ?_⟩
    · rw [hrun, State.runFetched_word hword habsent hsound]
      exact ⟨fun i hdec => State.runWord_ok hdec, fun e hdec => by simp only [State.runWord, hdec]⟩
    · rw [hrun, State.runFetched_trap htrap, hpc]
    · refine ⟨State.fetching_wait (t := s3) ?_, hrun.trans (State.runFetched_wait hwait), State.fetch_wait_slot hwait⟩
      rw [hfetch]
      exact hwait
  · rw [hstep, State.issueTurn_member hi hq hk]
    exact (State.runMember_some he).trans (State.runWord_ok hdec)

/-- Settles O2: the step runs what the word fetched decodes to, and the fetch reads the word at the PC. -/
theorem stepRunsTheDecodedInstruction : Obligations.StepRunsTheDecodedInstruction :=
  ⟨stepRunsIt, fetchReadsTheWordAtPc⟩

end Sys2Proof.Machine
end

section
/-! SUPPORT. Obtaining the operands of an instruction: plain sources in place, a receive queue once (03 R45, R46, R48, R49; 07 R130,
R138, R140). -/

namespace Sys2Proof.Machine

/-- What a source that is no queue and no binding reads (03 R45, R46, R49; 02 R33). -/
def State.plainValue (s : State) (w : Who) : Spec → Word
  | .g i => vget (s.slot w).g i.toNat 0
  | .o i => vget (s.slot w).o i.toNat 0
  | .l i => vget (s.slot w).l i.toNat 0
  | .n i => s.neighbourRead w i.toNat
  | .tid => s.tidOf w
  | .vt => s.vtOf w
  | _ => 0

/-- A plain source is read in place. -/
theorem State.readSpec_plain (s : State) (w : Who) {c : Spec} (h : isQF c = false) :
    s.readSpec w c = .ok (s.plainValue w c, s) := by
  cases c with
  | q i => cases h
  | f i => cases h
  | _ => rfl

/-- A queue whose acquires are performed gives its oldest word, and a full buffer has room (07 R130, R138). -/
theorem State.readSpec_queue {s : State} {w : Who} {i : BitVec 2} {v : Word} {r : List Word} (ht : (s.slot w).takeHeld = false)
    (hb : vget (s.slot w).rbuf i.toNat [] = v :: r) :
    s.readSpec w (.q i) =
      .ok (v, (if r.length = 7 then s.room w.tile (4 * w.slot + i.toNat) else s).modSlot w fun x =>
        { x with rbuf := vset x.rbuf i.toNat r }) := by
  simp only [State.readSpec, ht, hb, Bool.false_eq_true, if_false]

/-- A receive waits for an acquire of its thread (07 R130). -/
theorem State.readSpec_queue_held {s : State} {w : Who} (i : BitVec 2) (ht : (s.slot w).takeHeld = true) :
    s.readSpec w (.q i) = .wait .fence := by
  simp only [State.readSpec, ht, if_true]

/-- A receive from an empty buffer waits (07 R140). -/
theorem State.readSpec_queue_empty {s : State} {w : Who} {i : BitVec 2} (ht : (s.slot w).takeHeld = false)
    (hb : vget (s.slot w).rbuf i.toNat [] = []) : s.readSpec w (.q i) = .wait .receive := by
  simp only [State.readSpec, ht, hb, Bool.false_eq_true, if_false]

@[simp] theorem State.readSpecs_nil (s : State) (w : Who) (seen : List (Spec × Word)) : s.readSpecs w [] seen = .ok ([], s) := rfl

/-- A source that is plain or stands first is read, and then those after it. -/
theorem State.readSpecs_cons_of_ok {s s1 s2 : State} {w : Who} {c : Spec} {cs : List Spec} {seen : List (Spec × Word)} {v : Word}
    {vs : List Word} (hnew : isQF c = false ∨ seen = []) (hc : s.readSpec w c = .ok (v, s1))
    (hcs : s1.readSpecs w cs ((c, v) :: seen) = .ok (vs, s2)) : s.readSpecs w (c :: cs) seen = .ok (v :: vs, s2) := by
  obtain hplain | rfl := hnew
  · cases c with
    | q i => cases hplain
    | f i => cases hplain
    | _ => simp only [State.readSpecs, hc, hcs]
  · cases c <;> simp only [State.readSpecs, List.find?_nil, Option.map_none, hc, hcs]

/-- Where the first source waits, nothing is obtained. -/
theorem State.readSpecs_cons_of_wait {s : State} {w : Who} {c : Spec} {y : Why} (cs : List Spec) (hc : s.readSpec w c = .wait y) :
    s.readSpecs w (c :: cs) [] = .wait y := by
  cases c <;> simp only [State.readSpecs, hc, List.find?_nil, Option.map_none]

/-- A queue read before in the instruction is not read again (03 R48). -/
theorem State.readSpecs_queue_seen (s : State) (w : Who) (i : BitVec 2) (v : Word) (seen : List (Spec × Word)) :
    s.readSpecs w [.q i] ((.q i, v) :: seen) = .ok ([v], s) := by
  simp only [State.readSpecs, List.find?_cons, beq_self_eq_true, Option.map_some]

/-- Plain sources are read in place, each of its own (03 R45). -/
theorem State.readSpecs_plain (s : State) (w : Who) {src : List Spec} (h : ∀ c ∈ src, isQF c = false) (seen : List (Spec × Word)) :
    s.readSpecs w src seen = .ok (src.map (s.plainValue w), s) := by
  induction src generalizing seen with
  | nil => rfl
  | cons c cs ih =>
    have hc : isQF c = false := h c (by simp)
    exact State.readSpecs_cons_of_ok (.inl hc) (s.readSpec_plain w hc) (ih (fun d hd => h d (by simp [hd])) _)

/-- A destination that is no queue and no binding takes its result at any time (03 R46). -/
theorem State.dstReady_plain (s : State) (w : Who) {d : Spec} (h : isQF d = false) : s.dstReady w d = .ok () := by
  cases d with
  | q i => cases h
  | f i => cases h
  | _ => rfl

/-- With no binding among its sources and only plain destinations, an instruction obtains what its sources give (03 R48). -/
theorem State.operands_eq_readSpecs (s : State) (w : Who) {src dst : List Spec} (hsrc : ∀ i, Spec.f i ∉ src)
    (hdst : ∀ d ∈ dst, isQF d = false) : s.operands w src dst = s.readSpecs w src [] := by
  have hready : ∀ d ∈ dst, s.dstReady w d = .ok () := fun d hd => s.dstReady_plain w (hdst d hd)
  unfold State.operands
  dsimp only
  rw [List.findSome?_eq_none_iff.mpr, List.findSome?_eq_none_iff.mpr, List.findSome?_eq_none_iff.mpr]
  · cases s.readSpecs w src [] <;> rfl
  · intro d hd
    rw [hready d hd]
  · intro d hd
    rw [hready d hd]
  · intro c hc
    cases c with
    | f i => exact absurd hc (hsrc i)
    | _ => rfl

/-- Plain operands are obtained in place, whatever they are (03 R45, R46, R49). -/
theorem State.operands_plain (s : State) (w : Who) {src dst : List Spec} (hsrc : ∀ c ∈ src, isQF c = false)
    (hdst : ∀ d ∈ dst, isQF d = false) : s.operands w src dst = .ok (src.map (s.plainValue w), s) := by
  rw [s.operands_eq_readSpecs w (fun i hi => Bool.noConfusion (hsrc _ hi)) hdst, s.readSpecs_plain w hsrc]

theorem plainOperandsAreReadInPlace : Clause.PlainOperandsAreReadInPlace := by
  intro s w src dst hsrc hdst
  refine ⟨_, s.operands_plain w hsrc hdst, List.length_map _, fun n c hc => ?_⟩
  have hval : argN (src.map (s.plainValue w)) n = s.plainValue w c := by
    simp only [argN, List.getD_eq_getElem?_getD, List.getElem?_map, hc, Option.map_some, Option.getD_some]
  rw [hval]
  cases c <;> rfl

theorem aQueueIsReceivedOnce : Clause.AQueueIsReceivedOnce := by
  intro s w i dst hdst
  rw [s.operands_eq_readSpecs w (by simp) hdst]
  refine ⟨fun ht => ?_, fun ht v r hb => ?_, fun ht hb => ?_⟩
  · exact State.readSpecs_cons_of_wait _ (State.readSpec_queue_held i ht)
  · exact State.readSpecs_cons_of_ok (.inr rfl) (State.readSpec_queue ht hb) (State.readSpecs_queue_seen ..)
  · exact State.readSpecs_cons_of_wait _ (State.readSpec_queue_empty ht hb)

end Sys2Proof.Machine
end

section
/-! SUPPORT. A result: the register it reaches and the shift into the last results (03 R46, R47, R49). -/

namespace Sys2Proof.Machine

@[simp] theorem Slot.l_setReg (x : Slot) (d : Spec) (v : Word) : (x.setReg d v).l = x.l := by cases d <;> rfl

@[simp] theorem Slot.lq_setReg (x : Slot) (d : Spec) (v : Word) : (x.setReg d v).lq = x.lq := by cases d <;> rfl

/-- A g or o register holds what was written to it. -/
theorem Slot.reg_setReg_same (x : Slot) {d : Spec} (v : Word) (hd : d.isPlainDst = true) (hz : d ≠ .z) :
    (x.setReg d v).reg d = v := by
  cases d with
  | g i => exact (vget_vset _ _ _ _ _ i.isLt).trans (if_pos rfl)
  | o i => exact (vget_vset _ _ _ _ _ i.isLt).trans (if_pos rfl)
  | z => exact absurd rfl hz
  | _ => cases hd

/-- A write leaves every other register. -/
theorem Slot.reg_setReg_other (x : Slot) {c d : Spec} (v : Word) (h : c ≠ d) : (x.setReg d v).reg c = x.reg c := by
  cases d with
  | g i =>
    cases c with
    | g j => exact (vget_vset _ _ _ _ _ i.isLt).trans (if_neg fun he => h (congrArg _ (BitVec.eq_of_toNat_eq he.symm)))
    | _ => rfl
  | o i =>
    cases c with
    | o j => exact (vget_vset _ _ _ _ _ i.isLt).trans (if_neg fun he => h (congrArg _ (BitVec.eq_of_toNat_eq he.symm)))
    | _ => rfl
  | _ => rfl

/-- A shift touches no register. -/
@[simp] theorem Slot.reg_shiftL (x : Slot) (now : Nat) (v : Word) (c : Spec) : (x.shiftL now v).reg c = x.reg c := by
  cases c <;> rfl

/-- A shift puts the word into l0 and moves the others up by one (03 R47). -/
theorem Slot.l_shiftL (x : Slot) (now : Nat) (v : Word) :
    vget (x.shiftL now v).l 0 0 = v ∧ vget (x.shiftL now v).l 1 0 = vget x.l 0 0 ∧
      vget (x.shiftL now v).l 2 0 = vget x.l 1 0 ∧ vget (x.shiftL now v).l 3 0 = vget x.l 2 0 := by
  simp [Slot.shiftL, vget, List.getD_eq_getElem?_getD]

/-- With nothing held before it, a result shifts at once (03 R47). -/
theorem Slot.result_of_nothing_held {x : Slot} (h : x.lq = []) (now : Nat) (v : Word) : x.result now v = x.shiftL now v := by
  simp only [Slot.result, h]

/-- A result to a g or o register or to z is a write and a shift of its thread (03 R46, R47). -/
theorem State.writeSpec_plain (s : State) (w : Who) {d : Spec} (v : Word) (h : d.isPlainDst = true) :
    s.writeSpec w d v = s.modSlot w fun x => (x.setReg d v).result s.now v := by
  cases d with
  | q i => cases h
  | f i => cases h
  | _ => rfl

/-- The slot after such a result, with nothing held before it. -/
theorem State.slot_writeSpec_plain {s : State} {w : Who} {d : Spec} (v : Word) (hd : d.isPlainDst = true) (hq : (s.slot w).lq = []) :
    (s.writeSpec w d v).slot w = ((s.slot w).setReg d v).shiftL s.now v := by
  rw [s.writeSpec_plain w v hd, State.slot_modSlot, Slot.result_of_nothing_held (((s.slot w).lq_setReg d v).trans hq)]

theorem resultsShiftIntoTheLastResults : Clause.ResultsShiftIntoTheLastResults := by
  intro s w d v hd hq
  obtain ⟨h0, h1, h2, h3⟩ := ((s.slot w).setReg d v).l_shiftL s.now v
  rw [Slot.l_setReg] at h1 h2 h3
  rw [State.slot_writeSpec_plain v hd hq]
  refine ⟨h0, h1, h2, h3, fun hz => ?_, fun c hc => ?_⟩
  · rw [Slot.reg_shiftL, Slot.reg_setReg_same _ v hd hz]
  · rw [Slot.reg_shiftL, Slot.reg_setReg_other _ v hc]

/-- Settles O7: plain operands are read in place, a queue once for its instruction, and a result shifts into l0. -/
theorem operandsAndLastResults : Obligations.OperandsAndLastResults :=
  ⟨plainOperandsAreReadInPlace, aQueueIsReceivedOnce, resultsShiftIntoTheLastResults⟩

end Sys2Proof.Machine
end

section
/-! SUPPORT. The predicate word, and the thread after an instruction outside waves (03 R50; 04 R64; 06 R108, R109, R117). -/

namespace Sys2Proof.Machine

/-- p0 reads 1 (03 R50). -/
@[simp] theorem Slot.pred_zero (x : Slot) : x.pred 0 = true := by simp [Slot.pred, Slot.preds]

/-- Every other predicate is its bit of the predicate word (03 R50). -/
theorem Slot.pred_of_ne_zero (x : Slot) {k : BitVec 3} (hk : k ≠ 0) : x.pred k = x.p.getLsbD k.toNat := by
  have h : k.toNat ≠ 0 := fun h => hk (BitVec.eq_of_toNat_eq h)
  simp [Slot.pred, Slot.preds, BitVec.getLsbD_one, h]

/-- A write to p0 is discarded (03 R50). -/
@[simp] theorem Slot.setPred_zero (x : Slot) (v : Bool) : x.setPred 0 v = x := if_pos rfl

/-- A write to another predicate sets its bit. -/
theorem Slot.getLsbD_setPred (x : Slot) {k : BitVec 3} (v : Bool) (hk : k ≠ 0) : (x.setPred k v).p.getLsbD k.toNat = v := by
  have h8 : k.toNat < 8 := k.isLt
  have hbit : (BitVec.ofNat 8 (1 <<< k.toNat)).getLsbD k.toNat = true := by
    simp [BitVec.getLsbD_ofNat, h8]
  simp only [Slot.setPred, if_neg hk, BitVec.natCast_eq_ofNat]
  cases v with
  | false => simp only [Bool.false_eq_true, if_false, BitVec.getLsbD_and, BitVec.getLsbD_not, hbit, Bool.not_true, Bool.and_false]
  | true => simp only [if_true, BitVec.getLsbD_or, hbit, Bool.or_true]

/-- A guard names a predicate and the value it must have (03 R50; 04 R64). -/
theorem Slot.guardHolds_iff (x : Slot) (g : Guard) : x.guardHolds g = true ↔ (x.pred g.p = true ↔ g.sense = 0) := by
  obtain hs | hs := BitVec.eq_zero_or_eq_one g.sense <;> simp [Slot.guardHolds, hs]

/-- The predicate word as it is read holds p7 down to p0 in bits 7 to 0 (03 R50). -/
theorem Slot.getLsbD_preds_word (x : Slot) (k : BitVec 3) : (x.preds.setWidth 64).getLsbD k.toNat = x.pred k := by
  have h8 : k.toNat < 8 := k.isLt
  simp [Slot.pred, show k.toNat < 64 by omega]

/-- And no bit above them. -/
theorem Slot.preds_word_lt (x : Slot) : (x.preds.setWidth 64).toNat < 256 := by
  have h : x.preds.toNat < 256 := x.preds.isLt
  rw [BitVec.toNat_setWidth]
  omega

/-- The loop-end decision changes the counts alone (06 R117). -/
theorem Slot.loopEnd_counts (x : Slot) (pc : Word) : ∃ lc0 lc1, (x.loopEnd pc).1 = { x with lc0 := lc0, lc1 := lc1 } := by
  unfold Slot.loopEnd
  dsimp only
  repeat' split
  all_goals exact ⟨_, _, rfl⟩

/-- A thread outside waves after its instruction: at the continuation of `eret`, at a target, or where the loop-end decision leads. -/
def Slot.goesOn (x : Slot) (target : Option Word) (pc0 : Word) : Slot :=
  let x := { x with iseq := x.iseq + 1, st := .run, why := .none }
  if x.solo then { x with solo := false, pc := x.enext }
  else
    match target with
    | some t => { x with pc := t }
    | none => { (x.loopEnd pc0).1 with pc := (x.loopEnd pc0).2 }

theorem State.passIndex_outside {s : State} {w : Who} (h : (s.slot w).wave = none) (i : Instr) (taken : Bool) (pc : Word) :
    s.passIndex w i taken pc = s := by
  simp only [State.passIndex, h]

/-- Going on changes the PC, the loop counts, the place in the program and what the slot waits for, and no other register. -/
theorem Slot.goesOn_eq (x : Slot) (target : Option Word) (pc0 : Word) : ∃ solo pc lc0 lc1, x.goesOn target pc0 =
    { x with iseq := x.iseq + 1, st := .run, why := .none, solo := solo, pc := pc, lc0 := lc0, lc1 := lc1 } := by
  unfold Slot.goesOn
  dsimp only
  split
  · exact ⟨_, _, _, _, rfl⟩
  · cases target with
    | some t => exact ⟨_, _, _, _, rfl⟩
    | none =>
      obtain ⟨lc0, lc1, h⟩ := Slot.loopEnd_counts { x with iseq := x.iseq + 1, st := .run, why := .none } pc0
      simp only [h]
      exact ⟨_, _, _, _, rfl⟩

@[simp] theorem Slot.wave_goesOn (x : Slot) (target : Option Word) (pc0 : Word) : (x.goesOn target pc0).wave = x.wave := by
  obtain ⟨_, _, _, _, h⟩ := x.goesOn_eq target pc0
  rw [h]

@[simp] theorem Slot.p_goesOn (x : Slot) (target : Option Word) (pc0 : Word) : (x.goesOn target pc0).p = x.p := by
  obtain ⟨_, _, _, _, h⟩ := x.goesOn_eq target pc0
  rw [h]

/-- Outside waves, going on after an instruction changes the thread alone (06 R117; 10 R211). -/
theorem State.advance_outside {s : State} {w : Who} (h : (s.slot w).wave = none) (i : Instr) (taken : Bool) (target : Option Word)
    (pc0 : Word) : s.advance w i taken target pc0 = s.modSlot w fun x => x.goesOn target pc0 := by
  have hm : (s.slot w).isMember = false := by simp only [Slot.isMember, h]
  simp only [State.advance, hm, Bool.false_eq_true, if_false]
  exact State.passIndex_outside (by rw [State.slot_modSlot]; exact ((s.slot w).wave_goesOn target pc0).trans h) i taken pc0

end Sys2Proof.Machine
end

section
/-! SUPPORT. The instructions that write one predicate, and `pget` and `pput` (03 R50; 06 R108, R109, R113). -/

namespace Sys2Proof.Machine

/-- A compare, a combination of predicates or `fcls` obtains its sources and writes its predicate, and nothing else (06 R108, R109,
R113). -/
theorem exec_of_predTarget {i : Instr} {k : BitVec 3} {b : Bool} {m : Meta} (hk : predTarget i = some k)
    (hm : instrMeta b i = some m) :
    ∃ f : List Word → Slot → Bool, ∀ s, exec i s = .next (s.issue i m fun s w =>
      s.withSrc w m.src fun vs s => .ok (s.modSlot w fun x => x.setPred k (f vs x))) := by
  unfold predTarget at hk
  split at hk
  all_goals cases hk
  all_goals cases hm
  case h_11 pa pb _ => exact ⟨fun _ x => x.pred pa && x.pred pb, fun _ => rfl⟩
  case h_12 pa pb _ => exact ⟨fun _ x => x.pred pa || x.pred pb, fun _ => rfl⟩
  case h_13 pa pb _ => exact ⟨fun _ x => x.pred pa != x.pred pb, fun _ => rfl⟩
  case h_14 pa pb _ => exact ⟨fun _ x => x.pred pa && !x.pred pb, fun _ => rfl⟩
  all_goals exact ⟨_, fun _ => rfl⟩

/-- A register of the thread or a constant is no queue and no binding. -/
theorem isQF_of_isOwn {c : Spec} (h : isOwn c = true) : isQF c = false := by
  cases c with
  | q i => cases h
  | f i => cases h
  | _ => rfl

/-- Writing p0 leaves the predicate word of a thread outside waves (03 R50). -/
theorem writesToPredicateZeroAreDiscarded {s : State} {i : Instr} {m : Meta} (hk : predTarget i = some 0)
    (hm : instrMeta s.cur.isMember i = some m) (hi : s.Issues i m) (hw : s.cur.wave = none) (hsrc : ∀ c ∈ m.src, isOwn c = true) :
    ∃ t, exec i s = .next t ∧ (t.slot s.focus).p = s.cur.p := by
  obtain ⟨f, hf⟩ := exec_of_predTarget hk hm
  have hplain : ∀ c ∈ m.src, isQF c = false := fun c hc => isQF_of_isOwn (hsrc c hc)
  refine ⟨_, hf s, ?_⟩
  simp only [State.issue_of_issues hi, State.withSrc_ok (s.operands_plain s.focus hplain (by simp)), Slot.setPred_zero]
  rw [State.past, State.advance_outside (by rw [State.slot_modSlot]; exact hw), State.slot_modSlot, State.slot_modSlot,
    Slot.p_goesOn]
  rfl

/-- `pget` writes the predicate word as it is read (06 R109). -/
theorem exec_pget {s s1 : State} {d : Spec} {g : Guard} (hi : s.Issues (.pget d g) (Meta.of g [] [d]))
    (ho : s.operands s.focus [] [d] = .ok ([], s1)) :
    exec (.pget d g) s = .next (s.past (.pget d g) (s1.writeSpec s.focus d (s.cur.preds.setWidth 64))) := by
  show Host.Outcome.next _ = _
  rw [State.issue_of_issues hi, State.scalarOp_ok ho]
  rfl

/-- `pput` writes the low eight bits of its operand, bit 0 as 1 (06 R109). -/
theorem exec_pput {s s1 : State} {a : Spec} {g : Guard} {vs : List Word} (hi : s.Issues (.pput a g) (Meta.of g [a] []))
    (ho : s.operands s.focus [a] [] = .ok (vs, s1)) :
    exec (.pput a g) s =
      .next (s.past (.pput a g) (s1.modSlot s.focus fun x => { x with p := (argN vs 0).setWidth 8 ||| 1 })) := by
  show Host.Outcome.next _ = _
  rw [State.issue_of_issues hi, State.withSrc_ok ho]

/-- The predicates after eight bits of a word are put, bit 0 as 1. -/
theorem Slot.pred_put (x : Slot) (v : Word) {k : BitVec 3} (hk : k ≠ 0) :
    ({ x with p := v.setWidth 8 ||| 1 } : Slot).pred k = v.getLsbD k.toNat := by
  have h : k.toNat ≠ 0 := fun h => hk (BitVec.eq_of_toNat_eq h)
  have h8 : k.toNat < 8 := k.isLt
  rw [Slot.pred_of_ne_zero _ hk]
  simp [h, h8]

/-- Settles O10: p0 reads 1 and takes no write, by a compare, a predicate instruction or `pput`, and a guard tests one predicate. -/
theorem predicateZero : Obligations.PredicateZero := by
  refine ⟨fun x k v g => ?_, fun s s1 d g hi ho => ?_, fun s i m hk hm hi hw hsrc => ?_, fun s s1 a g vs hi ho => ?_⟩
  · exact ⟨x.pred_zero, x.setPred_zero v, fun hk => ⟨x.pred_of_ne_zero hk, x.getLsbD_setPred v hk⟩, x.guardHolds_iff g⟩
  · have hword := s.cur.getLsbD_preds_word
    exact ⟨_, exec_pget hi ho, (hword 0).trans s.cur.pred_zero, hword, s.cur.preds_word_lt⟩
  · exact writesToPredicateZeroAreDiscarded hk hm hi hw hsrc
  · refine ⟨_, exec_pput hi ho, Slot.pred_zero _, fun k hk _ => ?_⟩
    rw [State.slot_modSlot, Slot.pred_put _ _ hk]

end Sys2Proof.Machine
end

section
/-! SUPPORT. Words and instructions: every instruction is read back from its own word, so a word the spec writes out decodes to the
instruction whose fields it holds (04 R63; 22 R350). -/

namespace Sys2Proof.Laws

/-- A step of another agent has no word, so nothing is asked of its decoding. -/
theorem Encoding.of_no_word {i : Instr} (h : encode i = none) : Encoding.Statement i := by
  intro v hv
  rw [h] at hv
  cases hv

/-- Every instruction is read back from its word, or refused by admission where it does not meet the conditions of R350 (04 R63; 22 R350). -/
theorem decode_encode (i : Instr) : Encoding.Statement i := by
  cases i with
  | add d a b g => exact Encoding.add d a b g
  | sub d a b g => exact Encoding.sub d a b g
  | and d a b g => exact Encoding.and d a b g
  | or d a b g => exact Encoding.or d a b g
  | xor d a b g => exact Encoding.xor d a b g
  | andn d a b g => exact Encoding.andn d a b g
  | shl d a b g => exact Encoding.shl d a b g
  | shr d a b g => exact Encoding.shr d a b g
  | sar d a b g => exact Encoding.sar d a b g
  | rol d a b g => exact Encoding.rol d a b g
  | min d a b g => exact Encoding.min d a b g
  | max d a b g => exact Encoding.max d a b g
  | minn d a b g => exact Encoding.minn d a b g
  | maxn d a b g => exact Encoding.maxn d a b g
  | mul d a b g => exact Encoding.mul d a b g
  | mulh d a b g => exact Encoding.mulh d a b g
  | mulhn d a b g => exact Encoding.mulhn d a b g
  | clz d a g => exact Encoding.clz d a g
  | ctz d a g => exact Encoding.ctz d a g
  | popc d a g => exact Encoding.popc d a g
  | brev d a g => exact Encoding.brev d a g
  | bswap d a g => exact Encoding.bswap d a g
  | sx8 d a g => exact Encoding.sx8 d a g
  | sx16 d a g => exact Encoding.sx16 d a g
  | sx32 d a g => exact Encoding.sx32 d a g
  | zx8 d a g => exact Encoding.zx8 d a g
  | zx16 d a g => exact Encoding.zx16 d a g
  | zx32 d a g => exact Encoding.zx32 d a g
  | sel d a b p => exact Encoding.sel d a b p
  | abs d a g => exact Encoding.abs d a g
  | div d a b la p => exact Encoding.div d a b la p
  | divn d a b la p => exact Encoding.divn d a b la p
  | rem d a b la p => exact Encoding.rem d a b la p
  | remn d a b la p => exact Encoding.remn d a b la p
  | addi d a imm => exact Encoding.addi d a imm
  | andi d a imm => exact Encoding.andi d a imm
  | ori d a imm => exact Encoding.ori d a imm
  | xori d a imm => exact Encoding.xori d a imm
  | shli d a cnt => exact Encoding.shli d a cnt
  | shri d a cnt => exact Encoding.shri d a cnt
  | sari d a cnt => exact Encoding.sari d a cnt
  | muli d a imm => exact Encoding.muli d a imm
  | ceqi pd a imm => exact Encoding.ceqi pd a imm
  | clti pd a imm => exact Encoding.clti pd a imm
  | cltni pd a imm => exact Encoding.cltni pd a imm
  | movh d imm => exact Encoding.movh d imm
  | lpca d imm => exact Encoding.lpca d imm
  | ceq pd a b g => exact Encoding.ceq pd a b g
  | cne pd a b g => exact Encoding.cne pd a b g
  | clt pd a b g => exact Encoding.clt pd a b g
  | cle pd a b g => exact Encoding.cle pd a b g
  | cltn pd a b g => exact Encoding.cltn pd a b g
  | clen pd a b g => exact Encoding.clen pd a b g
  | ctst pd a b g => exact Encoding.ctst pd a b g
  | pand pd pa pb g => exact Encoding.pand pd pa pb g
  | por pd pa pb g => exact Encoding.por pd pa pb g
  | pxor pd pa pb g => exact Encoding.pxor pd pa pb g
  | pandn pd pa pb g => exact Encoding.pandn pd pa pb g
  | pget d g => exact Encoding.pget d g
  | pput a g => exact Encoding.pput a g
  | fadd d a b g => exact Encoding.fadd d a b g
  | fsub d a b g => exact Encoding.fsub d a b g
  | fmul d a b g => exact Encoding.fmul d a b g
  | ffma d a b g => exact Encoding.ffma d a b g
  | fmin d a b g => exact Encoding.fmin d a b g
  | fmax d a b g => exact Encoding.fmax d a b g
  | fcvt d a ty rm g => exact Encoding.fcvt d a ty rm g
  | fceq pd a b g => exact Encoding.fceq pd a b g
  | fclt pd a b g => exact Encoding.fclt pd a b g
  | fcle pd a b g => exact Encoding.fcle pd a b g
  | fcls pd a mask g => exact Encoding.fcls pd a mask g
  | fdiv d a b la p => exact Encoding.fdiv d a b la p
  | fsqr d a la p => exact Encoding.fsqr d a la p
  | b p sense off => exact Encoding.b p sense off
  | bl p sense off => exact Encoding.bl p sense off
  | jr a g => exact Encoding.jr a g
  | jlr d a g => exact Encoding.jlr d a g
  | brk n g => exact Encoding.brk n g
  | wjoin a b g => exact Encoding.wjoin a b g
  | wleave a g => exact Encoding.wleave a g
  | wwork g => exact Encoding.wwork g
  | wsafe g => exact Encoding.wsafe g
  | loop c eo => exact Encoding.loop c eo
  | loopi n eo => exact Encoding.loopi n eo
  | ld8s t base am rd la p => exact Encoding.ld8s t base am rd la p
  | ld8z t base am rd la p => exact Encoding.ld8z t base am rd la p
  | ld16s t base am rd la p => exact Encoding.ld16s t base am rd la p
  | ld16z t base am rd la p => exact Encoding.ld16z t base am rd la p
  | ld32s t base am rd la p => exact Encoding.ld32s t base am rd la p
  | ld32z t base am rd la p => exact Encoding.ld32z t base am rd la p
  | ld64 t base am rd la p => exact Encoding.ld64 t base am rd la p
  | ld128 t base am rd la p => exact Encoding.ld128 t base am rd la p
  | lda32 t base am la p sc => exact Encoding.lda32 t base am la p sc
  | lda64 t base am la p sc => exact Encoding.lda64 t base am la p sc
  | st8 t base am rd la p => exact Encoding.st8 t base am rd la p
  | st16 t base am rd la p => exact Encoding.st16 t base am rd la p
  | st32 t base am rd la p => exact Encoding.st32 t base am rd la p
  | st64 t base am rd la p => exact Encoding.st64 t base am rd la p
  | st128 t base am rd la p => exact Encoding.st128 t base am rd la p
  | stl32 t base am la p sc => exact Encoding.stl32 t base am la p sc
  | stl64 t base am la p sc => exact Encoding.stl64 t base am la p sc
  | amoadd d a b la os => exact Encoding.amoadd d a b la os
  | amoand d a b la os => exact Encoding.amoand d a b la os
  | amoor d a b la os => exact Encoding.amoor d a b la os
  | amoxor d a b la os => exact Encoding.amoxor d a b la os
  | amomin d a b la os => exact Encoding.amomin d a b la os
  | amomax d a b la os => exact Encoding.amomax d a b la os
  | amominn d a b la os => exact Encoding.amominn d a b la os
  | amomaxn d a b la os => exact Encoding.amomaxn d a b la os
  | amoswp d a b la os => exact Encoding.amoswp d a b la os
  | cas d a b la os => exact Encoding.cas d a b la os
  | fence os g => exact Encoding.fence os g
  | drain path g => exact Encoding.drain path g
  | mroute d a g => exact Encoding.mroute d a g
  | mprobe d a g => exact Encoding.mprobe d a g
  | migrate a g => exact Encoding.migrate a g
  | xcopy d a ch la p => exact Encoding.xcopy d a ch la p
  | xred d a ch la p => exact Encoding.xred d a ch la p
  | lease f kind prio la p => exact Encoding.lease f kind prio la p
  | erd d f n la p => exact Encoding.erd d f n la p
  | free f g => exact Encoding.free f g
  | ewr f a n g => exact Encoding.ewr f a n g
  | eguard f a sl g => exact Encoding.eguard f a sl g
  | gres pa sl g => exact Encoding.gres pa sl g
  | mstep ovw n a b la p => exact Encoding.mstep ovw n a b la p
  | mwld fmt a b la p => exact Encoding.mwld fmt a b la p
  | mst rm ty a b la p => exact Encoding.mst rm ty a b la p
  | mrd v b la p => exact Encoding.mrd v b la p
  | mshape a g => exact Encoding.mshape a g
  | mfmt a g => exact Encoding.mfmt a g
  | mwswp g => exact Encoding.mwswp g
  | mring g => exact Encoding.mring g
  | mclr a g => exact Encoding.mclr a g
  | mscl g => exact Encoding.mscl g
  | mbnd k a g => exact Encoding.mbnd k a g
  | vadd vd va vb ty g => exact Encoding.vadd vd va vb ty g
  | vsub vd va vb ty g => exact Encoding.vsub vd va vb ty g
  | vmul vd va vb ty g => exact Encoding.vmul vd va vb ty g
  | vfma vd va vb ty g => exact Encoding.vfma vd va vb ty g
  | vmin vd va vb ty g => exact Encoding.vmin vd va vb ty g
  | vmax vd va vb ty g => exact Encoding.vmax vd va vb ty g
  | vsel vd va vb ty g => exact Encoding.vsel vd va vb ty g
  | vcmpEq vd va vb ty g => exact Encoding.vcmpEq vd va vb ty g
  | vcmpLt vd va vb ty g => exact Encoding.vcmpLt vd va vb ty g
  | vcmpLe vd va vb ty g => exact Encoding.vcmpLe vd va vb ty g
  | vand vd va vb ty g => exact Encoding.vand vd va vb ty g
  | vor vd va vb ty g => exact Encoding.vor vd va vb ty g
  | vxor vd va vb ty g => exact Encoding.vxor vd va vb ty g
  | vshl vd va vb ty g => exact Encoding.vshl vd va vb ty g
  | vshr vd va vb ty g => exact Encoding.vshr vd va vb ty g
  | vabs vd va ty g => exact Encoding.vabs vd va ty g
  | vneg vd va ty g => exact Encoding.vneg vd va ty g
  | vmov vd va ty g => exact Encoding.vmov vd va ty g
  | vcvt vd va rm ty g => exact Encoding.vcvt vd va rm ty g
  | vrcp vd va ty g => exact Encoding.vrcp vd va ty g
  | vrsq vd va ty g => exact Encoding.vrsq vd va ty g
  | vexp vd va ty g => exact Encoding.vexp vd va ty g
  | vlog vd va ty g => exact Encoding.vlog vd va ty g
  | vqnt vd va vb ty g => exact Encoding.vqnt vd va vb ty g
  | vdq vd va vb ty g => exact Encoding.vdq vd va vb ty g
  | vshp o g => exact Encoding.vshp o g
  | vred vd va rop dir ty g => exact Encoding.vred vd va rop dir ty g
  | vbc vd o ty g => exact Encoding.vbc vd o ty g
  | vtr vd va ty g => exact Encoding.vtr vd va ty g
  | vrot vd va o ty g => exact Encoding.vrot vd va o ty g
  | vld v a rd am la p => exact Encoding.vld v a rd am la p
  | vst v a rd am la p => exact Encoding.vst v a rd am la p
  | trap n g => exact Encoding.trap n g
  | eret g => exact Encoding.eret g
  | sysr d n g => exact Encoding.sysr d n g
  | sysw nh a nl g => exact Encoding.sysw nh a nl g
  | sysx d a b g => exact Encoding.sysx d a b g
  | tlbi a kind g => exact Encoding.tlbi a kind g
  | ckpt g => exact Encoding.ckpt g
  | idle g => exact Encoding.idle g
  | halt g => exact Encoding.halt g
  | rot a g => exact Encoding.rot a g
  | tins a g => exact Encoding.tins a g
  | trem a g => exact Encoding.trem a g
  | tspn a b g => exact Encoding.tspn a b g
  | _ => exact Encoding.of_no_word rfl

/-- The word of a well-formed instruction decodes to it. -/
theorem decode_of_encode {i : Instr} {v : IWord} (h : encode i = some v) (hadm : WellFormed i) : decode v = .ok i := by
  rw [decode_encode i v h, if_pos hadm]

/-- The word of one that is not well-formed is refused by admission. -/
theorem decode_of_not_admitted {i : Instr} {v : IWord} (h : encode i = some v) (hadm : ¬ WellFormed i) :
    decode v = .error .admission := by
  rw [decode_encode i v h, if_neg hadm]

/-- A word whose fields name no instruction is refused for that reason. -/
theorem decode_of_bad_fields {v : IWord} {e : Reject} (h : decodeFields v = .error e) : decode v = .error e := by
  rw [decode, h]

/-- Settles O4: decoding the word of an instruction gives it back, or the refusal by admission. -/
theorem decodeOfEncodeIsTheInstruction : Obligations.DecodeOfEncodeIsTheInstruction :=
  decode_encode

/-- Each written word is the word of the well-formed instruction beside it (04 R65; 06 R107, R117; 07 R128; 08 R168; 10 R208). -/
theorem writtenWordsDecode : Clause.WrittenWordsDecode := by
  unfold Clause.WrittenWordsDecode
  and_intros
  all_goals exact decode_of_encode rfl rfl

/-- Of the sample words of Table 22.1, 0x6C315007 is an `ld128` of the odd register g3 and 0xA4000000 a `fence` of no order; the
fields of the others name no instruction (22 R350). -/
theorem sampleWordsAreIllegal : Clause.SampleWordsAreIllegal :=
  ⟨decode_of_bad_fields rfl, decode_of_bad_fields rfl, decode_of_bad_fields rfl, decode_of_bad_fields rfl,
    decode_of_bad_fields rfl, decode_of_not_admitted (i := .ld128 (.g 3) (.g 5) 1 0 0 0) rfl (by decide),
    decode_of_bad_fields rfl, decode_of_bad_fields rfl, decode_of_not_admitted (i := .fence 0 Machine.always) rfl (by decide)⟩

/-- Settles O3: the written words are those of their instructions, and the illegal ones are refused each for its reason. -/
theorem wordsOfTheSpecDecode : Obligations.WordsOfTheSpecDecode :=
  ⟨writtenWordsDecode, sampleWordsAreIllegal⟩

end Sys2Proof.Laws
end

section
/-! SUPPORT. What every instruction meets at issue: the checks made whatever its guard holds, the guard, and the registers it waits for
(04 R64, R67; 07 R145; 08 R153; 22 R353, R354). -/

namespace Sys2Proof.Machine

theorem falseGuardOnlyGoesOn : Clause.FalseGuardOnlyGoesOn := by
  intro s i m hm hr hg
  obtain ⟨body, hexec⟩ := exec_issues i s m hm
  rw [hexec, State.issue_skip hr hg]

/-- An instruction past the reach of a lookahead window waits, before any other check (04 R67; log 66). -/
theorem State.issue_waits_for_window {s : State} {i : Instr} {m : Meta} (hc : s.canIssue s.focus = true)
    (hwin : s.cur.window m = .wait) (body : State → Who → Res) :
    s.issue i m body = s.modSlot s.focus fun x => { x with st := .wait, why := .lookahead } := by
  unfold State.cur at hwin
  unfold State.issue
  cases hs : s.staticCheck s.focus i m <;> simp only [hc, hs, hwin, Bool.true_eq_false, if_false, if_true]

/-- One that no window holds back and that a check of R353 step 4 refuses takes that check's trap. -/
theorem State.issue_refused {s : State} {i : Instr} {m : Meta} {c : Nat} {ev : Word} (hc : s.canIssue s.focus = true)
    (hwin : s.cur.window m ≠ .wait) (hs : s.staticCheck s.focus i m = some (c, ev)) (body : State → Who → Res) :
    s.issue i m body = s.raise s.focus c ev s.cur.pc := by
  unfold State.cur at hwin ⊢
  unfold State.issue
  simp only [hc, hs, hwin, Bool.true_eq_false, if_false]

/-- The same of the instruction itself, whatever it does where it reaches its effect. -/
theorem exec_refused {s : State} {i : Instr} {m : Meta} {c : Nat} {ev : Word} (hm : instrMeta s.cur.isMember i = some m)
    (hc : s.canIssue s.focus = true) (hwin : s.cur.window m ≠ .wait) (hs : s.staticCheck s.focus i m = some (c, ev)) :
    exec i s = .next (s.raise s.focus c ev s.cur.pc) := by
  obtain ⟨body, hexec⟩ := exec_issues i s m hm
  rw [hexec, State.issue_refused hc hwin hs]

/-- A neighbour outside waves is refused first (22 R353 step 4). -/
theorem State.staticCheck_neighbour {s : State} {i : Instr} {m : Meta} (hw : s.cur.inWave = false)
    (hn : m.src.any isN = true) : s.staticCheck s.focus i m = some (cWaveOnly, wordOf i) := by
  unfold State.cur at hw
  simp only [State.staticCheck, hw, hn, decide_true, Bool.and_self, if_true]

/-- Then `wleave` outside waves. -/
theorem State.staticCheck_wleave {s : State} {i : Instr} {m : Meta} (hw : s.cur.inWave = false)
    (hn : m.src.any isN = false) (hi : isWleave i = true) : s.staticCheck s.focus i m = some (cWaveIllegal, wordOf i) := by
  unfold State.cur at hw
  simp only [State.staticCheck, hw, hn, hi, decide_true, Bool.and_self, Bool.and_false, Bool.false_eq_true, if_true, if_false]

/-- In a wave, an instruction or an operand of the excluded classes (02 Table 2.5). -/
theorem State.staticCheck_excluded {s : State} {i : Instr} {m : Meta} (hw : s.cur.inWave = true)
    (hx : m.waveOk = false ∨ m.src.any isQF = true ∨ m.dst.any isQF = true) :
    s.staticCheck s.focus i m = some (cWaveIllegal, wordOf i) := by
  have hx' : (!m.waveOk || m.src.any isQF || m.dst.any isQF) = true := by
    rcases hx with h | h | h <;> simp only [h, Bool.not_false, Bool.or_true, Bool.true_or]
  unfold State.cur at hw
  simp only [State.staticCheck, hw, hx', Bool.true_eq_false, decide_false, Bool.false_and, Bool.true_and,
    Bool.false_eq_true, if_true, if_false]

/-- Outside waves, a register within the window of an earlier instruction, whose address goes with the trap (04 R67). -/
theorem State.staticCheck_lookahead {s : State} {i : Instr} {m : Meta} {pc : Word} (hwin : s.cur.window m = .bad pc)
    (hi : isWleave i = false) (hn : m.src.any isN = false) (hw : s.cur.inWave = false) :
    s.staticCheck s.focus i m = some (cLookahead, pc) := by
  unfold State.cur at hw hwin
  simp only [State.staticCheck, hw, hwin, hi, hn, Bool.and_false, Bool.false_and, Bool.false_eq_true, if_false]

theorem checksBeforeTheGuard : Clause.ChecksBeforeTheGuard := by
  intro s i m hm hc
  refine ⟨fun hwait => ?_, fun hfree => ⟨fun hw hn => ?_, fun hw hn hi => ?_, fun hw hx => ?_, fun pc hbad hi hn hw => ?_⟩⟩
  · obtain ⟨body, hexec⟩ := exec_issues i s m hm
    rw [hexec, State.issue_waits_for_window hc hwait]
  · exact exec_refused hm hc hfree (State.staticCheck_neighbour hw hn)
  · exact exec_refused hm hc hfree (State.staticCheck_wleave hw hn hi)
  · exact exec_refused hm hc hfree (State.staticCheck_excluded hw hx)
  · exact exec_refused hm hc hfree (State.staticCheck_lookahead hbad hi hn hw)

/-- An instruction whose guard holds and that shares a register with one still to write it waits, or overruns its wave (02 R34; 07 R145;
08 R153). -/
theorem State.issue_hazard {s : State} {i : Instr} {m : Meta} {y : Why} (hr : s.Reaches i m) (hg : s.cur.guardHolds m.g = true)
    (hred : (s.cur.red.isSome && (m.src.any isQ || m.dst.any isQ)) = false) (hy : s.cur.hazard m = some y)
    (body : State → Who → Res) :
    s.issue i m body = if s.cur.inWave then s.raise s.focus cOverrun (wordOf i) s.cur.pc
      else s.modSlot s.focus fun x => { x with st := .wait, why := y } := by
  obtain ⟨hc, hs, hwin⟩ := hr
  unfold State.cur at hwin hg hred hy ⊢
  unfold State.issue
  simp only [hc, hs, hwin, hg, hred, hy, reduceCtorEq, Bool.true_eq_false, Bool.false_eq_true, if_false]

theorem registerHazardsWait : Clause.RegisterHazardsWait := by
  intro s i m y hm hr hg hred hy
  obtain ⟨body, hexec⟩ := exec_issues i s m hm
  rw [hexec, State.issue_hazard hr hg hred hy]

end Sys2Proof.Machine
end

section
/-! SUPPORT. The order of turns in a cycle, and the threads that leave WAIT as the next one begins (02 R21, R43; log 1). -/

namespace Sys2Proof.Machine

/-- While a slot has still to issue, every turn but an issue waits (02 R21, R43). -/
theorem State.mustWait_of_issuers {s : State} {u : Turn} (h : s.issuers ≠ []) (hi : ∀ v, u ≠ .issue v) (ht : u ≠ .tick 0) :
    s.mustWait u = true := by
  have hne : (!s.issuers.isEmpty) = true := by simpa using h
  cases u with
  | issue v => exact absurd rfl (hi v)
  | tick n =>
    cases n with
    | zero => exact absurd rfl ht
    | succ n => simp only [State.mustWait, hne, Bool.true_or]
  | _ => exact hne

/-- A step whose turn has to wait is the issue of the slot that comes first (log 1). -/
theorem step_of_mustWait {s : State} {u : Turn} {r : List Turn} {w : Who} (ha : s.agenda = u :: r) (hu : s.mustWait u = true)
    (hw : s.issuers.find? s.hasTurn = some w) : step s = s.issueTurn w := by
  simp only [step, ha, hu, if_true, State.defaultTurn, hw]

/-- A map whose values are changed alike gives the changed value, where the value of an unlisted key stands. -/
theorem kvGet_map {α β : Type} (f : α → β) (m : List (Nat × α)) (k : Nat) (d : α) :
    kvGet (m.map fun e => (e.1, f e.2)) k (f d) = f (kvGet m k d) := by
  induction m with
  | nil => rfl
  | cons e m ih => simp only [List.map_cons, kvGet, ih, apply_ite f]

/-- What holds of every value listed and of that of an unlisted key holds of every value read. -/
theorem kvGet_of_forall {α : Type} {p : α → Prop} {m : List (Nat × α)} {d : α} (hm : ∀ e ∈ m, p e.2) (hd : p d) (k : Nat) :
    p (kvGet m k d) := by
  induction m with
  | nil => exact hd
  | cons e m ih =>
    simp only [kvGet]
    split
    · exact hm e (by simp)
    · exact ih fun e he => hm e (by simp [he])

theorem foldl_eq_self {σ β : Type} {f : σ → β → σ} {s : σ} {l : List β} (h : ∀ b ∈ l, f s b = s) : l.foldl f s = s :=
  List.foldlRecOn (motive := (· = s)) l f rfl fun _ ht b hb => ht ▸ h b hb

/-- The transfers of a cycle that ends are in the matrix state alone (09 R174). -/
theorem Tile.moveLoad_eq (t : Tile) (now : Nat) : ∃ mx, t.moveLoad now = { t with mx := mx } := by
  unfold Tile.moveLoad
  split
  · exact ⟨_, rfl⟩
  · split
    · exact ⟨_, rfl⟩
    · exact ⟨_, rfl⟩

@[simp] theorem Tile.moveLoad_slots (t : Tile) (now : Nat) : (t.moveLoad now).slots = t.slots := by
  obtain ⟨mx, h⟩ := t.moveLoad_eq now
  rw [h]

@[simp] theorem Tile.moveLoad_rotNext (t : Tile) (now : Nat) : (t.moveLoad now).rotNext = t.rotNext := by
  obtain ⟨mx, h⟩ := t.moveLoad_eq now
  rw [h]

@[simp] theorem Tile.moveLoad_handoffs (t : Tile) (now : Nat) : (t.moveLoad now).handoffs = t.handoffs := by
  obtain ⟨mx, h⟩ := t.moveLoad_eq now
  rw [h]

/-- The state in which the next cycle begins, before anything of that cycle is done. -/
def State.cycleEnd (s : State) : State :=
  { s with tiles := s.tiles.map (fun e => (e.1, e.2.moveLoad s.now)), now := s.now + 1 }

@[simp] theorem State.tile_cycleEnd (s : State) (t : Nat) : s.cycleEnd.tile t = (s.tile t).moveLoad s.now :=
  kvGet_map (fun x : Tile => x.moveLoad s.now) s.tiles t Tile.cold

@[simp] theorem State.slot_cycleEnd (s : State) (w : Who) : s.cycleEnd.slot w = s.slot w := by
  simp only [State.slot, State.tile_cycleEnd, Tile.slot, Tile.moveLoad_slots]

@[simp] theorem State.slotsOf_cycleEnd (s : State) : s.cycleEnd.slotsOf = s.slotsOf := by
  simp only [State.slotsOf, State.cycleEnd, List.flatMap_map, Tile.moveLoad_slots]

/-- No table and no hand-off of any tile is on its way. -/
def State.Calm (s : State) : Prop := ∀ t, (s.tile t).rotNext = none ∧ (s.tile t).handoffs = []

theorem State.calm_of_tiles {s : State} (h : ∀ e ∈ s.tiles, e.2.rotNext = none ∧ e.2.handoffs = []) : s.Calm :=
  kvGet_of_forall (p := fun x : Tile => x.rotNext = none ∧ x.handoffs = []) h ⟨rfl, rfl⟩

theorem State.Calm.cycleEnd {s : State} (h : s.Calm) : s.cycleEnd.Calm := by
  intro t
  rw [State.tile_cycleEnd, Tile.moveLoad_rotNext, Tile.moveLoad_handoffs]
  exact h t

/-- An update of a tile that brings neither keeps the state calm. -/
theorem State.Calm.modTile {s : State} (h : s.Calm) (t : Nat) {f : Tile → Tile}
    (hf : ∀ x, (f x).rotNext = x.rotNext ∧ (f x).handoffs = x.handoffs) : (s.modTile t f).Calm := by
  intro u
  rw [State.modTile_keeps Tile.rotNext s t f (fun x => (hf x).1), State.modTile_keeps Tile.handoffs s t f (fun x => (hf x).2)]
  exact h u

/-- A calm tile has nothing to take at the start of a cycle (02 R23; 09 R176). -/
theorem State.Calm.startOfCycle {s : State} (h : s.Calm) (t : Nat) : s.startOfCycle t = s := by
  obtain ⟨hrot, hhand⟩ := h t
  simp only [State.startOfCycle, execRotTakeEffect, hrot, hhand, List.length_nil, List.range_zero, List.foldl_nil]

/-- A thread of no wave, or with its last index to come, does not leave (02 R35). -/
theorem State.leaveDone_eq_self {s : State} {w : Who} (h : ∀ r, (s.slot w).wave = some r → r.left = false) : s.leaveDone w = s := by
  unfold State.leaveDone
  split
  · next r hr => simp only [h r hr, Bool.false_and, Bool.false_eq_true, if_false]
  · rfl

/-- With no wave cut, none goes on. -/
theorem State.freeWaves_eq_self {s : State} (h : ∀ k v, s.wave? k = some v → v.haltAt = none) : s.freeWaves = s := by
  apply foldl_eq_self
  intro e _
  split
  · next v hv => simp only [h _ _ hv, Option.isSome_none, Bool.false_and, Bool.false_eq_true, if_false]
  · rfl

/-- A thread leaves WAIT (02 R21). -/
def State.wake (s : State) (w : Who) : State := (s.logWait w).modSlot w fun x => { x with st := .run }

theorem State.logArrival_eq (s : State) (t kind slot off : Nat) (v : Word) : ∃ f : Tile → Tile,
    s.logArrival t kind slot off v = s.modTile t f ∧
      ∀ x, (f x).slots = x.slots ∧ (f x).rotNext = x.rotNext ∧ (f x).handoffs = x.handoffs := by
  refine ⟨_, rfl, fun x => ?_⟩
  split
  · exact ⟨rfl, rfl, rfl⟩
  · exact ⟨rfl, rfl, rfl⟩

@[simp] theorem State.slot_logWait (s : State) (w u : Who) : (s.logWait w).slot u = s.slot u := by
  unfold State.logWait
  split
  · obtain ⟨f, hf, hx⟩ := s.logArrival_eq w.tile 7 w.slot 0 0
    rw [hf, State.slot_modTile s w.tile f fun x => (hx x).1]
  · rfl

theorem State.Calm.modSlot {s : State} (h : s.Calm) (w : Who) (f : Slot → Slot) : (s.modSlot w f).Calm :=
  h.modTile w.tile (f := fun t => t.setSlot w.slot (f (s.slot w))) fun _ => ⟨rfl, rfl⟩

theorem State.Calm.wake {s : State} (h : s.Calm) (w : Who) : (s.wake w).Calm := by
  refine State.Calm.modSlot ?_ w _
  unfold State.logWait
  split
  · obtain ⟨f, hf, hx⟩ := s.logArrival_eq w.tile 7 w.slot 0 0
    rw [hf]
    exact h.modTile _ fun x => (hx x).2
  · exact h

@[simp] theorem State.wake_now (s : State) (w : Who) : (s.wake w).now = s.now := by
  unfold State.wake State.logWait
  split <;> rfl

/-- The threads of a list that leave WAIT are in RUN, and every other stands as it was. -/
theorem State.st_foldl_wake (s : State) (l : List Who) (u : Who) :
    ((l.foldl State.wake s).slot u).st = if u ∈ l then .run else (s.slot u).st := by
  induction l generalizing s with
  | nil => rfl
  | cons w l ih =>
    rw [List.foldl_cons, ih]
    by_cases hl : u ∈ l
    · simp only [hl, List.mem_cons, or_true, if_true]
    · by_cases hw : u = w
      · simp only [hw, State.wake, State.slot_modSlot, List.mem_cons, true_or, if_true, ite_self]
      · simp only [hl, hw, State.wake, State.slot_modSlot_other _ _ hw, State.slot_logWait, List.mem_cons, or_self, if_false]

/-- Every thread whose wait is over leaves it. -/
def State.wakeAll (s : State) : State := (s.slotsOf.filter s.waitOver).foldl State.wake s

theorem State.Calm.wakeAll {s : State} (h : s.Calm) : s.wakeAll.Calm :=
  List.foldlRecOn (motive := State.Calm) _ _ h fun _ ht w _ => ht.wake w

@[simp] theorem State.wakeAll_now (s : State) : s.wakeAll.now = s.now :=
  foldl_keeps State.now State.wake State.wake_now _ s

theorem State.st_wakeAll {s : State} {w : Who} (hw : w ∈ s.slotsOf) :
    (s.wakeAll.slot w).st = if s.waitOver w then .run else (s.slot w).st := by
  simp only [State.wakeAll, State.st_foldl_wake, List.mem_filter, hw, true_and]

/-- What falls at the start of a cycle, tile by tile. -/
def State.startTiles (s : State) : State := (s.tiles.map fun e => e.1).foldl State.startOfCycle s

theorem State.Calm.startTiles {s : State} (h : s.Calm) : s.startTiles = s :=
  foldl_eq_self fun t _ => h.startOfCycle t

/-- The passing of a cycle, in the order of its parts. -/
theorem State.nextCycle_eq (s : State) :
    s.nextCycle = (s.cycleEnd.slotsOf.foldl State.leaveDone s.cycleEnd).freeWaves.ackLinks.wakeAll.startTiles := rfl

/-- With no member to leave, no cut wave, no table and no hand-off on its way, acknowledgements are sent and the waits that are over
end, and no more. -/
theorem State.nextCycle_of_calm {s : State} (hcalm : s.Calm)
    (hleave : ∀ w ∈ s.slotsOf, ∀ r, (s.slot w).wave = some r → r.left = false)
    (hcut : ∀ k v, s.wave? k = some v → v.haltAt = none) : s.nextCycle = s.cycleEnd.ackLinks.wakeAll := by
  have hmembers : s.cycleEnd.slotsOf.foldl State.leaveDone s.cycleEnd = s.cycleEnd := by
    refine foldl_eq_self fun w hw => State.leaveDone_eq_self ?_
    rw [State.slot_cycleEnd]
    exact hleave w (s.slotsOf_cycleEnd ▸ hw)
  have hwaves : s.cycleEnd.freeWaves = s.cycleEnd := State.freeWaves_eq_self hcut
  have hacked : s.cycleEnd.ackLinks.Calm := hcalm.cycleEnd
  rw [State.nextCycle_eq, hmembers, hwaves, hacked.wakeAll.startTiles]

/-- A wait that is over is a thread's in WAIT (02 R21). -/
theorem State.st_of_waitOver {s : State} {w : Who} (h : s.waitOver w = true) : (s.slot w).st = .wait := by
  simp only [State.waitOver, Bool.and_eq_true, beq_iff_eq] at h
  obtain ⟨⟨⟨hst, -⟩, -⟩, -⟩ := h
  exact hst

theorem waitsEndAndSlotsIssueFirst : Clause.WaitsEndAndSlotsIssueFirst := by
  refine ⟨fun s u r w ha hi ht hw => ?_, fun s htiles hleave hcut => ?_⟩
  · have hsome : s.issuers ≠ [] := List.ne_nil_of_mem (List.mem_of_find?_eq_some hw)
    exact step_of_mustWait ha (State.mustWait_of_issuers hsome hi ht) hw
  · intro s1
    have hnext : s.nextCycle = s1.wakeAll := State.nextCycle_of_calm (State.calm_of_tiles htiles) hleave hcut
    have hslot : ∀ w, s1.slot w = s.slot w := s.slot_cycleEnd
    have hslots : s1.slotsOf = s.slotsOf := s.slotsOf_cycleEnd
    refine ⟨?_, fun w hw => ⟨?_, fun hover => ?_⟩⟩
    · rw [hnext, State.wakeAll_now]
      rfl
    · rw [hnext, State.st_wakeAll (hslots ▸ hw), hslot]
    · rw [← hslot]
      exact State.st_of_waitOver hover

/-- Settles O6: the checks before the guard, a false guard, the waits for registers, and the order of turns with the end of waits. -/
theorem issueChecks : Obligations.IssueChecks :=
  ⟨falseGuardOnlyGoesOn, checksBeforeTheGuard, registerHazardsWait, waitsEndAndSlotsIssueFirst⟩

end Sys2Proof.Machine
end

section
/-! SUPPORT. A vector instruction: how it issues, the elements of its sources, and an elementwise result (08 R151 to R158; 05 R87, R88). -/

namespace Sys2Proof.Machine

/-- An instruction issued through `vecOp` whose plan runs is pending, or in a wave complete, with what the plan writes (08 R152 to R154). -/
theorem vectorResult_of_plan {i : Instr} {g : Guard} {os : List Spec} {vr vw : List Nat} {plan : Slot → List Word → VPlan}
    {out : Slot → List Word → List (Nat × Nat × List Byte) × Nat × Nat} {ok : Slot → List Word → Prop}
    (hexec : ∀ s, exec i s = s.vecOp i g os vr vw plan)
    (hplan : ∀ x vs, ok x vs → plan x vs = .run (out x vs).1 (out x vs).2.1 (out x vs).2.2) :
    VectorResult i g os vr vw out ok := by
  constructor
  · intro s vs s1 s2 hi hops hok hwave hroom hdraw
    rw [hexec, State.vecOp, State.issue_of_issues hi]
    simp only [State.withSrc_ok hops, hplan _ _ hok, hwave, Nat.not_le.mpr hroom, hdraw, Bool.false_eq_true, if_false]
  · intro s vs s1 s2 hi hops hok hwave hends hdraw
    rw [hexec, State.vecOp, State.issue_of_issues hi]
    simp only [State.withSrc_ok hops, hplan _ _ hok, hwave, hends, hdraw, if_true]

/-- An instruction without scalar operands whose plan is bad takes the plan's trap (08 R151). -/
theorem exec_of_bad_plan {s : State} {i : Instr} {g : Guard} {vr vw : List Nat} {plan : Slot → List Word → VPlan} {c : Nat}
    (hexec : exec i s = s.vecOp i g [] vr vw plan) (hi : s.Issues i ⟨g, [], [], vr, vw, true⟩) (hplan : plan s.cur [] = .bad c)
    (hc : ¬(c = cBreak ∨ c = cSoftware)) : exec i s = .next (s.raise s.focus c (wordOf i) s.cur.pc) := by
  have hops : s.operands s.focus [] [] = .ok ([], s) := rfl
  unfold State.cur at hplan
  rw [hexec, State.vecOp, State.issue_of_issues hi]
  simp only [State.withSrc_ok hops, hplan, hc, if_false]

@[simp] theorem Slot.length_velems (x : Slot) (v ty n : Nat) : (x.velems v ty n).length = n := by simp [Slot.velems]

/-- A list is its elements in order. -/
theorem map_getD_range {α : Type} (l : List α) (d : α) : (List.range l.length).map (fun k => l.getD k d) = l :=
  List.ext_getElem (by simp) fun k _ h => by simp [h]

theorem getD_map_range {α : Type} (f : Nat → α) {n k : Nat} (d : α) (h : k < n) : ((List.range n).map f).getD k d = f k := by
  simp [h]

/-- Only a subnormal is flushed (05 R88). -/
theorem flushTy_of_normal {ty b : Nat} (h : isSubnormal ty b = false) : flushTy ty b = b := by simp [flushTy, h]

/-- The elements of a source as they stand, in order. -/
theorem map_velems_getD (x : Slot) (v ty n : Nat) : (List.range n).map (fun k => (x.velems v ty n).getD k 0) = x.velems v ty n := by
  have h := map_getD_range (x.velems v ty n) 0
  rwa [Slot.length_velems] at h

/-- A wave's instruction that meets a subnormal computes with the elements flushed (05 R88). -/
theorem map_srcElem_of_subnormal {x : Slot} {assist : Bool} {ty v : Nat} (h : subSource x assist ty v = true) (hw : x.inWave = true) :
    (List.range x.shape.n).map (srcElem x assist ty v) = (x.velems v ty x.shape.n).map (flushTy ty) := by
  simp only [subSource, Bool.and_eq_true] at h
  obtain ⟨⟨ha, hty⟩, -⟩ := h
  rw [← map_velems_getD x v ty x.shape.n, List.map_map]
  exact List.map_congr_left fun k _ => by simp only [srcElem, ha, hw, hty, Bool.and_self, if_true, Function.comp]

/-- One that meets none computes with the elements as they stand. -/
theorem map_srcElem_of_normal {x : Slot} {assist : Bool} {ty v : Nat} (h : subSource x assist ty v = false) :
    (List.range x.shape.n).map (srcElem x assist ty v) = x.velems v ty x.shape.n := by
  refine Eq.trans (List.map_congr_left fun k hk => ?_) (map_velems_getD x v ty x.shape.n)
  simp only [srcElem]
  split
  · next hc =>
    simp only [Bool.and_eq_true] at hc
    obtain ⟨⟨ha, -⟩, hty⟩ := hc
    simp only [subSource, ha, hty, Bool.and_self, Bool.true_and, List.any_eq_false, Bool.not_eq_true] at h
    have hlen : k < (x.velems v ty x.shape.n).length := by simpa using hk
    rw [List.getD_eq_getElem?_getD, List.getElem?_eq_getElem hlen, Option.getD_some]
    exact flushTy_of_normal (h _ (List.getElem_mem hlen))
  · rfl

/-- What a source comes to: none where a subnormal stops the instruction (05 R87, R88). -/
theorem vecSources_eq (x : Slot) (assist : Bool) (ty v : Nat) : vecSources x assist ty x.shape.n v =
    if subSource x assist ty v then
      if x.inWave then some ((x.velems v ty x.shape.n).map (flushTy ty), fFZ) else none
    else some (x.velems v ty x.shape.n, 0) := rfl

/-- The elements of a source are those the instruction computes with, where it meets no subnormal or runs in a wave, which flushes them
(05 R87, R88). -/
theorem vecSources_of_calm {x : Slot} {assist : Bool} {ty v : Nat} (h : subSource x assist ty v = true → x.inWave = true) :
    vecSources x assist ty x.shape.n v =
      some ((List.range x.shape.n).map (srcElem x assist ty v), if subSource x assist ty v then fFZ else 0) := by
  rw [vecSources_eq]
  split
  · next hsub => rw [if_pos (h hsub), map_srcElem_of_subnormal hsub (h hsub)]
  · next hsub => rw [map_srcElem_of_normal (by simpa using hsub)]

/-- Outside waves a subnormal stops the instruction (05 R87). -/
theorem vecSources_of_subnormal {x : Slot} {assist : Bool} {ty v : Nat} (h : subSource x assist ty v = true) (hw : x.inWave = false) :
    vecSources x assist ty x.shape.n v = none := by
  simp only [vecSources_eq, h, hw, Bool.false_eq_true, if_true, if_false]

/-- The plan of an elementwise instruction of the shape's type (08 R155 to R158). -/
theorem elementwise_of_calm {x : Slot} {ty vd : Nat} {srcs : List Nat} {assist : Bool} (f : List Nat → Nat × Nat) (hty : x.shape.ty = ty)
    (h : ∀ v ∈ srcs, subSource x assist ty v = true → x.inWave = true) :
    elementwise x ty vd srcs assist f =
      .run [(vd, 0, elemBytes x assist ty srcs f)] (lanesOf (tyBytes ty x.shape.n)) (elemFlags x assist ty srcs f) := by
  have hgot : srcs.map (vecSources x assist ty x.shape.n) = srcs.map fun v =>
      some ((List.range x.shape.n).map (srcElem x assist ty v), if subSource x assist ty v then fFZ else 0) :=
    List.map_congr_left fun v hv => vecSources_of_calm (h v hv)
  have helem : ((List.range x.shape.n).map fun k =>
      f (srcs.map fun v => ((List.range x.shape.n).map (srcElem x assist ty v)).getD k 0)) =
      (List.range x.shape.n).map (elemResult x assist ty srcs f) := by
    refine List.map_congr_left fun k hk => ?_
    simp only [elemResult, getD_map_range _ _ (List.mem_range.mp hk)]
  have hnone : (srcs.map fun v => some ((List.range x.shape.n).map (srcElem x assist ty v),
      if subSource x assist ty v then fFZ else 0)).any (fun q => q.isNone) = false := by
    simp
  simp only [elementwise, hty, ne_eq, not_true_eq_false, if_false, hgot, hnone, Bool.false_eq_true, List.map_map, Function.comp_def,
    Option.getD_some, helem, List.foldl_map, elemBytes, elemFlags]

/-- An elementwise instruction: the operation of its plan, which need agree with the stated one on as many elements as there are sources
(08 R155 to R158). -/
theorem elementResult_of_elementwise {i : Instr} {g : Guard} {ty vd : BitVec 4} {srcs : List (BitVec 4)} {assist : Bool}
    {f f' : List Nat → Nat × Nat}
    (hexec : ∀ s, exec i s = s.vecOp i g [] (srcs.map fun v => v.toNat) [vd.toNat] fun x _ =>
      elementwise x ty.toNat vd.toNat (srcs.map fun v => v.toNat) assist f)
    (hf : ∀ e : BitVec 4 → Nat, f (srcs.map e) = f' (srcs.map e)) : ElementResult i g ty vd srcs assist f' := by
  refine vectorResult_of_plan hexec fun x vs hok => ?_
  obtain ⟨hty, hcalm⟩ := hok
  have hsame : ∀ k, elemResult x assist ty.toNat (srcs.map fun v => v.toNat) f k =
      elemResult x assist ty.toNat (srcs.map fun v => v.toNat) f' k := fun k => by
    simp only [elemResult, List.map_map, Function.comp_def, hf]
  have hwave : ∀ v ∈ srcs.map (fun v => v.toNat), subSource x assist ty.toNat v = true → x.inWave = true := by
    intro v hv hsub
    obtain ⟨u, hu, rfl⟩ := List.mem_map.mp hv
    exact hcalm (List.any_eq_true.mpr ⟨u, hu, hsub⟩)
  rw [elementwise_of_calm f hty hwave]
  simp only [elemBytes, elemFlags, hsame, funext hsame]

/-- Settles O35: each instruction is `elementwise` of the operation that the statement gives it. -/
theorem elementwiseVectors : Obligations.ElementwiseVectors := by
  intro vd va vb ty g t w B F C U A
  refine ⟨?vadd, ?vsub, ?vmul, ?vmin, ?vmax, ?vfma, ?vcmpEq, ?vcmpLt, ?vcmpLe, ?vsel, ?vand, ?vor, ?vxor, ?vshl, ?vshr, ?vabs, ?vneg,
    ?vrcp, ?vrsq, ?vexp, ?vlog⟩
  case vsel => exact elementResult_of_elementwise (fun _ => rfl) fun e => congrArg (·, 0) (ite_not ..)
  all_goals exact elementResult_of_elementwise (fun _ => rfl) fun _ => rfl
end Sys2Proof.Machine
end

section
/-! SUPPORT. The vector instructions that are not elementwise, `vshp`, and the traps of vector instructions (08 R151, R159 to R166; 05 R87). -/

namespace Sys2Proof.Machine

/-- The place of row i, column j is one of the shape (03 R52). -/
theorem Shape.index_lt {h : Shape} {i j : Nat} (hi : i < h.r) (hj : j < h.c) : i * h.c + j < h.n := by
  have hrow : (i + 1) * h.c ≤ h.r * h.c := Nat.mul_le_mul_right _ hi
  have hnext : (i + 1) * h.c = i * h.c + h.c := Nat.succ_mul ..
  unfold Shape.n
  omega

/-- The lines of a shape that `vred` reduces, rows or columns (08 R161). -/
def Shape.lines (h : Shape) (dir : BitVec 1) (e : Nat → Nat) : List (List Nat) :=
  if dir = 0 then (List.range h.r).map fun i => (List.range h.c).map fun j => e (i * h.c + j)
  else (List.range h.c).map fun j => (List.range h.r).map fun i => e (i * h.c + j)

/-- They take no element beyond the shape. -/
theorem Shape.lines_congr {h : Shape} {dir : BitVec 1} {e f : Nat → Nat} (hef : ∀ k < h.n, e k = f k) :
    h.lines dir e = h.lines dir f := by
  unfold Shape.lines
  split
  · exact List.map_congr_left fun i hi => List.map_congr_left fun j hj =>
      hef _ (Shape.index_lt (List.mem_range.mp hi) (List.mem_range.mp hj))
  · exact List.map_congr_left fun j hj => List.map_congr_left fun i hi =>
      hef _ (Shape.index_lt (List.mem_range.mp hi) (List.mem_range.mp hj))

/-- The blocks that `vqnt` quantises, each with its row and its number in it (08 R165). -/
def Shape.blocks (h : Shape) (blk : Nat → Nat → List Num) : List (Nat × Nat × Nat × List Nat × Nat) :=
  (List.range h.r).flatMap fun i => (List.range ((h.c + 31) / 32)).map fun k => (i, k, quantBlock (blk i k))

theorem Shape.blocks_congr {h : Shape} {a b : Nat → Nat → List Num} (hab : ∀ i < h.r, ∀ k, 32 * k < h.c → a i k = b i k) :
    h.blocks a = h.blocks b := by
  simp only [Shape.blocks, List.flatMap_def]
  refine congrArg List.flatten (List.map_congr_left fun i hi => List.map_congr_left fun k hk => ?_)
  have hcol := List.mem_range.mp hk
  rw [hab i (List.mem_range.mp hi) k (by omega)]

/-- The elements of block k of row i: up to 32 from column 32 k on (08 R165). -/
theorem Shape.block_elements {h : Shape} {i k : Nat} (f : Nat → Nat) (hi : i < h.r) (hk : 32 * k < h.c) :
    (((List.range h.n).map f).drop (i * h.c + 32 * k)).take (min 32 (h.c - 32 * k)) =
      (List.range (min 32 (h.c - 32 * k))).map fun j => f (i * h.c + 32 * k + j) := by
  have hlast : i * h.c + (h.c - 1) < h.n := Shape.index_lt hi (by omega)
  exact List.ext_getElem (by simp; omega) fun _ _ _ => by simp

/-- An element that no assist concerns is read as it stands. -/
theorem srcElem_unassisted (x : Slot) (ty v k : Nat) : srcElem x false ty v k = (x.velems v ty x.shape.n).getD k 0 := rfl

/-- `vshp` sets a legal shape and traps on any other (03 R53; 08 R166). -/
theorem exec_vshp {s : State} {o : BitVec 3} {g : Guard} (hi : s.Issues (.vshp o g) (Meta.of g [.o o] [])) :
    let n := vget s.cur.o o.toNat 0
    (vshpOk n = true → exec (.vshp o g) s = .next (s.past (.vshp o g) (s.modSlot s.focus fun x => { x with vshp := vshpMask n }))) ∧
    (vshpOk n = false → exec (.vshp o g) s = .next (s.raise s.focus cVShape (wordOf (.vshp o g)) s.cur.pc)) := by
  intro n
  have hops : s.operands s.focus [.o o] [] = .ok ([n], s) := s.operands_plain s.focus (by simp [isQF]) (by simp)
  have hexec : exec (.vshp o g) s = execVshp o g s := rfl
  have harg : argN [n] 0 = n := rfl
  rw [hexec, execVshp, State.issue_of_issues hi, State.withSrc_ok hops]
  constructor
  · intro hn
    simp only [Slot.setShape, harg, hn, if_true, State.modSlot]
  · intro hn
    simp only [Slot.setShape, harg, hn, Bool.false_eq_true, if_false]
    rfl

/-- Each instruction's plan runs, and its writes, lane cycles and flags are those stated: the elements it computes with are the source's
(`vecSources_of_calm`), and it takes none beyond the shape. -/
theorem vectorRearrangements : Clause.VectorRearrangements := by
  intro vd va vb ty rm rop dir o g v d same calm fz size
  refine ⟨?vmov, ?vcvt, ?vred, ?vbc, ?vtr, ?vrot, ?vqnt, ?vdq, fun s hi => exec_vshp hi⟩
  case vmov =>
    refine vectorResult_of_plan (execVmov.eq_1 vd va ty g) fun x vs hty => ?_
    rw [if_neg (not_not_intro hty)]
  case vcvt =>
    refine vectorResult_of_plan (execVcvt.eq_1 vd va rm ty g) fun x vs ⟨hty, hsize, hcalm⟩ => ?_
    simp only [hty, if_false, convertPlan, Nat.not_lt.mpr hsize, vecSources_of_calm hcalm, List.map_map, Function.comp_def, size, v, d, fz]
  case vred =>
    refine vectorResult_of_plan (execVred.eq_1 vd va rop dir ty g) fun x vs ⟨hty, hcalm⟩ => ?_
    have hlines := x.shape.lines_congr (dir := dir) fun k => getD_map_range (srcElem x true x.shape.ty va.toNat) 0
    simp only [Shape.lines] at hlines
    rw [if_neg (not_not_intro hty)]
    simp only [vecSources_of_calm hcalm, hlines, size, v, d, fz]
  case vbc =>
    refine vectorResult_of_plan (execVbc.eq_1 vd o ty g) fun x vs hty => ?_
    rw [if_neg (not_not_intro hty)]
  case vtr =>
    refine vectorResult_of_plan (execVtr.eq_1 vd va ty g) fun x vs ⟨hty, hc⟩ => ?_
    rw [if_neg (not_not_intro hty)]
    simp only [Nat.not_lt.mpr hc, if_false, srcElem_unassisted, size, v, d]
  case vrot =>
    refine vectorResult_of_plan (execVrot.eq_1 vd va o ty g) fun x vs hty => ?_
    have hcols : ∀ n : Nat, bits n 7 0 = n % 256 := fun n => by simp [bits]
    have hrows : ∀ n : Nat, bits n 13 8 = n / 256 % 64 := fun n => rfl
    rw [if_neg (not_not_intro hty)]
    simp only [hcols, hrows, srcElem_unassisted, size, v, d]
  case vqnt =>
    refine vectorResult_of_plan (execVqnt.eq_1 vd va vb ty g) fun x vs ⟨hty, hc, hcalm⟩ => ?_
    have hblocks := x.shape.blocks_congr fun i hi k hk =>
      congrArg (List.map (tyDecode x.shape.ty)) (Shape.block_elements (srcElem x true x.shape.ty va.toNat) hi hk)
    simp only [Shape.blocks, List.map_map, Function.comp_def] at hblocks
    rw [if_neg (Nat.not_lt.mpr hty), if_neg (not_not_intro hc)]
    simp only [vecSources_of_calm hcalm, hblocks, scaleOff, v, d, fz, size]
  case vdq =>
    refine vectorResult_of_plan (execVdq.eq_1 vd va vb ty g) fun x vs ⟨hty, hsize⟩ => ?_
    rw [if_neg (not_not_intro hty), if_neg (Nat.not_lt.mpr hsize)]
    simp only [scaleOff, v, d, size]

/-- An elementwise instruction of another type than the shape's (08 R151). -/
theorem elementwise_of_other_type {x : Slot} {ty vd : Nat} {srcs : List Nat} {assist : Bool} {f : List Nat → Nat × Nat}
    (hty : x.shape.ty ≠ ty) : elementwise x ty vd srcs assist f = .bad cVType := if_pos hty

/-- One with a subnormal in a source, outside waves (05 R87). -/
theorem elementwise_of_subnormal {x : Slot} {ty vd v : Nat} {srcs : List Nat} {assist : Bool} {f : List Nat → Nat × Nat}
    (hty : x.shape.ty = ty) (hw : x.inWave = false) (hv : v ∈ srcs) (hsub : subSource x assist ty v = true) :
    elementwise x ty vd srcs assist f = .bad cAssist := by
  have hnone : (srcs.map (vecSources x assist ty x.shape.n)).any (fun q => q.isNone) = true :=
    List.any_eq_true.mpr ⟨_, List.mem_map_of_mem hv, by rw [vecSources_of_subnormal hsub hw]; rfl⟩
  simp only [elementwise, hty, ne_eq, not_true_eq_false, if_false, hnone, if_true]

/-- The arithmetic instructions and compares of two sources issue as elementwise ones that assist (08 R155, R158). -/
theorem exec_of_two_sources {i : Instr} {vd va vb ty : BitVec 4} {g : Guard} {member : Bool} {m : Meta}
    (h : i ∈ [Instr.vadd vd va vb ty g, .vsub vd va vb ty g, .vmul vd va vb ty g, .vmin vd va vb ty g, .vmax vd va vb ty g,
      .vcmpEq vd va vb ty g, .vcmpLt vd va vb ty g, .vcmpLe vd va vb ty g]) (hm : instrMeta member i = some m) :
    m = ⟨g, [], [], [va.toNat, vb.toNat], [vd.toNat], true⟩ ∧ ∃ f, ∀ s, exec i s =
      s.vecOp i g [] [va.toNat, vb.toNat] [vd.toNat] fun x _ => elementwise x ty.toNat vd.toNat [va.toNat, vb.toNat] true f := by
  simp only [List.mem_cons, List.not_mem_nil, or_false] at h
  rcases h with rfl | rfl | rfl | rfl | rfl | rfl | rfl | rfl <;>
    exact ⟨(Option.some.inj hm).symm, _, fun _ => rfl⟩

theorem vectorTraps : Clause.VectorTraps := by
  intro s vd va vb ty g i m hmem hm hi
  obtain ⟨rfl, f, hexec⟩ := exec_of_two_sources hmem hm
  refine ⟨fun hty => ?_, fun hty hw hsub => ?_⟩
  · exact exec_of_bad_plan (hexec s) hi (elementwise_of_other_type hty) (by decide)
  · refine exec_of_bad_plan (hexec s) hi ?_ (by decide)
    rcases hsub with hsub | hsub
    · exact elementwise_of_subnormal hty hw (by simp) hsub
    · exact elementwise_of_subnormal hty hw (by simp) hsub

/-- Settles O36: what the other vector instructions write, `vshp`, and the two traps. -/
theorem otherVectors : Obligations.OtherVectors := ⟨vectorRearrangements, vectorTraps⟩

end Sys2Proof.Machine
end

section
/-! SUPPORT. What a load may disturb: no byte of memory, no vector register, and no instruction of the pending list turned into another
(11 R217 to R233, R405; 12 R240). -/

namespace Sys2Proof.Machine

/-- The vector registers of a thread, and which of its pending instructions are loads. -/
def Slot.loadView (x : Slot) : List Host.Cell × List (Nat × Bool) := (x.v, x.pend.map fun p => (p.seq, p.job.isLoad))

/-- What a load on its way leaves as it is: every byte, and of every slot its `loadView`. -/
def State.loadView (s : State) : (Loc → Nat → Byte) × (Who → List Host.Cell × List (Nat × Bool)) :=
  (s.getByte, fun w => (s.slot w).loadView)

theorem State.sameMemory_of_loadView {s t : State} (h : t.loadView = s.loadView) : s.SameMemory t := fun l n =>
  congrFun (congrFun (congrArg Prod.fst h) l) n

theorem State.slot_of_loadView {s t : State} (h : t.loadView = s.loadView) (w : Who) : (t.slot w).loadView = (s.slot w).loadView :=
  congrFun (congrArg Prod.snd h) w

/-- Bytes are read from HBM, the windows, the shadow pages and the scratchpads; the capability list from the start's figures. -/
theorem State.getByte_eq_of_tiles {s : State} {l : List (Nat × Tile)}
    (h : ∀ u, (({ s with tiles := l } : State).tile u).spad = (s.tile u).spad) : ({ s with tiles := l } : State).getByte = s.getByte := by
  funext p n
  cases p with
  | spad t off => exact congrArg (memGet · (off + n)) (h t)
  | _ => rfl

theorem State.loadView_of_tiles {s : State} {l : List (Nat × Tile)}
    (hspad : ∀ u, (({ s with tiles := l } : State).tile u).spad = (s.tile u).spad)
    (hslot : ∀ w, (({ s with tiles := l } : State).slot w).loadView = (s.slot w).loadView) :
    ({ s with tiles := l } : State).loadView = s.loadView :=
  Prod.ext (State.getByte_eq_of_tiles hspad) (funext hslot)

theorem State.loadView_modTile {s : State} {t : Nat} {f : Tile → Tile} (hspad : ∀ x, (f x).spad = x.spad)
    (hslots : ∀ x, (f x).slots = x.slots) : (s.modTile t f).loadView = s.loadView :=
  State.loadView_of_tiles (s.modTile_keeps Tile.spad t f hspad) fun w =>
    congrArg Slot.loadView (s.slot_modTile t f hslots w)

theorem State.loadView_modSlot {s : State} {w : Who} {f : Slot → Slot} (h : (f (s.slot w)).loadView = (s.slot w).loadView) :
    (s.modSlot w f).loadView = s.loadView :=
  State.loadView_of_tiles (fun u => s.tile_modSlot_spad w f u) fun v => by
    by_cases hv : v = w
    · rw [hv]
      exact (congrArg Slot.loadView (s.slot_modSlot w f)).trans h
    · exact congrArg Slot.loadView (s.slot_modSlot_other f hv)

/-- Setting a slot changes no byte of memory. -/
theorem State.sameMemory_modSlot (s : State) (w : Who) (f : Slot → Slot) : s.SameMemory (s.modSlot w f) := fun l n =>
  congrFun (congrFun (State.getByte_eq_of_tiles fun u => s.tile_modSlot_spad w f u) l) n

/-- The units whose contents, beside the booted slabs, give every byte and every slot. -/
def State.stored (s : State) :
    List (Nat × Tile) × List Host.Cell × List (Nat × List Host.Cell) × List (Nat × List Host.Cell) × Caps × Nat × List (Nat × Nat) :=
  (s.tiles, s.hbm, s.podMem, s.shadow, s.caps, s.stretch, s.vmap0)

theorem State.capWord_congr {s t : State} (hcaps : t.caps = s.caps) (hstretch : t.stretch = s.stretch) (hvmap : t.vmap0 = s.vmap0)
    (hbooted : ∀ k, (t.slab k).booted = (s.slab k).booted) (n : Nat) : t.capWord n = s.capWord n := by
  have hgroup : ∀ c, t.group c = s.group c := fun c => by
    simp only [State.group, State.slabTiles, State.phys0, hcaps, hvmap]
  simp only [State.capWord, hcaps, hstretch, hbooted, hgroup]

theorem State.loadView_congr {s t : State} (h : t.stored = s.stored) (hbooted : ∀ k, (t.slab k).booted = (s.slab k).booted) :
    t.loadView = s.loadView := by
  simp only [State.stored, Prod.mk.injEq] at h
  obtain ⟨htiles, hhbm, hpod, hshadow, hcaps, hstretch, hvmap⟩ := h
  have hcap := State.capWord_congr hcaps hstretch hvmap hbooted
  refine Prod.ext (funext fun l => funext fun n => ?_) (funext fun w => ?_)
  · cases l <;> simp only [State.loadView, State.getByte, State.tile, htiles, hhbm, hpod, hshadow, hcap]
  · simp only [State.loadView, State.slot, State.tile, htiles]

@[simp] theorem State.loadView_modClu (s : State) (c : Nat) (f : Cluster → Cluster) : (s.modClu c f).loadView = s.loadView :=
  State.loadView_congr rfl fun _ => rfl

theorem State.loadView_modSlab {s : State} {k : Nat} {f : Slab → Slab} (h : (f (s.slab k)).booted = (s.slab k).booted) :
    (s.modSlab k f).loadView = s.loadView := by
  refine State.loadView_congr rfl fun j => ?_
  by_cases hj : k = j
  · subst hj
    simp only [State.modSlab, State.slab, kvGet_kvSet_same] at h ⊢
    exact h
  · simp only [State.modSlab, State.slab, kvGet_kvSet_other _ _ _ hj]

end Sys2Proof.Machine
end

section
/-! SUPPORT. A load on its way, step by step: its translation, the lines it touches, the requests it makes and the parts it reads leave
every byte and every vector register (11 R217 to R233, R405; 12 R240; 15 R303). -/

namespace Sys2Proof.Machine

/-- A fold whose steps leave the view leaves it. -/
theorem State.loadView_foldl {β : Type} {f : State → β → State} (h : ∀ s b, (f s b).loadView = s.loadView) (l : List β) (s : State) :
    (l.foldl f s).loadView = s.loadView := foldl_keeps State.loadView f h l s

@[simp] theorem State.loadView_logArrival (s : State) (t kind slot off : Nat) (v : Word) :
    (s.logArrival t kind slot off v).loadView = s.loadView :=
  State.loadView_modTile (fun x => by split <;> rfl) fun x => by split <;> rfl

@[simp] theorem State.loadView_logLoads (s : State) (w : Who) (p : Pend) (a : Acc) (rs : List (Spec × Word)) :
    (s.logLoads w p a rs).loadView = s.loadView := by
  unfold State.logLoads
  split
  · unfold State.logPort
    split
    · exact s.loadView_logArrival ..
    · rfl
  · exact State.loadView_foldl (fun s _ => s.loadView_logArrival ..) _ s

@[simp] theorem State.loadView_startWalk (s : State) (t ctx va : Nat) : (s.startWalk t ctx va).loadView = s.loadView :=
  State.loadView_modSlab (by repeat' split
                             all_goals rfl)

@[simp] theorem State.loadView_lookup (s : State) (t ctx va : Nat) : (s.lookup t ctx va).2.loadView = s.loadView := by
  unfold State.lookup
  repeat' split
  · exact State.loadView_modTile (fun _ => rfl) fun _ => rfl
  · exact State.loadView_modTile (fun _ => rfl) fun _ => rfl
  · rfl

@[simp] theorem State.loadView_globPiece (s : State) (t ctx va : Nat) (need : Need) :
    (s.globPiece t ctx va need .thread).2.loadView = s.loadView := by
  unfold State.globPiece
  dsimp only
  have hl := s.loadView_lookup t ctx va
  split
  · split <;> rfl
  · split
    · split <;> exact hl
    · exact hl

theorem State.loadView_resolvePieces (s : State) (t ctx : Nat) (red : Option (Nat × Nat)) (am : Nat) (need : Need)
    (l : List (Nat × Nat)) : (s.resolvePieces t ctx red am need .thread l).2.loadView = s.loadView := by
  induction l generalizing s with
  | nil => rfl
  | cons e l ih =>
    obtain ⟨a, k⟩ := e
    have hrest : ∀ one : Except Resolved (Loc × Placement × Nat) × State, one.2.loadView = s.loadView →
        (match one with
          | (.error e, s') => (e, s')
          | (.ok (p, plc, d), s') =>
            match s'.resolvePieces t ctx red am need .thread l with
            | (.ok ps d', s'') => (.ok (⟨p, k, plc⟩ :: ps) (max d d'), s'')
            | r => r : Resolved × State).2.loadView = s.loadView := by
      intro one hone
      split
      · exact hone
      · have hl := (ih _).trans hone
        split
        · next heq => rwa [heq] at hl
        · exact hl
    refine hrest _ ?_
    split
    · split
      · split <;> rfl
      · rfl
    · split
      · split <;> rfl
      · rfl
    · have hg := s.loadView_globPiece t ctx a need
      split
      · next heq => rwa [heq] at hg
      · next heq => rwa [heq] at hg

/-- Requests to other modules stand in the list of those alone (15 R303). -/
@[simp] theorem State.loadView_addPod (s : State) (w : Who) (seq code : Nat) (pc ev : Word) (ps : List Part) :
    (s.addPod w seq code pc ev ps).loadView = s.loadView :=
  State.loadView_foldl (fun s p => by
    split
    · exact State.loadView_congr rfl fun _ => rfl
    · rfl) ps s

@[simp] theorem State.loadView_dropPod (s : State) (thr seq : Nat) (l : Loc) : (s.dropPod thr seq l).loadView = s.loadView :=
  State.loadView_congr rfl fun _ => rfl

@[simp] theorem State.loadView_wantWake (s : State) (cl : Nat) : (s.wantWake cl).loadView = s.loadView := by
  unfold State.wantWake
  repeat' split
  · rfl
  · exact State.loadView_modSlab rfl
  · exact s.loadView_modClu ..
  · rfl

@[simp] theorem State.loadView_farHeld (s : State) (t : Nat) (ps : List Part) : (s.farHeld t ps).2.loadView = s.loadView := by
  unfold State.farHeld
  dsimp only
  repeat' split
  · rfl
  · exact State.loadView_foldl (fun s _ => s.loadView_wantWake _) _ s
  · rfl

/-- A record that was corrected is in the module log alone (21 R341). -/
theorem State.loadView_record {s : State} {r : FaultRec} (h : r.outcome = 0) : (s.record r).loadView = s.loadView := by
  unfold State.record
  simp only [h]
  exact State.loadView_congr rfl fun _ => rfl

@[simp] theorem State.loadView_evictLine (s : State) (cl : Nat) (l : Line) : (s.evictLine cl l).loadView = s.loadView := by
  unfold State.evictLine
  split
  · split
    · rfl
    · exact s.loadView_modClu ..
  · exact s.loadView_modClu ..

@[simp] theorem State.loadView_touchLine (s : State) (cl ln rd : Nat) (dirty : Bool) (c : Option Nat) :
    (s.touchLine cl ln rd dirty c).loadView = s.loadView := by
  unfold State.touchLine
  dsimp only
  repeat' split
  all_goals simp

@[simp] theorem State.loadView_handleOverflow (s : State) (cl : Nat) : (s.handleOverflow cl).loadView = s.loadView := by
  unfold State.handleOverflow
  dsimp only
  split
  · rfl
  · refine (State.loadView_foldl (fun s r => ?_) _ _).trans (s.loadView_modClu ..)
    repeat' split
    · rfl
    · exact s.loadView_modClu ..
    · exact (State.loadView_modClu ..).trans (State.loadView_record rfl)

@[simp] theorem State.loadView_nearCopy (s : State) (home mine ln : Nat) : (s.nearCopy home mine ln).loadView = s.loadView := by
  unfold State.nearCopy
  dsimp only
  repeat' split
  all_goals simp

@[simp] theorem State.loadView_touchLoad (s : State) (t : Nat) (plc : Placement) (pa rd : Nat) :
    (s.touchLoad t plc pa rd).loadView = s.loadView := by
  unfold State.touchLoad
  dsimp only
  repeat' split
  all_goals simp

@[simp] theorem State.loadView_touchLoads (s : State) (t : Nat) (ps : List Part) (rd : Nat) :
    (s.touchLoads t ps rd).loadView = s.loadView := State.loadView_foldl (fun s _ => s.loadView_touchLoad ..) _ s

theorem Job.isLoad_withAcc (j : Job) (a : Acc) : (j.withAcc a).isLoad = j.isLoad := by cases j <;> rfl

/-- An update of pending instructions that keeps their numbers and their kinds keeps the view. -/
theorem Slot.loadView_mapPend (x : Slot) (f : Pend → Pend) (hseq : ∀ p, (f p).seq = p.seq) (hload : ∀ p, (f p).job.isLoad = p.job.isLoad) :
    ({ x with pend := x.pend.map f } : Slot).loadView = x.loadView := by
  simp only [Slot.loadView, List.map_map, Function.comp_def, hseq, hload]

@[simp] theorem Slot.loadView_keepPart (x : Slot) (seq i : Nat) (bs : List Byte) : (x.keepPart seq i bs).loadView = x.loadView :=
  x.loadView_mapPend _ (fun p => by split <;> rfl) fun p => by split <;> rfl

@[simp] theorem Slot.loadView_squash (x : Slot) (t : Nat) (who : Option Party) : (x.squash t who).loadView = x.loadView :=
  x.loadView_mapPend _ (fun p => by split <;> rfl) fun p => by split <;> rfl


/-- A map whose values are changed each by itself keeps every reading that the changes keep. -/
theorem kvGet_map_keeps {α γ : Type} (read : α → γ) {f : Nat × α → α} (h : ∀ e, read (f e) = read e.2) (m : List (Nat × α)) (k : Nat)
    (d : α) : read (kvGet (m.map fun e => (e.1, f e)) k d) = read (kvGet m k d) := by
  induction m with
  | nil => rfl
  | cons e m ih =>
    simp only [List.map_cons, kvGet]
    split
    · exact h e
    · exact ih

/-- The loads of a tile read ahead of an acquire, to be read again (12 R244). -/
def Tile.squash (x : Tile) (t : Nat) (who : Option Party) : Tile :=
  { x with slots := x.slots.map fun y => (y.1, y.2.squash t who) }

theorem Tile.loadView_squash (x : Tile) (t : Nat) (who : Option Party) (k : Nat) :
    ((x.squash t who).slot k).loadView = (x.slot k).loadView :=
  kvGet_map_keeps Slot.loadView (f := fun y => y.2.squash t who) (fun y => y.2.loadView_squash t who) x.slots k Slot.cold

@[simp] theorem State.loadView_squash (s : State) (who : Option Party) : (s.squash who).loadView = s.loadView := by
  have htile : ∀ {γ : Type} (read : Tile → γ), (∀ x t, read (x.squash t who) = read x) → ∀ u,
      read (kvGet (s.tiles.map fun e => (e.1, e.2.squash e.1 who)) u Tile.cold) = read (s.tile u) := fun read h u =>
    kvGet_map_keeps read (f := fun e => e.2.squash e.1 who) (fun e => h e.2 e.1) s.tiles u Tile.cold
  unfold State.squash
  split
  · exact State.loadView_of_tiles (htile Tile.spad fun _ _ => rfl) fun w =>
      htile (fun x => (x.slot w.slot).loadView) (fun x t => x.loadView_squash t who w.slot) w.tile
  · rfl

/-- A part read at its place (11 R405; 12 R244). -/
theorem State.loadView_servePart (s : State) (w : Who) (p : Pend) (a : Acc) (rd i : Nat) :
    (s.servePart w p a rd i).loadView = s.loadView := by
  unfold State.servePart
  split
  · next q va _ _ _ =>
    dsimp only
    have hfar := s.loadView_farHeld w.tile [{ q with loc := s.shadowLoc (s.slot w).red va .read q.loc }]
    split
    · next heq => rwa [heq] at hfar
    · next u heq =>
      rw [heq] at hfar
      have hread : ∀ (v : Who) (l : Loc) (ps : List Part) (n m : Nat) (bs : List Byte),
          (((u.touchLoads w.tile ps rd).dropPod n m l).modSlot v fun x => x.keepPart p.seq i bs).loadView = s.loadView :=
        fun v l ps n m bs => by
          rw [State.loadView_modSlot (Slot.loadView_keepPart ..), State.loadView_dropPod, State.loadView_touchLoads, hfar]
      split
      · exact hfar
      · split
        · rw [State.loadView_squash, hread]
        · rw [hread]
  · rfl

end Sys2Proof.Machine
end

section
/-! SUPPORT. A load as it reaches its place and completes, and vector instructions in memory and in the lanes (08 R152 to R154, R167; 11 R405). -/

namespace Sys2Proof.Machine

theorem Slot.pend?_of_ripe {x : Slot} {now seq : Nat} {p : Pend} (h : x.ripe now seq = some p) : x.pend? seq = some p :=
  (Option.filter_eq_some_iff.mp h).1

/-- Slots of one view agree on which pending instruction is a load. -/
theorem Slot.isLoad_of_loadView {x y : Slot} {n : Nat} {p q : Pend} (h : x.loadView = y.loadView) (hp : x.pend? n = some p)
    (hq : y.pend? n = some q) : p.job.isLoad = q.job.isLoad := by
  have hfind : ∀ (z : Slot) (r : Pend), z.pend? n = some r → (z.loadView.2.find? fun e => e.1 == n) = some (r.seq, r.job.isLoad) := by
    intro z r hr
    simp only [Slot.loadView, List.find?_map]
    exact congrArg _ hr
  have hsame := hfind x p hp
  rw [h, hfind y q hq] at hsame
  exact (congrArg Prod.snd (Option.some.inj hsame)).symm

/-- The translation of a load (11 R217, R233). -/
theorem State.loadView_accNow (s : State) (w : Who) (p : Pend) (a : Acc) : (s.accNow w p a .read).2.loadView = s.loadView := by
  unfold State.accNow
  split
  · rfl
  · have hr := s.loadView_resolvePieces w.tile ((s.slot w).ctx.getD 0) (s.slot w).red a.am .read a.pieces
    dsimp only
    split
    · next heq =>
      rw [heq] at hr
      refine (State.loadView_modSlot (Slot.loadView_mapPend _ _ (fun q => ?_) fun q => ?_)).trans
        ((State.loadView_addPod ..).trans hr)
      · split <;> rfl
      · split
        · exact q.job.isLoad_withAcc _
        · rfl
    · next heq =>
      rw [heq] at hr
      exact (State.loadView_startWalk ..).trans hr
    · exact hr

/-- A load that goes on at its place is still pending, in a state of the same view (11 R225, R405; 23 R363). -/
theorem State.arrive_perform {s s1 : State} {w : Who} {p q : Pend} {a a' : Acc} (h : s.arrive w p a .read = .perform q a' s1) :
    s1.loadView = s.loadView ∧ (s1.slot w).pend? p.seq = some q := by
  have hacc := s.loadView_accNow w p a
  unfold State.arrive at h
  split at h
  · cases h
  · cases h
  · next heq =>
    rw [heq] at hacc
    dsimp only at h
    split at h
    · cases h
    · split at h
      · cases h
      · split at h
        · cases h
        · split at h
          · next hq => 
            cases h
            exact ⟨hacc, hq⟩
          · cases h

/-- No error of storage is found (23 R363). -/
theorem State.readError_sound (s : State) (w : Who) (p : Pend) (q : Option Part) : s.readError w p .sound q = (s, true) := by
  cases q with
  | none => rfl
  | some q => 
    obtain ⟨l, n, plc⟩ := q
    cases l <;> rfl

/-- A load served to its end leaves every byte and every vector register (11 R405; 12 R240). -/
theorem State.loadView_serveAcc {s s1 : State} {w : Who} {p q : Pend} {a a' : Acc} (hp : (s.slot w).pend? p.seq = some p)
    (hload : p.job.isLoad = true) (h : s.serveAcc w p a .read none .sound = .perform q a' s1) : s1.loadView = s.loadView := by
  unfold State.serveAcc at h
  split at h
  · next r b u harr =>
    obtain ⟨hview, hr⟩ := State.arrive_perform harr
    have hkind : r.job.isLoad = true := (Slot.isLoad_of_loadView (State.slot_of_loadView hview w) hr hp).trans hload
    have hneed : (Need.read == Need.write) = false := rfl
    simp only [hneed, Bool.false_eq_true, if_false, State.readError_sound, ite_self] at h
    have hserved : ∀ (l : List Nat) (rd : Nat), (l.foldl (fun s i => s.servePart w r b rd i) u).loadView = s.loadView := fun l rd =>
      (State.loadView_foldl (fun s i => s.loadView_servePart w r b rd i) l u).trans hview
    cases hjob : r.job with
    | load | vload =>
      simp only [hjob] at h
      split at h
      · cases h
        exact hserved _ _
      · cases h
    | _ => simp [hjob, Job.isLoad] at hkind
  · next hno => exact absurd h (hno _ _ _)


/-- LOAD_COMPLETE of a vector load that has been served to its end (08 R167; 11 R405). -/
theorem exec_loadComplete_vload {s s1 : State} {w : Who} {q q' : Pend} {v rd : Nat} {a a' : Acc}
    (hripe : (s.slot w).ripe s.now q.seq = some q) (hjob : q.job = .vload v a rd)
    (hserve : s.serveAcc w q a .read none .sound = .perform q' a' s1) (hjob' : q'.job = .vload v a' rd) (hdue : q'.due ≤ s1.now)
    (hgood : (s1.slot w).forGood q' = true) :
    ∃ rs, exec (.loadComplete w q.seq .sound) s = .next ((s1.logLoads w q' a' rs).modSlot w fun x =>
      (x.vwrite v 0 (q'.bytes a'.parts.length)).dropPend q.seq) := by
  refine ⟨(leWords (q'.bytes a'.parts.length ++ List.replicate 7 0)).map fun v => (Spec.z, v), ?_⟩
  show execLoadComplete w q.seq .sound s = _
  simp only [execLoadComplete, hripe, hjob, Job.reads, hserve, hjob', hgood, Nat.not_lt.mpr hdue, Bool.true_eq_false, or_self, if_false]

/-- A register written reads back the bytes (03 R52). -/
theorem Slot.vbytes_vwrite (x : Slot) (v off : Nat) (bs : List Byte) : (x.vwrite v off bs).vbytes v off bs.length = bs :=
  List.ext_getElem (by simp [Slot.vbytes, memRead]) fun k h _ => by
    have hk : k < bs.length := by simpa [Slot.vbytes, memRead] using h
    simp [Slot.vbytes, Slot.vwrite, memRead, memGet_memWrite, hk]

/-- A completed instruction is no longer pending (04 Table 4.3). -/
@[simp] theorem Slot.pend?_dropPend (x : Slot) (n : Nat) : (x.dropPend n).pend? n = none := by
  simp [Slot.pend?, Slot.dropPend]

/-- `vld` joins the pending loads with the bytes its shape covers (08 R167). -/
theorem exec_vld {s s1 s2 : State} {v : BitVec 4} {a : Spec} {rd am : BitVec 2} {la : BitVec 4} {p : BitVec 3} {vs : List Word} {c : Acc}
    {d : Nat} (hi : s.Issues (.vld v a rd am la p) ⟨onP p, [a], [], [], [v.toNat], am == 1⟩)
    (hops : s.operands s.focus [a] [] = .ok (vs, s1))
    (hopen : s1.openVec s.focus (wordOf (.vld v a rd am la p)) (vecAcc am (argN vs 0) (s1.slot s.focus).shape) (argN vs 0) .read =
      .go c d s2) (hout : (s2.slot s.focus).inWave = false) :
    exec (.vld v a rd am la p) s = .next (s.past (.vld v a rd am la p)
      (s2.openPend s.focus (.vld v a rd am la p) la (.vload v.toNat c rd.toNat) d (s2.latencies s.focus.tile c false))) := by
  show execVld v a rd am la p s = _
  simp only [execVld, State.issue_of_issues hi, State.withSrc_ok hops, hopen, hout, Bool.false_eq_true, if_false]

/-- An address in line for a vector access meets the checks of any access (08 R167; 22 R353). -/
theorem State.openVec_of_aligned (s : State) (w : Who) (word : Word) (a : Acc) {v : Word} (need : Need) (h : addrOf v % 16 = 0) :
    s.openVec w word a v need = s.openAcc w word a 1 need := by
  simp only [State.openVec, misaligned16, h, bne_self_eq_false, Bool.false_and, Bool.false_eq_true, if_false]

/-- A store where no bound register is enabled is checked against none (03 R56). -/
theorem State.checkedElems_of_off (s : State) (t : Nat) {bnds : List Bnd} (a : Acc) (ty cols : Nat) (data : List Byte)
    (h : (bnds.all fun b => !b.on) = true) : s.checkedElems t bnds a ty cols data = [] := if_pos h

/-- `vst` reads its register as it issues and joins the pending stores with the bytes (08 R167). -/
theorem exec_vst {s s1 s2 : State} {v : BitVec 4} {a : Spec} {rd am : BitVec 2} {la : BitVec 4} {p : BitVec 3} {vs : List Word} {c : Acc}
    {d : Nat} (hi : s.Issues (.vst v a rd am la p) ⟨onP p, [a], [], [v.toNat], [], am == 1⟩)
    (hops : s.operands s.focus [a] [] = .ok (vs, s1)) (halign : addrOf (argN vs 0) % 16 = 0)
    (hopen : s1.openAcc s.focus (wordOf (.vst v a rd am la p)) (vecAcc am (argN vs 0) (s1.slot s.focus).shape) 1 .write = .go c d s2)
    (hout : (s2.slot s.focus).inWave = false) (hoff : (s2.tile s.focus.tile).mx.bnd.toList.all (fun b => !b.on) = true) :
    let data := (s1.slot s.focus).vbytes v.toNat 0 (vecAcc am (argN vs 0) (s1.slot s.focus).shape).len
    exec (.vst v a rd am la p) s = .next (s.past (.vst v a rd am la p) (s2.openPend s.focus (.vst v a rd am la p) la
      (.store c (s1.slot s.focus).shape.ty data (s2.tile s.focus.tile).mx.bnd.toList 0 none rd.toNat)
      (d + (6 + (data.length + 127) / 128 - 1)) 0)) := by
  intro data
  show execVst v a rd am la p s = _
  simp only [execVst, State.issue_of_issues hi, State.withSrc_ok hops, State.openVec_of_aligned _ _ _ _ _ halign, hopen, State.storeData,
    hout, State.checkedElems_of_off _ _ _ _ _ _ hoff, List.isEmpty_nil, Bool.not_true, Bool.false_eq_true, if_false]
  rfl

/-- VECTOR_COMPLETE before the last lane cycle of the oldest pending instruction (08 R152). -/
theorem exec_vectorComplete_early {s : State} {w : Who} {p : VPend} {rest : List VPend} {e : Nat} (hpend : (s.slot w).vpend = p :: rest)
    (hend : s.laneEnd w p.since p.lanes = some e) (h : s.now < e) : exec (.vectorComplete w) s = .next s := by
  show execVectorComplete w s = _
  simp only [execVectorComplete, State.vectorEnd, hpend, hend, h, if_true]

/-- From then on it writes its results and raises its flags, and the next one's lane cycles begin after it (08 R152 to R154). -/
theorem exec_vectorComplete_due {s : State} {w : Who} {p : VPend} {rest : List VPend} {e : Nat} (hpend : (s.slot w).vpend = p :: rest)
    (hend : s.laneEnd w p.since p.lanes = some e) (h : e ≤ s.now) : exec (.vectorComplete w) s = .next (s.modSlot w fun x =>
      { (p.writes.foldl (fun x q => x.vwrite q.1 q.2.1 q.2.2) x).raiseFlags p.flags with
        vpend := rest.map fun q => { q with since := max q.since (e + 1) } }) := by
  show execVectorComplete w s = _
  simp only [execVectorComplete, State.vectorEnd, hpend, hend, Nat.not_lt.mpr h, if_false]

/-- Writing vector registers raises no flag. -/
theorem Slot.fstat_foldl_vwrite (x : Slot) (l : List (Nat × Nat × List Byte)) :
    (l.foldl (fun x q => x.vwrite q.1 q.2.1 q.2.2) x).fstat = x.fstat := 
  foldl_keeps Slot.fstat (fun x (q : Nat × Nat × List Byte) => x.vwrite q.1 q.2.1 q.2.2) (fun _ _ => rfl) l x

/-- Settles O37: `vld` and `vst` as they issue, a vector load as it completes, and the oldest pending vector instruction as it ends. -/
theorem vectorMemoryAndCompletion : Obligations.VectorMemoryAndCompletion := by
  refine ⟨?vld, ?vst, ?loadComplete, ?vectorComplete⟩
  case vld =>
    intro s s1 s2 v a rd am la p vs c d i hi _ hops hopen hfocus hout
    rw [State.cur, hfocus] at hopen
    exact exec_vld hi hops hopen hout
  case vst =>
    intro s s1 s2 v a rd am la p vs c d i acc data hi _ hops hfocus halign hopen hout hoff
    simp only [acc, data, State.cur, hfocus] at hopen ⊢
    exact exec_vst hi hops halign hopen hout hoff
  case loadComplete =>
    intro s s1 w q q' v a a' rd hripe hjob hserve hjob' hdue _ hgood bs
    obtain ⟨rs, hexec⟩ := exec_loadComplete_vload hripe hjob hserve hjob' hdue hgood
    have hload : q.job.isLoad = true := by rw [hjob]; rfl
    have hview : (s1.logLoads w q' a' rs).loadView = s.loadView :=
      (s1.loadView_logLoads w q' a' rs).trans (State.loadView_serveAcc (Slot.pend?_of_ripe hripe) hload hserve)
    have hv : ((s1.logLoads w q' a' rs).slot w).v = (s.slot w).v := congrArg Prod.fst (State.slot_of_loadView hview w)
    refine ⟨_, hexec, fun l n => ?_, ?_, ?_, fun k hk => ?_⟩
    · exact (State.sameMemory_modSlot _ w _ l n).trans (State.sameMemory_of_loadView hview l n)
    · rw [State.slot_modSlot, Slot.pend?_dropPend]
    · rw [State.slot_modSlot]
      exact Slot.vbytes_vwrite _ v 0 bs
    · rw [State.slot_modSlot, ← hv]
      have hout : ¬(2048 * v ≤ k ∧ k < 2048 * v + bs.length) := by omega
      exact (memGet_memWrite ..).trans (if_neg hout)
  case vectorComplete =>
    intro s w p rest e hpend hend
    refine ⟨exec_vectorComplete_early hpend hend, fun hdue => ⟨_, exec_vectorComplete_due hpend hend hdue, ?_, ?_, ?_,
      s.sameMemory_modSlot w _, fun u hu => s.slot_modSlot_other _ hu⟩⟩
    · rw [State.slot_modSlot]
    · rw [State.slot_modSlot]
      exact congrArg (· ||| wd p.flags) (Slot.fstat_foldl_vwrite ..)
    · intro v off bs hw
      rw [State.slot_modSlot, hw]
      exact Slot.vbytes_vwrite _ v off bs

end Sys2Proof.Machine
end
